-- ==== Sys2Proof/Word.lean ====
section
/-! DEFINITION. The words and names of agents that every other file uses. -/

namespace Sys2Proof

abbrev Byte := BitVec 8

abbrev Word := BitVec 32

/-- A context: 0 to 7 for T0 to T7, 8 for TM, the codes of CTX in R12. -/
abbrev Ctx := Fin 9

/-- A bay; a build with fewer bays (R23) uses the first ones. -/
abbrev Bay := Fin 4

/-- The management context (R147). -/
def tm : Ctx := 8

/-- The main and the priority queue of a context (R147). -/
inductive QSel
  | main
  | prio
  deriving DecidableEq, Repr

end Sys2Proof
end

