-- ==== Sys2Proof/Syntax.lean ====
section
/-! DEFINITION. The commands of the block: one constructor per row of the opcode table, with the row's operands. -/

namespace Sys2Proof

/-- Who makes a register access: the privilege tag and the debug bit of R216. -/
structure Access where
  tag : BitVec 4
  dbg : Bool
  deriving DecidableEq, Repr

/-- A request that comes by a register write or by a pin (R285, R294). -/
inductive ReqSrc
  | reg (a : Access) (v : Word)
  | pin (level : Bool)
  deriving DecidableEq, Repr

/-- A domain that sleeps and wakes (R21, R239). -/
inductive Domain
  | common
  | bay (b : Bay)
  deriving DecidableEq, Repr

/-- A place of an 8-byte word under ECC (R255): a byte offset into staging, or into a tile-bank slice. -/
inductive EccLoc
  | staging (off : Nat)
  | bank (b : Bay) (second : Bool) (off : Nat)
  deriving DecidableEq, Repr

/-- What a check of stored words reads: a word of a row, or a memory of the common subsystem of that number in R11. The table has no
row for what is found in a common memory (R274), so PATROL_READ carries it (log entry 46). -/
inductive EccWord
  | row (l : EccLoc)
  | common (unit : Nat)
  deriving DecidableEq, Repr

/-- What a check finds in one row slot (R259, R261): an attributed error, or a fault that reaches an output value and
changes the bits of `mask` of the accumulator of one row and one column of the bay. -/
inductive SlotErr
  | residue (col : Nat)
  | parityCol (col : Nat)
  | parityLane (lane : Nat)
  | corrupt (row col : Nat) (mask : BitVec 64)
  deriving DecidableEq, Repr

/-- A fault of nature in a row slot of a pass, in one bay. -/
structure SlotFault where
  bay  : Bay
  slot : Nat
  err  : SlotErr
  deriving DecidableEq, Repr

/-- Timing of a raise, a pass or a drain that arises below the level of this model: further empty slots for want of a gather lane, for a
staging conflict, or for data the fabric owes, and per bay the fc that other bays waited for it (R37, R196, R301). -/
structure Delay where
  starved : Nat := 0
  staging : Nat := 0
  fabric  : Nat := 0
  lag     : List Nat := []
  deriving DecidableEq, Repr

/-- What a RAISE_DONE brings: the columns whose raise bus showed a parity error, by bay (R259), and the delays. -/
structure RaiseEnd where
  parity : List (Bay × Nat) := []
  delay  : Delay := {}
  deriving DecidableEq, Repr

/-- Which drain ends, by the SEQ of its operation, and its delays. -/
structure DrainEnd where
  seq   : BitVec 8
  delay : Delay := {}
  deriving DecidableEq, Repr

/-- What a RECV had of its message when it made no more progress: bytes, and the fc from its match to the last of them (R213). -/
structure Arrived where
  data : List Byte := []
  fc   : Nat := 0
  deriving DecidableEq, Repr

/-- What BIST or the fuses say of one bay: whether it passed, which physical joint columns fail, and how many spare
rows each bank uses: banks 0 to 63 of the staging slice, 64 to 127 the tile-bank sub-banks (R249 to R251, R316). -/
structure BayTest where
  pass : Bool
  cols : List Nat
  rows : List (Nat × Nat)
  deriving DecidableEq, Repr

/-- A message header on the ring (R210). -/
structure MsgHeader where
  src   : BitVec 32
  sctx  : BitVec 4
  dctx  : BitVec 4
  tag   : Word
  count : Nat
  seqno : Nat
  deriving DecidableEq, Repr

/-- Why an offered message is refused (R211, R212). -/
inductive RefuseReason
  | tableFull
  | viewSmall
  deriving DecidableEq, Repr

/-- STATUS of a fabric response (R202): OK, or an error; reserved values are errors. -/
inductive PortStatus
  | ok
  | err
  deriving DecidableEq, Repr

/-- Which of the units of R319 grants. -/
inductive UnitSel
  | svu
  | topk
  deriving DecidableEq, Repr

/-- What a patrol read finds (R258). -/
inductive EccFind
  | clean
  | single
  | double
  deriving DecidableEq, Repr

/-- The rail that leaves its limits (R237). -/
inductive Rail
  | arr
  | mem
  deriving DecidableEq, Repr

/-- The commands, in the order of the opcode table. An instruction row names the queue whose head it dispatches. A
unit's row names the operation by context and SEQ. -/
inductive Instr
  | raise (c : Ctx) (q : QSel)
  | gather (c : Ctx) (q : QSel)
  | pass (c : Ctx) (q : QSel)
  | seed (c : Ctx) (q : QSel)
  | drain (c : Ctx) (q : QSel)
  | fold (c : Ctx) (q : QSel)
  | blend (c : Ctx) (q : QSel)
  | reduce (c : Ctx) (q : QSel)
  | topk (c : Ctx) (q : QSel)
  | norm (c : Ctx) (q : QSel)
  | root (c : Ctx) (q : QSel)
  | rootAccept
  | lehrSetup
  | lehrIteration
  | rootComplete
  | rough (c : Ctx) (q : QSel)
  | mask (c : Ctx) (q : QSel)
  | csr (c : Ctx) (q : QSel)
  | copy (c : Ctx) (q : QSel)
  | scale (c : Ctx) (q : QSel)
  | send (c : Ctx) (q : QSel)
  | recv (c : Ctx) (q : QSel)
  | atomAdd (c : Ctx) (q : QSel)
  | wait (c : Ctx) (q : QSel)
  | waitRelease (c : Ctx) (q : QSel)
  | signal (c : Ctx) (q : QSel)
  | fence (c : Ctx) (q : QSel)
  | loop (c : Ctx) (q : QSel)
  | lock (c : Ctx) (q : QSel)
  | unlock (c : Ctx) (q : QSel)
  | lockCommitEnd (c : Ctx)
  | lockBroken (c : Ctx)
  | mark (c : Ctx) (q : QSel)
  | watch (c : Ctx) (q : QSel)
  | scrub (c : Ctx) (q : QSel)
  | flags (c : Ctx) (q : QSel)
  | endProg (c : Ctx) (q : QSel)
  | queueFetch (c : Ctx) (q : QSel)
  | bayGrant (b : Bay) (drain : Bool)
  | unitGrant (u : UnitSel)
  | exchangeAdmit (send : Bool)
  | raiseDone (c : Ctx) (seq : BitVec 8) (x : RaiseEnd)
  | trussOpComplete (c : Ctx) (seq : BitVec 8) (faults : List SlotFault) (delay : Delay)
  | abftReplay (c : Ctx) (seq : BitVec 8) (faults : List SlotFault)
  | overflowReplay (c : Ctx) (seq : BitVec 8) (faults : List SlotFault)
  | drainComplete (c : Ctx) (x : DrainEnd)
  | svuOpComplete (c : Ctx) (seq : BitVec 8)
  | topkComplete (c : Ctx) (seq : BitVec 8)
  | completionRecordWrite (c : Ctx)
  | messageHeaderReceive (h : MsgHeader)
  | headerRetry (c : Ctx) (seq : BitVec 8)
  | clearToSend (c : Ctx) (seq : BitVec 8)
  | sendComplete (c : Ctx) (seq : BitVec 8)
  | recvComplete (c : Ctx) (seq : BitVec 8) (data : List Byte)
  | exchangeTimeout (c : Ctx) (seq : BitVec 8) (got : Arrived)
  | peerDown (addr : BitVec 31)
  | rdata (b : Bay) (tag : BitVec 14) (st : PortStatus) (data : List Byte)
  | aack (b : Bay) (tag : BitVec 12) (st : PortStatus)
  | fack (b : Bay) (tag : BitVec 12) (st : PortStatus)
  | portTmoExpiry (b : Bay) (writePort : Bool) (tag : BitVec 14)
  | watchdog (c : Ctx) (q : QSel)
  | eccWriteBack (l : EccLoc) (reader : Option Ctx)
  | patrolRead (w : EccWord) (found : EccFind)
  | columnRemap (b : Bay)
  | sillLaneSpared (b : Bay)
  | failWinExpiry (b : Bay) (lane : Bool) (col : Nat)
  | bayLeaveService (b : Bay)
  | doorbell (a : Access) (c : Ctx) (q : QSel) (v : Word)
  | featAck (a : Access) (c : Ctx) (v : Word)
  | bootlock (a : Access) (v : Word)
  | ctxRst (a : Access) (c : Ctx) (v : Word)
  | tenantResetDone (c : Ctx)
  | brst (a : Access) (b : Bay) (v : Word)
  | bayResetDone (b : Bay) (t : BayTest) (us : Nat)
  | warmRst (a : Access) (v : Word)
  | wrstN (level : Bool)
  | porstNAssert
  | porstNRelease (blkId : BitVec 15)
  | railExcursion (r : Rail)
  | furnaceStart (us : Nat)
  | fuseRead (cols : List (List Nat)) (lane : Option (Bay × Nat))
  | wakeSlot
  | fastStart (us : Nat)
  | bist (tests : List BayTest) (commonFails : Option Nat) (us : Nat)
  | remap (us : Nat)
  | ringJoin (us : Nat)
  | enumerationFlit (origin : BitVec 31) (addr : BitVec 31)
  | failover (a : Access) (c : BitVec 4) (target : Bool)
  | forcedFailover (a : Access) (c : BitVec 4) (target : Bool)
  | foTmoExpiry
  | failoverSwitch
  | retire (a : Access) (b : BitVec 2) (col : BitVec 6)
  | bayOut (a : Access) (b : BitVec 2) (force : Bool)
  | bayIn (a : Access) (b : BitVec 2)
  | clearCols (a : Access) (b : BitVec 2)
  | oppt (a : Access) (v : Word)
  | opsReq
  | opsAck (level : Bool)
  | opsRestart
  | wakeStart (d : Domain)
  | wakeDone (d : Domain)
  | bayClockStop (b : Bay)
  | powerGate (b : Bay)
  | commonClockStop
  | damperWindow
  | damperHardStop
  | shadowRefresh (addr : BitVec 16)
  | timeHi
  | traceDma (buf : Option Bay)
  | arm (a : Access) (buf : Option Bay) (v : Word)
  | fire (a : Access) (v : Word)
  | purge (a : Access) (c : Ctx) (v : Word)
  | freeze (r : ReqSrc)
  | counterFreeze
  | dbgHalt (r : ReqSrc)
  | halted
  | resume
  | snapshotStart (a : Access) (v : Word)
  | snapshotDone (portError : Bool)
  | scanOut (d : Domain) (wholeChain : Bool)
  | registerReadClear (a : Access) (addr : BitVec 16)
  | pairLowRead (a : Access) (addr : BitVec 16)
  | registerWrite (a : Access) (addr : BitVec 16) (v : Word)
  | messageRefused (c : Ctx) (seq : BitVec 8) (r : RefuseReason)
  deriving DecidableEq, Repr

end Sys2Proof
end

