-- ==== Sys2Proof/Decode.lean ====
section
/-! DEFINITION. The opcode table gives no row any bits: the block's commands are events and register accesses, not words.
(The 128-bit instructions of the queues are read in Machine/Operands.lean.) -/

namespace Sys2Proof

/-- The command a word spells by the table's bits: none, since no row has bits (log entry 24). -/
def decodeTableWord (_nbits _w : Nat) : Option Instr := none

end Sys2Proof
end

