-- ==== Sys2Proof/Config.lean ====
section
/-! DEFINITION. What the integrator fixes at design time (R3, R23 and the build table of the scope chapter), and the
free values: what the manual leaves undefined while the block goes on. -/

namespace Sys2Proof

/-- The three builds (R3). -/
inductive Build
  | fig1B
  | fig2B
  | fig4B
  deriving DecidableEq, Repr

namespace Config

/-- A byte the manual leaves undefined. It has no body: nothing is known of it. Applied to `State.nfree`, a counter
that every use advances (log entry 9). -/
opaque freeByte : Nat → Byte

/-- The byte an address of a memory holds after its contents became undefined (R237): the first argument names the
event, the second the address (log entry 9). -/
opaque freeMem : Nat → Nat → Byte

/-- Number of bays (R23). -/
def bays : Build → Nat
  | .fig1B => 1
  | .fig2B => 2
  | .fig4B => 4

/-- Spare joint columns per bay (R279). -/
def spares : Build → Nat
  | .fig1B => 1
  | .fig2B => 2
  | .fig4B => 3

/-- Upper limit of the power cap in W (R5), also the reset value of PWR_CAP. -/
def capMax : Build → Nat
  | .fig1B => 45
  | .fig2B => 85
  | .fig4B => 160

/-- FEAT_CAP (R152, R307). -/
def featCap : Build → BitVec 16
  | .fig4B => 0xFFFF
  | _ => 0x7FFF

/-- BLK_INFO.BUILD (start-up registers). -/
def buildCode : Build → Nat
  | .fig1B => 0
  | .fig2B => 1
  | .fig4B => 2

/-- Bytes of staging: one slice of 16 MiB per bay (R194). -/
def stagingBytes (b : Build) : Nat := 0x100_0000 * bays b

/-- The bays of the build as a mask (R24). -/
def bayMask (b : Build) : BitVec 4 := BitVec.ofNat 4 (2 ^ bays b - 1)

end Config

end Sys2Proof
end

