-- ==== Sys2Proof/Machine/State.lean ====
section
/-! DEFINITION. The state of one Figil block as plain data. The default of each field is its value in the reset state:
the value the manual gives, or the one the assumption log names (log entry 22). -/

namespace Sys2Proof.Machine

open Sys2Proof

/-- Why the model stops. -/
inductive Fault
  /-- Raised by a command that names a bay the build does not have (R23, R24): no such event exists. Safe. -/
  | absentBay (b : Bay)
  deriving DecidableEq, Repr

/-- Why a command has no meaning. -/
inductive Refusal
  /-- Raised by no meaning: it stands for a row without one. Safe. -/
  | notModelled (mnemonic : String)
  deriving DecidableEq, Repr

/-- The fifteen formats (R52). -/
inductive Fmt
  | fp64 | fp32 | fp32x2 | fp16 | bf16 | gf8e4 | gf8e5 | gf6e3 | gf6e2 | gf4 | int8 | int4 | int32 | ue8 | se43
  deriving DecidableEq, Repr

/-- An exact value (R76): a NaN, signalling or not, an infinity, or the dyadic number ±m·2^e with its sign of zero. -/
inductive Val
  | nan (sig : Bool)
  | inf (neg : Bool)
  | fin (neg : Bool) (m : Nat) (e : Int)
  deriving DecidableEq, Repr

/-- The sticky flags of R63. -/
structure Flags where
  ovf : Bool := false
  unf : Bool := false
  inx : Bool := false
  inv : Bool := false
  deriving DecidableEq, Repr

/-- A memory: the bytes that differ from what an unlisted address reads as. `bg = none`: unlisted bytes are zero
(R249); `bg = some k`: they are the undefined bytes `Config.freeMem k` (R237). -/
structure Mem where
  cells : List Host.Cell := []
  bg    : Option Nat := none
  deriving DecidableEq, Repr

/-- A tensor descriptor as read (R155); `clean` says that its reserved fields are 0. -/
structure Desc where
  base    : Nat := 0
  loc     : Bool := false
  aux     : Nat := 0
  auxLoc  : Bool := false
  trows   : Nat := 0
  tcols   : Nat := 0
  vrow0   : Nat := 0
  vcol0   : Nat := 0
  vrows   : Nat := 0
  vcols   : Nat := 0
  rstride : Nat := 0
  fctl    : BitVec 16 := 0
  spctl   : BitVec 8 := 0
  bstride : Nat := 0
  nnz     : Nat := 0
  clean   : Bool := true
  deriving DecidableEq, Repr

/-- A convolution geometry (R48, R173) with the input tensor and the format of its GATHER. -/
structure Geo where
  nb : Nat
  h : Nat
  w : Nat
  ch : Nat
  kh : Nat
  kw : Nat
  sh : Nat
  sw : Nat
  dh : Nat
  dw : Nat
  ph : Nat
  pw : Nat
  m0 : Nat
  ms : Nat
  k0 : Nat
  ks : Nat
  clean : Bool
  input : Desc := {}
  fa : Nat := 0
  deriving DecidableEq, Repr

/-- A bound mask slot (R102, R104): the view of the checked mask and its logical shape. -/
structure MaskSlot where
  view : Desc
  k    : Nat
  n    : Nat
  deriving DecidableEq, Repr

/-- What a RAISE records (R171): held format, face format after expansion, AHELD, TRANS, extents, descriptor copy, the
mask it used, the bay's rank among the bays of the RAISE (R27), and its place in the order of the RAISEs dispatched (R172). -/
structure RaiseRec where
  fmt   : Fmt
  face  : Fmt
  ahold : Bool
  trans : Bool
  k     : Nat
  n     : Nat
  db    : Desc
  mask  : Option MaskSlot := none
  rank  : Nat := 0
  no    : Nat := 0
  deriving DecidableEq, Repr

/-- The face tag of a bay (R171). -/
structure FaceTag where
  ctx  : Ctx
  rr   : RaiseRec
  fold : Bool
  deriving DecidableEq, Repr

/-- The face in a bay's joints: its columns, each in ascending k, and whether an element is infinite or NaN (R85). -/
structure Face where
  cols    : List (List Val)
  special : Bool
  deriving DecidableEq, Repr

/-- What began a chain (R41, R131). -/
inductive ChainKind
  | pass | seed | fold
  deriving DecidableEq, Repr

/-- A chain as the command processor follows it from its first operation's dispatch until its LAST pass completes (R40,
R41, R45). `isOpen`: no pass with LAST = 1 has been dispatched; `held`: the bays granted to its first operation, 0 before;
`taken`: the bays in which a DRAIN has taken its bank. -/
structure Chain where
  id     : Nat
  ctx    : Ctx
  kind   : ChainKind
  bays   : BitVec 4
  m      : Nat
  n      : Nat
  acc    : Fmt
  cpb    : Nat
  foldJ  : Nat := 0
  kTot   : Nat := 0
  isOpen : Bool := true
  held   : BitVec 4 := 0
  taken  : BitVec 4 := 0
  deriving DecidableEq, Repr

/-- The states of a tile bank (R44). -/
inductive BankState
  | free | filling | complete | draining
  deriving DecidableEq, Repr

/-- One bay's slice of a tile bank: its state, the chain it belongs to, the tile's shape in this bay (`n` columns from
tile column `col0`), replay count and exponent (R88), the folded mark (R132: the first column of its face and n), the columns of a whole face in
one bay (R43), whether a dispatched DRAIN has taken the bank (R45), the checksum pairs of R260, chk as a code, and the
contents. -/
structure Bank where
  st     : BankState := .free
  chain  : Nat := 0
  ctx    : Ctx := 0
  acc    : Fmt := .fp32
  m      : Nat := 0
  n      : Nat := 0
  col0   : Nat := 0
  r      : Nat := 0
  e      : Nat := 0
  folded : Option (Nat × Nat) := none
  cpb    : Nat := 1
  taken  : Bool := false
  chk    : List (Nat × Val) := []
  mem    : Mem := {}
  deriving DecidableEq, Repr

/-- Whose fabric request it is: an operation's, a queue fetch, a completion record, a trace write, a snapshot's. -/
inductive Owner
  | op (c : Ctx) (seq : BitVec 8)
  | fetch (c : Ctx) (q : QSel)
  | record (c : Ctx) (slot : Nat)
  | trace (ring : Ctx)
  | snapshot
  deriving DecidableEq, Repr

/-- STATUS and data of a response that waits for earlier ones (R204). -/
abbrev Reply := PortStatus × List Byte

/-- An RD request of a read port (R202): `line` is ADDR[43:6]; `reply` is a response that earlier requests hold back. -/
structure RdReq where
  tag   : BitVec 14
  line  : Nat
  far   : Bool
  ctx   : Ctx
  owner : Owner
  time  : Nat
  reply : Option Reply := none
  deriving DecidableEq, Repr

/-- Requests of a write port (R202): a posted write with its byte mask, an atomic add, a flush. -/
inductive WrReq
  | wr (line : Nat) (far : Bool) (ctx : Ctx) (mask : BitVec 64) (data : List Byte)
  | afadd (tag : BitVec 12) (line : Nat) (far : Bool) (ctx : Ctx) (lanes : BitVec 16) (addends : List Word) (owner : Owner) (time : Nat)
  | flush (tag : BitVec 12) (owner : Owner) (time : Nat)
  deriving DecidableEq, Repr

/-- The two fabric ports of a bay (R201, R202): requests not yet answered in order, next tags, the times of the PORT_TMO
expiries counted against each port (R275), the requests that wait for a tag in their order (R204, R207), and the tags of requests
that expired and whose responses have not come (R202, R205). -/
structure Port where
  rd    : List RdReq := []
  rdTag : BitVec 14 := 0
  wr    : List WrReq := []
  wrTag : BitVec 12 := 0
  rdExp : List Nat := []
  wrExp : List Nat := []
  rdWait : List RdReq := []
  wrWait : List WrReq := []
  rdGone : List (BitVec 14) := []
  wrGone : List (BitVec 12) := []
  deriving DecidableEq, Repr

/-- Where an operation stands: dispatched and waiting; reserving bays; granted; its writes issued and flushes awaited;
a WATCH that is armed (R189). -/
inductive Stage
  | waiting | granted | flushing | armed
  deriving DecidableEq, Repr

/-- Where a message stands (R208 to R213): a SEND waiting for admission, with its header offered, refused until a retry
time, or flowing; a RECV waiting for a header, or matched. -/
inductive XState
  | none | waitAdmit | offered | refused (retryAt : Nat) | flowing | recvWait | recvFlow (h : MsgHeader)
  deriving DecidableEq, Repr

/-- One operation in flight (R13): its mark and queue, the instruction with its descriptor copies (R157), the checks'
results, its bays and the data it has read, and what its completion record will say (R164). Times are in 1/20 ns. `why`
is the stall reason of the fc that pass (R281), `tFirst` since when its phase runs and `ran` the fc of the phase run before (R245),
`lat` the latency of its first read (R204), `tRes` its arrival or last reservation in fc that have run, and `lags` the lag of each bay (R301), `holes` its
HOLE items: mark, first slot and slots (R12, R14), `left` the bytes of a flowing message (R208) and `tProg` its last progress (R213).
An operation of the lehr stands under the SEQ of its ROOT (R144): `opc` says its unit, `kt` its product and stage, `fc` the time of an SVU
step, and `side` that it runs beside the main one. `pass` is the pass that a ROUGH or a product has reached, and `patch` the corrupt
values among its results: slab, row, column and mask (R122, R144, R261). -/
structure Op where
  ctx     : Ctx
  q       : QSel
  seq     : BitVec 8
  opc     : Nat
  word    : BitVec 128
  qidx    : Nat
  first   : Bool := false
  last    : Bool := false
  layer   : Nat := 0
  oper    : Nat := 0
  da      : Desc := {}
  db      : Desc := {}
  dO      : Desc := {}
  dx      : Desc := {}
  geo     : Option Geo := none
  rr      : Option RaiseRec := none
  mslot   : Option MaskSlot := none
  replay  : Bool × Nat := (false, 8)
  chain   : Nat := 0
  takes   : List (Bay × Nat) := []
  kt      : Nat := 0
  named   : BitVec 4 := 0
  gset    : BitVec 4 := 0
  resv    : BitVec 4 := 0
  stage   : Stage := .waiting
  tArr    : Nat := 0
  tGrant  : Nat := 0
  tFirst  : Nat := 0
  tDue    : Nat := 0
  rds     : Nat := 0
  got     : List (Nat × List Byte) := []
  wrs     : Nat := 0
  reraise : BitVec 4 := 0
  raised  : Bool := false
  streamed : Bool := false
  attempt : Nat := 0
  retry   : Nat := 0
  held    : List (Bay × Nat) := []
  cause   : Nat := 0
  bayFlags : List (Bay × Flags) := []
  ovfNow  : Bool := false
  status  : Nat := 0
  opFlags : Flags := {}
  nrep    : Bool := false
  amax    : Word := 0
  info    : Nat := 0
  aux     : Nat := 0
  member  : Bool := false
  fault   : Bool := false
  locksDt : Bool := false
  watch   : List (BitVec 8) := []
  x       : XState := .none
  peer    : Nat := 0
  hdr     : MsgHeader := ⟨0, 0, 0, 0, 0, 0⟩
  acks    : Nat := 0
  dest    : Word := 0
  why     : Nat := 0
  ran     : Nat := 0
  lat     : Nat := 0
  tRes    : Nat := 0
  lags    : List (Bay × Nat) := []
  holes   : List (BitVec 16 × Nat × Nat) := []
  left    : Nat := 0
  tProg   : Nat := 0
  side    : Bool := false
  fc      : Nat := 0
  pass    : Nat := 0
  patch   : List (Nat × Nat × Nat × BitVec 64) := []
  deriving DecidableEq, Repr

/-- A completion record on its way to the completion queue (R164), with the source that delivers it, whether a drain path
does, and the time of its delivery (R166), and the queue index that a dropped write must name (R199). -/
structure Rec where
  mark  : BitVec 16
  opc   : Nat
  status : Nat
  flags : Flags := {}
  nrep  : Bool := false
  q     : QSel
  rcnt  : Nat := 0
  rexp  : Nat := 0
  bays  : BitVec 4 := 0
  layer : Nat := 0
  oper  : Nat := 0
  time  : Nat := 0
  amax  : Word := 0
  info  : Nat := 0
  src   : Nat := 8
  qidx  : Nat := 0
  drain : Bool := false
  at_   : Nat := 0
  deriving DecidableEq, Repr

/-- LOOP in progress (R184 to R188): its SEQ and word, the body, oldest first, where it stands, and the LAYER and OPER it
carries. -/
structure Loop where
  seq   : BitVec 8
  inst  : BitVec 128
  body  : List (BitVec 128)
  count : Nat
  step  : Nat
  smask : BitVec 4
  run   : Nat
  pos   : Nat
  layer : Nat := 0
  oper  : Nat := 0
  deriving DecidableEq, Repr

/-- One queue of a context (R148, R149). `fetched` holds the entries read ahead by index, `bad` the entries whose fetch
failed with the fault code and position. -/
structure Queue where
  baseLo  : Word := 0
  baseHi  : BitVec 13 := 0
  size    : BitVec 5 := 4
  head    : BitVec 16 := 0
  tail    : BitVec 16 := 0
  fetched : List (Nat × BitVec 128) := []
  asked   : List Nat := []
  bad     : List (Nat × Nat × Nat) := []
  history : List (BitVec 128) := []
  loop    : Option Loop := none
  geo     : Option Geo := none
  watchR  : List (BitVec 8) := []
  watchD  : List (BitVec 8) := []
  layer   : BitVec 24 := 0
  oper    : BitVec 16 := 0
  since   : Word := 0
  lastAt  : Nat := 0
  waiting : Bool := false
  sigWait : Bool := false
  fence   : Option (List (BitVec 8)) := none
  prev    : Option (BitVec 8) := none
  deriving DecidableEq, Repr

/-- What a lock window holds back (R162): bytes (`true` for a window address) with the bits of staging bytes that belong to elements outside
the view and keep what stands there (R318), a semaphore add with the place of its posted word, atomic adds, a flag clear; each with
its share of the store buffer, and the first byte and length of the window ranges that were checked for it (R199). -/
inductive BufItem
  | bytes (w : List (Bool × Nat × Byte)) (keep : List (Nat × Byte)) (share : Nat) (spans : List (Nat × Nat))
  | sem (i : Fin 16) (add : Word) (post : Option (Bool × Nat))
  | atoms (w : List (Nat × Word)) (seq : BitVec 8) (spans : List (Nat × Nat))
  | clear (sel : Flags)
  deriving DecidableEq, Repr

/-- An open lock window (R162, R163): its queue, the index of the LOCK, members still to run, the store buffer in member
order, and the end of its commit once UNLOCK has started it. -/
structure LockWin where
  q     : QSel
  index : BitVec 16
  left  : Nat
  buf   : List BufItem := []
  share : Nat := 0
  commitEnd : Option Nat := none
  unlock : Option (BitVec 8) := none
  deriving DecidableEq, Repr

/-- The rough-out decision set (R122, R123): the region, the skipped (face, row pair) pairs and the gated groups. -/
structure Rough where
  row0 : Nat
  col0 : Nat
  rows : Nat
  cols : Nat
  skip : List (Nat × Nat)
  gate : List Nat
  deriving DecidableEq, Repr

/-- The fault record of R231. -/
structure FaultRec where
  code  : BitVec 8 := 0
  cls   : BitVec 3 := 0
  prioQ : Bool := false
  index : BitVec 16 := 0
  aux   : Word := 0
  time  : BitVec 64 := 0
  count : BitVec 16 := 0
  deriving DecidableEq, Repr

/-- What a context's queues do (R148): STOPPED before FEAT_ACK, running, FAULTED. -/
inductive QMode
  | stopped | active | faulted
  deriving DecidableEq, Repr

/-- One context (R147, R311). `nraise`: occupancy and lags of the RAISE before the next class T operation (R302); `recAt`: from when its
completion buffer may write the next record (R166). -/
structure CtxState where
  feat     : BitVec 16 := 0
  acked    : Bool := false
  mode     : QMode := .stopped
  qm       : Queue := {}
  qp       : Queue := {}
  cqLo     : Word := 0
  cqHi     : BitVec 13 := 0
  cqSize   : BitVec 5 := 4
  cqTail   : BitVec 16 := 0
  cqHead   : BitVec 16 := 0
  cqFull   : Bool := false
  cqPhase  : Bool := true
  cqIrq    : BitVec 16 := 1
  cqFlight : List (Nat × Bool × Bool) := []
  cqWrite  : BitVec 16 := 0
  cqWPhase : Bool := true
  descBase : BitVec 26 := 0
  sticky   : Vector Flags 4 := .replicate 4 {}
  replayEn : Bool := false
  replaySh : BitVec 4 := 8
  cullet   : Vector Word 4 := .replicate 4 0
  sem      : Vector Word 16 := .replicate 16 0
  wdog     : BitVec 24 := 0
  irqFault : Bool := false
  irqEpoch : Bool := false
  fault    : FaultRec := {}
  alt      : Bool := false
  epoch    : BitVec 8 := 0
  nset     : BitVec 4 := 0
  nleft    : BitVec 8 := 0
  nlag     : List Nat := []
  nocc     : Nat := 0
  nraise   : Nat × List Nat := (0, [])
  rstBusy  : Bool := false
  seq      : BitVec 8 := 0
  chains   : List Chain := []
  masks    : Vector (Option MaskSlot) 8 := .replicate 8 none
  rough    : Option Rough := none
  lockWin  : Option LockWin := none
  recs     : List Rec := []
  recAt    : Nat := 0
  deriving DecidableEq, Repr

/-- Use of a spare joint column (BAY_RAS). -/
inductive SpareUse
  | free | checksum | data | retired
  deriving DecidableEq, Repr

/-- A failure count of a joint column or sill lane and the time of its first counted error (R266). -/
structure FailCount where
  lane  : Bool
  col   : Nat
  count : Nat
  first : Nat
  deriving DecidableEq, Repr

/-- An OUT in progress (R272). -/
inductive OutCmd
  | graceful | forced
  deriving DecidableEq, Repr

/-- The array states of R239. -/
inductive PState
  | powerGated | clockStopped | waking | running
  deriving DecidableEq, Repr

/-- One trace record (R286); `mflg` holds bits [3:0], `ctx` 15 for none. -/
structure TraceRec where
  typ   : Nat
  eng   : Nat
  ctx   : Nat
  seq   : BitVec 8 := 0
  mflg  : BitVec 4 := 0
  time  : Word
  layer : Nat := 0
  oper  : Nat := 0
  arg   : Nat := 0
  deriving DecidableEq, Repr

/-- A trace buffer (R288, R289). `recs` are the undelivered records, oldest first; in trigger-centred mode `recs` is
the pre part and `post` the post part; `stamp`: the fc in which the pre part was last written, and the records of that fc. -/
structure TraceBuf where
  mode      : BitVec 2 := 0
  en        : Bool := false
  pre       : BitVec 4 := 4
  recs      : List TraceRec := []
  post      : List TraceRec := []
  armed     : Bool := false
  triggered : Bool := false
  done      : Bool := false
  lost      : BitVec 16 := 0
  run       : Nat := 0
  dropped   : Nat := 0
  stamp     : Nat × Nat := (0, 0)
  deriving DecidableEq, Repr

/-- A trace ring (R290). `flight`: its records under way to memory; `gone`: responses still to come for records that a failed write took with
it (log entry 41). -/
structure Ring where
  baseLo : Word := 0
  baseHi : BitVec 12 := 0
  size   : BitVec 5 := 8
  wr     : BitVec 24 := 0
  rd     : BitVec 24 := 0
  en     : Bool := false
  stall  : Bool := false
  all    : Bool := false
  lost   : Word := 0
  loss   : Nat := 0
  flight : Nat := 0
  gone   : Nat := 0
  deriving DecidableEq, Repr

/-- A selectable counter and its configuration (R283). -/
structure SelCnt where
  cnt : BitVec 64 := 0
  cfg : Word := 0x20000000
  deriving DecidableEq, Repr

/-- One bay. `awakeAt`: when it last reached RUNNING; `wakeHeld`: its wake waits for admission (R248); `pendAt`: the time
of the retirement that waits (R267); `redo`: a remap moved a column under its face (R267); `backRan`: the fc that had run when its Truss was
last free again, woken or remapped (R301). -/
structure BayState where
  pstate  : PState := .powerGated
  wakes   : BitVec 16 := 0
  wakeReq : Bool := false
  wakeAt  : Nat := 0
  idleAt  : Nat := 0
  awakeAt : Nat := 0
  wakeHeld : Bool := false
  brst    : Bool := false
  oos     : Bool := false
  bistOk  : Bool := true
  outCmd  : Option OutCmd := none
  tag     : Option FaceTag := none
  face    : Option Face := none
  recs    : Vector (Option RaiseRec) 9 := .replicate 9 none
  bank0   : Bank := {}
  bank1   : Bank := {}
  fill1   : Bool := false
  truss   : Option (Ctx × BitVec 8) := none
  trussOn : Bool := false
  drain   : Option (Ctx × BitVec 8) := none
  drainOn : Bool := false
  spares  : List SpareUse := []
  remap   : List (Nat × Nat) := []
  retired : List Nat := []
  fails   : List FailCount := []
  pendCol : List Nat := []
  pendLane : Option Nat := none
  pendAt  : Nat := 0
  redo    : Bool := false
  backRan : Nat := 0
  abftSkip : Word := 0
  rows    : List (Nat × Nat) := []
  port    : Port := {}
  busyCyc : BitVec 64 := 0
  opsRet  : BitVec 64 := 0
  eccCor  : Word := 0
  eccUnc  : Word := 0
  lag     : Word := 0
  sel     : Vector SelCnt 8 := .replicate 8 {}
  tbuf    : TraceBuf := {}
  scanned : Bool := false
  deriving DecidableEq, Repr

/-- One matrix's result of a ROOT (R142). -/
structure RootStat where
  status : Nat
  iter   : Nat
  rst    : Nat
  stage  : Nat
  eps    : Word
  res    : Val
  deriving DecidableEq, Repr

/-- What the lehr does next with its job (R139 to R141). -/
inductive LehrNext
  | setup | iterate | finish
  deriving DecidableEq, Repr

/-- An operation of the lehr (R144, R145): a step of the SVU of `fc` fc, with the bytes it writes at its end; product `k` of an iteration,
the last one X·T; and its drain. -/
inductive LehrStep
  | svu (fc : Nat) (ws : List (Bool × Nat × List Byte))
  | product (k : Nat)
  | drain (k : Nat)
  deriving DecidableEq, Repr

/-- The lehr's job (R137 to R144). Matrices are row-major lists of exact FP32 values. `begun`: the operations of the setup or iteration
have been issued; `todo`: those that follow the one under way; `ws`: what that one writes; `chain`: the banks of the last product;
`patches`: the corrupt values left in each product of the iteration (R261); `bays`: the bays its products have used. -/
structure LehrJob where
  ctx      : Ctx
  seq      : BitVec 8
  mat      : Nat := 0
  next     : LehrNext := .setup
  begun    : Bool := false
  todo     : List LehrStep := []
  ws       : List (Bool × Nat × List Byte) := []
  chain    : Nat := 0
  patches  : List (List (Nat × Nat × Nat × BitVec 64)) := []
  bays     : BitVec 4 := 0
  n        : Nat
  eps      : Val
  restarts : Nat := 0
  cExp     : Int := 0
  c0Exp    : Int := 0
  x        : List Val := []
  m        : List Val := []
  r        : Val := .fin false 0 0
  it       : Nat := 0
  total    : Nat := 0
  rises    : Nat := 0
  met      : Option Nat := none
  best     : Val := .fin false 0 0
  bestStage : Nat := 0
  stage    : Nat := 0
  stats    : List RootStat := []
  deriving DecidableEq, Repr

/-- A log entry (R276) with the last interrupt window in which its source set PEND (R277). -/
structure LogEntry where
  code  : BitVec 8
  cls   : BitVec 3
  ctx   : BitVec 4
  typ   : BitVec 4
  id    : Word
  first : BitVec 64
  last  : BitVec 64
  count : Word
  win   : Nat
  deriving DecidableEq, Repr

/-- A memory window (R198). -/
structure Window where
  base  : Word := 0
  last  : Word := 0
  en    : Bool := false
  wr    : Bool := false
  tier  : BitVec 2 := 0
  owner : BitVec 4 := 0
  deriving DecidableEq, Repr

/-- A partition register (R197). -/
structure Part where
  first : BitVec 10 := 0
  last  : BitVec 10 := 0
  en    : Bool := false
  deriving DecidableEq, Repr

/-- The protection set-up (R220). -/
structure Prot where
  lock   : Bool := false
  pri    : Vector (BitVec 4) 9 := .replicate 9 0
  alt    : Vector (BitVec 4) 9 := .replicate 9 0
  part   : Vector Part 9 := .replicate 9 {}
  window : Vector Window 64 := .replicate 64 {}
  deriving DecidableEq, Repr

/-- A failover in progress (R226 to R228). -/
structure Failover where
  ctx    : Ctx
  target : Bool
  forced : Bool
  start  : Nat
  deriving DecidableEq, Repr

/-- The global and TM-only registers that no other structure holds. -/
structure Global where
  portTmo  : BitVec 24 := 0x3E8
  xchTmo   : BitVec 24 := 0x2710
  pwrCap   : BitVec 8 := 160
  bayPolicy : BitVec 8 := 0
  pgDelay  : BitVec 16 := 0x64
  opTgt    : Bool := false
  opCur    : Bool := false
  opBusy   : Bool := false
  opsReq   : Bool := false
  opsLow   : Bool := false
  opsAck   : Bool := false
  opRun    : List Domain := []
  blkId    : BitVec 15 := 0
  ringAddr : BitVec 31 := 0
  ringValid : Bool := false
  narrow   : Bool := false
  thresh   : BitVec 8 := 0x20
  hold     : BitVec 8 := 0x10
  failWin  : BitVec 16 := 0x3E8
  foStatDone : Bool := false
  foForced : Bool := false
  foCtx    : BitVec 4 := 0
  foTmo    : BitVec 24 := 0x3E8
  failover : Option Failover := none
  repBusy  : Bool := false
  repDone  : Bool := false
  notify   : BitVec 31 := 0
  notifyEn : Bool := false
  peerBase : BitVec 26 := 0
  peerCount : BitVec 13 := 0
  deriving DecidableEq, Repr

/-- The start-up sequencer and the reset pins (R249 to R252). -/
structure Boot where
  porstN  : Bool := false
  wrstN   : Bool := true
  phase   : BitVec 3 := 1
  ready   : Bool := false
  cfail   : Bool := false
  intr    : Bool := false
  bfail   : BitVec 4 := 0
  cold    : Bool := true
  started : Nat := 0
  released : Nat := 0
  running : Bool := false
  fuseCols : List (List Nat) := []
  deriving DecidableEq, Repr

/-- A flit that a shell in BYPASS forwards unchanged (R214). -/
inductive Flit
  | header (h : MsgHeader)
  | clearToSend (c : Ctx) (seq : BitVec 8)
  | refused (c : Ctx) (seq : BitVec 8) (r : RefuseReason)
  | data (c : Ctx) (seq : BitVec 8) (bytes : List Byte)
  | peerDown (addr : BitVec 31)
  deriving DecidableEq, Repr

/-- What the ring shell sends (R210 to R212, R214, R215, R254, R275). -/
inductive RingMsg
  | passed (f : Flit)
  | header (dest : Word) (h : MsgHeader)
  | clearToSend (h : MsgHeader)
  | refuse (h : MsgHeader) (r : RefuseReason)
  | data (dest : Word) (h : MsgHeader) (bytes : List Byte)
  | peerDown (dest : BitVec 31) (peer : Word)
  | join
  | enumAnswer (origin : BitVec 31) (blkId : BitVec 15) (build : Nat) (inService : BitVec 4)
  | enumForward (origin : BitVec 31) (addr : BitVec 31)
  deriving DecidableEq, Repr

/-- The exchange port and ring shell (R208 to R215). `tOut`: the time up to which the flowing messages' `left` is counted; `refused`: headers
that found the table full and have not been offered again (R211). -/
structure Exchange where
  joined  : Bool := false
  seqnos  : List (Nat × Nat) := []
  headers : List MsgHeader := []
  refused : List MsgHeader := []
  out     : List RingMsg := []
  tOut    : Nat := 0
  deriving DecidableEq, Repr

/-- Activity of a bay in a damper window (R245, R247): its unstalled fc, the active ones among them, and the sums of the
active coefficients at either point. -/
structure Activity where
  active : Nat := 0
  awake  : Nat := 0
  coef   : Nat := 0
  coefLow : Nat := 0
  deriving DecidableEq, Repr

/-- The damper (R244 to R248): DAMP_STAT, the cap of the current window, its energy in mW × 1/20 ns, the activity in it and
in the window before; `fcBase` fc of the window ran before time `fcFrom`, from which its fc are counted; `hardFrom`: when
the hard stop began; `fused`: the coefficients were read (R249); `ran`: the fc that have run since reset, stalls apart (R301). -/
structure Damper where
  n      : BitVec 7 := 64
  hard   : Bool := false
  wwait  : Bool := false
  est    : BitVec 16 := 0
  hardNow : Bool := false
  energy : Nat := 0
  start  : Nat := 0
  act    : Vector Activity 4 := .replicate 4 {}
  last   : Vector Activity 4 := .replicate 4 {}
  cap    : BitVec 8 := 160
  fcBase : Nat := 0
  fcFrom : Nat := 0
  hardFrom : Nat := 0
  fused  : Bool := false
  ran    : Nat := 0
  deriving DecidableEq, Repr

/-- Block-level counters and their control (R282, R285). `pending`: the changes of the freeze condition that have not taken effect, each with
its edge. -/
structure Counters where
  busy    : BitVec 64 := 0
  ops     : BitVec 64 := 0
  gsel    : Vector SelCnt 16 := .replicate 16 {}
  freeze  : Bool := false
  pinEn   : Bool := true
  pin     : Bool := false
  frozen  : Bool := false
  pending : List (Nat × Bool) := []
  deriving DecidableEq, Repr

/-- What a part of a snapshot image holds (R296). -/
inductive SnapKind
  | joints (b : Bay)
  | common
  | bank (b : Bay) (second : Bool)
  | staging (b : Bay)
  | trace (buf : Option Bay)
  deriving DecidableEq, Repr

/-- A part of a snapshot image: what it is, its size and the address of its first byte; the bytes it begins with, the memory that it copies
from `lo` on, and the offsets in it of the poisoned words, whose marks are free values of number `free` (R296, log entry 18). -/
structure SnapPart where
  kind  : SnapKind
  size  : Nat
  addr  : Nat
  head  : List Byte := []
  mem   : Mem := {}
  lo    : Nat := 0
  marks : List Nat := []
  free  : Nat := 0
  deriving DecidableEq, Repr

/-- Halt, snapshot and debug registers (R294 to R296). `reqWin`: a lock window was open when the halt was requested (R163); `snapAt`: when the
snapshot started. -/
structure Debug where
  halt    : Bool := false
  halted  : Bool := false
  force   : Bool := false
  hinEn   : Bool := true
  houtEn  : Bool := true
  hin     : Bool := false
  reqAt   : Option Nat := none
  reqWin  : Bool := false
  haltAt  : Nat := 0
  snapLo  : Word := 0
  snapHi  : BitVec 12 := 0
  snapSel : BitVec 8 := 0
  snapBusy : Bool := false
  snapErr : Bool := false
  snapAt  : Nat := 0
  image   : List SnapPart := []
  commonScanned : Bool := false
  deriving DecidableEq, Repr

/-- A stalled interval that has not ended: the operation, its reason and since when (R286). -/
structure StallRun where
  ctx    : Ctx
  seq    : BitVec 8
  side   : Bool
  reason : Nat
  since  : Nat
  deriving DecidableEq, Repr

/-- The block trace buffer, the rings and the trigger (R288 to R291), and the stalled intervals under way. -/
structure Trace where
  buf    : TraceBuf := {}
  stalls : List StallRun := []
  rings  : Vector Ring 9 := .replicate 9 {}
  src    : BitVec 3 := 0
  ttype  : BitVec 8 := 0
  tlayer : BitVec 24 := 0
  hi     : Word := 0
  deriving DecidableEq, Repr

/-- The answer of the register port (R216). -/
inductive Answer
  | ok (v : Word)
  | ack
  | err
  deriving DecidableEq, Repr

/-- A shadow (R217): a register's address, the value and the time it was taken. -/
structure Shadow where
  addr : BitVec 16
  val  : Word
  time : Nat
  deriving DecidableEq, Repr

/-- The register port: last answer, RD_AGE of each tag, latched high words by tag and address with the time they were
taken (R217, R219), shadows, and
writes posted to sleeping domains in the order of their last writes (R218). -/
structure RegPort where
  answer  : Answer := .ok 0
  rdAge   : Vector Word 16 := .replicate 16 0
  latches : List (BitVec 4 × BitVec 16 × Word × Nat) := []
  shadows : List Shadow := []
  posted  : List (BitVec 16 × Word) := []
  deriving DecidableEq, Repr

/-- The reliability unit (R255 to R257, R269, R276): poisoned 8-byte words, corrected errors counted per 1 KiB row with
the time of the latest, redirected rows, rows that had an uncorrectable error, the bay and lane of the spare sill lane, the
log, and whether an error of a common memory has stopped dispatch until a warm reset (R274). -/
structure Ras where
  poison  : List EccLoc := []
  rowErrs : List (EccLoc × Nat × Nat) := []
  redirected : List EccLoc := []
  uncRows : List EccLoc := []
  lane    : Option (Bay × Nat) := none
  log     : Vector (Option LogEntry) 64 := .replicate 64 none
  pend    : Bool := false
  lastEnt : BitVec 6 := 0
  lost    : BitVec 16 := 0
  lostWin : Nat := 0
  fatal   : Bool := false
  deriving DecidableEq, Repr

/-- The whole block. `fastOn`: the common fast clock runs; `fastReq`, `fastGo`, `fastAt`: its wake is asked for, has started,
and since when; `holdI`, `holdU`, `restart`: the sub-count of R243; `lastWake`: the start of the last bay wake (R240);
`nextId`: the next number of a chain or a RAISE; `nfree`: free values used so far, the model's own (log entry 9). -/
structure State where
  build   : Build := .fig4B
  clk     : Nat := 0
  holdI   : Nat := 0
  holdU   : Nat := 0
  restart : Nat := 0
  fastOn  : Bool := false
  fastReq : Bool := false
  fastGo  : Bool := false
  fastAt  : Nat := 0
  lastWake : Option Nat := none
  g       : Global := {}
  boot    : Boot := {}
  prot    : Prot := {}
  ctx     : Vector CtxState 9 := .replicate 9 {}
  bay     : Vector BayState 4 := .replicate 4 { spares := [.free, .free, .checksum] }
  ops     : List Op := []
  nextId  : Nat := 1
  rrPrio  : Fin 8 := 7
  rrMain  : Fin 8 := 7
  svu     : Option (Ctx × BitVec 8) := none
  topk    : Option (Ctx × BitVec 8) := none
  lehr    : Option LehrJob := none
  staging : Mem := {}
  ras     : Ras := {}
  xch     : Exchange := {}
  damp    : Damper := {}
  cnt     : Counters := {}
  trace   : Trace := {}
  dbg     : Debug := {}
  regs    : RegPort := {}
  nfree   : Nat := 0
  pending : List Instr := []
  deriving DecidableEq, Repr

/-- The block as cold reset leaves it, PORST_N still low (R221, R233, R249): every field at its default. -/
def State.reset : State := {}

end Sys2Proof.Machine
end

