-- ==== Sys2Proof/Machine/Flags.lean ====
section
/-! DEFINITION. Computations on the sticky flags (R63, R81, R190, R312). -/

namespace Sys2Proof.Machine

open Sys2Proof

/-- Both sets of flags: a flag is set when either has it. -/
def Flags.or (a b : Flags) : Flags :=
  ⟨a.ovf || b.ovf, a.unf || b.unf, a.inx || b.inx, a.inv || b.inv⟩

/-- The flags of `a` that `sel` does not name (R190). -/
def Flags.clear (a sel : Flags) : Flags :=
  ⟨a.ovf && !sel.ovf, a.unf && !sel.unf, a.inx && !sel.inx, a.inv && !sel.inv⟩

def Flags.ofInv (b : Bool) : Flags := { inv := b }

/-- Bits [3:0] as OVF, UNF, INX, INV: the order of STICKY, of FLAGS records and of completion records. -/
def Flags.toNat (a : Flags) : Nat :=
  a.ovf.toNat + 2 * a.unf.toNat + 4 * a.inx.toNat + 8 * a.inv.toNat

def Flags.ofNat (v : Nat) : Flags :=
  ⟨v.testBit 0, v.testBit 1, v.testBit 2, v.testBit 3⟩

/-- The union of a list of flags. -/
def Flags.union (l : List Flags) : Flags := l.foldl Flags.or {}

/-- STICKY (R312): four bits per bay, bays absent from the build reading 0. -/
def stickyWord (bays : Nat) (v : Vector Flags 4) : Nat :=
  (List.finRange 4).foldl (fun a b => if b.val < bays then a + (v.get b).toNat * 16 ^ b.val else a) 0

end Sys2Proof.Machine
end

