-- ==== Sys2Proof/Machine/Numeric.lean ====
section
/-! DEFINITION. Number formats (R52 to R58, R64): codes, exact values and rounding. -/

namespace Sys2Proof.Machine

open Sys2Proof

/-- Bits [lo + n − 1 : lo] of a number. -/
def bitField (v lo n : Nat) : Nat := (v >>> lo) % 2 ^ n

/-- Little-endian bytes of a number (R53). -/
def leBytes : Nat → Nat → List Byte
  | 0, _ => []
  | n + 1, v => BitVec.ofNat 8 v :: leBytes n (v >>> 8)

/-- The number that little-endian bytes hold (R53). -/
def leNat (l : List Byte) : Nat := l.foldr (fun b a => b.toNat + 256 * a) 0

/-- `⌈a / b⌉`. -/
def ceilDiv' (a b : Nat) : Nat := (a + b - 1) / b

/-- Format codes (R52); 0xF is reserved. -/
def Fmt.ofCode : Nat → Option Fmt
  | 0 => some .fp64 | 1 => some .fp32 | 2 => some .fp32x2 | 3 => some .fp16 | 4 => some .bf16
  | 5 => some .gf8e4 | 6 => some .gf8e5 | 7 => some .gf6e3 | 8 => some .gf6e2 | 9 => some .gf4
  | 10 => some .int8 | 11 => some .int4 | 12 => some .int32 | 13 => some .ue8 | 14 => some .se43
  | _ => none

/-- Bits per element (R52). -/
def Fmt.width : Fmt → Nat
  | .fp64 | .fp32x2 => 64
  | .fp32 | .int32 => 32
  | .fp16 | .bf16 => 16
  | .gf8e4 | .gf8e5 | .int8 | .ue8 | .se43 => 8
  | .gf6e3 | .gf6e2 => 6
  | .gf4 | .int4 => 4

/-- The GF formats, with exponent width, fraction width and bias (R58). -/
def Fmt.gf : Fmt → Option (Nat × Nat × Nat)
  | .gf8e4 => some (4, 3, 8)
  | .gf8e5 => some (5, 2, 16)
  | .gf6e3 => some (3, 2, 4)
  | .gf6e2 => some (2, 3, 1)
  | .gf4 => some (2, 1, 1)
  | _ => none

def Fmt.isGf (f : Fmt) : Bool := f.gf.isSome

def Fmt.isInt : Fmt → Bool
  | .int8 | .int4 | .int32 => true
  | _ => false

/-- The IEEE-layout formats: exponent width, fraction width, and whether subnormal codes are flushed (R54, R55). -/
def Fmt.ieee : Fmt → Option (Nat × Nat × Bool)
  | .fp64 => some (11, 52, false)
  | .fp32 => some (8, 23, false)
  | .fp16 => some (5, 10, true)
  | .bf16 => some (8, 7, true)
  | _ => none

namespace Val

def isNan : Val → Bool
  | .nan _ => true
  | _ => false

def isSnan : Val → Bool
  | .nan s => s
  | _ => false

def isInf : Val → Bool
  | .inf _ => true
  | _ => false

def isFin : Val → Bool
  | .fin _ _ _ => true
  | _ => false

def isZero : Val → Bool
  | .fin _ m _ => m == 0
  | _ => false

def neg : Val → Bool
  | .nan _ => false
  | .inf n => n
  | .fin n _ _ => n

/-- Zero with a sign. -/
def zero (n : Bool) : Val := .fin n 0 0

/-- The quiet NaN every NaN result is (R56). -/
def qnan : Val := .nan false

/-- The magnitude. -/
def abs : Val → Val
  | .nan s => .nan s
  | .inf _ => .inf false
  | .fin _ m e => .fin false m e

def negate : Val → Val
  | .nan s => .nan s
  | .inf n => .inf (!n)
  | .fin n m e => .fin (!n) m e

/-- The integer `m·2^(e − lo)` with its sign, for `lo ≤ e`. -/
def scaled (lo : Int) : Val → Int
  | .fin n m e => let k := (m : Int) * 2 ^ (e - lo).toNat; if n then -k else k
  | _ => 0

def expOf : Val → Int
  | .fin _ _ e => e
  | _ => 0

/-- The value of an integer times 2^e. -/
def ofInt (i : Int) (e : Int) : Val := if i == 0 then .fin false 0 0 else .fin (i < 0) i.natAbs e

/-- Exact sum of two finite values. A zero sum of two zeros of one sign keeps that sign, as IEEE 754 has it under
roundTiesToEven; every other zero sum is +0. -/
def addFin (a b : Val) : Val :=
  let lo := min a.expOf b.expOf
  let i := a.scaled lo + b.scaled lo
  if i == 0 then zero (a.neg && b.neg && a.isZero && b.isZero) else ofInt i lo

/-- Exact product of two finite values, the sign that of IEEE multiplication. -/
def mulFin : Val → Val → Val
  | .fin n m e, .fin n' m' e' => if m * m' == 0 then zero (n != n') else .fin (n != n') (m * m') (e + e')
  | _, _ => qnan

/-- A finite value times 2^k, exactly. -/
def scale2 (k : Int) : Val → Val
  | .fin n m e => if m == 0 then zero n else .fin n m (e + k)
  | v => v

/-- `a < b` for finite values. -/
def ltFin (a b : Val) : Bool :=
  let lo := min a.expOf b.expOf
  decide (a.scaled lo < b.scaled lo)

def leFin (a b : Val) : Bool := !ltFin b a

def eqFin (a b : Val) : Bool := leFin a b && leFin b a

/-- `a ≤ b` in the order of the numbers with the infinities; false with a NaN. -/
def le (a b : Val) : Bool :=
  match a, b with
  | .nan _, _ => false
  | _, .nan _ => false
  | .inf n, .inf n' => n || !n'
  | .inf n, .fin _ _ _ => n
  | .fin _ _ _, .inf n => !n
  | x, y => leFin x y

end Val

/-- Decodes an IEEE-layout code (R54, R55). -/
def decodeIeee (ew fw : Nat) (flush : Bool) (c : Nat) : Val :=
  let s := c.testBit (ew + fw)
  let e := bitField c fw ew
  let m := bitField c 0 fw
  let bias : Int := 2 ^ (ew - 1) - 1
  if e == 2 ^ ew - 1 then
    if m == 0 then .inf s else .nan (!m.testBit (fw - 1))
  else if e == 0 then
    if m == 0 || flush then Val.zero s else .fin s m (1 - bias - fw)
  else .fin s (2 ^ fw + m) (e - bias - fw)

/-- Decodes a GF code (R58). -/
def decodeGf (ew mw b : Nat) (c : Nat) : Val :=
  let s := c.testBit (ew + mw)
  let e := bitField c mw ew
  let m := bitField c 0 mw
  if e == 0 && m == 0 then (if s then Val.qnan else Val.zero false)
  else .fin s (2 ^ mw + m) ((e : Int) - b - mw)

/-- A two's-complement code of `w` bits as an integer (R59). -/
def signedOf (w c : Nat) : Int := if c.testBit (w - 1) then (c : Int) - 2 ^ w else c

/-- The value of an FP32X2 element (R57). -/
def pairValue (hi lo : Val) : Val :=
  match hi with
  | .fin _ _ _ =>
    match lo with
    | .fin _ _ _ => Val.addFin hi lo
    | v => v
  | v => v

/-- Decodes an element code under its format (R76 item 1). -/
def decodeFmt (f : Fmt) (c : Nat) : Val :=
  match f.ieee with
  | some (ew, fw, fl) => decodeIeee ew fw fl c
  | none =>
    match f.gf with
    | some (ew, mw, b) => decodeGf ew mw b c
    | none =>
      match f with
      | .int8 => Val.ofInt (signedOf 8 c) 0
      | .int4 => Val.ofInt (signedOf 4 c) 0
      | .int32 => Val.ofInt (signedOf 32 c) 0
      | .fp32x2 => pairValue (decodeIeee 8 23 false (bitField c 0 32)) (decodeIeee 8 23 false (bitField c 32 32))
      | .ue8 => if c == 0xFF then Val.qnan else .fin false 1 ((c : Int) - 127)
      | .se43 =>
        if c ≥ 0x7F then Val.qnan else if c == 0 then Val.zero false
        else .fin false (8 + bitField c 0 3) ((bitField c 3 4 : Int) - 10)
      | _ => Val.qnan

/-- floor(log2(num/den)) of a positive rational. -/
def ratLog2 (num den : Nat) : Int :=
  let k : Int := (Nat.log2 num : Int) - Nat.log2 den
  let big := if k ≥ 0 then den * 2 ^ k.toNat ≤ num else den ≤ num * 2 ^ (-k).toNat
  if big then k else k - 1

/-- Rounds num/den·2^e to `w` significant bits with spacing no finer than 2^qmin: to nearest with ties to even, or
upward when `up`. Answers mantissa, exponent and whether it is inexact. -/
def roundQ (w : Nat) (qmin : Option Int) (up : Bool) (num den : Nat) (e : Int) : Nat × Int × Bool :=
  if num == 0 then (0, 0, false) else
  let u0 := ratLog2 num den + e - (w - 1 : Nat)
  let u := match qmin with | none => u0 | some q => max u0 q
  let k := e - u
  let n := if k ≥ 0 then num * 2 ^ k.toNat else num
  let d := if k ≥ 0 then den else den * 2 ^ (-k).toNat
  let q := n / d
  let r := n % d
  let inc := if up then r != 0 else 2 * r > d || (2 * r == d && q % 2 == 1)
  (if inc then q + 1 else q, u, r != 0)

/-- The parameters of an IEEE result: precision, exponent of the finest spacing, largest finite value and smallest
normal (R54). -/
structure Prec where
  w    : Nat
  qmin : Int
  max  : Val
  tiny : Val
  deriving DecidableEq, Repr

def prec32 : Prec := ⟨24, -149, .fin false (2 ^ 24 - 1) 104, .fin false 1 (-126)⟩

def prec64 : Prec := ⟨53, -1074, .fin false (2 ^ 53 - 1) 971, .fin false 1 (-1022)⟩

/-- Rounds the exact number ±num/den·2^e, once, under roundTiesToEven (R54, R77): overflow to infinity, tininess after
rounding. -/
def roundExact (p : Prec) (n : Bool) (num den : Nat) (e : Int) : Val × Flags :=
  let (q, u, inexact) := roundQ p.w (some p.qmin) false num den e
  let r : Val := .fin false q u
  if Val.ltFin p.max r then (.inf n, { ovf := true, inx := true })
  else
    let v := if q == 0 then Val.zero n else .fin n q u
    (v, { inx := inexact, unf := inexact && Val.ltFin r p.tiny })

/-- Rounds a value to FP32 or FP64: NaNs become the canonical quiet NaN, a signalling one raises INV (R56). -/
def roundVal (p : Prec) : Val → Val × Flags
  | .nan s => (Val.qnan, Flags.ofInv s)
  | .inf n => (.inf n, {})
  | .fin n m e => roundExact p n m 1 e

def rne32 (v : Val) : Val := (roundVal prec32 v).1

def rne64 (v : Val) : Val := (roundVal prec64 v).1

/-- The code of a value that the IEEE-layout format holds exactly; NaN gives the canonical quiet NaN (R56). -/
def encodeIeee (ew fw : Nat) (v : Val) : Nat :=
  let bias : Int := 2 ^ (ew - 1) - 1
  let sgn (n : Bool) : Nat := if n then 2 ^ (ew + fw) else 0
  match v with
  | .nan _ => (2 ^ ew - 1) * 2 ^ fw + 2 ^ (fw - 1)
  | .inf n => sgn n + (2 ^ ew - 1) * 2 ^ fw
  | .fin n m e =>
    if m == 0 then sgn n else
    let top : Int := (Nat.log2 m : Int) + e
    let q : Int := max (top - fw) (1 - bias - fw)
    let f := if e ≥ q then m * 2 ^ (e - q).toNat else m / 2 ^ (q - e).toNat
    if top < 1 - bias then sgn n + f
    else sgn n + (top + bias).toNat * 2 ^ fw + (f - 2 ^ fw)

/-- The code of an accumulator value in FP64 or FP32, and of any value a format of the block holds exactly. -/
def encodeFmt (f : Fmt) (v : Val) : Nat :=
  match f with
  | .fp64 => encodeIeee 11 52 v
  | .fp32 => encodeIeee 8 23 v
  | .fp16 => encodeIeee 5 10 v
  | .bf16 => encodeIeee 8 7 v
  | .int8 => (v.scaled (min v.expOf 0) % 2 ^ 8).toNat
  | .int4 => (v.scaled (min v.expOf 0) % 2 ^ 4).toNat
  | .int32 => (v.scaled (min v.expOf 0) % 2 ^ 32).toNat
  | _ => 0

/-- The two words of an FP32X2 element, hi at the lower address (R57). -/
def encodePair (hi lo : Val) : Nat := encodeIeee 8 23 hi + 2 ^ 32 * encodeIeee 8 23 lo

/-- Integer square root, from the highest bit down. -/
def isqrtFrom : Nat → Nat → Nat → Nat
  | 0, r, _ => r
  | k + 1, r, n =>
    let t := r + 2 ^ k
    isqrtFrom k (if t * t ≤ n then t else r) n

/-- round64(sqrt v) for a value that is NaN or not negative, with its flags (R136). -/
def sqrt64 : Val → Val × Flags
  | .nan _ => (Val.qnan, {})
  | .inf n => (if n then Val.qnan else .inf false, {})
  | .fin n m e =>
    if m == 0 then (Val.zero n, {}) else
    let e' := if e % 2 == 0 then e else e - 1
    let m' := if e % 2 == 0 then m else 2 * m
    let big := m' * 2 ^ 128
    let s := isqrtFrom (Nat.log2 big / 2 + 1) 0 big
    let sticky := if s * s == big then 0 else 1
    roundExact prec64 false (2 * s + sticky) 1 ((e' - 128) / 2 - 1)

end Sys2Proof.Machine
end

