-- ==== Sys2Proof/Machine/Accum.lean ====
section
/-! DEFINITION. Accumulation (R76 to R84), the combination of parts (R91), the order of TOPK (R97) and the checksum sums
of R260. -/

namespace Sys2Proof.Machine

open Sys2Proof

/-- One accumulation step of R77: `acc + p` with one rounding. -/
def accStep (pr : Prec) (acc p : Val) : Val × Flags :=
  match acc, p with
  | .nan _, _ => (Val.qnan, {})
  | _, .nan _ => (Val.qnan, {})
  | .inf a, .inf b => if a == b then (.inf a, {}) else (Val.qnan, { inv := true })
  | .inf a, _ => (.inf a, {})
  | _, .inf b => (.inf b, {})
  | a, b =>
    match Val.addFin a b with
    | .fin n m e => if m == 0 then (Val.zero false, {}) else roundExact pr n m 1 e
    | v => (v, {})

/-- The product that R77 forms of two operand values, `none` when the zero-product rule (R78) forms none; `e` is the
replay exponent. DESIGN CHOICE (log entry 51): a quiet NaN raises no flag, against a pruned position either (R77, R81; R109 says INV). -/
def product (e : Nat) (x y : Val) : Option Val × Flags :=
  let sn := x.isSnan || y.isSnan
  if x.isNan || y.isNan then (some Val.qnan, Flags.ofInv sn)
  else if (x.isZero && y.isInf) || (y.isZero && x.isInf) then (some Val.qnan, { inv := true })
  else if x.isZero || y.isZero then (none, {})
  else if x.isInf || y.isInf then (some (.inf (x.neg != y.neg)), {})
  else (some (Val.scale2 (-(e : Int)) (Val.mulFin x y)), {})

/-- The pair step of R82. -/
def pairStep (hi lo p : Val) : (Val × Val) × Flags :=
  if !(hi.isFin && lo.isFin && p.isFin) then
    let (h, f) := accStep prec32 (pairValue hi lo) p
    ((h, Val.zero false), f)
  else
    let s := Val.addFin hi p
    let (h, f) := roundVal prec32 s
    if f.ovf then ((.inf s.neg, Val.zero false), { ovf := true, inx := true })
    else
      let h := if s.isZero then Val.zero false else h
      let (l, f') := accStep prec32 lo (Val.addFin s h.negate)
      ((h, l), f')

/-- Renormalisation of a pair by DRAIN (R83). -/
def renorm (hi lo : Val) : (Val × Val) × Flags :=
  match hi with
  | .nan _ => ((Val.qnan, Val.zero false), {})
  | .inf n => ((.inf n, Val.zero false), {})
  | .fin _ _ _ =>
    if !lo.isFin then ((match lo with | .inf n => .inf n | _ => Val.qnan, Val.zero false), {})
    else
      let v := Val.addFin hi lo
      if v.isZero then ((Val.zero false, Val.zero false), {})
      else
        let (s, f) := roundVal prec32 v
        if f.ovf then ((.inf v.neg, Val.zero false), { ovf := true, inx := true })
        else
          let t := Val.addFin v s.negate
          ((s, if t.isZero then Val.zero false else t), {})

/-- An accumulator as a bank holds it (R39). -/
inductive AccV
  | one (v : Val)
  | two (hi lo : Val)
  | int (b : BitVec 32)
  deriving DecidableEq, Repr

/-- The seed of a chain's first pass (R38, R82). -/
def accZero : Fmt → AccV
  | .fp32x2 => .two (Val.zero false) (Val.zero false)
  | .int32 => .int 0
  | _ => .one (Val.zero false)

/-- The code a bank stores for an accumulator (R39). -/
def accEncode (f : Fmt) : AccV → Nat
  | .one v => encodeFmt f v
  | .two h l => encodePair h l
  | .int b => b.toNat

/-- The accumulator that a bank's code stands for. -/
def accDecode (f : Fmt) (c : Nat) : AccV :=
  match f with
  | .fp32x2 => .two (decodeFmt .fp32 (bitField c 0 32)) (decodeFmt .fp32 (bitField c 32 32))
  | .int32 => .int (BitVec.ofNat 32 c)
  | f => .one (decodeFmt f c)

/-- The value an accumulator stands for, hi + lo in pair mode. -/
def accValue : AccV → Val
  | .one v => v
  | .two h l => pairValue h l
  | .int b => Val.ofInt b.toInt 0

/-- One product added to an accumulator (R77, R82, R84). -/
def accAdd (f : Fmt) (e : Nat) (a : AccV) (x y : Val) : AccV × Flags :=
  match a with
  | .int b =>
    let s := b.toInt + x.scaled 0 * y.scaled 0
    (.int (BitVec.ofInt 32 s), { ovf := decide (s < -2 ^ 31 ∨ s ≥ 2 ^ 31) })
  | .one v =>
    match product e x y with
    | (none, fl) => (.one v, fl)
    | (some p, fl) =>
      let (r, fl') := accStep (if f == .fp64 then prec64 else prec32) v p
      (.one r, fl.or fl')
  | .two h l =>
    match product e x y with
    | (none, fl) => (.two h l, fl)
    | (some p, fl) =>
      let ((h', l'), fl') := pairStep h l p
      (.two h' l', fl.or fl')

/-- The dot product of R77: products in ascending k from the seed. -/
def dotFrom (f : Fmt) (e : Nat) (seed : AccV) (xs ys : List Val) : AccV × Flags :=
  (xs.zip ys).foldl (fun s xy => let (a, fl) := accAdd f e s.1 xy.1 xy.2; (a, s.2.or fl)) (seed, {})

/-- IEEE addition with its flags: signed zeros, canonical NaN (R91). -/
def ieeeAdd (pr : Prec) (a b : Val) : Val × Flags :=
  let sn := Flags.ofInv (a.isSnan || b.isSnan)
  match a, b with
  | .nan _, _ => (Val.qnan, sn)
  | _, .nan _ => (Val.qnan, sn)
  | .inf x, .inf y => if x == y then (.inf x, {}) else (Val.qnan, { inv := true })
  | .inf x, _ => (.inf x, {})
  | _, .inf y => (.inf y, {})
  | x, y => roundVal pr (Val.addFin x y)

/-- IEEE multiplication with its flags (R134). -/
def ieeeMul (pr : Prec) (a b : Val) : Val × Flags :=
  let sn := Flags.ofInv (a.isSnan || b.isSnan)
  if a.isNan || b.isNan then (Val.qnan, sn)
  else if (a.isZero && b.isInf) || (b.isZero && a.isInf) then (Val.qnan, { inv := true })
  else if a.isInf || b.isInf then (.inf (a.neg != b.neg), {})
  else roundVal pr (Val.mulFin a b)

/-- IEEE fusedMultiplyAdd a·b + c with its flags; 0 times infinity raises INV also when c is a quiet NaN (R134). -/
def ieeeFma (pr : Prec) (a b c : Val) : Val × Flags :=
  let sn := a.isSnan || b.isSnan || c.isSnan
  let zi := (a.isZero && b.isInf) || (b.isZero && a.isInf)
  if a.isNan || b.isNan || c.isNan || zi then (Val.qnan, Flags.ofInv (sn || zi))
  else if a.isInf || b.isInf then
    let s := a.neg != b.neg
    match c with
    | .inf n => if n == s then (.inf s, {}) else (Val.qnan, { inv := true })
    | _ => (.inf s, {})
  else
    match c with
    | .inf n => (.inf n, {})
    | c => roundVal pr (Val.addFin (Val.mulFin a b) c)

/-- A part of an FP32X2 REDUCE as it enters (R57, R91). -/
def pairEnter (hi lo : Val) : (Val × Val) × Flags :=
  let v := pairValue hi lo
  if v.isFin then ((hi, lo), {})
  else ((match v with | .inf n => .inf n | _ => Val.qnan, Val.zero false), Flags.ofInv v.isSnan)

/-- The FP32X2 combination of R91, without the final renormalisation. -/
def pairCombine (a b : Val × Val) : (Val × Val) × Flags :=
  let (h, f) := ieeeAdd prec32 a.1 b.1
  let fh : Flags := { ovf := f.ovf, inx := f.ovf, inv := f.inv }
  if !h.isFin then ((h, Val.zero false), fh)
  else if !(a.2.isFin && b.2.isFin) then
    let (l, g) := ieeeAdd prec32 a.2 b.2
    ((h, l), fh.or g)
  else
    let rest := Val.addFin (Val.addFin a.1 b.1) h.negate
    let inner := Val.addFin b.2 rest
    let sum := Val.addFin a.2 inner
    let (l, fl) := if sum.isZero then (Val.zero false, ({} : Flags)) else roundVal prec32 sum
    ((h, l), fh.or fl)

/-- REDUCE of one element over its parts, as codes (R91). -/
def reduceCodes (f : Fmt) (parts : List Nat) : Nat × Flags :=
  match parts with
  | [] => (0, {})
  | p :: ps =>
    match f with
    | .int32 =>
      let step (s : BitVec 32 × Flags) (c : Nat) : BitVec 32 × Flags :=
        let t := s.1.toInt + (BitVec.ofNat 32 c).toInt
        (BitVec.ofInt 32 t, s.2.or { ovf := decide (t < -2 ^ 31 ∨ t ≥ 2 ^ 31) })
      let (r, fl) := ps.foldl step (BitVec.ofNat 32 p, {})
      (r.toNat, fl)
    | .fp32x2 =>
      let dec (c : Nat) := pairEnter (decodeFmt .fp32 (bitField c 0 32)) (decodeFmt .fp32 (bitField c 32 32))
      let (a, fl) := ps.foldl (fun s c =>
        let (q, f1) := dec c
        let (r, f2) := pairCombine s.1 q
        (r, (s.2.or f1).or f2)) (dec p)
      let ((h, l), fn) := renorm a.1 a.2
      (encodePair h l, fl.or fn)
    | f =>
      let pr := if f == .fp64 then prec64 else prec32
      let (r, fl) := ps.foldl (fun s c => let (v, g) := ieeeAdd pr s.1 (decodeFmt f c); (v, s.2.or g)) (decodeFmt f p, {})
      (encodeFmt f r, fl)

/-- The lanes of NORM (R136): element q goes to lane q mod 256. -/
def normLanes (vs : List Val) : Array (Val × Flags) :=
  vs.zipIdx.foldl (fun a x =>
    let i := x.2 % 256
    let (s, f) := (a[i]?).getD (Val.zero false, {})
    match product 0 x.1 x.1 with
    | (some p, g) => let (r, h) := accStep prec64 s p; a.set! i (r, (f.or g).or h)
    | (none, g) => a.set! i (s, f.or g)) (Array.replicate 256 (Val.zero false, {}))

/-- The sum over the lanes and its root when `root` (R136). -/
def normOf (root : Bool) (vs : List Val) : Val × Flags :=
  let (t, f) := ((normLanes vs).toList.drop 1).foldl (fun a x => let (r, g) := ieeeAdd prec64 a.1 x.1; (r, (a.2.or x.2).or g))
    ((normLanes vs).toList.head?.getD (Val.zero false, {}))
  if root then let (r, g) := sqrt64 t; (r, f.or g) else (t, f)

/-- The values NORM takes of a matrix: FP32X2 rounded to FP64, the identity subtracted for a residual (R136). -/
def normVals (pair resid : Bool) (rows : List (List Val)) : List Val × Flags :=
  let l := rows.zipIdx.flatMap fun (r, i) => r.zipIdx.map fun (v, j) =>
    let (v, f) := if pair then roundVal prec64 v else (v, ({} : Flags))
    (if resid && i == j && v.isFin then Val.addFin v (.fin true 1 0) else v, f)
  (l.map (·.1), Flags.union (l.map (·.2)))

/-- Key of the order of R97: class from NaN (highest) to −∞ (lowest). -/
def rankClass : Val → Nat
  | .nan _ => 6
  | .inf false => 5
  | .fin n m _ => if m == 0 then (if n then 2 else 3) else (if n then 1 else 4)
  | .inf true => 0

/-- `a` ranks strictly above `b` in the order of R97. -/
def ranksAbove (a b : Val) : Bool :=
  rankClass a > rankClass b || (rankClass a == rankClass b && a.isFin && Val.ltFin b a)

/-- Inserts into a list kept highest first, after entries of equal rank (R97: ascending position). -/
def rankInsert (x : Val × Nat × Nat) : List (Val × Nat × Nat) → List (Val × Nat × Nat)
  | [] => [x]
  | y :: ys => if ranksAbove x.1 y.1 then x :: y :: ys else y :: rankInsert x ys

/-- The k highest entries of a row as (code, position) (R98). A subnormal FP16 or BF16 code is the zero it is read as
(R55). -/
def topEntries (f : Fmt) (k : Nat) (codes : List (Nat × Nat)) : List (Nat × Nat) :=
  let ranked := codes.foldl (fun l c => rankInsert (decodeFmt f c.1, c.1, c.2) l) []
  let canon (v : Val) (c : Nat) := if v.isNan || v.isZero then encodeFmt f v else c
  let out := (ranked.take k).map fun t => (canon t.1 t.2.1, t.2.2)
  out ++ List.replicate (k - out.length) (0, 0xFFFF_FFFF)

/-- Rounds upward to FP32 or FP64 (R260); values are not negative. -/
def roundUp (pr : Prec) : Val → Val
  | .fin n m e =>
    let (q, u, _) := roundQ pr.w (some pr.qmin) true m 1 e
    let r : Val := .fin n q u
    if Val.ltFin pr.max r then .inf n else if q == 0 then Val.zero n else r
  | v => v

/-- Sum of values, exact; a NaN when one is not finite. -/
def sumExact (l : List Val) : Val := l.foldl (fun a v => if a.isFin && v.isFin then Val.addFin a v else Val.qnan) (Val.zero false)

/-- An exact sum rounded once to a pair: hi to nearest, lo what remains, to nearest (R57, R260; DEDUCED, log entry 29). -/
def roundPair (v : Val) : Val × Val :=
  let h := rne32 v
  if v.isFin && h.isFin then (h, rne32 (Val.addFin v h.negate)) else (h, Val.zero false)

/-- s_k and u_k of one row of a face held in a bay (R260). -/
def checkRow (acc face : Fmt) (row : List Val) : Val × Val :=
  let s := sumExact row
  let u := sumExact (row.map Val.abs)
  match acc with
  | .int32 => (Val.ofInt (BitVec.ofInt 32 (s.scaled (min s.expOf 0))).toInt 0, roundUp prec32 u)
  | .fp64 => (rne64 s, roundUp prec64 u)
  | .fp32x2 => (pairValue (roundPair s).1 (roundPair s).2, roundUp prec32 u)
  | _ => (rne32 s, roundUp (if face == .fp64 then prec64 else prec32) u)

/-- m of R260: the sum of |a_k|·u_k with upward rounding, from its seed. -/
def checkMag (pr : Prec) (e : Nat) (seed : Val) (xs us : List Val) : Val :=
  (xs.zip us).foldl (fun m xu =>
    if m.isFin && xu.1.isFin && xu.2.isFin then
      roundUp pr (Val.addFin m (Val.scale2 (-(e : Int)) (Val.mulFin xu.1.abs xu.2)))
    else Val.qnan) seed

/-- The comparison of R261 for one row: the sum of the bay's values against chk. `none` when R262 makes no
comparison because a number is not finite. -/
def checkAccepts (acc : Fmt) (kt nb : Nat) (sum chk m : Val) : Option Bool :=
  match acc with
  | .int32 => some ((sum.scaled (min sum.expOf 0) - chk.scaled (min chk.expOf 0)) % 2 ^ 32 == 0)
  | _ =>
    if !(sum.isFin && chk.isFin && m.isFin) then none
    else
      let uc : Int := if acc == .fp64 then -52 else -23
      let am : Int := if acc == .fp64 then -1021 else -125
      let d := (Val.addFin sum chk.negate).abs
      let bound := Val.addFin (Val.mulFin (.fin false (2 * kt + nb + 2) uc) m) (.fin false (kt + nb) am)
      some (Val.leFin d bound)

end Sys2Proof.Machine
end

