-- ==== Sys2Proof/Machine/Convert.lean ====
section
/-! DEFINITION. The converter (R60 to R63), shared scales (R64 to R67, R72), weight expansion (R69, R70) and amax (R71). -/

namespace Sys2Proof.Machine

open Sys2Proof

/-- The largest finite value of a GF format and its smallest positive one (R58). -/
def gfMax (ew mw b : Nat) : Val := .fin false (2 ^ (mw + 1) - 1) ((2 ^ ew - 1 : Int) - b - mw)

def gfMin (mw b : Nat) : Val := .fin false (2 ^ mw + 1) (-(b : Int) - mw)

/-- The code of a magnitude a GF format holds exactly. -/
def gfCode (ew mw b : Nat) (n : Bool) (m : Nat) (e : Int) : Nat :=
  let top := Nat.log2 m
  let f := if top ≥ mw then m / 2 ^ (top - mw) else m * 2 ^ (mw - top)
  let ex : Int := (top : Int) + e + b
  (if n then 2 ^ (ew + mw) else 0) + ex.toNat * 2 ^ mw + (f - 2 ^ mw)

/-- R60 on the value v / den: conversion into a GF format. -/
def convertGf (ew mw b : Nat) (strict : Bool) (v : Val) (den : Nat) : Nat × Flags :=
  let nanCode := 2 ^ (ew + mw)
  let big := gfMax ew mw b
  let maxCode (n : Bool) := (if n then 2 ^ (ew + mw) else 0) + (2 ^ (ew + mw) - 1)
  match v with
  | .nan s => (nanCode, Flags.ofInv s)
  | .inf n => (if strict then nanCode else maxCode n, { ovf := true })
  | .fin n m e =>
    if m == 0 then (0, {})
    else if Val.ltFin (.fin false m e) (Val.mulFin (gfMin mw b) (.fin false den 0)) then (0, { unf := true, inx := true })
    else
      let (q, u, inexact) := roundQ (mw + 1) none false m den e
      if Val.ltFin big (.fin false q u) then
        (if strict then nanCode else maxCode n, { ovf := true, inx := true })
      else (gfCode ew mw b n q u, { inx := inexact })

/-- R55 on the value v / den: conversion into FP16 or BF16. -/
def convertHalf (f : Fmt) (v : Val) (den : Nat) : Nat × Flags :=
  let w := if f == .fp16 then 11 else 8
  let tiny : Val := if f == .fp16 then .fin false 1 (-14) else .fin false 1 (-126)
  let big : Val := if f == .fp16 then .fin false 2047 5 else .fin false 255 120
  match v with
  | .nan s => (encodeFmt f Val.qnan, Flags.ofInv s)
  | .inf n => (encodeFmt f (.inf n), {})
  | .fin n m e =>
    if m == 0 then (encodeFmt f (Val.zero n), {})
    else
      let (q, u, inexact) := roundQ w none false m den e
      let r : Val := .fin false q u
      if Val.ltFin r tiny then (encodeFmt f (Val.zero n), { unf := true, inx := true })
      else if Val.ltFin big r then (encodeFmt f (.inf n), { ovf := true, inx := true })
      else (encodeFmt f (.fin n q u), { inx := inexact })

/-- Conversion of an exact value, divided by `den`, into a floating output format (R60 to R62); `strict` as R61. -/
def convertTo (f : Fmt) (strict : Bool) (v : Val) (den : Nat := 1) : Nat × Flags :=
  match f.gf with
  | some (ew, mw, b) => convertGf ew mw b strict v den
  | none =>
    match f with
    | .fp16 | .bf16 => convertHalf f v den
    | _ =>
      let pr := if f == .fp64 then prec64 else prec32
      match v with
      | .nan s => (encodeFmt f Val.qnan, Flags.ofInv s)
      | .inf n => (encodeFmt f (.inf n), {})
      | .fin n m e => let (r, fl) := roundExact pr n m den e; (encodeFmt f r, fl)

/-- Conversion of an INT32 accumulator into INT8 or INT4 (R62). -/
def convertInt (f : Fmt) (shift : Nat) (i : Int) : Nat × Flags :=
  let w := f.width
  let (q, u, inexact) := roundQ 64 (some 0) false i.natAbs 1 (-(shift : Int))
  let mag : Int := q * 2 ^ u.toNat
  let r := if i < 0 then -mag else mag
  let hi : Int := 2 ^ (w - 1) - 1
  let lo : Int := -2 ^ (w - 1)
  let sat := decide (r > hi ∨ r < lo)
  let v := if r > hi then hi else if r < lo then lo else r
  ((v % 2 ^ w).toNat, { ovf := sat, inx := inexact })

/-! ### FCTL (R65) -/

def fctlSmode (c : BitVec 16) : Nat := bitField c.toNat 0 2
def fctlSblk (c : BitVec 16) : Nat := bitField c.toNat 2 3
def fctlSdir (c : BitVec 16) : Bool := c.toNat.testBit 5
def fctlHead (c : BitVec 16) : Nat := bitField c.toNat 6 2
def fctlStrict (c : BitVec 16) : Bool := c.toNat.testBit 8
def fctlXmode (c : BitVec 16) : Nat := bitField c.toNat 9 2
def fctlXgrp (c : BitVec 16) : Nat := bitField c.toNat 11 2
def fctlXfmt (c : BitVec 16) : Fmt := if c.toNat.testBit 13 then .bf16 else .fp16
def fctlShift (c : BitVec 16) : Nat := bitField c.toNat 2 5

/-- Elements per scale block along its direction; 16 for 2-D blocks. -/
def blkSize (c : BitVec 16) : Nat := if fctlSblk c == 4 then 16 else 16 * 2 ^ fctlSblk c

/-- K extent and free-dimension extent of a scale block (R67). -/
def blkExtent (c : BitVec 16) : Nat × Nat :=
  if fctlSblk c == 4 then (16, 16) else if fctlSdir c then (1, blkSize c) else (blkSize c, 1)

/-- The scale index of R66 for k along K and x along the free dimension. -/
def scaleIndex (c : BitVec 16) (kt xt k x : Nat) : Nat :=
  let b := blkSize c
  if fctlSblk c == 4 then (x / 16) * ceilDiv' kt 16 + k / 16
  else if fctlSdir c then k * ceilDiv' xt b + x / b
  else x * ceilDiv' kt b + k / b

/-- Bytes of the scale array of a whole tensor (R66, R156). -/
def scaleBytes (c : BitVec 16) (kt xt : Nat) : Nat :=
  let b := blkSize c
  if fctlSblk c == 4 then ceilDiv' xt 16 * ceilDiv' kt 16
  else if fctlSdir c then kt * ceilDiv' xt b
  else xt * ceilDiv' kt b

/-- The scale format an SMODE names. -/
def scaleFmt (smode : Nat) : Fmt := if smode == 1 then .ue8 else .se43

/-- An element value times its scale (R64, R76 item 2): a NaN scale gives NaN, a zero scale zero; bit 7 of an SE43
scale raises INV. -/
def applyScale (smode : Nat) (code : Nat) (v : Val) : Val × Flags :=
  let inv := Flags.ofInv (smode == 2 && code ≥ 0x80)
  match decodeFmt (scaleFmt smode) code with
  | .nan _ => (.nan v.isSnan, inv)
  | .fin _ m e =>
    if m == 0 then (Val.zero false, inv)
    else
      match v with
      | .fin n m' e' => (if m' == 0 then Val.zero n else .fin n (m * m') (e + e'), inv)
      | v => (v, inv)
  | .inf _ => (v, inv)

/-- The scale of an output block (R72) from its values: NaN code, or the scale for the largest finite magnitude. -/
def chooseScale (smode : Nat) (f : Fmt) (head : Nat) (vs : List Val) : Nat :=
  if vs.any Val.isNan then (if smode == 1 then 0xFF else 0x7F)
  else
    let a := vs.foldl (fun a v => if v.isFin && Val.ltFin a v.abs then v.abs else a) (Val.zero false)
    let fm := match f.gf with | some (ew, mw, b) => gfMax ew mw b | none => Val.zero false
    match a, fm with
    | .fin _ m e, .fin _ mf ef =>
      if m == 0 then (if smode == 1 then 0x7F else 0x38)
      else if smode == 1 then
        let k := ratLog2 m mf + e - ef + head
        let exact := Val.leFin (.fin false m (e + head)) (.fin false mf (ef + k))
        let s := if exact then k else k + 1
        (max (-127) (min 127 s) + 127).toNat
      else
        let ok (c : Nat) : Bool :=
          match decodeFmt .se43 c with
          | .fin _ ms es => Val.leFin (.fin false m (e + head)) (.fin false (ms * mf) (es + ef))
          | _ => false
        (((List.range 126).map (· + 1)).find? ok).getD 0x7E
    | _, _ => 0

/-- Conversion of one element of a scaled block (R72). DESIGN CHOICE (log entry 51): where the block is written as NaN, only a
signalling NaN raises a flag, and its other elements raise none. -/
def convertScaled (smode : Nat) (f : Fmt) (strict : Bool) (scale : Nat) (v : Val) : Nat × Flags :=
  match decodeFmt (scaleFmt smode) scale with
  | .nan _ =>
    ((match f.gf with | some (ew, mw, _) => 2 ^ (ew + mw) | none => 0), Flags.ofInv v.isSnan)
  | .fin _ m e => convertTo f strict (Val.scale2 (-e) v) m
  | .inf _ => convertTo f strict v

/-- R69 and R70 on one held code: the expanded code and the flags of its rounding. `entry` is the table entry, or the
scale of the group; `z` its zero point. DESIGN CHOICE (log entry 52): an infinite scale with q − z = 0, for which R70 states no
result, gives the canonical NaN and raises INV. -/
def expandCode (xmode : Nat) (xf : Fmt) (held : Fmt) (code entry : Nat) (z : Int) : Nat × Flags :=
  if xmode == 1 then (entry, {})
  else
    let q : Int := signedOf held.width code
    match decodeFmt xf entry with
    | .nan s => (encodeFmt xf Val.qnan, Flags.ofInv s)
    | .inf n => if q - z == 0 then (encodeFmt xf Val.qnan, { inv := true }) else (encodeFmt xf (.inf (n != decide (q - z < 0))), {})
    | v =>
      let d := Val.ofInt (q - z) 0
      convertHalf xf (Val.mulFin v d) 1

/-- The amax of the values written, as FP32 (R71). -/
def amaxOf (vs : List Val) : Word :=
  if vs.any Val.isNan then 0x7FC00000
  else
    let a := vs.foldl (fun a v => if Val.le a v.abs then v.abs else a) (Val.zero false)
    BitVec.ofNat 32 (encodeFmt .fp32 (rne32 a))

/-- The larger of two amax words, NaN above all (R71: the maximum over the bays). -/
def amaxJoin (a b : Word) : Word :=
  if a == 0x7FC00000 || b == 0x7FC00000 then 0x7FC00000 else if a.toNat < b.toNat then b else a

end Sys2Proof.Machine
end

