-- ==== Sys2Proof/WellFormed.lean ====
section
/-! DEFINITION. Which commands are well formed: their operands lie in the ranges the manual gives. A meaning does nothing
on an ill-formed command. -/

namespace Sys2Proof

/-- Upper limits of the start-up phases and of a bay's BIST, in us (R249, R250, R233; log entry 23). -/
def phaseLimit : Instr → Nat
  | .furnaceStart _ => 20
  | .fastStart _ => 30
  | .bist _ _ _ => 1600
  | .remap _ => 150
  | .ringJoin _ => 500
  | .bayResetDone _ _ _ => 1600
  | _ => 0

/-- Physical joint columns of a bay: 32 data columns and at most 3 spares (R273, R279); each has its sill lane (R269). -/
def jointCols : Nat := 35

/-- A bay's test result names columns and banks that exist. -/
def BayTest.ok (t : BayTest) : Bool :=
  (t.cols.all fun j => decide (j < jointCols)) && t.rows.all fun x => decide (x.1 < 128)

/-- The numbers of the subsystems in R11. -/
def subsystem (n : Nat) : Bool := decide (1 ≤ n) && decide (n ≤ 20)

/-- An attributed error names a column that exists. -/
def SlotErr.ok : SlotErr → Bool
  | .residue j | .parityCol j | .parityLane j => decide (j < jointCols)
  | .corrupt _ _ _ => true

/-- The checks of each command's operands. -/
def Instr.wellFormed : Instr → Bool
  | .raiseDone _ _ x => (x.parity.all fun y => decide (y.2 < jointCols)) && decide (x.delay.lag.length ≤ 4)
  | .drainComplete _ x => decide (x.delay.lag.length ≤ 4)
  | .trussOpComplete _ _ faults delay => (faults.all fun f => f.err.ok) && decide (delay.lag.length ≤ 4)
  | .abftReplay _ _ faults | .overflowReplay _ _ faults => faults.all fun f => f.err.ok
  | .rdata _ _ st data => st == .err || data.length == 64
  | .failWinExpiry _ _ col => decide (col < jointCols)
  | .patrolRead (.common n) _ => subsystem n
  | .eccWriteBack l _ | .patrolRead (.row l) _ =>
    match l with
    | .staging o => decide (o < 2 ^ 26)
    | .bank _ _ o => decide (o < 2 ^ 22)
  | .furnaceStart us => decide (us ≤ phaseLimit (.furnaceStart us))
  | .fastStart us => decide (us ≤ phaseLimit (.fastStart us))
  | .bist tests c us => decide (us ≤ phaseLimit (.bist tests c us)) && tests.length == 4 && tests.all BayTest.ok && c.all subsystem
  | .remap us => decide (us ≤ phaseLimit (.remap us))
  | .ringJoin us => decide (us ≤ phaseLimit (.ringJoin us))
  | .bayResetDone b t us => decide (us ≤ phaseLimit (.bayResetDone b t us)) && t.ok
  | .fuseRead cols lane => cols.length == 4 && (cols.all fun l => l.all fun j => decide (j < jointCols)) && lane.all fun x => decide (x.2 < jointCols)
  | .messageHeaderReceive h => decide (h.count < 2 ^ 32) && decide (h.seqno < 2 ^ 32)
  | _ => true

end Sys2Proof
end

