-- ==== Sys2Proof/Machine/Ops.lean ====
section
/-! DEFINITION. The named operations that the meanings share: memories, time, contexts, bays and operations, trace,
faults and the log, ports, completion. -/

namespace Sys2Proof.Machine

open Sys2Proof

/-! ### Memories -/

/-- What an unlisted address reads as (R249; R237 after an excursion, log entries 5 and 9). -/
def Mem.bgByte (m : Mem) (a : Nat) : Byte :=
  match m.bg with
  | none => 0
  | some k => Config.freeMem k a

def cellsGet : List Host.Cell → Nat → Option Byte
  | [], _ => none
  | (b, v) :: l, a => if a = b then some v else if a < b then none else cellsGet l a

/-- Puts a byte at an address, or removes its entry. -/
def cellsSet : List Host.Cell → Nat → Option Byte → List Host.Cell
  | [], a, x => (x.map fun v => (a, v)).toList
  | (b, w) :: l, a, x =>
    if a < b then (x.map fun v => (a, v)).toList ++ (b, w) :: l
    else if a = b then (x.map fun v => (a, v)).toList ++ l
    else (b, w) :: cellsSet l a x

def Mem.read (m : Mem) (a : Nat) : Byte := (cellsGet m.cells a).getD (m.bgByte a)

/-- Writes one byte and keeps the canonical form. -/
def Mem.write (m : Mem) (a : Nat) (v : Byte) : Mem :=
  { m with cells := cellsSet m.cells a (if v = m.bgByte a then none else some v) }

/-- The canonical form: addresses strictly rising, no entry equal to what an unlisted address reads as. -/
abbrev Mem.wf (m : Mem) : Prop :=
  m.cells.Pairwise (fun x y => x.1 < y.1) ∧ ∀ c ∈ m.cells, c.2 ≠ m.bgByte c.1

def Mem.readN (m : Mem) (a n : Nat) : List Byte := (List.range n).map fun i => m.read (a + i)

/-- Writes a list of (address, byte) pairs in order. -/
def Mem.writes (m : Mem) (l : List (Nat × Byte)) : Mem := l.foldl (fun m x => m.write x.1 x.2) m

def Mem.writeN (m : Mem) (a : Nat) (l : List Byte) : Mem := m.writes (l.zipIdx.map fun x => (a + x.2, x.1))

/-- Zeroes `n` bytes from `a`. -/
def Mem.zero (m : Mem) (a n : Nat) : Mem :=
  match m.bg with
  | none => { m with cells := m.cells.filter fun c => c.1 < a || a + n ≤ c.1 }
  | some _ => m.writes ((List.range n).map fun i => (a + i, 0))

/-! ### Parts of the state -/

def State.cx (s : State) (c : Ctx) : CtxState := s.ctx.get c

def State.modCtx (s : State) (c : Ctx) (f : CtxState → CtxState) : State :=
  { s with ctx := s.ctx.set c.1 (f (s.ctx.get c)) c.2 }

def State.by (s : State) (b : Bay) : BayState := s.bay.get b

def State.modBay (s : State) (b : Bay) (f : BayState → BayState) : State :=
  { s with bay := s.bay.set b.1 (f (s.bay.get b)) b.2 }

def State.modBays (s : State) (bs : List Bay) (f : Bay → BayState → BayState) : State :=
  bs.foldl (fun s b => s.modBay b (f b)) s

def CtxState.queue (x : CtxState) : QSel → Queue
  | .main => x.qm
  | .prio => x.qp

def CtxState.modQueue (x : CtxState) (q : QSel) (f : Queue → Queue) : CtxState :=
  match q with
  | .main => { x with qm := f x.qm }
  | .prio => { x with qp := f x.qp }

def State.qu (s : State) (c : Ctx) (q : QSel) : Queue := (s.cx c).queue q

def State.modQueue (s : State) (c : Ctx) (q : QSel) (f : Queue → Queue) : State := s.modCtx c (·.modQueue q f)

def allCtx : List Ctx := List.finRange 9

def allBays : List Bay := List.finRange 4

/-- The bays of the build (R23). -/
def State.bays (s : State) : List Bay := allBays.filter fun b => b.val < Config.bays s.build

def State.present (s : State) (b : Bay) : Bool := decide (b.val < Config.bays s.build)

/-- The bays of a mask in ascending order. -/
def maskBays (m : BitVec 4) : List Bay := allBays.filter fun b => m.getLsb b

def bayMaskOf (l : List Bay) : BitVec 4 := l.foldl (fun m b => m ||| (1#4 <<< b.val)) 0

/-- The current set of a context (R223). -/
def State.curSet (s : State) (c : Ctx) : BitVec 4 :=
  if (s.cx c).alt then s.prot.alt.get c else s.prot.pri.get c

def State.inService (s : State) (b : Bay) : Bool := s.present b && !(s.by b).oos

/-- Code of a context in marks, headers and records (R12). -/
def ctxCode (c : Ctx) : Nat := c.val

def ctxOfCode (n : Nat) : Option Ctx := if h : n < 9 then some ⟨n, h⟩ else none

/-- Whether an operation has a context and SEQ, one that the lehr runs beside its main one among them. -/
def Op.under (o : Op) (c : Ctx) (seq : BitVec 8) : Bool := o.ctx == c && o.seq == seq

/-- The operation of a context and SEQ. -/
def Op.is (o : Op) (c : Ctx) (seq : BitVec 8) : Bool := o.under c seq && !o.side

def State.op? (s : State) (c : Ctx) (seq : BitVec 8) : Option Op := s.ops.find? (·.is c seq)

def State.modOp (s : State) (c : Ctx) (seq : BitVec 8) (f : Op → Op) : State :=
  { s with ops := s.ops.map fun o => if o.is c seq then f o else o }

/-- Changes one operation where it stands. -/
def State.modOf (s : State) (o : Op) (f : Op → Op) : State :=
  { s with ops := s.ops.map fun p => if p.under o.ctx o.seq && p.side == o.side then f p else p }

/-- An operation as it stands now. -/
def State.opOf (s : State) (o : Op) : Option Op := s.ops.find? fun p => p.under o.ctx o.seq && p.side == o.side

def State.dropOp (s : State) (c : Ctx) (seq : BitVec 8) : State :=
  { s with ops := s.ops.filter fun o => !o.under c seq }

/-- Operations of a context in flight (R13). -/
def State.inFlight (s : State) (c : Ctx) : Nat :=
  s.ops.countP (fun o => o.ctx == c && !o.side) + (s.cx c).qm.loop.isSome.toNat + (s.cx c).qp.loop.isSome.toNat

def State.ifThen (b : Bool) (f : State → State) (s : State) : State := if b then f s else s

/-! ### Time (R6, R243) -/

/-- Periods in 1/20 ns. -/
def fcLen (s : State) : Nat := if s.g.opCur then 25 else 16

def bcLen : Nat := 80

def ucLen : Nat := 400

def usLen : Nat := 20000

/-- `i` of R243. -/
def timebaseSub (s : State) : Nat :=
  let u := s.clk / ucLen
  if s.fastOn then min 19 ((s.clk - max (u * ucLen) s.restart) / fcLen s * fcLen s / 20)
  else if u == s.holdU then s.holdI else 0

/-- The timebase in ns (R243). -/
def timebase (s : State) : Nat := 20 * (s.clk / ucLen) + timebaseSub s

def timeWord (s : State) : Word := BitVec.ofNat 32 (timebase s)

/-- Positions of the damper window up to time `t` (R245, R247): its fc at either point. -/
def fcIndex (s : State) (t : Nat) : Nat := s.damp.fcBase + (t - s.damp.fcFrom) / fcLen s

/-- The duty of the window. -/
def duty (s : State) : Nat := max 1 s.damp.n.toNat

/-- Stall fc among the first `k` positions of a window of duty `n`: the sum of R245 over them. -/
def stallsIn (n k : Nat) : Nat := k * (64 - n) / 64

/-- fc that run among the first `k` positions. -/
def runsIn (n k : Nat) : Nat := k - stallsIn n k

/-- The time at which `k` fc have run from time `t` on under the duty of the window (R245, log entry 20). -/
def fcAfter (s : State) (t k : Nat) : Nat :=
  if k == 0 then t
  else
    let i := fcIndex s t
    t + (64 * (runsIn (duty s) i + k - 1) / duty s + 1 - i) * fcLen s

/-- fc of the window that have run up to time `t`. -/
def runsTo (s : State) (t : Nat) : Nat := runsIn (duty s) (fcIndex s t)

/-- The end of a phase of `k` fc of an operation, of which `ran` had run at `tFirst`. -/
def phaseEnd (s : State) (o : Op) (k : Nat) : Nat := fcAfter s o.tFirst (k - o.ran)

/-- The time up to which the engines' fc have run: a halt or a hard stop of the damper stops them (R246, R294). -/
def workTime (s : State) : Nat :=
  let t := if s.dbg.halted then min s.clk s.dbg.haltAt else s.clk
  if s.damp.hardNow then min t s.damp.hardFrom else t

/-- A granted operation goes on from now in `s` as it stood at time `t` of `old`: what has run of its phase is counted, and its due
time is as many running fc ahead as it was, if it is ahead (R245, R246, R294). -/
def Op.carry (old : State) (t : Nat) (s : State) (o : Op) : Op :=
  if o.stage != .granted then o
  else
    let due (u : Nat) : Nat := if u ≤ t then u else fcAfter s s.clk (runsTo old u - runsTo old t)
    { o with
      ran := o.ran + (runsTo old t - runsTo old o.tFirst), tFirst := s.clk, tDue := due o.tDue
      x := match o.x with | .refused r => .refused (due r) | x => x }

/-- `k` fc from now as time under the duty of the window. -/
def fcTime (s : State) (k : Nat) : Nat := fcAfter s s.clk k - s.clk

/-- The next multiple of `p` at or after `t`. -/
def alignUp (p t : Nat) : Nat := ceilDiv' t p * p

/-! ### Units and what they wait for (R16 to R18, R40, R44, R168) -/

/-- Timing classes (R168). -/
inductive OpClass
  | t | d | s | l | x | k | c
  deriving DecidableEq, Repr

/-- The class of an opcode; above 0xFF the units of the lehr's operations (R144): Truss, drain path, SVU. -/
def opClass : Nat → Option OpClass
  | 0x10B => some .t
  | 0x20B => some .d
  | 0x30B => some .s
  | 0x01 | 0x03 | 0x04 | 0x06 | 0x0C => some .t
  | 0x05 => some .d
  | 0x07 | 0x08 | 0x0A | 0x0D | 0x0E | 0x10 | 0x21 | 0x22 | 0x24 => some .s
  | 0x0B => some .l
  | 0x11 | 0x12 | 0x13 => some .x
  | 0x09 => some .k
  | 0x02 | 0x18 | 0x19 | 0x1A | 0x1B | 0x1C | 0x1D | 0x20 | 0x23 | 0x3F => some .c
  | _ => none

def isT (o : Op) : Bool := opClass o.opc == some .t

def BayState.bank (x : BayState) (second : Bool) : Bank := if second then x.bank1 else x.bank0

/-- The filling bank of a bay (R44). -/
def BayState.fill (x : BayState) : Bank := x.bank x.fill1

/-- A chain of the context is in progress in the bay (R40). -/
def chainIn (s : State) (c : Ctx) (b : Bay) : Bool := (s.by b).fill.st == .filling && (s.by b).fill.ctx == c

/-- The BAYS field of an operation's instruction (R153). -/
def Op.bayField (o : Op) : BitVec 4 := BitVec.ofNat 4 (bitField o.word.toNat 24 4)

/-- The bays an operation is for: its mask, else the set it was granted, else the current set (R224). -/
def aim (s : State) (o : Op) : BitVec 4 :=
  if o.bayField != 0 then o.bayField else if o.gset != 0 then o.gset else s.curSet o.ctx

/-- The operations that run in dispatch order in each bay: RAISE, PASS, FOLD and SEED; a ROUGH is not one of them (R158). -/
def inOrder (o : Op) : Bool := o.opc == 0x01 || o.opc == 0x03 || o.opc == 0x04 || o.opc == 0x06

/-- An operation of the lehr (R144). -/
def Op.ofLehr (o : Op) : Bool := o.opc == 0x10B || o.opc == 0x20B || o.opc == 0x30B

/-- A ROOT, or what the lehr does for it. -/
def Op.isRoot (o : Op) : Bool := o.opc == 0x0B || o.ofLehr

/-- An operation that R158 puts before this one in a bay they share still waits. -/
def earlierWaits (s : State) (o : Op) : Bool :=
  inOrder o && (s.ops.takeWhile fun p => !p.is o.ctx o.seq).any fun p =>
    p.ctx == o.ctx && inOrder p && p.stage == .waiting && (aim s p &&& aim s o) != 0

/-- Whether bay b's Truss may go to an operation (R40, R44). -/
def trussFits (s : State) (b : Bay) (o : Op) : Bool :=
  let k := (s.by b).fill
  (k.st != .filling || (k.ctx == o.ctx && inOrder o)) &&
    (!(o.first && (o.opc == 0x03 || o.opc == 0x04 || o.opc == 0x06 || o.opc == 0x10B)) || k.st == .free)

/-- Whether a source holds an undelivered record: the buffer of 16 is full (R166). -/
def sourceHolds (s : State) (src : Nat) : Bool := allCtx.any fun c => ((s.cx c).recs.drop 16).any (·.src == src)

/-- Whether the command processor of a context holds one (R166). -/
def cpHolds (s : State) (c : Ctx) : Bool := ((s.cx c).recs.drop 16).any (·.src == 8)

/-- A retirement holds the bay's Truss (R267, R269). -/
def repairs (s : State) (b : Bay) : Bool := !(s.by b).pendCol.isEmpty || (s.by b).pendLane.isSome

/-- Whether an operation has a raise under way (R31, R127, R171). -/
def raising (o : Op) : Bool := o.opc == 0x01 || o.reraise != 0 || (o.opc == 0x06 && !o.raised)

/-- Whether a halt is requested (R294). -/
def haltReq (s : State) : Bool := s.dbg.halt || (s.dbg.hin && s.dbg.hinEn)

/-! ### Trace (R286 to R291) -/

def TraceBuf.cap (bay : Bool) : Nat := if bay then 4096 else 8192

/-- Slots of the pre-trigger part (R289). -/
def TraceBuf.preCap (bay : Bool) (t : TraceBuf) : Nat := TraceBuf.cap bay * t.pre.toNat / 16

def TraceBuf.lose (n : Nat) (t : TraceBuf) : TraceBuf :=
  { t with lost := BitVec.ofNat 16 (min 0xFFFF (t.lost.toNat + n)) }

/-- Records of the oldest unit of a buffer: an XSEND or XRECV counts with its XSEQ (R286). -/
def unitLen : List TraceRec → Nat
  | _ :: y :: _ => if y.typ == 0x12 then 2 else 1
  | l => l.length

/-- Drops oldest units, at most `fuel`, until `n` records more have room among `cap`. -/
def makeRoom (cap n : Nat) : Nat → List TraceRec → List TraceRec
  | 0, l => l
  | fuel + 1, l => if l.length + n ≤ cap then l else makeRoom cap n fuel (l.drop (unitLen l))

/-- Stores a unit of records under the buffer's mode, in fc number `fc` (R286, R289). -/
def TraceBuf.store (bay : Bool) (fc : Nat) (rs : List TraceRec) (t : TraceBuf) : TraceBuf :=
  let n := rs.length
  if !t.en then t
  else if t.mode == 2 then
    if !t.armed then t
    else if t.done then { t.lose n with dropped := t.dropped + n }
    else if !t.triggered then
      if t.preCap bay < n then t
      else { t with recs := makeRoom (t.preCap bay) n 2 t.recs ++ rs, stamp := (fc, if t.stamp.1 == fc then t.stamp.2 + n else n) }
    else if t.post.length + n > TraceBuf.cap bay - t.preCap bay then { t.lose n with dropped := t.dropped + n, done := true }
    else { t with post := t.post ++ rs, done := decide (t.post.length + n ≥ TraceBuf.cap bay - t.preCap bay) }
  else if t.recs.length + n ≤ TraceBuf.cap bay then { t with recs := t.recs ++ rs }
  else if t.mode == 1 then
    let l := makeRoom (TraceBuf.cap bay) n 2 t.recs
    { t.lose (t.recs.length - l.length) with recs := l ++ rs, run := t.run + (t.recs.length - l.length) }
  else t.lose n

/-- The ring a record of a context code is bound for (R291). -/
def traceRing (s : State) (code : Nat) : Ctx :=
  if (s.trace.rings.get tm).all then tm else (ctxOfCode code).getD tm

/-- The buffer of a record (R287): of a bay for its Truss and drain path, else the block's. -/
def traceBay (eng : Nat) : Option Bay := if eng < 8 then some ⟨eng % 4, by omega⟩ else none

def State.modBuf (s : State) (b : Option Bay) (f : TraceBuf → TraceBuf) : State :=
  match b with
  | some b => s.modBay b fun x => { x with tbuf := f x.tbuf }
  | none => { s with trace := { s.trace with buf := f s.trace.buf } }

def bufOf (s : State) (b : Option Bay) : TraceBuf := match b with | some b => (s.by b).tbuf | none => s.trace.buf

def Ring.slots (r : Ring) : Nat := 2 ^ r.size.toNat

/-- The index the DMA writes next, records under way included. -/
def Ring.next (r : Ring) : Nat := (r.wr.toNat + r.flight) % r.slots

def Ring.full (r : Ring) : Bool := (r.next + 1) % r.slots == r.rd.toNat % r.slots

/-- A record is held by a full ring with STALL_ON_FULL = 1 (R291). -/
def ringHolds (s : State) (r : TraceRec) : Bool :=
  let x := s.trace.rings.get (traceRing s r.ctx)
  x.en && x.stall && x.full

/-- A buffer is full of records that a ring holds: an engine that would store a record there waits (R291). -/
def bufWaits (s : State) (b : Option Bay) : Bool :=
  let t := bufOf s b
  t.en && t.mode != 2 && decide (TraceBuf.cap b.isSome ≤ t.recs.length) && t.recs.any (ringHolds s)

/-- A unit of records enters a buffer. What no engine can wait for stands behind the records that a full buffer holds (R291, log entry
41). -/
def storeRec (b : Option Bay) (rs : List TraceRec) (s : State) : State :=
  let fc := s.clk / fcLen s
  s.modBuf b (if bufWaits s b then fun t => { t with recs := t.recs ++ rs } else TraceBuf.store b.isSome fc rs)

/-- The LOSS record of a count (R286). -/
def lossRec (s : State) (code n : Nat) : TraceRec :=
  { typ := 0x22, eng := 0xF, ctx := code, time := timeWord s, arg := min 0xFFFFFF n }

/-- Whether the ring of the records without a context is enabled (R287, R291). -/
def ringNone (s : State) : Bool := (s.trace.rings.get (traceRing s 0xF)).en

/-- An armed buffer at the trigger (R289): the pre part freezes, and the post part begins with TRIGGER and the records of the trigger
fc. With PRE = 0 the LOSS record that ARM owes follows TRIGGER (DESIGN CHOICE, log entry 52). -/
def TraceBuf.fire (bay : Bool) (s : State) (src : Nat) (t : TraceBuf) : TraceBuf :=
  if t.armed && !t.triggered && t.mode == 2 && t.en then
    let k := if t.stamp.1 == s.clk / fcLen s then t.stamp.2 else 0
    let owed := ringNone s && t.preCap bay == 0 && t.dropped != 0
    let post := (if ringNone s then [{ typ := 0x23, eng := 0xF, ctx := 0xF, time := timeWord s, arg := src }] else []) ++
      (if owed then [lossRec s 0xF t.dropped] else []) ++ t.recs.drop (t.recs.length - k)
    { t with triggered := true, recs := t.recs.take (t.recs.length - k), post := post, dropped := if owed then 0 else t.dropped,
             done := decide (TraceBuf.cap bay - t.preCap bay ≤ post.length) }
  else t

/-- The shared trigger fires (R289). -/
def fireTrigger (src : Nat) (s : State) : State :=
  let u := s
  (s.bays.foldl (fun s b => s.modBuf (some b) (TraceBuf.fire true u src)) s).modBuf none (TraceBuf.fire false u src)

/-- Whether a record fires the trigger (R289). -/
def triggers (s : State) (r : TraceRec) : Bool :=
  (s.trace.src == 1 && r.typ == 0x06 && decide (r.arg / 256 ≥ 2)) ||
    (s.trace.src == 2 && r.typ == s.trace.ttype.toNat && r.layer == s.trace.tlayer.toNat)

/-- Produces a unit of records of an engine and a context when their ring and their buffer are enabled; a matching record fires the
trigger first (R287 to R289). -/
def emitUnit (eng code : Nat) (rs : List TraceRec) (s : State) : State :=
  if !(s.trace.rings.get (traceRing s code)).en || !(bufOf s (traceBay eng)).en then s
  else
    let hit := rs.any (triggers s)
    let s := State.ifThen hit (fireTrigger s.trace.src.toNat) s
    storeRec (traceBay eng) rs s

/-- Produces one record. -/
def emit (r : TraceRec) (s : State) : State := emitUnit r.eng r.ctx [r] s

/-- FIRST and LAST of the marriage mark (R12): those of a PASS or FOLD. -/
def Op.slab (o : Op) : Nat := (o.first && o.opc != 0x04).toNat * 8 + o.last.toNat * 4

/-- The mark of an operation (R12). -/
def Op.mark (o : Op) : BitVec 16 := BitVec.ofNat 16 (ctxCode o.ctx * 0x1000 + o.seq.toNat * 16 + o.slab)

/-- The mark bits of a trace record (R286). -/
def Op.mflg (o : Op) : BitVec 4 := BitVec.ofNat 4 o.slab

def Op.cmp (o : Op) : Bool := o.word.getLsbD 29

def Op.trc (o : Op) : Bool := o.word.getLsbD 30

/-- Writes a record of an operation that carries FLG.TRC (R286). -/
def emitOp (typ eng arg : Nat) (o : Op) (s : State) : State :=
  if o.trc then
    emit { typ := typ, eng := eng, ctx := ctxCode o.ctx, seq := o.seq, mflg := o.mflg, time := timeWord s,
           layer := o.layer, oper := o.oper, arg := arg } s
  else s

/-! ### The fault log (R276, R277) -/

def isFatal (cls : BitVec 3) : Bool := decide (cls.toNat ≥ 2)

/-- The interrupt window of a time (R277). -/
def logWindow (t : Nat) : Nat := t / 1000000

/-- Reports a source to the log: code, class, context code, type and identifier. -/
def report (code : Nat) (cls : BitVec 3) (ctx typ : Nat) (id : Nat) (s : State) : State :=
  let t := timebase s
  let w := logWindow t
  let same (e : Option LogEntry) : Bool :=
    match e with
    | some e => e.code.toNat == code && e.typ.toNat == typ && e.id.toNat == id
    | none => false
  let fresh : LogEntry := ⟨BitVec.ofNat 8 code, cls, BitVec.ofNat 4 ctx, BitVec.ofNat 4 typ, BitVec.ofNat 32 id,
    BitVec.ofNat 64 t, BitVec.ofNat 64 t, 1, w⟩
  let r := s.ras
  let put (i : Fin 64) (e : LogEntry) (pend : Bool) : State :=
    { s with ras := { r with
        log := r.log.set i.1 (some e) i.2
        pend := r.pend || pend
        lastEnt := if pend then BitVec.ofNat 6 i.val else r.lastEnt } }
  let idx := List.finRange 64
  match idx.find? (fun i => same (r.log.get i)) with
  | some i =>
    match r.log.get i with
    | some e => put i { e with last := BitVec.ofNat 64 t, count := if e.count == 0xFFFFFFFF then e.count else e.count + 1, win := w } (e.win != w)
    | none => s
  | none =>
    match idx.find? (fun i => (r.log.get i).isNone) with
    | some i => put i fresh true
    | none =>
      let older (a : Option (Fin 64 × Nat)) (i : Fin 64) : Option (Fin 64 × Nat) :=
        match r.log.get i with
        | some e =>
          if e.cls != 0 then a
          else match a with
            | some (_, t') => if e.first.toNat < t' then some (i, e.first.toNat) else a
            | none => some (i, e.first.toNat)
        | none => a
      match (if isFatal cls then idx.foldl older none else none) with
      | some (i, _) => put i fresh true
      | none =>
        { s with ras := { r with
            lost := if r.lost == 0xFFFF then r.lost else r.lost + 1
            pend := r.pend || r.lostWin != w + 1
            lostWin := w + 1 } }

/-- Reports a poisoned row under 0x10 (R257, R274): `aux` is the position that FAULT_AUX holds. -/
def reportPoison (c : Ctx) (aux : Nat) (s : State) : State :=
  report 0x10 2 (ctxCode c) (aux / 2 ^ 31) (aux % 2 ^ 31) s

/-- Identifier of a joint column or sill lane (R323). -/
def colId (b : Bay) (col : Nat) : Nat := b.val * 0x1000_0000 + col

/-! ### Faults of a context (R151, R231) -/

/-- Ends an open lock window without a commit: its buffer and the members under way are gone (R162). -/
def dropWindow (c : Ctx) (s : State) : State :=
  let s := s.modCtx c fun x => { x with lockWin := none }
  let gone (o : Op) : Bool := o.ctx == c && o.member
  { s with
    ops := s.ops.filter fun o => !gone o
    svu := s.svu.filter fun x => !(s.ops.any fun o => gone o && o.is x.1 x.2) }

/-- Records a fault of a context (R231); every write of the record has its FAULT record (R286). -/
def recordFault (c : Ctx) (code : Nat) (cls : BitVec 3) (q : QSel) (idx aux : Nat) (s : State) : State :=
  let x := s.cx c
  let fresh (n : BitVec 16) : FaultRec :=
    { code := BitVec.ofNat 8 code, cls := cls, prioQ := q == .prio, index := BitVec.ofNat 16 idx,
      aux := BitVec.ofNat 32 aux, time := BitVec.ofNat 64 (timebase s), count := n }
  let up : BitVec 16 := if x.fault.count == 0xFFFF then x.fault.count else x.fault.count + 1
  let take := x.fault.code == 0 || (!isFatal x.fault.cls && isFatal cls)
  let f : FaultRec := if x.fault.code == 0 then fresh 0 else if take then fresh up else { x.fault with count := up }
  emit { typ := 0x06, eng := 0xD, ctx := ctxCode c, time := timeWord s, layer := (s.qu c q).layer.toNat,
         oper := (s.qu c q).oper.toNat, arg := f.code.toNat + 256 * f.cls.toNat } (s.modCtx c fun x => { x with fault := f })

/-- Class 2, TENANT_FATAL (R231). -/
def tenantFatal : BitVec 3 := 2

/-- A fault of class TENANT_FATAL: recorded; both queues enter FAULTED, the head of the faulting one at the faulting
instruction (R151). -/
def ctxFault (c : Ctx) (code : Nat) (q : QSel) (idx aux : Nat) (s : State) : State :=
  (recordFault c code tenantFatal q idx aux s).modCtx c fun x =>
    if x.mode == .active then { x.modQueue q (fun y => { y with head := BitVec.ofNat 16 idx }) with mode := .faulted } else x

/-- The fault of a lock member ends its window without a commit (R162). -/
def memberFault (c : Ctx) (s : State) : State :=
  State.ifThen ((s.cx c).lockWin.any (·.commitEnd.isNone)) (dropWindow c) s

/-! ### Completion (R158, R164, R166, R169) -/

/-- The bay that speaks for an operation of bays: the lowest one, of its mask for a SCRUB (R166, R280; log entry 54). -/
def Op.lowBay (o : Op) : Nat := ((maskBays (if o.opc == 0x22 then o.bayField else o.gset)).head?.map Fin.val).getD 0

/-- The collector's source of an operation, in the order of R166; 8 for the command processors. -/
def Op.source (o : Op) : Nat :=
  if o.opc == 0x22 then o.lowBay
  else match opClass o.opc with
  | some .t | some .d => o.lowBay
  | some .s => 4
  | some .l => 5
  | some .x => 6
  | some .k => 7
  | _ => 8

/-- The engine of an operation in trace records (R280). -/
def Op.engine (o : Op) : Nat :=
  if o.opc == 0x22 then o.lowBay
  else match opClass o.opc with
  | some .t => o.lowBay
  | some .d => 4 + o.lowBay
  | some .s => 9
  | some .l => 11
  | some .x => 12
  | some .k => 10
  | _ => 13

/-- Writes the STALL record of an interval of `fc` that ends now, when the context accepted bit 15 (R286). -/
def emitStall (reason fc : Nat) (o : Op) (s : State) : State :=
  if (s.cx o.ctx).feat.getLsbD 15 then emitOp 0x03 o.engine (reason + 16 * min 0xFFFFF fc) o s else s

def StallRun.ofOp (o : Op) (x : StallRun) : Bool := o.under x.ctx x.seq && x.side == o.side

/-- Ends the stalled interval of an operation (R286). -/
def endStall (o : Op) (s : State) : State :=
  match s.trace.stalls.find? (·.ofOp o) with
  | some x =>
    emitStall x.reason ((s.clk - x.since) / fcLen s) o { s with trace := { s.trace with stalls := s.trace.stalls.filter fun y => !y.ofOp o } }
  | none => s

/-- The stall reason of an operation from now on, 0 for none: another one ends the interval before (R286). -/
def noteStall (o : Op) (reason : Nat) (s : State) : State :=
  if ((s.trace.stalls.find? (·.ofOp o)).map (·.reason)).getD 0 == reason then s
  else
    let s := endStall o s
    if reason == 0 then s
    else { s with trace := { s.trace with stalls := s.trace.stalls ++ [⟨o.ctx, o.seq, o.side, reason, s.clk⟩] } }

/-- Whether the engine of an operation waits to store its records (R291). -/
def traceWaits (s : State) (o : Op) : Bool :=
  o.trc && (s.trace.rings.get (traceRing s (ctxCode o.ctx))).en && bufWaits s (traceBay o.engine)

/-- Writes the REPLAY record of an attempt (R286, R265): the REPLAY bit set in its mark. -/
def emitReplay (cause : Nat) (o : Op) (s : State) : State :=
  if o.trc then
    emit { typ := 0x05, eng := o.engine, ctx := ctxCode o.ctx, seq := o.seq, mflg := o.mflg ||| 1, time := timeWord s,
           layer := o.layer, oper := o.oper, arg := cause } s
  else s

/-- The bays named in the record (R164, R169). -/
def Op.recBays (o : Op) : BitVec 4 :=
  match opClass o.opc with
  | some .t | some .d | some .l => o.gset
  | _ => 0

/-- Puts a record behind those delivered before it, in source order when it is as old (R166). -/
def insertRec (r : Rec) : List Rec → List Rec
  | [] => [r]
  | y :: l => if r.at_ == y.at_ && r.src < y.src then r :: y :: l else y :: insertRec r l

/-- Whether two records come from the Truss and the drain path of one bay in one fc. -/
def Rec.pairs (r y : Rec) : Bool := r.at_ == y.at_ && r.src == y.src && decide (r.src < 4) && r.drain != y.drain

/-- A record enters the collector at time `t`. When a bay's Truss and drain path complete in the same fc, the drain record is
delivered in the next one, whichever command comes first (R166). -/
def collect (fc t : Nat) (r : Rec) (l : List Rec) : List Rec :=
  let r := { r with at_ := t }
  if r.drain then insertRec (if l.any r.pairs then { r with at_ := t + fc } else r) l
  else
    match l.find? r.pairs with
    | some y => insertRec { y with at_ := t + fc } (insertRec r (l.filter fun z => !r.pairs z))
    | none => insertRec r l

/-- Delivers a record to the collector. -/
def deliver (c : Ctx) (r : Rec) (s : State) : State :=
  let t := s.clk
  let fc := fcLen s
  s.modCtx c fun x => { x with recs := collect fc t r x.recs }

/-- Whether a selectable counter of class 1 counts an operation (R169, R283). -/
def selOp (o : Op) (x : SelCnt) : SelCnt :=
  let v := x.cfg.toNat
  let fa := if bitField o.word.toNat 8 4 == 0 && !(o.opc == 0x03 || o.opc == 0x04 || o.opc == 0x06 || o.opc == 0x07 ||
    o.opc == 0x08 || o.opc == 0x0A || o.opc == 0x10 || o.opc == 0x0E || o.opc == 0x02 || o.opc == 0x11 || o.opc == 0x12) then 15
    else bitField o.word.toNat 8 4
  if bitField v 0 4 == 1 && (bitField v 4 8 == 0 || bitField v 4 8 == o.opc) && (v.testBit 16 || bitField v 12 4 == fa) &&
    (v.testBit 29 || bitField v 25 4 == ctxCode o.ctx) then { x with cnt := x.cnt + 1 } else x

/-- Counts a retired operation (R169). -/
def countOp (o : Op) (s : State) : State :=
  if s.cnt.frozen then s
  else
    let s := { s with cnt := { s.cnt with ops := s.cnt.ops + 1, gsel := s.cnt.gsel.map (selOp o) } }
    s.modBays (maskBays o.recBays) fun _ x => { x with opsRet := x.opsRet + 1, sel := x.sel.map (selOp o) }

/-- Raises sticky flags of a context in a bay (R63). -/
def raiseFlags (c : Ctx) (b : Bay) (f : Flags) (s : State) : State :=
  s.modCtx c fun x => { x with sticky := x.sticky.set b.1 ((x.sticky.get b).or f) b.2 }

/-- The bay that takes the flags of classes S and K (R63). -/
def flagBay (s : State) (c : Ctx) : Bay := ((maskBays (s.curSet c)).head?).getD 0

/-- Forgets a completed operation in the holds of its queues (R159). -/
def forget (c : Ctx) (seq : BitVec 8) (s : State) : State :=
  let f (q : Queue) : Queue :=
    { q with fence := q.fence.map (·.filter (· != seq)), prev := if q.prev == some seq then none else q.prev }
  s.modCtx c fun x => { x with qm := f x.qm, qp := f x.qp }

/-- The completion record of an operation (R164). -/
def Op.toRec (o : Op) (t : Nat) : Rec :=
  { mark := o.mark, opc := o.opc, status := o.status, flags := o.opFlags, nrep := o.nrep, q := o.q,
    rcnt := o.attempt, rexp := o.attempt * o.replay.2, bays := o.recBays, layer := o.layer, oper := o.oper, time := t,
    amax := o.amax, info := if o.status != 0 && o.status != 0x15 && !(o.opc == 0x0E && o.status == 0x06) then o.qidx else o.info, src := o.source, qidx := o.qidx,
    drain := opClass o.opc == some .d }

/-- An operation completes (R158, R164): it leaves the block, is counted, and delivers its record. A run-time fault in
`status` stops the queues of its context. Under a tenant reset it leaves without a trace (R232). -/
def complete (o : Op) (s : State) : State :=
  if (s.cx o.ctx).rstBusy then s.dropOp o.ctx o.seq else
  let fatal := o.status != 0 && o.status != 0x15
  let s := s.dropOp o.ctx o.seq
  let s := forget o.ctx o.seq s
  let s := countOp o s
  let s := endStall o s
  let s := State.ifThen fatal (ctxFault o.ctx o.status o.q o.qidx o.aux) s
  let s := State.ifThen (fatal && o.member) (memberFault o.ctx) s
  let s := emitOp 0x04 o.engine (o.status + 256 * o.opFlags.toNat + 4096 * o.nrep.toNat) o s
  State.ifThen (o.cmp || o.status != 0 || o.opc == 0x0B) (deliver o.ctx (o.toRec (timebase s))) s

/-- A bank becomes FREE, contents kept (R44, R228). -/
def Bank.free (k : Bank) : Bank := { k with st := .free, folded := none, chk := [], r := 0, e := 0, taken := false }

def BayState.modBanks (x : BayState) (f : Bank → Bank) : BayState := { x with bank0 := f x.bank0, bank1 := f x.bank1 }

/-- The banks that the products of a job hold become free with it (R144). -/
def freeProducts (j : Option LehrJob) (s : State) : State :=
  match j with
  | some j => { s with bay := s.bay.map fun x => x.modBanks fun k =>
      if k.ctx == j.ctx && decide (j.chain ≤ k.chain) && decide (k.chain < j.chain + 16) then k.free else k }
  | none => s

/-- The operation that one of the lehr's belongs to: its ROOT, with the bays of the job's products (R144). -/
def Op.whole (s : State) (o : Op) : Op :=
  if o.ofLehr then
    { (s.op? o.ctx o.seq).getD o with
      opc := 0x0B, side := false, first := false, last := false, resv := 0, gset := (s.lehr.map (·.bays)).getD 0, aux := o.aux }
  else o

/-- Frees whatever a granted operation holds: Truss, drain path, SVU, top-k selector, lehr. -/
def releaseUnits (o : Op) (s : State) : State :=
  let u := s
  let n := s.damp.ran
  let mine (x : Option (Ctx × BitVec 8)) : Bool := x == some (o.ctx, o.seq)
  let s := { s with
    bay := s.bay.map fun x =>
      { x with
        truss := if mine x.truss then none else x.truss
        trussOn := x.trussOn && !mine x.truss
        drain := if mine x.drain then none else x.drain
        drainOn := x.drainOn && !mine x.drain
        idleAt := if mine x.truss || mine x.drain then s.clk else x.idleAt
        backRan := if mine x.truss then n else x.backRan }
    svu := if mine s.svu then none else s.svu
    topk := if mine s.topk then none else s.topk
    lehr := s.lehr.filter fun j => !(j.ctx == o.ctx && j.seq == o.seq) }
  freeProducts (u.lehr.filter fun j => j.ctx == o.ctx && j.seq == o.seq) s

/-- An operation that fails waits for the responses of what it wrote; what the lehr runs for it stops (R144, R205). -/
def holdFailed (o : Op) (s : State) : State :=
  let j := s.lehr
  let s := if o.isRoot then { releaseUnits o s with lehr := j, ops := s.ops.filter fun p => !(p.under o.ctx o.seq && p.side) } else s
  s.modOp o.ctx o.seq fun _ => { o with stage := .flushing }

/-- An operation ends with a run-time fault: it completes with the first such STATUS, its units free, once every response of its writes has
come (R167, R205); one of the lehr's ends its ROOT. -/
def failOp (o : Op) (code : Nat) (s : State) : State :=
  let w := o.whole s
  let w := { w with status := if w.status == 0 then code else w.status }
  if w.wrs == 0 && w.acks == 0 then complete w (releaseUnits w s) else holdFailed w s

/-- A read met a poisoned word: the operation faults STAGING_UNCORRECTABLE (R257). -/
def poisonFail (o : Op) (aux : Nat) (s : State) : State := failOp { o with aux := aux } 0x10 (reportPoison o.ctx aux s)

/-! ### Fabric ports (R201 to R205) -/

/-- The lowest-numbered bay in service, whose ports serve queue fetches, records and trace (R203). -/
def State.lowBay (s : State) : Option Bay := s.bays.find? s.inService

/-- The ports of classes S, K and X (R168, R203). -/
def State.portBays (s : State) (c : Ctx) : List Bay := (maskBays (s.curSet c)).filter s.inService

/-- Whether the next read tag may be used: fewer than 16,384 requests are out, none with that tag, one whose response has not come among
them (R202, R204). -/
def Port.rdFree (p : Port) : Bool :=
  decide (p.rd.length + p.rdGone.length < 16384) && !(p.rd.any (·.tag == p.rdTag)) && !p.rdGone.contains p.rdTag

/-- Sends a read under the next tag. -/
def Port.sendRd (p : Port) (r : RdReq) (t : Nat) : Port :=
  { p with rd := p.rd ++ [{ r with tag := p.rdTag, time := t }], rdTag := p.rdTag + 1 }

/-- A read goes out, or behind those that wait for a tag. -/
def Port.read (p : Port) (r : RdReq) (t : Nat) : Port :=
  if p.rdWait.isEmpty && p.rdFree then p.sendRd r t else { p with rdWait := p.rdWait ++ [r] }

/-- The tag of a request that has one. -/
def WrReq.tag? : WrReq → Option (BitVec 12)
  | .wr _ _ _ _ _ => none
  | .afadd t _ _ _ _ _ _ _ => some t
  | .flush t _ _ => some t

/-- Whether a write port may send a request: a posted write needs no tag, any other one that is not in use (R202, R207). -/
def Port.wrFree (p : Port) (r : WrReq) : Bool :=
  r.tag?.isNone || (!(p.wr.any (·.tag? == some p.wrTag)) && !p.wrGone.contains p.wrTag)

/-- Sends a request of a write port under the next tag. -/
def Port.sendWr (p : Port) (r : WrReq) (t : Nat) : Port :=
  match r with
  | .wr _ _ _ _ _ => { p with wr := p.wr ++ [r] }
  | .afadd _ line far c lanes adds w _ => { p with wr := p.wr ++ [.afadd p.wrTag line far c lanes adds w t], wrTag := p.wrTag + 1 }
  | .flush _ w _ => { p with wr := p.wr ++ [.flush p.wrTag w t], wrTag := p.wrTag + 1 }

/-- A request of a write port goes out, or behind those that wait for a tag. -/
def Port.write (p : Port) (r : WrReq) (t : Nat) : Port :=
  if p.wrWait.isEmpty && p.wrFree r then p.sendWr r t else { p with wrWait := p.wrWait ++ [r] }

/-- Sends the reads that wait, as far as tags are free. -/
def Port.pumpRd (t : Nat) : List RdReq → Port → Port
  | [], p => { p with rdWait := [] }
  | r :: l, p => if p.rdFree then pumpRd t l (p.sendRd r t) else { p with rdWait := r :: l }

/-- Sends the requests that wait at a write port. -/
def Port.pumpWr (t : Nat) : List WrReq → Port → Port
  | [], p => { p with wrWait := [] }
  | r :: l, p => if p.wrFree r then pumpWr t l (p.sendWr r t) else { p with wrWait := r :: l }

/-- Sends what waits at both ports of a bay. -/
def pumpPorts (b : Bay) (s : State) : State :=
  let t := s.clk
  s.modBay b fun x => { x with port := (x.port.pumpRd t x.port.rdWait).pumpWr t x.port.wrWait }

/-- Issues one RD on a read port. -/
def issueRd (b : Bay) (line : Nat) (far : Bool) (c : Ctx) (w : Owner) (s : State) : State :=
  let t := s.clk
  s.modBay b fun x => { x with port := x.port.read { tag := 0, line := line, far := far, ctx := c, owner := w, time := 0 } t }

/-- Issues one request of a write port. -/
def issueWrReq (b : Bay) (r : WrReq) (s : State) : State :=
  let t := s.clk
  s.modBay b fun x => { x with port := x.port.write r t }

/-- Issues one posted write. -/
def issueWr (b : Bay) (line : Nat) (far : Bool) (c : Ctx) (mask : BitVec 64) (data : List Byte) (s : State) : State :=
  issueWrReq b (.wr line far c mask data) s

/-- Issues a FLUSH (R205). -/
def issueFlush (b : Bay) (w : Owner) (s : State) : State := issueWrReq b (.flush 0 w 0) s

/-- Issues an AFADD (R207). -/
def issueAdd (b : Bay) (line : Nat) (far : Bool) (c : Ctx) (lanes : BitVec 16) (adds : List Word) (w : Owner) (s : State) : State :=
  issueWrReq b (.afadd 0 line far c lanes adds w 0) s

/-- Deals lines to ports in turn from the first (R203). -/
def deal {α : Type} (ports : List Bay) (l : List α) : List (Bay × α) :=
  if ports.isEmpty then [] else l.zipIdx.map fun x => ((ports[x.2 % ports.length]?).getD 0, x.1)

/-- Whose request of a write port it is, where it has a response. -/
def WrReq.owner? : WrReq → Option Owner
  | .wr _ _ _ _ _ => none
  | .afadd _ _ _ _ _ _ w _ => some w
  | .flush _ w _ => some w

/-- Whether some port still has a request of an owner, waiting or unanswered. -/
def portOwes (s : State) (w : Owner) : Bool :=
  s.bays.any fun b =>
    let p := (s.by b).port
    (p.rd ++ p.rdWait).any (·.owner == w) || (p.wr ++ p.wrWait).any (·.owner? == some w)

/-! ### Free values -/

/-- `n` bytes the manual leaves undefined (log entry 9). -/
def freeBytes (s : State) (n : Nat) : List Byte := (List.range n).map fun i => Config.freeByte (s.nfree + i)

def useFree (n : Nat) (s : State) : State := { s with nfree := s.nfree + n }

/-! ### Resets of a context's bookkeeping -/

def BayState.modBank (x : BayState) (second : Bool) (f : Bank → Bank) : BayState :=
  if second then { x with bank1 := f x.bank1 } else { x with bank0 := f x.bank0 }

/-- Releases a chain for every purpose of R40: its FILLING banks become FREE in every bay. -/
def releaseChain (c : Ctx) (id : Nat) (s : State) : State :=
  let s := s.modCtx c fun x => { x with chains := x.chains.filter (·.id != id) }
  { s with bay := s.bay.map fun x => x.modBanks fun k => if k.st == .filling && k.chain == id then k.free else k }

/-- Releases every chain of a context. -/
def releaseChains (c : Ctx) (s : State) : State :=
  let s := s.modCtx c fun x => { x with chains := [] }
  { s with bay := s.bay.map fun x => x.modBanks fun k => if k.st == .filling && k.ctx == c then k.free else k }

end Sys2Proof.Machine
end

