-- ==== Sys2Proof/Machine/Operands.lean ====
section
/-! DEFINITION. Operand forms: the instruction word, descriptors and views, elements with scales, expansion, CSR and 2:4,
address checks, byte ranges and their fabric lines. -/

namespace Sys2Proof.Machine

open Sys2Proof

/-! ### The instruction word (R153) -/

abbrev Inst := BitVec 128

def iOpc (w : Inst) : Nat := bitField w.toNat 0 8
def iFA (w : Inst) : Nat := bitField w.toNat 8 4
def iFB (w : Inst) : Nat := bitField w.toNat 12 4
def iFO (w : Inst) : Nat := bitField w.toNat 16 4
def iMode (w : Inst) : Nat := bitField w.toNat 20 4
def iBays (w : Inst) : BitVec 4 := BitVec.ofNat 4 (bitField w.toNat 24 4)
def iOrd (w : Inst) : Bool := w.getLsbD 28
def iCmp (w : Inst) : Bool := w.getLsbD 29
def iTrc (w : Inst) : Bool := w.getLsbD 30
def iLck (w : Inst) : Bool := w.getLsbD 31
def iImm (w : Inst) : Nat := bitField w.toNat 32 16
def iDA (w : Inst) : Nat := bitField w.toNat 48 8
def iDB (w : Inst) : Nat := bitField w.toNat 56 8
def iDO (w : Inst) : Nat := bitField w.toNat 64 8
def iDX (w : Inst) : Nat := bitField w.toNat 72 8
def iImm48 (w : Inst) : Nat := bitField w.toNat 80 48

/-- The format a field names; FP32 where it names none. -/
def fmtOf (code : Nat) : Fmt := (Fmt.ofCode code).getD .fp32

/-! ### Descriptors (R155, R173) -/

/-- A field of a 64-byte record. -/
def recField (l : List Byte) (at0 n : Nat) : Nat := leNat ((l.drop at0).take n)

def decodeDesc (l : List Byte) : Desc :=
  let b := recField l 0 8
  let a := recField l 8 8
  { base := bitField b 0 44, loc := b.testBit 44, aux := bitField a 0 44, auxLoc := a.testBit 44,
    trows := recField l 16 4, tcols := recField l 20 4, vrow0 := recField l 24 4, vcol0 := recField l 28 4,
    vrows := recField l 32 4, vcols := recField l 36 4, rstride := recField l 40 4,
    fctl := BitVec.ofNat 16 (recField l 44 2), spctl := BitVec.ofNat 8 (recField l 46 1),
    bstride := recField l 48 8, nnz := recField l 56 4,
    clean := b >>> 45 == 0 && a >>> 45 == 0 && recField l 47 1 == 0 && recField l 60 4 == 0 }

def decodeGeo (l : List Byte) : Geo :=
  { nb := recField l 0 2, h := recField l 2 2, w := recField l 4 2, ch := recField l 6 2, kh := recField l 8 1,
    kw := recField l 9 1, sh := recField l 10 1, sw := recField l 11 1, dh := recField l 12 1, dw := recField l 13 1,
    ph := recField l 14 1, pw := recField l 15 1, m0 := recField l 16 8, ms := recField l 24 4, k0 := recField l 28 4,
    ks := recField l 32 4, clean := recField l 36 28 == 0 }

/-- The 64 bytes at an index of a context's descriptor table. -/
def descBytes (s : State) (c : Ctx) (i : Nat) : List Byte := s.staging.readN ((s.cx c).descBase.toNat + 64 * i) 64

def descAt (s : State) (c : Ctx) (i : Nat) : Desc := decodeDesc (descBytes s c i)

/-! SPCTL (R99). -/

def sform (d : Desc) : Nat := bitField d.spctl.toNat 0 2
def mslot (d : Desc) : Fin 8 := ⟨bitField d.spctl.toNat 2 3, Nat.mod_lt _ (by decide)⟩
def ruse (d : Desc) : Bool := d.spctl.toNat.testBit 5

/-! ### Places of elements (R53, R156) -/

/-- Bytes of one tensor row with its padding (R53). -/
def rowBytes (f : Fmt) (cols : Nat) : Nat :=
  match f.width with
  | 4 => ceilDiv' cols 2
  | 6 => 3 * ceilDiv' cols 4
  | w => cols * (w / 8)

/-- A byte range in staging (`win = false`) or at a window address. -/
structure Range where
  win : Bool
  lo  : Nat
  len : Nat
  deriving DecidableEq, Repr

def Range.hits (a b : Range) : Bool := a.win == b.win && decide (a.lo < b.lo + b.len) && decide (b.lo < a.lo + a.len)

/-- Bytes of one staging slice (R194). -/
def sliceBytes : Nat := 2 ^ 24

/-- Whether staging range `r` meets the slice of bay b. -/
def inSlice (b : Bay) (r : Range) : Bool := r.hits ⟨false, b.val * sliceBytes, sliceBytes⟩

/-- The bays whose slices a SCRUB zeroes now (R192). -/
def scrubbing (s : State) : List Bay :=
  s.ops.flatMap fun o => if o.opc == 0x22 && o.stage == .granted then maskBays o.bayField else []

/-- Whether an access to some ranges waits for a SCRUB (R192). -/
def scrubHolds (s : State) (rs : List Range) : Bool := (scrubbing s).any fun b => rs.any (inSlice b)

/-- Bytes that a store buffer will write. -/
def bufRanges (l : LockWin) : List Range :=
  l.buf.flatMap fun b => match b with
    | .bytes w _ _ _ => w.map fun x => ⟨x.1, x.2.1, 1⟩
    | .sem _ _ (some (win, a)) => [⟨win, a, 4⟩]
    | _ => []

/-- Whether an access of a context to some ranges waits for the commit of another context's lock window (R162). -/
def commitHolds (s : State) (c : Ctx) (rs : List Range) : Bool :=
  allCtx.any fun d => d != c && match (s.cx d).lockWin with
    | some l => l.commitEnd.isSome && (bufRanges l).any fun b => !b.win && rs.any b.hits
    | none => false

/-- The bytes of positions [p, p + n) of a row, relative to the row. -/
def posBytes (w p n : Nat) : Nat × Nat := (w * p / 8, ceilDiv' (w * (p + n)) 8)

/-- The bytes of row i of the view, relative to BASE; the padding at the end of the tensor row included when `pad`. -/
def viewRow (f : Fmt) (d : Desc) (pad : Bool) (i : Nat) : Range :=
  let (a, b) := posBytes f.width d.vcol0 d.vcols
  let b := if pad && d.vcol0 + d.vcols == d.tcols then max b (rowBytes f d.tcols) else b
  ⟨d.loc, d.base + (d.vrow0 + i) * d.rstride + a, b - a⟩

/-- The span of a view (R322), over `n` matrices of a batch. -/
def viewSpan (f : Fmt) (d : Desc) (n : Nat := 1) : Range :=
  let a := viewRow f d false 0
  let z := viewRow f d false (d.vrows - 1)
  ⟨d.loc, a.lo, z.lo + z.len + (n - 1) * d.bstride - a.lo⟩

def byteSpan (d : Desc) : Range := viewSpan .int8 d

/-- The rows of a view as ranges. -/
def viewRanges (f : Fmt) (d : Desc) (pad : Bool := false) : List Range := (List.range d.vrows).map (viewRow f d pad)

/-- Matrix t of a batch (R156). -/
def batchView (d : Desc) (t : Nat) : Desc := { d with base := d.base + t * d.bstride }

/-- Identical views (R322). -/
def sameView (f : Fmt) (a b : Desc) : Bool :=
  a.base == b.base && a.loc == b.loc && a.vrow0 == b.vrow0 && a.vcol0 == b.vcol0 && a.vrows == b.vrows &&
  a.vcols == b.vcols && a.rstride == b.rstride && a.bstride == b.bstride && f.width > 0

/-! ### AUX arrays (R66, R69, R70, R112, R156) -/

/-- Bytes from AUX to the indices. DESIGN CHOICE (log entry 51): the 64-byte boundary of R112 is counted from AUX. -/
def csrPtrBytes (d : Desc) : Nat := ceilDiv' (4 * (d.trows + 1)) 64 * 64

/-- The arrays a CSR tensor has: values, pointers, indices. -/
def csrRanges (f : Fmt) (d : Desc) : List Range :=
  [⟨d.loc, d.base, d.nnz * (f.width / 8)⟩, ⟨d.auxLoc, d.aux, csrPtrBytes d + 4 * d.nnz⟩]

/-- Expansion arrays of a held INT operand: the table, or the group records of the whole tensor, with `kt` along K and
`nt` along N. -/
def expandLen (d : Desc) (kt nt : Nat) : Nat :=
  if fctlXmode d.fctl == 1 then 32
  else if fctlXmode d.fctl == 2 then 4 * nt * ceilDiv' kt (32 * 2 ^ fctlXgrp d.fctl) else 0

/-- Every AUX range of a view in format f whose K extent is `kt` and free extent `xt` over the whole tensor. -/
def auxRanges (f : Fmt) (d : Desc) (kt xt : Nat) : List Range :=
  if f.isGf && fctlSmode d.fctl != 0 then [⟨d.auxLoc, d.aux, scaleBytes d.fctl kt xt⟩]
  else if f == .int8 || f == .int4 then
    if expandLen d kt xt == 0 then [] else [⟨d.auxLoc, d.aux, expandLen d kt xt⟩]
  else []

/-! ### Address checks (R194, R197, R199, R104) -/

def Window.usable (x : Window) : Bool :=
  x.en && x.tier.toNat < 2 && x.owner.toNat < 9 && decide (x.base.toNat ≤ x.last.toNat)

def Window.covers (x : Window) (c : Ctx) (wr : Bool) (r : Range) : Bool :=
  x.usable && x.owner.toNat == ctxCode c && (!wr || x.wr) && decide (x.base.toNat * 4096 ≤ r.lo) &&
    decide (r.lo + r.len ≤ (x.last.toNat + 1) * 4096)

/-- The window that serves an access: the lowest-numbered one that passes (R199). -/
def windowOf (s : State) (c : Ctx) (wr : Bool) (r : Range) : Option Window :=
  s.prot.window.toList.find? (·.covers c wr r)

/-- Whether the far tier serves an access. -/
def farOf (s : State) (c : Ctx) (wr : Bool) (r : Range) : Bool :=
  ((windowOf s c wr r).map fun x => x.tier == 1).getD false

def inPartition (s : State) (c : Ctx) (lo len : Nat) : Bool :=
  let p := s.prot.part.get c
  p.en && decide (p.first.toNat ≤ p.last.toNat) && decide (p.first.toNat * 65536 ≤ lo) &&
    decide (lo + len ≤ (p.last.toNat + 1) * 65536) && decide (lo + len ≤ Config.stagingBytes s.build)

/-- The pinned ranges of R104. -/
def pinned (s : State) : List Range :=
  allCtx.flatMap fun c => (s.cx c).masks.toList.filterMap fun m => m.map fun m => viewSpan .int4 m.view

/-- The window and partition check of one range. -/
def rangeOk (s : State) (c : Ctx) (wr : Bool) (r : Range) : Bool :=
  if r.len == 0 then true
  else if r.win then (windowOf s c wr r).isSome
  else inPartition s c r.lo r.len && !(wr && (pinned s).any (·.hits r))

/-! ### Poison (R257) -/

/-- The first byte of the row of a staging bank that holds an offset: eight units of 128 bytes of one bank, 8 KiB apart (R195, R255,
R323). -/
def stagingRow (o : Nat) : Nat := o / 65536 * 65536 + o / 128 % 64 * 128

/-- The row of the poisoned staging word that a list of ranges meets (R257). -/
def poisonedIn (s : State) (rs : List Range) : Option Nat :=
  s.ras.poison.findSome? fun
    | .staging o => if rs.any (fun r => r.hits ⟨false, o / 8 * 8, 8⟩) then some (stagingRow o) else none
    | .bank _ _ _ => none

/-! ### Reading -/

/-- A source of bytes: staging or window addresses. -/
abbrev Rd := Bool → Nat → Byte

/-- The byte at an address among bytes written in order. -/
def lastByte (l : List (Bool × Nat × Byte)) (win : Bool) (a : Nat) : Option Byte :=
  l.reverse.findSome? fun x => if x.1 == win && x.2.1 == a then some x.2.2 else none

/-- Bytes to write, with the bits `keep` of staging bytes taken from what stands there (R318). -/
def keepBits (old : Nat → Byte) (keep : List (Nat × Byte)) (w : List (Bool × Nat × Byte)) : List (Bool × Nat × Byte) :=
  w.map fun x => match keep.find? (fun k => !x.1 && k.1 == x.2.1) with
    | some k => (x.1, x.2.1, (x.2.2 &&& ~~~k.2) ||| (old x.2.1 &&& k.2))
    | none => x

/-- The bytes that the store buffer of an open lock window holds, in member order; the posted word of a SIGNAL is its
semaphore with the adds buffered up to it (R162; the adds of an ATOMADD are no bytes yet, log entry 35). -/
def bufferedBytes (s : State) (c : Ctx) : List (Bool × Nat × Byte) :=
  match (s.cx c).lockWin with
  | none => []
  | some l =>
    (l.buf.foldl (fun (a : Vector Word 16 × List (Bool × Nat × Byte)) b =>
      match b with
      | .bytes w keep _ _ => (a.1, a.2 ++ keepBits (fun p => (lastByte a.2 false p).getD (s.staging.read p)) keep w)
      | .sem i add post =>
        let v := a.1.get i + add
        (a.1.set i.1 v i.2, match post with
          | some (win, p) => a.2 ++ (leBytes 4 v.toNat).zipIdx.map fun x => (win, p + x.2, x.1)
          | none => a.2)
      | _ => a) ((s.cx c).sem, [])).2

/-- Whether a queue is inside its context's lock window (R162). -/
def inWindow (s : State) (c : Ctx) (q : QSel) : Bool :=
  match (s.cx c).lockWin with
  | some l => l.q == q && decide (l.left > 0)
  | none => false

/-- The state as a queue's next instruction reads it: a lock member sees the store buffer of its window (R162). -/
def memberView (s : State) (c : Ctx) (q : QSel) : State :=
  if inWindow s c q then
    { s with staging := s.staging.writes ((bufferedBytes s c).filterMap fun x => if x.1 then none else some x.2) }
  else s

/-- What an operation reads: staging as it stands, window bytes from the lines it was sent. -/
def opRead (s : State) (o : Op) : Rd := fun win a =>
  match (if o.member then lastByte (bufferedBytes s o.ctx) win a else none) with
  | some v => v
  | none =>
    if win then ((o.got.find? (·.1 == a / 64)).map fun x => (x.2[a % 64]?).getD 0).getD 0
    else s.staging.read a

def rdBytes (rd : Rd) (win : Bool) (a n : Nat) : List Byte := (List.range n).map fun i => rd win (a + i)

/-- The code of element (i, j) of a view. -/
def codeAt (rd : Rd) (f : Fmt) (d : Desc) (i j : Nat) : Nat :=
  let b := f.width * (d.vcol0 + j)
  bitField (leNat (rdBytes rd d.loc (d.base + (d.vrow0 + i) * d.rstride + b / 8) (ceilDiv' (b % 8 + f.width) 8))) (b % 8) f.width

/-- The bytes of one view row in view order with sub-byte packing and padding (R298). -/
def rowData (rd : Rd) (f : Fmt) (d : Desc) (i : Nat) : List Byte :=
  let codes := (List.range d.vcols).map (codeAt rd f d i)
  leBytes (rowBytes f d.vcols) (codes.foldr (fun c a => c + 2 ^ f.width * a) 0)

/-- How an operand's tensor lies to K and the free dimension: rows along the free dimension (streamed), or rows along K
(a held K × N face). -/
def scaleCode (rd : Rd) (d : Desc) (rowsAreK : Bool) (row col : Nat) : Nat :=
  let (kt, xt) := if rowsAreK then (d.trows, d.tcols) else (d.tcols, d.trows)
  let (k, x) := if rowsAreK then (row, col) else (col, row)
  (rd d.auxLoc (d.aux + scaleIndex d.fctl kt xt k x)).toNat

/-- Scales an element's code by its shared scale, `row` and `col` in tensor coordinates (R76). -/
def scaledVal (rd : Rd) (f : Fmt) (d : Desc) (rowsAreK : Bool) (row col code : Nat) : Val × Flags :=
  if f.isGf && fctlSmode d.fctl != 0 then applyScale (fctlSmode d.fctl) (scaleCode rd d rowsAreK row col) (decodeFmt f code)
  else (decodeFmt f code, {})

/-- The value of element (i, j) of a dense view (R76). -/
def valAt (rd : Rd) (f : Fmt) (d : Desc) (rowsAreK : Bool) (i j : Nat) : Val × Flags :=
  scaledVal rd f d rowsAreK (d.vrow0 + i) (d.vcol0 + j) (codeAt rd f d i j)

/-! ### CSR (R112, R113, R125) -/

/-- The counts of dropped entries: IDX, ROW, DUP, META. -/
structure Drops where
  idx  : Nat := 0
  row  : Nat := 0
  dup  : Nat := 0
  deriving DecidableEq, Repr

def Drops.add (a b : Drops) : Drops := ⟨a.idx + b.idx, a.row + b.row, a.dup + b.dup⟩

def csrPtr (rd : Rd) (d : Desc) (i : Nat) : Int := signedOf 32 (leNat (rdBytes rd d.auxLoc (d.aux + 4 * i) 4))

def csrIdx (rd : Rd) (d : Desc) (e : Nat) : Int :=
  signedOf 32 (leNat (rdBytes rd d.auxLoc (d.aux + csrPtrBytes d + 4 * e) 4))

/-- The entries of tensor row i as they stand, none where its pointers are inconsistent. -/
def csrEntries (rd : Rd) (d : Desc) (i : Nat) : Option (List Nat) :=
  let a := csrPtr rd d i
  let b := csrPtr rd d (i + 1)
  if a < 0 || b < 0 || a > d.nnz || b > d.nnz || a > b then none
  else some ((List.range (b - a).toNat).map fun k => a.toNat + k)

/-- Tensor row i: its accepted entries as (column, entry), and whether the row is inconsistent. -/
def csrRow (rd : Rd) (d : Desc) (i : Nat) : List (Nat × Nat) × Drops :=
  match csrEntries rd d i with
  | none => ([], { row := 1 })
  | some es =>
    es.foldl (fun (l : List (Nat × Nat) × Drops) e =>
      let c := csrIdx rd d e
      if c < 0 || c ≥ d.tcols then (l.1, { l.2 with idx := l.2.idx + 1 }) else (l.1 ++ [(c.toNat, e)], l.2)) ([], {})

/-- Row i of the view, expanded (R113), with the drops met and the duplicates whose index lies in the view. A later entry
with an index wins. -/
def csrExpand (rd : Rd) (f : Fmt) (d : Desc) (i : Nat) : List Nat × Drops × Nat :=
  let (es, dr) := csrRow rd d (d.vrow0 + i)
  let here := es.filter fun e => decide (d.vcol0 ≤ e.1) && decide (e.1 < d.vcol0 + d.vcols)
  let val (e : Nat) : Nat := leNat (rdBytes rd d.loc (d.base + e * (f.width / 8)) (f.width / 8))
  let codes := (List.range d.vcols).map fun j =>
    ((here.reverse.find? (·.1 == d.vcol0 + j)).map fun e => val e.2).getD 0
  let dups := here.length - (here.map (·.1)).dedup.length
  (codes, { dr with dup := dups }, es.length)

/-! ### 2:4 (R101, R106) -/

/-- The kept positions of group g in column n of a checked mask, in ascending order. -/
def keptOf (nib : Nat) : List Nat := [nib % 4, nib / 4].dedup

def maskNib (rd : Rd) (m : MaskSlot) (g n : Nat) : Nat := codeAt rd .int4 m.view g n

/-- The code of logical element (k, n) of a 2:4 tensor, none at a pruned position. -/
def sparseCode (rd : Rd) (f : Fmt) (d : Desc) (m : MaskSlot) (k n : Nat) : Option Nat :=
  match (keptOf (maskNib rd m (k / 4) n)).idxOf? (k % 4) with
  | some p => some (codeAt rd f { d with vrow0 := 0, vcol0 := 0 } (2 * (k / 4) + p) n)
  | none => none

/-! ### Writing -/

/-- Bytes to write, with the space. -/
abbrev Wr := Bool × Nat × List Byte

/-- Elements and bytes of the smallest whole unit of a packed row: a byte, or the 3-byte group of a 6-bit format (R53). -/
def packUnit (f : Fmt) : Nat × Nat :=
  match f.width with
  | 4 => (2, 1)
  | 6 => (4, 3)
  | w => (1, w / 8)

/-- The whole units that positions [p, p + n) of a row touch, as bytes relative to the row (R318). -/
def unitBytes (f : Fmt) (p n : Nat) : Nat × Nat :=
  let (u, b) := packUnit f
  (p / u * b, ceilDiv' (p + n) u * b)

/-- One row of codes from tensor position `p` of the row at `addr`, merged in whole units with what lies there (R53,
R318); at the end of the tensor row its padding becomes 0. -/
def rowWrite (rd : Rd) (f : Fmt) (win : Bool) (addr p tcols : Nat) (codes : List Nat) : Wr :=
  let w := f.width
  let n := codes.length
  let (a, b) := unitBytes f p n
  let v := codes.foldr (fun c x => c % 2 ^ w + 2 ^ w * x) 0
  let sh := w * p - 8 * a
  if w % 8 == 0 then (win, addr + a, leBytes (b - a) v)
  else
    let old := leNat (rdBytes rd win (addr + a) (b - a))
    let hi := if p + n == tcols then 0 else old >>> (sh + w * n)
    (win, addr + a, leBytes (b - a) (old % 2 ^ sh + v * 2 ^ sh + hi * 2 ^ (sh + w * n)))

/-- Writes a matrix of codes to a dense view. -/
def viewWrites (rd : Rd) (f : Fmt) (d : Desc) (rows : List (List Nat)) : List Wr :=
  rows.zipIdx.map fun x => rowWrite rd f d.loc (d.base + (d.vrow0 + x.2) * d.rstride) d.vcol0 d.tcols x.1

/-- The units of a row that a view covers in part: where it begins inside one, and where it ends inside one before the
end of the tensor row (R318). -/
def partUnits (f : Fmt) (d : Desc) : List Nat :=
  let (u, _) := packUnit f
  let e := d.vcol0 + d.vcols
  ((if d.vcol0 % u != 0 then [d.vcol0 / u] else []) ++ (if e % u != 0 && e != d.tcols then [e / u] else [])).dedup

/-- Partly covered bytes and groups of a window view, read first (R318). -/
def mergeRanges (f : Fmt) (d : Desc) : List Range :=
  if d.loc then
    (List.range d.vrows).flatMap fun i => (partUnits f d).map fun k =>
      ⟨true, d.base + (d.vrow0 + i) * d.rstride + k * (packUnit f).2, (packUnit f).2⟩
  else []

/-- Writes bytes to staging; a write that covers a whole 8-byte word clears its poison (R257). -/
def writeStaging (ws : List (Nat × List Byte)) (s : State) : State :=
  let whole (o : Nat) : Bool := (List.range 8).all fun i =>
    ws.any fun w => decide (w.1 ≤ o / 8 * 8 + i) && decide (o / 8 * 8 + i < w.1 + w.2.length)
  { s with
    staging := ws.foldl (fun m w => m.writeN w.1 w.2) s.staging
    ras := { s.ras with poison := s.ras.poison.filter fun
      | .staging o => !whole o
      | _ => true } }

/-- The tier of a line: that of the checked range it belongs to, an access of the kind `wr` (R199). -/
def tierIn (s : State) (c : Ctx) (wr : Bool) (spans : List Range) (line : Nat) : Bool :=
  let r : Range := ⟨true, line * 64, 64⟩
  farOf s c wr ((spans.find? (·.hits r)).getD r)

/-- Window bytes as posted lines: line, mask and data (R201). -/
def wrLines (ws : List Wr) : List (Nat × BitVec 64 × List Byte) :=
  let bytes := ws.flatMap fun w => if w.1 then w.2.2.zipIdx.map fun x => (w.2.1 + x.2, x.1) else []
  let lines := (bytes.map fun x => x.1 / 64).dedup
  lines.map fun l =>
    let inl := bytes.filter fun x => x.1 / 64 == l
    (l, BitVec.ofNat 64 (((inl.map fun x => x.1 % 64).dedup.map fun i => 2 ^ i).sum),
      (List.range 64).map fun i => ((inl.reverse.find? (·.1 % 64 == i)).map (·.2)).getD 0)

/-- The lines a list of ranges touches in windows, each once, in order. -/
def rdLines (rs : List Range) : List Nat :=
  (rs.flatMap fun r => if r.win && r.len != 0 then
    (List.range ((r.lo + r.len - 1) / 64 - r.lo / 64 + 1)).map fun i => r.lo / 64 + i else []).dedup

/-- Bytes read from and written to windows (R320). -/
def winBytes (rs : List Range) : Nat := (rs.map fun r => if r.win then r.len else 0).sum

end Sys2Proof.Machine
end

