-- ==== Sys2Proof/Machine/Checks.lean ====
section
/-! DEFINITION. The checks of R167, steps 2 to 9, for every opcode, and what holds an instruction at dispatch. A check
list holds (condition, fault code) pairs in the order of the steps. -/

namespace Sys2Proof.Machine

open Sys2Proof

/-- The code of the first condition that holds. -/
def firstFault (l : List (Bool × Nat)) : Option Nat := (l.find? (·.1)).map (·.2)

/-- Fields an opcode uses: the formats, the legal bits of MODE, IMM16 and IMM48, the descriptors (R154). -/
structure Use where
  fa    : Bool := false
  fb    : Bool := false
  fo    : Bool := false
  mode  : Nat := 0
  imm   : Nat := 0
  imm48 : Nat := 0
  da    : Bool := false
  db    : Bool := false
  dO    : Bool := false
  dx    : Bool := false
  deriving DecidableEq, Repr

/-- The field tables of the instruction reference. -/
def useOf (opc : Nat) : Use :=
  match opc with
  | 0x01 => { fb := true, mode := 5, db := true }
  | 0x02 => { fa := true, da := true, dx := true }
  | 0x03 => { fa := true, fb := true, fo := true, mode := 7, da := true, dO := true }
  | 0x04 => { fa := true, fb := true, fo := true, da := true }
  | 0x05 => { fo := true, mode := 1, dO := true }
  | 0x06 => { fa := true, fb := true, fo := true, mode := 3, imm := 0xFF, da := true, dO := true }
  | 0x07 => { fa := true, fb := true, fo := true, imm := 0xFFFF, imm48 := 2 ^ 48 - 1, da := true, db := true, dO := true }
  | 0x08 => { fa := true, fo := true, imm := 3, da := true, dO := true }
  | 0x09 => { fa := true, fo := true, imm := 0x7F, da := true, dO := true, dx := true }
  | 0x0A => { fa := true, fo := true, imm := 3, da := true, dO := true }
  | 0x0B => { fa := true, fo := true, imm := 0x7FFF, imm48 := 2 ^ 38 - 1, da := true, db := true, dO := true, dx := true }
  | 0x0C => { fa := true, fb := true, imm := 0xFFFF, da := true, db := true, dO := true }
  | 0x0D => { imm := 7, da := true, dO := true }
  | 0x0E => { fa := true, fo := true, da := true, dO := true }
  | 0x10 => { fa := true, fo := true, mode := 1, da := true, dO := true }
  | 0x11 => { fa := true, imm := 0xFFF, imm48 := 2 ^ 32 - 1, da := true }
  | 0x12 => { fa := true, fo := true, imm := 0xFFF, imm48 := 2 ^ 32 - 1, dO := true }
  | 0x13 => { fa := true, fo := true, da := true, dO := true }
  | 0x18 => { imm := 0xF, imm48 := 2 ^ 32 - 1 }
  | 0x19 => { imm := 0x400F, imm48 := 2 ^ 32 - 1 }
  | 0x1A => { imm := 1 }
  | 0x1B => { imm := 0x7F, imm48 := 2 ^ 28 - 1 }
  | 0x1C => { imm := 0x3F }
  | 0x20 => { imm := 0xFFFF, imm48 := 2 ^ 24 - 1 }
  | 0x21 => { mode := 7, imm := 0xFFFF, dO := true }
  | 0x23 => { mode := 1, imm := 0xF }
  | 0x24 => { fa := true, fo := true, da := true, dO := true }
  | _ => {}

/-- Descriptor use that depends on the word: SIGNAL's DX, FLAGS' DO, WATCH's DA. -/
def useOfInst (w : Inst) : Use :=
  let u := useOf (iOpc w)
  if iOpc w == 0x19 then { u with dx := (iImm w).testBit 14 }
  else if iOpc w == 0x23 then { u with dO := (iMode w).testBit 0 }
  else if iOpc w == 0x21 then { u with da := (iMode w).testBit 2 }
  else u

def outside (v mask : Nat) : Bool := v &&& mask != v

/-- The bays an instruction names at dispatch (R153, R40). -/
def namedBays (s : State) (c : Ctx) (w : Inst) : BitVec 4 := if iBays w == 0 then s.curSet c else iBays w

/-- Step 3 (R24, R153, R154, R170, R224). -/
def fieldChecks (s : State) (c : Ctx) (q : QSel) (w : Inst) : List (Bool × Nat) :=
  let u := useOfInst w
  let bayOp := opClass (iOpc w) == some .t || opClass (iOpc w) == some .d
  let set := s.curSet c
  [(!u.fa && iFA w != 0, 3), (!u.fb && iFB w != 0, 3), (!u.fo && iFO w != 0, 3), (outside (iMode w) u.mode, 3),
   (outside (iImm w) u.imm, 3), (outside (iImm48 w) u.imm48, 3), (!u.da && iDA w != 0, 3), (!u.db && iDB w != 0, 3),
   (!u.dO && iDO w != 0, 3), (!u.dx && iDX w != 0, 3), (iLck w != inWindow s c q, 3),
   (if iOpc w == 0x22 && iBays w == 0 then true
    else if bayOp || iOpc w == 0x22 then (iBays w &&& ~~~(set &&& Config.bayMask s.build)) != 0 || set == 0
    else iBays w != 0, 3),
   (u.fa && iFA w == 15, 5), (u.fb && iFB w == 15, 5), (u.fo && iFO w == 15, 5)]

/-! ### Descriptors -/

/-- Reserved encodings of FCTL (R65); for an INT8 or INT4 output bits [6:2] are SHIFT. -/
def fctlReserved (c : BitVec 16) (intOut : Bool) : Bool :=
  fctlSmode c == 3 || fctlXmode c == 3 || fctlXgrp c == 3 || bitField c.toNat 14 2 != 0 ||
    (!intOut && (fctlSblk c > 4 || (fctlSdir c && fctlSblk c == 4)))

/-- A 2:4 descriptor names the logical tensor; this is the stored one, with two rows for each group of four that the view
touches (R106, log entry 26). -/
def physView (d : Desc) : Desc :=
  if sform d == 2 then
    { d with trows := 2 * ceilDiv' d.trows 4, vrow0 := 2 * (d.vrow0 / 4), vrows := 2 * (ceilDiv' (d.vrow0 + d.vrows) 4 - d.vrow0 / 4) }
  else d

/-- Whether the rows of a held operand's tensor run along K: those of a 2:4 tensor do in either orientation (R66, R106). -/
def heldRowsK (d : Desc) (trans : Bool) : Bool := sform d == 2 || !trans

/-- How a descriptor is used: output, sparse forms allowed, RUSE allowed, batched. -/
structure Role where
  out   : Bool := false
  forms : List Nat := [0]
  ruse  : Bool := false
  batch : Bool := false
  deriving DecidableEq, Repr

/-- Step 4: the contents of a descriptor apart from its row stride (R65, R99, R156, R194). -/
def coordChecks (r : Role) (intOut : Bool) (d : Desc) : List (Bool × Nat) :=
  [(!d.clean || d.trows == 0 || d.tcols == 0 || decide (d.trows ≥ 2 ^ 31) || decide (d.tcols ≥ 2 ^ 31) || d.vrows == 0 ||
      d.vcols == 0 || decide (d.vrow0 + d.vrows > d.trows) || decide (d.vcol0 + d.vcols > d.tcols), 3),
   ((!d.loc && decide (d.base ≥ 2 ^ 26)) || (!r.batch && ((!d.auxLoc && decide (d.aux ≥ 2 ^ 26)) || d.bstride != 0)), 3),
   (fctlReserved d.fctl intOut || (!r.out && (fctlHead d.fctl != 0 || fctlStrict d.fctl)), 3),
   (bitField d.spctl.toNat 6 2 != 0 || !r.forms.contains (sform d) || (sform d != 2 && mslot d != 0) || (ruse d && !r.ruse) ||
      (sform d == 1 && decide (d.nnz ≥ 2 ^ 31)), 3)]

/-- The row stride of a descriptor measured in format f (R53, R156). -/
def strideChecks (f : Fmt) (d : Desc) : List (Bool × Nat) :=
  [(sform d != 1 && (decide (d.rstride < rowBytes f d.tcols) || (f.width == 6 && d.rstride % 3 != 0)), 3)]

/-- Step 4 for a descriptor measured in format f. -/
def descChecks (f : Fmt) (r : Role) (d : Desc) : List (Bool × Nat) :=
  coordChecks r (r.out && (f == .int8 || f == .int4)) d ++ strideChecks f d

/-- Step 4 for an output that holds mask nibbles or status bytes in the size of format f: it is no INT8 or INT4 output, so
bits [6:2] of its FCTL are no SHIFT (R65). -/
def plainChecks (f : Fmt) (r : Role) (d : Desc) : List (Bool × Nat) := coordChecks r false d ++ strideChecks f d

/-- A byte view (R321) of at least `n` bytes. -/
def byteViewChecks (n : Nat) (d : Desc) : List (Bool × Nat) :=
  descChecks .int8 { out := true } d ++
  [(d.vrows != 1 || decide (d.vcols < n) || d.fctl != 0 || d.spctl != 0 || d.aux != 0 || d.auxLoc || d.bstride != 0 || d.nnz != 0, 3)]

/-- The first bytes of a byte view (R321). -/
def byteRange (n : Nat) (d : Desc) : Range := ⟨d.loc, d.base + d.vrow0 * d.rstride + d.vcol0, n⟩

/-- Step 5. -/
def rangeChecks (s : State) (c : Ctx) (wr : Bool) (rs : List Range) : List (Bool × Nat) :=
  [(rs.any fun r => !rangeOk s c wr r, 4)]

/-- Step 7 for FCTL (R65). -/
def fctlChecks (f : Fmt) (out held : Bool) (d : Desc) : List (Bool × Nat) :=
  let c := d.fctl
  let int := f == .int8 || f == .int4
  [(!f.isGf && fctlSmode c != 0, 5),
   (out && !f.isGf && (if int then c.toNat.testBit 7 || c.toNat.testBit 8 else fctlStrict c || fctlHead c != 0), 5),
   (out && f.isGf && fctlSmode c == 0 && fctlHead c != 0, 5),
   (fctlXmode c != 0 && !(held && int && !out), 5)]

/-- Step 7 for FCTL of such an output, or of one that only names a place (R65). -/
def plainFctl (d : Desc) : List (Bool × Nat) :=
  [(fctlSmode d.fctl != 0 || fctlStrict d.fctl || fctlHead d.fctl != 0 || fctlXmode d.fctl != 0, 5)]

/-- XMODE on a view that is no held operand (R65). -/
def noExpand (d : Desc) : List (Bool × Nat) := [(fctlXmode d.fctl != 0, 5)]

/-- The scale blocks of a tile's output view: rows run along the free dimension, but for a 2:4 output, whose rows are K (R66,
R67, log entry 30). -/
def tileAlign (d : Desc) : List (Bool × Nat) :=
  let (ke, xe) := blkExtent d.fctl
  let (k0, x0) := if sform d == 2 then (d.vrow0, d.vcol0) else (d.vcol0, d.vrow0)
  [(fctlSmode d.fctl != 0 && (k0 % ke != 0 || x0 % xe != 0), 3)]

/-- Alignment of a slab with its scale blocks and expansion groups (R67, R70): first k and first free index. -/
def alignChecks (f : Fmt) (d : Desc) (k0 x0 : Nat) : List (Bool × Nat) :=
  let (ke, xe) := blkExtent d.fctl
  [(f.isGf && fctlSmode d.fctl != 0 && (k0 % ke != 0 || x0 % xe != 0), 3),
   (fctlXmode d.fctl == 2 && k0 % (32 * 2 ^ fctlXgrp d.fctl) != 0, 3)]

/-! ### Features (R100, R307) -/

def feat (s : State) (c : Ctx) (n : Nat) : Bool := (s.cx c).feat.getLsbD n

def needFeat (s : State) (c : Ctx) (need : Bool) (n : Nat) : Bool × Nat := (need && !feat s c n, 2)

/-- Features of formats named in used fields. -/
def fmtFeats (s : State) (c : Ctx) (w : Inst) : List (Bool × Nat) :=
  let u := useOfInst w
  let names (p : Nat → Bool) : Bool := (u.fa && p (iFA w)) || (u.fb && p (iFB w)) || (u.fo && p (iFO w))
  let zero := (u.fa && iFA w == 0) || (u.fb && iFB w == 0) || (u.fo && iFO w == 0 && iOpc w != 0x0A)
  [needFeat s c zero 0, needFeat s c (names (· == 2)) 1, needFeat s c (names fun x => x == 7 || x == 8) 13]

/-! ### Faces (R25, R26, R43, R108) -/

/-- Face K, columns per bay, stream rate r and latency d of a face format, dense. -/
def faceOf : Fmt → Nat × Nat × Nat × Nat
  | .fp64 => (128, 32, 1, 8)
  | .fp32 => (256, 64, 2, 4)
  | .fp16 | .bf16 => (512, 128, 2, 3)
  | .gf8e4 | .gf8e5 | .int8 | .gf6e3 | .gf6e2 => (1024, 128, 2, 4)
  | .gf4 | .int4 => (2048, 128, 2, 6)
  | _ => (0, 1, 1, 0)

/-- Gather bytes per row slot, dense, r as in the table. -/
def gatherBytes : Fmt → Nat
  | .fp64 => 1024
  | .gf6e3 | .gf6e2 => 1536
  | _ => 2048

def faceK (f : Fmt) (sparse : Bool) : Nat := (faceOf f).1 * (if sparse then 2 else 1)

def faceCols (f : Fmt) : Nat := (faceOf f).2.1

/-- Stream rate and latency with the accumulator (R26). -/
def faceRate (f acc : Fmt) : Nat := if acc == .fp32x2 then 1 else (faceOf f).2.2.1

def faceLat (f acc : Fmt) : Nat := (faceOf f).2.2.2 + (if acc == .fp32x2 then 2 else 0)

def accBytes (acc : Fmt) : Nat := acc.width / 8

/-- Accumulator bytes of one row in one bay (R43). -/
def rowAcc (cpb : Nat) (acc : Fmt) : Nat := cpb * accBytes acc

def tileRows (cpb : Nat) (acc : Fmt) : Nat := 2 ^ 22 / rowAcc cpb acc

/-- The face format of a held operand (R26). -/
def faceFmt (f : Fmt) (d : Desc) : Fmt := if fctlXmode d.fctl != 0 then fctlXfmt d.fctl else f

def isFaceFmt (f : Fmt) : Bool := (faceOf f).1 != 0

def gf8or6 (f : Fmt) : Bool := f.isGf && f != .gf4

def half (f : Fmt) : Bool := f == .fp16 || f == .bf16

/-- R73: streamed format, face format after expansion, accumulator. -/
def comboOk (a face acc : Fmt) : Bool :=
  let fl := acc == .fp32 || acc == .fp32x2
  (a == .fp64 && face == .fp64 && acc == .fp64) || (a == .fp32 && face == .fp32 && fl) ||
  (half a && half face && fl) || (gf8or6 a && gf8or6 face && fl) || (a == .gf4 && face == .gf4 && fl) ||
  (a == .int8 && face == .int8 && acc == .int32) || (a == .int4 && face == .int4 && acc == .int32)

/-- R73 for a PASS as its own fields give it: a held INT may be one that its raise expands. -/
def mayPass (a held acc : Fmt) : Bool :=
  comboOk a held acc || ((held == .int8 || held == .int4) && (comboOk a .fp16 acc || comboOk a .bf16 acc))

/-- R73 by face and accumulator alone (R175). -/
def rowOk (face acc : Fmt) : Bool := isFaceFmt face && comboOk face face acc

/-- Output formats of a DRAIN (R74). -/
def drainOk (acc out : Fmt) : Bool :=
  match acc with
  | .fp32 => out == .fp64 || out == .fp32 || half out || out.isGf
  | .fp32x2 => out == .fp32x2 || out == .fp64 || out == .fp32 || half out || out.isGf
  | .fp64 => out == .fp64 || out == .fp32
  | .int32 => out == .int32 || out == .int8 || out == .int4 || out == .fp32
  | _ => false

def seedOk (acc src : Fmt) : Bool :=
  (acc == .fp32 && src == .fp32) || (acc == .fp32x2 && (src == .fp32x2 || src == .fp32)) ||
  (acc == .fp64 && (src == .fp64 || src == .fp32)) || (acc == .int32 && src == .int32)

def csrFmt (f : Fmt) : Bool := f == .fp64 || f == .fp32 || half f || f == .gf8e4 || f == .gf8e5 || f == .int8

def sparseFmt (f : Fmt) : Bool := half f || f.isGf || f == .int8 || f == .int4

/-- CSR restrictions (R112) and 2:4 restrictions (R106), step 7. -/
def formChecks (f : Fmt) (d : Desc) : List (Bool × Nat) :=
  [(sform d == 1 && (!csrFmt f || fctlSmode d.fctl != 0 || fctlXmode d.fctl != 0), 5),
   (sform d == 2 && (!sparseFmt f || fctlXmode d.fctl != 0), 5)]

/-! ### Chains and RAISE records at dispatch -/

/-- The open chain of a context that meets a bay mask (R40, R41). -/
def openChain (s : State) (c : Ctx) (bays : BitVec 4) : Option Chain :=
  (s.cx c).chains.find? fun k => k.isOpen && (k.bays &&& bays) != 0

/-- The record of the context's last RAISE dispatched to some bays (R171, R172): of those in flight and those that the bays hold, the
latest dispatched. DESIGN CHOICE (log entry 52): where RAISEs of different bay sets stand in the bays, the latest alone is looked at. -/
def lastRaise (s : State) (c : Ctx) (bays : BitVec 4) : Option RaiseRec :=
  let flying := (s.ops.filter fun o => o.ctx == c && o.opc == 0x01 && (aim s o &&& bays) != 0).filterMap (·.rr)
  let held := (maskBays bays).filterMap fun b => (s.by b).recs.get c
  (held ++ flying).foldl (fun a r => match a with
    | some x => if x.no < r.no then some r else a
    | none => some r) none

/-- Ranges a held operand is read from. -/
def heldRanges (f : Fmt) (d : Desc) (trans : Bool) : List Range :=
  if sform d == 1 then csrRanges f d
  else
    let (kt, xt) := if heldRowsK d trans then (d.trows, d.tcols) else (d.tcols, d.trows)
    viewSpan f (physView d) :: auxRanges f d kt xt

/-- The ranges of a view whose rows run along the free dimension: its span and its whole AUX arrays (R156). -/
def viewAux (f : Fmt) (d : Desc) : List Range := viewSpan f d :: auxRanges f d d.tcols d.trows

/-- Ranges a streamed operand is read from. DESIGN CHOICE (log entry 52): a 2:4 DA of FOLD or ROUGH, which step 7 refuses (R106), is
measured in step 5 by the rows of its view as they stand. -/
def streamRanges (f : Fmt) (d : Desc) : List Range :=
  if sform d == 1 then csrRanges f d else viewAux f d

/-- Ranges a tile's output is written to (R111, log entry 30). -/
def drainRanges (f : Fmt) (d : Desc) : List Range :=
  let (kt, xt) := if sform d == 2 then (d.trows, d.tcols) else (d.tcols, d.trows)
  viewSpan f (physView d) :: auxRanges f d kt xt

def slotChecks (s : State) (c : Ctx) (d : Desc) : List (Bool × Nat) :=
  [(sform d == 2 && ((s.cx c).masks.get (mslot d)).isNone, 3)]

/-- The sparse-form features of descriptors (R100). -/
def formFeats (s : State) (c : Ctx) (ds : List Desc) : List (Bool × Nat) :=
  [needFeat s c (ds.any fun d => sform d == 2) 2, needFeat s c (ds.any fun d => sform d == 1) 3,
   needFeat s c (ds.any ruse) 4]

/-- K and N extents of a held view. -/
def heldK (d : Desc) (trans : Bool) : Nat := if trans then d.vcols else d.vrows
def heldN (d : Desc) (trans : Bool) : Nat := if trans then d.vrows else d.vcols
def heldK0 (d : Desc) (trans : Bool) : Nat := if heldRowsK d trans then d.vrow0 else d.vcol0
def heldN0 (d : Desc) (trans : Bool) : Nat := if heldRowsK d trans then d.vcol0 else d.vrow0

/-! ### Matrix instructions -/

/-- RAISE (R107, R112, R170 to R172). The face columns are measured against the granted bays, at the grant (R225). -/
def chkRaise (s : State) (c : Ctx) (w : Inst) : List (Bool × Nat) :=
  let d := descAt s c (iDB w)
  let f := fmtOf (iFB w)
  let tr := (iMode w).testBit 0
  let face := faceFmt f d
  descChecks f { forms := [0, 1, 2] } d ++ [(sform d == 1 && tr, 3)] ++ alignChecks f d (heldK0 d tr) (heldN0 d tr) ++
  rangeChecks s c false (heldRanges f d tr) ++ fmtFeats s c w ++ formFeats s c [d] ++ [needFeat s c ((iMode w).testBit 2) 14] ++
  fctlChecks f false true d ++ formChecks f d ++
  [(!isFaceFmt f || (fctlXmode d.fctl == 1 && f != .int4), 5),
   (decide (heldK d tr > faceK face (sform d == 2)), 6)] ++
  slotChecks s c d ++
  [(sform d == 2 && (match (s.cx c).masks.get (mslot d) with
      | some m => d.vrow0 % 4 != 0 || d.vcol0 % 4 != 0 || decide (d.vrow0 + d.vrows > m.k) || decide (d.vcol0 + d.vcols > m.n)
      | none => false), 3)]

/-- Output height and width, K and rows of a geometry (R49). -/
def Geo.oh (g : Geo) : Nat :=
  let e := g.dh * (g.kh - 1) + 1
  if g.h + 2 * g.ph < e then 0 else (g.h + 2 * g.ph - e) / g.sh + 1

def Geo.ow (g : Geo) : Nat :=
  let e := g.dw * (g.kw - 1) + 1
  if g.w + 2 * g.pw < e then 0 else (g.w + 2 * g.pw - e) / g.sw + 1

def Geo.kTotal (g : Geo) : Nat := g.kh * g.kw * g.ch

/-- GATHER (R48, R173). -/
def chkGather (s : State) (c : Ctx) (w : Inst) : List (Bool × Nat) :=
  let d := descAt s c (iDA w)
  let g := decodeGeo (descBytes s c (iDX w))
  let f := fmtOf (iFA w)
  let inR (v lo hi : Nat) : Bool := decide (lo ≤ v) && decide (v ≤ hi)
  descChecks f {} d ++
  [(!g.clean || d.trows != g.nb * g.h * g.w || d.tcols != g.ch || d.vrows != d.trows || d.vcols != d.tcols, 3)] ++
  alignChecks f d g.k0 g.m0 ++
  rangeChecks s c false (streamRanges f d) ++ fmtFeats s c w ++ [needFeat s c true 12] ++ fctlChecks f false false d ++
  [(!isFaceFmt f, 5),
   (!(inR g.nb 1 65535 && inR g.h 1 65535 && inR g.w 1 65535 && inR g.ch 1 65535 && inR g.kh 1 15 && inR g.kw 1 15 &&
      inR g.sh 1 8 && inR g.sw 1 8 && inR g.dh 1 8 && inR g.dw 1 8 && inR g.ph 0 7 && inR g.pw 0 7 &&
      inR g.ms 1 (if f == .fp64 || f == .fp32 then 16384 else 8192) &&
      inR g.ks 1 (faceK f (sparseFmt f))) || g.oh == 0 || g.ow == 0 ||
      decide (g.m0 + g.ms > g.nb * g.oh * g.ow) || decide (g.k0 + g.ks > g.kTotal), 6)]

/-- Chain rules of R41, R131 and R175 for an operation with FIRST, shape and accumulator; `fold` is the face index of a
FOLD. -/
def chainChecks (s : State) (c : Ctx) (bays : BitVec 4) (first : Bool) (fold : Option Nat) (m n cpb k : Nat) (acc : Fmt) :
    List (Bool × Nat) :=
  match openChain s c bays with
  | none => [(!first, 3), (decide (k > 2 ^ 32), 6)]
  | some ch =>
    [(first, 3), ((ch.kind == .fold) != fold.isSome, 3),
     (ch.bays != bays || ch.m != m || ch.n != n || ch.cpb != cpb || (fold.isSome && fold != some ch.foldJ), 6),
     (ch.acc != acc, 5), (decide (ch.kTot + k > 2 ^ 32), 6)]

/-- R123 for a PASS with RUSE = 1. -/
def ruseChecks (s : State) (c : Ctx) (d : Desc) : List (Bool × Nat) :=
  [(ruse d && (match (s.cx c).rough with
      | none => true
      | some r => decide (d.vrow0 < r.row0) || decide (d.vcol0 < r.col0) || decide (d.vrow0 + d.vrows > r.row0 + r.rows) ||
          decide (d.vcol0 + d.vcols > r.col0 + r.cols) ||
          (d.vcol0 - r.col0) / 512 != (d.vcol0 + d.vcols - 1 - r.col0) / 512), 3)]

/-- Rows and depth of a PASS: from its geometry or its DA. -/
def passShape (g : Option Geo) (d : Desc) : Nat × Nat :=
  match g with
  | some g => (g.ms, g.ks)
  | none => (d.vrows, d.vcols)

/-- PASS (R172, R174). -/
def chkPass (s : State) (c : Ctx) (q : QSel) (w : Inst) : List (Bool × Nat) :=
  let g := (s.qu c q).geo
  let d := descAt s c (iDA w)
  let o := descAt s c (iDO w)
  let f := fmtOf (iFA w)
  let acc := fmtOf (iFO w)
  let bays := namedBays s c w
  let r := lastRaise s c bays
  let (m, k) := passShape g d
  let first := (iMode w).testBit 0
  let face := (r.map (·.face)).getD f
  (if g.isSome then [] else descChecks f { forms := [0, 1] } d) ++
  coordChecks { out := true, ruse := true } false o ++ tileAlign o ++
  (match g with | some _ => [] | none => alignChecks f d d.vcol0 d.vrow0 ++ rangeChecks s c false (streamRanges f d)) ++
  fmtFeats s c w ++ formFeats s c ((if g.isSome then [] else [d]) ++ [o]) ++ [needFeat s c ((iMode w).testBit 2) 14] ++
  (if g.isSome then [] else fctlChecks f false false d ++ formChecks f d) ++ noExpand o ++
  [(!mayPass f (fmtOf (iFB w)) acc, 5),
   (r.any fun r => r.k != k || r.n != o.vcols, 6), (o.vrows != m, 6), (decide (m > tileRows (faceCols face) acc), 6),
   (r.isNone, 3), (r.any fun r => r.fmt != fmtOf (iFB w), 5), (r.any fun r => !comboOk f r.face acc, 5),
   (match g with | some g => iDA w != 0 || g.fa != iFA w | none => false, 5),
   (r.any fun r => r.ahold != (iMode w).testBit 2, 3)] ++
  chainChecks s c bays first none m o.vcols (faceCols face) k acc ++ ruseChecks s c o

/-- SEED (R175). -/
def chkSeed (s : State) (c : Ctx) (q : QSel) (w : Inst) : List (Bool × Nat) :=
  let d := descAt s c (iDA w)
  let f := fmtOf (iFA w)
  let face := fmtOf (iFB w)
  let acc := fmtOf (iFO w)
  let bays := namedBays s c w
  descChecks f {} d ++ rangeChecks s c false (viewAux f d) ++ fmtFeats s c w ++ fctlChecks f false false d ++
  [(!rowOk face acc || !seedOk acc f, 5),
   (decide (d.vrows > tileRows (faceCols face) acc), 6),
   ((s.qu c q).geo.isSome || (openChain s c bays).isSome, 3)]

/-- The bays of a chain as they stand: those granted to its first operation, or those it would be granted now (R224, R229). -/
def Chain.now (s : State) (k : Chain) : BitVec 4 :=
  if k.held != 0 then k.held
  else match s.ops.find? fun p => p.ctx == k.ctx && p.first && p.chain == k.id with
    | some p => aim s p
    | none => k.bays

/-- A chain that a waiting DRAIN takes in whatever bays a failover has given it (R229). -/
def promised (s : State) (c : Ctx) (id : Nat) : Bool :=
  s.ops.any fun p => p.ctx == c && opClass p.opc == some .d && p.stage == .waiting && p.bayField == 0 && p.named != s.curSet c &&
    p.takes.any (·.2 == id)

/-- The oldest chain of a context in a bay that no DRAIN has taken there, of its COMPLETE banks and of its chains whose LAST pass has
not completed, whose bays are `bays` (R40, R45). -/
def oldestIn (s : State) (c : Ctx) (b : Bay) (bays : Chain → BitVec 4) : Option Nat :=
  let x := s.by b
  let done := ([x.bank0, x.bank1].filter fun k => k.st == .complete && k.ctx == c && !k.taken).map (·.chain)
  let run := ((s.cx c).chains.filter fun k => (bays k).getLsb b && !k.taken.getLsb b).map (·.id)
  ((done ++ run).filter fun id => !promised s c id).min?

/-- The chain whose bank a DRAIN takes in a bay at its dispatch: a chain's bays are those its first operation names (R40, R45). -/
def drainChain (s : State) (c : Ctx) (b : Bay) : Option Nat := oldestIn s c b (·.bays)

/-- What a DRAIN takes in the bays of a set (log entry 15). -/
def takesIn (s : State) (c : Ctx) (set : BitVec 4) : List (Bay × Option Nat) :=
  (maskBays set).map fun b => (b, drainChain s c b)

/-- What a DRAIN takes at dispatch. -/
def drainTakes (s : State) (c : Ctx) (w : Inst) : List (Bay × Option Nat) := takesIn s c (namedBays s c w)

/-- DRAIN, the checks that do not depend on the bank (R45, R111, R176). -/
def chkDrain (s : State) (c : Ctx) (w : Inst) : List (Bool × Nat) :=
  let d := descAt s c (iDO w)
  let f := fmtOf (iFO w)
  descChecks f { out := true, forms := [0, 2] } d ++ (if f.isGf then tileAlign d else []) ++
  rangeChecks s c true (drainRanges f d) ++ fmtFeats s c w ++ formFeats s c [d] ++
  fctlChecks f true false d ++
  [(sform d == 2 && (!sparseFmt f || fctlXmode d.fctl != 0), 5), (f == .ue8 || f == .se43, 5)] ++
  slotChecks s c d ++
  [((drainTakes s c w).any fun x => x.2.isNone, 3)]

/-- The tile rows and columns of a FOLD in the bays it names: M and the columns of its face (R128). DESIGN CHOICE (log entry 52): these
are the M and N that R41 compares in a chain, so FOLDs whose n differ behind their face are one chain, and the last one's n stands in the
folded mark (R131, R132). -/
def foldDims (n j cpb nb : Nat) : Nat × Nat :=
  let nf := cpb * nb
  (min n (j * nf + nf), min n (j * nf + nf) - j * nf)

/-- FOLD (R127, R128, R131). -/
def chkFold (s : State) (c : Ctx) (q : QSel) (w : Inst) : List (Bool × Nat) :=
  let d := descAt s c (iDA w)
  let o := descAt s c (iDO w)
  let f := fmtOf (iFA w)
  let acc := fmtOf (iFO w)
  let bays := namedBays s c w
  let (m, n) := foldDims d.vrows (iImm w) (faceCols f) (maskBays bays).length
  descChecks f { forms := [0, 2] } d ++ coordChecks { out := true } false o ++ alignChecks f d d.vcol0 d.vrow0 ++
  rangeChecks s c false (streamRanges f d) ++ fmtFeats s c w ++ formFeats s c [d] ++ [needFeat s c true 6] ++
  fctlChecks f false false d ++ noExpand o ++
  [(sform d == 2, 5), (iFB w != iFA w || !rowOk f acc, 5),
   (o.vrows != d.vrows || o.vcols != d.vrows, 6), (decide (d.vcols > faceK f false), 6),
   ((s.qu c q).geo.isSome, 3)] ++
  chainChecks s c bays ((iMode w).testBit 0) (some (iImm w)) m n (faceCols f) d.vcols acc

/-- ROUGH (R121). -/
def chkRough (s : State) (c : Ctx) (q : QSel) (w : Inst) : List (Bool × Nat) :=
  let a := descAt s c (iDA w)
  let b := descAt s c (iDB w)
  let o := descAt s c (iDO w)
  let tau := decodeFmt .bf16 (iImm w)
  descChecks .gf4 { forms := [0, 2] } a ++ descChecks .gf4 { forms := [0, 2] } b ++ coordChecks { out := true } false o ++
  alignChecks .gf4 a a.vcol0 a.vrow0 ++ alignChecks .gf4 b b.vrow0 b.vcol0 ++
  [(o.vrow0 % 2 != 0 || o.vcol0 % 32 != 0 || !tau.isFin || tau.isZero || tau.neg || !Val.ltFin tau (.fin false 1 0), 3)] ++
  rangeChecks s c false (streamRanges .gf4 a ++ heldRanges .gf4 b false) ++ fmtFeats s c w ++ formFeats s c [a, b] ++
  [needFeat s c true 4] ++ fctlChecks .gf4 false false a ++ fctlChecks .gf4 false true b ++ noExpand o ++
  [(iFA w != 9 || iFB w != 9 || sform a == 2 || sform b == 2, 5),
   (a.vcols != b.vrows || o.vrows != a.vrows || o.vcols != b.vcols || decide (o.vrows > 8192) || decide (o.vcols > 8192), 6),
   ((s.qu c q).geo.isSome, 3)]

/-! ### Vector, sparse, exchange and memory instructions -/

/-- Ports of an operation that touches a window need a bay in the current set (R224). -/
def portChecks (s : State) (c : Ctx) (rs : List Range) : List (Bool × Nat) :=
  [(rs.any (·.win) && s.curSet c == 0, 3)]

/-- MASK (R101, R104). The checked mask has the shape of the source (log entry 27). A DO in staging outside the partition
faults WINDOW_VIOLATION under R197, where R104 might be read as DESC_INVALID (DESIGN CHOICE, log entry 51). -/
def chkMask (s : State) (c : Ctx) (w : Inst) : List (Bool × Nat) :=
  let a := descAt s c (iDA w)
  let o := descAt s c (iDO w)
  let lim (v : Nat) : Bool := v % 4 != 0 || decide (v < 4) || decide (v > 65536)
  portChecks s c [viewSpan .int4 a] ++ descChecks .int4 {} a ++ plainChecks .int4 { out := true } o ++ [(o.loc, 3)] ++
  rangeChecks s c false (viewAux .int4 a) ++ rangeChecks s c true [viewSpan .int4 o] ++ [needFeat s c true 2] ++
  fctlChecks .int4 false false a ++ plainFctl o ++
  [(lim (4 * a.vrows) || lim a.vcols || o.vrows != a.vrows || o.vcols != a.vcols, 6)]

/-- CSR (R65, R112, R177). -/
def chkCsr (s : State) (c : Ctx) (w : Inst) : List (Bool × Nat) :=
  let a := descAt s c (iDA w)
  let o := descAt s c (iDO w)
  let f := fmtOf (iFA w)
  portChecks s c (viewSpan f a :: csrRanges f o) ++ descChecks f {} a ++ descChecks f { out := true, forms := [1] } o ++
  rangeChecks s c false (viewAux f a) ++ rangeChecks s c true (csrRanges f o) ++ fmtFeats s c w ++ [needFeat s c true 3] ++
  fctlChecks f true false o ++ [(iFO w != iFA w || !csrFmt f || a.fctl != 0 || fctlSmode o.fctl != 0, 5),
   (o.vrows != a.vrows || o.vcols != a.vcols, 6)]

/-- BLEND (R134). -/
def chkBlend (s : State) (c : Ctx) (w : Inst) : List (Bool × Nat) :=
  let a := descAt s c (iDA w)
  let b := descAt s c (iDB w)
  let o := descAt s c (iDO w)
  let f := fmtOf (iFA w)
  let bad (x y : Desc) : Bool := (viewSpan f x).hits (viewSpan f y) && !sameView f x y
  portChecks s c [viewSpan f a, viewSpan f b, viewSpan f o] ++
  descChecks f {} a ++ descChecks f {} b ++ descChecks f { out := true } o ++ [(bad a b || bad a o || bad b o, 3)] ++
  rangeChecks s c false (viewAux f a ++ viewAux f b) ++ rangeChecks s c true (viewAux f o) ++ fmtFeats s c w ++
  fctlChecks f false false a ++ fctlChecks f false false b ++ fctlChecks f true false o ++
  [(iFB w != iFA w || iFO w != iFA w || !(f == .fp32 || f == .fp64), 5),
   (b.vrows != a.vrows || b.vcols != a.vcols || o.vrows != a.vrows || o.vcols != a.vcols, 6)]

def reduceParts (w : Inst) : Nat := 2 ^ (iImm w % 4 + 1)

/-- REDUCE (R178). -/
def chkReduce (s : State) (c : Ctx) (w : Inst) : List (Bool × Nat) :=
  let a := descAt s c (iDA w)
  let o := descAt s c (iDO w)
  let f := fmtOf (iFA w)
  let n := reduceParts w
  let parts := (List.range n).map (batchView a)
  portChecks s c [viewSpan f a, viewSpan f o] ++ [(iImm w == 3, 3)] ++
  descChecks f { batch := true } a ++ descChecks f { out := true } o ++
  [(a.bstride == 0 || (parts.zipIdx.any fun x => (viewSpan f x.1).hits (viewSpan f o) &&
      !(x.2 == 0 && sameView f { a with bstride := 0 } o)), 3)] ++
  rangeChecks s c false [viewSpan f a n] ++ rangeChecks s c true (viewAux f o) ++ fmtFeats s c w ++
  fctlChecks f false false a ++ fctlChecks f true false o ++
  [(iFO w != iFA w || !(f == .fp32 || f == .fp32x2 || f == .fp64 || f == .int32), 5),
   (o.vrows != a.vrows || o.vcols != a.vcols, 6)]

/-- TOPK (R98, R179). -/
def chkTopk (s : State) (c : Ctx) (w : Inst) : List (Bool × Nat) :=
  let a := descAt s c (iDA w)
  let o := descAt s c (iDO w)
  let x := descAt s c (iDX w)
  let f := fmtOf (iFA w)
  let k := iImm w
  portChecks s c [viewSpan f a, viewSpan f o, viewSpan .int32 x] ++
  descChecks f {} a ++ descChecks f { out := true } o ++ descChecks .int32 { out := true } x ++
  rangeChecks s c false (viewAux f a) ++ rangeChecks s c true (viewAux f o ++ [viewSpan .int32 x]) ++ fmtFeats s c w ++
  [needFeat s c true 7] ++ fctlChecks f false false a ++ fctlChecks f true false o ++ fctlChecks .int32 true false x ++
  [(iFO w != iFA w || !(half f || f == .fp32 || f == .int32), 5),
   (k == 0 || decide (k > 64) || o.vrows != a.vrows || o.vcols != k || x.vrows != a.vrows || x.vcols != k, 6)]

/-- NORM (R136). -/
def chkNorm (s : State) (c : Ctx) (w : Inst) : List (Bool × Nat) :=
  let a := descAt s c (iDA w)
  let o := descAt s c (iDO w)
  let f := fmtOf (iFA w)
  portChecks s c [viewSpan f a, viewSpan .fp64 o] ++ [(iImm w == 3, 3)] ++ descChecks f {} a ++
  descChecks .fp64 { out := true } o ++
  rangeChecks s c false (viewAux f a) ++ rangeChecks s c true [viewSpan .fp64 o] ++ fmtFeats s c w ++
  fctlChecks f false false a ++ fctlChecks .fp64 true false o ++
  [(iFO w != 0 || !(half f || f == .fp32 || f == .fp32x2 || f == .fp64), 5),
   ((iImm w == 1 && a.vrows != a.vcols) || o.vrows != 1 || o.vcols != 1, 6)]

/-- Fields of ROOT (R137). -/
def rootP (w : Inst) : Nat := 2 ^ (iImm w % 4)
def rootCap (w : Inst) : Nat := if bitField (iImm w) 2 6 == 0 then 40 else bitField (iImm w) 2 6
def rootTol (w : Inst) : Nat := if bitField (iImm w) 8 6 == 0 then 20 else bitField (iImm w) 8 6
def rootEps (w : Inst) : Val := decodeFmt .fp32 (iImm48 w % 2 ^ 32)
def rootCnt (w : Inst) : Nat := bitField (iImm48 w) 32 6 + 1

/-- The working set of a ROOT: 16·n² bytes at the start of DB. -/
def rootWork (n : Nat) (b : Desc) : Range := ⟨b.loc, (viewSpan .fp32 b).lo, 16 * n * n⟩

/-- ROOT (R137, R138). Overlap and range are those of DB's whole view (R156, R322). DX is a view of status bytes: one row of at least 16,
else SHAPE_LIMIT, and record t lies `t·BSTRIDE` behind its first byte (DESIGN CHOICE, log entry 51). DESIGN CHOICE (log entry 52): for HEAD
and STRICT of R65 DB counts as an input, and a DB whose LOC does not match WS faults DESC_INVALID. -/
def chkRoot (s : State) (c : Ctx) (w : Inst) : List (Bool × Nat) :=
  let a := descAt s c (iDA w)
  let b := descAt s c (iDB w)
  let o := descAt s c (iDO w)
  let x := descAt s c (iDX w)
  let n := a.vrows
  let cnt := rootCnt w
  let ws := (iImm w).testBit 14
  let e := rootEps w
  let wk := viewSpan .fp32 b
  let dx := byteSpan x
  let xs : Range := { dx with len := dx.len + (cnt - 1) * x.bstride }
  let sa := viewSpan .fp32 a cnt
  let so := viewSpan .fp32 o cnt
  let tab : Range := ⟨false, (s.cx c).descBase.toNat, 16384⟩
  [(s.curSet c == 0, 3),
   (iImm w % 4 == 3 || decide (bitField (iImm w) 8 6 > 40) || !e.isFin || (e.neg && !e.isZero), 3)] ++
  descChecks .fp32 { batch := true } a ++ descChecks .fp32 {} b ++ descChecks .fp32 { out := true, batch := true } o ++
  plainChecks .int8 { out := true, batch := true } x ++
  [(b.loc != ws || wk.hits so || wk.hits xs || wk.hits sa || so.hits xs || so.hits sa || xs.hits sa || (!ws && wk.hits tab), 3),
   (ws && (match windowOf s c true wk with | some v => v.tier == 1 | none => false), 3)] ++
  rangeChecks s c false [sa] ++ rangeChecks s c true [wk, so, xs] ++ fmtFeats s c w ++ [needFeat s c true 5] ++
  fctlChecks .fp32 false false a ++ fctlChecks .fp32 false false b ++ fctlChecks .fp32 true false o ++ plainFctl x ++
  [(iFA w != 1 || iFO w != 1, 5),
   (a.vcols != n || o.vrows != n || o.vcols != n || x.vrows != 1 || decide (x.vcols < 16) ||
      decide (n > (if ws then 8192 else 2048)) || (decide (cnt > 1) && decide (n > 512)) || decide (b.vrows * b.vcols < 4 * n * n), 6)]

/-- Whether a COPY converts (R180). -/
def copyConverts (w : Inst) : Bool := iFA w != iFO w

/-- Scale bytes of the blocks that a view touches (R66). -/
def scaleCount (d : Desc) : Nat :=
  let (ke, xe) := blkExtent d.fctl
  let blocks (p n e : Nat) : Nat := (p + n - 1) / e - p / e + 1
  blocks d.vcol0 d.vcols ke * blocks d.vrow0 d.vrows xe

/-- COPY (R180); as a lock member the bytes it writes must fit the store buffer (R162). -/
def chkCopy (s : State) (c : Ctx) (q : QSel) (w : Inst) : List (Bool × Nat) :=
  let a := descAt s c (iDA w)
  let o := descAt s c (iDO w)
  let f := fmtOf (iFA w)
  let g := fmtOf (iFO w)
  let tr := (iMode w).testBit 0
  let (r, k) := if tr then (a.vcols, a.vrows) else (a.vrows, a.vcols)
  let out := viewRanges g o true
  let aux := if copyConverts w then auxRanges g o o.tcols o.trows else []
  portChecks s c (viewSpan f a :: viewSpan g o :: aux) ++
  descChecks f {} a ++ descChecks g { out := true } o ++
  [((viewSpan f a).hits (viewSpan g o), 3),
   (copyConverts w && g.isGf && fctlSmode o.fctl != 0 &&
      (let (ke, xe) := blkExtent o.fctl; o.vcol0 % ke != 0 || o.vrow0 % xe != 0), 3)] ++
  rangeChecks s c false (viewAux f a) ++ rangeChecks s c true (viewAux g o) ++ fmtFeats s c w ++
  fctlChecks f false false a ++ fctlChecks g true false o ++
  [(copyConverts w && !((f == .fp64 || f == .fp32 || f == .fp32x2 || f == .int32) && drainOk f g), 5),
   (tr && !(f.width ≥ 16 && g.width ≥ 16), 5),
   (o.vrows != r || o.vcols != k, 6),
   (inWindow s c q && (match (s.cx c).lockWin with
      | some l => decide (l.share + (out.map (·.len)).sum +
          (if copyConverts w && g.isGf && fctlSmode o.fctl != 0 then scaleCount o else 0) > 4096)
      | none => false), 3)]

/-- SCALE (R181). -/
def chkScale (s : State) (c : Ctx) (w : Inst) : List (Bool × Nat) :=
  let a := descAt s c (iDA w)
  let o := descAt s c (iDO w)
  let f := fmtOf (iFA w)
  let g := fmtOf (iFO w)
  let aux := auxRanges g o o.tcols o.trows
  portChecks s c (viewSpan f a :: viewSpan g o :: aux) ++
  descChecks f {} a ++ descChecks g { out := true } o ++
  [(g.isGf && fctlSmode o.fctl != 0 && (let (ke, xe) := blkExtent o.fctl; o.vcol0 % ke != 0 || o.vrow0 % xe != 0), 3)] ++
  rangeChecks s c false (viewAux f a) ++ rangeChecks s c true (viewSpan g o :: aux) ++ fmtFeats s c w ++
  fctlChecks f false false a ++ fctlChecks g true false o ++
  [(!(f == .fp32 || f == .bf16) || !g.isGf || fctlSmode o.fctl == 0, 5), (o.vrows != a.vrows || o.vcols != a.vcols, 6)]

/-- A peer table entry (R209). -/
structure Peer where
  valid : Bool
  tmask : BitVec 8
  rctx  : BitVec 4
  dest  : Word
  deriving DecidableEq, Repr

def peerEntry (s : State) (i : Nat) : Peer :=
  let l := s.staging.readN (s.g.peerBase.toNat + 16 * i) 16
  ⟨(recField l 0 1).testBit 0, BitVec.ofNat 8 (recField l 1 1), BitVec.ofNat 4 (recField l 2 1), BitVec.ofNat 32 (recField l 4 4)⟩

/-- R182, R209: a peer index with no entry for the context. -/
def peerMissing (s : State) (c : Ctx) (i : Nat) : Bool :=
  let p := peerEntry s i
  decide (i ≥ s.g.peerCount.toNat) || !p.valid || (c != tm && !p.tmask.getLsbD c.val)

/-- Bytes of a view in view order: rows packed as in R298. -/
def viewLen (f : Fmt) (d : Desc) : Nat := d.vrows * rowBytes f d.vcols

/-- SEND (R182, R210). -/
def chkSend (s : State) (c : Ctx) (w : Inst) : List (Bool × Nat) :=
  let a := descAt s c (iDA w)
  let f := fmtOf (iFA w)
  portChecks s c [viewSpan f a] ++ descChecks f {} a ++ rangeChecks s c false (viewAux f a) ++ fmtFeats s c w ++
  [needFeat s c true 8] ++ fctlChecks f false false a ++ [(decide (viewLen f a ≥ 2 ^ 32), 6)]

/-- RECV (R182). -/
def chkRecv (s : State) (c : Ctx) (w : Inst) : List (Bool × Nat) :=
  let o := descAt s c (iDO w)
  let f := fmtOf (iFO w)
  portChecks s c [viewSpan f o] ++ descChecks f { out := true } o ++ rangeChecks s c true (viewAux f o) ++ fmtFeats s c w ++
  [needFeat s c true 8] ++ fctlChecks f true false o ++ [(iFO w != iFA w, 5)]

/-- ATOMADD (R183); as a lock member 4 B per addend must fit the store buffer (R162). -/
def chkAtomAdd (s : State) (c : Ctx) (q : QSel) (w : Inst) : List (Bool × Nat) :=
  let a := descAt s c (iDA w)
  let o := descAt s c (iDO w)
  portChecks s c [viewSpan .fp32 a, viewSpan .fp32 o] ++
  descChecks .fp32 {} a ++ descChecks .fp32 { out := true } o ++ [(!o.loc, 3)] ++
  rangeChecks s c false [viewSpan .fp32 a] ++ rangeChecks s c true [viewSpan .fp32 o] ++ fmtFeats s c w ++ [needFeat s c true 9] ++
  fctlChecks .fp32 false false a ++ fctlChecks .fp32 true false o ++
  [(iFA w != 1 || iFO w != 1, 5), (o.vrows != a.vrows || o.vcols != a.vcols, 6),
   (inWindow s c q && (match (s.cx c).lockWin with
      | some l => decide (l.share + 4 * a.vrows * a.vcols > 4096)
      | none => false), 3)]

/-! ### Control instructions -/

/-- The share check of a small lock member (R162). -/
def shareChecks (s : State) (c : Ctx) (q : QSel) (n : Nat) : List (Bool × Nat) :=
  [(inWindow s c q && (match (s.cx c).lockWin with
      | some l => decide (l.share + n > 4096)
      | none => false), 3)]

/-- SIGNAL (R160, R321). -/
def chkSignal (s : State) (c : Ctx) (q : QSel) (w : Inst) : List (Bool × Nat) :=
  if (iImm w).testBit 14 then
    let x := descAt s c (iDX w)
    portChecks s c [byteRange 4 x] ++ byteViewChecks 4 x ++ rangeChecks s c true [byteRange 4 x] ++ shareChecks s c q 8
  else shareChecks s c q 4

def loopBody (w : Inst) : Nat := iImm w
def loopCount (w : Inst) : Nat := iImm48 w % 2 ^ 16
def loopStep (w : Inst) : Nat := bitField (iImm48 w) 16 8
def loopSmask (w : Inst) : BitVec 4 := BitVec.ofNat 4 (bitField (iImm48 w) 24 4)

/-- The last `n` instructions dispatched from a queue, oldest first (R184). -/
def lastInsts (x : Queue) (n : Nat) : List Inst := (x.history.take n).reverse

/-- LOOP (R184, R186); `history` ends at the previous END. -/
def chkLoop (s : State) (c : Ctx) (q : QSel) (w : Inst) : List (Bool × Nat) :=
  let x := s.qu c q
  let b := loopBody w
  [(b == 0 || decide (b > 64) || decide (loopCount w < 2), 3),
   (decide (b > x.history.length) ||
      (x.history.take b).any (fun v => iOpc v == 0x1B || iOpc v == 0x1C || iOpc v == 0x1D || iOpc v == 0x3F || iLck v), 3)]

def memberOpc (opc : Nat) : Bool := opc == 0x10 || opc == 0x13 || opc == 0x19 || opc == 0x20 || opc == 0x23

/-- A queue entry fetched ahead, by index. -/
def fetchedAt (x : Queue) (i : Nat) : Option Inst := (x.fetched.find? (·.1 == i)).map (·.2)

def Queue.entries (x : Queue) : Nat := 2 ^ x.size.toNat

def Queue.indexAfter (x : Queue) (k : Nat) : Nat := (x.head.toNat + k) % x.entries

/-- Entries from head to tail. -/
def Queue.count (x : Queue) : Nat := (x.tail.toNat + x.entries - x.head.toNat) % x.entries

def lockMembers (w : Inst) : Nat := iImm w % 64 + 1

/-- The window behind a LOCK at the head: its members and UNLOCK, when all are fetched (R162). -/
def lockEntries (x : Queue) (w : Inst) : Option (List Inst) :=
  ((List.range (lockMembers w + 1)).map fun k => fetchedAt x (x.indexAfter (k + 1))).allSome
where
  List.allSome (l : List (Option Inst)) : Option (List Inst) :=
    l.foldr (fun a b => match a, b with | some a, some b => some (a :: b) | _, _ => none) (some [])

/-- LOCK: the pattern of its window (R162). -/
def chkLock (s : State) (c : Ctx) (q : QSel) (w : Inst) : List (Bool × Nat) :=
  match lockEntries (s.qu c q) w with
  | none => []
  | some l =>
    let n := lockMembers w
    [((l.take n).any (fun v => !iLck v || !memberOpc (iOpc v)) ||
       (match l[n]? with | some v => iOpc v != 0x1D || iLck v | none => true), 3)]

/-- UNLOCK outside its window breaks the pattern. -/
def chkUnlock (s : State) (c : Ctx) (q : QSel) : List (Bool × Nat) :=
  match (s.cx c).lockWin with
  | some l => [(l.q != q || l.left != 0, 3)]
  | none => [(true, 3)]

/-- WATCH (R189, R299). -/
def chkWatch (s : State) (c : Ctx) (w : Inst) : List (Bool × Nat) :=
  let m := iMode w
  let o := descAt s c (iDO w)
  let a := descAt s c (iDA w)
  let imm := m.testBit 2
  portChecks s c ((if imm then [byteSpan a] else []) ++ [byteSpan o]) ++ [(m == 0 || (imm && m != 4), 3)] ++
  byteViewChecks 32 o ++ (if imm then descChecks .int8 {} a else []) ++
  rangeChecks s c true [byteSpan o] ++ (if imm then rangeChecks s c false [byteSpan a] else []) ++ [needFeat s c true 11] ++
  (if imm then fctlChecks .int8 false false a else [])

/-- FLAGS (R190, R321). -/
def chkFlags (s : State) (c : Ctx) (q : QSel) (w : Inst) : List (Bool × Nat) :=
  if (iMode w).testBit 0 then
    let o := descAt s c (iDO w)
    portChecks s c [byteRange 16 o] ++ byteViewChecks 16 o ++ rangeChecks s c true [byteRange 16 o] ++ shareChecks s c q 16
  else []

/-- The descriptor indices an instruction reads. -/
def descIdx (w : Inst) (geo : Bool) : List Nat :=
  let u := useOfInst w
  (if u.da && !(geo && iOpc w == 0x03) then [iDA w] else []) ++ (if u.db then [iDB w] else []) ++ (if u.dO then [iDO w] else []) ++
    (if u.dx then [iDX w] else [])

/-- The staging ranges of the descriptors it reads. -/
def descReads (s : State) (c : Ctx) (w : Inst) (geo : Bool) : List Range :=
  (descIdx w geo).map fun i => ⟨false, (s.cx c).descBase.toNat + 64 * i, 64⟩

/-- Steps 4 to 9 by opcode. -/
def bodyChecks (s : State) (c : Ctx) (q : QSel) (w : Inst) : List (Bool × Nat) :=
  match iOpc w with
  | 0x01 => chkRaise s c w
  | 0x02 => chkGather s c w
  | 0x03 => chkPass s c q w
  | 0x04 => chkSeed s c q w
  | 0x05 => chkDrain s c w
  | 0x06 => chkFold s c q w
  | 0x07 => chkBlend s c w
  | 0x08 => chkReduce s c w
  | 0x09 => chkTopk s c w
  | 0x0A => chkNorm s c w
  | 0x0B => chkRoot s c w
  | 0x0C => chkRough s c q w
  | 0x0D => chkMask s c w
  | 0x0E => chkCsr s c w
  | 0x10 => chkCopy s c q w
  | 0x11 => chkSend s c w
  | 0x12 => chkRecv s c w
  | 0x13 => chkAtomAdd s c q w
  | 0x19 => chkSignal s c q w
  | 0x1B => chkLoop s c q w
  | 0x1C => chkLock s c q w
  | 0x1D => chkUnlock s c q
  | 0x21 => chkWatch s c w
  | 0x23 => chkFlags s c q w
  | 0x24 => chkScale s c w
  | _ => []

/-- The peer table entry that SEND and RECV read: it faults when it is poisoned or names no peer (R182, R209, R257). -/
def peerCheck (s : State) (c : Ctx) (w : Inst) : Option (Nat × Nat) :=
  if iOpc w != 0x11 && iOpc w != 0x12 then none
  else
    match (if iImm w < s.g.peerCount.toNat then poisonedIn s [⟨false, s.g.peerBase.toNat + 16 * iImm w, 16⟩] else none) with
    | some r => some (0x10, r)
    | none => if peerMissing s c (iImm w) then some (3, 0) else none

/-- The first failed check of R167, with the position for a poisoned descriptor (R257). DESIGN CHOICE (log entry 52): a missing peer
entry (R182) is found after every other check. -/
def checkInst (s : State) (c : Ctx) (q : QSel) (w : Inst) : Option (Nat × Nat) :=
  if (opClass (iOpc w)).isNone then some (0x01, 0)
  else if iOpc w == 0x22 && c != tm then some (0x08, 0)
  else
    match firstFault (fieldChecks s c q w) with
    | some f => some (f, 0)
    | none =>
      match poisonedIn s (descReads s c w (s.qu c q).geo.isSome) with
      | some r => some (0x10, r)
      | none =>
        match firstFault (bodyChecks s c q w) with
        | some f => some (f, 0)
        | none => peerCheck s c w

/-! ### Holds at dispatch -/

/-- Whether a queue has an operation in flight; armed digests are not waited for by END (R193, log entry 28). -/
def queueBusy (s : State) (c : Ctx) (q : QSel) (armed : Bool) : Bool :=
  s.ops.any fun o => o.ctx == c && o.q == q && (armed || o.stage != .armed)

/-- The mask slots a dispatched operation names (R105). -/
def opSlots (o : Op) : List (Fin 8) :=
  (if o.opc == 0x01 && sform o.db == 2 then [mslot o.db] else []) ++
  (if o.opc == 0x05 && sform o.dO == 2 then [mslot o.dO] else []) ++
  (if o.opc == 0x0D then [⟨iImm o.word % 8, Nat.mod_lt _ (by decide)⟩] else []) ++
  (if o.opc == 0x03 then (match o.rr with | some r => if sform r.db == 2 then [mslot r.db] else [] | none => []) else [])

/-- R105: a MASK waits for the uses of its slot; a use waits for a MASK of it. -/
def slotHeld (s : State) (c : Ctx) (w : Inst) : Bool :=
  let mine := s.ops.filter (·.ctx == c)
  if iOpc w == 0x0D then mine.any fun o => (opSlots o).any fun i => i.val == iImm w % 8
  else
    let ds := (if iOpc w == 0x01 then [descAt s c (iDB w)] else []) ++ (if iOpc w == 0x05 then [descAt s c (iDO w)] else [])
    ds.any fun d => sform d == 2 && mine.any fun o => o.opc == 0x0D && iImm o.word % 8 == (mslot d).val

/-- R123: a ROUGH waits for earlier PASSes with RUSE = 1, and these wait for an earlier ROUGH. -/
def roughHeld (s : State) (c : Ctx) (w : Inst) : Bool :=
  let mine := s.ops.filter (·.ctx == c)
  if iOpc w == 0x0C then mine.any fun o => o.opc == 0x0C || (o.opc == 0x03 && ruse o.dO)
  else iOpc w == 0x03 && ruse (descAt s c (iDO w)) && mine.any fun o => o.opc == 0x0C

/-- R19, R157: a ROOT that waits, and an operation that writes the descriptor table, hold their whole context. -/
def ctxHeld (s : State) (c : Ctx) : Bool :=
  s.ops.any fun o => o.ctx == c && ((o.opc == 0x0B && o.stage == .waiting) || o.locksDt)

/-- Whether the value of a semaphore satisfies a WAIT (R160). -/
def waitMet (sem v : Word) : Bool := !(sem - v).msb

/-- A SEQ value of a context that an operation or a LOOP still uses (R13). -/
def seqInUse (s : State) (c : Ctx) (seq : BitVec 8) : Bool :=
  portOwes s (.op c seq) || s.ops.any (·.is c seq) || (s.cx c).qm.loop.any (·.seq == seq) || (s.cx c).qp.loop.any (·.seq == seq)

/-- What a FENCE waits for: the operations of its queue, and with IMM16[0] those of the other one and its LOOP (R159). -/
def fenceScope (s : State) (c : Ctx) (q : QSel) (w : Inst) : List (BitVec 8) :=
  let other := match q with | .main => QSel.prio | .prio => QSel.main
  (s.ops.filter fun o => o.ctx == c && (o.q == q || (iImm w).testBit 0)).map (·.seq) ++
    (if (iImm w).testBit 0 then ((s.qu c other).loop.map (·.seq)).toList else [])

/-- A class C instruction that needs a fabric port finds no bay of its set left (R224). -/
def noPort (s : State) (c : Ctx) (w : Inst) : Bool :=
  let posts : BufItem → Bool
    | .bytes l _ _ _ => l.any (·.1)
    | .sem _ _ p => p.any (·.1)
    | .atoms _ _ _ => true
    | .clear _ => false
  (s.portBays c).isEmpty && match iOpc w with
    | 0x19 => (iImm w).testBit 14 && (descAt s c (iDX w)).loc
    | 0x23 => (iMode w).testBit 0 && (descAt s c (iDO w)).loc
    | 0x13 => true
    | 0x1D => (s.cx c).lockWin.any fun l => l.buf.any posts
    | _ => false

/-- Ends of holds that are the opcode's own (R159, R160, R162, R190, R193, R224). -/
def ownHold (s : State) (c : Ctx) (q : QSel) (w : Inst) : Bool :=
  let x := s.qu c q
  noPort s c w || match iOpc w with
  | 0x18 => !waitMet ((s.cx c).sem.get ⟨iImm w % 16, Nat.mod_lt _ (by decide)⟩) (BitVec.ofNat 32 (iImm48 w))
  | 0x19 | 0x23 => queueBusy s c q true
  | 0x3F => queueBusy s c q false
  | 0x1A => match x.fence with
    | some l => l.any (seqInUse s c)
    | none => !(fenceScope s c q w).isEmpty
  | 0x1C => queueBusy s c q true || (lockEntries x w).isNone || (s.cx c).lockWin.isSome
  | 0x1D => queueBusy s c q true
  | _ => false

/-- The peer table entry that a SEND or RECV reads (R209). -/
def peerRange (s : State) (w : Inst) : Range := ⟨false, s.g.peerBase.toNat + 16 * iImm w, 16⟩

/-- The descriptor table of a context (R155). -/
def tableRange (s : State) (c : Ctx) : Range := ⟨false, (s.cx c).descBase.toNat, 16384⟩

/-- Whether the command processor waits to store the records of an instruction with FLG.TRC (R291). -/
def traceHeld (s : State) (c : Ctx) (w : Inst) : Bool :=
  iTrc w && (s.trace.rings.get (traceRing s (ctxCode c))).en && bufWaits s none

/-- Holds that come before the checks. -/
def preHold (s : State) (c : Ctx) (q : QSel) (w : Inst) : Bool :=
  (let u := useOfInst w; (u.da || u.db || u.dO || u.dx) && (scrubHolds s [tableRange s c] || commitHolds s c [tableRange s c])) ||
  ((iOpc w == 0x11 || iOpc w == 0x12) && (scrubHolds s [peerRange s w] || commitHolds s c [peerRange s w])) ||
  (iOrd w && (match (s.qu c q).prev with | some p => (s.op? c p).isSome | none => false)) ||
  slotHeld s c w || roughHeld s c w || traceHeld s c w || (inWindow s c q && queueBusy s c q true) ||
  (iOpc w == 0x1C && (lockEntries (s.qu c q) w).isNone)

end Sys2Proof.Machine
end

