-- ==== Sys2Proof/Machine/Root.lean ====
section
/-! DEFINITION. The passes that one operation runs by itself (ROUGH and the lehr's products), and the computation of ROOT: setup, iteration,
control and times (R122, R139 to R145). -/

namespace Sys2Proof.Machine

open Sys2Proof

/-! ### Inner passes (R122, R144, R259 to R264) -/

/-- Corrupt values of an operation's inner passes: slab, row, column and mask. -/
abbrev Patch := List (Nat × Nat × Nat × BitVec 64)

/-- The passes of a ROUGH or of a product of the lehr: the streamed rows and held columns over the whole K, in slabs of `kf`, for every
face of `cpb` columns in each of `nb` bays. -/
structure Inner where
  acc  : Fmt
  face : Fmt
  rows : List (List Val)
  cols : List (List Val)
  k    : Nat
  kf   : Nat
  cpb  : Nat
  nb   : Nat
  rate : Nat
  deriving DecidableEq, Repr

def Inner.slabs (x : Inner) : Nat := ceilDiv' x.k x.kf

def Inner.passes (x : Inner) : Nat := x.slabs * ceilDiv' x.cols.length (x.cpb * max 1 x.nb)

/-- Row slots of each pass. -/
def Inner.slots (x : Inner) : Nat := ceilDiv' x.rows.length x.rate

/-- The columns of pass `p` in the bay of rank `r` (R27). -/
def Inner.colsOf (x : Inner) (p r : Nat) : List Nat :=
  let c := p / max 1 x.slabs * (x.cpb * max 1 x.nb) + r * x.cpb
  ((List.range x.cpb).map (c + ·)).filter fun j => decide (j < x.cols.length)

def slabOf (kf t : Nat) (l : List Val) : List Val := (l.drop (t * kf)).take kf

def rowAt (l : List (List Val)) (i : Nat) : List Val := (l[i]?).getD []

/-- The accumulator of a row and a column after slab `t`, with the corrupt values among its results. -/
def Inner.accAt (x : Inner) (patch : Patch) (t i j : Nat) : AccV :=
  (List.range (t + 1)).foldl (fun a u =>
    let a := (dotFrom x.acc 0 a (slabOf x.kf u (rowAt x.rows i)) (slabOf x.kf u (rowAt x.cols j))).1
    let hit := patch.filter fun q => q.1 == u && q.2.1 == i && q.2.2.1 == j
    if hit.isEmpty then a
    else accDecode x.acc ((hit.foldl (fun c q => c ^^^ q.2.2.2) (BitVec.ofNat 64 (accEncode x.acc a))).toNat % 2 ^ x.acc.width)) (accZero x.acc)

/-- The final value of a row and a column. -/
def Inner.value (x : Inner) (patch : Patch) (i j : Nat) : Val :=
  accValue (if patch.isEmpty then (dotFrom x.acc 0 (accZero x.acc) (rowAt x.rows i) (rowAt x.cols j)).1
    else x.accAt patch (x.slabs - 1) i j)

/-- Row `i` of pass `p` in the bay of rank `r`, against its checksum pair (R260 to R262): whether no comparison is made, and whether it
fails. -/
def Inner.check (x : Inner) (chkOn hole : Bool) (patch : Patch) (p r i : Nat) : Bool × Bool :=
  let t := p % max 1 x.slabs
  let js := x.colsOf p r
  let pr := if x.face == .fp64 then prec64 else prec32
  let pair := (List.range (t + 1)).foldl (fun (a : AccV × Val) u =>
    let xs := slabOf x.kf u (rowAt x.rows i)
    let sums := (List.range xs.length).map fun k =>
      checkRow x.acc x.face (js.map fun j => ((slabOf x.kf u (rowAt x.cols j))[k]?).getD (Val.zero false))
    (accDecode x.acc (accEncode x.acc (dotFrom x.acc 0 a.1 xs (sums.map (·.1))).1), checkMag pr 0 a.2 xs (sums.map (·.2))))
    (accZero x.acc, Val.zero false)
  let kt := min x.k ((t + 1) * x.kf)
  let sum := sumExact (js.map fun j => accValue (x.accAt patch t i j))
  let verdict := checkAccepts x.acc kt js.length sum (accValue pair.1) pair.2
  let noCmp := hole || !chkOn || decide (2 ^ 20 < kt) || verdict.isNone
  (noCmp, !noCmp && verdict == some false)

/-- Whether a slot of a pass carries nothing but zeros against finite faces (R14, R85, R117). -/
def Inner.hole (x : Inner) (p q : Nat) : Bool :=
  let t := p % max 1 x.slabs
  ((List.range x.nb).all fun r => (x.colsOf p r).all fun j => (slabOf x.kf t (rowAt x.cols j)).all Val.isFin) &&
    ((x.rows.drop (q * x.rate)).take x.rate).all fun r => (slabOf x.kf t r).all Val.isZero

/-- What an attempt of one pass leaves: the corrupt values written so far, the slots withheld with the code of the first, and the rows not
compared in each bay. -/
structure InnerRun where
  patch : Patch := []
  held  : List (Bay × Nat) := []
  cause : Nat := 0
  skips : List (Bay × Nat) := []
  found : List Bay := []
  deriving DecidableEq, Repr

/-- The corrupt values that a fault puts into slot `q` of pass `p` in the bay of rank `r`. -/
def Inner.corrupt (x : Inner) (p r q : Nat) (f : SlotFault) : Patch :=
  match f.err with
  | .corrupt i col mask =>
    match (x.colsOf p r)[col]? with
    | some j => if i / x.rate == q && decide (i < x.rows.length) then [(p % max 1 x.slabs, i, j, mask)] else []
    | none => []
  | _ => []

/-- What a check finds in a slot: the code of R274, none for a fault that only the comparison can find. -/
def SlotErr.code : SlotErr → Option Nat
  | .residue _ => some 0x32
  | .parityCol _ | .parityLane _ => some 0x33
  | .corrupt _ _ _ => none

/-- One attempt of pass `p` over the slots chosen in each bay, a bay with whether it has a checksum column: a slot with an attributed error or
a failed comparison is withheld, unless `keep` (R259, R261, R263, R264). The slots of the passes count on from one to the next in the
operands of the commands (log entry 53). -/
def Inner.attempt (x : Inner) (bays : List (Bay × Bool)) (p : Nat) (slots : Bay → List Nat) (faults : List SlotFault) (keep : Bool)
    (patch : Patch) : InnerRun :=
  bays.zipIdx.foldl (fun (a : InnerRun) b =>
    if (x.colsOf p b.2).isEmpty then a
    else (slots b.1.1).foldl (fun (a : InnerRun) q =>
      let here := faults.filter fun f => f.bay == b.1.1 && f.slot == p * x.slots + q
      let new := a.patch ++ here.flatMap (x.corrupt p b.2 q)
      let outs := ((List.range x.rate).map (x.rate * q + ·)).filterMap fun i =>
        if i < x.rows.length then some (x.check b.1.2 (x.hole p q) new p b.2 i) else none
      let attributed := here.findSome? fun f => SlotErr.code f.err
      let bad := attributed.isSome || outs.any (·.2)
      let a := { a with skips := a.skips ++ [(b.1.1, outs.countP (·.1))]
                        held := if bad then a.held ++ [(b.1.1, q)] else a.held
                        cause := if bad && a.cause == 0 then attributed.getD 0x34 else a.cause
                        found := if bad && attributed.isNone then a.found ++ [b.1.1] else a.found }
      if bad && !keep then a else { a with patch := new }) a) { patch := patch }

/-! ### Matrices of ROOT -/

/-- The rows of a row-major list of n × n values. -/
def rowsOf (n : Nat) (l : List Val) : List (List Val) := (List.range n).map fun i => (l.drop (i * n)).take n

def colsOf (n : Nat) (l : List Val) : List (List Val) :=
  (List.range n).map fun j => (rowsOf n l).map fun r => (r[j]?).getD (Val.zero false)

/-- A matrix from its elements. -/
def ofElems (n : Nat) (f : Nat → Nat → Val) : List Val := (List.range n).flatMap fun i => (List.range n).map fun j => f i j

def elemAt (n : Nat) (l : List Val) (i j : Nat) : Val := (l[i * n + j]?).getD (Val.zero false)

/-- The three stages of R140. -/
inductive RootStage
  | b | f | p
  deriving DecidableEq, Repr

/-- STAGE of R142. -/
def RootStage.code : RootStage → Nat
  | .b => 1
  | .f => 2
  | .p => 3

def RootStage.ofCode : Nat → RootStage
  | 1 => .b
  | 2 => .f
  | _ => .p

def toBf16 (v : Val) : Val := decodeFmt .bf16 (convertHalf .bf16 v 1).1

/-- Face format and accumulator of a product (R140). -/
def RootStage.face : RootStage → Fmt
  | .b => .bf16
  | _ => .fp32

def RootStage.acc : RootStage → Fmt
  | .p => .fp32x2
  | _ => .fp32

/-- The elements of a factor as a product takes them (R140). -/
def RootStage.enter (st : RootStage) (l : List Val) : List Val := match st with | .b => l.map toBf16 | _ => l

/-- prod(u, v) of R140, its flags discarded. -/
def prod (st : RootStage) (n : Nat) (u v : List Val) : List Val :=
  let cols := colsOf n (st.enter v)
  (rowsOf n (st.enter u)).flatMap fun r => cols.map fun k => rne32 (accValue (dotFrom st.acc 0 (accZero st.acc) r k).1)

/-- The passes of a product on `nb` bays: u streams, v is held. -/
def prodInner (st : RootStage) (n nb : Nat) (u v : List Val) : Inner :=
  { acc := st.acc, face := st.face, rows := rowsOf n (st.enter u), cols := colsOf n (st.enter v), k := n, kf := faceK st.face false,
    cpb := faceCols st.face, nb := nb, rate := faceRate st.face st.acc }

/-- A product with the corrupt values that its checks let through (R261, R264). -/
def prodWith (patch : Patch) (st : RootStage) (n : Nat) (u v : List Val) : List Val :=
  if patch.isEmpty then prod st n u v
  else let x := prodInner st n 1 u v; ofElems n fun i j => rne32 (x.value patch i j)

/-- The norms of R136 that the lehr takes: of the matrix, and of its difference from the identity. -/
def lehrNorm (resid : Bool) (n : Nat) (l : List Val) : Val := (normOf true (normVals false resid (rowsOf n l)).1).1

/-- `r > x`, false for a NaN. -/
def Val.gt (r x : Val) : Bool := !r.isNan && !Val.le r x

/-! ### Setup and iteration -/

/-- ⌈log2 v⌉ of a positive finite value. -/
def ceilLog2 : Val → Int
  | .fin _ m e => (Nat.log2 m : Int) + e + (if 2 ^ Nat.log2 m == m then 0 else 1)
  | _ => 0

/-- What a setup gives: f alone when it stops as diverged, else the exponent of c, X, M and r0 (R139). -/
def rootSetup (p n : Nat) (eps : Val) (a : List Val) : Val ⊕ (Int × List Val × List Val × Val) :=
  let b := ofElems n fun i j => if i == j then (ieeeAdd prec32 (elemAt n a i j) eps).1 else elemAt n a i j
  let f := lehrNorm false n b
  if !f.isFin || f.isZero || Val.ltFin (.fin false 1 100) f then .inl f
  else
    let k : Int := -((-(ceilLog2 f)) / p)
    let x := ofElems n fun i j => if i == j then rne32 (.fin false 1 (-k)) else Val.zero false
    let m := b.map fun v => rne32 (Val.scale2 (-(p * k)) v)
    .inr (k, x, m, lehrNorm true n m)

/-- The stage of the next iteration (R140). -/
def LehrJob.pick (j : LehrJob) : RootStage :=
  if j.met.isSome then .p else if j.r.gt (.fin false 1 (-6)) then .b else .f

/-- T of R140. -/
def rootT (p n : Nat) (m : List Val) : List Val :=
  ofElems n fun i j =>
    let v := elemAt n m i j
    if v.isFin then rne32 (Val.scale2 (-(Nat.log2 p : Int)) (Val.addFin (Val.ofInt (if i == j then p + 1 else 0) 0) v.negate))
    else rne32 v.negate

/-- The corrupt values left in product `k` of the iteration under way. -/
def LehrJob.patch (j : LehrJob) (k : Nat) : Patch := (j.patches[k]?).getD []

/-- y of R140 after the first `k` products of the iteration. -/
def rootY (p : Nat) (j : LehrJob) (k : Nat) : List Val :=
  (List.range k).foldl (fun y i => prodWith (j.patch i) j.pick j.n (rootT p j.n j.m) y) j.m

/-- The passes of product `k` of the iteration: T·y for the first p, then X·T. -/
def rootInner (p : Nat) (j : LehrJob) (k nb : Nat) : Inner :=
  let t := rootT p j.n j.m
  if k < p then prodInner j.pick j.n nb t (rootY p j k) else prodInner j.pick j.n nb j.x t

/-- What an iteration gives: T, and the job with X, M and r of R140. -/
def rootIterate (p : Nat) (j : LehrJob) : List Val × LehrJob :=
  let t := rootT p j.n j.m
  let y := rootY p j p
  (t, { j with x := prodWith (j.patch p) j.pick j.n j.x t, m := y, r := lehrNorm true j.n y, it := j.it + 1, total := j.total + 1,
               stage := j.pick.code })

/-! ### Control (R141) -/

/-- What the control does after a setup or an iteration. -/
inductive LehrAct
  | go (copy : Bool)
  | stop (copy fill : Bool) (status : Nat) (stage : Nat) (res : Val)
  | again
  deriving DecidableEq, Repr

/-- `restart` of R141: the restart counts; ε is the new one, unless it would be infinite, which stops the matrix with the ε of the attempt
that ran last (R142). -/
def restartAct (j : LehrJob) : LehrJob × LehrAct :=
  let stop : LehrAct := .stop false true 3 0 j.r
  if j.restarts == 3 then (j, stop)
  else
    let e := if j.eps.isZero then rne32 (.fin false 1 (j.c0Exp - 24)) else rne32 (Val.mulFin (.fin false 10 0) j.eps)
    let j := { j with restarts := j.restarts + 1 }
    if e.isInf then (j, stop) else ({ j with eps := e }, .again)

/-- The head of the loop: convergence and the cap. `copied` says that this turn has copied X already. -/
def loopAct (cap : Nat) (j : LehrJob) (copied : Bool) : LehrAct :=
  let ok := if j.restarts == 0 then 0 else 1
  match j.met with
  | some m => if j.it == m + 2 || j.it == cap then .stop copied false ok j.bestStage j.best else .go copied
  | none => if j.it == cap then .stop true false 2 j.stage j.r else .go copied

/-- After r0 of a setup. -/
def setupAct (cap : Nat) (tol : Val) (j : LehrJob) : LehrJob × LehrAct :=
  if Val.le j.r tol then
    let j := { j with met := some 0, best := j.r, bestStage := 0 }
    (j, loopAct cap j true)
  else (j, loopAct cap j false)

/-- After an iteration; `prev` is the residual before it. -/
def iterAct (cap : Nat) (tol prev : Val) (j : LehrJob) : LehrJob × LehrAct :=
  if j.met.isSome then
    if Val.le j.r j.best then
      let j := { j with best := j.r, bestStage := j.stage }
      (j, loopAct cap j true)
    else (j, loopAct cap j false)
  else if Val.le j.r tol then
    let j := { j with met := some j.it, best := j.r, bestStage := j.stage }
    (j, loopAct cap j true)
  else if !j.r.isFin then restartAct j
  else
    let j := { j with rises := if j.r.gt prev then j.rises + 1 else 0 }
    if j.rises == 3 then restartAct j else (j, loopAct cap j false)

/-! ### Times (R145) -/

def rootS (n : Nat) : Nat := ceilDiv' (n * n) 256 + 20

def rootN (n : Nat) : Nat := ceilDiv' (n * n) 256 + 280

/-- fc of one pass of a product of order n, its raise included. -/
def rootPass (st : RootStage) (n : Nat) : Nat := 514 + ceilDiv' n (faceRate st.face st.acc) + 128 * faceLat st.face st.acc + 135

/-- P_s: fc of one product of order n on nb bays. -/
def rootProduct (st : RootStage) (n nb : Nat) : Nat :=
  ceilDiv' n (faceK st.face false) * ceilDiv' n (faceCols st.face * max 1 nb) * rootPass st n

/-- D_s: fc of its drain. -/
def rootDrain (st : RootStage) (n : Nat) : Nat := ceilDiv' (n * rowAcc (faceCols st.face) st.acc) 1024 + 12

/-- The operations of a setup: 3 steps and 2 norms (R139, R145). -/
def setupSteps (n : Nat) : List LehrStep :=
  [.svu (rootS n) [], .svu (rootN n) [], .svu (rootS n) [], .svu (rootS n) [], .svu (rootN n) []]

end Sys2Proof.Machine
end

