-- ==== Sys2Proof/Machine/Issue.lean ====
section
/-! DEFINITION. Dispatch (R20, R149 to R151, R167, R168): what every instruction row shares. -/

namespace Sys2Proof.Machine

open Sys2Proof

/-- A descriptor index stepped by a LOOP run (R185). -/
def stepField (w : Inst) (lo : Nat) (by_ : Nat) : Inst :=
  let v := bitField w.toNat lo 8
  BitVec.ofNat 128 (w.toNat - v * 2 ^ lo + (v + by_) % 256 * 2 ^ lo)

/-- The body instruction a loop dispatches next, its selected and used indices stepped (R185). -/
def loopWord (l : Loop) : Option Inst :=
  (l.body[l.pos]?).map fun w =>
    let u := useOfInst w
    let by_ := l.run * l.step
    let w := if l.smask.getLsbD 0 && u.da then stepField w 48 by_ else w
    let w := if l.smask.getLsbD 1 && u.db then stepField w 56 by_ else w
    let w := if l.smask.getLsbD 2 && u.dO then stepField w 64 by_ else w
    if l.smask.getLsbD 3 && u.dx then stepField w 72 by_ else w

/-- The instruction a queue dispatches next: of its loop, or at its head. -/
def nextInst (s : State) (c : Ctx) (q : QSel) : Option Inst :=
  let x := s.qu c q
  match x.loop with
  | some l => loopWord l
  | none => if x.count == 0 then none else fetchedAt x x.head.toNat

/-- Whether grants and dispatch are open in the whole block (R238, R246, R250), a requested halt apart. -/
def blockRuns (s : State) : Bool :=
  s.boot.ready && s.fastOn && !s.dbg.halted && !s.g.opBusy && !s.damp.hardNow

/-- The same with no halt requested (R294). -/
def blockOpen (s : State) : Bool := blockRuns s && !haltReq s

/-- Whether a queue runs an open lock window, which a requested halt lets go on (R163). -/
def windowRuns (s : State) (c : Ctx) (q : QSel) : Bool :=
  match (s.cx c).lockWin with
  | some l => l.q == q && l.commitEnd.isNone
  | none => false

/-- Operations of the main queue in flight, its LOOP among them (R150). -/
def mainInFlight (s : State) (c : Ctx) : Nat :=
  s.ops.countP (fun o => o.ctx == c && o.q == .main) + (s.cx c).qm.loop.isSome.toNat

/-- Whether a queue may dispatch at all (R13, R150, R151, R157, R166, R274); a SEQ still in use is waited for (log entry 31). -/
def canDispatch (s : State) (c : Ctx) (q : QSel) : Bool :=
  blockRuns s && !s.ras.fatal && (!haltReq s || windowRuns s c q) && (s.cx c).mode == .active && !(s.cx c).rstBusy && decide (s.inFlight c < 64) && !seqInUse s c (s.cx c).seq && !ctxHeld s c && !cpHolds s c &&
    (q == .prio || decide (mainInFlight s c < 56))

/-- The loop's run and position for the fault record (R187, R231). -/
def loopAux (x : Queue) : Nat :=
  match x.loop with
  | some l => l.run * 65536 + l.pos
  | none => 0

/-- A fault at the checks: no SEQ, both queues FAULTED, and the completion record of R151. A lock member's ends its window
(R162). -/
def faultAtCheck (c : Ctx) (q : QSel) (w : Inst) (code aux : Nat) (s : State) : State :=
  let x := s.qu c q
  let r : Rec :=
    { mark := BitVec.ofNat 16 (ctxCode c * 0x1000 + (s.cx c).seq.toNat * 16), opc := iOpc w, status := code, q := q,
      layer := x.layer.toNat, oper := x.oper.toNat, time := timebase s, info := x.head.toNat, qidx := x.head.toNat }
  let s := State.ifThen (inWindow s c q) (memberFault c) s
  let s := State.ifThen (code == 0x10) (reportPoison c aux) s
  deliver c r (ctxFault c code q x.head.toNat (if x.loop.isSome then loopAux x else aux) s)

/-- Ranges an operation writes. -/
def outRanges (o : Op) : List Range :=
  let w := o.word
  let f := fmtOf (iFO w)
  match o.opc with
  | 0x05 => drainRanges f o.dO
  | 0x07 | 0x08 | 0x12 | 0x13 => [viewSpan f o.dO]
  | 0x09 => [viewSpan f o.dO, viewSpan .int32 o.dx]
  | 0x0A => [viewSpan .fp64 o.dO]
  | 0x20B => [viewSpan .fp32 o.db]
  | 0x0B | 0x30B => [viewSpan .fp32 o.db, viewSpan .fp32 o.dO (rootCnt w), { byteSpan o.dx with len := (byteSpan o.dx).len + (rootCnt w - 1) * o.dx.bstride }]
  | 0x0D => [viewSpan .int4 o.dO]
  | 0x0E => csrRanges f o.dO
  | 0x10 | 0x24 => viewSpan f o.dO :: (if copyConverts w then auxRanges f o.dO o.dO.tcols o.dO.trows else [])
  | 0x19 => if (iImm w).testBit 14 then [byteRange 4 o.dx] else []
  | 0x21 => [byteSpan o.dO]
  | 0x23 => if (iMode w).testBit 0 then [byteRange 16 o.dO] else []
  | _ => []

/-- The checked ranges an operation reads (R156, R199). -/
def readSpans (o : Op) : List Range :=
  let w := o.word
  let f := fmtOf (iFA w)
  let mask (m : Option MaskSlot) : List Range := match m with | some m => [viewSpan .int4 m.view] | none => []
  let held := match o.rr with | some r => heldRanges r.fmt r.db r.trans ++ mask r.mask | none => []
  match o.opc with
  | 0x01 => held
  | 0x03 => (match o.geo with | some g => streamRanges f g.input | none => streamRanges f o.da) ++ held
  | 0x05 => mask o.mslot
  | 0x06 => streamRanges f o.da
  | 0x07 => [viewSpan f o.da, viewSpan f o.db]
  | 0x08 => [viewSpan f o.da (reduceParts w)]
  | 0x0B | 0x30B => [viewSpan .fp32 o.da (rootCnt w), viewSpan .fp32 o.db]
  | 0x10B => [viewSpan .fp32 o.db]
  | 0x20B => []
  | 0x0C => streamRanges .gf4 o.da ++ heldRanges .gf4 o.db false
  | 0x0D => [viewSpan .int4 o.da]
  | 0x21 => [byteSpan o.da]
  | _ => [viewSpan f o.da]

/-- Whether an operation's accesses to staging wait for a SCRUB, or for the commit of another context (R162, R192). -/
def accessWaits (s : State) (o : Op) : Bool :=
  let rs := readSpans o ++ (if o.member then [] else outRanges o)
  o.opc != 0x22 && (scrubHolds s rs || commitHolds s o.ctx rs)

/-- The window ranges among some ranges, as first byte and length. -/
def winSpans (rs : List Range) : List (Nat × Nat) := rs.filterMap fun r => if r.win then some (r.lo, r.len) else none

/-- The tier of a line that an operation reads: of an input, else of the output whose bytes it merges (R199, R318). -/
def readTier (s : State) (o : Op) (line : Nat) : Bool :=
  let r : Range := ⟨true, line * 64, 64⟩
  match (readSpans o).find? (·.hits r) with
  | some x => farOf s o.ctx false x
  | none => tierIn s o.ctx true (outRanges o) line

/-- Issues reads for an operation in a context, with the tier of each line: the lines are dealt to ports (R203). -/
def issueLines (o : Op) (c : Ctx) (tier : Nat → Bool) (ports : List Bay) (rs : List Range) (s : State) : State :=
  let ls := deal ports (rdLines rs)
  let s := ls.foldl (fun s x => issueRd x.1 x.2 (tier x.2) c (.op o.ctx o.seq) s) s
  s.modOp o.ctx o.seq fun o => { o with rds := o.rds + ls.length }

/-- Issues the reads of an operation. -/
def issueReads (o : Op) (ports : List Bay) (rs : List Range) (s : State) : State := issueLines o o.ctx (readTier s o) ports rs s

/-- Carries out writes into checked ranges `spans`: staging at once; window bytes as posted lines, then one FLUSH on each
port used (R205). Answers the number of flushes. -/
def issueWrites (c : Ctx) (w : Owner) (ports : List Bay) (spans : List Range) (ws : List Wr) (s : State) : State × Nat :=
  let s := writeStaging (ws.filterMap fun x => if x.1 then none else some x.2) s
  let ls := deal ports (wrLines ws)
  let s := ls.foldl (fun s x => issueWr x.1 x.2.1 (tierIn s c true spans x.2.1) c x.2.2.1 x.2.2.2 s) s
  let used := (ls.map (·.1)).dedup
  (used.foldl (fun s b => issueFlush b w s) s, used.length)

/-- An operation completes and frees its units (R205, R319). -/
def release (o : Op) (s : State) : State := complete o (releaseUnits o s)

/-- An operation whose writes have gone out completes at once, or when its flushes are answered, `n` of them new. -/
def awaitFlushes (o : Op) (n : Nat) (s : State) : State :=
  if o.wrs + n == 0 then release o s else s.modOp o.ctx o.seq fun _ => { o with stage := .flushing, wrs := o.wrs + n }

/-- The end of an operation's work: its writes go out, and its units are free when it completes. -/
def finish (o : Op) (ports : List Bay) (ws : List Wr) (s : State) : State :=
  let (s, n) := issueWrites o.ctx (.op o.ctx o.seq) ports (outRanges o) ws s
  awaitFlushes o n s

/-- The operation of an instruction, with its descriptor copies (R157, R313). -/
def newOp (s : State) (c : Ctx) (q : QSel) (w : Inst) : Op :=
  let x := s.qu c q
  let u := useOfInst w
  let d (b : Bool) (i : Nat) : Desc := if b then descAt s c i else {}
  let pass := iOpc w == 0x03 || iOpc w == 0x06
  let o : Op :=
    { ctx := c, q := q, seq := (s.cx c).seq, opc := iOpc w, word := w, qidx := x.head.toNat,
      first := (pass && (iMode w).testBit 0) || iOpc w == 0x04,
      last := pass && (iMode w).testBit 1,
      layer := x.layer.toNat, oper := x.oper.toNat, da := d u.da (iDA w), db := d u.db (iDB w), dO := d u.dO (iDO w),
      dx := d u.dx (iDX w), replay := ((s.cx c).replayEn, (s.cx c).replaySh.toNat), named := namedBays s c w,
      tArr := s.clk, tRes := s.damp.ran, aux := loopAux x, member := inWindow s c q }
  let commits := if iOpc w == 0x1D then (bufferedBytes s c).map fun x => (⟨x.1, x.2.1, 1⟩ : Range) else []
  { o with locksDt := (outRanges o ++ commits).any (tableRange s c).hits }

/-- Holds that come after the checks: the opcode's own, and a write of the command processor that waits for a SCRUB or another context's
commit (R159, R160, R162, R192). -/
def lateHold (s v : State) (c : Ctx) (q : QSel) (w : Inst) : Bool :=
  let rs := outRanges (newOp v c q w)
  ownHold v c q w || (opClass (iOpc w) == some .c && !inWindow s c q && (scrubHolds s rs || commitHolds s c rs))

/-- Whether a queue has a dispatchable instruction (R150). -/
def dispatchable (s : State) (c : Ctx) (q : QSel) : Bool :=
  canDispatch s c q &&
    match nextInst s c q with
    | some w => !preHold s c q w && !lateHold s (memberView s c q) c q w
    | none => false

/-- The queue after a dispatch: the loop or the head moves on, the instruction joins the history (R184, R187). The
history keeps a LOOP and the 64 instructions before it. For FLG.ORD the instruction before a loop's first body instruction is the last one of the run before (R185), and the one
before the instruction behind a LOOP is the LOOP. -/
def Queue.step (x : Queue) (w : Inst) (seq : BitVec 8) (now : Nat) : Queue :=
  let x := { x with since := x.since + 1, lastAt := now, waiting := false, sigWait := false, fence := none,
                    prev := if iOpc w == 0x1B then x.prev else some seq }
  match x.loop with
  | some l =>
    if l.pos + 1 < l.body.length then { x with loop := some { l with pos := l.pos + 1 } }
    else if l.run + 1 < l.count then { x with loop := some { l with pos := 0, run := l.run + 1 } }
    else { x with prev := some l.seq, loop := none, head := BitVec.ofNat 16 (x.indexAfter 1), fetched := x.fetched.filter (·.1 != x.head.toNat) }
  | none =>
    { x with head := BitVec.ofNat 16 (x.indexAfter 1), fetched := x.fetched.filter (·.1 != x.head.toNat),
             history := (w :: x.history).take 65 }

/-- A LOOP whose last run was dispatched completes (R187), with the LAYER and OPER of its own dispatch (R188). -/
def loopEnd (c : Ctx) (q : QSel) (l : Loop) (s : State) : State :=
  let o : Op := { ctx := c, q := q, seq := l.seq, opc := 0x1B, word := l.inst, qidx := (s.qu c q).head.toNat, layer := l.layer,
                  oper := l.oper }
  complete o s

/-- Takes the next SEQ and moves the queue on; a lock window counts its member (R12, R149, R162). -/
def moveQueue (c : Ctx) (q : QSel) (w : Inst) (s : State) : State :=
  let seq := (s.cx c).seq
  let member := inWindow s c q
  let now := s.clk
  s.modCtx c fun x =>
    { x.modQueue q fun y => y.step w seq now with
      seq := seq + 1
      lockWin := if member then x.lockWin.map fun l => { l with left := l.left - 1 } else x.lockWin }

/-- Moves the queue on, and completes the LOOP whose last instruction this was (R187). -/
def takeHead (c : Ctx) (q : QSel) (w : Inst) (s : State) : State :=
  let was := (s.qu c q).loop
  let s := moveQueue c q w s
  match was, (s.qu c q).loop with
  | some l, none => loopEnd c q l s
  | _, _ => s

/-- Puts a dispatched operation among those in flight (R286: DISPATCH). -/
def enqueue (o : Op) (s : State) : State :=
  emitOp 0x01 13 (o.qidx + (if o.q == .prio then 65536 else 0)) o { s with ops := s.ops ++ [o] }

/-- A class C instruction completes at its dispatch (R168). -/
def completeNow (o : Op) (s : State) : State :=
  complete o (emitOp 0x01 13 (o.qidx + (if o.q == .prio then 65536 else 0)) o s)

/-- What a held instruction leaves: WAIT puts its queue in WAITING, SIGNAL holds the semaphore unit, FENCE fixes its scope
(R159, R160, R281). -/
def noteHold (c : Ctx) (q : QSel) (w : Inst) (s : State) : State :=
  let scope := fenceScope s c q w
  s.modQueue c q fun x =>
    { x with waiting := x.waiting || iOpc w == 0x18
             sigWait := x.sigWait || iOpc w == 0x19
             fence := if iOpc w == 0x1A && x.fence.isNone then some scope else x.fence }

/-- One dispatch attempt of a queue for the row of opcode `opc`: R13, R150, R158 and R159 first, the checks of R167 next,
then the opcode's own hold, all as a lock member sees memory (R162); `start` is the effect, given the operation with its SEQ. An opcode outside the table faults
under any row. -/
def dispatch (opc : Nat) (start : Op → State → State) (c : Ctx) (q : QSel) (s : State) : State :=
  match nextInst s c q with
  | none => s
  | some w =>
    if !canDispatch s c q || (q == .main && dispatchable s c .prio) then s
    else if (opClass (iOpc w)).isNone then faultAtCheck c q w 0x01 0 s
    else if iOpc w != opc || preHold s c q w then s
    else
      let v := memberView s c q
      match checkInst v c q w with
      | some (code, aux) => faultAtCheck c q w code aux s
      | none =>
        if lateHold s v c q w then noteHold c q w s
        else start (newOp v c q w) (takeHead c q w s)

end Sys2Proof.Machine
end

