-- ==== Sys2Proof/Machine/Engine.lean ====
section
/-! DEFINITION. What the engines hold and why they stall, the damper's estimate, and the passing of time (R244 to R247, R281 to R283,
R286; log entry 21). -/

namespace Sys2Proof.Machine

open Sys2Proof

/-! ### Engines (R280, R281; log entry 21) -/

/-- Whether the raise under way writes bay b. -/
def raisingIn (o : Op) (b : Bay) : Bool := raising o && (o.reraise == 0 || o.reraise.getLsb b)

/-- The stall reason that holds every engine (R281: 11 above 8), 0 for none. -/
def globalStall (s : State) : Nat := if s.dbg.halted then 11 else if s.damp.hardNow then 8 else 0

/-- The row slots of a stream whose first line has come are still being presented (R204). -/
def presents (s : State) (o : Op) : Bool := !o.got.isEmpty && decide (s.clk < phaseEnd s o o.fc)

/-- The stall reason of an operation that its unit holds: the one its fc pass under, a SCRUB or a commit that keeps it from staging
(R192), a raise, or reads that are out and leave slots empty (R33, R87, R171, R204, R259, R263). A unit without a bay is busy while it
waits for staging (R196). -/
def heldStall (s : State) (o : Op) : Nat :=
  if o.why != 0 then o.why
  else if !isT o && opClass o.opc != some .d then 0
  else if accessWaits s o then 3
  else if !isT o then 0
  else if raising o then 1
  else if o.rds > 0 && !presents s o then 5
  else 0

/-- The same in one bay: a bay that the raise under way does not write waits for the others. -/
def trussStall (s : State) (b : Bay) (o : Op) : Nat :=
  if heldStall s o == 1 && !raisingIn o b then (if o.rds > 0 then 5 else 0) else heldStall s o

/-- Whether the bays of an operation wait for an operating point, or for a wake that the damper holds back (R238, R248). -/
def damperWait (s : State) (o : Op) : Bool := s.g.opBusy || (maskBays (aim s o)).any fun k => (s.by k).wakeHeld

/-- The stall reason of an operation that waits for bay b's Truss, none where the engine is idle: an operating point or a wake held back
(R238, R248), a repair of a bay of its set (R267), the tile bank or the collector (R40, R44, R166). -/
def trussWaits (s : State) (b : Bay) (o : Op) : Option Nat :=
  if damperWait s o then some 8
  else if !isT o then none
  else if (maskBays (aim s o)).any (repairs s) then some 10
  else if !o.resv.getLsb b && (!trussFits s b o || sourceHolds s b.val) then some 4
  else none

/-- The operation that waits for bay b's Truss and its stall reason, a SCRUB among them (R192). -/
def trussWait (s : State) (b : Bay) : Option (Ctx × Nat) :=
  (s.ops.filter fun o => (isT o || o.opc == 0x22) && o.stage == .waiting && (aim s o).getLsb b && !earlierWaits s o).findSome? fun o =>
    (trussWaits s b o).map fun r => (o.ctx, r)

/-- The same for its drain path. -/
def drainWaits (s : State) (b : Bay) (o : Op) : Option Nat :=
  if damperWait s o then some 8 else if sourceHolds s b.val then some 4 else none

def drainWait (s : State) (b : Bay) : Option (Ctx × Nat) :=
  (s.ops.filter fun o => opClass o.opc == some .d && o.stage == .waiting && (aim s o).getLsb b).findSome? fun o =>
    (drainWaits s b o).map fun r => (o.ctx, r)

/-- A unit without a bay: what waits for it counts while the operating point changes (R238), and a record it cannot deliver
as busy time (R166). -/
def unitWait (s : State) (cls : OpClass) (src : Nat) : Option Ctx × Nat :=
  match s.ops.find? fun o => opClass o.opc == some cls && o.opc != 0x22 && o.stage == .waiting && (s.g.opBusy || sourceHolds s src) with
  | some o => if s.dbg.halted then (none, 0) else (some o.ctx, if s.g.opBusy then 8 else 0)
  | none => (none, 0)

/-- The operation of a class that a unit holds. -/
def unitOp (s : State) (cls : OpClass) (id : Ctx × BitVec 8) : Option Op :=
  s.ops.find? fun o => o.under id.1 id.2 && opClass o.opc == some cls

/-- Whether a message moves through the exchange port. -/
def moves (s : State) (o : Op) : Bool :=
  match o.x with
  | .flowing => true
  | .recvFlow _ => decide (s.clk < o.tDue)
  | _ => false

/-- The reason of an operation of the exchange port that it holds or admits (R208, R281). -/
def exchangeStall (s : State) (o : Op) : Nat :=
  if o.why != 0 then o.why
  else if o.x == .none || moves s o then 0
  else if s.g.opBusy && o.x == .waitAdmit then 8 else 6

/-- Whether an operation of the lehr waits for a bay whose wake is held back, or for an operating point (R238, R248). -/
def lehrWaits (s : State) (j : LehrJob) : Bool :=
  s.ops.any fun o => o.under j.ctx j.seq && o.stage == .waiting && (s.g.opBusy || ((isT o || opClass o.opc == some .d) && damperWait s o))

/-- What an engine holds, a context or none, and its stall reason, 0 when it is busy, the damper apart. -/
def engineBase (s : State) (e : Nat) : Option Ctx × Nat :=
  let held (c : Ctx) (r : Nat) : Option Ctx × Nat := (some c, if s.dbg.halted then 11 else r)
  let waits (x : Option (Ctx × Nat)) : Option Ctx × Nat :=
    match x with
    | some (c, r) => if s.dbg.halted then (none, 0) else (some c, r)
    | none => (none, 0)
  if h : e < 4 then
    let b : Bay := ⟨e, h⟩
    match (s.by b).truss, (s.by b).trussOn with
    | some id, true => held id.1 (((unitOp s .t id).map (trussStall s b)).getD 0)
    | _, _ => waits (trussWait s b)
  else if h : e < 8 then
    let b : Bay := ⟨e - 4, by omega⟩
    match (s.by b).drain, (s.by b).drainOn with
    | some id, true => held id.1 (((unitOp s .d id).map (heldStall s)).getD 0)
    | _, _ => waits (drainWait s b)
  else match e with
  | 8 =>
    match s.ops.find? (fun o => o.stage == .granted && (o.opc == 0x03 || o.opc == 0x06 || o.opc == 0x0C || o.opc == 0x10B) && !raising o) with
    | some o => held o.ctx (heldStall s o)
    | none => (none, 0)
  | 9 => match s.svu with | some id => held id.1 (((unitOp s .s id).map (·.why)).getD 0) | none => unitWait s .s 4
  | 10 => match s.topk with | some id => held id.1 (((unitOp s .k id).map (·.why)).getD 0) | none => unitWait s .k 7
  | 11 => match s.lehr with | some j => held j.ctx (if lehrWaits s j then 8 else 0) | none => unitWait s .l 5
  | 12 =>
    match s.ops.find? (moves s), s.ops.find? (fun o => opClass o.opc == some .x) with
    | some o, _ | none, some o => held o.ctx (exchangeStall s o)
    | none, none => (none, 0)
  | 13 =>
    let holds (x : Queue) : Bool := x.waiting || x.sigWait
    match allCtx.find? (fun c => (s.cx c).lockWin.any (·.commitEnd.isSome)),
        allCtx.find? (fun c => holds (s.cx c).qm || holds (s.cx c).qp) with
    | some c, _ => held c 0
    | none, some c => held c 7
    | none, none => (none, 0)
  | 14 =>
    match allCtx.find? (fun c => !(s.cx c).recs.isEmpty) with
    | some c => held c 0
    | none => (none, 0)
  | _ => (none, 0)

/-- The same with a hard stop of the damper. -/
def engineState (s : State) (e : Nat) : Option Ctx × Nat :=
  match engineBase s e with
  | (some c, r) => (some c, if globalStall s != 0 then globalStall s else r)
  | x => x

/-- Whether an engine's clock runs. -/
def engineClocked (s : State) (e : Nat) : Bool :=
  s.fastOn && (if h : e % 4 < 4 then (e ≥ 8 || (s.by ⟨e % 4, h⟩).pstate == .running) else true)

/-- Whether a configured counter of classes 2 to 4 counts a state (R283). -/
def selHits (cfg : Word) : Option Ctx × Nat → Bool
  | (some c, r) =>
    let v := cfg.toNat
    (v.testBit 29 || bitField v 25 4 == ctxCode c) &&
      ((bitField v 0 4 == 2 && r == 0) || (bitField v 0 4 == 3 && r != 0 && (bitField v 21 4 == 0 || bitField v 21 4 == r)))
  | (none, _) => bitField cfg.toNat 0 4 == 4 && cfg.toNat.testBit 29

/-- How many of `k` fc a configured counter counts, `k8` of them stalled by the damper. -/
def selCount (s : State) (bay : Option Bay) (k k8 : Nat) (cfg : Word) : Nat :=
  let v := cfg.toNat
  let e := match bay with | some b => b.val + 4 * (bitField v 17 4 % 2) | none => bitField v 17 4
  if !engineClocked s e then 0
  else
    match engineBase s e with
    | (some c, r) =>
      if r == 11 then k * (selHits cfg (some c, r)).toNat
      else (k - k8) * (selHits cfg (some c, r)).toNat + k8 * (selHits cfg (some c, 8)).toNat
    | x => k * (selHits cfg x).toNat

def SelCnt.tick (s : State) (bay : Option Bay) (k k8 : Nat) (x : SelCnt) : SelCnt :=
  { x with cnt := x.cnt + BitVec.ofNat 64 (selCount s bay k k8 x.cfg) }

/-! ### Damper estimate (R244 to R247), in mW -/

/-- Active coefficient of a held format, nominal and low point. -/
def activeCoef (low : Bool) (f : Fmt) (pair sparse : Bool) : Nat :=
  let v : Nat × Nat := match f with
    | .fp64 => (21000, 9700)
    | .fp32 => (26000, 12000)
    | .fp16 | .bf16 => (32000, 14700)
    | .int8 => (28000, 12900)
    | .int4 => (30000, 13800)
    | .gf6e3 | .gf6e2 => (31000, 14300)
    | .gf8e4 | .gf8e5 => (34500, 15900)
    | .gf4 => (36000, 16600)
    | _ => (0, 0)
  let x := if low then v.2 else v.1
  let x := if pair then x * 3 / 4 else x
  if sparse then x + (if low then 2800 else 6000) else x

def idleCoef (low : Bool) : Nat := if low then 1400 else 3000

def sleepCoef (low : Bool) : PState → Nat
  | .powerGated => 150
  | .clockStopped => if low then 800 else 1100
  | _ => idleCoef low

def commonCoef (b : Build) (low on : Bool) : Nat :=
  if !on then (if low then 600 else 800)
  else match b, low with
    | .fig1B, false => 7500 | .fig2B, false => 9000 | .fig4B, false => 12000
    | .fig1B, true => 4500 | .fig2B, true => 5400 | .fig4B, true => 7200

/-- The format that works in a bay's Truss, with pair accumulation and a 2:4 face, while an operation moves items or writes raise
slots (R244); the products of a ROOT work in the format of their stage. -/
def worksIn (s : State) (b : Bay) (o : Op) : Option (Fmt × Bool × Bool) :=
  let face (r : RaiseRec) : Fmt × Bool × Bool := (r.fmt, !raising o && bitField o.word.toNat 16 4 == 2, bitField r.db.spctl.toNat 0 2 == 2)
  match o.opc with
  | 0x01 | 0x03 | 0x06 => o.rr.map face
  | 0x0C => some (.gf4, false, false)
  | 0x10B => some (if o.kt == 1 then .bf16 else .fp32, o.kt == 3, false)
  | _ => if raising o then (s.by b).tag.map fun t => face t.rr else none

/-- The active coefficient of a bay at a point, none when it is not active: its operation has its data, and streams, replays or raises
(R244). -/
def bayActive (s : State) (b : Bay) (low : Bool) : Option Nat :=
  match (s.by b).truss, (s.by b).trussOn with
  | some id, true =>
    match unitOp s .t id with
    | some o =>
      let r := trussStall s b o
      if o.stage == .granted && o.rds == 0 && (s.by b).pstate == .running && !s.dbg.halted &&
          (raisingIn o b || r == 9 || (r == 0 && decide (s.clk < o.tDue))) then
        (worksIn s b o).map fun x => activeCoef low x.1 x.2.1 x.2.2
      else none
    | none => none
  | _, _ => none

/-- The estimate of a fc in which every engine stalls, or of the stopped clocks; while an operating point changes them, every fast
domain counts as CLOCK_STOPPED (R244, R247). -/
def stallPower (s : State) : Nat :=
  let low := s.g.opCur
  if !s.damp.fused then 0
  else 400 + commonCoef s.build low s.fastOn +
    (s.bays.map fun b =>
      let st := (s.by b).pstate
      if !s.fastOn && (s.g.opsReq || st == .running || st == .waking) then sleepCoef low .clockStopped else sleepCoef low st).sum

/-- What the active bays add to it in a fc that runs. -/
def activePower (s : State) : Nat :=
  let low := s.g.opCur
  if !s.damp.fused || !s.fastOn then 0
  else (s.bays.map fun b => match bayActive s b low with | some a => a - idleCoef low | none => 0).sum

/-- The activity of a bay over `k` fc that run. -/
def Activity.add (s : State) (b : Bay) (k : Nat) (a : Activity) : Activity :=
  if (s.by b).pstate == .running && s.fastOn then
    match bayActive s b false, bayActive s b true with
    | some n, some l => { active := a.active + k, awake := a.awake + k, coef := a.coef + n * k, coefLow := a.coefLow + l * k }
    | _, _ => { a with awake := a.awake + k }
  else a

/-- The fc that pass up to `t`, and those of them that the damper stalls (R245, R246). -/
def fcPassing (s : State) (t : Nat) : Nat × Nat :=
  if !s.fastOn then (0, 0)
  else
    let i := fcIndex s s.clk
    let j := fcIndex s t
    (j - i, if s.damp.hardNow then j - i else stallsIn (duty s) j - stallsIn (duty s) i)

/-- The stall reason of an operation for its STALL records: of what its unit holds, or of what it waits for (R281, R286). -/
def opStall (s : State) (o : Op) : Nat :=
  let g := globalStall s
  match o.stage with
  | .waiting =>
    if s.dbg.halted then 0
    else if isT o || o.opc == 0x22 then
      if earlierWaits s o then 0 else (((maskBays (aim s o)).findSome? fun b => trussWaits s b o)).getD 0
    else match opClass o.opc with
      | some .d => ((maskBays (aim s o)).findSome? fun b => drainWaits s b o).getD 0
      | some .x => exchangeStall s o
      | _ => if s.g.opBusy then 8 else 0
  | .armed => 0
  | .granted => if g != 0 then g else if opClass o.opc == some .x then exchangeStall s o else heldStall s o
  | .flushing => g

/-- The stalled intervals that end now get their STALL records, and those that begin are noted (R286). -/
def noteStalls (s : State) : State :=
  let s := s.ops.foldl (fun s o => if o.trc && (s.cx o.ctx).feat.getLsbD 15 then noteStall o (opStall s o) s else s) s
  { s with trace := { s.trace with stalls := s.trace.stalls.filter fun x => s.ops.any fun o => x.ofOp o } }

/-- Time passes to `t`: counters, damper estimate and activity advance by the state that stands (R244 to R246, R282, R283; log
entry 21). -/
def passTo (t : Nat) (s : State) : State :=
  let (k, k8) := fcPassing s t
  let run := if s.dbg.halted then 0 else k - k8
  let any := (List.range 15).any fun e => (engineState s e).1.isSome && engineClocked s e
  let count := !s.cnt.frozen && s.fastOn
  { s with
    clk := t
    bay := s.bay.mapFinIdx fun i x h =>
      if !count then x
      else
        { x with
          busyCyc := if (x.trussOn || x.drainOn) && x.pstate == .running then x.busyCyc + BitVec.ofNat 64 k else x.busyCyc
          sel := x.sel.map (SelCnt.tick s (some ⟨i, h⟩) k k8) }
    cnt := if !count then s.cnt
      else { s.cnt with
        busy := if any then s.cnt.busy + BitVec.ofNat 64 k else s.cnt.busy
        gsel := s.cnt.gsel.map (SelCnt.tick s none k k8) }
    damp := { s.damp with
      ran := s.damp.ran + run
      energy := s.damp.energy + 64 * (stallPower s * (t - s.clk) + activePower s * (run * fcLen s))
      act := s.damp.act.mapFinIdx fun i a h => a.add s ⟨i, h⟩ run } }

def advanceTo (t : Nat) (s : State) : State := if t ≤ s.clk then s else passTo t (noteStalls s)

/-- A tick: one fc passes (log entry 2). -/
def tick (s : State) : State := advanceTo (s.clk + fcLen s) s

/-- The time at which a stream next has presented its slots, no later than `t` (R204). -/
def nextPresented (s : State) (t : Nat) : Nat :=
  s.ops.foldl (fun t o => if o.stage == .granted && isT o && o.rds > 0 && presents s o then min t (phaseEnd s o o.fc) else t) t

/-- An event that falls due at `t` happens at the later of now and `t` (log entry 2). -/
def at' (t : Nat) (s : State) : State := advanceTo t (advanceTo (nextPresented s t) s)

end Sys2Proof.Machine
end

