-- ==== Sys2Proof/Machine/Grant.lean ====
section
/-! DEFINITION. The bay scheduler (R16 to R18, R40, R44, R224 to R228, R271, R272, R302) and what an operation reads at
its grant. -/

namespace Sys2Proof.Machine

open Sys2Proof

/-- A chain of the context is in progress in some bay (R40). -/
def chainAny (s : State) (c : Ctx) : Bool := s.bays.any (chainIn s c)

/-- Rank in the order of R17: TM, then priority queues, then main queues, each round-robin. -/
def grantRank (s : State) (o : Op) : Nat :=
  if o.ctx == tm then 0
  else match o.q with
    | .prio => 1 + (o.ctx.val + 7 - s.rrPrio.val) % 8
    | .main => 9 + (o.ctx.val + 7 - s.rrMain.val) % 8

/-- The best of the candidates: lowest rank, the older first (R17). -/
def bestRank (s : State) (l : List Op) : Option Op :=
  l.foldl (fun b o => match b with
    | some p => if grantRank s o < grantRank s p then some o else b
    | none => some o) none

/-- The operation served first: the oldest arrival, then the order of R17, then dispatch order (R319). -/
def firstArrival (s : State) (l : List Op) : Option Op :=
  l.foldl (fun b o => match b with
    | some p => if o.tArr < p.tArr || (o.tArr == p.tArr && grantRank s o < grantRank s p) then some o else b
    | none => some o) none

/-- Both round-robins move past the tenant granted (R17). -/
def noteGrant (o : Op) (s : State) : State :=
  if h : o.ctx.val < 8 then
    match o.q with
    | .prio => { s with rrPrio := ⟨o.ctx.val, h⟩ }
    | .main => { s with rrMain := ⟨o.ctx.val, h⟩ }
  else s

/-- Whether an OUT under way still leaves the bay to an operation (R272). -/
def outKeeps (s : State) (o : Op) (b : Bay) : Bool :=
  match (s.by b).outCmd with
  | none => true
  | some .forced => false
  | some .graceful => if isT o then chainIn s o.ctx b
    else [(s.by b).bank0, (s.by b).bank1].any fun k => k.st != .free && k.ctx == o.ctx

/-- Saturating counts (R125). -/
def satAdd (a : Word) (n : Nat) : Word := BitVec.ofNat 32 (min 0xFFFF_FFFF (a.toNat + n))

/-- The bank of a chain in a bay, taken or to be taken by a DRAIN. -/
def bankOf? (s : State) (b : Bay) (c : Ctx) (id : Nat) : Option Bank :=
  [(s.by b).bank0, (s.by b).bank1].find? fun k => k.st != .free && k.ctx == c && k.chain == id

/-- Whether a chain has, or will have, a bank in a bay: one that stands there, or a chain of whose bays it is one (R40, R224). -/
def bankComes (s : State) (c : Ctx) (b : Bay) (id : Nat) : Bool :=
  (bankOf? s b c id).isSome || (s.cx c).chains.any fun k => k.id == id && (Chain.now s k).getLsb b

/-- The banks a DRAIN takes at its grant (R45): those of its dispatch; with BAYS 0b0000 and another current set since, decided
anew over the chains as they stand (R229); none where nothing is left, or a bay of the new set has neither a bank nor a chain, a bay
removed by R302 apart. DESIGN CHOICE (log entry 52): a bay in which the chain was narrowed or released since the dispatch is left out without a
wait or a fault, and the DRAIN takes the banks of the others. The drain of a lehr product takes all its banks. -/
def takesNow (s : State) (o : Op) : Option (List (Bay × Nat)) :=
  let cur := s.curSet o.ctx
  let live := o.takes.filter fun t => bankComes s o.ctx t.1 t.2
  if o.opc == 0x20B then (if live.length == o.takes.length then some live else none)
  else if o.bayField == 0 && o.named != cur then
    let ids := (o.takes.map (·.2)).dedup
    let l := ((maskBays cur).filter s.inService).map fun b =>
      (b, (ids.find? (bankComes s o.ctx b)).orElse fun _ => oldestIn s o.ctx b (Chain.now s))
    let ns := (s.cx o.ctx).nset
    if l.any fun x => x.2.isNone && (ns == 0 || ns.getLsb x.1) then none
    else
      let l := l.filterMap fun x => x.2.map fun id => (x.1, id)
      if l.isEmpty then none else some l
  else if live.isEmpty then none else some live

/-- Whether a bay may serve an operation: in service, with no OUT that shuts it out (R271, R272). -/
def bayServes (s : State) (o : Op) (b : Bay) : Bool := s.inService b && outKeeps s o b

/-- The bays in service (R271). -/
def serviceMask (s : State) : BitVec 4 := bayMaskOf (s.bays.filter s.inService)

/-- The bays an operation is granted, and whether it faults DESC_INVALID there: its explicit mask names a bay it cannot have,
or a DRAIN has nothing to take (R45, R224, R229, R271, R272, R302). -/
def baySet (s : State) (o : Op) : Bool × BitVec 4 :=
  let cur := s.curSet o.ctx
  let ns := (s.cx o.ctx).nset &&& cur &&& serviceMask s
  let m := o.bayField
  let base := if o.opc == 0x20B then bayMaskOf (o.takes.map (·.1)) else if m != 0 then m else if isT o && ns != 0 then ns else cur
  let bad := m != 0 && ((m &&& ~~~cur) != 0 || (maskBays m).any fun b => !bayServes s o b)
  let open_ := (maskBays base).filter (bayServes s o)
  if opClass o.opc == some .d then
    match takesNow s o with
    | none => (true, 0)
    | some l => (bad, bayMaskOf (open_.filter fun b => l.any (·.1 == b)))
  else (bad, bayMaskOf open_)

/-- R302 at the grant of a RAISE with BAYS 0b0000 outside a chain: the narrowed set and the state it leaves. -/
def narrow (o : Op) (s : State) : State :=
  let x := s.cx o.ctx
  let cur := bayMaskOf ((maskBays (s.curSet o.ctx)).filter (bayServes s o))
  if !(s.g.narrow && o.opc == 0x01 && iBays o.word == 0 && !chainAny s o.ctx) then s
  else if x.nleft != 0 && (x.nset &&& cur) != 0 then s.modCtx o.ctx fun x => { x with nleft := x.nleft - 1 }
  else
    let need := match o.rr with | some r => ceilDiv' r.n (faceCols r.face) | none => 1
    let grow (b : Bay) : Nat := (x.nlag[b.val]?).getD 0
    let lagging := (maskBays cur).filter fun b => decide (grow b * 256 > s.g.thresh.toNat * x.nocc)
    let sorted := lagging.mergeSort fun a b => decide (grow a ≥ grow b)
    let rest := sorted.foldl (fun (l : List Bay) b => if decide (max 1 need < l.length) then l.filter (· != b) else l) (maskBays cur)
    if rest.length < (maskBays cur).length then
      s.modCtx o.ctx fun x => { x with nset := bayMaskOf rest, nleft := s.g.hold - 1 }
    else s.modCtx o.ctx fun x => { x with nset := 0, nleft := 0 }

/-- R227, R228: class T operations a failover holds at the grant. -/
def failoverHolds (s : State) (o : Op) : Bool :=
  match s.g.failover with
  | some f => f.ctx == o.ctx && isT o && (f.forced || !chainAny s o.ctx)
  | none => false

/-- The set an operation reserves: the one fixed at its first reservation, else the one it would be granted now. -/
def setOf (s : State) (o : Op) : BitVec 4 := if o.gset == 0 then (baySet s o).2 else o.gset

/-- An operation holds the bays of its set below b, and not b (R18). -/
def nextBay (s : State) (b : Bay) (o : Op) : Bool :=
  (setOf s o).getLsb b && !o.resv.getLsb b && ((maskBays (setOf s o)).filter fun x => decide (x.val < b.val)).all fun x => o.resv.getLsb x

/-- An operation waits for bay b's Truss, and may have it (R17, R18, R40, R44, R166). -/
def wantsTruss (s : State) (b : Bay) (o : Op) : Bool :=
  isT o && o.stage == .waiting && nextBay s b o && !earlierWaits s o && !failoverHolds s o && trussFits s b o && !sourceHolds s b.val

/-- An operation waits for bay b's drain path, and the bank it takes is COMPLETE (R45). -/
def wantsDrain (s : State) (b : Bay) (o : Op) : Bool :=
  opClass o.opc == some .d && o.stage == .waiting && nextBay s b o && !sourceHolds s b.val &&
    ((takesNow s o).getD []).any fun t => t.1 == b && (bankOf? s b o.ctx t.2).any (·.st == .complete)

/-- An operation that faults DESC_INVALID at its grant, in its turn (R45, R158, R229, R271, R272). -/
def refused (s : State) (o : Op) : Bool :=
  !failoverHolds s o && (isT o || opClass o.opc == some .d) && o.stage == .waiting && o.gset == 0 && (baySet s o).1 && !earlierWaits s o &&
    (maskBays (aim s o)).all fun b => !((s.by b).truss.any (·.1 == o.ctx) && (s.by b).trussOn)

/-- A SCRUB that waits for a bay, or runs in it, keeps it from everything else (R192). -/
def scrubShuts (s : State) (b : Bay) : Bool :=
  s.ops.any fun o => o.opc == 0x22 && (o.stage == .waiting || o.stage == .granted) && (iBays o.word).getLsb b

/-- A reset, a scan-out or a SCRUB that holds the bay, or a repair that holds its Truss (R233, R267, log entry 19). -/
def bayHeld (drain : Bool) (s : State) (b : Bay) : Bool :=
  (s.by b).brst || (!drain && repairs s b) || (s.by b).scanned || s.dbg.commonScanned || scrubShuts s b

/-- The SCRUB that waits for a bay (R192). -/
def scrubFor (s : State) (b : Bay) : Option Op :=
  s.ops.find? fun o => o.opc == 0x22 && o.stage == .waiting && (iBays o.word).getLsb b

/-! ### Reads at the grant -/

/-- Scale bytes a view touches in a window, and its expansion arrays (R66, R203). -/
def auxReads (f : Fmt) (d : Desc) (rowsAreK : Bool) : List Range :=
  let (kt, xt) := if rowsAreK then (d.trows, d.tcols) else (d.tcols, d.trows)
  if f.isGf && fctlSmode d.fctl != 0 then
    if d.auxLoc then
      let idx := (List.range d.vrows).flatMap fun i => (List.range d.vcols).map fun j =>
        let (k, x) := if rowsAreK then (d.vrow0 + i, d.vcol0 + j) else (d.vcol0 + j, d.vrow0 + i)
        scaleIndex d.fctl kt xt k x
      idx.dedup.map fun n => ⟨true, d.aux + n, 1⟩
    else auxRanges f d kt xt
  else auxRanges f d kt xt

/-- The mask of a 2:4 face. -/
def maskReads (m : Option MaskSlot) : List Range := match m with | some m => viewRanges .int4 m.view | none => []

/-- What a raise reads: the mask of a 2:4 face and its source. -/
def raiseReads (r : RaiseRec) : List Range :=
  if sform r.db == 1 then csrRanges r.fmt r.db
  else maskReads r.mask ++ viewRanges r.fmt (physView r.db) ++ auxReads r.fmt r.db (heldRowsK r.db r.trans)

/-- The part of a face that bay rank j reads, with what the parts share if `shared` (R33, R203, log entry 11). -/
def raisePart (r : RaiseRec) (j : Nat) (shared : Bool) : List Range :=
  let cpb := faceCols r.face
  let d := r.db
  if sform d == 1 then if shared then csrRanges r.fmt d else []
  else
    let sub := if r.trans then { d with vrow0 := d.vrow0 + j * cpb, vrows := min cpb (d.vrows - j * cpb) }
      else { d with vcol0 := d.vcol0 + j * cpb, vcols := min cpb (d.vcols - j * cpb) }
    (if sub.vcols == 0 || sub.vrows == 0 then [] else viewRanges r.fmt (physView sub)) ++
      (if shared then maskReads r.mask ++ auxReads r.fmt d (heldRowsK d r.trans) else [])

/-- Face columns of a FOLD: c0, its width and its rows (R128). -/
def foldShape (o : Op) (nb : Nat) : Nat × Nat × Nat :=
  let nf := faceCols (fmtOf (iFA o.word)) * nb
  let n := o.da.vrows
  let c0 := iImm o.word % 256 * nf
  (c0, min n (c0 + nf) - c0, min n (c0 + nf))

/-- The record of a FOLD's own raise: its face's rows of X, transposed (R127, R128). -/
def foldRec (o : Op) (nb : Nat) : RaiseRec :=
  let f := fmtOf (iFA o.word)
  let (c0, n, _) := foldShape o nb
  { fmt := f, face := f, ahold := false, trans := true, k := o.da.vcols, n := n,
    db := { o.da with vrow0 := o.da.vrow0 + c0, vrows := n } }

/-- Rows of a Truss operation. -/
def opRows (o : Op) : Nat :=
  match o.opc with
  | 0x06 => (foldShape o (maskBays o.gset).length).2.2
  | 0x03 => (passShape o.geo o.da).1
  | _ => o.da.vrows

/-- What a pass streams (R49, R112), a FOLD the rows on or above the diagonal of its face (R128). -/
def streamReads (o : Op) : List Range :=
  let f := fmtOf (iFA o.word)
  match o.geo with
  | some g => viewRanges f g.input ++ auxReads f g.input false
  | none =>
    let d := { o.da with vrows := opRows o }
    if sform d == 1 then csrRanges f d else viewRanges f d ++ auxReads f d false

/-- The part of a ROUGH's held operand that rank j of nb bays reads, over all faces (R122). -/
def roughPart (d : Desc) (nb j : Nat) : List Range :=
  ((List.range (ceilDiv' d.vcols (128 * nb))).flatMap fun f =>
    let c := f * 128 * nb + j * 128
    if c < d.vcols then viewRanges .gf4 { d with vcol0 := d.vcol0 + c, vcols := min 128 (d.vcols - c) } else []) ++
    (if j == 0 then auxReads .gf4 d true else [])

/-- The face that a bay raises again before an operation: a PASS's own where the joints do not hold it, else the one whose
columns a remap moved; with the context that reads it, and whether a FOLD raised it (R171, R242, R267). -/
def reraiseOf (s : State) (o : Op) (b : Bay) : Option (Ctx × RaiseRec × Bool) :=
  let y := s.by b
  let lost := match y.tag with
    | some t => t.ctx != o.ctx || t.fold || y.face.isNone
    | none => true
  if o.opc == 0x01 || o.opc == 0x10B then none
  else if o.opc == 0x03 && lost then (y.recs.get o.ctx).map fun r => (o.ctx, r, false)
  else if y.redo && y.face.isSome then y.tag.map fun t => (t.ctx, t.rr, t.fold)
  else none

/-- Bays that raise a face again. -/
def needsRaise (s : State) (o : Op) : BitVec 4 := bayMaskOf ((maskBays o.gset).filter fun b => (reraiseOf s o b).isSome)

/-- What the bays that raise again read, by bay (R203). -/
def reraiseReads (s : State) (o : Op) : List (Bay × Ctx × RaiseRec × List Range) :=
  (maskBays o.reraise).filterMap fun b => (reraiseOf s o b).map fun (c, r, _) => (b, c, r, raisePart r r.rank true)

/-- What the raise under way writes: bay, context, record and its reads. -/
def raiseWork (s : State) (o : Op) : List (Bay × Ctx × RaiseRec × List Range) :=
  if o.reraise != 0 then reraiseReads s o
  else match o.rr with
    | some r => (maskBays o.gset).zipIdx.map fun x => (x.1, o.ctx, { r with rank := x.2 }, raisePart r x.2 (x.2 == 0))
    | none => []

/-- Everything a Truss operation reads. -/
def trussReads (s : State) (o : Op) : List Range :=
  (reraiseReads s o).flatMap (·.2.2.2) ++
  match o.opc with
  | 0x01 => (match o.rr with | some r => raiseReads r | none => [])
  | 0x03 | 0x06 => streamReads o
  | 0x04 => viewRanges (fmtOf (iFA o.word)) o.da
  | 0x0C => viewRanges .gf4 o.da ++ auxReads .gf4 o.da false ++ viewRanges .gf4 o.db ++ auxReads .gf4 o.db true
  | 0x10B => [rootWork o.da.vrows o.db]
  | _ => []

/-- The stage of a product of the lehr (R140). -/
def Op.rootStage (o : Op) : RootStage := RootStage.ofCode o.kt

/-- The tile of a Truss operation: columns per bay and tile columns (R27, R175). -/
def opTile (o : Op) : Nat × Nat :=
  match o.opc with
  | 0x03 => (match o.rr with | some r => faceCols r.face | none => 1, o.dO.vcols)
  | 0x04 => (faceCols (fmtOf (iFB o.word)), o.da.vcols)
  | 0x06 => (faceCols (fmtOf (iFA o.word)), (foldShape o (maskBays o.gset).length).2.1)
  | 0x10B => (faceCols o.rootStage.face, o.da.vcols)
  | _ => (1, 0)

/-- Its accumulator format. -/
def opAcc (o : Op) : Fmt := match o.opc with | 0x10B => o.rootStage.acc | 0x0C => .fp32 | _ => fmtOf (iFO o.word)

/-- Row slots of M rows at rate r. -/
def slotsOf (m r : Nat) : Nat := ceilDiv' m r

def opRate (o : Op) : Nat :=
  match o.opc with
  | 0x03 => faceRate ((o.rr.map (·.face)).getD .fp32) (fmtOf (iFO o.word))
  | 0x06 => faceRate (fmtOf (iFA o.word)) (fmtOf (iFO o.word))
  | 0x0C => faceRate .gf4 .fp32
  | 0x10B => faceRate o.rootStage.face o.rootStage.acc
  | _ => 1

/-- 128·d + 135 (R47). -/
def opFill (o : Op) : Nat :=
  match o.opc with
  | 0x03 => 128 * faceLat ((o.rr.map (·.face)).getD .fp32) (fmtOf (iFO o.word)) + 135
  | 0x06 => 128 * faceLat (fmtOf (iFA o.word)) (fmtOf (iFO o.word)) + 135
  | 0x0C => 128 * faceLat .gf4 .fp32 + 135
  | 0x10B => 128 * faceLat o.rootStage.face o.rootStage.acc + 135
  | _ => 0

/-- fc of one of the passes that a ROUGH or a product runs, its raise included (R122, R145). -/
def innerPass (o : Op) : Nat := 514 + slotsOf (opRows o) (opRate o) + opFill o

/-- fc a Truss operation takes from its first slot without skips (R47, R122, R175). -/
def opTime (o : Op) (nb : Nat) : Nat :=
  let m := opRows o
  match o.opc with
  | 0x01 => 514
  | 0x03 | 0x06 => slotsOf m (opRate o) + opFill o
  | 0x04 => ceilDiv' (m * rowAcc (opTile o).1 (fmtOf (iFO o.word))) 1024 + 12
  | 0x0C => ceilDiv' o.da.vcols 2048 * ceilDiv' o.db.vcols (128 * max 1 nb) * innerPass o
  | 0x10B => rootProduct o.rootStage m nb
  | _ => 0

/-- Grant-time checks of a Truss operation (R41, R128, R171, R225). -/
def trussFault (s : State) (o : Op) : Option Nat :=
  let bs := maskBays o.gset
  let nb := bs.length
  match o.opc with
  | 0x01 => firstFault [(match o.rr with | some r => decide (r.n > nb * faceCols r.face) | none => true, 6)]
  | 0x03 => firstFault [(bs.any fun b => ((s.by b).recs.get o.ctx).isNone, 3), (decide ((opTile o).2 > nb * (opTile o).1), 6),
      (!o.first && bs.any fun b => !(chainIn s o.ctx b && (s.by b).fill.chain == o.chain), 3)]
  | 0x04 => firstFault [(decide ((opTile o).2 > nb * (opTile o).1), 6)]
  | 0x06 => firstFault [(decide ((foldShape o nb).1 ≥ o.da.vrows), 6),
      (decide ((foldShape o nb).2.2 > tileRows (opTile o).1 (fmtOf (iFO o.word))), 6),
      (!o.first && bs.any fun b => !(chainIn s o.ctx b && (s.by b).fill.chain == o.chain), 3)]
  | _ => none

/-- A bay begins a Truss operation as the `j`-th of its set: a first operation opens the filling bank (R31, R38, R44). -/
def beginBay (o : Op) (j : Nat) (y : BayState) : BayState :=
  let (cpb, n) := opTile o
  let y := { y with trussOn := true }
  if o.first then y.modBank y.fill1 fun k =>
    { k with st := .filling, chain := o.chain, ctx := o.ctx, acc := opAcc o, m := opRows o, n := min cpb (n - j * cpb),
             col0 := j * cpb, r := 0, e := 0, folded := none, cpb := cpb, taken := false, chk := [] }
  else y

/-- Each bay that raises a face again reads it through its own port (R203). -/
def readReraise (o : Op) (s : State) : State :=
  (reraiseReads s o).foldl (fun s x =>
    issueLines o x.2.1 (tierIn s x.2.1 false (heldRanges x.2.2.1.fmt x.2.2.1.db x.2.2.1.trans)) [x.1] x.2.2.2 s) s

/-- Each bay reads its own part of the operation's raises (R33, R122, R127). -/
def readRaises (o : Op) (s : State) : State :=
  let bs := maskBays o.gset
  match o.opc, o.rr with
  | 0x01, some r | 0x06, some r => bs.zipIdx.foldl (fun s x => issueReads o [x.1] (raisePart r x.2 (x.2 == 0)) s) s
  | 0x0C, _ => bs.zipIdx.foldl (fun s x => issueReads o [x.1] (roughPart o.db bs.length x.2) s) s
  | _, _ => s

/-- The streamed rows are read over the ports of all bays (R203). -/
def readStream (o : Op) (s : State) : State :=
  let bs := maskBays o.gset
  match o.opc with
  | 0x01 | 0x10B => s
  | 0x0C => issueReads o bs (viewRanges .gf4 o.da ++ auxReads .gf4 o.da false) s
  | 0x04 => issueReads o bs (viewRanges (fmtOf (iFA o.word)) o.da) s
  | _ => issueReads o bs (streamReads o) s

/-- Issues what a Truss operation reads from windows: its raises, then the rows it streams. -/
def readInputs (o : Op) (s : State) : State := readStream o (readRaises o (readReraise o s))

/-- The bays of the chain that a first operation opens (R40, R45). -/
def noteChain (o : Op) (s : State) : State :=
  if o.first then s.modCtx o.ctx fun x => { x with chains := x.chains.map fun k => if k.id == o.chain then { k with held := o.gset } else k }
  else s

/-- An fc in which a multi-bay operation waits on one bay counts in its LAG (R301). -/
def addLag (o : Op) (b : Bay) (k : Nat) (s : State) : State :=
  if k == 0 then s
  else
    let s := if s.cnt.frozen then s else s.modBay b fun x => { x with lag := satAdd x.lag k }
    s.modOf o fun o => { o with lags := o.lags ++ [(b, k)] }

/-- fc of the raises before the first slot: a face raised again, and a FOLD's own (R127, R171). -/
def raiseFc (o : Op) : Nat := (if o.reraise != 0 then 514 else 0) + (if o.opc == 0x06 then 514 else 0)

/-- Starts a Truss operation on its reserved bays (R31, R38, R44). -/
def startTruss (o : Op) (s : State) : State :=
  match trussFault s o with
  | some code => failOp o code s
  | none =>
    let bs := maskBays o.gset
    let o := { o with reraise := needsRaise s o, rr := if o.opc == 0x06 then some (foldRec o bs.length) else o.rr }
    let redo := (maskBays o.reraise).any fun b => (s.by b).redo
    let o := { o with stage := .granted, tGrant := s.clk, tFirst := s.clk, ran := 0,
                      tDue := s.clk + fcTime s (raiseFc o + opTime o bs.length), why := if redo then 10 else 0,
                      fc := if o.opc == 0x03 || o.opc == 0x06 then slotsOf (opRows o) (opRate o) else opTime o bs.length,
                      info := if o.opc == 0x03 || o.opc == 0x04 || o.opc == 0x06 then opRows o else 0 }
    let s := s.modOf o fun _ => o
    let s := bs.zipIdx.foldl (fun s x => s.modBay x.1 (beginBay o x.2)) s
    readInputs o (emitOp 0x02 o.engine o.gset.toNat o (noteGrant o (noteChain o s)))

/-- The bays whose wake or remap a reserved multi-bay operation has waited for since its last reservation, each for its own wait
(R301). -/
def waitLag (o : Op) (s : State) : State :=
  if (maskBays o.gset).length < 2 then s
  else (maskBays o.gset).foldl (fun s b => addLag o b ((s.by b).backRan - o.tRes) s) s

/-- Starts a reserved operation once all its bays run, no repair holds its Truss, and nothing holds its grant (R18, R227,
R228, R238, R240, R294). -/
def tryStart (start : Op → State → State) (o : Op) (s : State) : State :=
  match s.opOf o with
  | some o =>
    if o.stage == .waiting && o.resv == o.gset && o.gset != 0 && blockOpen s && !failoverHolds s o &&
        (maskBays o.gset).all fun b => (s.by b).pstate == .running && !bayHeld (!isT o) s b then
      let s := waitLag o s
      match s.opOf o with
      | some o => start o s
      | none => s
    else s
  | none => s

/-- Waiting operations lose the bays they reserved; those are idle from now on (R18, R241). -/
def unreserve (p : Op → Bool) (s : State) : State :=
  let lost (cls : OpClass) (x : Option (Ctx × BitVec 8)) : Bool :=
    x.any fun i => s.ops.any fun o => o.under i.1 i.2 && opClass o.opc == some cls && o.stage == .waiting && p o
  let t := s.clk
  { s with
    ops := s.ops.map fun o => if o.stage == .waiting && p o then { o with resv := 0, gset := 0 } else o
    bay := s.bay.map fun x =>
      { x with
        truss := if lost .t x.truss && !x.trussOn then none else x.truss
        drain := if lost .d x.drain && !x.drainOn then none else x.drain
        idleAt := if (lost .t x.truss && !x.trussOn) || (lost .d x.drain && !x.drainOn) then t else x.idleAt } }

/-- Asks for the wake of a bay that does not run (R240). -/
def askWake (b : Bay) (s : State) : State :=
  if (s.by b).pstate == .running || (s.by b).pstate == .waking || (s.by b).wakeReq then s
  else let t := s.clk; s.modBay b fun x => { x with wakeReq := true, wakeAt := t }

/-- The fc that a multi-bay operation has waited for bay b alone when it reserves it: since the bay before, and for its lowest bay since it
arrived and the others of its set were free, none where one of them is taken (R301; log entry 54). -/
def bayLag (drain : Bool) (s : State) (b : Bay) (o : Op) (set : BitVec 4) : Nat :=
  let rest := (maskBays set).filter (· != b)
  let taken (x : Bay) : Bool := if drain then (s.by x).drain.isSome else (s.by x).truss.isSome
  if rest.isEmpty then 0
  else if o.resv != 0 then s.damp.ran - o.tRes
  else if rest.any taken then 0
  else s.damp.ran - rest.foldl (fun n x => max n (s.by x).backRan) o.tRes

/-- Reserves one bay for an operation whose set is `set`; a bay it waited for counts the wait (R18, R301). -/
def reserve (drain : Bool) (b : Bay) (o : Op) (set : BitVec 4) (s : State) : State :=
  let id := (o.ctx, o.seq)
  let t := s.damp.ran
  let s := addLag o b (bayLag drain s b o set) s
  let s := s.modOf o fun o => { o with gset := set, resv := o.resv ||| (1#4 <<< b.val), tRes := t }
  let s := s.modBay b fun x => if drain then { x with drain := some id } else { x with truss := some id }
  askWake b s

/-- The ports of a block-level operation: of the bays of its context's current set that are in service (R168, R203). -/
def opPorts (s : State) (o : Op) : List Bay := s.portBays o.ctx

/-- Whether some ranges need a port of the current set, and no bay of it is left (R224, R271). -/
def portless (s : State) (c : Ctx) (rs : List Range) : Bool := rs.any (·.win) && (s.portBays c).isEmpty

/-! ### SCRUB (R192) -/

/-- Whether a bay is free for a SCRUB: no chain in progress, no operation granted, another SCRUB included; a mere reservation does not
count (R18, R192). -/
def scrubFree (s : State) (b : Bay) : Bool :=
  !(s.by b).trussOn && !(s.by b).drainOn && (s.by b).fill.st != .filling && !(s.by b).brst && !(s.by b).scanned && !s.dbg.commonScanned &&
    !(scrubbing s).contains b

/-- A SCRUB wakes those of its bays that sleep when they are free, and starts when all run (R192, R240). One that names a bay that is
outside TM's set at the grant, out of service, or going out, faults (R229, R271, R272). -/
def startScrub (o : Op) (s : State) : State :=
  let bs := maskBays (iBays o.word)
  if (iBays o.word &&& ~~~(s.curSet o.ctx)) != 0 || bs.any fun b => !s.inService b || (s.by b).outCmd.isSome then failOp o 0x03 s
  else if bs.all (scrubFree s) then
    let s := bs.foldl (fun s b => askWake b s) s
    if bs.all fun b => (s.by b).pstate == .running then
      let t := s.clk
      let d := t + fcTime s 17500
      let o := { o with stage := .granted, gset := iBays o.word, tGrant := t, tFirst := t, ran := 0, tDue := d }
      emitOp 0x02 o.engine o.gset.toNat o (s.modOf o fun _ => o)
    else s
  else s

end Sys2Proof.Machine
end

