-- ==== Sys2Proof/Machine/Map.lean ====
section
/-! DEFINITION. The register map: the kind of each register, what the units hold there, and the shadows (R217, R250, R303 to
R317). -/

namespace Sys2Proof.Machine

open Sys2Proof

/-! ### The map (R304, R306 to R317) -/

/-- Kinds of register: native, or shadowed with the domain that owns it; `wake` marks the wake sources. -/
inductive RegKind
  | native
  | shadow (d : Domain) (wake : Bool)
  deriving DecidableEq, Repr

/-- The context an address belongs to, and its offset. -/
def ctxAddr (n : Nat) : Option (Ctx × Nat) :=
  if 0x1800 ≤ n && n < 0x1900 then some (tm, n - 0x1800)
  else if h : 0x2000 ≤ n ∧ n < 0x4000 then some (⟨(n - 0x2000) / 0x400, by omega⟩, (n - 0x2000) % 0x400)
  else none

def ctxKind (off : Nat) : Option RegKind :=
  let s : Option RegKind := some (.shadow .common false)
  let n : Option RegKind := some .native
  match off with
  | 0x000 | 0x008 | 0x00C | 0x010 | 0x028 | 0x02C | 0x030 | 0x040 | 0x044 | 0x048 | 0x058 | 0x060 | 0x068 | 0x0C0 => n
  | 0x018 | 0x038 | 0x0F0 => some (.shadow .common true)
  | 0x014 | 0x01C | 0x034 | 0x03C | 0x04C | 0x050 | 0x054 | 0x064 | 0x070 | 0x074 | 0x078 | 0x07C => s
  | 0x0C4 | 0x0D0 | 0x0D4 | 0x0D8 | 0x0DC | 0x0E0 | 0x0E4 | 0x0E8 => s
  | o => if 0x080 ≤ o && o < 0x0C0 && o % 4 == 0 then s else none

def globalKind (n : Nat) : Bool :=
  [0x0000, 0x0004, 0x0008, 0x0010, 0x0014, 0x0040, 0x0050, 0x0100, 0x0104, 0x0108, 0x010C, 0x0110, 0x0120, 0x0124, 0x0128, 0x0130,
    0x0134, 0x0140, 0x0200, 0x0204].contains n || decide (0x0800 ≤ n)

/-- The bay whose 0x400 or 0x100 or 0x10 block an address lies in. -/
def blockBay (s : State) (i : Nat) : Option Bay := if h : i < 4 then (if s.present ⟨i, h⟩ then some ⟨i, h⟩ else none) else none

/-- The kind of the register at an address, none where it is reserved (R24, R305). DESIGN CHOICE (log entry 51): the WAIT_ON
addresses of engines of absent bays are registers that read 0, since R317 names e = 0 to 14 in every build. -/
def regKind (s : State) (n : Nat) : Option RegKind :=
  let nat (b : Bool) : Option RegKind := if b then some .native else none
  let com (b : Bool) : Option RegKind := if b then some (.shadow .common false) else none
  if n % 4 != 0 then none
  else if n < 0x1000 then nat (globalKind n)
  else if n < 0x1800 then
    nat (n == 0x1000 || (decide (0x1010 ≤ n) && decide (n < 0x1034)) || (decide (0x1040 ≤ n) && decide (n < 0x1064)) ||
      (decide (0x1100 ≤ n) && decide (n < 0x1500) && n % 16 != 12))
  else
    match ctxAddr n with
    | some (_, off) => ctxKind off
    | none =>
      if n < 0x1C00 then nat ([0x1900, 0x1904, 0x1908, 0x1920, 0x1924, 0x1930, 0x1940, 0x1944].contains n)
      else if n < 0x4000 then none
      else if n < 0x5000 then
        match blockBay s ((n - 0x4000) / 0x400), n % 0x400 with
        | some b, 0x018 => some (.shadow (.bay b) false)
        | some _, o => nat ([0x000, 0x004, 0x010, 0x014, 0x01C].contains o)
        | none, _ => none
      else if n < 0x5800 then
        match blockBay s ((n - 0x5000) / 0x100) with
        | some b => if n % 0x100 < 0x80 && n % 0x100 != 0x1C then some (.shadow (.bay b) false) else none
        | none => none
      else if n < 0x6000 then
        if n == 0x58F0 then some .native else com (n < 0x5818 || (decide (0x5820 ≤ n) && decide (n < 0x58E0)))
      else if n < 0x6400 then com (n < 0x6240 && [0x00, 0x04, 0x08, 0x0C, 0x10, 0x14, 0x18].contains (n % 0x40))
      else if n < 0x7000 then
        if n == 0x6400 || n == 0x6404 || n == 0x6480 || n == 0x6484 then com true
        else if 0x6410 ≤ n && n < 0x6450 && n % 0x10 < 8 then (blockBay s ((n - 0x6410) / 0x10)).map fun b => .shadow (.bay b) false
        else none
      else if n == 0x7000 then some (.shadow .common true)
      else if n == 0x7010 || n == 0x7014 || n == 0x7018 then some .native
      else com ((decide (0x7100 ≤ n) && decide (n < 0x713C)) || (decide (0x7140 ≤ n) && decide (n < 0x7188)))

/-! ### What registers hold -/

/-- Whether a bay has a checksum column (R260). -/
def hasChecksum (x : BayState) : Bool := x.spares.contains .checksum

/-- Entries of the completion queue (R165). -/
def CtxState.cqEntries (x : CtxState) : Nat := 2 ^ x.cqSize.toNat

/-- Whether the completion queue has room (R165). -/
def cqRoom (x : CtxState) : Bool := (x.cqWrite.toNat + 1) % x.cqEntries != x.cqHead.toNat

/-- QM_STATE and QP_STATE (R148, R149). -/
def queueState (s : State) (c : Ctx) (q : QSel) : Nat :=
  match (s.cx c).mode with
  | .stopped => 0
  | .faulted => 4
  | .active =>
    if s.dbg.halted then 5
    else if (s.qu c q).waiting then 3
    else if (s.qu c q).count == 0 && (s.qu c q).loop.isNone then 1 else 2

/-- Records of a completion queue that the driver has not freed (R165). -/
def cqUnread (x : CtxState) : Nat := (x.cqTail.toNat + x.cqEntries - x.cqHead.toNat) % x.cqEntries

/-- IRQ_STAT (R315). -/
def irqStat (x : CtxState) : Nat :=
  (decide (x.cqIrq.toNat ≠ 0 ∧ x.cqIrq.toNat ≤ cqUnread x)).toNat + 2 * x.irqFault.toNat + 4 * x.irqEpoch.toNat

def hiLo (v : Nat) (hi : Bool) : Nat := if hi then v / 2 ^ 32 % 2 ^ 32 else v % 2 ^ 32

/-- A context register (R311). -/
def ctxRead (s : State) (c : Ctx) (off : Nat) : Nat :=
  let x := s.cx c
  let qq (q : Queue) (st : Nat) (o : Nat) : Nat :=
    match o with
    | 0x008 => q.baseLo.toNat
    | 0x00C => q.baseHi.toNat
    | 0x010 => q.size.toNat
    | 0x014 => q.head.toNat
    | 0x018 => q.tail.toNat
    | 0x01C => st
    | _ => 0
  match off with
  | 0x000 => x.feat.toNat + 2 ^ 31 * x.acked.toNat
  | 0x040 => x.cqLo.toNat
  | 0x044 => x.cqHi.toNat
  | 0x048 => x.cqSize.toNat
  | 0x04C => x.cqTail.toNat
  | 0x050 => x.cqHead.toNat
  | 0x054 => x.cqFull.toNat + 2 * x.cqPhase.toNat
  | 0x058 => x.cqIrq.toNat
  | 0x060 => x.descBase.toNat
  | 0x064 => stickyWord (Config.bays s.build) x.sticky
  | 0x068 => x.replayEn.toNat + 16 * x.replaySh.toNat
  | 0x070 => (x.cullet.get 0).toNat
  | 0x074 => (x.cullet.get 1).toNat
  | 0x078 => (x.cullet.get 2).toNat
  | 0x07C => (x.cullet.get 3).toNat
  | 0x0C0 => x.wdog.toNat
  | 0x0C4 => irqStat x
  | 0x0D0 => x.fault.code.toNat + 256 * x.fault.cls.toNat + 2048 * x.fault.prioQ.toNat + 65536 * x.fault.index.toNat
  | 0x0D4 => x.fault.aux.toNat
  | 0x0D8 => hiLo x.fault.time.toNat false
  | 0x0DC => hiLo x.fault.time.toNat true
  | 0x0E0 => (s.curSet c).toNat + 16 * x.alt.toNat + 256 * x.epoch.toNat
  | 0x0E4 => x.fault.count.toNat
  | 0x0E8 => x.nset.toNat + 16 * x.nleft.toNat
  | 0x0F0 => 2 * x.rstBusy.toNat
  | o =>
    if h : 0x080 ≤ o ∧ o < 0x0C0 then (x.sem.get ⟨(o - 0x080) / 4, by omega⟩).toNat
    else if o < 0x020 then qq x.qm (queueState s c .main) o
    else qq x.qp (queueState s c .prio) (o - 0x020)

/-- One log entry (R276). -/
def logRead (e : Option LogEntry) (off : Nat) : Nat :=
  match e with
  | none => 0
  | some e =>
    match off with
    | 0x00 => e.code.toNat + 256 * e.cls.toNat + 2048 + 4096 * e.ctx.toNat + 65536 * e.typ.toNat
    | 0x04 => e.id.toNat
    | 0x08 => hiLo e.first.toNat false
    | 0x0C => hiLo e.first.toNat true
    | 0x10 => hiLo e.last.toNat false
    | 0x14 => hiLo e.last.toNat true
    | 0x18 => e.count.toNat
    | _ => 0

def buildWord (s : State) : Nat := s.g.blkId.toNat + 65536 * (s.g.blkId.toNat % 32) + 2 ^ 24 * Config.buildCode s.build

/-- A global register (R306 to R309). -/
def globalRead (s : State) (tag n : Nat) : Nat :=
  let g := s.g
  match n with
  | 0x0000 => 0x0F160001
  | 0x0004 => (Config.featCap s.build).toNat
  | 0x0008 => if h : tag < 16 then (s.regs.rdAge.get ⟨tag, h⟩).toNat else 0
  | 0x0010 => g.portTmo.toNat
  | 0x0014 => g.xchTmo.toNat
  | 0x0050 => s.boot.intr.toNat + 2 * g.foStatDone.toNat + 4 * g.repDone.toNat + 8 * s.ras.pend.toNat
  | 0x0100 => g.pwrCap.toNat
  | 0x0104 => s.damp.n.toNat + 128 * s.damp.hard.toNat + 256 * s.damp.wwait.toNat + 65536 * s.damp.est.toNat
  | 0x0108 => g.bayPolicy.toNat
  | 0x010C => g.pgDelay.toNat
  | 0x0110 => g.opTgt.toNat + 2 * g.opCur.toNat + 4 * g.opBusy.toNat
  | 0x0120 => s.boot.phase.toNat + 8 * s.boot.ready.toNat + 16 * s.boot.cfail.toNat + 32 * s.boot.intr.toNat + 256 * s.boot.bfail.toNat
  | 0x0124 => buildWord s
  | 0x0128 => g.ringAddr.toNat + 2 ^ 31 * g.ringValid.toNat
  | 0x0130 => hiLo (timebase s) false
  | 0x0134 => hiLo (timebase s) true
  | 0x0140 => g.narrow.toNat + 256 * g.thresh.toNat + 65536 * g.hold.toNat
  | 0x0200 => s.ras.pend.toNat + 2 * s.ras.lastEnt.toNat + 65536 * s.ras.lost.toNat
  | 0x0204 => g.failWin.toNat
  | _ => if h : 0x0800 ≤ n ∧ n < 0x1000 then logRead (s.ras.log.get ⟨(n - 0x0800) / 32, by omega⟩) (n % 32) else 0

/-- The level of the line IRQ_BLK (R309). -/
def irqBlk (s : State) : Bool := globalRead s 8 0x0050 != 0

/-- The level of the line IRQ_CTX[n] (R315). -/
def irqCtx (s : State) (c : Ctx) : Bool := irqStat (s.cx c) != 0

/-- The level of the pin HALT_OUT (R294). -/
def haltOut (s : State) : Bool := s.dbg.halted && s.dbg.houtEn

/-- A protection register (R197, R198, R220, R223). -/
def protRead (p : Prot) (n : Nat) : Nat :=
  if n == 0x1000 then p.lock.toNat
  else if h : 0x1010 ≤ n ∧ n < 0x1034 then
    (p.pri.get ⟨(n - 0x1010) / 4, by omega⟩).toNat + 16 * (p.alt.get ⟨(n - 0x1010) / 4, by omega⟩).toNat
  else if h : 0x1040 ≤ n ∧ n < 0x1064 then
    let x := p.part.get ⟨(n - 0x1040) / 4, by omega⟩
    x.first.toNat + 65536 * x.last.toNat + 2 ^ 31 * x.en.toNat
  else if h : 0x1100 ≤ n ∧ n < 0x1500 then
    let x := p.window.get ⟨(n - 0x1100) / 16, by omega⟩
    match n % 16 with
    | 0 => x.base.toNat
    | 4 => x.last.toNat
    | 8 => x.en.toNat + 2 * x.wr.toNat + 4 * x.tier.toNat + 16 * x.owner.toNat
    | _ => 0
  else 0

/-- FO_STAT, FO_TMO, REP_STAT, NOTIFY_ADDR and the peer registers; FO_CMD and REP_CMD read 0. -/
def tmRead (s : State) (n : Nat) : Nat :=
  let g := s.g
  match n with
  | 0x1904 => g.failover.isSome.toNat + 2 * g.foStatDone.toNat + 4 * g.foForced.toNat + 16 * g.foCtx.toNat
  | 0x1908 => g.foTmo.toNat
  | 0x1924 => g.repBusy.toNat + 2 * g.repDone.toNat
  | 0x1930 => g.notify.toNat + 2 ^ 31 * g.notifyEn.toNat
  | 0x1940 => g.peerBase.toNat
  | 0x1944 => g.peerCount.toNat
  | _ => 0

def SpareUse.code : SpareUse → Nat
  | .free => 0
  | .checksum => 1
  | .data => 2
  | .retired => 3

def PState.code : PState → Nat
  | .powerGated => 0
  | .clockStopped => 1
  | .waking => 2
  | .running => 3

/-- ROW_SPARE (R316). -/
def rowSpare (x : BayState) : Nat :=
  let stg := x.rows.filter (·.1 < 64)
  let tb := x.rows.filter (64 ≤ ·.1)
  (stg.map (·.2)).sum % 512 + 65536 * ((tb.map (·.2)).sum % 512) + 2 ^ 25 * (stg.any (4 ≤ ·.2)).toNat + 2 ^ 26 * (tb.any (4 ≤ ·.2)).toNat

/-- A bay register (R316, and the bay repair registers). -/
def bayRead (s : State) (b : Bay) (off : Nat) : Nat :=
  let x := s.by b
  match off with
  | 0x000 => 2 * x.brst.toNat
  | 0x004 => x.pstate.code + 65536 * x.wakes.toNat
  | 0x010 =>
    x.spares.countP (· == .free) + (x.spares.zipIdx.map fun y => y.1.code * 4 ^ (y.2 + 1)).sum + 256 * (!hasChecksum x).toNat + 512 * x.oos.toNat +
      1024 * x.bistOk.toNat + 2048 * (match s.ras.lane with | some (l, _) => l == b | none => false).toNat
  | 0x014 => (x.remap.map fun y => 2 ^ y.1).sum
  | 0x018 => x.abftSkip.toNat
  | 0x01C => rowSpare x
  | _ => 0

/-- A counter of a bay's block (R282). -/
def bayCount (x : BayState) (off : Nat) : Nat :=
  match off with
  | 0x00 => hiLo x.busyCyc.toNat false
  | 0x04 => hiLo x.busyCyc.toNat true
  | 0x08 => hiLo x.opsRet.toNat false
  | 0x0C => hiLo x.opsRet.toNat true
  | 0x10 => x.eccCor.toNat
  | 0x14 => x.eccUnc.toNat
  | 0x18 => x.lag.toNat
  | o =>
    if h : 0x20 ≤ o ∧ o < 0x60 then hiLo (x.sel.get ⟨(o - 0x20) / 8, by omega⟩).cnt.toNat (o % 8 == 4)
    else if h : 0x60 ≤ o ∧ o < 0x80 then (x.sel.get ⟨(o - 0x60) / 4, by omega⟩).cfg.toNat
    else 0

/-- A counter of the block, or CNT_CTL (R282, R285). -/
def blockCount (s : State) (n : Nat) : Nat :=
  match n with
  | 0x5800 => hiLo s.cnt.busy.toNat false
  | 0x5804 => hiLo s.cnt.busy.toNat true
  | 0x5808 => hiLo s.cnt.ops.toNat false
  | 0x580C => hiLo s.cnt.ops.toNat true
  | 0x5810 => min 0xFFFFFFFF ((s.bays.map fun b => (s.by b).eccCor.toNat).sum)
  | 0x5814 => min 0xFFFFFFFF ((s.bays.map fun b => (s.by b).eccUnc.toNat).sum)
  | 0x58F0 => s.cnt.freeze.toNat + 2 * s.cnt.pinEn.toNat + 4 * s.cnt.frozen.toNat
  | n =>
    if h : 0x5820 ≤ n ∧ n < 0x58A0 then hiLo (s.cnt.gsel.get ⟨(n - 0x5820) / 8, by omega⟩).cnt.toNat (n % 8 == 4)
    else if h : 0x58A0 ≤ n ∧ n < 0x58E0 then (s.cnt.gsel.get ⟨(n - 0x58A0) / 4, by omega⟩).cfg.toNat
    else 0

def ringRead (r : Ring) (off : Nat) : Nat :=
  match off with
  | 0x00 => r.baseLo.toNat
  | 0x04 => r.baseHi.toNat
  | 0x08 => r.size.toNat
  | 0x0C => r.wr.toNat
  | 0x10 => r.rd.toNat
  | 0x14 => r.en.toNat + 2 * r.stall.toNat + 4 * r.all.toNat
  | 0x18 => r.lost.toNat
  | _ => 0

def tbCtl (t : TraceBuf) : Nat := t.mode.toNat + 4 * t.en.toNat + 16 * t.pre.toNat

def tbStat (bay : Bool) (t : TraceBuf) : Nat :=
  t.triggered.toNat + 2 * t.done.toNat + 4 * (decide (TraceBuf.cap bay ≤ t.recs.length + t.post.length)).toNat + 65536 * t.lost.toNat

/-! WAIT_ON (R293). -/

def waitWord (reason kind ctx seq target : Nat) : Nat := reason + 16 * kind + 256 * ctx + 4096 * seq + 2 ^ 20 * target

/-- The wait of an operation for its bays: those of a set that are all out of service (R224), an admission of a wake, a bank, the
Truss or the drain path, in this order. -/
def bayWait (s : State) (r : Nat) (o : Op) : Nat :=
  let w (kind : Nat) (b : Option Bay) : Nat := waitWord r kind (ctxCode o.ctx) o.seq.toNat ((b.map Fin.val).getD 0)
  let bs := maskBays (aim s o)
  let low := bs.head?
  if !bs.any s.inService then w 2 low
  else if bs.any fun b => (s.by b).wakeHeld then waitWord r 10 (ctxCode o.ctx) o.seq.toNat 0
  else if isT o then
    match bs.find? fun b => !o.resv.getLsb b && !trussFits s b o with
    | some b => w 4 (some b)
    | none => w 2 (bs.find? fun b => !o.resv.getLsb b)
  else if opClass o.opc == some .d then
    match bs.find? fun b => !o.resv.getLsb b && !((o.takes.filter (·.1 == b)).any fun t => (bankOf? s b o.ctx t.2).any (·.st == .complete)) with
    | some b => w 4 (some b)
    | none => w 3 (bs.find? fun b => !o.resv.getLsb b)
  else w 2 low

/-- The operation an engine holds, or that waits for it, a SCRUB among those of a bay. -/
def engineOp (s : State) (e : Nat) (c : Ctx) : Option Op :=
  if h : e < 8 then
    let b : Bay := ⟨e % 4, by omega⟩
    let unit := if e < 4 then (s.by b).truss else (s.by b).drain
    let on := if e < 4 then (s.by b).trussOn else (s.by b).drainOn
    let cls : OpClass := if e < 4 then .t else .d
    if on then unit.bind (unitOp s cls)
    else s.ops.find? fun o => o.ctx == c && (opClass o.opc == some cls || (e < 4 && o.opc == 0x22)) && o.stage == .waiting && (aim s o).getLsb b && !(isT o && earlierWaits s o)
  else if e == 11 then
    s.lehr.bind fun j => (s.ops.find? fun o => o.under j.ctx j.seq && o.stage == .waiting).orElse fun _ => s.op? j.ctx j.seq
  else s.ops.find? fun o => o.ctx == c && o.engine == e

/-- The operation whose zeroing or commit keeps others from staging (R162, R192). -/
def stagingHolder (s : State) : Option Op :=
  (s.ops.find? fun o => o.opc == 0x22 && o.stage == .granted).orElse fun _ =>
    allCtx.findSome? fun c => ((s.cx c).lockWin.bind (·.unlock)).bind (s.op? c)

/-- The semaphore that a held WAIT or SIGNAL of a queue names. -/
def semWait (s : State) (c : Ctx) (q : QSel) : Nat :=
  waitWord 7 5 (ctxCode c) (s.cx c).seq.toNat (ctxCode c * 256 + ((nextInst s c q).map fun w => iImm w % 16).getD 0)

/-- What an engine's operation waits for. -/
def engineWait (s : State) (e : Nat) : Nat :=
  match engineState s e with
  | (some c, r) =>
    if ((bufOf s (traceBay e)).recs.drop (TraceBuf.cap (traceBay e).isSome)).any (·.eng == e) then
      waitWord 0 11 (ctxCode c) (((engineOp s e c).map (·.seq.toNat)).getD 0) 0
    else if e == 13 then (if r != 7 then 0 else if (s.qu c .main).waiting || (s.qu c .main).sigWait then semWait s c .main else semWait s c .prio)
    else if e == 14 then (if cqRoom (s.cx c) then 0 else waitWord r 11 (ctxCode c) 0 0)
    else
      match engineOp s e c with
      | some o =>
        let held := stagingHolder s
        if o.stage == .waiting && sourceHolds s (if e < 8 then e % 4 else e - 5) then
          waitWord r 8 (ctxCode c) o.seq.toNat 0
        else if o.stage == .waiting && (e < 8 || (e == 11 && o.opc != 0x0B && o.opc != 0x30B)) then bayWait s r o
        else if r == 6 then waitWord r 6 (ctxCode c) o.seq.toNat o.peer
        else if o.rds != 0 || o.wrs != 0 then
          waitWord (if r == 0 then 5 else r) 7 (ctxCode c) o.seq.toNat (((opPorts s o).head?.map Fin.val).getD 0)
        else if r == 3 && accessWaits s o && held.isSome then
          waitWord r 1 (ctxCode c) o.seq.toNat ((held.map fun p => ctxCode p.ctx * 256 + p.seq.toNat).getD 0)
        else if r == 0 then 0 else waitWord r 0 (ctxCode c) o.seq.toNat 0
      | none => waitWord r 0 (ctxCode c) 0 0
  | (none, _) => 0

/-- An operation of a queue that finds no bay left (R224, R271). -/
def strandedOp (s : State) (c : Ctx) (q : QSel) : Option Op :=
  s.ops.find? fun o => o.ctx == c && o.q == q && !(maskBays (aim s o)).any s.inService && aim s o != 0 &&
    ((o.stage == .waiting && opClass o.opc != some .c && o.opc != 0x22) ||
      (o.stage == .granted && o.opc == 0x0B && o.da.loc && o.rds == 0 && o.got.isEmpty))

/-- What the instruction at the head of a queue waits for; when it does not wait, what an operation of the queue waits for. -/
def queueWait (s : State) (c : Ctx) (q : QSel) : Nat :=
  let x := s.qu c q
  let seq := (s.cx c).seq.toNat
  let onOp (o : Op) : Nat := waitWord 0 1 (ctxCode c) seq (ctxCode c * 256 + o.seq.toNat)
  let behind : Nat :=
    match s.ops.find? fun o => o.ctx == c && o.q == q && o.stage == .waiting && (isT o || opClass o.opc == some .d) with
    | some o => bayWait s 0 o
    | none => 0
  match strandedOp s c q with
  | some o => waitWord 0 2 (ctxCode c) o.seq.toNat (((maskBays (aim s o)).head?.map Fin.val).getD 0)
  | none =>
    match (s.cx c).mode, nextInst s c q with
    | .active, some w =>
      if noPort s c w then waitWord 0 2 (ctxCode c) seq (((maskBays (s.curSet c)).head?.map Fin.val).getD 0)
      else if x.waiting || x.sigWait then semWait s c q
      else if cpHolds s c then waitWord 0 8 (ctxCode c) seq 0
      else
        match s.ops.find? fun o => o.ctx == c && o.opc == 0x0B && o.stage == .waiting with
        | some _ => waitWord 0 9 (ctxCode c) seq 0
        | none =>
          if preHold s c q w || ownHold s c q w then
            match x.prev.bind fun p => s.op? c p with
            | some o => onOp o
            | none => match s.ops.find? fun o => o.ctx == c && o.q == q with | some o => onOp o | none => 0
          else behind
    | _, _ => behind

/-- The trace range (R288 to R291). -/
def traceRead (s : State) (n : Nat) : Nat :=
  if h : 0x6000 ≤ n ∧ n < 0x6240 then ringRead (s.trace.rings.get ⟨(n - 0x6000) / 0x40, by omega⟩) (n % 0x40)
  else match n with
    | 0x6400 => tbCtl s.trace.buf
    | 0x6404 => tbStat false s.trace.buf
    | 0x6480 => s.trace.src.toNat + 256 * s.trace.ttype.toNat
    | 0x6484 => s.trace.tlayer.toNat
    | n =>
      match blockBay s ((n - 0x6410) / 0x10), n % 0x10 with
      | some b, 0 => tbCtl (s.by b).tbuf
      | some b, 4 => tbStat true (s.by b).tbuf
      | _, _ => 0

/-- The debug range (R293, R294, R296). -/
def debugRead (s : State) (n : Nat) : Nat :=
  let d := s.dbg
  match n with
  | 0x7000 => d.halt.toNat + 2 * d.halted.toNat + 4 * d.force.toNat + 8 * d.hinEn.toNat + 16 * d.houtEn.toNat
  | 0x7010 => d.snapLo.toNat
  | 0x7014 => d.snapHi.toNat
  | 0x7018 => d.snapSel.toNat + 512 * d.snapBusy.toNat + 1024 * d.snapErr.toNat
  | n =>
    if n < 0x7140 then engineWait s ((n - 0x7100) / 4)
    else match ctxOfCode ((n - 0x7140) / 8) with
      | some c => queueWait s c (if n % 8 == 0 then .main else .prio)
      | none => 0

/-- What the unit that owns a register holds there, as the tag reads it. -/
def regValue (s : State) (tag n : Nat) : Word :=
  BitVec.ofNat 32 (
    if n < 0x1000 then globalRead s tag n
    else if n < 0x1800 then protRead s.prot n
    else match ctxAddr n with
      | some (c, off) => ctxRead s c off
      | none =>
        if n < 0x4000 then tmRead s n
        else if n < 0x5000 then (match blockBay s ((n - 0x4000) / 0x400) with | some b => bayRead s b (n % 0x400) | none => 0)
        else if n < 0x5800 then (match blockBay s ((n - 0x5000) / 0x100) with | some b => bayCount (s.by b) (n % 0x100) | none => 0)
        else if n < 0x6000 then blockCount s n
        else if n < 0x7000 then traceRead s n
        else debugRead s n)

/-! ### Shadows and reads (R217, R219) -/

def awake (s : State) (d : Domain) : Bool :=
  match d with
  | .common => s.fastOn
  | .bay b => (s.by b).pstate == .running && s.fastOn

def shadowOf (s : State) (n : Nat) : Option Shadow := s.regs.shadows.find? fun x => x.addr.toNat == n

def setShadow (n : Nat) (v : Word) (s : State) : State :=
  let x : Shadow := ⟨BitVec.ofNat 16 n, v, s.clk⟩
  { s with regs := { s.regs with shadows := s.regs.shadows.filter (fun y => y.addr.toNat != n) ++ [x] } }

/-- The write posted to a register of a sleeping domain, 0 for none (R218). -/
def postedAt (s : State) (n : Nat) : Word := ((s.regs.posted.find? fun x => x.1.toNat == n).map (·.2)).getD 0

/-- The value that a shadow takes from its domain; the W1C bits of IRQ_STAT whose clearing still waits for the wake stay clear (R218). -/
def shadowValue (s : State) (n : Nat) : Word :=
  match ctxAddr n with
  | some (_, 0x0C4) => regValue s 0 n &&& ~~~(postedAt s n &&& 6)
  | _ => regValue s 0 n

/-- The shadow of a register takes the value its domain holds. -/
def refresh (n : Nat) (s : State) : State := setShadow n (shadowValue s n) s

/-- Addresses of the shadowed registers. -/
def shadowAddrs (s : State) : List Nat :=
  let ctx := (allCtx.map fun c => if c == tm then 0x1800 else 0x2000 + 0x400 * c.val).flatMap fun a => (List.range 64).map fun i => a + 4 * i
  let bay := (List.range 4).flatMap fun b => (0x4018 + 0x400 * b) :: (List.range 32).map fun i => 0x5000 + 0x100 * b + 4 * i
  let rest := (List.range 56).map (fun i => 0x5800 + 4 * i) ++ (List.range 144).map (fun i => 0x6000 + 4 * i) ++
    (List.range 34).map (fun i => 0x6400 + 4 * i) ++ [0x7000] ++ (List.range 34).map fun i => 0x7100 + 4 * i
  (ctx ++ bay ++ rest).filter fun n => match regKind s n with | some (.shadow _ _) => true | _ => false

/-- Refreshes the registers of a context that native writes and units of the furnace change (R217). -/
def refreshNative (c : Ctx) (s : State) : State :=
  let a := if c == tm then 0x1800 else 0x2000 + 0x400 * c.val
  [0x01C, 0x03C, 0x0C4, 0x0E0].foldl (fun s o => refresh (a + o) s) s

/-- Refreshes the shadows of every domain that `p` names. -/
def refreshAll (p : Domain → Bool) (s : State) : State :=
  (shadowAddrs s).foldl (fun s n => match regKind s n with | some (.shadow d _) => if p d then refresh n s else s | _ => s) s

/-- What a shadow that no refresh has reached returns (R250): the reset value, which for CURSET is PRI (R223). -/
def resetValue (s : State) (tag n : Nat) : Word :=
  regValue { State.reset with build := s.build, prot := { State.reset.prot with pri := s.prot.pri } } tag n

/-- The age record of RD_AGE for a value of a register taken at time `t` (R217). -/
def ageWord (s : State) (n t : Nat) : Nat :=
  match regKind s n with
  | some (.shadow d _) => min 0xFFFF ((s.clk - t) / ucLen) + 65536 + 131072 * (!awake s d).toNat
  | _ => 0

/-- The value a read returns and the time it was taken; while the block is halted every WAIT_ON is exact (R293). -/
def readTaken (s : State) (tag n : Nat) : Word × Nat :=
  match regKind s n with
  | some (.shadow _ _) =>
    if s.dbg.halted && 0x7100 ≤ n then (regValue s tag n, s.clk)
    else match shadowOf s n with
      | some x => (x.val, x.time)
      | none => (resetValue s tag n, s.clk)
  | _ => (regValue s tag n, s.clk)

/-- The value a read returns, with the age record of RD_AGE. -/
def readValue (s : State) (tag n : Nat) : Word × Nat :=
  let x := readTaken s tag n
  (x.1, ageWord s n x.2)

/-- A running clock stops: its shadows are refreshed once more (R217). -/
def stopShadows (b : Bay) (s : State) : State :=
  if awake s (.bay b) then refreshAll (· == .bay b) s else s

end Sys2Proof.Machine
end

