-- ==== Sys2Proof/Machine/Truss.lean ====
section
/-! DEFINITION. The Truss and the drain path: faces, passes with withholding and replay, seeds, rough-out, drains. -/

namespace Sys2Proof.Machine

open Sys2Proof

/-! ### Faces (R25 to R31, R69, R70, R107, R260) -/

/-- A value whose shared scale raised INV enters as a signalling NaN (R64). -/
def markInv (v : Val × Flags) : Val := if v.2.inv then .nan true else v.1

/-- Element (k, n) of a held operand, k and n relative to its view, with the flags of its expansion. DESIGN CHOICE (log entry
51): byte 3 of a group record, which R70 requires to be 0, is ignored. -/
def heldVal (rd : Rd) (r : RaiseRec) (csr : List (List Nat)) (k n : Nat) : Val × Flags :=
  let d := r.db
  let (i, j) := if r.trans then (n, k) else (k, n)
  let row := d.vrow0 + i
  let col := d.vcol0 + j
  let code : Option Nat :=
    match sform d, r.mask with
    | 1, _ => some ((((csr[i]?).getD [])[j]?).getD 0)
    | 2, some m => sparseCode rd r.fmt d m row col
    | _, _ => some (codeAt rd r.fmt d i j)
  match code with
  | none => (Val.zero false, {})
  | some c =>
    if fctlXmode d.fctl == 1 then
      let e := leNat (rdBytes rd d.auxLoc (d.aux + 2 * c) 2)
      (decodeFmt (fctlXfmt d.fctl) e, {})
    else if fctlXmode d.fctl == 2 then
      let g := 32 * 2 ^ fctlXgrp d.fctl
      let kt := if r.trans then d.tcols else d.trows
      let (kk, nn) := if r.trans then (col, row) else (row, col)
      let a := d.aux + 4 * (nn * ceilDiv' kt g + kk / g)
      let s := leNat (rdBytes rd d.auxLoc a 2)
      let (x, f) := expandCode 2 (fctlXfmt d.fctl) r.fmt c s (signedOf 8 (rd d.auxLoc (a + 2)).toNat)
      (decodeFmt (fctlXfmt d.fctl) x, f)
    else (markInv (scaledVal rd r.fmt d (heldRowsK d r.trans) row col c), {})

/-- Columns `n0` to `n0 + cnt − 1` of the held operand, each in ascending k, with flags and dropped CSR entries. -/
def heldCols (rd : Rd) (r : RaiseRec) (n0 cnt : Nat) : List (List Val) × Flags × Drops :=
  let rows := if sform r.db == 1 then (List.range r.db.vrows).map (csrExpand rd r.fmt r.db) else []
  let csr := rows.map (·.1)
  let drops := rows.foldl (fun a x => a.add x.2.1) {}
  let cols := (List.range cnt).map fun n => (List.range r.k).map fun k => heldVal rd r csr k (n0 + n)
  (cols.map (·.map (·.1)), Flags.union (cols.flatMap (·.map (·.2))), drops)

/-- Counts dropped entries (R125). -/
def addDrops (c : Ctx) (d : Drops) (s : State) : State :=
  s.modCtx c fun x =>
    let v := x.cullet
    let v := v.set 0 (satAdd (v.get 0) d.idx)
    let v := v.set 1 (satAdd (v.get 1) d.row)
    { x with cullet := v.set 2 (satAdd (v.get 2) d.dup) }

def mkFace (cols : List (List Val)) : Face := ⟨cols, cols.any (·.any fun v => !v.isFin)⟩

/-- Writes the face of a record into the joints of bay b, its rank among the bays in the record (R27, R31). -/
def loadFace (o : Op) (b : Bay) (c : Ctx) (r : RaiseRec) (fold : Bool) (s : State) : State :=
  let cpb := faceCols r.face
  let (cols, fl, _) := heldCols (opRead s o) r (r.rank * cpb) (min cpb (r.n - r.rank * cpb))
  let s := s.modBay b fun y => { y with face := some (mkFace cols), tag := some ⟨c, r, fold⟩, redo := false }
  if fctlXmode r.db.fctl == 2 then raiseFlags c b fl s else s

/-- Writes the faces of a raise into all its bays. -/
def loadFaces (o : Op) (r : RaiseRec) (fold : Bool) (s : State) : State :=
  (maskBays o.gset).zipIdx.foldl (fun s x => loadFace o x.1 o.ctx { r with rank := x.2 } fold s) s

/-- Entries of a CSR row that are read, dropped ones among them (R115, R116). -/
def csrRead (rd : Rd) (d : Desc) (i : Nat) : Nat := let (es, dr) := csrRow rd d (d.vrow0 + i); es.length + dr.idx

/-- Extra raise fc of a dense-populated CSR face (R116). -/
def csrExtra (rd : Rd) (r : RaiseRec) : Nat :=
  if sform r.db != 1 then 0
  else
    let per := max 1 ((faceOf r.face).1 / 512)
    let cnt := (List.range r.db.vrows).map fun i => csrRead rd r.db i
    ((List.range (ceilDiv' r.db.vrows per)).map fun t => ceilDiv' (((cnt.drop (t * per)).take per).sum) 512 - 1).sum

/-! ### Failure counts (R266 to R269) -/

/-- Whether the spare sill lane can still replace a lane (R269). -/
def laneFree (s : State) : Bool :=
  s.build == .fig4B && s.ras.lane.isNone && s.bays.all fun b => (s.by b).pendLane.isNone

/-- An attributed error counts against a joint column or a sill lane; a count of 2 retires it. -/
def countFail (b : Bay) (lane : Bool) (col : Nat) (s : State) : State :=
  let x := s.by b
  let same (f : FailCount) : Bool := f.lane == lane && f.col == col
  let n := ((x.fails.find? same).map (·.count)).getD 0 + 1
  let fs := if n == 1 then x.fails ++ [⟨lane, col, 1, timebase s⟩]
    else x.fails.map fun f => if same f then { f with count := n } else f
  let s := s.modBay b fun x => { x with fails := fs }
  if n != 2 then s
  else
    let t := s.clk
    let free := laneFree s
    s.modBay b fun x =>
      { x with pendAt := t, pendLane := if lane && free then some col else x.pendLane,
               pendCol := if (lane && free) || x.pendCol.contains col then x.pendCol else x.pendCol ++ [col] }

/-- Logs and counts an attributed error (R259, R266, R274). -/
def noteErr (c : Ctx) (b : Bay) (e : SlotErr) (s : State) : State :=
  match e with
  | .residue k => countFail b false k (report 0x32 1 (ctxCode c) 2 (colId b k) s)
  | .parityCol k => countFail b false k (report 0x33 1 (ctxCode c) 2 (colId b k) s)
  | .parityLane k => countFail b true k (report 0x33 1 (ctxCode c) 3 (colId b k) s)
  | .corrupt _ _ _ => s

/-! ### One attempt of a pass -/

/-- The accumulator a bank holds at a row and column of its slice (R39, R43; log entry 5). -/
def bankOff (cpb : Nat) (acc : Fmt) (row col : Nat) : Nat := row * rowAcc cpb acc + col * accBytes acc

def bankAcc (k : Bank) (row col : Nat) : AccV :=
  accDecode k.acc (leNat (k.mem.readN (bankOff k.cpb k.acc row col) (accBytes k.acc)))

def bankWriteRow (row : Nat) (codes : List Nat) (k : Bank) : Bank :=
  { k with mem := k.mem.writeN (bankOff k.cpb k.acc row 0) (codes.flatMap (leBytes (accBytes k.acc))) }

/-- Position of a poisoned word in the tile rows of a bank slice, in the form of FAULT_AUX (R257). -/
def bankPoison (s : State) (b : Bay) (second : Bool) (k : Bank) : Option Nat :=
  s.ras.poison.findSome? fun
    | .bank b' second' off =>
      if b' == b && second' == second && decide (off < k.m * rowAcc k.cpb k.acc) then
        some (2 ^ 31 + b.val * 2 ^ 28 + second.toNat * 2 ^ 22 + off / 1024 * 1024) else none
    | .staging _ => none

/-- The whole words that bytes [lo, hi) of a bank slice cover lose their poison (R257). -/
def cleanBank (b : Bay) (second : Bool) (lo hi : Nat) (s : State) : State :=
  { s with ras := { s.ras with poison := s.ras.poison.filter fun
    | .bank b' second' off => !(b' == b && second' == second && decide (lo ≤ off / 8 * 8) && decide (off / 8 * 8 + 8 ≤ hi))
    | .staging _ => true } }

/-- Row i of the streamed operand, k ascending (R49, R76, R113). -/
def streamRow (rd : Rd) (o : Op) (i : Nat) : List Val :=
  let f := fmtOf (iFA o.word)
  match o.geo with
  | some g =>
    (List.range g.ks).map fun t =>
      let m := g.m0 + i
      let k := g.k0 + t
      let n := m / (g.oh * g.ow)
      let oh := m / g.ow % g.oh
      let ow := m % g.ow
      let ih : Int := oh * g.sh - g.ph + k / (g.kw * g.ch) * g.dh
      let iw : Int := ow * g.sw - g.pw + k / g.ch % g.kw * g.dw
      if ih < 0 || ih ≥ g.h || iw < 0 || iw ≥ g.w then Val.zero false
      else markInv (valAt rd f g.input false ((n * g.h + ih.toNat) * g.w + iw.toNat) (k % g.ch))
  | none =>
    if sform o.da == 1 then (csrExpand rd f o.da i).1.map (decodeFmt f)
    else (List.range o.da.vcols).map fun j => markInv (valAt rd f o.da false i j)

/-- Rows of slot p. -/
def slotRows (m r p : Nat) : List Nat := ((List.range r).map (r * p + ·)).filter fun i => decide (i < m)

/-- Rough-out of one row of the tile (R124). DESIGN CHOICE (log entry 51): a row belongs to the pair that it forms in the region,
also where the tile begins at an odd row of it. DESIGN CHOICE (log entry 52): each pass reads the decision set that stands at that pass, also
where a ROUGH in other bays has replaced it inside the chain (R123). -/
def roughSkip (s : State) (o : Op) (row : Nat) : Bool :=
  ruse o.dO && match (s.cx o.ctx).rough with
    | some r => r.skip.contains ((o.dO.vcol0 - r.col0) / 512, (o.dO.vrow0 + row - r.row0) / 2)
    | none => false

def roughGate (s : State) (o : Op) (col : Nat) : Bool :=
  ruse o.dO && match (s.cx o.ctx).rough with
    | some r => r.gate.contains ((o.dO.vcol0 + col - r.col0) / 32)
    | none => false

/-- What an attempt did in one bay. -/
structure BayRun where
  bank  : Bank
  flags : Flags
  ovf   : Bool
  held  : List (Nat × Nat)
  skips : Nat
  deriving DecidableEq, Repr

/-- What one row of a slot gives in one bay: its accumulators as codes, its checksum pair, the flags, whether no
comparison is made (R262), and whether the comparison of R261 fails. -/
structure RowOut where
  row   : Nat
  codes : List Nat
  chk   : Nat × Val
  flags : Flags
  noCmp : Bool
  bad   : Bool
  deriving DecidableEq, Repr

/-- What the rows of a pass share in one bay of rank `j`: the columns of its face, the slots that are HOLE items (R14), the
checksum sums (R260), the exponent of the attempt, and the bay. -/
structure BayPass where
  bay  : Bay
  j    : Nat
  cols : List (List Val)
  holes : List Nat
  sums : List (Val × Val)
  chkOn : Bool
  prec : Prec
  anyGate : Bool
  lastCol : Nat
  e    : Nat
  deriving DecidableEq, Repr

def bayPass (s : State) (o : Op) (holes : List Nat) (b : Bay) (j e : Nat) : BayPass :=
  let x := s.by b
  let cpb := (opTile o).1
  let cols := (x.face.map (·.cols)).getD []
  let face := match x.tag with | some t => t.rr.face | none => .fp32
  let kdim := (cols.head?.map List.length).getD 0
  { bay := b, j := j, cols := cols, holes := holes,
    sums := if hasChecksum x then
      (List.range kdim).map fun k => checkRow x.fill.acc face (cols.map fun ys => (ys[k]?).getD (Val.zero false)) else [],
    chkOn := hasChecksum x, prec := if face == .fp64 then prec64 else prec32,
    anyGate := (List.range cols.length).any fun n => roughGate s o (j * cpb + n),
    lastCol := x.fill.col0 + cols.length - 1 + (if o.opc == 0x06 then (foldShape o (maskBays o.gset).length).1 else 0), e := e }

/-- A fault of nature changes output values of a row (R261). -/
def corruptRow (acc : Fmt) (row : Nat) (codes : List Nat) (f : SlotFault) : List Nat :=
  match f.err with
  | .corrupt i col mask =>
    if i == row then codes.zipIdx.map fun y => if y.2 == col then (BitVec.ofNat 64 y.1 ^^^ mask).toNat % 2 ^ acc.width else y.1
    else codes
  | _ => codes

/-- One row of a pass in one bay (R77, R124, R260, R261). `top` is the lowest row of its slot, `hole` whether the slot is a HOLE
item. -/
def runRow (s : State) (o : Op) (p : BayPass) (bank : Bank) (here : List SlotFault) (hole : Bool) (top i : Nat) (xs : List Val) : RowOut :=
  let acc := bank.acc
  let cpb := bank.cpb
  let skip := roughSkip s o i
  let seedOf (n : Nat) : AccV := if o.first then accZero acc else bankAcc bank i n
  let vals : List (AccV × Flags) := p.cols.zipIdx.map fun y =>
    if skip || roughGate s o (p.j * cpb + y.2) then (seedOf y.2, {}) else dotFrom acc p.e (seedOf y.2) xs y.1
  let codes := here.foldl (corruptRow acc i) (vals.map fun v => accEncode acc v.1)
  let old : Nat × Val := if o.first then (accEncode acc (accZero acc), Val.zero false) else (bank.chk[i]?).getD (0, Val.zero false)
  let chk := if p.chkOn && !skip then accEncode acc (dotFrom acc p.e (accDecode acc old.1) xs (p.sums.map (·.1))).1 else old.1
  let mag := if p.chkOn && !skip then checkMag p.prec p.e old.2 xs (p.sums.map (·.2)) else old.2
  let sum := sumExact (codes.map fun v => accValue (accDecode acc v))
  let verdict := checkAccepts acc o.kt p.cols.length sum (accValue (accDecode acc chk)) mag
  let noCmp := hole || skip || !p.chkOn || !(acc == .int32 || decide (o.kt ≤ 2 ^ 20)) || p.anyGate || verdict.isNone ||
    (o.opc == 0x06 && decide (p.lastCol < top))
  ⟨i, codes, (chk, mag), Flags.union (vals.map (·.2)), noCmp, !noCmp && verdict == some false⟩

/-- Writes a row's accumulators and checksum pair into the bank. -/
def putRow (k : Bank) (q : RowOut) : Bank :=
  let k := bankWriteRow q.row q.codes k
  { k with chk := (k.chk ++ List.replicate (q.row + 1 - k.chk.length) (0, Val.zero false)).set q.row q.chk }

/-- One slot of a pass in one bay: withheld, or written (R259 to R264). -/
def runSlot (s : State) (o : Op) (p : BayPass) (rows : List (Nat × List Val)) (faults : List SlotFault) (keep : Bool)
    (st : BayRun) (slot : Nat) : BayRun :=
  let here := faults.filter fun f => f.bay == p.bay && f.slot == slot
  let idx := slotRows (opRows o) (opRate o) slot
  let outs := idx.map fun i => runRow s o p st.bank here (p.holes.contains slot) ((idx.head?).getD 0) i (((rows.find? (·.1 == i)).map (·.2)).getD [])
  let attributed := here.findSome? fun f => SlotErr.code f.err
  let bad := attributed.isSome || outs.any (·.bad)
  let skips := st.skips + outs.countP (·.noCmp)
  let held := if bad then st.held ++ [(slot, attributed.getD 0x34)] else st.held
  if bad && !keep then { st with held := held, skips := skips }
  else
    let fl := Flags.union (outs.map (·.flags))
    { bank := outs.foldl putRow st.bank, flags := st.flags.or fl, ovf := st.ovf || fl.ovf, held := held, skips := skips }

/-- Runs the slots of a pass in one bay of rank j. `keep`: a slot that still fails is written with this attempt's
values. -/
def runBay (s : State) (o : Op) (b : Bay) (j : Nat) (holes : List Nat) (rows : List (Nat × List Val)) (slots : List Nat) (e : Nat)
    (faults : List SlotFault) (keep : Bool) : BayRun :=
  slots.foldl (runSlot s o (bayPass s o holes b j e) rows faults keep) ⟨(s.by b).fill, {}, false, [], 0⟩

/-- The gather skips zeros only where every face of the pass is finite (R85). -/
def zeroSkips (s : State) (o : Op) : Bool := (maskBays o.gset).all fun b => ((s.by b).face.map (fun f => !f.special)).getD false

/-- Whether a slot carries nothing but zeros (R117). -/
def slotZero (s : State) (o : Op) (rd : Rd) (p : Nat) : Bool :=
  zeroSkips s o && (slotRows (opRows o) (opRate o) p).all fun i => (streamRow rd o i).all Val.isZero

/-- Whether a slot is a HOLE item: each of its rows is zero, or removed by rough-out (R14, R117, R124). -/
def slotHole (s : State) (o : Op) (rd : Rd) (p : Nat) : Bool :=
  let zero := zeroSkips s o
  (slotRows (opRows o) (opRate o) p).all fun i => roughSkip s o i || (zero && (streamRow rd o i).all Val.isZero)

/-- The HOLE items of an attempt: mark, first slot and slots of each range (R12, R14). -/
def holeItems (o : Op) (replay : Bool) (holes : List Nat) : List (BitVec 16 × Nat × Nat) :=
  let m := o.mark ||| 2 ||| (if replay then 1 else 0)
  holes.foldr (fun p l => match l with
    | (_, q, n) :: t => if p + 1 == q then (m, p, n + 1) :: t else (m, p, 1) :: l
    | [] => [(m, p, 1)]) []

/-- Runs the slots chosen per bay in every bay of the operation, and leaves what it did in the operation. -/
def runPass (o : Op) (slots : Bay → List Nat) (e : Nat) (faults : List SlotFault) (keep : Bool) (s : State) : State :=
  let rd := opRead s o
  let r := opRate o
  let bs := maskBays o.gset
  let need := (bs.flatMap slots).dedup.flatMap (slotRows (opRows o) r)
  let rows := need.map fun i => (i, streamRow rd o i)
  let holes := (List.range (slotsOf (opRows o) r)).filter fun p => (bs.any fun b => (slots b).contains p) && slotHole s o rd p
  let runs := bs.zipIdx.map fun x => (x.1, runBay s o x.1 x.2 holes rows (slots x.1) e faults keep)
  let s := runs.foldl (fun s x => s.modBay x.1 fun y =>
    { y.modBank y.fill1 (fun _ => x.2.bank) with abftSkip := satAdd y.abftSkip x.2.skips }) s
  let s := (faults.filter fun f => bs.contains f.bay && (slots f.bay).contains f.slot).foldl (fun s f => noteErr o.ctx f.bay f.err s) s
  let s := runs.foldl (fun s x =>
    let out := if keep then slots x.1 else (slots x.1).filter fun p => !(x.2.held.any (·.1 == p))
    (out.flatMap (slotRows (opRows o) r)).foldl (fun s i =>
      let k := (s.by x.1).fill
      cleanBank x.1 (s.by x.1).fill1 (bankOff k.cpb k.acc i 0) (bankOff k.cpb k.acc i k.n) s) s) s
  let held := runs.flatMap fun x => x.2.held.map fun h => (x.1, h.1)
  let cause := ((runs.flatMap fun x => x.2.held).head?.map (·.2)).getD 0
  let s := (runs.filter fun x => x.2.held.any (·.2 == 0x34)).foldl (fun s x => report 0x34 1 (ctxCode o.ctx) 4 x.1.val s) s
  s.modOp o.ctx o.seq fun o =>
    { o with held := held, cause := cause, holes := holeItems o (decide (0 < o.attempt + o.retry)) holes, ovfNow := o.ovfNow || runs.any (·.2.ovf),
             bayFlags := o.bayFlags ++ runs.map fun x => (x.1, x.2.flags) }

/-- Whether a granted operation has its data and its ports, the fast clocks run, and neither a halt, a hard stop, a SCRUB of its slices nor
a full trace buffer holds it (R192, R224, R238, R246, R291, R294). -/
def opReady (s : State) (o : Op) : Bool :=
  o.stage == .granted && o.rds == 0 && s.fastOn && !s.dbg.halted && !s.damp.hardNow && !accessWaits s o && !traceWaits s o

/-! ### The end of a Truss operation -/

/-- R86: whether the tile is replayed on overflow. -/
def replayable (s : State) (o : Op) : Bool :=
  let scaled (f : Fmt) (d : Desc) : Bool := f.isGf && fctlSmode d.fctl != 0
  feat s o.ctx 10 && o.replay.1 && (o.opc == 0x03 || o.opc == 0x06) && o.first && o.last &&
    (scaled (fmtOf (iFA o.word)) (match o.geo with | some g => g.input | none => o.da) ||
      (match o.rr with | some r => scaled r.fmt r.db | none => false))

/-- The next attempt that must follow: an ABFT replay, then an overflow replay of a pass whose slots are all written as they
passed (R263 to R265). -/
def needsAbft (o : Op) : Bool := o.streamed && !o.held.isEmpty && decide (o.retry < 2)

def needsOverflow (s : State) (o : Op) : Bool :=
  o.streamed && o.held.isEmpty && o.ovfNow && replayable s o && decide (o.attempt < 2)

/-- A narrowed set lapses when nothing is left of it in its context's current set without bay b (R271, R302). -/
def lapse (b : Bay) (s : State) : State :=
  let m := serviceMask s &&& ~~~(1#4 <<< b.val)
  { s with ctx := s.ctx.mapFinIdx fun i x h =>
      if (x.nset &&& s.curSet ⟨i, h⟩ &&& m) == 0 then { x with nset := 0, nleft := 0 } else x }

/-- A bay leaves service (R271, R272): the chains in progress in it are released and its banks freed, contents kept; nothing
stays reserved in it; its clock stops and it is power-gated; an OUT under way is over. -/
def leaveService (b : Bay) (s : State) : State :=
  let s := ([(s.by b).bank0, (s.by b).bank1].filter (·.st == .filling)).foldl (fun s k => releaseChain k.ctx k.chain s) s
  let s := unreserve (fun o => o.gset.getLsb b) s
  let s := stopShadows b s
  let s := lapse b s
  let s := State.ifThen (s.by b).outCmd.isSome (fun s => { s with g := { s.g with repBusy := false, repDone := true } }) s
  s.modBay b fun x =>
    { x.modBanks Bank.free with
      oos := true, outCmd := none, pstate := .powerGated, face := none, redo := false, wakeReq := false, wakeHeld := false }

/-- BAY_FATAL (R272): the bay leaves service at once; operations granted in it complete with the code. -/
def bayFatal (b : Bay) (code : Nat) (s : State) : State :=
  let hit := s.ops.filter fun o => o.stage == .granted && o.gset.getLsb b && (isT o || opClass o.opc == some .d || o.opc == 0x22)
  let s := hit.foldl (fun s o => if (s.opOf o).isSome then failOp o code s else s) s
  leaveService b s

/-- Flags of the kept attempt reach the context (R63, R81, R87). -/
def keepFlags (o : Op) (s : State) : State := o.bayFlags.foldl (fun s x => raiseFlags o.ctx x.1 x.2 s) s

/-- The last write of a pass (R44, R45, R88, R132): with LAST the banks become COMPLETE and swap, and the chain is over. -/
def closeTile (o : Op) (s : State) : State :=
  let bs := maskBays o.gset
  let e := o.attempt * o.replay.2
  let taken := (((s.cx o.ctx).chains.find? (·.id == o.chain)).map (·.taken)).getD 0
  if !o.last then s
  else
    let s := bs.foldl (fun s b => s.modBay b fun x =>
      { x.modBank x.fill1 (fun k =>
          { k with st := .complete, r := o.attempt, e := e, taken := o.ofLehr || taken.getLsb b,
                   folded := if o.opc == 0x06 then some ((foldShape o bs.length).1, o.da.vrows) else none }) with fill1 := !x.fill1 }) s
    s.modCtx o.ctx fun x => { x with chains := x.chains.filter (·.id != o.chain) }

/-- What the last multi-bay class T operation of a context cost each bay, for the next narrowing; a PASS counts with the RAISE before it
(R302). -/
def noteLag (o : Op) (s : State) : State :=
  if (maskBays o.gset).length < 2 then s
  else
    let occ := (s.clk - o.tGrant) / fcLen s
    let l := ((s.opOf o).getD o).lags
    let lags := allBays.map fun b => ((l.filter (·.1 == b)).map (·.2)).sum
    s.modCtx o.ctx fun x =>
      if o.opc == 0x03 then
        { x with nlag := lags.zipIdx.map fun y => y.1 + (x.nraise.2[y.2]?).getD 0, nocc := occ + x.nraise.1, nraise := (0, []) }
      else { x with nlag := lags, nocc := occ, nraise := if o.opc == 0x01 then (occ, lags) else x.nraise }

/-- A class T operation completes and frees its bays. -/
def endTruss (o : Op) (s : State) : State := release o (noteLag o s)

/-- The end of a pass whose second replay failed too: the operation completes with ABFT_PERSISTENT and those bays leave service (R264,
R272). -/
def persistent (o : Op) (s : State) : State :=
  let bad := (o.held.map (·.1)).dedup
  bad.foldl (fun s b => bayFatal b 0x11 (report 0x11 3 (ctxCode o.ctx) 4 b.val s)) (endTruss { o with status := 0x11 } s)

/-- A pass or FOLD whose attempts are over completes (R44, R89, R264); a tenant reset ends it after this one (R232). -/
def settle (c : Ctx) (seq : BitVec 8) (s : State) : State :=
  match s.op? c seq with
  | none => s
  | some o =>
    if (s.cx c).rstBusy then endTruss o s
    else if needsAbft o || needsOverflow s o then
      let t := s.clk
      s.modOp c seq fun o => { o with why := 9, tFirst := t, ran := 0 }
    else
      let s := keepFlags o s
      let exhausted := o.ovfNow && replayable s o
      let o := { o with opFlags := Flags.union (o.bayFlags.map (·.2)),
                        status := if !o.held.isEmpty then 0x11 else if exhausted then 0x15 else 0 }
      let s := closeTile o s
      if o.status == 0x11 then persistent o s
      else endTruss o (State.ifThen (o.status == 0x15) (recordFault c 0x15 1 o.q o.qidx 0) s)

/-- Bytes of one row that the gather reads of a dense operand (R25, R108). -/
def gatherRow (o : Op) : Nat := ceilDiv' ((passShape o.geo o.da).2 * (fmtOf (iFA o.word)).width) 8

/-- Runs of up to 64 bytes that one row of a convolution slab needs (R50). -/
def gatherRuns (g : Geo) (w : Nat) : Nat :=
  ((((List.range g.ks).map fun t => (g.k0 + t) / g.ch).dedup).map fun q =>
    let lo := max g.k0 (q * g.ch)
    let hi := min (g.k0 + g.ks) ((q + 1) * g.ch)
    ceilDiv' (ceilDiv' ((hi - lo) * w) 8) 64).sum

/-- Empty slots of an implicit convolution (R50): row slots beyond one per fc. -/
def gatherEmpty (o : Op) (slots : List Nat) : Nat :=
  match o.geo with
  | some g =>
    let per := gatherRuns g (fmtOf (iFA o.word)).width
    (slots.map fun p => ceilDiv' ((slotRows (opRows o) (opRate o) p).length * per) 32 - 1).sum
  | none => 0

/-- fc to bring B bytes through the read ports of `ports` bays whose latency is L fc (R204). -/
def portFc (ports l b : Nat) : Nat := max (ceilDiv' b (1600 * ports)) (ceilDiv' (b * l) (2 ^ 20 * ports))

/-- Scale bytes that streamed rows bring through the ports (R66, R68). -/
def streamScales (o : Op) (rows : List Nat) : Nat :=
  let f := fmtOf (iFA o.word)
  if !f.isGf then 0
  else match o.geo with
    | some g => if rows.isEmpty then 0 else winBytes (auxReads f g.input false)
    | none =>
      if sform o.da == 1 then 0
      else (rows.flatMap fun i => (auxReads f { o.da with vrow0 := o.da.vrow0 + i, vrows := 1 } false).filterMap fun r =>
        if r.win then some r.lo else none).dedup.length

/-- The stream of a pass as pairs of stall reason and fc: the slots presented and the fill, then the empty slots of the reads
and of the gather (R47, R50, R68, R110, R114, R115, R118, R119, R124, R204). A pass of zeros alone pays no fill. The bytes are those of the
rows that are read, which are all but those of rough-out. DESIGN CHOICE (log entry 52): the empty slots of the gather's 32 runs per fc (R50)
come on top of those of its ports and channels; and a pass whose slots are all HOLE items, some of them by rough-out, pays the fill,
since R119 speaks of zeros alone. -/
def streamSegs (s : State) (o : Op) : List (Nat × Nat) :=
  let rd := opRead s o
  let all := List.range (slotsOf (opRows o) (opRate o))
  let read := all.filter fun p => !(slotRows (opRows o) (opRate o) p).all (roughSkip s o)
  let rows := read.flatMap (slotRows (opRows o) (opRate o))
  let n := read.countP fun p => !slotHole s o rd p
  let csr := o.geo.isNone && sform o.da == 1
  let entries := if csr then (rows.map (csrRead rd o.da)).sum else 0
  let bytes := if csr then entries * ((fmtOf (iFA o.word)).width / 8 + 4) else rows.length * gatherRow o
  let win := match o.geo with | some g => g.input.loc | none => o.da.loc
  let scales := streamScales o rows
  let port := if win || scales != 0 then portFc (maskBays o.gset).length (o.lat / fcLen s) ((if win then bytes else 0) + scales) else 0
  let chan := max (ceilDiv' bytes 4096) (ceilDiv' entries 128)
  if all.all (slotZero s o rd) then [(0, max chan port + 2)]
  else
    let t := max n (max chan port)
    [(0, n + opFill o), (if chan < port then 5 else 2, t - n), (2, gatherEmpty o read)]

/-- Its fc. -/
def streamTime (s : State) (o : Op) : Nat := ((streamSegs s o).map (·.2)).sum

/-- CSR drops of a streamed operand: IDX and ROW in the pass with FIRST, DUP in every pass (R125). -/
def streamDrops (s : State) (o : Op) : Drops :=
  if o.opc == 0x03 && o.geo.isNone && sform o.da == 1 then
    let d := ((List.range o.da.vrows).map fun i => (csrExpand (opRead s o) (fmtOf (iFA o.word)) o.da i).2.1).foldl Drops.add {}
    if o.first then d else { dup := d.dup }
  else {}

/-! ### SEED and ROUGH -/

/-- One element entering a bank by SEED (R57, R74, R175). -/
def seedAcc (acc src : Fmt) (code : Nat) : AccV × Flags :=
  match acc with
  | .int32 => (.int (BitVec.ofNat 32 code), {})
  | .fp32x2 =>
    if src == .fp32x2 then
      let ((h, l), f) := pairEnter (decodeFmt .fp32 (bitField code 0 32)) (decodeFmt .fp32 (bitField code 32 32))
      (.two h l, f)
    else let v := decodeFmt .fp32 code; (.two (rne32 v) (Val.zero false), Flags.ofInv v.isSnan)
  | a => let v := decodeFmt src code; ((.one (if a == .fp64 then rne64 v else rne32 v)), Flags.ofInv v.isSnan)

/-- The checksum pair a row would have from its values (R260; log entry 29). -/
def rowCheck (acc : Fmt) (vs : List Val) : Nat × Val :=
  let t := sumExact vs
  let pr := if acc == .fp64 then prec64 else prec32
  (accEncode acc (match acc with
    | .int32 => .int (BitVec.ofInt 32 (t.scaled (min t.expOf 0)))
    | .fp32x2 => .two (roundPair t).1 (roundPair t).2
    | _ => .one (roundVal pr t).1), roundUp pr (sumExact (vs.map Val.abs)))

/-- SEED fills the tile (R39, R175); chk and m of a seeded row are its sums (log entry 29). -/
def runSeed (o : Op) (s : State) : State :=
  let rd := opRead s o
  let src := fmtOf (iFA o.word)
  let acc := fmtOf (iFO o.word)
  let (cpb, n) := opTile o
  (maskBays o.gset).zipIdx.foldl (fun s x =>
    let w := min cpb (n - x.2 * cpb)
    let rows := (List.range o.da.vrows).map fun i => (List.range w).map fun j => seedAcc acc src (codeAt rd src o.da i (x.2 * cpb + j))
    let fl := Flags.union (rows.flatMap (·.map (·.2)))
    let sums := rows.map fun r => rowCheck acc (r.map fun v => accValue v.1)
    let s := s.modBay x.1 fun y => y.modBank y.fill1 fun k =>
      { rows.zipIdx.foldl (fun k r => bankWriteRow r.2 (r.1.map fun v => accEncode acc v.1) k) k with chk := sums }
    let s := (List.range o.da.vrows).foldl (fun s i =>
      cleanBank x.1 (s.by x.1).fill1 (bankOff cpb acc i 0) (bankOff cpb acc i w) s) s
    let s := raiseFlags o.ctx x.1 fl s
    s.modOp o.ctx o.seq fun o => { o with opFlags := o.opFlags.or fl }) s

/-- The passes that a ROUGH runs (R122). -/
def roughInner (s : State) (o : Op) : Inner :=
  let rd := opRead s o
  { acc := .fp32, face := .gf4
    rows := (List.range o.da.vrows).map fun i => (List.range o.da.vcols).map fun j => (valAt rd .gf4 o.da false i j).1
    cols := (List.range o.db.vcols).map fun n => (List.range o.db.vrows).map fun k => (valAt rd .gf4 o.db true k n).1
    k := o.da.vcols, kf := faceK .gf4 false, cpb := faceCols .gf4, nb := (maskBays o.gset).length, rate := opRate o }

/-- The passes that a ROUGH or a product of the lehr runs. -/
def opInner (s : State) (o : Op) : Inner :=
  match o.opc, s.lehr with
  | 0x10B, some j => rootInner (rootP o.word) j (o.chain - j.chain) (maskBays o.gset).length
  | _, _ => roughInner s o

/-- The decisions of ROUGH (R122), with the corrupt values that its checks let through. -/
def runRough (s : State) (o : Op) : Rough :=
  let x := roughInner s o
  let tau := decodeFmt .bf16 (iImm o.word)
  let est := (List.range o.da.vrows).map fun i => (List.range o.db.vcols).map fun n => x.value o.patch i n
  let small := est.map fun r =>
    let p := if r.any Val.isNan then Val.qnan else r.foldl (fun a v => if Val.le a v.abs then v.abs else a) (Val.zero false)
    r.map fun v => v.isFin && match p with
      | .nan _ => false
      | .inf _ => true
      | p => Val.ltFin v.abs (Val.mulFin tau p)
  let inFace (r : List Bool) (f : Nat) : Bool := ((r.drop (512 * f)).take 512).all id
  let faces := ceilDiv' o.db.vcols 512
  let skip := (List.range faces).flatMap fun f => (List.range (ceilDiv' o.da.vrows 2)).filterMap fun q =>
    if ((small.drop (2 * q)).take 2).all (inFace · f) then some (f, q) else none
  let gate := (List.range (ceilDiv' o.db.vcols 32)).filter fun g => small.all fun r => ((r.drop (32 * g)).take 32).all id
  ⟨o.dO.vrow0, o.dO.vcol0, o.dO.vrows, o.dO.vcols, skip, gate⟩

/-! ### DRAIN -/

/-- The bank a DRAIN takes in a bay: which of the two, its contents. -/
def takenBank (s : State) (o : Op) (b : Bay) : Bool × Bank :=
  let id := ((o.takes.find? (·.1 == b)).map (·.2)).getD 0
  let mine (k : Bank) : Bool := k.chain == id && k.ctx == o.ctx && (k.st == .complete || k.st == .draining)
  if mine (s.by b).bank1 then (true, (s.by b).bank1) else (false, (s.by b).bank0)

/-- The banks a DRAIN takes, in bay order. -/
def takenBanks (s : State) (o : Op) : List (Bay × Bank) := (maskBays o.gset).map fun b => (b, (takenBank s o b).2)

/-- The raw option (R176). -/
def rawDrain (o : Op) : Bool := (iMode o.word).testBit 0

/-- Whether a DRAIN follows R132. -/
def foldDrain (o : Op) (k : Bank) : Bool := k.folded.isSome && !rawDrain o

/-- Grant-time checks of a DRAIN (R111, R132, R176). -/
def drainFault (s : State) (o : Op) : Option Nat :=
  if o.opc == 0x20B then none else
  let ks := (takenBanks s o).map (·.2)
  let out := fmtOf (iFO o.word)
  match ks with
  | [] => some 3
  | k :: rest =>
    let n := (ks.map (·.n)).sum
    firstFault [(rest.any fun x => x.acc != k.acc, 5), (!drainOk k.acc out, 5), (rawDrain o && out != k.acc, 5),
      (match k.folded, rawDrain o with
        | some (_, n'), false => o.dO.vrows != n' || o.dO.vcols != n' || rest.any fun x => x.folded != k.folded
        | _, raw => o.dO.vcols != n || ks.any fun x => x.m != o.dO.vrows || (x.folded.isSome && !raw), 6),
      (sform o.dO == 2 && (o.dO.vrow0 % 4 != 0 || o.dO.vrows % 4 != 0 ||
        !(o.mslot.any fun m => decide (o.dO.vrow0 + o.dO.vrows ≤ m.k) && decide (o.dO.vcol0 + o.dO.vcols ≤ m.n))), 3)]

/-- fc of a DRAIN (R46, R111, R133). DESIGN CHOICE (log entry 51): the output bytes of a row and bay count all columns that a
face has in the bay, also where the tile is narrower. -/
def drainTime (s : State) (o : Op) : Nat :=
  let ks := (takenBanks s o).map (·.2)
  let ow := (fmtOf (iFO o.word)).width
  let bits := if sform o.dO == 2 then 16 else 8
  let rd (k : Bank) : Nat := ceilDiv' (k.m * rowAcc k.cpb k.acc) 1024
  let most (l : List Nat) : Nat := l.foldl max 0
  if o.opc == 0x20B then rootDrain o.rootStage o.da.vrows else
  match ks with
  | [] => 0
  | k :: _ =>
    match k.folded, rawDrain o with
    | some (c0, _), false =>
      let nf := (ks.map (·.n)).sum
      let w := ceilDiv' ((2 * c0 * nf + nf * nf) * ow) bits
      max (most (ks.map rd)) (ceilDiv' w (ks.length * (if o.dO.loc then 800 else 1024))) + 12
    | _, _ => most (ks.map fun k => if o.dO.loc then max (rd k) (ceilDiv' (ceilDiv' (k.m * k.cpb * ow) bits) 800) else rd k) + 12

/-- An element that a DRAIN writes: its row and column in the output view, the bay and exponent of its bank, its accumulator, and
whether it is the mirrored copy of another (R132). -/
structure DrainCell where
  row    : Nat
  col    : Nat
  bay    : Bay
  e      : Nat
  a      : AccV
  mirror : Bool
  deriving DecidableEq, Repr

/-- The elements of one bank; `off` is its first column in the tile (R27, R132). -/
def bankCells (o : Op) (b : Bay) (k : Bank) (off : Nat) : List DrainCell :=
  (List.range k.m).flatMap fun i => (List.range k.n).flatMap fun n =>
    let a := bankAcc k i n
    match k.folded, rawDrain o with
    | some (c0, _), false =>
      let j := c0 + k.col0 + n
      if i < j then [⟨i, j, b, k.e, a, false⟩, ⟨j, i, b, k.e, a, true⟩] else if i == j then [⟨i, j, b, k.e, a, false⟩] else []
    | _, _ => [⟨i, off + n, b, k.e, a, false⟩]

/-- The elements of a DRAIN. -/
def drainCells (s : State) (o : Op) : List DrainCell :=
  (takenBanks s o).foldl (fun (l : List DrainCell × Nat) x => (l.1 ++ bankCells o x.1 x.2 l.2, l.2 + x.2.n)) ([], 0) |>.1

/-- Runs of consecutive columns. -/
def runsOf {α : Type} : List (Nat × α) → List (Nat × List α)
  | [] => []
  | (c, x) :: l =>
    match runsOf l with
    | (d, xs) :: t => if c + 1 == d then (c, x :: xs) :: t else (c, [x]) :: (d, xs) :: t
    | [] => [(c, [x])]

/-- Puts an element into a row in ascending columns. -/
def insertCol {α : Type} (x : Nat × α) : List (Nat × α) → List (Nat × α)
  | [] => [x]
  | y :: l => if x.1 ≤ y.1 then x :: y :: l else y :: insertCol x l

/-- The rows of some elements with their rows and columns, each in ascending columns. -/
def byRow {α : Type} (l : List (Nat × Nat × α)) : List (Nat × List (Nat × α)) :=
  ((l.map (·.1)).dedup).map fun r => (r, ((l.filter (·.1 == r)).map (·.2)).foldr insertCol [])

/-- The runs of each row. -/
def rowRuns {α : Type} (l : List (Nat × Nat × α)) : List (Nat × Nat × List α) :=
  (byRow l).flatMap fun r => (runsOf r.2).map fun x => (r.1, x.1, x.2)

/-- What a DRAIN reads beside its banks: the units of its output that its runs cover in part, and its mask (R111, R318). A folded
bank's rows of a 2:4 output are read whole, for its mask decides the runs. -/
def drainReads (s : State) (o : Op) : List Range :=
  let out := fmtOf (iFO o.word)
  let d := o.dO
  let fold := (takenBanks s o).any fun x => foldDrain o x.2
  if o.opc == 0x20B then [] else
  (if !d.loc || out.width % 8 == 0 then []
  else match o.mslot with
    | some _ => if fold then viewRanges out (physView d) else mergeRanges out (physView d)
    | none => (rowRuns ((drainCells s o).map fun x => (x.row, x.col, ()))).flatMap fun x =>
        mergeRanges out { d with vrow0 := d.vrow0 + x.1, vrows := 1, vcol0 := d.vcol0 + x.2.1, vcols := x.2.2.length }) ++
  maskReads o.mslot

/-- Starts a DRAIN (R44, R45): its bays read and write through their own ports (R203). -/
def startDrain (o : Op) (s : State) : State :=
  let o := { o with takes := (takesNow s o).getD [] }
  match drainFault s o with
  | some code => failOp o code s
  | none =>
    let bs := maskBays o.gset
    let o := { o with stage := .granted, tGrant := s.clk, tFirst := s.clk, ran := 0, tDue := s.clk + fcTime s (drainTime s o),
                      info := ((bs.head?).map fun b => (takenBank s o b).2.m).getD 0 }
    let rs := drainReads s o
    let s := s.modOf o fun _ => o
    let s := bs.foldl (fun s b => let w := (takenBank s o b).1
      s.modBay b fun x => { x.modBank w (fun k => { k with st := .draining, taken := true }) with drainOn := true }) s
    let s := emitOp 0x02 o.engine o.gset.toNat o (noteGrant o s)
    issueReads o bs rs s

/-- One converted element and the value its amax sees (R62, R71, R83, R88). -/
def drainElem (acc out : Fmt) (raw : Bool) (e : Nat) (fctl : BitVec 16) (scale : Option Nat) (a : AccV) : Nat × Flags × Val :=
  let v := Val.scale2 (if raw then 0 else (e : Int)) (accValue a)
  if raw then (accEncode acc a, {}, v)
  else match acc, out with
    | .int32, .int32 => (accEncode acc a, {}, v)
    | .int32, .int8 | .int32, .int4 =>
      let (c, f) := convertInt out (fctlShift fctl) (match a with | .int b => b.toInt | _ => 0); (c, f, v)
    | .fp32x2, .fp32x2 =>
      match a with
      | .two h l =>
        let ((h', l'), f) := renorm (Val.scale2 e h) (Val.scale2 e l); (encodePair h' l', f, v)
      | _ => (0, {}, v)
    | _, _ =>
      match scale with
      | some c => let (x, f) := convertScaled (fctlSmode fctl) out (fctlStrict fctl) c v; (x, f, v)
      | none => let (x, f) := convertTo out (fctlStrict fctl) v; (x, f, v)

/-- Scales of the blocks of an output view (R66, R72; rows are the free dimension, log entry 30). -/
def outScales (f : Fmt) (d : Desc) (vals : List (List Val)) : List (Nat × Nat) :=
  if f.isGf && fctlSmode d.fctl != 0 then
    let at_ := vals.zipIdx.flatMap fun (r, i) => r.zipIdx.map fun (v, j) => (scaleIndex d.fctl d.tcols d.trows (d.vcol0 + j) (d.vrow0 + i), v)
    ((at_.map (·.1)).dedup).map fun n =>
      (n, chooseScale (fctlSmode d.fctl) f (fctlHead d.fctl) ((at_.filter (·.1 == n)).map (·.2)))
  else []

/-- Converts a matrix of values for a view with its scales: codes, flags and scale bytes. -/
def convertRows (f : Fmt) (d : Desc) (vals : List (List Val)) : List (List (Nat × Flags)) × List Wr :=
  let sc := outScales f d vals
  let rows := vals.zipIdx.map fun (r, i) => r.zipIdx.map fun (v, j) =>
    if sc.isEmpty then convertTo f (fctlStrict d.fctl) v
    else
      let n := scaleIndex d.fctl d.tcols d.trows (d.vcol0 + j) (d.vrow0 + i)
      convertScaled (fctlSmode d.fctl) f (fctlStrict d.fctl) (((sc.find? (·.1 == n)).map (·.2)).getD 0) v
  (rows, sc.map fun x => (d.auxLoc, d.aux + x.1, [BitVec.ofNat 8 x.2]))

/-- The codes of a view, row by row. -/
def codesOf (rd : Rd) (f : Fmt) (d : Desc) : List (List Nat) :=
  (List.range d.vrows).map fun i => (List.range d.vcols).map fun j => codeAt rd f d i j

/-- CRC-64 of ECMA-182 over bytes (R298). -/
def crcByte (c : BitVec 64) (b : Byte) : BitVec 64 :=
  (List.range 8).foldl (fun c _ => if c.msb then (c <<< 1) ^^^ 0x42F0E1EBA9EA3693 else c <<< 1) (c ^^^ (b.zeroExtend 64 <<< 56))

def crc64 (l : List Byte) : BitVec 64 := l.foldl crcByte 0

/-- A packed row of codes (R53). -/
def packRow (f : Fmt) (codes : List Nat) : List Byte :=
  leBytes (rowBytes f codes.length) (codes.foldr (fun c a => c % 2 ^ f.width + 2 ^ f.width * a) 0)

/-- The record of a WATCH over row digests, and its digest count (R299). -/
def watchRecord (o : Op) (kind : Nat) (mark : Nat) (time : Nat) (rows : List (BitVec 64)) : Wr × Nat :=
  let cap := (o.dO.vcols - 32) / 8
  let w := min rows.length cap
  let tile := crc64 (rows.flatMap fun d => leBytes 8 d.toNat)
  let bytes := leBytes 2 (iImm o.word) ++ leBytes 1 kind ++ leBytes 1 (if w < rows.length then 1 else 0) ++
    leBytes 4 rows.length ++ leBytes 4 w ++ leBytes 2 mark ++ leBytes 2 0 ++ leBytes 8 time ++ leBytes 8 tile.toNat ++
    (rows.take w).flatMap fun d => leBytes 8 d.toNat
  ((o.dO.loc, (byteRange 0 o.dO).lo, bytes), w + 1)

/-- The digests of an operation go to every WATCH armed for it, which completes when its last ones are written (R189,
R299). `kt` of a WATCH holds the kinds it has digested. -/
def fireWatch (o : Op) (kind : Nat) (rows : List (BitVec 64)) (s : State) : State :=
  o.watch.foldl (fun s q =>
    match s.op? o.ctx q with
    | some w =>
      let (wr, n) := watchRecord w kind o.mark.toNat (timebase s) rows
      let ports := s.portBays w.ctx
      let w := { w with info := n, kt := w.kt ||| kind }
      if w.kt == iMode w.word then finish { w with stage := .granted } ports [wr] s
      else
        let (s, k) := issueWrites w.ctx (.op w.ctx w.seq) ports (outRanges w) [wr] s
        s.modOp w.ctx w.seq fun _ => { w with wrs := w.wrs + k }
    | none => s) s

/-- What a DRAIN writes through each bay, the flags of each bay, the amax, and the digest rows. -/
structure DrainOut where
  wrs   : List (Bay × Wr)
  flags : List (Bay × Flags)
  amax  : Word
  rows  : List (List Byte)
  deriving DecidableEq, Repr

/-- A run of elements from tensor position p goes out through the bays that hold them, in whole units: a unit through the bay of
its first element (R203, R318). -/
def splitRun (f : Fmt) (p : Nat) (bays : List Bay) (w : Wr) : List (Bay × Wr) :=
  let (u, b) := packUnit f
  let owner (q : Nat) : Bay := (bays[max p ((p / u + q) * u) - p]?).getD 0
  let units := List.range (w.2.2.length / b)
  bays.dedup.filterMap fun x =>
    let mine := units.filter fun q => owner q == x
    mine.head?.map fun q => (x, w.1, w.2.1 + q * b, (w.2.2.drop (q * b)).take (mine.length * b))

/-- Where an element of the output view is stored: its tensor row, or the compressed rows of a 2:4 output, the second with a
zero where its group keeps one position; none at a pruned position (R106, R111). -/
def storedRows (rd : Rd) (o : Op) (row col : Nat) : List (Nat × Bool) :=
  match o.mslot with
  | none => [(row, true)]
  | some m =>
    let kept := keptOf (maskNib rd m (row / 4) col)
    match kept.idxOf? (row % 4) with
    | some p => (2 * (row / 4) + p, true) :: (if kept.length == 1 then [(2 * (row / 4) + 1, false)] else [])
    | none => []

/-- The scale index of an output element: the rows of a 2:4 output run along K (R66, R111; log entry 30). -/
def outIndex (o : Op) (row col : Nat) : Nat :=
  if sform o.dO == 2 then scaleIndex o.dO.fctl o.dO.trows o.dO.tcols row col
  else scaleIndex o.dO.fctl o.dO.tcols o.dO.trows col row

/-- Converts the banks of a DRAIN (R46, R71, R83, R88, R111, R132). -/
def runDrain (s : State) (o : Op) : DrainOut :=
  let rd := opRead s o
  let out := fmtOf (iFO o.word)
  let raw := rawDrain o
  let d := o.dO
  let acc := (((takenBanks s o).head?).map (·.2.acc)).getD .fp32
  let cells : List (DrainCell × List (Nat × Bool)) := (drainCells s o).filterMap fun x =>
    let at_ := storedRows rd o (d.vrow0 + x.row) (d.vcol0 + x.col)
    if at_.isEmpty then none else some (x, at_)
  let idx (x : DrainCell) : Nat := outIndex o (d.vrow0 + x.row) (d.vcol0 + x.col)
  let pos := if out.isGf && fctlSmode d.fctl != 0 && !raw then
    cells.map fun x => (idx x.1, x.1.bay, Val.scale2 (x.1.e : Int) (accValue x.1.a)) else []
  let sc : List (Nat × Bay × Nat) := ((pos.map (·.1)).dedup).map fun n =>
    let l := pos.filter (·.1 == n)
    (n, ((l.head?).map (·.2.1)).getD 0, chooseScale (fctlSmode d.fctl) out (fctlHead d.fctl) (l.map (·.2.2)))
  let conv (x : DrainCell) : Nat × Flags × Val :=
    drainElem acc out raw x.e d.fctl (if sc.isEmpty then none else some (((sc.find? (·.1 == idx x)).map (·.2.2)).getD 0)) x.a
  let done := cells.map fun x => (x.1, x.2, conv x.1)
  let stored : List (Nat × Nat × Bay × Nat) := done.flatMap fun x => x.2.1.map fun r => (r.1, x.1.col, x.1.bay, if r.2 then x.2.2.1 else 0)
  let runs := rowRuns stored
  let straight := done.filter fun x => !x.1.mirror
  { wrs := runs.flatMap (fun x =>
        splitRun out (d.vcol0 + x.2.1) (x.2.2.map (·.1))
          (rowWrite rd out d.loc (d.base + x.1 * d.rstride) (d.vcol0 + x.2.1) d.tcols (x.2.2.map (·.2)))) ++
      sc.map fun x => (x.2.1, d.auxLoc, d.aux + x.1, [BitVec.ofNat 8 x.2.2])
    flags := done.map fun x => (x.1.bay, x.2.2.2.1)
    amax := amaxOf (done.map fun x => x.2.2.2.2)
    rows :=
      (byRow (straight.flatMap fun x => x.2.1.map fun r => (r.1, x.1.col, if r.2 then x.2.2.1 else 0))).map fun r =>
        packRow out (r.2.map (·.2)) }

end Sys2Proof.Machine
end

