-- ==== Sys2Proof/Machine/Control.lean ====
section
/-! DEFINITION. The control instructions, lock windows, queue fetch and the watchdog. -/

namespace Sys2Proof.Machine

open Sys2Proof

/-! ### Semaphores (R160, R161) -/

def semOf (w : Inst) : Fin 16 := ⟨iImm w % 16, Nat.mod_lt _ (by decide)⟩

/-- WAIT completes; INFO is the value of its semaphore (R160). -/
def startWait (o : Op) (s : State) : State :=
  completeNow { o with info := ((s.cx o.ctx).sem.get (semOf o.word)).toNat } s

/-- Dispatch of WAIT (R160). -/
def execWait (c : Ctx) (q : QSel) (s : State) : Host.Outcome State Fault Refusal := .next (dispatch 0x18 startWait c q s)

/-- Whether the WAIT that holds a queue is met. -/
def waitOver (s : State) (c : Ctx) (q : QSel) : Bool :=
  (s.qu c q).waiting &&
    match nextInst s c q with
    | some w => iOpc w == 0x18 && !ownHold s c q w
    | none => false

/-- WAIT_RELEASE: the queue leaves WAITING and its WAIT dispatches (R160). -/
def execWaitRelease (c : Ctx) (q : QSel) (s : State) : Host.Outcome State Fault Refusal :=
  if waitOver s c q then .next (dispatch 0x18 startWait c q (s.modQueue c q fun x => { x with waiting := false }))
  else .next s

/-- Adds that the open lock window holds back, to one semaphore (R162). -/
def bufferedAdds (s : State) (c : Ctx) (i : Fin 16) : Word :=
  match (s.cx c).lockWin with
  | some l => l.buf.foldl (fun a b => match b with | .sem j v _ => if j == i then a + v else a | _ => a) 0
  | none => 0

def pushBuf (c : Ctx) (b : BufItem) (n : Nat) (s : State) : State :=
  s.modCtx c fun x => { x with lockWin := x.lockWin.map fun l => { l with buf := l.buf ++ [b], share := l.share + n } }

/-- SIGNAL adds, and posts the new value with IMM16[14] (R160, R162, R321). -/
def startSignal (o : Op) (s : State) : State :=
  let i := semOf o.word
  let add := BitVec.ofNat 32 (iImm48 o.word)
  let v := (s.cx o.ctx).sem.get i + (if o.member then bufferedAdds s o.ctx i else 0) + add
  let post := (iImm o.word).testBit 14
  let at_ := byteRange 4 o.dx
  let o := { o with info := v.toNat }
  if o.member then
    completeNow o (pushBuf o.ctx (.sem i add (if post then some (at_.win, at_.lo) else none)) (if post then 8 else 4) s)
  else
    let s := s.modCtx o.ctx fun x => { x with sem := x.sem.set i.1 v i.2 }
    if post then finish { o with stage := .granted } (s.portBays o.ctx) [(at_.win, at_.lo, leBytes 4 v.toNat)] (enqueue o s)
    else completeNow o s

/-- Dispatch of SIGNAL (R160). -/
def execSignal (c : Ctx) (q : QSel) (s : State) : Host.Outcome State Fault Refusal := .next (dispatch 0x19 startSignal c q s)

/-- Dispatch of FENCE (R159). -/
def execFence (c : Ctx) (q : QSel) (s : State) : Host.Outcome State Fault Refusal := .next (dispatch 0x1A completeNow c q s)

/-! ### LOOP (R184 to R187) -/

/-- The head returns to the LOOP, and its body waits to be dispatched again. -/
def startLoop (o : Op) (s : State) : State :=
  let s := emitOp 0x01 13 (o.qidx + (if o.q == .prio then 65536 else 0)) o s
  s.modQueue o.ctx o.q fun x =>
    { x with
      head := BitVec.ofNat 16 o.qidx
      loop := some { seq := o.seq, inst := o.word, body := lastInsts { x with history := x.history.drop 1 } (loopBody o.word),
                     count := loopCount o.word, step := loopStep o.word, smask := loopSmask o.word, run := 1, pos := 0,
                     layer := o.layer, oper := o.oper } }

/-- Dispatch of LOOP (R184). -/
def execLoop (c : Ctx) (q : QSel) (s : State) : Host.Outcome State Fault Refusal := .next (dispatch 0x1B startLoop c q s)

/-! ### Lock windows (R162, R163) -/

/-- LOCK opens its window. -/
def startLock (o : Op) (s : State) : State :=
  completeNow o (s.modCtx o.ctx fun x =>
    { x with lockWin := some { q := o.q, index := BitVec.ofNat 16 o.qidx, left := lockMembers o.word } })

/-- Dispatch of LOCK (R162). -/
def execLock (c : Ctx) (q : QSel) (s : State) : Host.Outcome State Fault Refusal := .next (dispatch 0x1C startLock c q s)

/-- The window breaks: the buffer is discarded, the head returns to the LOCK, LOCK_BROKEN is logged (R163). -/
def breakWindow (c : Ctx) (l : LockWin) (s : State) : State :=
  let s := recordFault c 0x14 1 l.q l.index.toNat 0 (dropWindow c s)
  s.modQueue c l.q fun x => { x with head := l.index, fetched := [], asked := [], prev := none, fence := none }

/-- The last moment a halt leaves to a window: 256 fc after its request (R163). -/
def haltLimit (s : State) : Option Nat := s.dbg.reqAt.map fun h => h + 256 * fcLen s

/-- UNLOCK starts the commit, or breaks the window that a halt would cut (R162, R163). -/
def startUnlock (o : Op) (s : State) : State :=
  match (s.cx o.ctx).lockWin with
  | none => completeNow o s
  | some l =>
    let t := s.clk + fcTime s (ceilDiv' l.share 64)
    if haltReq s && (haltLimit s).any (fun h => decide (h < t)) then breakWindow o.ctx l s
    else
      let o := { o with stage := .granted, tFirst := s.clk, info := l.share }
      enqueue o (s.modCtx o.ctx fun x => { x with lockWin := some { l with commitEnd := some t, unlock := some o.seq } })

/-- Dispatch of UNLOCK (R162). -/
def execUnlock (c : Ctx) (q : QSel) (s : State) : Host.Outcome State Fault Refusal := .next (dispatch 0x1D startUnlock c q s)

/-- Groups single bytes into writes. -/
def byteWrites (w : List (Bool × Nat × Byte)) : List Wr := w.map fun x => (x.1, x.2.1, [x.2.2])

/-- The lines of an ATOMADD: line, lanes and addends in element order (R207). -/
def addLines (w : List (Nat × Word)) : List (Nat × BitVec 16 × List Word) :=
  let lines := (w.map fun x => x.1 / 64).dedup
  lines.map fun l =>
    let inl := w.filter fun x => x.1 / 64 == l
    (l, BitVec.ofNat 16 ((inl.map fun x => 2 ^ (x.1 % 64 / 4)).sum), inl.map (·.2))

/-- Issues the adds of an ATOMADD into checked ranges `spans` round-robin (R199, R207) and counts them in operation `seq`. -/
def issueAdds (c : Ctx) (seq : BitVec 8) (ports : List Bay) (spans : List Range) (w : List (Nat × Word)) (s : State) : State :=
  let ls := deal ports (addLines w)
  let s := ls.foldl (fun s x =>
    issueAdd x.1 x.2.1 (tierIn s c true spans x.2.1) c x.2.2.1 x.2.2.2 (.op c seq) s) s
  s.modOp c seq fun o => { o with acks := o.acks + ls.length }

/-- The targets of an ATOMADD with their addends in element order (R183, R207). -/
def atomTargets (rd : Rd) (o : Op) : List (Nat × Word) :=
  (List.range o.da.vrows).flatMap fun i => (List.range o.da.vcols).map fun j =>
    (o.dO.base + (o.dO.vrow0 + i) * o.dO.rstride + 4 * (o.dO.vcol0 + j), BitVec.ofNat 32 (codeAt rd .fp32 o.da i j))

/-- An ATOMADD with its addends at hand issues its adds, or puts them into the store buffer (R162, R183). -/
def atomGo (o : Op) (s : State) : State :=
  let w := atomTargets (opRead s o) o
  match poisonedIn s (viewRanges .fp32 o.da) with
  | some row => poisonFail o row s
  | none =>
    if o.member then complete o (pushBuf o.ctx (.atoms w o.seq (winSpans (outRanges o))) (4 * w.length) s)
    else issueAdds o.ctx o.seq (opPorts s o) (outRanges o) w (s.modOp o.ctx o.seq fun o => { o with stage := .flushing })

/-- Whether an ATOMADD has its addends and may issue its adds: no SCRUB or commit holds its staging, and a port is left (R162, R192,
R224). -/
def atomMay (s : State) (o : Op) : Bool :=
  o.opc == 0x13 && o.stage == .granted && o.rds == 0 && !accessWaits s o && (o.member || !portless s o.ctx (outRanges o))

/-- The ATOMADDs that waited with their addends at hand go on (R162, R192, R224). -/
def resumeAtoms (s : State) : State := (s.ops.filter (atomMay s)).foldl (fun s o => atomGo o s) s

/-- Commits one item of a store buffer. -/
def commitItem (c : Ctx) (seq : BitVec 8) (s : State) (b : BufItem) : State :=
  let ports := s.portBays c
  let ranges (l : List (Nat × Nat)) : List Range := l.map fun x => ⟨true, x.1, x.2⟩
  let put (spans : List Range) (ws : List Wr) (s : State) : State :=
    let (s, n) := issueWrites c (.op c seq) ports spans ws s
    s.modOp c seq fun o => { o with wrs := o.wrs + n }
  match b with
  | .bytes w keep _ spans => put (ranges spans) (byteWrites (keepBits s.staging.read keep w)) s
  | .sem i add post =>
    let v := (s.cx c).sem.get i + add
    let s := s.modCtx c fun x => { x with sem := x.sem.set i.1 v i.2 }
    match post with
    | some (win, a) => put [⟨win, a, 4⟩] [(win, a, leBytes 4 v.toNat)] s
    | none => s
  | .atoms w _ spans => issueAdds c seq ports (ranges spans) w s
  | .clear sel => s.modCtx c fun x => { x with sticky := x.sticky.map (·.clear sel) }

/-- The end of a commit: the buffer is written in member order, the window closes, UNLOCK completes when its requests are
answered (R162). -/
def endCommit (c : Ctx) (l : LockWin) (seq : BitVec 8) (s : State) : State :=
  let s := l.buf.foldl (commitItem c seq) s
  let s := resumeAtoms (s.modCtx c fun x => { x with lockWin := none })
  match s.op? c seq with
  | some o => if o.wrs == 0 && o.acks == 0 then complete o s else s.modOp c seq fun o => { o with stage := .flushing }
  | none => s

/-- What the commit of a window writes: its buffered bytes and the lines of its adds. -/
def lockSpans (l : LockWin) : List Range :=
  bufRanges l ++ l.buf.flatMap fun b => match b with
    | .atoms w _ _ => w.map fun x => ⟨true, x.1, 4⟩
    | _ => []

/-- LOCK_COMMIT_END (R162, R224, R238, R246). A tenant reset discards the buffer of a window whose commit has not begun. -/
def execLockCommitEnd (c : Ctx) (s : State) : Host.Outcome State Fault Refusal :=
  match (s.cx c).lockWin with
  | none => .next s
  | some l =>
    match l.unlock.bind (s.op? c) with
    | some o =>
      if l.commitEnd.isSome && s.fastOn && !s.damp.hardNow && !scrubHolds s (bufRanges l) && !portless s c (lockSpans l) then
        .next (endCommit c l o.seq (at' (phaseEnd s o (ceilDiv' l.share 64)) s))
      else .next s
    | none => .next s

/-- LOCK_BROKEN: a window still open without a commit at the halt's limit (R163). -/
def execLockBroken (c : Ctx) (s : State) : Host.Outcome State Fault Refusal :=
  match (s.cx c).lockWin, haltLimit s with
  | some l, some h => if haltReq s && l.commitEnd.isNone then .next (breakWindow c l (at' h s)) else .next s
  | _, _ => .next s

/-! ### MARK, FLAGS, END -/

/-- MARK sets the LAYER and OPER of its queue (R188). -/
def startMark (o : Op) (s : State) : State :=
  completeNow o (s.modQueue o.ctx o.q fun x =>
    { x with layer := BitVec.ofNat 24 (iImm48 o.word), oper := BitVec.ofNat 16 (iImm o.word) })

/-- Dispatch of MARK (R188). -/
def execMark (c : Ctx) (q : QSel) (s : State) : Host.Outcome State Fault Refusal := .next (dispatch 0x20 startMark c q s)

/-- The record of FLAGS: one byte per bay at 4b (R190). -/
def flagsRecord (x : CtxState) : List Byte :=
  allBays.flatMap fun b => [BitVec.ofNat 8 (x.sticky.get b).toNat, 0, 0, 0]

/-- FLAGS records and clears the sticky flags; a lock member clears at the commit (R190, R191). -/
def startFlags (o : Op) (s : State) : State :=
  let x := s.cx o.ctx
  let sel := Flags.ofNat (iImm o.word)
  let o := { o with info := (Flags.union x.sticky.toList).toNat }
  let ws : List Wr := if (iMode o.word).testBit 0 then
    [((byteRange 16 o.dO).win, (byteRange 16 o.dO).lo, flagsRecord x)] else []
  if o.member then
    let s := ws.foldl (fun s w => pushBuf o.ctx (.bytes (w.2.2.zipIdx.map fun y => (w.1, w.2.1 + y.2, y.1)) [] 16 (winSpans (outRanges o))) 16 s) s
    completeNow o (pushBuf o.ctx (.clear sel) 0 s)
  else
    let s := s.modCtx o.ctx fun x => { x with sticky := x.sticky.map (·.clear sel) }
    if ws.isEmpty then completeNow o s else finish { o with stage := .granted } (s.portBays o.ctx) ws (enqueue o s)

/-- Dispatch of FLAGS (R190). -/
def execFlags (c : Ctx) (q : QSel) (s : State) : Host.Outcome State Fault Refusal := .next (dispatch 0x23 startFlags c q s)

/-- END discards a pending geometry and armed digests and clears LAYER and OPER (R193). -/
def startEnd (o : Op) (s : State) : State :=
  let n := (s.qu o.ctx o.q).since - 1
  let s := { s with ops := s.ops.filter fun (p : Op) => !(p.ctx == o.ctx && p.q == o.q && p.stage == Stage.armed) }
  let s := s.modQueue o.ctx o.q fun x =>
    { x with geo := none, watchR := [], watchD := [], layer := 0, oper := 0, since := 0, history := [] }
  completeNow { o with info := n.toNat } s

/-- Dispatch of END (R193). -/
def execEndProg (c : Ctx) (q : QSel) (s : State) : Host.Outcome State Fault Refusal := .next (dispatch 0x3F startEnd c q s)

/-! ### Queue fetch (R149, R199, R257) -/

/-- How many entries from the head may be fetched: 16, or a whole lock window. -/
def fetchLimit (x : Queue) : Nat :=
  let n := match fetchedAt x x.head.toNat with
    | some w => if iOpc w == 0x1C then max 16 (lockMembers w + 2) else 16
    | none => 16
  min n x.count

/-- The indices a queue may fetch and has not. -/
def toFetch (x : Queue) : List Nat :=
  ((List.range (fetchLimit x)).map x.indexAfter).filter fun i =>
    (fetchedAt x i).isNone && !x.asked.contains i && !(x.bad.any (·.1 == i))

def Queue.base (x : Queue) : Bool × Nat := (x.baseHi.getLsbD 12, x.baseHi.toNat % 4096 * 2 ^ 32 + x.baseLo.toNat)

def wordOf (l : List Byte) : Inst := BitVec.ofNat 128 (leNat l)

/-- One 64-byte read for the next entries of a queue. -/
def fetchLine (c : Ctx) (q : QSel) (s : State) : State :=
  let x := s.qu c q
  match toFetch x with
  | [] => s
  | i :: _ =>
    let idx := (toFetch x).filter fun j => j / 4 == i / 4
    let r : Range := ⟨x.base.1, x.base.2 + i / 4 * 64, 64⟩
    let refuse (code aux : Nat) : State := s.modQueue c q fun x => { x with bad := x.bad ++ idx.map fun j => (j, code, aux) }
    if !rangeOk s c false r then refuse 0x04 0
    else if r.win then
      match s.lowBay with
      | some b =>
        issueRd b (r.lo / 64) (farOf s c false r) c (.fetch c q) (s.modQueue c q fun x => { x with asked := x.asked ++ idx })
      | none => s
    else if scrubHolds s [r] || commitHolds s c [r] then s
    else
      match poisonedIn s [r] with
      | some row => refuse 0x10 row
      | none => s.modQueue c q fun x =>
        { x with fetched := x.fetched ++ idx.map fun j => (j, wordOf (s.staging.readN (x.base.2 + 16 * j) 16)) }

/-- The entry at the head, or of the lock window at the head, whose fetch failed. -/
def badHead (x : Queue) : Option (Nat × Nat × Nat) :=
  let n := match fetchedAt x x.head.toNat with
    | some w => if iOpc w == 0x1C then lockMembers w + 2 else 1
    | none => 1
  let idx := (List.range n).map x.indexAfter
  x.bad.find? fun b => idx.contains b.1

/-- The queue faults on an entry it could not fetch (R151, R199). -/
def fetchFault (c : Ctx) (q : QSel) (code aux : Nat) (s : State) : State :=
  faultAtCheck c q ((nextInst s c q).getD 0) code aux s

/-- QUEUE_FETCH: the next read ahead; a failed or illegal entry at the head faults (R149, R153). -/
def queueFetch (c : Ctx) (q : QSel) (s : State) : State :=
  if !blockRuns s || (s.cx c).mode != .active || (s.cx c).rstBusy then s
  else
    let s := fetchLine c q s
    match badHead (s.qu c q) with
    | some (_, code, aux) => if (s.qu c q).loop.isSome then s else fetchFault c q code aux s
    | none => dispatch 256 (fun _ s => s) c q s

/-- QUEUE_FETCH (R149). -/
def execQueueFetch (c : Ctx) (q : QSel) (s : State) : Host.Outcome State Fault Refusal := .next (queueFetch c q s)

/-! ### The dispatch watchdog (R151) -/

/-- Whether a queue is RUNNING or WAITING. -/
def queueRuns (s : State) (c : Ctx) (q : QSel) : Bool :=
  (s.cx c).mode == .active && !s.dbg.halted && ((s.qu c q).count != 0 || (s.qu c q).loop.isSome)

/-- WATCHDOG: a queue that dispatches nothing for longer than WDOG faults. -/
def execWatchdog (c : Ctx) (q : QSel) (s : State) : Host.Outcome State Fault Refusal :=
  if queueRuns s c q && (s.cx c).wdog != 0 then
    .next (fetchFault c q 0x20 0 (at' ((s.qu c q).lastAt + (s.cx c).wdog.toNat * usLen) s))
  else .next s

end Sys2Proof.Machine
end

