-- ==== Sys2Proof/Machine/Lehr.lean ====
section
/-! DEFINITION. The lehr: ROOT jobs, and the operations that it issues for them (R19, R137 to R145). The commands LEHR_SETUP and
LEHR_ITERATION begin a setup or an iteration by issuing its operations, and end it when the last of them is over (log entry 15). -/

namespace Sys2Proof.Machine

open Sys2Proof

/-- The job of the lehr with the operation of its ROOT. -/
def job? (s : State) : Option (LehrJob × Op) :=
  match s.lehr with
  | some j => (s.op? j.ctx j.seq).map fun o => (j, o)
  | none => none

/-- The operation of a class under a context and SEQ: the one dispatched, or for a ROOT the one that the lehr runs there (R144). -/
def State.opIn (s : State) (cls : OpClass) (c : Ctx) (seq : BitVec 8) : Option Op :=
  match s.op? c seq with
  | some o =>
    if o.isRoot && opClass o.opc != some cls then s.ops.find? fun p => p.under c seq && p.side && opClass p.opc == some cls else some o
  | none => none

/-! ### The operations of the lehr (R144, R145) -/

/-- The unit that an operation of the lehr held is free again. -/
def leaveUnit (o : Op) (s : State) : State :=
  let t := s.clk
  let n := s.damp.ran
  let mine (x : Option (Ctx × BitVec 8)) : Bool := x == some (o.ctx, o.seq)
  match opClass o.opc with
  | some .t => { s with bay := s.bay.map fun x => if mine x.truss then { x with truss := none, trussOn := false, idleAt := t, backRan := n } else x }
  | some .d => { s with bay := s.bay.map fun x => if mine x.drain then { x with drain := none, drainOn := false, idleAt := t } else x }
  | _ => { s with svu := if mine s.svu then none else s.svu }

/-- An operation of the lehr as it arrives at its unit (R319). A product opens and completes a bank of its own in each bay, and its drain
takes those. -/
def stepOp (s : State) (j : LehrJob) (o : Op) (st : LehrStep) : Op :=
  let o := { o with stage := .waiting, resv := 0, named := s.curSet o.ctx, tArr := s.clk, tRes := s.damp.ran, kt := j.pick.code,
                    first := false, last := false, takes := [], lags := [], why := 0, ran := 0 }
  match st with
  | .svu fc _ => { o with opc := 0x30B, fc := fc, gset := 0 }
  | .product k => { o with opc := 0x10B, first := true, last := true, chain := j.chain + k, gset := 0, pass := 0, patch := [], held := [],
                           cause := 0, retry := 0, streamed := false }
  | .drain k => { o with opc := 0x20B, takes := (maskBays o.gset).map fun b => (b, j.chain + k), gset := 0 }

/-- A ROOT whose job has no operation under way; its record names the bays of its products. -/
def idleOp (j : LehrJob) (o : Op) : Op :=
  { o with opc := 0x0B, stage := .granted, first := false, last := false, gset := j.bays, resv := 0, kt := 0, chain := 0, takes := [],
           patch := [], why := 0 }

def LehrStep.writes : LehrStep → List (Bool × Nat × List Byte)
  | .svu _ ws => ws
  | _ => []

/-- The main operation of a job becomes the next step, with the steps that follow it. -/
def issueStep (j : LehrJob) (o : Op) (st : LehrStep) (rest : List LehrStep) (s : State) : State :=
  { s.modOp o.ctx o.seq (fun _ => stepOp s j o st) with lehr := some { j with todo := rest, ws := st.writes } }

/-- The lehr issues the next operation of its job. The drain of the last product of M, and then the norm, run beside X·T (R145). -/
def lehrNext (s : State) : State :=
  match job? s with
  | none => s
  | some (j, o) =>
    match j.todo with
    | [] => { s.modOp o.ctx o.seq (idleOp j) with lehr := some { j with ws := [] } }
    | .drain k :: .product m :: l =>
      if k + 1 == rootP o.word then
        issueStep j o (.product m) l { s with ops := s.ops ++ [{ stepOp s j o (.drain k) with side := true }] }
      else issueStep j o (.drain k) (.product m :: l) s
    | st :: l => issueStep j o st l s

/-- An operation of the lehr is over: its unit is free, and the next one is issued; the norm of M follows its drain (R144, R145). -/
def stepDone (o : Op) (s : State) : State :=
  let s := emitOp 0x04 o.engine 0 o (endStall o (leaveUnit o s))
  if !o.side then lehrNext s
  else if o.opc == 0x20B then
    s.modOf o fun p =>
      { p with opc := 0x30B, stage := .waiting, fc := rootN p.da.vrows, gset := 0, resv := 0, takes := [], tArr := s.clk, tRes := s.damp.ran, ran := 0 }
  else { s with ops := s.ops.filter fun p => !(p.under o.ctx o.seq && p.side) }

/-- The banks of one product become free. -/
def freeProduct (c : Ctx) (id : Nat) (s : State) : State :=
  { s with bay := s.bay.map fun x => x.modBanks fun k => if k.ctx == c && k.chain == id then k.free else k }

/-- A product whose banks were lost before its drain runs again (R144; log entry 15). -/
def lehrAgain (o : Op) (s : State) : State :=
  match job? s with
  | none => s
  | some (j, m) =>
    let id := ((o.takes.head?).map (·.2)).getD 0
    let s := freeProduct o.ctx id s
    if o.side then
      let s := { s with ops := s.ops.filter fun p => !(p.under o.ctx o.seq && p.side)
                        lehr := some { j with todo := j.todo ++ [.product (id - j.chain), .drain (id - j.chain), .svu (rootN j.n) []] } }
      if m.opc == 0x0B then lehrNext s else s
    else issueStep j m (.product (id - j.chain)) (.drain (id - j.chain) :: j.todo) s

/-- A product of the lehr starts: it leaves faces of no RAISE in the joints of its bays, and contents of its own in their banks (log entry
15). -/
def startProduct (o : Op) (s : State) : State :=
  let k := s.nfree
  useFree 4 ((startTruss o s).modBays (maskBays o.gset) fun b x =>
    { x.modBank x.fill1 (fun y => { y with mem := { bg := some (k + b.val) } }) with tag := none, face := none, redo := false })

/-- The last pass of a product has left the Truss: its banks are complete, and its drain follows. -/
def endProduct (o : Op) (s : State) : State :=
  let s := closeTile o (noteLag o s)
  stepDone o { s with lehr := s.lehr.map fun j =>
    { j with patches := j.patches.take (o.chain - j.chain) ++ [o.patch], bays := j.bays ||| o.gset } }

/-! ### The job (R19, R139 to R144) -/

/-- Reads the input matrix of the job's next setup, where a port of its set is left (R141, R144, R224). -/
def askInput (j : LehrJob) (o : Op) (s : State) : State :=
  issueReads o (opPorts s o) (viewRanges .fp32 (batchView o.da j.mat)) s

/-- The input of a setup has been asked for. -/
def inputAsked (o : Op) : Bool := !o.da.loc || o.rds != 0 || !o.got.isEmpty

/-- The lehr takes a ROOT (R19). It wakes no bay: its products do, when they reserve theirs (R144, R240). -/
def startJob (o : Op) (s : State) : State :=
  let o := { o with stage := .granted, named := s.curSet o.ctx, tGrant := s.clk, tFirst := s.clk, tDue := s.clk }
  let j : LehrJob := { ctx := o.ctx, seq := o.seq, n := o.da.vrows, eps := rootEps o.word, chain := s.nextId }
  let s := { s.modOp o.ctx o.seq (fun _ => o) with lehr := some j, nextId := s.nextId + 16 }
  askInput j o (emitOp 0x02 o.engine 0 o s)

/-- Whether the lehr may take a ROOT (R19, R166). -/
def lehrOpen (s : State) : Bool := s.lehr.isNone && blockOpen s && !sourceHolds s 5

/-- A ROOT goes to the lehr at once, unless the lehr is taken or an earlier one waits for it. -/
def startRoot (o : Op) (s : State) : State :=
  let first := s.ops.all fun p => !(p.opc == 0x0B && p.stage == .waiting)
  if lehrOpen s && first then startJob o (enqueue o s) else enqueue o s

/-- Dispatch of ROOT (R19, R137): without a free lehr it waits, and holds its context. -/
def execRoot (c : Ctx) (q : QSel) (s : State) : Host.Outcome State Fault Refusal := .next (dispatch 0x0B startRoot c q s)

/-- ROOT_ACCEPT (R19). -/
def execRootAccept (s : State) : Host.Outcome State Fault Refusal :=
  if !lehrOpen s then .next s
  else
    match firstArrival s (s.ops.filter fun o => o.opc == 0x0B && o.stage == .waiting) with
    | some o => .next (startJob o s)
    | none => .next s

def code32 (v : Val) : Nat := encodeFmt .fp32 v

/-- X as the job returns it: in the DO matrix of this index. -/
def copyWrites (o : Op) (j : LehrJob) (codes : List Nat) : List Wr :=
  let d := batchView o.dO j.mat
  viewWrites (fun _ _ => 0) .fp32 d ((List.range j.n).map fun i => (codes.drop (i * j.n)).take j.n)

/-- Matrix k of the working set (log entry 14). -/
def workWrite (o : Op) (j : LehrJob) (k : Nat) (l : List Val) : Wr :=
  let w := rootWork j.n o.db
  (w.win, w.lo + k * 4 * j.n * j.n, l.flatMap fun v => leBytes 4 (code32 v))

/-- The status record of R142. -/
def statBytes (r : RootStat) : List Byte :=
  leBytes 1 r.status ++ leBytes 1 r.iter ++ leBytes 1 r.rst ++ leBytes 1 r.stage ++ leBytes 4 r.eps.toNat ++ leBytes 8 (encodeFmt .fp64 r.res)

/-- Writes of a job go out at once; their flushes are counted in the operation. -/
def lehrWrite (o : Op) (ws : List Wr) (s : State) : State :=
  let (s, n) := issueWrites o.ctx (.op o.ctx o.seq) (opPorts s o) (outRanges o) ws s
  s.modOp o.ctx o.seq fun o => { o with wrs := o.wrs + n }

/-- A step of the SVU with its writes, alone (R141, R145). -/
def lehrCopy (ws : List Wr) (n : Nat) (s : State) : State :=
  lehrNext { s with lehr := s.lehr.map fun j => { j with todo := [.svu (rootS n) ws] } }

/-- Goes on with the job after the control's choice (R141, R142). A copy to DO is a step of the SVU, and the record of a matrix follows its
copy. -/
def lehrAct (o : Op) (j : LehrJob) (a : LehrAct) (s : State) : State :=
  let xs := j.x.map code32
  let s := s.modOp o.ctx o.seq fun p => { p with got := [] }
  match a with
  | .go cp =>
    let s := { s with lehr := some { j with next := .iterate, begun := false } }
    if cp then lehrCopy (copyWrites o j xs) j.n s else s
  | .again => { s with lehr := some { j with next := .setup, begun := false, it := 0, rises := 0, met := none } }
  | .stop cp fill status stage res =>
    let st : RootStat := { status := status, iter := j.total, rst := j.restarts, stage := stage,
                           eps := BitVec.ofNat 32 (code32 j.eps), res := res }
    let rec_ : Wr := ((byteSpan o.dx).win, (byteSpan o.dx).lo + j.mat * o.dx.bstride, statBytes st)
    let last := j.mat + 1 == rootCnt o.word
    let j' : LehrJob := { ctx := j.ctx, seq := j.seq, mat := j.mat + 1, n := j.n, eps := rootEps o.word, stats := j.stats ++ [st],
                          next := if last then .finish else .setup, chain := j.chain, bays := j.bays }
    let s := { s with lehr := some j' }
    if fill then lehrWrite o (copyWrites o j (List.replicate (j.n * j.n) 0x7FC00000) ++ [rec_]) s
    else if cp then lehrCopy (copyWrites o j xs ++ [rec_]) j.n s
    else lehrWrite o [rec_] s

/-- Whether no operation of the job is under way, and neither a halt, a hard stop nor a set without a bay stops it here (R144, R224). -/
def lehrIdle (s : State) (o : Op) : Bool :=
  o.opc == 0x0B && o.stage == .granted && !(s.ops.any fun p => p.under o.ctx o.seq && p.side) && s.fastOn && !s.dbg.halted && !s.damp.hardNow &&
    !portless s o.ctx (readSpans o ++ outRanges o)

/-- The operations of a setup or an iteration are issued one after the other. -/
def lehrBegin (j : LehrJob) (l : List LehrStep) (s : State) : State :=
  lehrNext { s with lehr := some { j with begun := true, todo := l, patches := [] } }

/-- Whether a setup may end: its operations are over. -/
def lehrOver (s : State) (j : LehrJob) (o : Op) : Bool := lehrIdle s o && j.begun && j.todo.isEmpty

/-- Whether a setup or an iteration may begin: a setup has its input. -/
def lehrMay (s : State) (j : LehrJob) (o : Op) : Bool := lehrIdle s o && !j.begun && (j.next != .setup || (inputAsked o && o.rds == 0))

/-- The end of a setup (R139, R141). -/
def endSetup (j : LehrJob) (o : Op) (s : State) : State :=
  let d := batchView o.da j.mat
  match poisonedIn s (viewRanges .fp32 d) with
  | some row => poisonFail o row s
  | none =>
    let a := (codesOf (opRead s o) .fp32 d).flatten.map (decodeFmt .fp32)
    match rootSetup (rootP o.word) j.n j.eps a with
    | .inl f => lehrAct o j (.stop false true 3 0 f) s
    | .inr (k, x, m, r) =>
      let j := { j with cExp := k, c0Exp := if j.restarts == 0 then k else j.c0Exp, x := x, m := m, r := r, it := 0, rises := 0,
                        met := none, stage := 0 }
      let (j, act) := setupAct (rootCap o.word) (.fin false 1 (-(rootTol o.word : Int))) j
      lehrAct o j act (lehrWrite o [workWrite o j 0 x, workWrite o j 1 m] s)

/-- LEHR_SETUP (R139, R141): it asks for the input, issues the steps of a setup, and ends it. -/
def execLehrSetup (s : State) : Host.Outcome State Fault Refusal :=
  match job? s with
  | some (j, o) =>
    if j.next != .setup then .next s
    else if lehrOver s j o then .next (endSetup j o s)
    else if lehrMay s j o then .next (lehrBegin j (setupSteps j.n) s)
    else if lehrIdle s o && !j.begun && !inputAsked o then .next (askInput j o s)
    else .next s
  | none => .next s

/-- The operations of an iteration: T, the products of M with their drains, and X·T with its drain (R140, R145). -/
def iterSteps (p n : Nat) : List LehrStep :=
  .svu (rootS n) [] :: (List.range (p + 1)).flatMap fun k => [.product k, .drain k]

/-- The end of an iteration (R140, R141). -/
def endIteration (j : LehrJob) (o : Op) (s : State) : State :=
  match poisonedIn s [rootWork j.n o.db] with
  | some row => poisonFail o row s
  | none =>
    let (t, j') := rootIterate (rootP o.word) j
    let (j', act) := iterAct (rootCap o.word) (.fin false 1 (-(rootTol o.word : Int))) j.r j'
    lehrAct o j' act (lehrWrite o [workWrite o j' 0 j'.x, workWrite o j' 1 j'.m, workWrite o j' 2 t, workWrite o j' 3 j'.m] s)

/-- LEHR_ITERATION (R140, R141): it issues the operations of an iteration, and ends it. -/
def execLehrIteration (s : State) : Host.Outcome State Fault Refusal :=
  match job? s with
  | some (j, o) =>
    if j.next != .iterate then .next s
    else if lehrOver s j o then .next (endIteration j o s)
    else if lehrMay s j o then .next (lehrBegin j (iterSteps (rootP o.word) j.n) s)
    else .next s
  | none => .next s

/-- The amax field of a ROOT (R143). -/
def rootAmax (l : List RootStat) : Word :=
  if l.any fun r => r.res.isNan then 0x7FC00000
  else BitVec.ofNat 32 (code32 (rne32 (l.foldl (fun m r => if Val.le m r.res then r.res else m) (Val.zero false))))

/-- ROOT_COMPLETE (R143): the one record of the job is written, and the lehr is free when the ROOT completes. -/
def execRootComplete (s : State) : Host.Outcome State Fault Refusal :=
  match job? s with
  | some (j, o) =>
    if j.next == .finish && lehrIdle s o then
      .next (finish { o with amax := rootAmax j.stats, info := (j.stats.filter fun r => r.status != 0).length } [] [] s)
    else .next s
  | none => .next s

end Sys2Proof.Machine
end

