-- ==== Sys2Proof/Machine/Vector.lean ====
section
/-! DEFINITION. The SVU and the top-k selector: dispatch, grants and completion of their instructions, and SCRUB. -/

namespace Sys2Proof.Machine

open Sys2Proof

/-! ### What an operation reads and how long it takes -/

/-- Formats of the two sides of an SVU operation. -/
def svuFmts (o : Op) : Fmt × Fmt :=
  match o.opc with
  | 0x0D => (.int4, .int4)
  | 0x0A => (fmtOf (iFA o.word), .fp64)
  | 0x21 => (.int8, .int8)
  | _ => (fmtOf (iFA o.word), fmtOf (iFO o.word))

/-- Ranges an operation of class S or K reads (R320), the bytes it merges among them (R318). -/
def svuReads (o : Op) : List Range :=
  let (f, g) := svuFmts o
  let src := match o.opc with
    | 0x07 => viewRanges f o.da ++ viewRanges f o.db
    | 0x08 => (List.range (reduceParts o.word)).flatMap fun t => viewRanges f (batchView o.da t)
    | 0x30B => []
    | _ => viewRanges f o.da
  let merge := match o.opc with
    | 0x0D | 0x10 | 0x24 => mergeRanges g o.dO
    | _ => []
  src ++ merge

/-- Elements of the first operand. -/
def elems (d : Desc) : Nat := d.vrows * d.vcols

/-- fc by the operation's own rule (R102, R135, R145, R177 to R181, R189). -/
def svuBase (o : Op) : Nat :=
  let (f, _) := svuFmts o
  let e := elems o.da
  let b := ((viewRanges f o.da).map (·.len)).sum
  match o.opc with
  | 0x07 => ceilDiv' e (if f == .fp64 then 128 else 256) + 20
  | 0x08 => ceilDiv' (reduceParts o.word * e) (if f == .fp64 || f == .fp32x2 then 128 else 256) + 20
  | 0x09 => o.da.vrows * ceilDiv' o.da.vcols 64 + 40
  | 0x0A => ceilDiv' e 256 + 280
  | 0x0D => ceilDiv' e 512 + 16
  | 0x0E => 2 * ceilDiv' e 256 + 40
  | 0x10 => (if copyConverts o.word then ceilDiv' e 256 + 20 else ceilDiv' b 1024 + 16) * (if (iMode o.word).testBit 0 then 2 else 1)
  | 0x21 => ceilDiv' b 1024 + 16
  | 0x24 => ceilDiv' e 128 + 40
  | 0x30B => o.fc
  | _ => 0

/-- Bytes an operation reads from windows: CSR and SCALE read their input twice (R177, R181, R320). -/
def svuRead (o : Op) : Nat :=
  winBytes (svuReads o) + (if o.opc == 0x0E || o.opc == 0x24 then winBytes (viewRanges (svuFmts o).1 o.da) else 0)

/-- Bytes that a dense output writes to a window: the whole bytes and 3-byte groups of its rows (R53, R318, R320). -/
def viewWritten (f : Fmt) (d : Desc) : Nat :=
  let u := unitBytes f d.vcol0 d.vcols
  if d.loc then d.vrows * (u.2 - u.1) else 0

/-- What a step of the lehr writes at its end (R141, R142). -/
def stepWrites (s : State) (o : Op) : List Wr := if o.side then [] else (s.lehr.map (·.ws)).getD []

/-- Bytes it writes to windows (R320): the elements of its outputs, the scales of their blocks, the entries of a CSR tensor that are not
zero, and the bytes of a digest record. -/
def svuWritten (s : State) (o : Op) : Nat :=
  let (f, g) := svuFmts o
  match o.opc with
  | 0x09 => viewWritten g o.dO + viewWritten .int32 o.dx
  | 0x0E =>
    let n := ((codesOf (opRead s o) f o.da).map fun r => r.countP fun x => !(decodeFmt f x).isZero).sum
    (if o.dO.loc then n * (f.width / 8) else 0) + (if o.dO.auxLoc then 4 * (o.dO.vrows + 1 + n) else 0)
  | 0x10 | 0x24 => viewWritten g o.dO + winBytes (if o.opc == 0x24 || copyConverts o.word then auxReads g o.dO false else [])
  | 0x21 => if o.dO.loc then 32 + 8 * min o.da.vrows ((o.dO.vcols - 32) / 8) else 0
  | 0x30B => ((stepWrites s o).map fun w => if w.1 then w.2.2.length else 0).sum
  | _ => viewWritten g o.dO

/-- The time of R320 from the first data on, on `n` ports. -/
def svuTime (s : State) (o : Op) (n : Nat) : Nat :=
  max (svuBase o) (max (portFc (max 1 n) (o.lat / fcLen s) (svuRead o)) (ceilDiv' (svuWritten s o) (800 * max 1 n)))

/-- Whether an operation reads or writes a memory window. -/
def usesWindows (o : Op) : Bool := (svuReads o).any (·.win) || (outRanges o).any (·.win)

/-! ### Grants (R319) -/

/-- The unit an operation waits for. -/
def waitsFor (u : UnitSel) (s : State) (o : Op) : Bool :=
  o.stage == .waiting && o.opc != 0x22 && !traceWaits s o &&
    opClass o.opc == some (match u with | .svu => .s | .topk => .k) && (!usesWindows o || !(s.portBays o.ctx).isEmpty)

def unitBusy (u : UnitSel) (s : State) : Bool :=
  match u with
  | .svu => s.svu.isSome
  | .topk => s.topk.isSome

/-- Starts an operation on its unit, one of the lehr's among them: its set and ports are those of this moment (R63, R144, R224). -/
def startUnit (u : UnitSel) (o : Op) (s : State) : State :=
  let o := { o with stage := .granted, named := s.curSet o.ctx, tGrant := s.clk, tFirst := s.clk, ran := 0,
                    tDue := s.clk + fcTime s (svuBase o) }
  let s := s.modOf o fun _ => o
  let s := match u with
    | .svu => { s with svu := some (o.ctx, o.seq) }
    | .topk => { s with topk := some (o.ctx, o.seq) }
  issueReads o (s.portBays o.ctx) (svuReads o) (emitOp 0x02 o.engine 0 o s)

def grantUnit (u : UnitSel) (s : State) : State :=
  let src := match u with | .svu => 4 | .topk => 7
  if !blockRuns s || unitBusy u s || sourceHolds s src then s
  else
    match firstArrival s (s.ops.filter fun o => waitsFor u s o && (!haltReq s || windowRuns s o.ctx o.q && o.member)) with
    | some o => startUnit u o s
    | none => s

/-- UNIT_GRANT (R319). -/
def execUnitGrant (u : UnitSel) (s : State) : Host.Outcome State Fault Refusal := .next (grantUnit u s)

/-! ### Results -/

/-- What an operation writes and reports. `mask`: the slot a MASK binds or empties; `meta_`: dropped indices (R102). -/
structure SvuOut where
  wrs   : List Wr := []
  flags : Flags := {}
  amax  : Word := 0
  info  : Nat := 0
  fault : Option (Nat × Nat) := none
  mask  : Option (Fin 8 × Option MaskSlot) := none
  meta_ : Nat := 0
  free  : Nat := 0
  deriving DecidableEq, Repr

/-- BLEND (R134). -/
def blendOut (rd : Rd) (o : Op) : SvuOut :=
  let f := fmtOf (iFA o.word)
  let pr := if f == .fp64 then prec64 else prec32
  let beta := decodeFmt .fp32 (iImm48 o.word % 2 ^ 32)
  let gamma := decodeFmt .fp32 (iImm o.word * 65536 + iImm48 o.word / 2 ^ 32)
  let rows := (List.range o.da.vrows).map fun i => (List.range o.da.vcols).map fun j =>
    let l := decodeFmt f (codeAt rd f o.da i j)
    let x := decodeFmt f (codeAt rd f o.db i j)
    let (t, f1) := ieeeMul pr gamma x
    let (r, f2) := ieeeFma pr beta l t
    (encodeFmt f r, f1.or f2)
  { wrs := viewWrites rd f o.dO (rows.map fun r => r.map (·.1)), flags := Flags.union (rows.flatMap fun r => r.map (·.2)) }

/-- REDUCE (R91, R178). -/
def reduceOut (rd : Rd) (o : Op) : SvuOut :=
  let f := fmtOf (iFA o.word)
  let rows := (List.range o.da.vrows).map fun i => (List.range o.da.vcols).map fun j =>
    reduceCodes f ((List.range (reduceParts o.word)).map fun t => codeAt rd f (batchView o.da t) i j)
  { wrs := viewWrites rd f o.dO (rows.map fun r => r.map (·.1)), flags := Flags.union (rows.flatMap fun r => r.map (·.2)) }

/-- NORM (R136). -/
def normOut (rd : Rd) (o : Op) : SvuOut :=
  let f := fmtOf (iFA o.word)
  let (vs, f1) := normVals (f == .fp32x2) (iImm o.word == 1) ((codesOf rd f o.da).map fun r => r.map (decodeFmt f))
  let (v, f2) := normOf (iImm o.word != 2) vs
  { wrs := viewWrites rd .fp64 o.dO [[encodeFmt .fp64 v]], flags := f1.or f2 }

/-- A checked nibble: the lower index first (R102). -/
def checkedNib (n : Nat) : Nat := if n / 4 < n % 4 then n % 4 * 4 + n / 4 else n

/-- Whether a 4 × 4 block of nibbles holds at most two kept positions in every row and column (R102). -/
def blockOk (nibs : List Nat) : Bool :=
  nibs.all (fun n => decide ((keptOf n).length ≤ 2)) &&
    (List.range 4).all fun k => decide ((nibs.countP fun n => (keptOf n).contains k) ≤ 2)

/-- MASK (R102, R103). A refused mask leaves in DO the blocks written before the fault; how many is free. DESIGN CHOICE (log entry
51): the dropped indices of the whole mask count, behind a failing block too. -/
def maskOut (s : State) (rd : Rd) (o : Op) : SvuOut :=
  let rows := codesOf rd .int4 o.da
  let slot : Fin 8 := ⟨iImm o.word % 8, Nat.mod_lt _ (by decide)⟩
  let drop := (rows.flatMap fun r => r.filter fun n => n / 4 == n % 4).length
  let nc := o.da.vcols / 4
  let block (g x : Nat) : List Nat := (((rows[g]?).getD []).drop (4 * x)).take 4
  let out := rows.map fun r => r.map checkedNib
  let order := (List.range o.da.vrows).flatMap fun g => (List.range nc).map fun x => (g, x)
  match order.zipIdx.find? fun b => !blockOk (block b.1.1 b.1.2) with
  | none =>
    { wrs := viewWrites rd .int4 o.dO out, info := drop, meta_ := drop,
      mask := some (slot, some ⟨o.dO, 4 * o.da.vrows, o.da.vcols⟩) }
  | some (b, i) =>
    let w := leNat (freeBytes s 8) % (i + 1)
    let old := codesOf rd .int4 o.dO
    let part := out.zipIdx.map fun (r, g) => r.zipIdx.map fun (n, j) =>
      if g * nc + j / 4 < w then n else (((old[g]?).getD [])[j]?).getD 0
    { wrs := viewWrites rd .int4 o.dO part, info := drop, meta_ := drop, fault := some (0x07, b.1 * 65536 + b.2),
      mask := some (slot, none), free := 8 }

/-- CSR (R112, R177). An element is zero when its value is (R117). -/
def csrOut (rd : Rd) (o : Op) : SvuOut :=
  let f := fmtOf (iFA o.word)
  let d := o.dO
  let rows := (codesOf rd f o.da).map fun r => (r.zipIdx).filter fun x => !(decodeFmt f x.1).isZero
  let cnt := (rows.map List.length).sum
  if cnt > d.nnz then { fault := some (0x06, 0), info := cnt }
  else
    let all := rows.flatten
    let ptrs := (List.range (d.vrows + 1)).map fun i => ((rows.take i).map List.length).sum
    { info := cnt
      wrs := [(d.loc, d.base, all.flatMap fun x => leBytes (f.width / 8) x.1),
              (d.auxLoc, d.aux + 4 * d.vrow0, ptrs.flatMap (leBytes 4)),
              (d.auxLoc, d.aux + csrPtrBytes d, all.flatMap fun x => leBytes 4 (d.vcol0 + x.2))] }

def transposed (l : List (List Nat)) (cols : Nat) : List (List Nat) :=
  (List.range cols).map fun j => l.map fun r => (r[j]?).getD 0

/-- COPY (R62, R71, R180). -/
def copyOut (rd : Rd) (o : Op) : SvuOut :=
  let f := fmtOf (iFA o.word)
  let g := fmtOf (iFO o.word)
  let d := o.dO
  let src := codesOf rd f o.da
  let src := if (iMode o.word).testBit 0 then transposed src o.da.vcols else src
  if !copyConverts o.word then { wrs := viewWrites rd f d src }
  else
    let accs := src.map fun r => r.map (accDecode f)
    let sc : List (Nat × Nat) := outScales g d (accs.map fun r => r.map accValue)
    let done : List (List (Nat × Flags × Val)) := accs.zipIdx.map fun (r, i) => r.zipIdx.map fun (a, j) =>
      let n := scaleIndex d.fctl d.tcols d.trows (d.vcol0 + j) (d.vrow0 + i)
      drainElem f g false 0 d.fctl (if sc.isEmpty then none else some (((sc.find? (·.1 == n)).map (·.2)).getD 0)) a
    { wrs := viewWrites rd g d (done.map fun r => r.map fun q => q.1) ++ sc.map fun x => (d.auxLoc, d.aux + x.1, [BitVec.ofNat 8 x.2])
      flags := Flags.union (done.flatMap fun r => r.map fun q => q.2.1)
      amax := amaxOf (done.flatMap fun r => r.map fun q => q.2.2) }

/-- SCALE (R72, R181). -/
def scaleOut (rd : Rd) (o : Op) : SvuOut :=
  let g := fmtOf (iFO o.word)
  let vals := (codesOf rd (fmtOf (iFA o.word)) o.da).map fun r => r.map (decodeFmt (fmtOf (iFA o.word)))
  let (rows, sw) := convertRows g o.dO vals
  { wrs := viewWrites rd g o.dO (rows.map fun r => r.map (·.1)) ++ sw
    flags := Flags.union (rows.flatMap fun r => r.map (·.2)), amax := amaxOf vals.flatten }

/-- TOPK (R97, R98): positions count along the whole tensor row. -/
def topkOut (rd : Rd) (o : Op) : SvuOut :=
  let f := fmtOf (iFA o.word)
  let src := codesOf rd f o.da
  let tops := src.map fun r => topEntries f (iImm o.word) (r.zipIdx.map fun x => (x.1, o.da.vcol0 + x.2))
  { wrs := viewWrites rd f o.dO (tops.map fun r => r.map (·.1)) ++ viewWrites rd .int32 o.dx (tops.map fun r => r.map (·.2))
    flags := Flags.ofInv (src.any fun r => r.any fun v => (decodeFmt f v).isSnan) }

/-- The immediate digest of WATCH (R298, R299). -/
def watchOut (s : State) (rd : Rd) (o : Op) : SvuOut :=
  let (w, n) := watchRecord o 3 0 (timebase s) ((List.range o.da.vrows).map fun i => crc64 (rowData rd .int8 o.da i))
  { wrs := [w], info := n }

def svuOut (s : State) (o : Op) : SvuOut :=
  let rd := opRead s o
  match o.opc with
  | 0x07 => blendOut rd o
  | 0x08 => reduceOut rd o
  | 0x09 => topkOut rd o
  | 0x0A => normOut rd o
  | 0x0D => maskOut s rd o
  | 0x0E => csrOut rd o
  | 0x10 => copyOut rd o
  | 0x24 => scaleOut rd o
  | 0x21 => watchOut s rd o
  | _ => {}

/-- The bits of the bytes that a dense output writes to staging which belong to elements outside its view (R318). -/
def keptBits (f : Fmt) (d : Desc) : List (Nat × Byte) :=
  if d.loc || f.width % 8 == 0 then []
  else
    (viewWrites (fun _ _ => 0xFF) f d (List.replicate d.vrows (List.replicate d.vcols 0))).flatMap fun w =>
      (w.2.2.zipIdx.map fun x => (w.2.1 + x.2, x.1)).filter (·.2 != 0)

/-- The bytes of some writes, each with its address. -/
def wrBytes (ws : List Wr) : List (Bool × Nat × Byte) := ws.flatMap fun w => w.2.2.zipIdx.map fun x => (w.1, w.2.1 + x.2, x.1)

/-- The item that a lock member's writes put into the store buffer (R162, R318). -/
def heldBytes (o : Op) (ws : List Wr) : BufItem :=
  .bytes (wrBytes ws) (keptBits (svuFmts o).2 o.dO) (wrBytes ws).length (winSpans (outRanges o))

/-- Ends an operation of class S or K with its result (R63, R102 to R104, R162). -/
def endUnit (o : Op) (r : SvuOut) (s : State) : State :=
  let b := ((maskBays o.named).head?).getD 0
  let s := raiseFlags o.ctx b r.flags (useFree r.free s)
  let s := s.modCtx o.ctx fun x =>
    { x with cullet := x.cullet.set 3 (satAdd (x.cullet.get 3) r.meta_)
             masks := match r.mask with | some (i, m) => x.masks.set i.1 m i.2 | none => x.masks }
  let o := { o with opFlags := r.flags, amax := r.amax, info := r.info }
  match r.fault with
  | some (code, aux) =>
    failOp { o with aux := aux } code (writeStaging (r.wrs.filterMap fun x => if x.1 then none else some x.2) s)
  | none =>
    if o.member then release o (pushBuf o.ctx (heldBytes o r.wrs) (wrBytes r.wrs).length s)
    else finish o (opPorts s o) r.wrs s

/-- Whether an operation of a unit may complete: a port is left for what it writes (R224). -/
def unitReady (cls : OpClass) (s : State) (o : Op) : Bool :=
  opReady s o && opClass o.opc == some cls && (o.member || !portless s o.ctx (outRanges o))

/-- The last write of an operation of the SVU or the top-k selector. -/
def unitDone (o : Op) (s : State) : State :=
  let s := at' (phaseEnd s o (svuTime s o (opPorts s o).length)) s
  match poisonedIn s (svuReads o) with
  | some row => poisonFail o row s
  | none => endUnit o (svuOut s o) s

/-! ### SCRUB (R192) -/

def poisonBay : EccLoc → Nat
  | .staging o => o / sliceBytes
  | .bank b _ _ => b.val

/-- Empties the mask slots whose checked range meets the slice of a bay (R104). -/
def emptySlots (b : Bay) (s : State) : State :=
  { s with ctx := s.ctx.map fun x => { x with masks := x.masks.map fun m =>
      match m with
      | some v => if inSlice b (viewSpan .int4 v.view) then none else some v
      | none => none } }

/-- Zeroes the staging slice and the tile-bank slices of a bay and empties its face tag. -/
def scrubBay (s : State) (b : Bay) : State :=
  let s := emptySlots b s
  let s := { s with
    staging := s.staging.zero (b.val * sliceBytes) sliceBytes
    ras := { s.ras with poison := s.ras.poison.filter fun l => poisonBay l != b.val } }
  s.modBay b fun x => { x.modBanks (fun k => { k with mem := {} }) with tag := none }

/-- The end of a SCRUB. -/
def endScrub (o : Op) (s : State) : State :=
  let bs := maskBays (iBays o.word)
  let s := bs.foldl scrubBay (at' (phaseEnd s o 17500) s)
  let t := s.clk
  let n := s.damp.ran
  resumeAtoms (release o (s.modBays bs fun _ x => { x with idleAt := t, backRan := n }))

/-- The end of a step of the lehr on the SVU: what it writes goes out, and the next operation is issued (R141, R144). -/
def stepEnd (o : Op) (s : State) : State :=
  let s := at' (phaseEnd s o (svuTime s o (opPorts s o).length)) s
  stepDone o (State.ifThen (!(stepWrites s o).isEmpty) (lehrWrite o (stepWrites s o)) s)

/-- SVU_OP_COMPLETE (R144, R168). -/
def execSvuOpComplete (c : Ctx) (seq : BitVec 8) (s : State) : Host.Outcome State Fault Refusal :=
  match s.opIn .s c seq with
  | none => .next s
  | some o =>
    if unitReady .s s o then
      if o.opc == 0x22 then .next (endScrub o s) else if o.ofLehr then .next (stepEnd o s) else .next (unitDone o s)
    else .next s

/-- TOPK_COMPLETE (R179). -/
def execTopkComplete (c : Ctx) (seq : BitVec 8) (s : State) : Host.Outcome State Fault Refusal :=
  match s.op? c seq with
  | none => .next s
  | some o => if unitReady .k s o then .next (unitDone o s) else .next s

/-! ### Dispatch -/

/-- Dispatch of BLEND (R134). -/
def execBlend (c : Ctx) (q : QSel) (s : State) : Host.Outcome State Fault Refusal := .next (dispatch 0x07 enqueue c q s)

/-- Dispatch of REDUCE (R178). -/
def execReduce (c : Ctx) (q : QSel) (s : State) : Host.Outcome State Fault Refusal := .next (dispatch 0x08 enqueue c q s)

/-- Dispatch of TOPK (R179). -/
def execTopk (c : Ctx) (q : QSel) (s : State) : Host.Outcome State Fault Refusal := .next (dispatch 0x09 enqueue c q s)

/-- Dispatch of NORM (R136). -/
def execNorm (c : Ctx) (q : QSel) (s : State) : Host.Outcome State Fault Refusal := .next (dispatch 0x0A enqueue c q s)

/-- Dispatch of MASK (R102). -/
def execMask (c : Ctx) (q : QSel) (s : State) : Host.Outcome State Fault Refusal := .next (dispatch 0x0D enqueue c q s)

/-- Dispatch of CSR (R177). -/
def execCsr (c : Ctx) (q : QSel) (s : State) : Host.Outcome State Fault Refusal := .next (dispatch 0x0E enqueue c q s)

/-- Dispatch of COPY (R180). -/
def execCopy (c : Ctx) (q : QSel) (s : State) : Host.Outcome State Fault Refusal := .next (dispatch 0x10 enqueue c q s)

/-- Dispatch of SCALE (R181). -/
def execScale (c : Ctx) (q : QSel) (s : State) : Host.Outcome State Fault Refusal := .next (dispatch 0x24 enqueue c q s)

/-- WATCH at dispatch: an immediate digest waits for the SVU, an armed one for the next RAISE or DRAIN of its queue, with those armed before
it (R189). -/
def startWatch (o : Op) (s : State) : State :=
  let m := iMode o.word
  if m.testBit 2 then enqueue o s
  else
    let s := enqueue { o with stage := .armed } s
    s.modQueue o.ctx o.q fun x =>
      { x with watchR := x.watchR ++ (if m.testBit 0 then [o.seq] else [])
               watchD := x.watchD ++ (if m.testBit 1 then [o.seq] else []) }

/-- Dispatch of WATCH (R189). -/
def execWatch (c : Ctx) (q : QSel) (s : State) : Host.Outcome State Fault Refusal := .next (dispatch 0x21 startWatch c q s)

/-- Dispatch of SCRUB (R192). -/
def execScrub (c : Ctx) (q : QSel) (s : State) : Host.Outcome State Fault Refusal := .next (dispatch 0x22 enqueue c q s)

end Sys2Proof.Machine
end

