-- ==== Sys2Proof/Machine/Fabric.lean ====
section
/-! DEFINITION. The fabric ports and the completion collector: responses, timeouts, completion records. -/

namespace Sys2Proof.Machine

open Sys2Proof

/-! ### Undefined outputs (R206) -/

/-- The views an operation writes, with their formats. -/
def outViews (o : Op) : List (Fmt × Desc) :=
  let f := fmtOf (iFO o.word)
  match o.opc with
  | 0x05 => [(f, physView o.dO)]
  | 0x07 | 0x08 | 0x10 | 0x12 | 0x24 => [(f, o.dO)]
  | 0x09 => [(f, o.dO), (.int32, o.dx)]
  | 0x0A => [(.fp64, o.dO)]
  | 0x0D => [(.int4, o.dO)]
  | _ => []

/-- What else it writes: scales, and the arrays of the other operations. -/
def outRest (o : Op) : List Range :=
  match o.opc with
  | 0x05 => (drainRanges (fmtOf (iFO o.word)) o.dO).drop 1
  | 0x10 | 0x24 => (outRanges o).drop 1
  | 0x07 | 0x08 | 0x09 | 0x0A | 0x0D | 0x12 => []
  | _ => outRanges o

/-- Staging bytes that become undefined. -/
def undefRange (s : State) (r : Range) : State :=
  if r.win then s else useFree r.len (writeStaging [(r.lo, freeBytes s r.len)] s)

/-- The elements of a staging view become undefined; those outside it that share a byte or group keep their codes (R318). -/
def undefView (s : State) (x : Fmt × Desc) : State :=
  let (f, d) := x
  if d.loc then s
  else if f.width % 8 == 0 then (viewRanges f d).foldl undefRange s
  else
    let rows := (List.range d.vrows).map fun i => (List.range d.vcols).map fun j => (Config.freeByte (s.nfree + i * d.vcols + j)).toNat
    useFree (d.vrows * d.vcols) (writeStaging ((viewWrites (fun _ a => s.staging.read a) f d rows).map (·.2)) s)

/-- A bank slice whose contents became undefined: its checksum pairs are those of the contents. -/
def undefBank (ev : Nat) (k : Bank) : Bank :=
  let k := { k with mem := { cells := [], bg := some ev } }
  { k with chk := (List.range k.m).map fun i => rowCheck k.acc ((List.range k.n).map fun j => accValue (bankAcc k i j)) }

/-- The outputs of a faulting operation become undefined (R206): staging bytes, the bank of its chain, a raised face. -/
def undefineOutputs (o : Op) (s : State) : State :=
  let s := (outRest o).foldl undefRange ((outViews o).foldl undefView s)
  if o.stage != .granted || !isT o then s
  else
    (maskBays o.gset).foldl (fun s b =>
      let ev := s.nfree
      useFree 1 (s.modBay b fun x =>
        if o.opc == 0x01 then { x with face := none }
        else if x.fill.st == .filling && x.fill.chain == o.chain then x.modBank x.fill1 (undefBank ev) else x)) s

/-! ### The two directions of the exchange port (R208, log entry 38) -/

/-- How far each of some messages moves, their remaining bytes rising from `base`, when `b` bytes move in turn. -/
def shareLevel (base b : Nat) : List Nat → Nat
  | [] => base
  | l :: ls =>
    if (l - base) * (ls.length + 1) ≤ b then shareLevel l (b - (l - base) * (ls.length + 1)) ls else base + b / (ls.length + 1)

/-- The SENDs whose data flows. -/
def flowing (s : State) : List Op := s.ops.filter (·.x == .flowing)

/-- The RECVs whose messages flow. -/
def inbound (s : State) : List Op := s.ops.filter fun o => match o.x with | .recvFlow _ => true | _ => false

/-- The bytes per fc that a RECV takes at most: those of its write ports when it writes to a window (R201, R208). -/
def recvRate (s : State) (o : Op) : Nat := if o.dO.loc then min 1600 (800 * max 1 (opPorts s o).length) else 1600

/-- Counts what the flowing messages have moved up to now, 1,600 bytes per fc in each direction shared among those that flow there (R208,
log entry 38). -/
def settleFlow (s : State) : State :=
  let n := runsTo s (workTime s) - runsTo s s.xch.tOut
  let k := shareLevel 0 (1600 * n) (((flowing s).map (·.left)).mergeSort)
  let m := shareLevel 0 (1600 * n) (((inbound s).map (·.left)).mergeSort)
  { s with
    ops := s.ops.map fun o => match o.x with
      | .flowing => { o with left := o.left - k }
      | .recvFlow _ => { o with left := o.left - min m (recvRate s o * n) }
      | _ => o
    xch := { s.xch with tOut := s.clk } }

/-- When a flowing SEND has handed its last byte to the ring: it moves in turn with the others, and alone in ceil(b / 1,600) fc
from its first data, longer where its read ports deliver less (R204, R212). -/
def sendDue (s : State) (o : Op) : Nat :=
  max (fcAfter s s.xch.tOut (ceilDiv' ((flowing s).map fun p => min p.left o.left).sum 1600))
    (phaseEnd s o (max (ceilDiv' o.hdr.count 1600)
      (portFc (max 1 (opPorts s o).length) (o.lat / fcLen s) (winBytes (viewRanges (fmtOf (iFA o.word)) o.da)))))

/-- When a flowing RECV can have its last byte: it shares the inbound direction with the others, and alone moves at its own rate (R208). -/
def recvDue (s : State) (o : Op) (n : Nat) : Nat :=
  max (fcAfter s s.xch.tOut (max (ceilDiv' ((inbound s).map fun p => min p.left o.left).sum 1600) (ceilDiv' o.left (recvRate s o))))
    (phaseEnd s o (ceilDiv' n (recvRate s o)))

/-- PORT_ERROR of an operation on a port: it completes once every other response of its writes has come (R205, R206, R274). -/
def portFail (b : Bay) (wr : Bool) (o : Op) (s : State) : State :=
  let s := report 0x12 2 (ctxCode o.ctx) 5 (b.val * 2 ^ 28 + wr.toNat) s
  failOp o 0x12 (undefineOutputs o (settleFlow s))

/-! ### Completion records (R164 to R166, R199) -/

/-- The 32 bytes of a record (R164). -/
def Rec.bytes (r : Rec) (phase : Bool) : List Byte :=
  leBytes 2 r.mark.toNat ++ leBytes 1 r.opc ++ leBytes 1 r.status ++
    leBytes 1 (r.flags.toNat + 16 * r.nrep.toNat + (if r.q == .prio then 32 else 0) + 64 * phase.toNat) ++
    leBytes 1 (r.rcnt % 4) ++ leBytes 1 r.rexp ++ leBytes 1 r.bays.toNat ++ leBytes 3 r.layer ++ [0] ++ leBytes 2 r.oper ++ [0, 0] ++
    leBytes 8 r.time ++ leBytes 4 r.amax.toNat ++ leBytes 4 r.info

def CtxState.cqBase (x : CtxState) : Bool × Nat := (x.cqHi.getLsbD 12, x.cqHi.toNat % 4096 * 2 ^ 32 + x.cqLo.toNat)

/-- CQ_TAIL passes the record at its place: PHASE, CQ_FULL and the fault source of IRQ_STAT follow (R165, R315). -/
def CtxState.tailOne (bad : Bool) (x : CtxState) : CtxState :=
  let t := (x.cqTail.toNat + 1) % x.cqEntries
  { x with
    cqTail := BitVec.ofNat 16 t
    cqPhase := if t == 0 then !x.cqPhase else x.cqPhase
    cqFull := x.cqFull || (t + 1) % x.cqEntries == x.cqHead.toNat
    irqFault := x.irqFault || bad }

/-- Passes every record at the front that is visible. -/
def CtxState.tailAll : List (Nat × Bool × Bool) → CtxState → CtxState
  | (_, true, bad) :: l, x => CtxState.tailAll l (x.tailOne bad)
  | l, x => { x with cqFlight := l }

/-- A dropped record (R199): the context faults WINDOW_VIOLATION, and every record that waits is dropped and counted. -/
def dropRecords (c : Ctx) (r : Rec) (s : State) : State :=
  let s := ctxFault c 0x04 r.q r.qidx 0 s
  let s := ((s.cx c).recs).foldl (fun s r => recordFault c 0x04 tenantFatal r.q r.qidx 0 s) s
  s.modCtx c fun x => { x with recs := [], irqFault := true }

/-- Writes the oldest record of a context (R165, R166). -/
def writeRecord (c : Ctx) (r : Rec) (s : State) : State :=
  let x := s.cx c
  let slot := x.cqWrite.toNat
  let a := x.cqBase.2 + 32 * slot
  let range : Range := ⟨x.cqBase.1, a, 32⟩
  if !rangeOk s c true range then dropRecords c r s
  else
    let bytes := r.bytes x.cqWPhase
    let next := (slot + 1) % x.cqEntries
    let moved (y : CtxState) : CtxState :=
      { y with cqWrite := BitVec.ofNat 16 next, cqWPhase := if next == 0 then !y.cqWPhase else y.cqWPhase }
    if range.win then
      match s.lowBay with
      | none => s.modCtx c fun y => { y with recs := r :: y.recs }
      | some b =>
        let s := (wrLines [(true, a, bytes)]).foldl (fun s l => issueWr b l.1 (farOf s c true range) c l.2.1 l.2.2 s) s
        issueFlush b (.record c slot) (s.modCtx c fun y => { moved y with cqFlight := y.cqFlight ++ [(slot, false, r.status != 0)] })
    else (writeStaging [(a, bytes)] s).modCtx c fun y => (moved y).tailOne (r.status != 0)

/-- Whether the place of a context's next record waits for a SCRUB, or for the commit of another context (R162, R192). -/
def recordWaits (s : State) (c : Ctx) : Bool :=
  let x := s.cx c
  let r : Range := ⟨x.cqBase.1, x.cqBase.2 + 32 * x.cqWrite.toNat, 32⟩
  scrubHolds s [r] || commitHolds s c [r]

/-- COMPLETION_RECORD_WRITE (R166): not before the fc after the record's delivery, and one record of a buffer per fc. -/
def execCompletionRecordWrite (c : Ctx) (s : State) : Host.Outcome State Fault Refusal :=
  match (s.cx c).recs with
  | [] => .next s
  | r :: l =>
    if cqRoom (s.cx c) && s.fastOn && !s.dbg.halted && !s.damp.hardNow && !recordWaits s c then
      let s := at' (max (r.at_ + fcLen s) (s.cx c).recAt) s
      let t := s.clk + fcLen s
      .next (writeRecord c r (s.modCtx c fun x => { x with recs := l, recAt := t }))
    else .next s

/-! ### Requests answered -/

/-- An operation whose requests are all answered completes (R158, R205). -/
def checkAnswered (c : Ctx) (seq : BitVec 8) (s : State) : State :=
  match s.op? c seq with
  | some o => if o.stage == .flushing && o.wrs == 0 && o.acks == 0 then release o s else s
  | none => s

/-- The first line an operation reads arrives: its phase runs from now on, but for a raise that reads no window (R33, R204, R320). -/
def firstLine (s : State) (lat : Nat) (o : Op) : Op :=
  if !o.got.isEmpty then o
  else if raising o && winBytes ((raiseWork s o).flatMap (·.2.2.2)) == 0 then { o with lat := lat }
  else { o with lat := lat, tFirst := s.clk, ran := 0, tDue := o.tDue + (s.clk - o.tFirst) }

/-- A line reaches the operation that reads it; the data of a message makes progress (R213). -/
def deliverLine (c : Ctx) (seq : BitVec 8) (r : RdReq) (data : List Byte) (s : State) : State :=
  let lat := s.clk - r.time
  let s := s.modOp c seq fun o => let o := firstLine s lat o; { o with rds := o.rds - 1, got := o.got ++ [(r.line, data)], tProg := s.clk }
  match s.op? c seq with
  | some o => if atomMay s o then atomGo o s else s
  | none => s

/-- A line of queue entries (R149). -/
def deliverEntries (c : Ctx) (q : QSel) (r : RdReq) (data : List Byte) (s : State) : State :=
  s.modQueue c q fun x =>
    let here := x.asked.filter fun i => (x.base.2 + 16 * i) / 64 == r.line
    { x with asked := x.asked.filter fun i => !here.contains i
             fetched := x.fetched ++ here.map fun i => (i, wordOf ((data.drop ((x.base.2 + 16 * i) % 64)).take 16)) }

/-- A failed read of queue entries. -/
def failEntries (c : Ctx) (q : QSel) (r : RdReq) (s : State) : State :=
  s.modQueue c q fun x =>
    let here := x.asked.filter fun i => (x.base.2 + 16 * i) / 64 == r.line
    { x with asked := x.asked.filter fun i => !here.contains i, bad := x.bad ++ here.map fun i => (i, 0x12, 0) }

/-- A read that failed (R206). -/
def readFailed (b : Bay) (r : RdReq) (s : State) : State :=
  match r.owner with
  | .op c seq => match s.op? c seq with | some o => portFail b false o s | none => s
  | .fetch c q => failEntries c q r (report 0x12 2 (ctxCode c) 5 (b.val * 2 ^ 28) s)
  | _ => s

/-- One response in request order. -/
def answerRead (b : Bay) (r : RdReq) (p : Reply) (s : State) : State :=
  match p.1 with
  | .err => readFailed b r s
  | .ok =>
    match r.owner with
    | .op c seq => deliverLine c seq r p.2 s
    | .fetch c q => deliverEntries c q r p.2 s
    | _ => s

/-- Returns the responses at the front of a read port in request order (R204). -/
def popReads (b : Bay) : List RdReq → State → State
  | [], s => s.modBay b fun x => { x with port := { x.port with rd := [] } }
  | r :: l, s =>
    match r.reply with
    | some p => popReads b l (answerRead b r p s)
    | none => s.modBay b fun x => { x with port := { x.port with rd := r :: l } }

/-- Puts a response at the first unanswered request with its tag. -/
def putReply (tag : BitVec 14) (p : Reply) : List RdReq → List RdReq
  | [] => []
  | r :: l => if r.tag == tag && r.reply.isNone then { r with reply := some p } :: l else r :: putReply tag p l

/-- RDATA (R202, R204). The response of a request that expired only frees its tag. -/
def execRdata (b : Bay) (tag : BitVec 14) (st : PortStatus) (data : List Byte) (s : State) : Host.Outcome State Fault Refusal :=
  if !s.present b then .fault (.absentBay b)
  else if (s.by b).port.rdGone.contains tag then
    .next (pumpPorts b (s.modBay b fun x => { x with port := { x.port with rdGone := x.port.rdGone.erase tag } }))
  else if (Instr.rdata b tag st data).wellFormed then .next (pumpPorts b (popReads b (putReply tag (st, data) (s.by b).port.rd) s))
  else .next s

/-! ### Writes answered -/

/-- The owner of a flush or an add is answered. -/
def ownerDone (w : Owner) (add : Bool) (s : State) : State :=
  match w with
  | .op c seq =>
    checkAnswered c seq (s.modOp c seq fun o => if add then { o with acks := o.acks - 1 } else { o with wrs := o.wrs - 1 })
  | .record c slot =>
    s.modCtx c fun x => CtxState.tailAll (x.cqFlight.map fun y => if y.1 == slot then (y.1, true, y.2.2) else y) x
  | .trace r =>
    let y := s.trace.rings.get r
    let y := if y.gone != 0 then { y with gone := y.gone - 1 }
      else { y with flight := y.flight - 1, wr := BitVec.ofNat 24 ((y.wr.toNat + 1) % 2 ^ y.size.toNat) }
    { s with trace := { s.trace with rings := s.trace.rings.set r.1 y r.2 } }
  | _ => s

/-- A trace record that could not be written is not visible: TR_WR stays, and it is lost with those under way behind it (R291; log
entry 41). -/
def traceFailed (r : Ctx) (s : State) : State :=
  let y := s.trace.rings.get r
  let y := if y.gone != 0 then { y with gone := y.gone - 1 }
    else { y with flight := 0, gone := y.flight - 1, lost := satAdd y.lost y.flight, loss := y.loss + y.flight }
  { s with trace := { s.trace with rings := s.trace.rings.set r.1 y r.2 } }

/-- A completion record that could not be written faults its context. -/
def recordFailed (c : Ctx) (s : State) : State := ctxFault c 0x12 .main (s.qu c .main).head.toNat 0 s

/-- The owner of a failed flush or add whose own response this is, or of an earlier flush whose writes it covered (R202, R206). -/
def ownerFailed (b : Bay) (add mine : Bool) (w : Owner) (s : State) : State :=
  match w with
  | .op c seq =>
    let s := State.ifThen mine (fun s => s.modOp c seq fun o => if add then { o with acks := o.acks - 1 } else { o with wrs := o.wrs - 1 }) s
    match s.op? c seq with | some o => portFail b true o s | none => s
  | .record c slot =>
    State.ifThen mine (ownerDone (.record c slot) false) (recordFailed c (report 0x12 2 (ctxCode c) 5 (b.val * 2 ^ 28 + 1) s))
  | .trace r => State.ifThen mine (traceFailed r) s
  | .snapshot => { s with dbg := { s.dbg with snapErr := true } }
  | .fetch _ _ => s

/-- A flush fails: its owner, and every earlier one whose writes it covered. -/
def flushFailed (b : Bay) (w : Owner) (covered : List Owner) (s : State) : State :=
  ownerFailed b false true w (covered.foldl (fun s w => ownerFailed b false false w s) s)

/-- Takes the add with a tag out of a write port. -/
def takeAdd (tag : BitVec 12) (l : List WrReq) : Option (Owner × Nat) × List WrReq :=
  match l with
  | [] => (none, [])
  | .afadd t line far c lanes adds w time :: l =>
    if t == tag then (some (w, time), l)
    else let (r, l') := takeAdd tag l; (r, .afadd t line far c lanes adds w time :: l')
  | x :: l => let (r, l') := takeAdd tag l; (r, x :: l')

def WrReq.isWr : WrReq → Bool
  | .wr _ _ _ _ _ => true
  | _ => false

/-- Takes the flush with a tag out of a write port: its owner and time, the owners of the earlier flushes whose writes it
covers too, and what remains; the posted writes before it are done (R202, R205). -/
def takeFlush (tag : BitVec 12) (before : List WrReq) (l : List WrReq) : Option (Owner × Nat × List Owner) × List WrReq :=
  match l with
  | [] => (none, before)
  | .flush t w time :: l =>
    if t == tag then
      (some (w, time, before.filterMap fun | .flush _ v _ => some v | _ => none), before.filter (fun x => !x.isWr) ++ l)
    else takeFlush tag (before ++ [.flush t w time]) l
  | x :: l => takeFlush tag (before ++ [x]) l

def setWr (b : Bay) (l : List WrReq) (s : State) : State :=
  s.modBay b fun x => { x with port := { x.port with wr := l } }

/-- The response of a request that expired only frees its tag (R202). -/
def lateWrite (b : Bay) (tag : BitVec 12) (s : State) : State :=
  pumpPorts b (s.modBay b fun x => { x with port := { x.port with wrGone := x.port.wrGone.erase tag } })

/-- AACK (R202, R207). -/
def execAack (b : Bay) (tag : BitVec 12) (st : PortStatus) (s : State) : Host.Outcome State Fault Refusal :=
  if !s.present b then .fault (.absentBay b)
  else
    match takeAdd tag (s.by b).port.wr with
    | (some (w, _), l) => .next (pumpPorts b (if st == .ok then ownerDone w true (setWr b l s) else ownerFailed b true true w (setWr b l s)))
    | (none, _) => .next (lateWrite b tag s)

/-- FACK (R202, R205): an error faults every operation whose writes the flush covered. -/
def execFack (b : Bay) (tag : BitVec 12) (st : PortStatus) (s : State) : Host.Outcome State Fault Refusal :=
  if !s.present b then .fault (.absentBay b)
  else
    match takeFlush tag [] (s.by b).port.wr with
    | (some (w, _, covered), l) =>
      .next (pumpPorts b (if st == .ok then ownerDone w false (setWr b l s)
        else flushFailed b w covered (setWr b l s)))
    | (none, _) => .next (lateWrite b tag s)

/-! ### PORT_TMO (R206, R275) -/

/-- An expiry counts against its port: four within FAIL_WIN fail it, and its bay becomes BAY_FATAL (R275). -/
def countExpiry (b : Bay) (wr : Bool) (s : State) : State :=
  let t := timebase s
  let w := s.g.failWin.toNat * 1000000
  let l := (if wr then (s.by b).port.wrExp else (s.by b).port.rdExp).filter (fun x => decide (t < x + w)) ++ [t]
  let s := s.modBay b fun x => { x with port := if wr then { x.port with wrExp := l } else { x.port with rdExp := l } }
  if l.length ≥ 4 then
    let s := report 0x12 3 0xF 5 (b.val * 2 ^ 28 + wr.toNat) s
    bayFatal b 0x12 (s.modBay b fun x => { x with port := if wr then { x.port with wrExp := [] } else { x.port with rdExp := [] } })
  else s

/-- Time a request may wait. -/
def tmoAt (s : State) (t : Nat) : Nat := t + s.g.portTmo.toNat * usLen

/-- The unanswered request with a tag leaves a read port; the tag stays taken until its response comes (R202). -/
def dropRead (tag : BitVec 14) : List RdReq → Option RdReq × List RdReq
  | [] => (none, [])
  | r :: l => if r.tag == tag && r.reply.isNone then (some r, l) else let (x, l') := dropRead tag l; (x, r :: l')

def readExpiry (b : Bay) (tag : BitVec 14) (s : State) : State :=
  match dropRead tag (s.by b).port.rd with
  | (some r, l) =>
    let s := at' (tmoAt s r.time) s
    countExpiry b false (popReads b l (readFailed b r (s.modBay b fun x => { x with port := { x.port with rd := l, rdGone := x.port.rdGone ++ [tag] } })))
  | (none, _) => s

def goneWr (b : Bay) (tag : BitVec 12) (s : State) : State :=
  s.modBay b fun x => { x with port := { x.port with wrGone := x.port.wrGone ++ [tag] } }

def writeExpiry (b : Bay) (tag : BitVec 12) (s : State) : State :=
  match takeAdd tag (s.by b).port.wr with
  | (some (w, t), l) => countExpiry b true (ownerFailed b true true w (goneWr b tag (setWr b l (at' (tmoAt s t) s))))
  | (none, _) =>
    match takeFlush tag [] (s.by b).port.wr with
    | (some (w, t, covered), l) =>
      countExpiry b true (flushFailed b w covered (goneWr b tag (setWr b l (at' (tmoAt s t) s))))
    | (none, _) => s

/-- PORT_TMO_EXPIRY (R206, R275). -/
def execPortTmoExpiry (b : Bay) (writePort : Bool) (tag : BitVec 14) (s : State) : Host.Outcome State Fault Refusal :=
  if !s.present b then .fault (.absentBay b)
  else if writePort then .next (pumpPorts b (writeExpiry b (tag.truncate 12) s))
  else .next (pumpPorts b (readExpiry b tag s))

end Sys2Proof.Machine
end

