-- ==== Sys2Proof/Machine/Exchange.lean ====
section
/-! DEFINITION. SEND, RECV and ATOMADD, and the messages of the exchange port (R208 to R213). -/

namespace Sys2Proof.Machine

open Sys2Proof

def ringSend (m : RingMsg) (s : State) : State := { s with xch := { s.xch with out := s.xch.out ++ [m] } }

/-! ### Admission (R208, R254, R319) -/

/-- Operations of one kind in flight at the exchange port. -/
def exchangeLoad (s : State) (send : Bool) : Nat :=
  s.ops.countP fun o => o.opc == (if send then 0x11 else 0x12) && o.x != .none && o.x != .waitAdmit

def usesPorts (o : Op) : Bool := if o.opc == 0x11 then o.da.loc else o.dO.loc

/-- Whether the exchange port may take a waiting SEND or RECV. -/
def admissible (send : Bool) (s : State) (o : Op) : Bool :=
  o.opc == (if send then 0x11 else 0x12) && o.x == .waitAdmit && !traceWaits s o && (!usesPorts o || !(s.portBays o.ctx).isEmpty)

/-- Whether the ports of a RECV into a window are gone: it waits for a bay (R224). -/
def stranded (s : State) (o : Op) : Bool := usesPorts o && (s.portBays o.ctx).isEmpty

/-- Whether a RECV matches a header (R211). -/
def matchesHeader (s : State) (h : MsgHeader) (o : Op) : Bool :=
  o.opc == 0x12 && o.x == .recvWait && !stranded s o && h.dctx.toNat == ctxCode o.ctx && h.src == o.dest && h.sctx == o.hdr.sctx && h.tag == o.hdr.tag

/-- The group of a window view in which a message of `n` bytes ends, read first (R53, R212, R318). -/
def tailGroup (f : Fmt) (d : Desc) (n : Nat) : List Range :=
  let rb := rowBytes f d.vcols
  let p := d.vcol0 + n % rb * 8 / f.width
  if d.loc && n % rb != 0 then [⟨true, d.base + (d.vrow0 + n / rb) * d.rstride + p / (packUnit f).1 * (packUnit f).2, (packUnit f).2⟩] else []

/-- A RECV meets its message: clear-to-send, or a refusal when the view is too small (R182, R212). -/
def matchRecv (o : Op) (h : MsgHeader) (s : State) : State :=
  let f := fmtOf (iFO o.word)
  if viewLen f o.dO < h.count then failOp o 0x06 (ringSend (.refuse h .viewSmall) s)
  else
    let s := settleFlow s
    let o := { o with x := .recvFlow h, left := h.count, tFirst := s.clk, ran := 0, tDue := s.clk + fcTime s (ceilDiv' h.count (recvRate s o)) }
    issueReads o (opPorts s o) (mergeRanges f o.dO ++ tailGroup f o.dO h.count) (ringSend (.clearToSend h) (s.modOf o fun _ => o))

/-- Two messages of one sender and tag for one context. -/
def alike (h g : MsgHeader) : Bool := h.src == g.src && h.sctx == g.sctx && h.dctx == g.dctx && h.tag == g.tag

/-- An earlier message of the same source, destination and tag was refused and has not been offered again (R211, log entry 38). -/
def overtakes (s : State) (h : MsgHeader) : Bool := s.xch.refused.any fun g => alike g h && decide (g.seqno < h.seqno)

/-- The kept header that a RECV matches: of those that no refused one precedes, the one sent first (R211). -/
def headerFor (s : State) (o : Op) : Option MsgHeader :=
  (s.xch.headers.filter fun h => matchesHeader s h o && !overtakes s h).foldl (fun b h => match b with
    | some g => if h.seqno < g.seqno then some h else b
    | none => some h) none

/-- The waiting RECVs match the kept headers, in the order in which they were dispatched (R211). -/
def matchAll (s : State) : State :=
  (s.ops.filter fun o => o.x == .recvWait).foldl (fun s o => match headerFor s o with
    | some h => matchRecv o h { s with xch := { s.xch with headers := s.xch.headers.erase h } }
    | none => s) s

/-- Takes one waiting SEND or RECV into the exchange port (R208, R210, R211). -/
def takeMessage (o : Op) (s : State) : State :=
  let o := { o with stage := .granted, named := s.curSet o.ctx, tGrant := s.clk }
  let s := emitOp 0x02 o.engine 0 o s
  if o.opc == 0x11 then
    let n : Nat := ((s.xch.seqnos.find? fun x => x.1 == o.peer).map fun x => x.2).getD 0
    let h : MsgHeader := { o.hdr with src := s.g.ringAddr.zeroExtend 32, seqno := n }
    let nums : List (Nat × Nat) := s.xch.seqnos.filter (fun x => x.1 != o.peer) ++ [(o.peer, (n + 1) % 2 ^ 32)]
    let s := { s with xch := { s.xch with seqnos := nums } }
    ringSend (.header o.dest h) (s.modOf o fun _ => { o with hdr := h, x := .offered })
  else
    matchAll (s.modOf o fun _ => { o with x := .recvWait })

/-- Admits the operation of a kind that is served first, when fewer than 16 are in flight (R208); RECVs that a bay was missing for match
again (R224). -/
def exchangeAdmit (send : Bool) (s : State) : State :=
  if !blockOpen s || !s.g.ringValid || sourceHolds s 6 || decide (exchangeLoad s send ≥ 16) then s
  else
    match firstArrival s (s.ops.filter (admissible send s)) with
    | some o => takeMessage o s
    | none => matchAll s

/-- EXCHANGE_ADMIT (R208, R319). -/
def execExchangeAdmit (send : Bool) (s : State) : Host.Outcome State Fault Refusal := .next (exchangeAdmit send s)

/-! ### Dispatch -/

/-- SEND and RECV read their peer entry at dispatch and are admitted at once when the port has room (R208 to R210). -/
def startMessage (o : Op) (s : State) : State :=
  let p := peerEntry s (iImm o.word)
  let send := o.opc == 0x11
  let o := { o with
    x := .waitAdmit, peer := iImm o.word, dest := p.dest
    hdr := { src := 0, sctx := if send then BitVec.ofNat 4 (ctxCode o.ctx) else p.rctx, dctx := p.rctx,
             tag := BitVec.ofNat 32 (iImm48 o.word), count := if send then viewLen (fmtOf (iFA o.word)) o.da else 0, seqno := 0 } }
  exchangeAdmit send (enqueue o s)

/-- Dispatch of SEND (R182, R210). -/
def execSend (c : Ctx) (q : QSel) (s : State) : Host.Outcome State Fault Refusal := .next (dispatch 0x11 startMessage c q s)

/-- Dispatch of RECV (R182, R211). -/
def execRecv (c : Ctx) (q : QSel) (s : State) : Host.Outcome State Fault Refusal := .next (dispatch 0x12 startMessage c q s)

/-- ATOMADD reads its addends and then issues its adds (R94, R183, R207). -/
def startAtomAdd (o : Op) (s : State) : State :=
  let o := { o with stage := .granted, named := s.curSet o.ctx, tGrant := s.clk, nrep := true }
  let s := issueReads o (s.portBays o.ctx) (viewRanges .fp32 o.da) (emitOp 0x02 o.engine 0 o (enqueue o s))
  match s.op? o.ctx o.seq with
  | some o => if atomMay s o then atomGo o s else s
  | none => s

/-- Dispatch of ATOMADD (R183). -/
def execAtomAdd (c : Ctx) (q : QSel) (s : State) : Host.Outcome State Fault Refusal := .next (dispatch 0x13 startAtomAdd c q s)

/-! ### Headers -/

/-- Whether a waiting RECV can take a header at once. -/
def taken (s : State) (h : MsgHeader) : Bool := !overtakes s h && s.ops.any (matchesHeader s h)

/-- MESSAGE_HEADER_RECEIVE: matched, kept, or refused when 64 headers wait (R211). A shell in BYPASS forwards it unchanged (R214). -/
def headerReceive (h : MsgHeader) (s : State) : State :=
  if !(Instr.messageHeaderReceive h).wellFormed then s
  else if !s.xch.joined then ringSend (.passed (.header h)) s
  else
    let x := { s.xch with refused := s.xch.refused.filter (· != h) }
    if decide (s.xch.headers.length < 64) || taken { s with xch := x } h then matchAll { s with xch := { x with headers := x.headers ++ [h] } }
    else ringSend (.refuse h .tableFull) { s with xch := { x with refused := x.refused ++ [h] } }

def execMessageHeaderReceive (h : MsgHeader) (s : State) : Host.Outcome State Fault Refusal := .next (headerReceive h s)

/-- MESSAGE_REFUSED: the header is offered again after 1,250 fc, or the SEND faults (R211, R212). -/
def messageRefused (o : Op) (r : RefuseReason) (s : State) : State :=
  match r with
  | .tableFull => s.modOp o.ctx o.seq fun o => { o with x := .refused (s.clk + fcTime s 1250) }
  | .viewSmall => failOp o 0x06 s

/-- MESSAGE_REFUSED (R211, R212, R214). -/
def execMessageRefused (c : Ctx) (seq : BitVec 8) (r : RefuseReason) (s : State) : Host.Outcome State Fault Refusal :=
  if !s.xch.joined then .next (ringSend (.passed (.refused c seq r)) s)
  else match s.op? c seq with
  | some o => if o.x == .offered then .next (messageRefused o r s) else .next s
  | none => .next s

/-- Whether the exchange port runs: the fast clocks do, and neither a halt nor a hard stop holds it (R238, R246, R294). -/
def portRuns (s : State) : Bool := s.fastOn && !s.dbg.halted && !s.damp.hardNow

/-- HEADER_RETRY: a refused header is offered again (R211). -/
def execHeaderRetry (c : Ctx) (seq : BitVec 8) (s : State) : Host.Outcome State Fault Refusal :=
  match s.op? c seq with
  | some o =>
    match o.x with
    | .refused t => if !portRuns s then .next s else .next (ringSend (.header o.dest o.hdr) ((at' t s).modOp c seq fun o => { o with x := .offered }))
    | _ => .next s
  | none => .next s

/-! ### Data -/

/-- Stores an XSEND or XRECV record of time `t` and its XSEQ as one unit (R286, R292). -/
def emitMessage (typ : Nat) (o : Op) (h : MsgHeader) (t : Nat) (s : State) : State :=
  let r : TraceRec := { typ := typ, eng := 0xC, ctx := ctxCode o.ctx, seq := o.seq, mflg := o.mflg, time := timeWord { s with clk := t },
                        layer := o.layer, oper := o.oper, arg := o.peer % 4096 }
  emitUnit 0xC (ctxCode o.ctx) [r, { r with typ := 0x12, time := BitVec.ofNat 32 h.seqno, arg := min 0xFFFFFF h.count }] s

/-- Whether a SEND has asked for the data it sends. -/
def dataAsked (o : Op) : Bool := !o.da.loc || o.rds != 0 || !o.got.isEmpty

/-- A SEND reads its data when a port of its set is left (R208, R224). -/
def askData (o : Op) (s : State) : State :=
  if stranded s o then s else issueReads o (opPorts s o) (viewRanges (fmtOf (iFA o.word)) o.da) s

/-- CLEAR_TO_SEND: message data starts to flow (R211, R212). -/
def clearToSend (o : Op) (s : State) : State :=
  let s := settleFlow s
  let o := { o with x := .flowing, left := o.hdr.count, tFirst := s.clk, tProg := s.clk, ran := 0, tDue := s.clk + fcTime s (ceilDiv' o.hdr.count 1600) }
  askData o (emitMessage 0x10 o o.hdr s.clk (s.modOp o.ctx o.seq fun _ => o))

/-- CLEAR_TO_SEND (R211, R212, R214). -/
def execClearToSend (c : Ctx) (seq : BitVec 8) (s : State) : Host.Outcome State Fault Refusal :=
  if !s.xch.joined then .next (ringSend (.passed (.clearToSend c seq)) s)
  else match s.op? c seq with
  | some o => if o.x == .offered then .next (clearToSend o s) else .next s
  | none => .next s

/-- The bytes of a message: the view's rows in view order (R210). -/
def messageBytes (s : State) (o : Op) : List Byte :=
  (List.range o.da.vrows).flatMap fun i => rowData (opRead s o) (fmtOf (iFA o.word)) o.da i

/-- SEND_COMPLETE: the last byte is on the ring (R182). -/
def endSend (o : Op) (s : State) : State :=
  match poisonedIn s (viewRanges (fmtOf (iFA o.word)) o.da) with
  | some row => poisonFail o row s
  | none => complete { o with info := o.hdr.count } (ringSend (.data o.dest o.hdr (messageBytes s o)) s)

def execSendComplete (c : Ctx) (seq : BitVec 8) (s : State) : Host.Outcome State Fault Refusal :=
  match s.op? c seq with
  | some o =>
    if o.x != .flowing || !opReady s o then .next s
    else if !dataAsked o then .next (askData o s)
    else .next (endSend o (settleFlow (at' (sendDue s o) s)))
  | none => .next s

/-- Writes message bytes into the DO view in view order; bytes beyond them stay, and the bits of an element that the message
ends in (R212). -/
def messageWrites (rd : Rd) (f : Fmt) (d : Desc) (data : List Byte) : List Wr :=
  let rb := rowBytes f d.vcols
  (List.range d.vrows).filterMap fun i =>
    let part := (data.drop (i * rb)).take rb
    if part.isEmpty then none
    else if f.width % 8 == 0 then
      some (d.loc, d.base + (d.vrow0 + i) * d.rstride + d.vcol0 * (f.width / 8), part)
    else
      let n := min d.vcols (ceilDiv' (part.length * 8) f.width)
      let old := (rowData rd f { d with vcols := n } i).drop part.length
      let codes := (List.range n).map fun j => bitField (leNat (part ++ old)) (j * f.width) f.width
      some (rowWrite rd f d.loc (d.base + (d.vrow0 + i) * d.rstride) d.vcol0 d.tcols codes)

/-- The XRECV record with its XSEQ: its time is that of the first burst written of `n` bytes, at the message's own rate from the match on
(R208, R292; log entry 38). -/
def firstBurst (o : Op) (h : MsgHeader) (n : Nat) (s : State) : State :=
  let t := phaseEnd s o (ceilDiv' (min 4096 n) (recvRate s o))
  let s := at' t s
  emitMessage 0x11 o h (min t s.clk) s

/-- RECV_COMPLETE: the whole message is written (R182, R212). -/
def endRecv (o : Op) (h : MsgHeader) (data : List Byte) (s : State) : State :=
  let s := firstBurst o h data.length s
  let s := settleFlow (at' (recvDue s o h.count) s)
  finish { o with info := h.count } (opPorts s o) (messageWrites (opRead s o) (fmtOf (iFO o.word)) o.dO data) s

/-- RECV_COMPLETE (R182, R212, R214). -/
def execRecvComplete (c : Ctx) (seq : BitVec 8) (data : List Byte) (s : State) : Host.Outcome State Fault Refusal :=
  if !s.xch.joined then .next (ringSend (.passed (.data c seq data)) s)
  else match s.op? c seq with
  | some o =>
    match o.x with
    | .recvFlow h => if data.length == h.count && opReady s o && !stranded s o then .next (endRecv o h data s) else .next s
    | _ => .next s
  | none => .next s

/-! ### Timeouts (R213, R275) -/

/-- What a broken message leaves in the view: the bytes already written, the rest undefined (R213); and the writes whose
flushes the RECV still awaits (R205). -/
def brokenRecv (o : Op) (data : List Byte) (s : State) : State × Nat :=
  let f := fmtOf (iFO o.word)
  let whole := viewLen f o.dO
  if o.dO.loc then issueWrites o.ctx (.op o.ctx o.seq) (opPorts s o) (outRanges o) (messageWrites (opRead s o) f o.dO data) s
  else
    let bytes := data.take whole ++ freeBytes s (whole - data.length)
    (useFree whole (writeStaging ((messageWrites (opRead s o) f o.dO bytes).map fun w => w.2) s), 0)

/-- When XCH_TMO passes: counted from the dispatch while the block has no ring address, from the admission for a header or a
clear-to-send, and from the last progress of a flow: the last line that a SEND read or the end of its data, the last of the `got` bytes that
a RECV took, `fc` fc after its match (R213, R254). -/
def exchangeDue (s : State) (o : Op) (got fc : Nat) : Nat :=
  let from_ := match o.x with
    | .waitAdmit => o.tArr
    | .recvFlow _ => phaseEnd s o (max fc (ceilDiv' got (recvRate s o)))
    | .flowing => if o.rds == 0 && dataAsked o then max o.tProg (sendDue s o) else o.tProg
    | _ => o.tGrant
  from_ + s.g.xchTmo.toNat * usLen

/-- EXCHANGE_TIMEOUT: the operation faults, the log and the notice name its peer (R213, R275). -/
def exchangeTimeout (o : Op) (data : List Byte) (fc : Nat) (s : State) : State :=
  let due := exchangeDue s o data.length fc
  let s := match o.x with
    | .recvFlow h => if data.isEmpty then s else firstBurst o h data.length s
    | _ => s
  let s := settleFlow (at' due s)
  let (s, n) := match o.x with
    | .recvFlow _ => brokenRecv o (if o.rds == 0 && !stranded s o then data else []) s
    | _ => (s, 0)
  let s := report 0x13 2 (ctxCode o.ctx) 6 (o.dest.toNat % 2 ^ 31) s
  let s := State.ifThen s.g.notifyEn (ringSend (.peerDown s.g.notify o.dest)) s
  awaitFlushes { o with status := 0x13 } n s

/-- Whether a message can time out: not one that only waits for room at dispatch, nor with all its bytes there (R213, R254). -/
def canTimeOut (s : State) (o : Op) (got : Nat) : Bool :=
  o.stage != .flushing && !s.dbg.halted &&
    match o.x with
    | .none => false
    | .waitAdmit => !s.g.ringValid
    | .recvFlow h => decide (got < h.count) && !accessWaits s o
    | _ => true

/-- EXCHANGE_TIMEOUT (R213). -/
def execExchangeTimeout (c : Ctx) (seq : BitVec 8) (got : Arrived) (s : State) : Host.Outcome State Fault Refusal :=
  match s.op? c seq with
  | some o => if canTimeOut s o got.data.length then .next (exchangeTimeout o got.data got.fc s) else .next s
  | none => .next s

/-- PEER_DOWN: a notice is logged under 0x3A (R275, R276), or forwarded in BYPASS (R214). -/
def execPeerDown (addr : BitVec 31) (s : State) : Host.Outcome State Fault Refusal :=
  if s.xch.joined then .next (report 0x3A 0 0xF 6 addr.toNat s) else .next (ringSend (.passed (.peerDown addr)) s)

end Sys2Proof.Machine
end

