-- ==== Sys2Proof/Machine/Matrix.lean ====
section
/-! DEFINITION. The matrix instructions, the grants of the bays, and the ends of raises, passes and drains. -/

namespace Sys2Proof.Machine

open Sys2Proof

/-! ### Dispatch -/

/-- RAISE at dispatch: the fields its RAISE record will hold (R171), with the digests armed in its queue (R189). -/
def startRaise (o : Op) (s : State) : State :=
  let d := o.db
  let tr := (iMode o.word).testBit 0
  let f := fmtOf (iFB o.word)
  let r : RaiseRec :=
    { fmt := f, face := faceFmt f d, ahold := (iMode o.word).testBit 2, trans := tr, k := heldK d tr, n := heldN d tr, db := d,
      mask := if sform d == 2 then (s.cx o.ctx).masks.get (mslot d) else none, no := s.nextId }
  enqueue { o with rr := some r, watch := (s.qu o.ctx o.q).watchR }
    { s.modQueue o.ctx o.q (fun x => { x with watchR := [] }) with nextId := s.nextId + 1 }

/-- Dispatch of RAISE (R31, R170, R171). -/
def execRaise (c : Ctx) (q : QSel) (s : State) : Host.Outcome State Fault Refusal :=
  .next (dispatch 0x01 startRaise c q s)

/-- GATHER leaves its geometry pending in its queue and completes (R174). -/
def startGather (o : Op) (s : State) : State :=
  let g : Geo := { decodeGeo (descBytes s o.ctx (iDX o.word)) with input := o.da, fa := iFA o.word }
  completeNow o (s.modQueue o.ctx o.q fun x => { x with geo := some g })

/-- Dispatch of GATHER (R174). -/
def execGather (c : Ctx) (q : QSel) (s : State) : Host.Outcome State Fault Refusal :=
  .next (dispatch 0x02 startGather c q s)

/-- A chain operation joins its chain, or begins one (R40, R41, R131). -/
def joinChain (o : Op) (kind : ChainKind) (m n k cpb : Nat) (s : State) : Op × State :=
  let acc := fmtOf (iFO o.word)
  if o.first then
    let ch : Chain :=
      { id := s.nextId, ctx := o.ctx, kind := kind, bays := o.named, m := m, n := n, acc := acc, cpb := cpb,
        foldJ := if kind == .fold then iImm o.word else 0, kTot := k, isOpen := !o.last }
    ({ o with chain := s.nextId, kt := k },
      { s.modCtx o.ctx (fun x => { x with chains := x.chains ++ [ch] }) with nextId := s.nextId + 1 })
  else
    match openChain s o.ctx o.named with
    | some ch =>
      ({ o with chain := ch.id, kt := ch.kTot + k },
        s.modCtx o.ctx fun x => { x with chains := x.chains.map fun y =>
          if y.id == ch.id then { y with kTot := y.kTot + k, isOpen := !o.last } else y })
    | none => (o, s)

/-- PASS at dispatch: its face, its geometry and its chain (R40, R171, R174). -/
def startPass (o : Op) (s : State) : State :=
  let g := (s.qu o.ctx o.q).geo
  let s := s.modQueue o.ctx o.q fun x => { x with geo := none }
  let r := lastRaise s o.ctx o.named
  let o := { o with geo := g, rr := r }
  let (m, k) := passShape g o.da
  let (o, s) := joinChain o .pass m o.dO.vcols k (faceCols ((r.map (·.face)).getD .fp32)) s
  enqueue o s

/-- Dispatch of PASS (R172). -/
def execPass (c : Ctx) (q : QSel) (s : State) : Host.Outcome State Fault Refusal :=
  .next (dispatch 0x03 startPass c q s)

/-- SEED at dispatch: it starts a chain (R175). -/
def startSeed (o : Op) (s : State) : State :=
  let (o, s) := joinChain o .seed o.da.vrows o.da.vcols 0 (faceCols (fmtOf (iFB o.word))) s
  enqueue o s

/-- Dispatch of SEED (R175). -/
def execSeed (c : Ctx) (q : QSel) (s : State) : Host.Outcome State Fault Refusal :=
  .next (dispatch 0x04 startSeed c q s)

/-- DRAIN at dispatch: the banks and chains it takes (R45), its mask (R111), its digest (R189). -/
def startDrainOp (o : Op) (s : State) : State :=
  let takes := (drainTakes s o.ctx o.word).filterMap fun x => x.2.map fun id => (x.1, id)
  let slot := if sform o.dO == 2 then (s.cx o.ctx).masks.get (mslot o.dO) else none
  let w := (s.qu o.ctx o.q).watchD
  let s := s.modQueue o.ctx o.q fun x => { x with watchD := [] }
  let s := s.modCtx o.ctx fun x => { x with chains := x.chains.map fun k =>
    { k with taken := k.taken ||| bayMaskOf ((takes.filter (·.2 == k.id)).map (·.1)) } }
  let s := s.modBays (takes.map (·.1)) fun b x => x.modBanks fun k =>
    if k.st == .complete && k.ctx == o.ctx && takes.contains (b, k.chain) then { k with taken := true } else k
  enqueue { o with takes := takes, mslot := slot, watch := w } s

/-- Dispatch of DRAIN (R176). -/
def execDrain (c : Ctx) (q : QSel) (s : State) : Host.Outcome State Fault Refusal :=
  .next (dispatch 0x05 startDrainOp c q s)

/-- FOLD at dispatch: its own raise (R127) and its chain, of the shape that the bays it names give it (R128, R131). -/
def startFold (o : Op) (s : State) : State :=
  let cpb := faceCols (fmtOf (iFA o.word))
  let nb := (maskBays o.named).length
  let (m, n) := foldDims o.da.vrows (iImm o.word % 256) cpb nb
  let (o, s) := joinChain { o with rr := some (foldRec o nb) } .fold m n o.da.vcols cpb s
  enqueue o s

/-- Dispatch of FOLD (R128). -/
def execFold (c : Ctx) (q : QSel) (s : State) : Host.Outcome State Fault Refusal :=
  .next (dispatch 0x06 startFold c q s)

/-- Dispatch of ROUGH (R121, R122). -/
def execRough (c : Ctx) (q : QSel) (s : State) : Host.Outcome State Fault Refusal :=
  .next (dispatch 0x0C enqueue c q s)

/-! ### Grants -/

/-- How an operation starts on its bays. -/
def startOf (drain : Bool) (o : Op) : Op → State → State :=
  if drain then startDrain else if o.opc == 0x10B then startProduct else startTruss

/-- Fixes the set of an operation at its first reservation, narrowing it first (R18, R224, R302), reserves the bay, and starts the
operation when its bays are complete. -/
def reserveFor (drain : Bool) (b : Bay) (o : Op) (s : State) : State :=
  let s := if o.gset == 0 then narrow o s else s
  let set := setOf s o
  let s := s.modOf o fun o => { o with gset := set }
  if !set.getLsb b then s
  else tryStart (startOf drain o) o (reserve drain b o set s)

/-- Whether the scheduler may grant a bay's drain path or Truss (R238, R267, R271, R294). -/
def bayOpen (drain : Bool) (s : State) (b : Bay) : Bool := blockOpen s && s.inService b && !bayHeld drain s b

/-- An operation that cannot have its bays faults DESC_INVALID; a drain of the lehr has its product run again. -/
def refuse (o : Op) (s : State) : State := if o.ofLehr then lehrAgain o s else failOp o 0x03 s

/-- The waiting operation that has reserved all its bays, b among them: what held its start may be over (R238, R240, R246). -/
def reservedOp (s : State) (drain : Bool) (b : Bay) : Option Op :=
  let cls : OpClass := if drain then .d else .t
  (if drain then (s.by b).drain else (s.by b).truss).bind fun i =>
    s.ops.find? fun o => o.under i.1 i.2 && opClass o.opc == some cls && o.stage == .waiting && o.resv == o.gset && o.gset != 0

/-- One grant of a bay's Truss or drain path: an operation that cannot have its bays faults, a SCRUB that waits keeps its bays, an operation
that has all its bays starts, and the operation that R17 ranks first comes next. -/
def grantBay (b : Bay) (drain : Bool) (s : State) : State :=
  if !blockOpen s then s
  else
    match s.ops.find? fun o => refused s o && isT o != drain && (aim s o).getLsb b with
    | some o => refuse o s
    | none =>
      match scrubFor s b with
      | some o => startScrub o s
      | none =>
        let unit := if drain then (s.by b).drain else (s.by b).truss
        let wants := s.ops.filter (if drain then wantsDrain s b else wantsTruss s b)
        match unit, bestRank s wants, reservedOp s drain b with
        | none, some o, _ => if bayOpen drain s b then reserveFor drain b o s else s
        | some _, _, some o => tryStart (startOf drain o) o s
        | _, _, _ => s

/-- BAY_GRANT (R16 to R18). -/
def execBayGrant (b : Bay) (drain : Bool) (s : State) : Host.Outcome State Fault Refusal :=
  if s.present b then .next (grantBay b drain s) else .fault (.absentBay b)

/-! ### Ends of raises -/

/-- fc of the raise under way: 514, longer for full CSR slots and for ports that deliver less (R31, R33, R116, R204). -/
def raiseTime (s : State) (o : Op) : Nat :=
  ((raiseWork s o).map fun x => 2 + max (512 + csrExtra (opRead s o) x.2.2.1) (portFc 1 (o.lat / fcLen s) (winBytes x.2.2.2))).foldl max 514

/-- A parity error on the raise bus: the face is written again (R259). -/
def raiseAgain (o : Op) (parity : List (Bay × Nat)) (s : State) : State :=
  let s := parity.foldl (fun s x => noteErr o.ctx x.1 (.parityCol x.2) s) s
  let s := recordFault o.ctx 0x33 1 o.q o.qidx 0 s
  let t := s.clk
  let dt := fcTime s 514
  s.modOp o.ctx o.seq fun o => { o with why := 10, tFirst := t, ran := 0, tDue := o.tDue + dt }

/-- Digests of the rows a RAISE reads: of a CSR row all entries, before any of them is dropped (R125, R298, R299). -/
def raiseDigests (s : State) (o : Op) (r : RaiseRec) : List (BitVec 64) :=
  let rd := opRead s o
  let d := physView r.db
  if sform d == 1 then
    (List.range d.vrows).map fun i =>
      let es := (csrEntries rd d (d.vrow0 + i)).getD []
      crc64 (es.flatMap (fun e => rdBytes rd d.loc (d.base + e * (r.fmt.width / 8)) (r.fmt.width / 8)) ++
        es.flatMap fun e => rdBytes rd d.auxLoc (d.aux + csrPtrBytes d + 4 * e) 4)
  else (List.range d.vrows).map fun i => crc64 (rowData rd r.fmt d i)

/-- The end of a RAISE: faces, tags, RAISE records, cullet, digest, completion (R31, R125, R171, R189). -/
def endRaise (o : Op) (r : RaiseRec) (s : State) : State :=
  let s := loadFaces o r false s
  let s := (maskBays o.gset).zipIdx.foldl (fun s x => s.modBay x.1 fun y =>
    { y with recs := y.recs.set o.ctx.1 (some { r with rank := x.2 }) o.ctx.2 }) s
  let fl := if fctlXmode r.db.fctl == 2 then (heldCols (opRead s o) r 0 r.n).2.1 else {}
  let s := if sform r.db == 1 then addDrops o.ctx (heldCols (opRead s o) r 0 0).2.2 s else s
  let s := fireWatch o 1 (raiseDigests s o r) s
  endTruss { o with opFlags := fl } s

/-- The end of a raise of any operation: the next phase begins (R127, R171, R267). -/
def endRaising (o : Op) (s : State) : State :=
  let t := s.clk
  let next (f : Op → Op) (s : State) : State := s.modOp o.ctx o.seq fun o => { f o with why := 0, tFirst := t, ran := 0 }
  if o.reraise != 0 then
    next (fun o => { o with reraise := 0 })
      ((maskBays o.reraise).foldl (fun s b => match reraiseOf s o b with
        | some (c, r, fold) => loadFace o b c r fold s
        | none => s) s)
  else match o.opc, o.rr with
    | 0x01, some r => endRaise o r s
    | 0x06, some r => next (fun o => { o with raised := true }) (loadFaces o r true s)
    | _, _ => s

/-- The segments of a phase pass one after the other, each under its stall reason (R281, R286; log entry 10). -/
def runSegs (o : Op) (segs : List (Nat × Nat)) (s : State) : State :=
  let s := (segs.foldl (fun (x : State × Nat) g =>
    if g.2 == 0 then x
    else
      let s := x.1.modOf o fun o => { o with why := g.1 }
      (at' (phaseEnd s o (x.2 + g.2)) s, x.2 + g.2)) (s, 0)).1
  s.modOf o fun o => { o with why := 0 }

/-- The empty slots and waits that a Delay adds: starved gather, staging conflicts, fabric (R37, R196, R204). -/
def delaySegs (d : Delay) : List (Nat × Nat) := [(2, d.starved), (3, d.staging), (5, d.fabric)]

/-- The lag that a Delay names for the bays of a multi-bay operation (R301). -/
def delayLag (o : Op) (d : Delay) (s : State) : State :=
  if (maskBays o.gset).length < 2 then s
  else (maskBays o.gset).foldl (fun s b => addLag o b ((d.lag[b.val]?).getD 0) s) s

/-- RAISE_DONE (R31, R196, R259, R260, R301). -/
def execRaiseDone (c : Ctx) (seq : BitVec 8) (x : RaiseEnd) (s : State) : Host.Outcome State Fault Refusal :=
  match s.op? c seq with
  | none => .next s
  | some o =>
    if opReady s o && raising o && (Instr.raiseDone c seq x).wellFormed then
      let s := delayLag o x.delay (runSegs o ((o.why, raiseTime s o) :: delaySegs x.delay) s)
      match poisonedIn s ((raiseWork s o).flatMap (·.2.2.2)) with
      | some row => .next (poisonFail o row s)
      | none => if x.parity.isEmpty then .next (endRaising o s) else .next (raiseAgain o x.parity s)
    else .next s

/-! ### Ends of passes -/

/-- Whether a Truss operation other than a RAISE may stream (R44). -/
def canStream (s : State) (o : Op) : Bool :=
  opReady s o && !raising o && !o.streamed &&
    (o.opc == 0x03 || o.opc == 0x04 || o.opc == 0x06 || o.opc == 0x0C || o.opc == 0x10B)

/-- The first attempt of a PASS or FOLD streams to its last write (R42, R47, R77, R301). -/
def streamRun (o : Op) (faults : List SlotFault) (d : Delay) (s : State) : State :=
  let s := delayLag o d (runSegs o (streamSegs s o ++ delaySegs d) s)
  let s := addDrops o.ctx (streamDrops s o) s
  let s := runPass o (fun _ => List.range (slotsOf (opRows o) (opRate o))) 0 faults false s
  s.modOp o.ctx o.seq fun o => { o with streamed := true, tDue := s.clk }

/-- The first attempt of a PASS or FOLD, and what follows it. -/
def firstAttempt (o : Op) (faults : List SlotFault) (d : Delay) (s : State) : State := settle o.ctx o.seq (streamRun o faults d s)

/-- fc of a SEED, no fewer than its ports need (R175, R204). -/
def plainTime (s : State) (o : Op) : Nat :=
  max (opTime o (maskBays o.gset).length)
    (if o.da.loc then portFc (maskBays o.gset).length (o.lat / fcLen s) (winBytes (viewRanges (fmtOf (iFA o.word)) o.da)) else 0)

/-- A ROUGH completes: its decisions replace the context's set (R122, R123). DESIGN CHOICE (log entry 51): the joints keep the face
and the tag they had before. -/
def endRough (o : Op) (s : State) : State :=
  let r := runRough s o
  let s := s.modCtx o.ctx fun x => { x with rough := some r }
  endTruss { o with info := r.skip.length } s

/-- A SEED completes (R175). -/
def endSeed (o : Op) (s : State) : State :=
  let s := runSeed o s
  match s.op? o.ctx o.seq with
  | some o => endTruss o s
  | none => s

/-- Poison a Truss operation reads: in its operands, or in the rows whose seeds a pass with FIRST = 0 takes (R38, R257). -/
def trussPoison (s : State) (o : Op) : Option Nat :=
  (poisonedIn s (trussReads s o)).orElse fun _ =>
    if o.first || !(o.opc == 0x03 || o.opc == 0x06) then none
    else (maskBays o.gset).findSome? fun b => bankPoison s b (s.by b).fill1 (s.by b).fill

/-! ### The passes of a ROUGH or a product (R122, R144, R259 to R264) -/

/-- The bays of an operation, each with whether it has a checksum column. -/
def chkBays (s : State) (o : Op) : List (Bay × Bool) := (maskBays o.gset).map fun b => (b, hasChecksum (s.by b))

/-- The passes from `p` on, up to the first with withheld slots: the pass reached, and what was done; at most `n` of them. -/
def runPasses (x : Inner) (bays : List (Bay × Bool)) (faults : List SlotFault) : Nat → Nat → InnerRun → Nat × InnerRun
  | 0, p, r => (p, r)
  | n + 1, p, r =>
    let y := x.attempt bays p (fun _ => List.range x.slots) faults false r.patch
    let y := { y with skips := r.skips ++ y.skips, found := r.found ++ y.found }
    if y.held.isEmpty then runPasses x bays faults n (p + 1) y else (p, y)

/-- Counts and logs what an attempt found: rows not compared, attributed errors, failed comparisons (R259, R262, R274). -/
def noteInner (o : Op) (seen : List SlotFault) (r : InnerRun) (s : State) : State :=
  let s := r.skips.foldl (fun s x => s.modBay x.1 fun y => { y with abftSkip := satAdd y.abftSkip x.2 }) s
  let s := (seen.filter fun f => o.gset.getLsb f.bay).foldl (fun s f => noteErr o.ctx f.bay f.err s) s
  r.found.dedup.foldl (fun s b => report 0x34 1 (ctxCode o.ctx) 4 b.val s) s

/-- What an attempt leaves in the operation. -/
def keepInner (o : Op) (p retry : Nat) (r : InnerRun) (s : State) : State :=
  s.modOf o fun o => { o with pass := p, patch := r.patch, held := r.held, cause := r.cause, streamed := true, retry := retry, tDue := s.clk }

/-- After an attempt: a replay of its pass follows, or the next pass, or the end of the operation (R122, R264); a tenant reset ends it after
this one (R144, R232). -/
def settleInner (o : Op) (s : State) : State :=
  match s.opOf o with
  | none => s
  | some o =>
    let t := s.clk
    if (s.cx o.ctx).rstBusy then release (o.whole s) s
    else if needsAbft o then s.modOf o fun o => { o with why := 9, tFirst := t, ran := 0 }
    else if !o.held.isEmpty then persistent o s
    else if o.pass < (opInner s o).passes then
      s.modOf o fun o => { o with why := 0, streamed := false, retry := 0, tFirst := t, ran := 0 }
    else if o.opc == 0x10B then endProduct o s
    else endRough o s

/-- The passes that are left run, up to one that must be replayed. -/
def innerAttempt (o : Op) (faults : List SlotFault) (d : Delay) (s : State) : State :=
  let x := opInner s o
  let k := if (s.cx o.ctx).rstBusy then 1 else x.passes - o.pass
  let (p, r) := runPasses x (chkBays s o) faults k o.pass { patch := o.patch }
  let n := min x.passes (p + 1)
  let s := delayLag o d (runSegs o ((0, (n - o.pass) * innerPass o) :: delaySegs d) s)
  let seen := faults.filter fun f => decide (o.pass * x.slots ≤ f.slot) && decide (f.slot < n * x.slots)
  settleInner o (keepInner o p 0 r (noteInner o seen r s))

/-- An ABFT replay of the pass that a ROUGH or a product has reached (R263, R264). -/
def innerReplay (o : Op) (faults : List SlotFault) (s : State) : State :=
  let x := opInner s o
  let slots (b : Bay) : List Nat := (o.held.filter (·.1 == b)).map (·.2)
  let r := x.attempt (chkBays s o) o.pass slots faults (decide (o.retry + 1 = 2)) o.patch
  let seen := faults.filter fun f => o.held.any fun h => h.1 == f.bay && o.pass * x.slots + h.2 == f.slot
  let p := if r.held.isEmpty then o.pass + 1 else o.pass
  settleInner o (keepInner o p (o.retry + 1) r (noteInner o seen r s))

/-- TRUSS_OP_COMPLETE (R44). -/
def execTrussOpComplete (c : Ctx) (seq : BitVec 8) (faults : List SlotFault) (delay : Delay) (s : State) :
    Host.Outcome State Fault Refusal :=
  match s.opIn .t c seq with
  | none => .next s
  | some o =>
    if canStream s o && (Instr.trussOpComplete c seq faults delay).wellFormed then
      match trussPoison s o with
      | some row => .next (poisonFail o row s)
      | none =>
        match o.opc with
        | 0x04 => .next (endSeed o (delayLag o delay (runSegs o ((0, plainTime s o) :: delaySegs delay) s)))
        | 0x0C | 0x10B => .next (innerAttempt o faults delay s)
        | _ => .next (firstAttempt o faults delay s)
    else .next s

/-- fc of an ABFT replay of `w` slots (R263). -/
def replayTime (o : Op) (w : Nat) : Nat := w + opFill o

/-- An ABFT replay is recorded and takes its time, the lag of a bay that alone has withheld slots (R263, R265, R301). -/
def replayWait (o : Op) (s : State) : State :=
  let k := replayTime o (o.held.map (·.2)).dedup.length
  let s := recordFault o.ctx o.cause 1 o.q o.qidx 0 s
  let s := emitReplay o.cause o s
  let s := at' (phaseEnd s o k) s
  match (o.held.map (·.1)).dedup with
  | [b] => if (maskBays o.gset).length < 2 then s else addLag o b k s
  | _ => s

/-- The withheld slots of a PASS or FOLD run again; after the second replay they are written as they come out (R263, R264). -/
def replayRun (o : Op) (faults : List SlotFault) (s : State) : State :=
  let slots (b : Bay) : List Nat := (o.held.filter (·.1 == b)).map (·.2)
  let s := (replayWait o s).modOp o.ctx o.seq fun o => { o with retry := o.retry + 1 }
  let s := runPass o slots (o.attempt * o.replay.2) faults (decide (o.retry + 1 = 2)) s
  s.modOp o.ctx o.seq fun o => { o with tDue := s.clk }

/-- One ABFT replay, and what follows it. -/
def abftReplay (o : Op) (faults : List SlotFault) (s : State) : State :=
  if o.opc == 0x0C || o.opc == 0x10B then innerReplay o faults (replayWait o s) else settle o.ctx o.seq (replayRun o faults s)

/-- ABFT_REPLAY (R263 to R265): its slots and seeds are read again (R257). -/
def execAbftReplay (c : Ctx) (seq : BitVec 8) (faults : List SlotFault) (s : State) : Host.Outcome State Fault Refusal :=
  match s.opIn .t c seq with
  | none => .next s
  | some o =>
    if needsAbft o && opReady s o && (Instr.abftReplay c seq faults).wellFormed then
      match trussPoison s o with
      | some row => .next (poisonFail o row s)
      | none => .next (abftReplay o faults s)
    else .next s

/-- One overflow replay of the whole tile with the product exponent lowered (R86, R87). DESIGN CHOICE (log entry 52): the lines that a
stream from a window received at the grant are used again and no request is sent, while staging is read anew. -/
def overflowRun (o : Op) (faults : List SlotFault) (s : State) : State :=
  let n := o.attempt + 1
  let k := streamTime s o
  let s := s.modOp o.ctx o.seq fun o =>
    { o with attempt := n, retry := 0, held := [], ovfNow := false, bayFlags := [] }
  let s := emitReplay 0 o s
  let s := at' (phaseEnd s o k) s
  let s := runPass { o with attempt := n } (fun _ => List.range (slotsOf (opRows o) (opRate o))) (n * o.replay.2) faults false s
  s.modOp o.ctx o.seq fun o => { o with tDue := s.clk }

/-- One overflow replay, and what follows it (R87). -/
def overflowReplay (o : Op) (faults : List SlotFault) (s : State) : State := settle o.ctx o.seq (overflowRun o faults s)

/-- OVERFLOW_REPLAY (R87): its rows are read again (R257). -/
def execOverflowReplay (c : Ctx) (seq : BitVec 8) (faults : List SlotFault) (s : State) : Host.Outcome State Fault Refusal :=
  match s.op? c seq with
  | none => .next s
  | some o =>
    if needsOverflow s o && opReady s o && (Instr.overflowReplay c seq faults).wellFormed then
      match trussPoison s o with
      | some row => .next (poisonFail o row s)
      | none => .next (overflowReplay o faults s)
    else .next s

/-! ### The end of a DRAIN -/

/-- Poison in the bank slices a DRAIN reads (R257). -/
def drainPoison (s : State) (o : Op) : Option Nat :=
  (maskBays o.gset).findSome? fun b => bankPoison s b (takenBank s o b).1 (takenBank s o b).2

/-- The banks a DRAIN has read become FREE (R44). -/
def freeBanks (o : Op) (s : State) : State :=
  (maskBays o.gset).foldl (fun s b => let w := (takenBank s o b).1; s.modBay b fun x => x.modBank w Bank.free) s

/-- Each bay writes its part through its own port (R203). Answers the flushes. -/
def drainWrites (o : Op) (ws : List (Bay × Wr)) (s : State) : State × Nat :=
  (maskBays o.gset).foldl (fun (x : State × Nat) b =>
    let (s, n) := issueWrites o.ctx (.op o.ctx o.seq) [b] (outRanges o) (ws.filterMap fun w => if w.1 == b then some w.2 else none) x.1
    (s, x.2 + n)) (s, 0)

/-- The DRAIN converts, writes and frees its banks (R46, R71, R83, R88, R111, R132, R133). DESIGN CHOICE (log entry 52): where its banks are of
different chains, its record holds the r and e of the lowest bay's. -/
def endDrain (o : Op) (s : State) : State :=
  let k := ((takenBanks s o).head?).map (·.2)
  let d := runDrain s o
  let r := (k.map (·.r)).getD 0
  let fl := Flags.union (d.flags.map (·.2))
  let s := d.flags.foldl (fun s x => raiseFlags o.ctx x.1 x.2 s) s
  let s := freeBanks o s
  let s := fireWatch o 2 (d.rows.map crc64) s
  let (s, n) := drainWrites o d.wrs (leaveUnit o s)
  awaitFlushes { o with opFlags := fl, amax := d.amax, attempt := r, replay := (o.replay.1, if r == 0 then o.replay.2 else (k.map (·.e)).getD 0 / r) } n s

/-- DRAIN_COMPLETE (R44, R46, R144, R176, R196). -/
def execDrainComplete (c : Ctx) (x : DrainEnd) (s : State) : Host.Outcome State Fault Refusal :=
  match s.opIn .d c x.seq with
  | none => .next s
  | some o =>
    if opReady s o && opClass o.opc == some .d && (Instr.drainComplete c x).wellFormed then
      let s := delayLag o x.delay (runSegs o ((0, drainTime s o) :: delaySegs x.delay) s)
      match (drainPoison s o).orElse fun _ => poisonedIn s (drainReads s o) with
      | some row => .next (poisonFail o row s)
      | none => .next (if o.ofLehr then stepDone o (freeBanks o s) else endDrain o s)
    else .next s

end Sys2Proof.Machine
end

