-- ==== Sys2Proof/Machine/Registers.lean ====
section
/-! DEFINITION. The register port: which accesses are allowed, reads, latched pairs and posted writes (R216 to R219, R222). -/

namespace Sys2Proof.Machine

open Sys2Proof

/-! ### Accesses -/

/-- The firmware and boot tags. -/
def isFw (a : Access) : Bool := a.tag == 8 || a.tag == 9

def answer (x : Answer) (s : State) : State := { s with regs := { s.regs with answer := x } }

def err (s : State) : State := answer .err s

/-- The next bc, in which the port takes an access (R303). -/
def atBc (s : State) : State := advanceTo ((s.clk / bcLen + 1) * bcLen) s

/-- What an access does once the port answers (R250). -/
def access (f : State → State) (s : State) : State := if s.boot.running then f (atBc s) else s

/-- Whether a tag may read an address of its range (R216, R284, R306, R317). -/
def tagReads (s : State) (tag n : Nat) : Bool :=
  if tag == 8 || tag == 9 then true
  else if tag > 9 then false
  else if n < 0x1000 then !([0x0050, 0x0104, 0x0200, 0x0204].contains n || decide (0x0800 ≤ n))
  else if 0x2000 ≤ n && n < 0x4000 then (n - 0x2000) / 0x400 == tag
  else if 0x5000 ≤ n && n < 0x5400 then
    match ctxOfCode tag, blockBay s ((n - 0x5000) / 0x100) with
    | some c, some b => (s.curSet c).getLsb b
    | _, _ => false
  else 0x6000 ≤ n && n < 0x6240 && (n - 0x6000) / 0x40 == tag

/-- Whether a tag may write an address of its range. -/
def tagWrites (s : State) (tag n : Nat) : Bool :=
  if 0x1000 ≤ n && n < 0x1800 then tag == 9 && !s.prot.lock
  else if tag == 8 || tag == 9 then true
  else tag < 8 && ((0x2000 ≤ n && n < 0x4000) || 0x6000 ≤ n) && tagReads s tag n

/-- Registers with W1C bits (R297). -/
def isW1c (n : Nat) : Bool :=
  [0x0120, 0x0200, 0x1904, 0x1924].contains n || (decide (0x0800 ≤ n) && decide (n < 0x1000) && n % 32 == 0) ||
    match ctxAddr n with
    | some (_, off) => off == 0x054 || off == 0x0C4
    | none => false

/-- The registers of a context answer ERR while its reset is in progress, but for CTX_RST; a CTX_RST that waits for the wake of the common
domain reads BUSY = 1 too (R218, R232, R311). -/
def underReset (s : State) (n : Nat) : Bool :=
  match ctxAddr n with
  | some (c, off) => ((s.cx c).rstBusy || (postedAt s (n - off + 0x0F0)).getLsbD 0) && off != 0x0F0
  | none => false

def mayRead (s : State) (a : Access) (n : Nat) : Bool :=
  (regKind s n).isSome && tagReads s a.tag.toNat n && !(a.dbg && !isFw a) && !underReset s n

def mayWrite (s : State) (a : Access) (n : Nat) : Bool :=
  (regKind s n).isSome && tagWrites s a.tag.toNat n && !(a.dbg && !isFw a) && !underReset s n && !(a.dbg && isW1c n && !s.dbg.force)

def setAge (a : Access) (v : Nat) (s : State) : State :=
  { s with regs := { s.regs with rdAge := s.regs.rdAge.set a.tag.toNat (BitVec.ofNat 32 v) (by have := a.tag.isLt; simpa using this) } }

/-- The low words of latched pairs (R303). -/
def pairLow (n : Nat) : Bool :=
  n == 0x0130 || (decide (0x0800 ≤ n) && decide (n < 0x1000) && (n % 32 == 8 || n % 32 == 16)) ||
    (match ctxAddr n with | some (_, off) => off == 0x0D8 | none => false) ||
    (decide (0x5000 ≤ n) && decide (n < 0x5400) && n % 8 == 0 && (n % 0x100 < 0x10 || (decide (0x20 ≤ n % 0x100) && decide (n % 0x100 < 0x60)))) ||
    n == 0x5800 || n == 0x5808 || (decide (0x5820 ≤ n) && decide (n < 0x58A0) && n % 8 == 0)

/-- The fields that a read clears: their mask (R219, R276, R288, R314, R316). -/
def rcMask (n : Nat) : Nat :=
  if n == 0x0200 || n == 0x6404 || (decide (0x6410 ≤ n) && decide (n < 0x6450) && n % 0x10 == 4) then 0xFFFF0000
  else if (match ctxAddr n with | some (_, off) => decide (0x070 ≤ off) && decide (off ≤ 0x07C) | none => false) ||
    (decide (0x4000 ≤ n) && decide (n < 0x5000) && n % 0x400 == 0x018) || (decide (0x6000 ≤ n) && decide (n < 0x6240) && n % 0x40 == 0x18) then 0xFFFFFFFF
  else 0

/-- Subtracts a returned value from an RC field of the domain that counts it (R219). -/
def subtract (n : Nat) (v : Word) (s : State) : State :=
  let hi := BitVec.ofNat 16 (v.toNat / 65536)
  if n == 0x0200 then { s with ras := { s.ras with lost := s.ras.lost - hi } }
  else if n == 0x6404 then s.modBuf none fun t => { t with lost := t.lost - hi }
  else if h : 0x6000 ≤ n ∧ n < 0x6240 then
    let i : Ctx := ⟨(n - 0x6000) / 0x40, by omega⟩
    let r := s.trace.rings.get i
    { s with trace := { s.trace with rings := s.trace.rings.set i.1 { r with lost := r.lost - v } i.2 } }
  else if 0x6410 ≤ n && n < 0x6450 then
    match blockBay s ((n - 0x6410) / 0x10) with
    | some b => s.modBuf (some b) fun t => { t with lost := t.lost - hi }
    | none => s
  else
    match ctxAddr n with
    | some (c, off) =>
      if h : 0x070 ≤ off ∧ off ≤ 0x07C then
        s.modCtx c fun x => { x with cullet := x.cullet.set ((off - 0x070) / 4) (x.cullet.get ⟨(off - 0x070) / 4, by omega⟩ - v) }
      else s
    | none =>
      match blockBay s ((n - 0x4000) / 0x400) with
      | some b => s.modBay b fun x => { x with abftSkip := x.abftSkip - v }
      | none => s

/-- Keeps a request for a sleeping domain; the latest of a register comes last (R218). -/
def post (n : Nat) (v : Word) (s : State) : State :=
  { s with regs := { s.regs with posted := s.regs.posted.filter (fun x => x.1.toNat != n) ++ [(BitVec.ofNat 16 n, v)] } }

/-- The clearing of an RC field by a read: the shadow at once, the domain at once or when it wakes (R219). -/
def clearRc (n : Nat) (v : Word) (s : State) : State :=
  let part := v &&& BitVec.ofNat 32 (rcMask n)
  match regKind s n with
  | some (.shadow d _) =>
    let s := match shadowOf s n with
      | some x => { s with regs := { s.regs with shadows := s.regs.shadows.map fun y => if y.addr == x.addr then { y with val := v - part } else y } }
      | none => s
    if awake s d then subtract n part s else post n (postedAt s n + part) s
  | _ => subtract n part s

/-- One read: RC fields clear, the low word of a pair latches, a latched high word is returned once (R217, R219, R297). -/
def regRead (a : Access) (n : Nat) (s : State) : State :=
  if !mayRead s a n then err s
  else
    let tag := a.tag.toNat
    let latch := s.regs.latches.find? fun x => x.1 == a.tag && x.2.1.toNat == n
    let now := readTaken s tag n
    let (v, t) := if a.dbg then now else match latch with | some x => x.2.2 | none => now
    let age := ageWord s n t
    let s := if a.dbg then s else
      { s with regs := { s.regs with latches := s.regs.latches.filter fun x => !(x.1 == a.tag && x.2.1.toNat == n) } }
    let s := if pairLow n && !a.dbg then
        { s with regs := { s.regs with latches := s.regs.latches.filter (fun x => !(x.1 == a.tag && x.2.1.toNat == n + 4)) ++
          [(a.tag, BitVec.ofNat 16 (n + 4), readTaken s tag (n + 4))] } }
      else s
    let s := if n == 0x0008 then s else setAge a age s
    let s := if rcMask n != 0 && !a.dbg then clearRc n v s else s
    answer (.ok v) s

/-- REGISTER_READ_CLEAR (R219); a register without RC fields is read and nothing cleared. -/
def execRegisterReadClear (a : Access) (addr : BitVec 16) (s : State) : Host.Outcome State Fault Refusal :=
  .next (access (regRead a addr.toNat) s)

/-- PAIR_LOW_READ (R219). -/
def execPairLowRead (a : Access) (addr : BitVec 16) (s : State) : Host.Outcome State Fault Refusal :=
  if pairLow addr.toNat then .next (access (regRead a addr.toNat) s) else .next s

/-- Whether SHADOW_REFRESH may take a register. -/
def isShadow (s : State) (n : Nat) : Bool :=
  match regKind s n with
  | some (.shadow d _) => awake s d
  | _ => false

/-- A refresh takes both words of a pair in one snapshot (R219). -/
def refreshPair (n : Nat) (s : State) : State :=
  if pairLow n then refresh (n + 4) (refresh n s)
  else if 4 ≤ n && pairLow (n - 4) then refresh n (refresh (n - 4) s)
  else refresh n s

/-- SHADOW_REFRESH (R217). -/
def execShadowRefresh (addr : BitVec 16) (s : State) : Host.Outcome State Fault Refusal :=
  if isShadow s addr.toNat then .next (refreshPair addr.toNat s) else .next s

end Sys2Proof.Machine
end

