-- ==== Sys2Proof/Machine/Writes.lean ====
section
/-! DEFINITION. What register writes do, but for CTX_RST, DBG_CTL and the commands with rows of their own; doorbells, FEAT_ACK
and BOOTLOCK (R148 to R152, R165, R197, R198, R218, R220 to R223, R245, R276, R282 to R291, R302 to R317). An answer `none` is
ERR. -/

namespace Sys2Proof.Machine

open Sys2Proof

/-! ### Waking the common domain (R218, R240) -/

/-- Asks for the wake of the common fast domain. -/
def askFast (s : State) : State :=
  if s.fastOn || s.fastReq then s else { s with fastReq := true, fastAt := s.clk }

/-! ### Context registers (R148, R151, R160, R165, R311 to R315) -/

/-- A queue leaves IDLE when a tail write covers its first entry. -/
def setTail (c : Ctx) (q : QSel) (v : Nat) (s : State) : Option State :=
  if v % 65536 ≥ (s.qu c q).entries then none
  else
    let idle := (s.qu c q).count == 0 && (s.qu c q).loop.isNone
    let t := s.clk
    some (s.modQueue c q fun x => { x with tail := BitVec.ofNat 16 v, lastAt := if idle then t else x.lastAt })

def sizeOk (v : Nat) : Bool := decide (4 ≤ v % 32) && decide (v % 32 ≤ 16)

/-- A base with LOC = 0 must lie in the context's partition (R197). The high word, which holds LOC, is the one checked: the bring-up case of
R311 has the low word acknowledged before it, whatever the partition (15_register_map.md:303). -/
def baseOk (s : State) (c : Ctx) (lo : Word) (hi : Nat) : Bool :=
  hi.testBit 12 || inPartition s c (hi % 4096 * 2 ^ 32 + lo.toNat) 1

def stopped (s : State) (c : Ctx) : Bool := (s.cx c).mode == .stopped

def queueWrite (c : Ctx) (q : QSel) (off v : Nat) (s : State) : Option State :=
  let put (f : Queue → Queue) : Option State := some (s.modQueue c q f)
  match off with
  | 0x008 => if !stopped s c || v % 64 != 0 then none else put fun x => { x with baseLo := BitVec.ofNat 32 v }
  | 0x00C => if !stopped s c || !baseOk s c (s.qu c q).baseLo v then none else put fun x => { x with baseHi := BitVec.ofNat 13 v }
  | 0x010 => if !stopped s c || !sizeOk v then none else put fun x => { x with size := BitVec.ofNat 5 v }
  | 0x018 => setTail c q v s
  | _ => some s

/-- CQ_HEAD: the value must lie among the records from CQ_HEAD to CQ_TAIL. -/
def cqHeadOk (x : CtxState) (v : Nat) : Bool :=
  decide (v < x.cqEntries) && decide ((v + x.cqEntries - x.cqHead.toNat) % x.cqEntries ≤ cqUnread x)

def cqFullNow (x : CtxState) : Bool := (x.cqTail.toNat + 1) % x.cqEntries == x.cqHead.toNat

/-- FEAT_ACK (R152, R221, R250): both queues leave STOPPED. -/
def ackFeatures (c : Ctx) (v : Nat) (s : State) : Option State :=
  if !s.prot.lock || !s.boot.ready || (s.cx c).acked then none
  else
    let t := s.clk
    some (s.modCtx c fun x =>
      { x with feat := BitVec.ofNat 16 v &&& Config.featCap s.build, acked := true, mode := .active,
               qm := { x.qm with lastAt := t }, qp := { x.qp with lastAt := t } })

def ctxWrite (c : Ctx) (off v : Nat) (s : State) : Option State :=
  let put (f : CtxState → CtxState) : Option State := some (s.modCtx c f)
  match off with
  | 0x000 => ackFeatures c v s
  | 0x040 => if !stopped s c || v % 32 != 0 then none else put fun x => { x with cqLo := BitVec.ofNat 32 v }
  | 0x044 => if !stopped s c || !baseOk s c (s.cx c).cqLo v then none else put fun x => { x with cqHi := BitVec.ofNat 13 v }
  | 0x048 => if !stopped s c || !sizeOk v then none else put fun x => { x with cqSize := BitVec.ofNat 5 v }
  | 0x050 => if !cqHeadOk (s.cx c) (v % 65536) then none else put fun x => { x with cqHead := BitVec.ofNat 16 v }
  | 0x054 => put fun x => { x with cqFull := x.cqFull && (!v.testBit 0 || cqFullNow x) }
  | 0x058 => put fun x => { x with cqIrq := BitVec.ofNat 16 v }
  | 0x060 =>
    if !stopped s c || v % 16384 != 0 || !inPartition s c (v % 2 ^ 26) 16384 then none
    else put fun x => { x with descBase := BitVec.ofNat 26 v }
  | 0x068 =>
    if v / 16 % 16 == 0 then none else put fun x => { x with replayEn := v.testBit 0, replaySh := BitVec.ofNat 4 (v / 16) }
  | 0x0C0 => put fun x => { x with wdog := BitVec.ofNat 24 v }
  | 0x0C4 => put fun x => { x with irqFault := x.irqFault && !v.testBit 1, irqEpoch := x.irqEpoch && !v.testBit 2 }
  | o =>
    if h : 0x080 ≤ o ∧ o < 0x0C0 then put fun x => { x with sem := x.sem.set ((o - 0x080) / 4) (BitVec.ofNat 32 v) }
    else if o < 0x020 then queueWrite c .main o v s
    else if o < 0x040 then queueWrite c .prio (o - 0x020) v s
    else some s

/-! ### Global, protection, TM registers -/

def clearLog (i : Fin 64) (s : State) : State := { s with ras := { s.ras with log := s.ras.log.set i.1 none i.2 } }

def globalWrite (n v : Nat) (s : State) : Option State :=
  let put (g : Global) : Option State := some { s with g := g }
  let g := s.g
  match n with
  | 0x0010 => if v % 2 ^ 24 == 0 then none else put { g with portTmo := BitVec.ofNat 24 v }
  | 0x0014 => if v % 2 ^ 24 == 0 then none else put { g with xchTmo := BitVec.ofNat 24 v }
  | 0x0100 => if v % 256 < 20 || Config.capMax s.build < v % 256 then none else put { g with pwrCap := BitVec.ofNat 8 v }
  | 0x0108 =>
    if s.bays.any fun b => bitField v (2 * b.val) 2 == 3 then none
    else put { g with bayPolicy := BitVec.ofNat 8 (v % 4 ^ Config.bays s.build) }
  | 0x010C => if v % 65536 == 0 then none else put { g with pgDelay := BitVec.ofNat 16 v }
  | 0x0120 => some { s with boot := { s.boot with intr := s.boot.intr && !v.testBit 5 } }
  | 0x0140 =>
    if v / 65536 % 256 == 0 then none
    else
      let s := if v.testBit 0 then s else { s with ctx := s.ctx.map fun x => { x with nset := 0, nleft := 0 } }
      some { s with g := { g with narrow := v.testBit 0, thresh := BitVec.ofNat 8 (v / 256), hold := BitVec.ofNat 8 (v / 65536) } }
  | 0x0200 => some { s with ras := { s.ras with pend := s.ras.pend && !v.testBit 0 } }
  | 0x0204 => if v % 65536 == 0 then none else put { g with failWin := BitVec.ofNat 16 v }
  | _ =>
    if h : 0x0800 ≤ n ∧ n < 0x1000 then
      if n % 32 == 0 && v.testBit 11 then some (clearLog ⟨(n - 0x0800) / 32, by omega⟩ s) else some s
    else some s

/-- BOOTLOCK (R220, R221). -/
def lockWrite (v : Nat) (s : State) : Option State :=
  if v > 1 then none else some { s with prot := { s.prot with lock := s.prot.lock || v == 1 } }

def protWrite (n v : Nat) (s : State) : Option State :=
  let put (p : Prot) : Option State := some { s with prot := p }
  let p := s.prot
  let m := (Config.bayMask s.build).toNat
  if n == 0x1000 then lockWrite v s
  else if h : 0x1010 ≤ n ∧ n < 0x1034 then
    if v > 255 || (v % 16 &&& m) != v % 16 || (v / 16 &&& m) != v / 16 then none
    else put { p with pri := p.pri.set ((n - 0x1010) / 4) (BitVec.ofNat 4 v), alt := p.alt.set ((n - 0x1010) / 4) (BitVec.ofNat 4 (v / 16)) }
  else if h : 0x1040 ≤ n ∧ n < 0x1064 then
    if bitField v 10 6 != 0 || bitField v 26 5 != 0 then none
    else put { p with part := p.part.set ((n - 0x1040) / 4) ⟨BitVec.ofNat 10 v, BitVec.ofNat 10 (v / 65536), v.testBit 31⟩ }
  else if h : 0x1100 ≤ n ∧ n < 0x1500 then
    let i := (n - 0x1100) / 16
    let x := p.window.get ⟨i, by omega⟩
    let set (w : Window) : Option State := put { p with window := p.window.set i w }
    match n % 16 with
    | 0 => set { x with base := BitVec.ofNat 32 v }
    | 4 => set { x with last := BitVec.ofNat 32 v }
    | _ =>
      if v > 255 then none
      else set { x with en := v.testBit 0, wr := v.testBit 1, tier := BitVec.ofNat 2 (v / 4), owner := BitVec.ofNat 4 (v / 16) }
  else some s

/-- Whether a peer table lies in TM's partition (R310). -/
def peersOk (s : State) (base count : Nat) : Bool :=
  base % 16 == 0 && decide (count ≤ 4096) && (count == 0 || inPartition s tm base (16 * count))

def tmWrite (n v : Nat) (s : State) : Option State :=
  let put (g : Global) : Option State := some { s with g := g }
  let g := s.g
  match n with
  | 0x1904 => put { g with foStatDone := g.foStatDone && !v.testBit 1 }
  | 0x1908 => put { g with foTmo := BitVec.ofNat 24 v }
  | 0x1924 => put { g with repDone := g.repDone && !v.testBit 1 }
  | 0x1930 => put { g with notify := BitVec.ofNat 31 v, notifyEn := v.testBit 31 }
  | 0x1940 => if peersOk s (v % 2 ^ 26) g.peerCount.toNat then put { g with peerBase := BitVec.ofNat 26 v } else none
  | 0x1944 => if peersOk s g.peerBase.toNat (v % 2 ^ 13) then put { g with peerCount := BitVec.ofNat 13 v } else none
  | _ => some s

/-! ### Counters (R282 to R284) -/

/-- Replaces one word of a 64-bit counter. -/
def setWord (x : BitVec 64) (hi : Bool) (v : Nat) : BitVec 64 :=
  BitVec.ofNat 64 (if hi then x.toNat % 2 ^ 32 + 2 ^ 32 * v else x.toNat / 2 ^ 32 * 2 ^ 32 + v)

/-- A counter configuration that the build has (R283). -/
def cfgOk (s : State) (bay : Bool) (v : Nat) : Bool :=
  decide (v % 16 ≤ 4) && (decide (v % 16 < 2) || (Config.featCap s.build).getLsbD 15) && (!bay || decide (bitField v 17 4 ≤ 1))

def setCfg (v : Nat) (x : SelCnt) : SelCnt := { x with cfg := BitVec.ofNat 32 (v % 2 ^ 30) }

def countWrite (n v : Nat) (s : State) : Option State :=
  if n < 0x5800 then
    match blockBay s ((n - 0x5000) / 0x100) with
    | none => some s
    | some b =>
      let o := n % 0x100
      if h : 0x20 ≤ o ∧ o < 0x60 then
        some (s.modBay b fun x => let y := x.sel.get ⟨(o - 0x20) / 8, by omega⟩
          { x with sel := x.sel.set ((o - 0x20) / 8) { y with cnt := setWord y.cnt (o % 8 == 4) v } })
      else if h : 0x60 ≤ o ∧ o < 0x80 then
        if cfgOk s true v then
          some (s.modBay b fun x => { x with sel := x.sel.set ((o - 0x60) / 4) (setCfg v (x.sel.get ⟨(o - 0x60) / 4, by omega⟩)) })
        else none
      else some s
  else if h : 0x5820 ≤ n ∧ n < 0x58A0 then
    let y := s.cnt.gsel.get ⟨(n - 0x5820) / 8, by omega⟩
    some { s with cnt := { s.cnt with gsel := s.cnt.gsel.set ((n - 0x5820) / 8) { y with cnt := setWord y.cnt (n % 8 == 4) v } } }
  else if h : 0x58A0 ≤ n ∧ n < 0x58E0 then
    if cfgOk s false v then
      some { s with cnt := { s.cnt with gsel := s.cnt.gsel.set ((n - 0x58A0) / 4) (setCfg v (s.cnt.gsel.get ⟨(n - 0x58A0) / 4, by omega⟩)) } }
    else none
  else some s

/-! ### Trace (R287 to R291) -/

def timeHiRec (s : State) : TraceRec :=
  { typ := 0x20, eng := 0xF, ctx := 0xF, time := BitVec.ofNat 32 (timebase s / 2 ^ 32) }

def anyRing (s : State) : Bool := allCtx.any fun c => (s.trace.rings.get c).en

/-- A record that no engine produces enters a buffer; one that matches fires the trigger first (R287, R289). -/
def storePlain (b : Option Bay) (r : TraceRec) (s : State) : State :=
  storeRec b [r] (State.ifThen (triggers s r) (fireTrigger s.trace.src.toNat) s)

/-- ARM (R287 to R289): the buffer is emptied; a LOSS record tells what was dropped since DONE, behind TRIGGER where the pre part has no slot
(log entry 52); TIME_HI follows. -/
def armBuf (b : Option Bay) (s : State) : State :=
  let u := s
  let s := s.modBuf b fun t =>
    let later := ringNone u && t.preCap b.isSome == 0
    { t with armed := true, triggered := false, done := false, post := [], dropped := if later then t.dropped else 0
             recs := if t.mode == 2 then (if t.dropped == 0 || !ringNone u || later then [] else [lossRec u 0xF t.dropped]) else t.recs }
  State.ifThen (anyRing s) (storePlain b (timeHiRec s)) s

/-- TB_CTL (R288). -/
def tbWrite (b : Option Bay) (v : Nat) (s : State) : Option State :=
  let t := bufOf s b
  let m := v % 4
  let p := v / 16 % 16
  if m == 3 || (t.en && (m != t.mode.toNat || p != t.pre.toNat)) ||
      (v.testBit 3 && m == 2 && !(t.recs.isEmpty && t.post.isEmpty)) then none
  else
    let s := s.modBuf b fun t => { t with mode := BitVec.ofNat 2 m, en := v.testBit 2, pre := BitVec.ofNat 4 p }
    some (if v.testBit 3 then armBuf b s else s)

/-- TRIG_CTL (R289). -/
def trigWrite (v : Nat) (s : State) : Option State :=
  if v % 8 > 4 then none
  else
    let s := { s with trace := { s.trace with src := BitVec.ofNat 3 v, ttype := BitVec.ofNat 8 (v / 256) } }
    some (if v.testBit 3 then fireTrigger 0 s else s)

/-- PURGE (R290): a context's undelivered records leave every buffer. -/
def purge (c : Ctx) (s : State) : State :=
  let f (t : TraceBuf) : TraceBuf := { t with recs := t.recs.filter (·.ctx != ctxCode c), post := t.post.filter (·.ctx != ctxCode c) }
  (allBays.foldl (fun s b => s.modBuf (some b) f) s).modBuf none f

def setRing (c : Ctx) (f : Ring → Ring) (s : State) : State :=
  { s with trace := { s.trace with rings := s.trace.rings.set c.1 (f (s.trace.rings.get c)) c.2 } }

def ringBase (r : Ring) : Nat := r.baseHi.toNat * 2 ^ 32 + r.baseLo.toNat

/-- A trace ring register (R290). -/
def ringWrite (c : Ctx) (off v : Nat) (s : State) : Option State :=
  let r := s.trace.rings.get c
  match off with
  | 0x00 => if r.en || v % 4096 != 0 then none else some (setRing c (fun r => { r with baseLo := BitVec.ofNat 32 v }) s)
  | 0x04 => if r.en then none else some (setRing c (fun r => { r with baseHi := BitVec.ofNat 12 v }) s)
  | 0x08 => if v % 32 < 8 || 24 < v % 32 then none else some (setRing c (fun r => { r with size := BitVec.ofNat 5 v }) s)
  | 0x10 => some (setRing c (fun r => { r with rd := BitVec.ofNat 24 v }) s)
  | 0x14 =>
    if v.testBit 0 && !rangeOk s c true ⟨true, ringBase r, 16 * 2 ^ r.size.toNat⟩ then none
    else
      let s := setRing c (fun r => { r with en := v.testBit 0, stall := v.testBit 1, all := v.testBit 2 && c == tm }) s
      some (if v.testBit 3 then purge c s else s)
  | _ => some s

def traceWrite (n v : Nat) (s : State) : Option State :=
  if h : 0x6000 ≤ n ∧ n < 0x6240 then ringWrite ⟨(n - 0x6000) / 0x40, by omega⟩ (n % 0x40) v s
  else match n with
    | 0x6400 => tbWrite none v s
    | 0x6480 => trigWrite v s
    | 0x6484 => some { s with trace := { s.trace with tlayer := BitVec.ofNat 24 v } }
    | n =>
      match blockBay s ((n - 0x6410) / 0x10) with
      | some b => if n % 0x10 == 0 && n != 0x6404 then tbWrite (some b) v s else some s
      | none => some s

/-- The parts that SNAP_CTL names; bits of absent bays are reserved (R24, R296). -/
def snapSelOf (s : State) (v : Nat) : BitVec 8 := BitVec.ofNat 8 v &&& ((Config.bayMask s.build).zeroExtend 8 ||| 0xF0)

/-- SNAP_ADDR, and SNAP_CTL without START (R296). -/
def snapWrite (n v : Nat) (s : State) : Option State :=
  match n with
  | 0x7010 => some { s with dbg := { s.dbg with snapLo := BitVec.ofNat 32 v } }
  | 0x7014 => some { s with dbg := { s.dbg with snapHi := BitVec.ofNat 12 v } }
  | 0x7018 => some { s with dbg := { s.dbg with snapSel := snapSelOf s v } }
  | _ => some s

/-- The effect of a write on the unit that owns the register; the commands with rows of their own apart. -/
def plainEffect (n v : Nat) (s : State) : Option State :=
  if n < 0x1000 then globalWrite n v s
  else if n < 0x1800 then protWrite n v s
  else
    match ctxAddr n with
    | some (c, off) => ctxWrite c off v s
    | none =>
      if n < 0x4000 then tmWrite n v s
      else if n < 0x5000 then some s
      else if n < 0x6000 then countWrite n v s
      else if n < 0x7000 then traceWrite n v s
      else snapWrite n v s

/-! ### Rows -/

/-- A native write reaches the shadows of a sleeping common domain that show what it changed: queue states, IRQ_STAT, CURSET, NSET (R217,
R250). -/
def nativeShadows (n : Nat) (s : State) : State :=
  if s.fastOn then s
  else
    match ctxAddr n with
    | some (c, _) => refreshNative c s
    | none =>
      if h : 0x1010 ≤ n ∧ n < 0x1034 then refreshNative ⟨(n - 0x1010) / 4, by omega⟩ s
      else if n == 0x0140 then allCtx.foldl (fun s c => refresh ((if c == tm then 0x1800 else 0x2000 + 0x400 * c.val) + 0x0E8) s) s
      else s

/-- A write that the register's own rules accept or refuse: native at once; shadowed in an awake domain at once; else posted
with the shadow updated, and a wake source asks for its wake (R218, log entry 8). A posted W1C write adds its bits to those posted
before. -/
def regWrite (a : Access) (n : Nat) (v : Word) (f : State → Option State) (s : State) : State :=
  if !mayWrite s a n then err s
  else
    match f s with
    | none => err s
    | some t =>
      match regKind s n with
      | some (.shadow d wake) =>
        if awake s d then answer .ack (refresh n t)
        else
          let t := if isW1c n then (plainEffect n (postedAt s n).toNat t).getD t else t
          let s := setShadow n (shadowValue t n) (post n (if isW1c n then postedAt s n ||| v else v) s)
          answer .ack (if wake then askFast s else s)
      | _ => answer .ack (nativeShadows n t)

def ctxBase (c : Ctx) : Nat := if c == tm then 0x1800 else 0x2000 + 0x400 * c.val

def tailAddr (c : Ctx) (q : QSel) : Nat := ctxBase c + (match q with | .main => 0x018 | .prio => 0x038)

/-- DOORBELL: a write of QM_TAIL or QP_TAIL (R148, R149, R218). -/
def execDoorbell (a : Access) (c : Ctx) (q : QSel) (v : Word) (s : State) : Host.Outcome State Fault Refusal :=
  .next (access (regWrite a (tailAddr c q) v (setTail c q v.toNat)) s)

/-- FEAT_ACK (R152). -/
def execFeatAck (a : Access) (c : Ctx) (v : Word) (s : State) : Host.Outcome State Fault Refusal :=
  .next (access (regWrite a (ctxBase c) v (ackFeatures c v.toNat)) s)

/-- BOOTLOCK (R220, R221). -/
def execBootlock (a : Access) (v : Word) (s : State) : Host.Outcome State Fault Refusal :=
  .next (access (regWrite a 0x1000 v (lockWrite v.toNat)) s)

def tbAddr : Option Bay → Nat
  | none => 0x6400
  | some b => 0x6410 + 0x10 * b.val

/-- ARM: a write of TB_CTL with ARM = 1 (R288). -/
def execArm (a : Access) (buf : Option Bay) (v : Word) (s : State) : Host.Outcome State Fault Refusal :=
  .next (access (regWrite a (tbAddr buf) (v ||| 8) (tbWrite buf (v ||| 8).toNat)) s)

/-- FIRE: a write of TRIG_CTL with FIRE = 1 (R289). -/
def execFire (a : Access) (v : Word) (s : State) : Host.Outcome State Fault Refusal :=
  .next (access (regWrite a 0x6480 (v ||| 8) (trigWrite (v ||| 8).toNat)) s)

/-- A tenant's write to TR_CTL with ALL or PURGE is ERR (R317). -/
def tenantRing (a : Access) (n v : Nat) (f : State → Option State) (s : State) : Option State :=
  if !isFw a && decide (0x6000 ≤ n) && decide (n < 0x6240) && n % 0x40 == 0x14 && bitField v 2 2 != 0 then none else f s

/-- PURGE: a write of TR_CTL with PURGE = 1 (R290, R317). -/
def execPurge (a : Access) (c : Ctx) (v : Word) (s : State) : Host.Outcome State Fault Refusal :=
  let n := 0x6000 + 0x40 * c.val + 0x14
  .next (access (regWrite a n (v ||| 8) (tenantRing a n (v ||| 8).toNat (ringWrite c 0x14 (v ||| 8).toNat))) s)

end Sys2Proof.Machine
end

