-- ==== Sys2Proof/Machine/Observe.lean ====
section
/-! DEFINITION. Halt and resume, counter freeze, snapshot and scan-out, TIME_HI and the trace DMA (R285, R287 to R297). -/

namespace Sys2Proof.Machine

open Sys2Proof

/-! ### Halt (R294, R295) -/

/-- Notes when a halt request starts, with whether a lock window is open, and when it ends before the halt. -/
def noteRequest (was : Bool) (s : State) : State :=
  if haltReq s && !was then
    { s with dbg := { s.dbg with reqAt := some s.clk, reqWin := allCtx.any fun c => (s.cx c).lockWin.isSome } }
  else if !haltReq s && !s.dbg.halted then { s with dbg := { s.dbg with reqAt := none } }
  else s

/-- DBG_CTL (R294). -/
def dbgWrite (v : Nat) (s : State) : Option State :=
  some (noteRequest (haltReq s) { s with dbg := { s.dbg with
    halt := v.testBit 0, force := v.testBit 2, hinEn := v.testBit 3, houtEn := v.testBit 4 } })

/-- DBG_HALT: a write of DBG_CTL or a change of HALT_IN. -/
def execDbgHalt (r : ReqSrc) (s : State) : Host.Outcome State Fault Refusal :=
  match r with
  | .reg a v => .next (access (regWrite a 0x7000 v (dbgWrite v.toNat)) s)
  | .pin level => .next (noteRequest (haltReq s) { s with dbg := { s.dbg with hin := level } })

/-- The HALT record of a halt or a resume (R286). -/
def haltRec (arg : Nat) (s : State) : State := emit { typ := 0x07, eng := 0xF, ctx := 0xF, time := timeWord s, arg := arg } s

/-- Whether every engine stops: no lock window is open and no operating point changes (R163, R238, R294). -/
def mayHalt (s : State) : Bool :=
  haltReq s && !s.dbg.halted && !s.g.opBusy && allCtx.all fun c => (s.cx c).lockWin.isNone

/-- When a halt that may begin has every engine stopped: 8 fc after its request, or, where a lock window was open at the request, in the fc in
which the last one closes (R163, R294). -/
def haltDue (s : State) : Nat := if s.dbg.reqWin then s.clk else (s.dbg.reqAt.getD s.clk) + 8 * fcLen s

/-- HALTED rises; the trigger comes before the HALT record of its fc (R289, R294). -/
def enterHalt (s : State) : State :=
  let s := settleFlow (at' (haltDue s) s)
  let s := { s with dbg := { s.dbg with halted := true, haltAt := s.clk } }
  let s := haltRec 1 (State.ifThen (s.trace.src == 3) (fireTrigger 3) s)
  refreshAll (awake s) s

/-- HALTED (R294). -/
def execHalted (s : State) : Host.Outcome State Fault Refusal := if mayHalt s then .next (enterHalt s) else .next s

/-- Work under way in `old` goes on in `s` from now: what its fc did up to their last one counts (R245, R246, R294). -/
def carryWork (old s : State) : State :=
  { s with ops := s.ops.map (Op.carry old (workTime old) s), xch := { s.xch with tOut := s.clk } }

/-- The counts that stop in a halt go on from where they stood; one that began in it begins at its end (R295). -/
def shiftHalt (s : State) : State :=
  let sh (t : Nat) : Nat := t + (s.clk - max s.dbg.haltAt t)
  { s with
    ops := s.ops.map fun o => { o with tArr := sh o.tArr, tGrant := sh o.tGrant, tProg := sh o.tProg }
    ctx := s.ctx.map fun x => { x with qm := { x.qm with lastAt := sh x.qm.lastAt }, qp := { x.qp with lastAt := sh x.qp.lastAt } }
    g := { s.g with failover := s.g.failover.map fun f => { f with start := sh f.start } } }

/-- The end of a halt: the engines continue from where they stopped; a hard stop of the damper still holds them. -/
def endHalt (s : State) : State :=
  let t := { s with dbg := { s.dbg with halted := false, reqAt := none }, damp := { s.damp with hardFrom := s.clk } }
  haltRec 0 (shiftHalt (carryWork s t))

/-- RESUME (R294): not before a snapshot ends. -/
def execResume (s : State) : Host.Outcome State Fault Refusal :=
  if s.dbg.halted && !haltReq s && !s.dbg.snapBusy then
    .next (endHalt s)
  else .next s

/-! ### Freeze (R285) -/

def freezeReq (s : State) : Bool := s.cnt.freeze || (s.cnt.pin && s.cnt.pinEn)

/-- A change of the condition takes effect at the second CLK_AON edge after it. -/
def noteFreeze (was : Bool) (s : State) : State :=
  if freezeReq s == was then s
  else { s with cnt := { s.cnt with pending := s.cnt.pending ++ [((s.clk / ucLen + 2) * ucLen, freezeReq s)] } }

/-- CNT_CTL (R285). -/
def freezeWrite (v : Nat) (s : State) : Option State :=
  some (noteFreeze (freezeReq s) { s with cnt := { s.cnt with freeze := v.testBit 0, pinEn := v.testBit 1 } })

/-- FREEZE: a write of CNT_CTL or a change of FREEZE_IN. -/
def execFreeze (r : ReqSrc) (s : State) : Host.Outcome State Fault Refusal :=
  match r with
  | .reg a v => .next (access (regWrite a 0x58F0 v (freezeWrite v.toNat)) s)
  | .pin level => .next (noteFreeze (freezeReq s) { s with cnt := { s.cnt with pin := level } })

/-- The changes of the condition that fall on one edge, the last of which stands from then on, and those of later edges. -/
def edgeChanges (t : Nat) (f : Bool) : List (Nat × Bool) → Bool × List (Nat × Bool)
  | [] => (f, [])
  | x :: l => if x.1 == t then edgeChanges t x.2 l else (f, x :: l)

/-- COUNTER_FREEZE: the next edge at which the condition takes effect (R285, R289). -/
def execCounterFreeze (s : State) : Host.Outcome State Fault Refusal :=
  match s.cnt.pending with
  | [] => .next s
  | (t, f) :: l =>
    let (f, l) := edgeChanges t f l
    let s := at' t s
    let was := s.cnt.frozen
    let s := { s with cnt := { s.cnt with frozen := f, pending := l } }
    if f && !was then .next (State.ifThen (s.trace.src == 4) (fireTrigger 4) (refreshAll (fun _ => true) s)) else .next s

/-! ### Snapshot and scan-out (R296) -/

/-- The 16 bytes of a record (R286). -/
def TraceRec.bytes (r : TraceRec) : List Byte :=
  leBytes 1 r.typ ++ leBytes 1 (r.eng % 16 + 16 * (r.ctx % 16)) ++ leBytes 1 r.seq.toNat ++ leBytes 1 r.mflg.toNat ++
    leBytes 4 r.time.toNat ++ leBytes 3 r.layer ++ leBytes 2 r.oper ++ leBytes 3 r.arg

/-- The size of a part (R296). -/
def SnapKind.size : SnapKind → Nat
  | .joints _ => 2 ^ 20
  | .common | .bank _ _ => 2 ^ 22
  | .staging _ => 2 ^ 24
  | .trace (some _) => 2 ^ 16
  | .trace none => 2 ^ 17

/-- The parts that SNAP_CTL selects, in their order (R296). -/
def snapKinds (s : State) : List SnapKind :=
  let v := s.dbg.snapSel.toNat
  let bs := s.bays.filter fun b => v.testBit b.val
  let part (on : Bool) (l : List SnapKind) : List SnapKind := if on then l else []
  bs.map SnapKind.joints ++ part (v.testBit 4) [.common] ++ part (v.testBit 6) (bs.flatMap fun b => [.bank b false, .bank b true]) ++
    part (v.testBit 5) (bs.map .staging) ++ part (v.testBit 7) (bs.map (fun b => .trace (some b)) ++ [.trace none])

def snapBytes (s : State) : Nat := ((snapKinds s).map SnapKind.size).sum

def snapAddr (s : State) : Nat := s.dbg.snapHi.toNat * 2 ^ 32 + s.dbg.snapLo.toNat

/-- One part as it stands (R296). The contents of joints and of the common domain, the trace slots that hold no record, the mark of a poisoned
word, and the slices that a halted SCRUB is zeroing (R192), are free values, numbered from `k` (log entry 18). -/
def snapPart (s : State) (x : SnapKind) (k addr : Nat) : SnapPart :=
  let p : SnapPart := { kind := x, size := x.size, addr := addr, mem := { bg := some k }, free := k + 1 }
  let copy (b : Bay) (m : Mem) : Mem := if (scrubbing s).contains b then { bg := some k } else m
  match x with
  | .joints _ | .common => p
  | .bank b second =>
    { p with mem := copy b ((s.by b).bank second).mem
             marks := s.ras.poison.filterMap fun | .bank c z o => if c == b && z == second then some (o / 8 * 8) else none | .staging _ => none }
  | .staging b =>
    { p with mem := copy b s.staging, lo := b.val * sliceBytes
             marks := s.ras.poison.filterMap fun
               | .staging o => if o / sliceBytes == b.val then some (o % sliceBytes / 8 * 8) else none
               | .bank _ _ _ => none }
  | .trace buf => { p with head := ((bufOf s buf).recs ++ (bufOf s buf).post).flatMap TraceRec.bytes }

/-- The bytes of a part. -/
def SnapPart.bytes (p : SnapPart) : List Byte :=
  (List.range p.size).map fun i =>
    match p.head[i]? with
    | some v => v
    | none => if p.marks.contains (i / 8 * 8) then Config.freeMem p.free i else p.mem.read (p.lo + i)

/-- The image at SNAP_ADDR. -/
def snapImage (s : State) : List SnapPart :=
  ((snapKinds s).foldl (fun (a : List SnapPart × Nat) x =>
    (a.1 ++ [snapPart s x (s.nfree + 2 * a.1.length) a.2], a.2 + x.size)) ([], snapAddr s)).1

/-- SNAP_CTL with START = 1 (R296, log entry 18). An image that no TM window with WR = 1 covers is not copied: ERR of
SNAP_CTL. -/
def snapStart (v : Nat) (s : State) : Option State :=
  if !s.dbg.halted || s.dbg.snapBusy then none
  else
    let s := { s with dbg := { s.dbg with snapSel := snapSelOf s v } }
    let ok := rangeOk s tm true ⟨true, snapAddr s, snapBytes s⟩ && s.lowBay.isSome
    let image := if ok then snapImage s else []
    some (useFree (2 * image.length) { s with dbg := { s.dbg with snapBusy := true, snapErr := !ok, snapAt := s.clk, image := image } })

/-- SNAPSHOT_START (R296). -/
def execSnapshotStart (a : Access) (v : Word) (s : State) : Host.Outcome State Fault Refusal :=
  .next (access (regWrite a 0x7018 v (snapStart v.toNat)) s)

/-- The image goes to memory as posted writes of the write port of the lowest bay in service, with one FLUSH behind them (R205, R296; log
entry 18). -/
def snapCopy (s : State) : State :=
  match s.lowBay with
  | none => s
  | some b =>
    let far := farOf s tm true ⟨true, snapAddr s, snapBytes s⟩
    let ls := wrLines (s.dbg.image.map fun p => (true, p.addr, p.bytes))
    State.ifThen (!ls.isEmpty) (issueFlush b .snapshot) (ls.foldl (fun s l => issueWr b l.1 far tm l.2.1 l.2.2 s) s)

/-- SNAPSHOT_DONE (R296): 1 GB/s from START on. -/
def execSnapshotDone (portError : Bool) (s : State) : Host.Outcome State Fault Refusal :=
  if s.dbg.snapBusy then
    let s := snapCopy (at' (s.dbg.snapAt + 20 * snapBytes s) s)
    .next { s with dbg := { s.dbg with snapBusy := false, snapErr := s.dbg.snapErr || portError } }
  else .next s

/-- SCAN_OUT (R296, log entry 19): a whole chain restores the state; a part leaves the domain unusable until its reset. A bay out of
service is gated when it ends, but not during its reset (R241). -/
def execScanOut (d : Domain) (wholeChain : Bool) (s : State) : Host.Outcome State Fault Refusal :=
  match d with
  | .common =>
    if s.dbg.halted && !wholeChain then .next { s with dbg := { s.dbg with commonScanned := true } } else .next s
  | .bay b =>
    if !s.present b || !(s.dbg.halted || (s.by b).oos) then .next s
    else
      let s := if wholeChain then s else s.modBay b fun x => { x with scanned := true, face := none }
      .next (if (s.by b).oos && !(s.by b).brst && (s.by b).pstate != .powerGated then
        (stopShadows b s).modBay b fun x => { x with pstate := .powerGated, face := none } else s)

/-! ### TIME_HI and the DMA (R287 to R291) -/

/-- Stores a record in every buffer, when some ring takes it (R287). -/
def storeAll (r : TraceRec) (s : State) : State :=
  if anyRing s then
    let s := State.ifThen (triggers s r) (fireTrigger s.trace.src.toNat) s
    storeRec none [r] (s.bays.foldl (fun s b => storeRec (some b) [r] s) s)
  else s

/-- TIME_HI (R287). -/
def execTimeHi (s : State) : Host.Outcome State Fault Refusal :=
  let s := at' ((s.trace.hi.toNat + 1) * 2 ^ 32 * 20) s
  let s := storeAll (timeHiRec s) s
  .next { s with trace := { s.trace with hi := s.trace.hi + 1 } }

/-- Writes a record to a ring through the write port of a bay (R291). -/
def putRing (b : Bay) (c : Ctx) (r : TraceRec) (s : State) : State :=
  let x := s.trace.rings.get c
  let a := ringBase x + 16 * x.next
  let s := (wrLines [(true, a, r.bytes)]).foldl (fun s l => issueWr b l.1 (farOf s c true ⟨true, a, 16⟩) c l.2.1 l.2.2 s) s
  setRing c (fun x => { x with flight := x.flight + 1 }) (issueFlush b (.trace c) s)

/-- The rings a record goes to. -/
def ringsOf (s : State) (r : TraceRec) : List Ctx :=
  if r.typ == 0x20 || r.typ == 0x21 then allCtx.filter fun c => (s.trace.rings.get c).en else [traceRing s r.ctx]

/-- What becomes of a record now: held, dropped or written. -/
inductive Fate
  | hold
  | send
  deriving DecidableEq, Repr

/-- A record is held by a ring that is off, and by a full one that stalls or serves a trigger-centred buffer. -/
def fate (s : State) (window : Bool) (r : TraceRec) : Fate :=
  if (ringsOf s r).all fun c =>
    let x := s.trace.rings.get c
    x.en && !(x.full && (x.stall || window)) then .send else .hold

/-- Delivers a record to its rings: written, or dropped and counted where the ring is full. -/
def deliverRec (b : Bay) (r : TraceRec) (s : State) : State :=
  (ringsOf s r).foldl (fun s c =>
    if (s.trace.rings.get c).full then setRing c (fun x => { x with lost := satAdd x.lost 1, loss := x.loss + 1 }) s
    else putRing b c r s) s

/-- The records a buffer offers, oldest first: a trigger-centred one only when DONE. -/
def offered (t : TraceBuf) : List TraceRec := if t.mode == 2 then (if t.done then t.recs ++ t.post else []) else t.recs

/-- Takes the record at position i of what a buffer offers out of it. -/
def takeRec (i : Nat) (t : TraceBuf) : TraceBuf :=
  if i < t.recs.length then { t with recs := t.recs.eraseIdx i } else { t with post := t.post.eraseIdx (i - t.recs.length) }

/-- TRACE_DMA (R290, R291): a LOSS record that a ring waits for, then one for overwritten records, then the oldest deliverable
record. -/
def traceDma (buf : Option Bay) (b : Bay) (s : State) : State :=
  let t := bufOf s buf
  match allCtx.find? fun c => let x := s.trace.rings.get c; x.en && x.loss != 0 && !x.full with
  | some c => setRing c (fun x => { x with loss := 0 }) (putRing b c (lossRec s (ctxCode c) (s.trace.rings.get c).loss) s)
  | none =>
    match (offered t).zipIdx.find? fun x => fate s (t.mode == 2) x.1 == .send with
    | none => s
    | some (r, i) =>
      if t.run != 0 then deliverRec b (lossRec s r.ctx t.run) (s.modBuf buf fun t => { t with run := 0 })
      else deliverRec b r (s.modBuf buf (takeRec i))

def execTraceDma (buf : Option Bay) (s : State) : Host.Outcome State Fault Refusal :=
  match s.lowBay with
  | some b => if s.fastOn && !s.dbg.halted && (buf.all fun k => s.present k) then .next (traceDma buf b s) else .next s
  | none => .next s

end Sys2Proof.Machine
end

