-- ==== Sys2Proof/Machine/Repair.lean ====
section
/-! DEFINITION. Memory errors and row repair, column and lane repair, the repair commands (R255 to R258, R266 to R273). -/

namespace Sys2Proof.Machine

open Sys2Proof

/-! ### Memory errors (R255 to R258) -/

/-- The 1 KiB row of a word, named by its first byte: of one staging bank (R195, R255), or of a tile-bank sub-bank (log entry 32). -/
def rowOf : EccLoc → EccLoc
  | .staging o => .staging (stagingRow o)
  | .bank b k o => .bank b k (o / 1024 * 1024)

/-- Type and identifier of a row in the log (R323). -/
def rowId : EccLoc → Nat × Nat
  | .staging o => (0, stagingRow o)
  | .bank b k o => (1, b.val * 2 ^ 28 + k.toNat * 2 ^ 22 + o / 1024 * 1024)

/-- The bay a word belongs to, where the build has it. -/
def locBay (s : State) (l : EccLoc) : Option Bay :=
  match l with
  | .staging o => blockBay s (o / sliceBytes)
  | .bank b _ o => if s.present b && decide (o < 2 ^ 22) then some b else none

/-- The bank whose spare rows serve a word: 0 to 63 of the staging slice, 64 to 127 of the tile banks (R195, R255, R316). -/
def bankOf : EccLoc → Nat
  | .staging o => o / 128 % 64
  | .bank _ k o => 64 + 32 * k.toNat + o / 2 ^ 17 % 32

def rowsUsed (x : BayState) (i : Nat) : Nat := ((x.rows.find? (·.1 == i)).map (·.2)).getD 0

/-- Whether some bytes lie in the staging bank of the byte at `a`: one of their 128-byte units is one of that bank, in its slice (R195). -/
def inBank (a : Nat) (r : Range) : Bool :=
  !r.win && r.len != 0 &&
    let lo := max (r.lo / 128) (a / sliceBytes * (sliceBytes / 128))
    let hi := min ((r.lo + r.len - 1) / 128) ((a / sliceBytes + 1) * (sliceBytes / 128) - 1)
    decide (lo + (a / 128 + 64 - lo % 64) % 64 ≤ hi)

/-- What an operation under way reads and writes. -/
def accessRanges (s : State) (o : Op) : List Range :=
  (match opClass o.opc with
    | some .t => trussReads s o
    | some .d => drainReads s o
    | some .s | some .k => svuReads o
    | _ => readSpans o) ++ ((outViews o).flatMap fun x => viewRanges x.1 x.2) ++ outRest o

/-- The bytes of a tile-bank slice that the tile in it takes. -/
def tileBytes (k : Bank) : Nat := k.m * rowAcc k.cpb k.acc

/-- Whether an operation under way asks for the bank of a row: that staging bank, or the tile-bank sub-bank that its pass fills or its DRAIN
reads (R44, R195, R256). -/
def asksBank (s : State) (l : EccLoc) (o : Op) : Bool :=
  o.stage == .granted &&
    match l with
    | .staging a => (accessRanges s o).any (inBank a)
    | .bank b k a =>
      o.gset.getLsb b && decide (a / 2 ^ 17 * 2 ^ 17 < tileBytes ((s.by b).bank k)) &&
        if isT o then (s.by b).fill1 == k && !raising o && o.opc != 0x0C else opClass o.opc == some .d && (takenBank s o b).1 == k

/-- A repair holds the bank of a row for 16 fc: what asks for it waits under stall reason 10 (R256, log entry 32). -/
def holdBank (l : EccLoc) (s : State) : State :=
  let k := fcTime s 16
  let held := (s.ops.filter (asksBank s l)).map fun o => (o.ctx, o.seq, o.side, o.why)
  let mine (o : Op) : Option Nat := (held.find? fun x => o.under x.1 x.2.1 && o.side == x.2.2.1).map (·.2.2.2)
  let s := at' (s.clk + k) { s with ops := s.ops.map fun o => if (mine o).isSome then { o with why := 10 } else o }
  { s with ops := s.ops.map fun o => match mine o with
      | some w => { o with why := w, tFirst := o.tFirst + k, tDue := o.tDue + k }
      | none => o }

/-- The row moves to a spare row of its bank, when one is left (R256). -/
def repairRow (b : Bay) (l : EccLoc) (s : State) : State :=
  let i := bankOf l
  let n := rowsUsed (s.by b) i
  if n ≥ 4 then s
  else
    let s := s.modBay b fun x => { x with rows := x.rows.filter (·.1 != i) ++ [(i, n + 1)] }
    let s := { s with ras := { s.ras with redirected := s.ras.redirected ++ [rowOf l], rowErrs := s.ras.rowErrs.filter (·.1 != rowOf l) } }
    report 0x31 0 0xF (rowId l).1 (rowId l).2 (holdBank l s)

/-- Counts a corrected error of a row: the second within FAIL_WIN repairs it (R256). -/
def countRow (b : Bay) (l : EccLoc) (s : State) : State :=
  let t := timebase s
  let again := match s.ras.rowErrs.find? (·.1 == rowOf l) with
    | some (_, _, t0) => decide (t < t0 + s.g.failWin.toNat * 1000000)
    | none => false
  let s := { s with ras := { s.ras with rowErrs := s.ras.rowErrs.filter (·.1 != rowOf l) ++ [(rowOf l, if again then 2 else 1, t)] } }
  if again then repairRow b l s else s

/-- A corrected error: counted, logged, and recorded for the context that read the word (R255, R274). -/
def corrected (b : Bay) (l : EccLoc) (reader : Option Ctx) (s : State) : State :=
  let s := if s.cnt.frozen then s else s.modBay b fun x => { x with eccCor := satAdd x.eccCor 1 }
  let s := report 0x30 0 ((reader.map ctxCode).getD 0xF) (rowId l).1 (rowId l).2 s
  let s := match reader with | some c => recordFault c 0x30 0 .main 0 0 s | none => s
  countRow b l s

/-- ECC_WRITE_BACK (R255). -/
def execEccWriteBack (l : EccLoc) (reader : Option Ctx) (s : State) : Host.Outcome State Fault Refusal :=
  match locBay s l with
  | some b => if s.fastOn then .next (corrected b l reader s) else .next s
  | none => .next s

def wordOfLoc : EccLoc → EccLoc
  | .staging o => .staging (o / 8 * 8)
  | .bank b k o => .bank b k (o / 8 * 8)

/-- An uncorrectable error: the word is poisoned, and at the first of its row the row repaired, the mark kept (R256, R257). -/
def poisoned (b : Bay) (l : EccLoc) (s : State) : State :=
  let s := if s.cnt.frozen then s else s.modBay b fun x => { x with eccUnc := satAdd x.eccUnc 1 }
  let w := wordOfLoc l
  let first := !s.ras.uncRows.contains (rowOf l)
  let s := { s with ras := { s.ras with
    poison := if s.ras.poison.contains w then s.ras.poison else s.ras.poison ++ [w]
    uncRows := if first then s.ras.uncRows ++ [rowOf l] else s.ras.uncRows } }
  State.ifThen first (repairRow b l) s

/-- What the patrol reader finds in a word of a row (R258). -/
def patrolRow (l : EccLoc) (found : EccFind) (s : State) : Host.Outcome State Fault Refusal :=
  match locBay s l with
  | some b =>
    if !s.fastOn then .next s
    else match found with
      | .clean => .next s
      | .single => .next (corrected b l none s)
      | .double => .next (poisoned b l s)
  | none => .next s

/-- An uncorrectable error of a common memory: a record in every context, every queue stopped, and no dispatch before a warm reset (R274). -/
def blockFatal (unit : Nat) (s : State) : State :=
  let s := report 0x3B 4 0xF 8 unit s
  let s := allCtx.foldl (fun s c => recordFault c 0x3B 4 .main (s.qu c .main).head.toNat 0 s) s
  { s with ras := { s.ras with fatal := true }
           ctx := s.ctx.map fun x => if x.mode == .active then { x with mode := .faulted } else x }

/-- PATROL_READ (R258); it carries what a check of a common memory finds too (R274, log entry 46). -/
def execPatrolRead (w : EccWord) (found : EccFind) (s : State) : Host.Outcome State Fault Refusal :=
  match w with
  | .row l => patrolRow l found s
  | .common n => if s.fastOn && found == .double && subsystem n then .next (blockFatal n s) else .next s

/-! ### Columns and lanes (R266 to R270) -/

/-- The lowest spare that may take a column: a free one, the checksum column last (R260, R267). -/
def freeSpare (l : List SpareUse) : Option Nat :=
  (List.range l.length).find? fun i => match l[i]? with | some u => u == .free || u == .checksum | none => false

/-- The highest-numbered free spare becomes the checksum column (R268). -/
def newChecksum (l : List SpareUse) : List SpareUse :=
  match ((List.range l.length).reverse).find? fun i => (l[i]?).getD .retired == .free with
  | some i => l.set i .checksum
  | none => l

/-- Retires one physical column; none when a spare is needed and no one is left (R267, R268). -/
def retireCol (col : Nat) (x : BayState) : Option BayState :=
  let x := { x with retired := x.retired ++ [col], fails := x.fails.filter fun f => f.lane || f.col != col }
  let move (x : BayState) (logical : Nat) : Option BayState :=
    (freeSpare x.spares).map fun k =>
      { x with spares := x.spares.set k .data, remap := x.remap.filter (·.1 != logical) ++ [(logical, k)] }
  if col < 32 then move x col
  else
    let u := (x.spares[col - 32]?).getD .retired
    let x := { x with spares := x.spares.set (col - 32) .retired }
    match u with
    | .data => match x.remap.find? (·.2 == col - 32) with | some (g, _) => move x g | none => some x
    | .checksum => some { x with spares := newChecksum x.spares }
    | _ => some x

/-- Starts what waits for a bay's Truss and drain path and has all its bays. -/
def startReserved (b : Bay) (s : State) : State :=
  [false, true].foldl (fun s drain => match reservedOp s drain b with
    | some o => tryStart (startOf drain o) o s
    | none => s) s

/-- A tile boundary of a bay: its Truss carries no operation. A sleeping bay in service wakes for its remap first (R240, R267, R304). -/
def boundary (s : State) (b : Bay) : Bool :=
  s.present b && !(s.by b).trussOn && s.fastOn && !s.dbg.halted && !s.damp.hardNow && ((s.by b).oos || (s.by b).pstate == .running)

/-- The end of a load of 64 fc that began at the boundary, or later with the retirement. -/
def loadMap (b : Bay) (s : State) : State :=
  let s := at' (fcAfter s (max (s.by b).idleAt (s.by b).pendAt) 64) s
  let t := s.clk
  let n := s.damp.ran
  s.modBay b fun x => { x with pendAt := t, backRan := n }

/-- Retires a column of a bay with its log entries (R267, R268, R274). -/
def remapColumn (b : Bay) (col : Nat) (s : State) : State :=
  let s := s.modBay b fun x => { x with pendCol := x.pendCol.filter (· != col) }
  match retireCol col (s.by b) with
  | some y =>
    let lost := hasChecksum (s.by b) && !hasChecksum y
    let s := s.modBay b fun _ => { y with redo := y.face.isSome }
    let s := report 0x35 0 0xF 2 (colId b col) s
    let s := State.ifThen lost (report 0x36 0 0xF 4 b.val) s
    loadMap b s
  | none =>
    let s := s.modBay b fun x => { x with retired := x.retired ++ [col] }
    let s := report 0x38 3 0xF 4 b.val s
    bayFatal b 0x38 s

/-- COLUMN_REMAP (R267, R268). A face that the bay holds is raised again by the next Truss operation but
a RAISE. -/
def execColumnRemap (b : Bay) (s : State) : Host.Outcome State Fault Refusal :=
  match (s.by b).pendCol with
  | [] => .next s
  | col :: _ => if boundary s b then .next (startReserved b (remapColumn b col s)) else .next s

/-- The spare sill lane takes the place of a lane (R269). -/
def spareLane (b : Bay) (col : Nat) (s : State) : State :=
  let s := s.modBay b fun x => { x with pendLane := none, fails := x.fails.filter fun f => !f.lane || f.col != col }
  let s := { s with ras := { s.ras with lane := some (b, col) } }
  loadMap b (report 0x37 0 0xF 3 (colId b col) s)

/-- SILL_LANE_SPARED (R269). -/
def execSillLaneSpared (b : Bay) (s : State) : Host.Outcome State Fault Refusal :=
  match (s.by b).pendLane with
  | none => .next s
  | some col => if boundary s b then .next (startReserved b (spareLane b col s)) else .next s

/-- FAIL_WIN_EXPIRY: a failure count returns to 0 (R266). -/
def execFailWinExpiry (b : Bay) (lane : Bool) (col : Nat) (s : State) : Host.Outcome State Fault Refusal :=
  match (s.by b).fails.find? fun f => f.lane == lane && f.col == col with
  | none => .next s
  | some f =>
    .next ((at' ((f.first + s.g.failWin.toNat * 1000000) * 20) s).modBay b fun x =>
      { x with fails := x.fails.filter fun g => !(g.lane == lane && g.col == col) })

/-! ### Bays leaving and returning (R271 to R273) -/

/-- Whether an OUT may end: no granted operation, and unless forced no chain and no bank in COMPLETE or DRAINING. -/
def outReady (s : State) (b : Bay) : Bool :=
  let x := s.by b
  match x.outCmd with
  | none => false
  | some k => !x.trussOn && !x.drainOn && (s.ops.all fun o => !(o.opc == 0x22 && o.stage == .granted && o.gset.getLsb b)) && (k == .forced || (x.bank0.st == .free && x.bank1.st == .free))

/-- The end of a repair command. -/
def repEnd (s : State) : State := { s with g := { s.g with repBusy := false, repDone := true } }

/-- BAY_LEAVE_SERVICE (R272). -/
def execBayLeaveService (b : Bay) (s : State) : Host.Outcome State Fault Refusal :=
  if outReady s b then .next (leaveService b s) else .next s

/-- A REP_CMD command: the conditions of every command, then the command's own (R273). -/
def repEffect (b : Bay) (ok : Bool) (f : State → State) (s : State) : Option State :=
  if !s.prot.lock || s.g.repBusy || !s.present b || !ok then none else some (f s)

/-- Whether RETIRE may name a column. -/
def mayRetire (s : State) (b : Bay) (col : Nat) : Bool :=
  let x := s.by b
  let u := (x.spares[col - 32]?).getD .retired
  let needs := decide (col < 32) || u == .data
  let left := x.spares.countP fun u => u == .free || u == .checksum
  decide (col < 32 + x.spares.length) && !x.retired.contains col && !x.pendCol.contains col &&
    (!needs || decide (x.pendCol.length < left))

/-- A repair command wakes a sleeping bay in service that it acts on (R240, R304). -/
def wakeFor (b : Bay) (s : State) : State := if (s.by b).oos then s else askWake b s

def retireEffect (b : Bay) (col : Nat) (s : State) : Option State :=
  repEffect b (mayRetire s b col) (fun s =>
    let t := s.clk
    wakeFor b (repEnd (s.modBay b fun x => { x with pendCol := x.pendCol ++ [col], pendAt := t }))) s

def outEffect (b : Bay) (force : Bool) (s : State) : Option State :=
  repEffect b (!(s.by b).oos) (fun s =>
    let s := s.modBay b fun x => { x with outCmd := some (if force then .forced else .graceful) }
    wakeFor b { s with g := { s.g with repBusy := true } }) s

def inEffect (b : Bay) (s : State) : Option State :=
  repEffect b ((s.by b).oos && (s.by b).bistOk) (fun s => repEnd (resumeAtoms (s.modBay b fun x => { x with oos := false }))) s

/-- The spares of a bay with no column retired (R260, R279). -/
def freshSpares (b : Build) : List SpareUse := newChecksum (List.replicate (Config.spares b) .free)

def clearEffect (b : Bay) (s : State) : Option State :=
  repEffect b (s.by b).oos (fun s => repEnd (s.modBay b fun x =>
    { x with spares := freshSpares s.build, remap := [], retired := [], fails := [], pendCol := [], redo := false })) s

/-- A write of the word REP_CMD (R273). -/
def repWrite (v : Nat) (s : State) : Option State :=
  let b : Bay := ⟨v / 16 % 4, Nat.mod_lt _ (by decide)⟩
  match v % 8 with
  | 1 => retireEffect b (v / 256 % 64) s
  | 2 => outEffect b (v.testBit 3) s
  | 3 => inEffect b s
  | 4 => clearEffect b s
  | _ => none

def bayArg (b : BitVec 2) : Bay := ⟨b.toNat, b.isLt⟩

/-- RETIRE (R273). -/
def execRetire (a : Access) (b : BitVec 2) (col : BitVec 6) (s : State) : Host.Outcome State Fault Refusal :=
  .next (access (regWrite a 0x1920 0 (retireEffect (bayArg b) col.toNat)) s)

/-- OUT (R272). -/
def execBayOut (a : Access) (b : BitVec 2) (force : Bool) (s : State) : Host.Outcome State Fault Refusal :=
  .next (access (regWrite a 0x1920 0 (outEffect (bayArg b) force)) s)

/-- IN (R273). -/
def execBayIn (a : Access) (b : BitVec 2) (s : State) : Host.Outcome State Fault Refusal :=
  .next (access (regWrite a 0x1920 0 (inEffect (bayArg b))) s)

/-- CLEAR (R270, R273). -/
def execClearCols (a : Access) (b : BitVec 2) (s : State) : Host.Outcome State Fault Refusal :=
  .next (access (regWrite a 0x1920 0 (clearEffect (bayArg b))) s)

end Sys2Proof.Machine
end

