-- ==== Sys2Proof/Machine/Tenancy.lean ====
section
/-! DEFINITION. Tenant, bay and warm reset, and failover (R226 to R234). -/

namespace Sys2Proof.Machine

open Sys2Proof

/-! ### Tenant reset (R232, R233) -/

/-- Whether an operation of a context under reset goes on to its next boundary: a Truss operation to the end of its pass, writes
and adds already issued to their answers, a commit to its end. -/
def staysUnderReset (s : State) (o : Op) : Bool :=
  (o.stage == .granted && (isT o || (o.opc == 0x1D && (s.cx o.ctx).lockWin.any fun l => l.commitEnd.isSome))) || o.stage == .flushing

/-- Takes an operation out of the block without a trace, with all it holds. -/
def discard (s : State) (o : Op) : State := (releaseUnits o s).dropOp o.ctx o.seq

/-- How many of the `n` steps that an operation makes in `k` fc it has made with its current one; none while it reads. -/
def stepsMade (s : State) (o : Op) (k n : Nat) : Nat :=
  if o.rds != 0 || k == 0 then 0 else min n (n * (o.ran + (runsTo s (workTime s) - runsTo s o.tFirst)) / k + 1)

/-- The first `n` bytes of a list of writes. -/
def firstBytes : Nat → List Wr → List Wr
  | _, [] => []
  | n, (win, a, l) :: ws => if n == 0 then [] else (win, a, l.take n) :: firstBytes (n - l.length) ws

/-- What the lehr runs beside a product is dropped; a job without a product under way is abandoned, its writes awaited (R144, R205, R232). -/
def breakLehr (o : Op) (s : State) : State :=
  if o.side then { leaveUnit o s with ops := s.ops.filter fun p => !(p.under o.ctx o.seq && p.side) }
  else if o.wrs == 0 then discard s o
  else holdFailed (o.whole s) s

/-- A granted operation of another class than T stops at its next boundary: a DRAIN after its current row, the others after their current
64-byte write, a SCRUB in its slices alike; a message leaves what it had not written undefined (R213, R232, log entry 44). What it has
written lands, and is awaited. -/
def breakOff (s : State) (o : Op) : State :=
  if o.isRoot then breakLehr o s
  else if (poisonedIn s (readSpans o)).isSome then discard s o
  else
    let ports := opPorts s o
    let go (ws : List (List Bay × List Wr)) : State :=
      let (s, n) := ws.foldl (fun (x : State × Nat) w =>
        let (s, n) := issueWrites o.ctx (.op o.ctx o.seq) w.1 (outRanges o) w.2 x.1
        (s, x.2 + n)) (releaseUnits o s, 0)
      awaitFlushes o n s
    match opClass o.opc with
    | some .d =>
      let d := runDrain s o
      go ((maskBays o.gset).map fun b =>
        let l := d.wrs.filterMap fun w => if w.1 == b then some w.2 else none
        ([b], l.take (stepsMade s o (drainTime s o) l.length)))
    | some .s | some .k =>
      if o.opc == 0x22 then
        let n := stepsMade s o 17500 (sliceBytes / 64)
        discard ((maskBays o.gset).foldl (fun s b =>
          { (s.modBay b fun x => x.modBanks fun k => { k with mem := k.mem.zero 0 (16 * n) }) with
            staging := s.staging.zero (b.val * sliceBytes) (64 * n) }) s) o
      else
        let ws := (svuOut s o).wrs
        let n := (ws.map fun w => w.2.2.length).sum
        go [(ports, if o.member then [] else firstBytes (64 * stepsMade s o (svuTime s o ports.length) (ceilDiv' n 64)) ws)]
    | some .x => discard (match o.x with | .recvFlow _ => undefView s (fmtOf (iFO o.word), o.dO) | _ => settleFlow s) o
    | _ => if o.wrs == 0 then discard s o else (releaseUnits o s).modOp o.ctx o.seq fun o => { o with stage := .flushing }

/-- CTX_RST with RST = 1: dispatch stops, what waits is discarded, what is granted stops at its boundary. -/
def startReset (c : Ctx) (s : State) : State :=
  let s := s.modCtx c fun x =>
    { x with rstBusy := true, qm := { x.qm with loop := none }, qp := { x.qp with loop := none } }
  let s := State.ifThen ((s.cx c).lockWin.any fun l => l.commitEnd.isNone) (dropWindow c) s
  (s.ops.filter fun o => o.ctx == c && !staysUnderReset s o).foldl (fun s o => if o.stage == .granted || o.isRoot then breakOff s o else discard s o) s

/-- The effect of a write of CTX_RST (R232). -/
def ctxRstWrite (c : Ctx) (v : Nat) (s : State) : Option State :=
  some (if v.testBit 0 && !(s.cx c).rstBusy then startReset c s else s)

/-- CTX_RST (R232). -/
def execCtxRst (a : Access) (c : Ctx) (v : Word) (s : State) : Host.Outcome State Fault Refusal :=
  .next (access (regWrite a (ctxBase c + 0x0F0) v (ctxRstWrite c v.toNat)) s)

/-- Whose context an owner serves. -/
def Owner.ctx : Owner → Option Ctx
  | .op c _ => some c
  | .fetch c _ => some c
  | .record c _ => some c
  | _ => none

/-- Whether a fabric port holds a request of a context, one that waits for a tag among them (R232). -/
def portHolds (s : State) (c : Ctx) : Bool :=
  s.bays.any fun b =>
    let p := (s.by b).port
    ((p.rd ++ p.rdWait).any fun r => r.owner.ctx == some c) || (p.wr ++ p.wrWait).any fun r => r.owner?.bind Owner.ctx == some c

/-- A queue after its context's reset: bases and sizes stay. -/
def Queue.afterReset (x : Queue) : Queue := { baseLo := x.baseLo, baseHi := x.baseHi, size := x.size }

/-- A context after its reset (R233): bases, sizes, DESC_BASE, CQ_IRQ, WDOG, REPLAY_CTL and the set selection stay. -/
def CtxState.afterReset (x : CtxState) : CtxState :=
  { qm := x.qm.afterReset, qp := x.qp.afterReset, cqLo := x.cqLo, cqHi := x.cqHi, cqSize := x.cqSize, cqIrq := x.cqIrq, descBase := x.descBase,
    replayEn := x.replayEn, replaySh := x.replaySh, wdog := x.wdog, irqFault := x.irqFault, irqEpoch := x.irqEpoch, alt := x.alt, epoch := x.epoch }

/-- Frees the banks of a context in one bay; its RAISE record and face tag go. -/
def BayState.forgetCtx (c : Ctx) (x : BayState) : BayState :=
  { x.modBanks (fun k => if k.st != .free && k.ctx == c then k.free else k) with
    recs := x.recs.set c.1 none c.2
    tag := x.tag.filter fun t => t.ctx != c }

/-- The shadows of a context's registers show what its reset leaves (R217, R223). -/
def refreshCtx (c : Ctx) (s : State) : State :=
  (shadowAddrs s).foldl (fun s n => match ctxAddr n with | some (k, _) => if k == c then refresh n s else s | none => s) s

/-- What a tenant reset clears (R233). -/
def clearCtx (s : State) (c : Ctx) : State :=
  let s := s.modCtx c CtxState.afterReset
  { s with
    bay := s.bay.map (BayState.forgetCtx c)
    regs := { s.regs with posted := s.regs.posted.filter fun x => match ctxAddr x.1.toNat with | some (k, _) => k != c | none => true } }

/-- The end of a tenant reset. -/
def resetCtx (s : State) (c : Ctx) : State := refreshCtx c (clearCtx s c)

/-- TENANT_RESET_DONE (R232). -/
def execTenantResetDone (c : Ctx) (s : State) : Host.Outcome State Fault Refusal :=
  if (s.cx c).rstBusy && (s.ops.all fun o => o.ctx != c) && (s.cx c).lockWin.isNone && !portHolds s c then .next (resetCtx s c) else .next s

/-! ### Bay reset (R233, R270) -/

/-- BRST with RST = 1 (R233). -/
def brstWrite (b : Bay) (v : Nat) (s : State) : Option State :=
  if !(s.by b).oos then none
  else if v.testBit 0 && !(s.by b).brst then some (askFast (askWake b (s.modBay b fun x => { x with brst := true })))
  else some s

/-- BRST. -/
def execBrst (a : Access) (b : Bay) (v : Word) (s : State) : Host.Outcome State Fault Refusal :=
  .next (access (regWrite a (0x4000 + 0x400 * b.val) v (brstWrite b v.toNat)) s)

/-- What a reset of a bay clears: chains, bank states, RAISE records, face tag, mask slots in its slice (R233). -/
def clearBay (b : Bay) (s : State) : State :=
  let gone := [(s.by b).bank0, (s.by b).bank1].filter (·.st != .free)
  let s := gone.foldl (fun s k => releaseChain k.ctx k.chain s) s
  (emptySlots b s).modBay b fun x =>
    { x.modBanks Bank.free with tag := none, face := none, redo := false, recs := .replicate 9 none, fill1 := false, scanned := false }

/-- Retires columns, with the entries of those that move when `log` (R252, R270, R274); answers whether spares sufficed. A column that finds
no spare is logged (R268). -/
def retireAll (log : Bool) (b : Bay) : List Nat → State → State × Bool
  | [], s => (s, true)
  | col :: l, s =>
    if (s.by b).retired.contains col then retireAll log b l s
    else
      match retireCol col (s.by b) with
      | none => (report 0x38 3 0xF 4 b.val (s.modBay b fun x => { x with retired := x.retired ++ [col] }), false)
      | some y =>
        let lost := hasChecksum (s.by b) && !hasChecksum y
        let s := s.modBay b fun _ => y
        let s := State.ifThen log (report 0x35 0 0xF 2 (colId b col)) s
        retireAll log b l (State.ifThen (log && lost) (report 0x36 0 0xF 4 b.val) s)

/-- Applies what waits for a tile boundary: the lane, then the columns with `more` (R252, R267, R269). -/
def applyPending (log : Bool) (b : Bay) (more : List Nat) (s : State) : State × Bool :=
  let s := match (s.by b).pendLane with
    | some col =>
      let s := s.modBay b fun x => { x with pendLane := none, fails := x.fails.filter fun f => !f.lane || f.col != col }
      State.ifThen log (report 0x37 0 0xF 3 (colId b col)) { s with ras := { s.ras with lane := some (b, col) } }
    | none => s
  let cols := (s.by b).pendCol ++ more
  retireAll log b cols (s.modBay b fun x => { x with pendCol := [] })

/-- BAY_RESET_DONE (R233, R241, R251): the bay is power-gated again. -/
def bayResetDone (b : Bay) (t : BayTest) (us : Nat) (s : State) : State :=
  let s := clearBay b (at' (s.clk + us * usLen) s)
  let (s, ok) := applyPending true b t.cols s
  let s := State.ifThen (!t.pass) (report 0x3C 3 0xF 4 b.val) s
  stopShadows b s |>.modBay b fun x =>
    { x with brst := false, bistOk := t.pass && ok, pstate := .powerGated, wakeReq := false, wakeHeld := false }

def execBayResetDone (b : Bay) (t : BayTest) (us : Nat) (s : State) : Host.Outcome State Fault Refusal :=
  if (s.by b).brst && (s.by b).pstate == .running && (Instr.bayResetDone b t us).wellFormed then .next (bayResetDone b t us s) else .next s

/-! ### Warm reset (R233, R237, R252) -/

def SelCnt.zero (x : SelCnt) : SelCnt := { x with cnt := 0 }

/-- One bay in a warm reset, its chains already gone: counters are zero, the columns and their pending repairs kept. -/
def BayState.warm (x : BayState) : BayState :=
  { x with pstate := .powerGated, wakes := 0, wakeReq := false, wakeHeld := false, brst := false, outCmd := none, truss := none, trussOn := false, drain := none,
           drainOn := false, face := none, port := {}, busyCyc := 0, opsRet := 0, eccCor := 0, eccUnc := 0, lag := 0, sel := x.sel.map SelCnt.zero, backRan := 0 }

/-- The bays are to be woken again, and the common fast domain with them (R240, R249, R252). -/
def wakeAll (s : State) : State :=
  let t := s.clk
  askFast (s.modBays s.bays fun _ x => { x with wakeReq := true, wakeAt := t })

/-- What a warm reset clears: every context and bay reset, the shell in BYPASS, a failover abandoned; the shadows of the stopped domains show
what is left (R217, R250). -/
def warmClear (s : State) : State :=
  let s := { s with ops := [], svu := none, topk := none, lehr := none }
  let s := allCtx.foldl clearCtx s
  let s := s.bays.foldl (fun s b => (clearBay b s).modBay b BayState.warm) s
  refreshAll (fun _ => true) { s with
    holdI := timebaseSub s, holdU := s.clk / ucLen, fastOn := false, fastReq := false, fastGo := false
    rrPrio := 7, rrMain := 7
    g := { s.g with failover := none, opBusy := false, opsReq := false, opTgt := s.g.opCur, repBusy := false }
    xch := { out := s.xch.out }
    cnt := { s.cnt with busy := 0, ops := 0, gsel := s.cnt.gsel.map SelCnt.zero }
    damp := { start := s.damp.start, cap := s.damp.cap, fcFrom := s.damp.fcFrom, fused := s.damp.fused }
    dbg := { s.dbg with halted := false, reqAt := if haltReq s then some s.clk else none, reqWin := false, snapBusy := false, image := [], commonScanned := false }
    ras := { s.ras with fatal := false }
    trace := { s.trace with stalls := [], rings := s.trace.rings.map fun x => { x with flight := 0, gone := 0 } } }

/-- The state from which start-up goes on at phase 4. -/
def warmReset (s : State) : State :=
  let s := warmClear s
  wakeAll { s with boot := { s.boot with phase := 4, ready := false, cfail := false, cold := false, started := s.clk } }

/-- Whether a warm reset means anything: cold reset is over and phase 4 has been reached. -/
def warmable (s : State) : Bool := s.boot.porstN && (s.boot.ready || decide (4 ≤ s.boot.phase.toNat))

/-- WARM_RST with RST = 1 acts as WRST_N low for one uc (R233). -/
def warmWrite (v : Nat) (s : State) : Option State := some (if v.testBit 0 && warmable s then warmReset s else s)

def execWarmRst (a : Access) (v : Word) (s : State) : Host.Outcome State Fault Refusal :=
  .next (access (regWrite a 0x0040 v (warmWrite v.toNat)) s)

/-- WRST_N: low starts a warm reset; phase 4 begins when it rises (R233). -/
def execWrstN (level : Bool) (s : State) : Host.Outcome State Fault Refusal :=
  let s := { s with boot := { s.boot with wrstN := level } }
  if level then .next (if s.boot.phase == 4 then wakeAll { s with boot := { s.boot with started := s.clk } } else s)
  else .next (if warmable s then warmReset s else s)

/-- A trace record whose bytes are undefined (R237). -/
def freeRec (k : Nat) : TraceRec :=
  let v (i n : Nat) : Nat := leNat ((List.range n).map fun j => Config.freeByte (k + i + j))
  { typ := v 0 1, eng := v 1 1 % 16, ctx := v 1 1 / 16, seq := BitVec.ofNat 8 (v 2 1), mflg := BitVec.ofNat 4 (v 3 1), time := BitVec.ofNat 32 (v 4 4),
    layer := v 8 3, oper := v 11 2, arg := v 13 3 }

def freeBuf (b : Option Bay) (s : State) : State :=
  let t := bufOf s b
  let k := s.nfree
  let n := t.recs.length
  useFree (16 * (n + t.post.length)) (s.modBuf b fun t =>
    { t with recs := t.recs.zipIdx.map fun x => freeRec (k + 16 * x.2), post := t.post.zipIdx.map fun x => freeRec (k + 16 * (n + x.2)) })

/-- RAIL_EXCURSION (R237, R274): warm reset; staging, tile banks and trace buffers hold undefined contents. In phases 1 to 3 the start-up goes
on where it stands (log entry 23). -/
def railExcursion (r : Rail) (s : State) : State :=
  let s := report 0x39 4 0xF 9 (match r with | .arr => 0 | .mem => 1) s
  let s := if warmable s then warmReset s else warmClear s
  let s := s.bays.foldl (fun s b =>
    let ev := s.nfree
    freeBuf (some b) (useFree 2 (s.modBay b fun x =>
      { x with bank0 := { x.bank0 with mem := ⟨[], some ev⟩ }, bank1 := { x.bank1 with mem := ⟨[], some (ev + 1)⟩ } }))) (freeBuf none s)
  let ev := s.nfree
  useFree 1 { s with staging := ⟨[], some ev⟩ }

def execRailExcursion (r : Rail) (s : State) : Host.Outcome State Fault Refusal :=
  if s.boot.porstN then .next (railExcursion r s) else .next s

/-! ### Failover (R226 to R229) -/

/-- The set that a TARGET names. -/
def targetSet (s : State) (c : Ctx) (target : Bool) : BitVec 4 := if target then s.prot.alt.get c else s.prot.pri.get c

/-- FO_CMD (R226). -/
def foStart (c : Nat) (target forced : Bool) (s : State) : Option State :=
  match ctxOfCode c with
  | none => none
  | some k =>
    if !s.prot.lock || s.g.failover.isSome || (s.cx k).alt == target || targetSet s k target == 0 ||
        (maskBays (targetSet s k target)).any (fun b => !s.inService b) then none
    else some { s with g := { s.g with failover := some ⟨k, target, forced, s.clk⟩, foCtx := BitVec.ofNat 4 c } }

/-- FAILOVER: FO_CMD with FORCE = 0 (R227). -/
def execFailover (a : Access) (c : BitVec 4) (target : Bool) (s : State) : Host.Outcome State Fault Refusal :=
  .next (access (regWrite a 0x1900 0 (foStart c.toNat target false)) s)

/-- FORCED_FAILOVER: FO_CMD with FORCE = 1 (R228). -/
def execForcedFailover (a : Access) (c : BitVec 4) (target : Bool) (s : State) : Host.Outcome State Fault Refusal :=
  .next (access (regWrite a 0x1900 0 (foStart c.toNat target true)) s)

/-- FO_TMO_EXPIRY (R228): the time does not count while the block is halted. -/
def execFoTmoExpiry (s : State) : Host.Outcome State Fault Refusal :=
  match s.g.failover with
  | some f =>
    if f.forced || s.g.foTmo == 0 || s.dbg.halted then .next s
    else
      let s := at' (f.start + s.g.foTmo.toNat * usLen) s
      .next { s with g := { s.g with failover := some { f with forced := true } } }
  | none => .next s

/-- The leaving bays. -/
def leaving (s : State) (f : Failover) : List Bay := maskBays (s.curSet f.ctx &&& ~~~ targetSet s f.ctx f.target)

/-- Whether a bay runs a granted operation of a context, a SCRUB among them. -/
def busyFor (s : State) (c : Ctx) (b : Bay) : Bool :=
  let x := s.by b
  (x.trussOn && x.truss.any fun y => y.1 == c) || (x.drainOn && x.drain.any fun y => y.1 == c) ||
    s.ops.any fun o => o.ctx == c && o.opc == 0x22 && o.stage == .granted && o.gset.getLsb b

/-- Step 2 of R227, or its form in R228. -/
def foReady (s : State) (f : Failover) : Bool :=
  (leaving s f).all fun b =>
    !busyFor s f.ctx b &&
      (f.forced || [(s.by b).bank0, (s.by b).bank1].all fun k => k.st == .free || k.ctx != f.ctx)

/-- What a forced switch releases (R228): every chain, and in the leaving bays the COMPLETE banks and the RAISE records. -/
def foRelease (f : Failover) (leave : List Bay) (s : State) : State :=
  (releaseChains f.ctx s).modBays leave fun _ x =>
    { x.modBanks (fun k => if k.ctx == f.ctx && k.st == .complete then k.free else k) with recs := x.recs.set f.ctx.1 none f.ctx.2 }

/-- Waiting operations of a context give up what they reserved, and wait for the new set (R229). -/
def freeWaiting (c : Ctx) (s : State) : State := unreserve (fun o => o.ctx == c) s

/-- Step 3 of R227: the current set becomes the target. -/
def foSwitch (f : Failover) (s : State) : State :=
  let leave := leaving s f
  let s := State.ifThen f.forced (foRelease f leave) (freeWaiting f.ctx s)
  let s := s.modCtx f.ctx fun x => { x with alt := f.target, epoch := x.epoch + 1, irqEpoch := true, nset := 0, nleft := 0 }
  resumeAtoms (nativeShadows (ctxBase f.ctx) { s with g := { s.g with failover := none, foStatDone := true, foForced := f.forced } })

/-- FAILOVER_SWITCH (R227, R228). -/
def execFailoverSwitch (s : State) : Host.Outcome State Fault Refusal :=
  match s.g.failover with
  | some f => if foReady s f then .next (foSwitch f s) else .next s
  | none => .next s

end Sys2Proof.Machine
end

