-- ==== Sys2Proof/Machine/Power.lean ====
section
/-! DEFINITION. Operating points, sleep and wake, the damper (R238 to R248). -/

namespace Sys2Proof.Machine

open Sys2Proof

/-! ### Posted writes (R218) -/

/-- What a posted write or request does when its domain wakes. -/
def effect (n v : Nat) (s : State) : Option State :=
  if rcMask n != 0 then some (subtract n (BitVec.ofNat 32 v) s)
  else if n == 0x7000 then dbgWrite v s
  else
    match ctxAddr n with
    | some (c, 0x0F0) => ctxRstWrite c v s
    | _ => plainEffect n v s

def ownedBy (s : State) (d : Domain) (n : Nat) : Bool :=
  match regKind s n with
  | some (.shadow k _) => k == d
  | _ => false

/-- Applies the posted writes of a domain in the order of their last writes. -/
def applyPosted (d : Domain) (s : State) : State :=
  let mine := s.regs.posted.filter fun x => ownedBy s d x.1.toNat
  let s := { s with regs := { s.regs with posted := s.regs.posted.filter fun x => !ownedBy s d x.1.toNat } }
  mine.foldl (fun s x => (effect x.1.toNat x.2.toNat s).getD s) s

/-- The fast clocks start: those of the running bays go on, their idle fc and the positions of the damper window with them; the posted
writes of the domains that run are applied (R218, R241, R247). -/
def startFast (s : State) : State :=
  let k := s.clk - s.damp.fcFrom
  let s := { s with
    fastOn := true, fastReq := false, fastGo := false, restart := s.clk
    bay := s.bay.map fun (x : BayState) => if x.pstate == PState.running then { x with idleAt := x.idleAt + k } else x
    damp := { s.damp with fcFrom := s.clk } }
  (s.bays.filter fun b => (s.by b).pstate == .running).foldl (fun s b => applyPosted (.bay b) s) (applyPosted .common s)

/-- The fast clocks stop: the shadows are exact, the sub-count of the timebase holds until the next edge (R217, R243), the positions of
the damper window stand (R247). -/
def stopFast (s : State) : State :=
  let s := refreshAll (awake s) s
  { s with holdI := timebaseSub s, holdU := s.clk / ucLen, fastOn := false, damp := { s.damp with fcBase := fcIndex s s.clk, fcFrom := s.clk } }

/-! ### Operating points (R238) -/

/-- OPPT. -/
def opptWrite (v : Nat) (s : State) : Option State :=
  if s.g.opBusy then none
  else some { s with g := { s.g with opTgt := v.testBit 0, opBusy := v.testBit 0 != s.g.opCur } }

def execOppt (a : Access) (v : Word) (s : State) : Host.Outcome State Fault Refusal :=
  .next (access (regWrite a 0x0110 v (opptWrite v.toNat)) s)

/-- No operation is granted anywhere; a ROOT's job stands between its operations, its accesses answered (R144). -/
def quiet (s : State) : Bool :=
  s.ops.all fun o => o.stage == .waiting || (o.stage == .armed && o.wrs == 0) || (o.opc == 0x0B && o.stage == .granted && o.rds == 0 && o.wrs == 0)

/-- OPS_REQ: every fast clock stops, OPS_LOW and OPS_REQ show the target. -/
def execOpsReq (s : State) : Host.Outcome State Fault Refusal :=
  if s.g.opBusy && !s.g.opsReq && quiet s && !s.dbg.halted && !s.damp.hardNow then
    let run := (if s.fastOn then [Domain.common] else []) ++ (s.bays.filter fun b => (s.by b).pstate == .running).map Domain.bay
    let s := if s.fastOn then stopFast s else s
    .next { s with g := { s.g with opsReq := true, opsLow := s.g.opTgt, opRun := run } }
  else .next s

/-- OPS_ACK. -/
def execOpsAck (level : Bool) (s : State) : Host.Outcome State Fault Refusal := .next { s with g := { s.g with opsAck := level } }

/-- Whether a bay's wake was due while the clocks stood, at its edge and its distance from the wake before (R240, R247). -/
def dueInStop (s : State) (b : Bay) : Bool :=
  (s.by b).wakeReq && decide (max (((s.by b).wakeAt / ucLen + 1) * ucLen) ((s.lastWake.map (· + 100 * ucLen)).getD 0) ≤ s.clk)

/-- A bay's wake waits for admission, and DAMP_STAT.WWAIT tells so (R248). -/
def holdWake (b : Bay) (s : State) : State :=
  { s.modBay b (fun x => { x with wakeHeld := true }) with damp := { s.damp with wwait := true } }

/-- The idle fc of a bay so far, in fc of another length from when the clocks stopped back (R238, R241). -/
def scaleIdle (old new stop : Nat) (x : BayState) : BayState :=
  if x.pstate == .running then { x with idleAt := stop - min 256 ((stop - x.idleAt) / old) * new } else x

/-- OPS_RESTART: 200 ns after the acknowledge the clocks that ran run again (R238); the idle fc of the bays stand, and wakes that fell due
meanwhile wait for the next window (R241, R247). -/
def opsRestart (s : State) : State :=
  let s := at' (s.clk + 4000) s
  let was := s.g.opRun.contains .common
  let old := fcLen s
  let s := { s with g := { s.g with opCur := s.g.opTgt, opBusy := false, opsReq := false, opRun := [] } }
  let new := fcLen s
  let s := { s with bay := s.bay.map (scaleIdle old new s.damp.fcFrom) }
  let s := (s.bays.filter (dueInStop s)).foldl (fun s b => holdWake b s) s
  if was then startFast s else s

def execOpsRestart (s : State) : Host.Outcome State Fault Refusal :=
  if s.g.opsReq && s.g.opsAck then .next (opsRestart s) else .next s

/-! ### The plan of the damper (R245, R248) -/

/-- Exact sum of fractions with positive denominators. -/
def addFrac (a b : Nat × Nat) : Nat × Nat := (a.1 * b.2 + b.1 * a.2, a.2 * b.2)

/-- planned(n) in mW as a fraction, from the activity of the window before, at the point that runs now (R245, R247); `extra` bays count
as awake and idle. -/
def planned (s : State) (extra : List Bay) (n : Nat) : Nat × Nat :=
  let low := s.g.opCur
  let bay (b : Bay) : Nat × Nat :=
    let x := s.by b
    let a := s.damp.last.get b
    let idle := idleCoef low
    if extra.contains b then (idle, 1)
    else if x.pstate == .running then addFrac (idle, 1) (n * ((if low then a.coefLow else a.coef) - idle * a.active), 64 * max 1 a.awake)
    else (sleepCoef low x.pstate, 1)
  (s.bays.map bay).foldl addFrac (400 + commonCoef s.build low s.fastOn, 1)

/-- Whether a plan stays within the cap of the window (R245). -/
def within (s : State) (p : Nat × Nat) : Bool := decide (p.1 ≤ s.damp.cap.toNat * 1000 * p.2)

/-- Whether the damper admits the wake of a bay; it is inactive before READY (R248, R249). -/
def admits (s : State) (b : Bay) : Bool := !s.boot.ready || within s (planned s [b] 1)

/-! ### Wakes (R239, R240) -/

/-- Order of the waiting bay wakes: by the CLK_AON edge after the request, then by bay. -/
def wakeKey (s : State) (b : Bay) : Nat := 4 * ((s.by b).wakeAt / ucLen) + b.val

/-- Whether a bay's wake is the next to start; one that waits for admission lets the others pass. -/
def wakesFirst (s : State) (b : Bay) : Bool :=
  (s.by b).wakeReq && !(s.by b).wakeHeld && s.bays.all fun k => !(s.by k).wakeReq || (s.by k).wakeHeld || decide (wakeKey s b ≤ wakeKey s k)

/-- The start of a bay's wake: its state, its count, the time it runs. -/
def startWake (b : Bay) (s : State) : State :=
  let edge := ((s.by b).wakeAt / ucLen + 1) * ucLen
  let s := askFast (at' (max edge (match s.lastWake with | some t => t + 100 * ucLen | none => 0)) s)
  let s := advanceTo (alignUp ucLen s.clk) s
  let due := s.clk + (if (s.by b).pstate == .powerGated then 20 * usLen else 4000)
  { s.modBay b (fun x => { x with pstate := .waking, wakeReq := false, wakeAt := due,
                                  wakes := if x.wakes == 0xFFFF then x.wakes else x.wakes + 1 }) with lastWake := some s.clk }

/-- Whether wakes may start: from phase 4 on, and not while an operating-point change has the clocks stopped (R238, R247, R249). -/
def wakesRun (s : State) : Bool := !s.g.opsReq && (s.boot.ready || (s.boot.porstN && s.boot.wrstN && decide (4 ≤ s.boot.phase.toNat)))

/-- WAKE_START (R240, R248). A wake that is not admitted is looked at again at window boundaries. -/
def execWakeStart (d : Domain) (s : State) : Host.Outcome State Fault Refusal :=
  if !wakesRun s then .next s
  else
    match d with
    | .common =>
      if s.fastReq && !s.fastGo && !s.fastOn then
        let s := at' ((s.fastAt / ucLen + 1) * ucLen) s
        .next { s with fastGo := true, fastAt := s.clk }
      else .next s
    | .bay b =>
      if !wakesFirst s b then .next s
      else if admits s b then .next (startWake b s)
      else .next (holdWake b s)

/-- A bay runs: its posted writes are applied before what waits for it starts (R218). -/
def endWake (b : Bay) (s : State) : State :=
  let s := at' (s.by b).wakeAt s
  let t := s.clk
  let n := s.damp.ran
  startReserved b (applyPosted (.bay b) (s.modBay b fun x => { x with pstate := .running, idleAt := t, awakeAt := t, backRan := n }))

/-- WAKE_DONE (R240). -/
def execWakeDone (d : Domain) (s : State) : Host.Outcome State Fault Refusal :=
  match d with
  | .common => if s.fastGo && !s.g.opsReq then .next (startFast (at' (s.fastAt + 4000) s)) else .next s
  | .bay b => if (s.by b).pstate == .waking && s.fastOn then .next (endWake b s) else .next s

/-! ### Sleep (R241, R242) -/

def policy (s : State) (b : Bay) : Nat := bitField s.g.bayPolicy.toNat (2 * b.val) 2

/-- Whether a bay has neither an operation nor a reservation, a SCRUB among them, nor a remap to load (R192, R241, R267). -/
def bayFree (s : State) (b : Bay) : Bool := (s.by b).truss.isNone && (s.by b).drain.isNone && !scrubShuts s b && !repairs s b

/-- BAY_CLOCK_STOP (R241). -/
def execBayClockStop (b : Bay) (s : State) : Host.Outcome State Fault Refusal :=
  let x := s.by b
  if s.boot.ready && s.present b && x.pstate == .running && s.fastOn && bayFree s b && !x.brst && decide (policy s b ≤ 1) then
    let s := at' (x.idleAt + 256 * fcLen s) s
    let t := s.clk
    let s := stopShadows b s
    .next (s.modBay b fun x => { x with pstate := .clockStopped, idleAt := t })
  else .next s

/-- What keeps a bay from being power-gated; before READY its reset is in progress (R241, R252). -/
def keepsPower (s : State) (b : Bay) : Bool :=
  let x := s.by b
  !s.boot.ready || x.bank0.st != .free || x.bank1.st != .free || s.dbg.halted || x.brst || x.wakeReq

/-- A bay loses its power: its shadows are exact, its joints empty, tags and RAISE records stay (R217, R242). -/
def gate (b : Bay) (s : State) : State := (stopShadows b s).modBay b fun x => { x with pstate := .powerGated, face := none }

/-- POWER_GATE (R241, R242). -/
def execPowerGate (b : Bay) (s : State) : Host.Outcome State Fault Refusal :=
  let x := s.by b
  if !s.present b || keepsPower s b then .next s
  else if x.oos && x.pstate != .powerGated then .next (gate b s)
  else if x.pstate == .clockStopped && policy s b == 0 then
    .next (gate b (at' (x.idleAt + s.g.pgDelay.toNat * usLen) s))
  else .next s

/-- Whether anything of a context is queued or under way. -/
def ctxIdle (s : State) (c : Ctx) : Bool :=
  let x := s.cx c
  (x.mode != .active || (x.qm.count == 0 && x.qm.loop.isNone && x.qp.count == 0 && x.qp.loop.isNone)) && x.recs.isEmpty && !x.rstBusy &&
    x.lockWin.isNone

/-- COMMON_CLOCK_STOP (R21). -/
def execCommonClockStop (s : State) : Host.Outcome State Fault Refusal :=
  if s.boot.ready && s.fastOn && (allCtx.all (ctxIdle s)) && s.ops.isEmpty && s.lehr.isNone && !haltReq s &&
      (s.bays.all fun b => ((s.by b).pstate == .clockStopped || (s.by b).pstate == .powerGated) && !(s.by b).wakeReq) then .next (stopFast s)
  else .next s

/-! ### Windows of the damper (R245 to R247) -/

def windowLen : Nat := 500 * ucLen

/-- The duty of the window that begins, the one before having begun at `from_`: the largest n that the plan allows, 1 when none does, 64 up to the first window after READY. -/
def nextDuty (from_ : Nat) (s : State) : Nat :=
  if !s.boot.ready || from_ < s.boot.started then 64
  else ((List.range 64).reverse.find? fun k => within s (planned s [] (k + 1))).map (· + 1) |>.getD 1

/-- The damper as a window leaves it to the next: its activity and cap are those of the plan, EST is the mean of its estimate in 1/16 W, and
the positions count anew (R245). -/
def Damper.turn (s : State) : Damper :=
  let est := s.damp.energy * 16 / (64 * 1000 * max 1 (s.clk - s.damp.start))
  { s.damp with
    hard := s.damp.hardNow, est := BitVec.ofNat 16 (min 0xFFFF est), hardNow := false, energy := 0, start := s.clk
    last := s.damp.act, act := .replicate 4 {}, cap := s.g.pwrCap, fcBase := 0, fcFrom := if s.fastOn then s.clk else s.damp.fcFrom }

/-- The held wakes are examined again (R248). -/
def examineWakes (s : State) : State :=
  let s := { s with bay := s.bay.mapFinIdx fun i x h => { x with wakeHeld := x.wakeHeld && !admits s ⟨i, h⟩ } }
  { s with damp := { s.damp with wwait := s.bays.any fun b => (s.by b).wakeHeld } }

/-- A new window begins: its duty is planned, the work under way goes on under it, and a halt that stands goes on from here. -/
def nextWindow (s : State) : State :=
  let s := settleFlow s
  let t := { s with damp := Damper.turn s }
  let t := { t with damp := { t.damp with n := BitVec.ofNat 7 (nextDuty s.damp.start t) } }
  let t := carryWork s t
  let t := if t.dbg.halted then { shiftHalt t with dbg := { t.dbg with haltAt := t.clk } } else t
  if s.g.opsReq then t else examineWakes t

/-- DAMPER_WINDOW (R245, R248). -/
def execDamperWindow (s : State) : Host.Outcome State Fault Refusal :=
  .next (nextWindow (at' ((s.damp.start / windowLen + 1) * windowLen) s))

/-- DAMPER_HARD_STOP (R246): the rest of the window stalls; what the fc so far have done counts. -/
def execDamperHardStop (s : State) : Host.Outcome State Fault Refusal :=
  let stop := (s.damp.start / windowLen + 1) * windowLen
  let left := stop - s.clk
  if s.boot.ready && s.fastOn && !s.damp.hardNow && decide (s.clk < stop) &&
      decide (64 * 1000 * s.damp.cap.toNat * windowLen ≤ s.damp.energy + 64 * stallPower s * left) then
    let s := settleFlow s
    .next { s with damp := { s.damp with hardNow := true, hardFrom := s.clk } }
  else .next s

end Sys2Proof.Machine
end

