-- ==== Sys2Proof/Machine/Startup.lean ====
section
/-! DEFINITION. Cold reset, start-up, ring join and enumeration (R215, R221, R249 to R254), and register writes without a row of
their own (R218, R305). -/

namespace Sys2Proof.Machine

open Sys2Proof

/-! ### Cold reset (R221, R233, R249) -/

/-- The block in cold reset: its build, its pins, the commands that wait and the count of free values stay, and until phase 6 the contents of
staging, tile banks and trace buffers with their poison (R22, R233). -/
def coldReset (s : State) : State :=
  { State.reset with
    build := s.build
    g := { State.reset.g with pwrCap := BitVec.ofNat 8 (Config.capMax s.build) }
    bay := s.bay.map fun x =>
      { spares := freshSpares s.build, bank0 := { mem := x.bank0.mem }, bank1 := { mem := x.bank1.mem },
        tbuf := { recs := x.tbuf.recs, post := x.tbuf.post } }
    staging := s.staging
    ras := { poison := s.ras.poison }
    trace := { State.reset.trace with buf := { recs := s.trace.buf.recs, post := s.trace.buf.post } }
    damp := { cap := BitVec.ofNat 8 (Config.capMax s.build) }
    boot := { State.reset.boot with wrstN := s.boot.wrstN }
    cnt := { State.reset.cnt with pin := s.cnt.pin }
    dbg := { State.reset.dbg with hin := s.dbg.hin }
    xch := { out := s.xch.out }
    nfree := s.nfree
    pending := s.pending }

/-- PORST_N_ASSERT. -/
def execPorstNAssert (s : State) : Host.Outcome State Fault Refusal := .next (coldReset s)

/-- PORST_N_RELEASE: BLK_ID is sampled, the timebase starts (R243, R249). -/
def execPorstNRelease (blkId : BitVec 15) (s : State) : Host.Outcome State Fault Refusal :=
  if s.boot.porstN then .next s
  else
    .next { s with
      clk := 0
      boot := { s.boot with porstN := true, phase := 1, released := 0, started := 0 }
      g := { s.g with blkId := blkId }
      damp := { s.damp with energy := 0, start := 0, fcBase := 0, fcFrom := 0 } }

/-! ### Phases (R249 to R252) -/

/-- FURNACE_START: the register port answers. -/
def execFurnaceStart (us : Nat) (s : State) : Host.Outcome State Fault Refusal :=
  if s.boot.porstN && s.boot.phase == 1 && (Instr.furnaceStart us).wellFormed then
    let s := at' (s.boot.released + us * usLen) s
    .next { s with boot := { s.boot with running := true, phase := 2 } }
  else .next s

/-- FUSE_READ: exactly 220 us after release; the damper has its coefficients, the columns are retired by the remap of phase 6 (R249). -/
def execFuseRead (cols : List (List Nat)) (lane : Option (Bay × Nat)) (s : State) : Host.Outcome State Fault Refusal :=
  if s.boot.phase == 2 && s.boot.porstN && (Instr.fuseRead cols lane).wellFormed then
    let s := at' (s.boot.released + 220 * usLen) s
    let lane := if s.build == .fig4B then lane else none
    .next { s with ras := { s.ras with lane := lane }, damp := { s.damp with fused := true }, boot := { s.boot with phase := 3, fuseCols := cols } }
  else .next s

/-- WAKE_SLOT: phase 4 begins, and with it the wakes of the bays (R249). -/
def execWakeSlot (s : State) : Host.Outcome State Fault Refusal :=
  if s.boot.phase == 3 && s.boot.porstN then
    let s := at' (s.boot.released + (220 + s.g.blkId.toNat % 32 * 80) * usLen) s
    .next (wakeAll { s with boot := { s.boot with phase := 4, started := s.clk } })
  else .next s

/-- The common fast domain comes up 200 ns after the edge that starts its wake (R240). -/
def wakeCommon (s : State) : State :=
  if s.fastOn then s else startFast (at' ((if s.fastGo then s.fastAt else (s.fastAt / ucLen + 1) * ucLen) + 4000) s)

/-- FAST_START ends phase 4: the wakes that have no command of their own happen in their order, 2 us apart, and each bay runs 20 us after its
start; posted writes are applied (R218, R240, R249, R252, R253). -/
def fastStart (us : Nat) (s : State) : State :=
  let wake (s : State) (b : Bay) : State := if (s.by b).wakeReq then wakeCommon (startWake b s) else s
  let s := wakeCommon (s.bays.foldl wake s)
  let s := s.bays.foldl (fun s b => if (s.by b).pstate == .waking then endWake b s else s) s
  let s := at' (s.boot.started + us * usLen) s
  { s with boot := { s.boot with phase := 5, started := s.clk } }

def execFastStart (us : Nat) (s : State) : Host.Outcome State Fault Refusal :=
  if s.boot.phase == 4 && s.boot.porstN && s.boot.wrstN && (Instr.fastStart us).wellFormed then .next (fastStart us s) else .next s

/-- BIST of one bay: its failing columns wait for the remap, its spare rows are counted after cold reset. -/
def bistBay (s : State) (b : Bay) (t : BayTest) : State :=
  let s := s.modBay b fun x =>
    { x with bistOk := t.pass, oos := x.oos || !t.pass, pendCol := x.pendCol ++ t.cols.filter (fun k => !x.pendCol.contains k)
             rows := if s.boot.cold then t.rows.map (fun r => (r.1, min 4 r.2)) else x.rows }
  if t.pass then s else report 0x3C 3 0xF 4 b.val s

/-- BIST: a failure of the common domain, in the subsystem of that number, keeps the block in phase 5 (R251, R323). -/
def bist (tests : List BayTest) (commonFails : Option Nat) (us : Nat) (s : State) : State :=
  let s := at' (s.boot.started + us * usLen) s
  match commonFails with
  | some n => { report 0x3C 4 0xF 8 n s with boot := { s.boot with cfail := true } }
  | none =>
    let s := (s.bays.zip tests).foldl (fun s x => bistBay s x.1 x.2) s
    { s with boot := { s.boot with phase := 6, started := s.clk } }

def execBist (tests : List BayTest) (commonFails : Option Nat) (us : Nat) (s : State) : Host.Outcome State Fault Refusal :=
  if s.boot.phase == 5 && !s.boot.cfail && (Instr.bist tests commonFails us).wellFormed then .next (bist tests commonFails us s) else .next s

/-- The remap of one bay: after a cold reset what the fuses name, then what waited and what BIST found; too few spares take it out of
service (R249, R251, R252, R268). -/
def remapBay (s : State) (b : Bay) : State :=
  let (s, ok0) := retireAll false b (if s.boot.cold then (s.boot.fuseCols[b.val]?).getD [] else []) s
  let (s, ok) := applyPending (!s.boot.cold) b [] s
  if ok0 && ok then s else s.modBay b fun x => { x with oos := true, bistOk := false }

/-- Memories zeroed after a cold reset (R249). -/
def zeroAll (s : State) : State :=
  { s with
    staging := {}
    bay := s.bay.map fun x => { x.modBanks (fun k => { k with mem := {} }) with tbuf := { x.tbuf with recs := [], post := [] } }
    trace := { s.trace with buf := { s.trace.buf with recs := [], post := [] } }
    ras := { s.ras with poison := [] } }

/-- REMAP (R249, R252). -/
def execRemap (us : Nat) (s : State) : Host.Outcome State Fault Refusal :=
  if s.boot.phase == 6 && (Instr.remap us).wellFormed then
    let s := at' (s.boot.started + us * usLen) s
    let s := s.bays.foldl remapBay s
    let s := State.ifThen s.boot.cold zeroAll s
    .next { s with boot := { s.boot with phase := 7, started := s.clk } }
  else .next s

def inServiceMask (s : State) : BitVec 4 := bayMaskOf (s.bays.filter s.inService)

/-- RING_JOIN: the shell is JOINED, sequence numbers start at 0, the block is READY (R215, R249 to R251, R254). -/
def ringJoin (us : Nat) (s : State) : State :=
  let s := at' (s.boot.started + us * usLen) s
  let s := ringSend .join { s with xch := { out := s.xch.out, joined := true }, g := { s.g with ringValid := false } }
  let s := State.ifThen (anyRing s) (storePlain none { typ := 0x21, eng := 0xF, ctx := 0xF, time := timeWord s }) s
  let out := s.bays.filter fun b => (s.by b).oos
  let s := out.foldl (fun s b => gate b s) s
  { s with boot := { s.boot with phase := 0, ready := true, intr := true, bfail := bayMaskOf out, started := s.clk } }

def execRingJoin (us : Nat) (s : State) : Host.Outcome State Fault Refusal :=
  if s.boot.phase == 7 && (Instr.ringJoin us).wellFormed then .next (ringJoin us s) else .next s

/-- ENUMERATION_FLIT: a JOINED shell takes the address, answers and forwards; in BYPASS it forwards unchanged (R214, R254). -/
def execEnumerationFlit (origin : BitVec 31) (addr : BitVec 31) (s : State) : Host.Outcome State Fault Refusal :=
  if s.xch.joined then
    let s := { s with g := { s.g with ringAddr := addr, ringValid := true } }
    .next (ringSend (.enumForward origin (addr + 1)) (ringSend (.enumAnswer origin s.g.blkId (Config.buildCode s.build) (inServiceMask s)) s))
  else .next (ringSend (.enumForward origin addr) s)

/-! ### REGISTER_WRITE (R218, R305) -/

/-- The effect of a write on any register; one that has a row of its own acts as that row does. -/
def anyEffect (n v : Nat) (s : State) : Option State :=
  match n with
  | 0x0040 => warmWrite v s
  | 0x0110 => opptWrite v s
  | 0x1900 => foStart (v % 16) (v.testBit 4) (v.testBit 5) s
  | 0x1920 => repWrite v s
  | 0x58F0 => freezeWrite v s
  | 0x7018 => if v.testBit 8 then snapStart v s else plainEffect n v s
  | n =>
    if rcMask n != 0 && n != 0x0200 then some s
    else if 0x4000 ≤ n && n < 0x5000 && n % 0x400 == 0 then
      match blockBay s ((n - 0x4000) / 0x400) with
      | some b => brstWrite b v s
      | none => some s
    else effect' n v s
where
  /-- `effect` without its requests to subtract. -/
  effect' (n v : Nat) (s : State) : Option State :=
    if n == 0x7000 then dbgWrite v s
    else match ctxAddr n with
      | some (c, 0x0F0) => ctxRstWrite c v s
      | _ => plainEffect n v s

/-- A register that software cannot write: the write is acknowledged and ignored, and nothing is posted (R6). -/
def readOnly (n : Nat) : Bool :=
  (decide (0x5000 ≤ n) && decide (n < 0x5400) && decide (n % 0x100 < 0x20)) || (decide (0x5800 ≤ n) && decide (n < 0x5818)) ||
    (decide (0x6000 ≤ n) && decide (n < 0x6240) && n % 0x40 == 0x0C) ||
  (rcMask n != 0 && n != 0x0200) ||
    (match ctxAddr n with
      | some (_, off) => [0x014, 0x01C, 0x034, 0x03C, 0x04C, 0x064, 0x0D0, 0x0D4, 0x0D8, 0x0DC, 0x0E0, 0x0E4, 0x0E8].contains off
      | none => false) ||
    decide (0x7100 ≤ n)

/-- REGISTER_WRITE. -/
def execRegisterWrite (a : Access) (addr : BitVec 16) (v : Word) (s : State) : Host.Outcome State Fault Refusal :=
  let n := addr.toNat
  .next (access (fun s =>
    if readOnly n then (if mayWrite s a n then answer .ack s else err s)
    else regWrite a n v (tenantRing a n v.toNat (anyEffect n v.toNat)) s) s)

end Sys2Proof.Machine
end

