-- ==== Sys2Proof/Machine/Dispatch.lean ====
section
/-! DEFINITION. One arm per command. -/

namespace Sys2Proof.Machine

open Sys2Proof

/-- The effect of a command on everything but the queue of commands. -/
def exec (i : Instr) (s : State) : Host.Outcome State Fault Refusal :=
  match i with
  | .raise c q => Sys2Proof.Machine.execRaise c q s
  | .gather c q => Sys2Proof.Machine.execGather c q s
  | .pass c q => Sys2Proof.Machine.execPass c q s
  | .seed c q => Sys2Proof.Machine.execSeed c q s
  | .drain c q => Sys2Proof.Machine.execDrain c q s
  | .fold c q => Sys2Proof.Machine.execFold c q s
  | .blend c q => Sys2Proof.Machine.execBlend c q s
  | .reduce c q => Sys2Proof.Machine.execReduce c q s
  | .topk c q => Sys2Proof.Machine.execTopk c q s
  | .norm c q => Sys2Proof.Machine.execNorm c q s
  | .root c q => Sys2Proof.Machine.execRoot c q s
  | .rootAccept => Sys2Proof.Machine.execRootAccept s
  | .lehrSetup => Sys2Proof.Machine.execLehrSetup s
  | .lehrIteration => Sys2Proof.Machine.execLehrIteration s
  | .rootComplete => Sys2Proof.Machine.execRootComplete s
  | .rough c q => Sys2Proof.Machine.execRough c q s
  | .mask c q => Sys2Proof.Machine.execMask c q s
  | .csr c q => Sys2Proof.Machine.execCsr c q s
  | .copy c q => Sys2Proof.Machine.execCopy c q s
  | .scale c q => Sys2Proof.Machine.execScale c q s
  | .send c q => Sys2Proof.Machine.execSend c q s
  | .recv c q => Sys2Proof.Machine.execRecv c q s
  | .atomAdd c q => Sys2Proof.Machine.execAtomAdd c q s
  | .wait c q => Sys2Proof.Machine.execWait c q s
  | .waitRelease c q => Sys2Proof.Machine.execWaitRelease c q s
  | .signal c q => Sys2Proof.Machine.execSignal c q s
  | .fence c q => Sys2Proof.Machine.execFence c q s
  | .loop c q => Sys2Proof.Machine.execLoop c q s
  | .lock c q => Sys2Proof.Machine.execLock c q s
  | .unlock c q => Sys2Proof.Machine.execUnlock c q s
  | .lockCommitEnd c => Sys2Proof.Machine.execLockCommitEnd c s
  | .lockBroken c => Sys2Proof.Machine.execLockBroken c s
  | .mark c q => Sys2Proof.Machine.execMark c q s
  | .watch c q => Sys2Proof.Machine.execWatch c q s
  | .scrub c q => Sys2Proof.Machine.execScrub c q s
  | .flags c q => Sys2Proof.Machine.execFlags c q s
  | .endProg c q => Sys2Proof.Machine.execEndProg c q s
  | .queueFetch c q => Sys2Proof.Machine.execQueueFetch c q s
  | .bayGrant b drain => Sys2Proof.Machine.execBayGrant b drain s
  | .unitGrant u => Sys2Proof.Machine.execUnitGrant u s
  | .exchangeAdmit send => Sys2Proof.Machine.execExchangeAdmit send s
  | .raiseDone c seq x => Sys2Proof.Machine.execRaiseDone c seq x s
  | .trussOpComplete c seq faults delay => Sys2Proof.Machine.execTrussOpComplete c seq faults delay s
  | .abftReplay c seq faults => Sys2Proof.Machine.execAbftReplay c seq faults s
  | .overflowReplay c seq faults => Sys2Proof.Machine.execOverflowReplay c seq faults s
  | .drainComplete c x => Sys2Proof.Machine.execDrainComplete c x s
  | .svuOpComplete c seq => Sys2Proof.Machine.execSvuOpComplete c seq s
  | .topkComplete c seq => Sys2Proof.Machine.execTopkComplete c seq s
  | .completionRecordWrite c => Sys2Proof.Machine.execCompletionRecordWrite c s
  | .messageHeaderReceive h => Sys2Proof.Machine.execMessageHeaderReceive h s
  | .headerRetry c seq => Sys2Proof.Machine.execHeaderRetry c seq s
  | .clearToSend c seq => Sys2Proof.Machine.execClearToSend c seq s
  | .sendComplete c seq => Sys2Proof.Machine.execSendComplete c seq s
  | .recvComplete c seq data => Sys2Proof.Machine.execRecvComplete c seq data s
  | .exchangeTimeout c seq got => Sys2Proof.Machine.execExchangeTimeout c seq got s
  | .peerDown addr => Sys2Proof.Machine.execPeerDown addr s
  | .rdata b tag st data => Sys2Proof.Machine.execRdata b tag st data s
  | .aack b tag st => Sys2Proof.Machine.execAack b tag st s
  | .fack b tag st => Sys2Proof.Machine.execFack b tag st s
  | .portTmoExpiry b writePort tag => Sys2Proof.Machine.execPortTmoExpiry b writePort tag s
  | .watchdog c q => Sys2Proof.Machine.execWatchdog c q s
  | .eccWriteBack l reader => Sys2Proof.Machine.execEccWriteBack l reader s
  | .patrolRead w found => Sys2Proof.Machine.execPatrolRead w found s
  | .columnRemap b => Sys2Proof.Machine.execColumnRemap b s
  | .sillLaneSpared b => Sys2Proof.Machine.execSillLaneSpared b s
  | .failWinExpiry b lane col => Sys2Proof.Machine.execFailWinExpiry b lane col s
  | .bayLeaveService b => Sys2Proof.Machine.execBayLeaveService b s
  | .doorbell a c q v => Sys2Proof.Machine.execDoorbell a c q v s
  | .featAck a c v => Sys2Proof.Machine.execFeatAck a c v s
  | .bootlock a v => Sys2Proof.Machine.execBootlock a v s
  | .ctxRst a c v => Sys2Proof.Machine.execCtxRst a c v s
  | .tenantResetDone c => Sys2Proof.Machine.execTenantResetDone c s
  | .brst a b v => Sys2Proof.Machine.execBrst a b v s
  | .bayResetDone b t us => Sys2Proof.Machine.execBayResetDone b t us s
  | .warmRst a v => Sys2Proof.Machine.execWarmRst a v s
  | .wrstN level => Sys2Proof.Machine.execWrstN level s
  | .porstNAssert => Sys2Proof.Machine.execPorstNAssert s
  | .porstNRelease blkId => Sys2Proof.Machine.execPorstNRelease blkId s
  | .railExcursion r => Sys2Proof.Machine.execRailExcursion r s
  | .furnaceStart us => Sys2Proof.Machine.execFurnaceStart us s
  | .fuseRead cols lane => Sys2Proof.Machine.execFuseRead cols lane s
  | .wakeSlot => Sys2Proof.Machine.execWakeSlot s
  | .fastStart us => Sys2Proof.Machine.execFastStart us s
  | .bist tests commonFails us => Sys2Proof.Machine.execBist tests commonFails us s
  | .remap us => Sys2Proof.Machine.execRemap us s
  | .ringJoin us => Sys2Proof.Machine.execRingJoin us s
  | .enumerationFlit origin addr => Sys2Proof.Machine.execEnumerationFlit origin addr s
  | .failover a c target => Sys2Proof.Machine.execFailover a c target s
  | .forcedFailover a c target => Sys2Proof.Machine.execForcedFailover a c target s
  | .foTmoExpiry => Sys2Proof.Machine.execFoTmoExpiry s
  | .failoverSwitch => Sys2Proof.Machine.execFailoverSwitch s
  | .retire a b col => Sys2Proof.Machine.execRetire a b col s
  | .bayOut a b force => Sys2Proof.Machine.execBayOut a b force s
  | .bayIn a b => Sys2Proof.Machine.execBayIn a b s
  | .clearCols a b => Sys2Proof.Machine.execClearCols a b s
  | .oppt a v => Sys2Proof.Machine.execOppt a v s
  | .opsReq => Sys2Proof.Machine.execOpsReq s
  | .opsAck level => Sys2Proof.Machine.execOpsAck level s
  | .opsRestart => Sys2Proof.Machine.execOpsRestart s
  | .wakeStart d => Sys2Proof.Machine.execWakeStart d s
  | .wakeDone d => Sys2Proof.Machine.execWakeDone d s
  | .bayClockStop b => Sys2Proof.Machine.execBayClockStop b s
  | .powerGate b => Sys2Proof.Machine.execPowerGate b s
  | .commonClockStop => Sys2Proof.Machine.execCommonClockStop s
  | .damperWindow => Sys2Proof.Machine.execDamperWindow s
  | .damperHardStop => Sys2Proof.Machine.execDamperHardStop s
  | .shadowRefresh addr => Sys2Proof.Machine.execShadowRefresh addr s
  | .timeHi => Sys2Proof.Machine.execTimeHi s
  | .traceDma buf => Sys2Proof.Machine.execTraceDma buf s
  | .arm a buf v => Sys2Proof.Machine.execArm a buf v s
  | .fire a v => Sys2Proof.Machine.execFire a v s
  | .purge a c v => Sys2Proof.Machine.execPurge a c v s
  | .freeze r => Sys2Proof.Machine.execFreeze r s
  | .counterFreeze => Sys2Proof.Machine.execCounterFreeze s
  | .dbgHalt r => Sys2Proof.Machine.execDbgHalt r s
  | .halted => Sys2Proof.Machine.execHalted s
  | .resume => Sys2Proof.Machine.execResume s
  | .snapshotStart a v => Sys2Proof.Machine.execSnapshotStart a v s
  | .snapshotDone portError => Sys2Proof.Machine.execSnapshotDone portError s
  | .scanOut d wholeChain => Sys2Proof.Machine.execScanOut d wholeChain s
  | .registerReadClear a addr => Sys2Proof.Machine.execRegisterReadClear a addr s
  | .pairLowRead a addr => Sys2Proof.Machine.execPairLowRead a addr s
  | .registerWrite a addr v => Sys2Proof.Machine.execRegisterWrite a addr v s
  | .messageRefused c seq r => Sys2Proof.Machine.execMessageRefused c seq r s

end Sys2Proof.Machine
end

