-- ==== Sys2Proof/Safety.lean ====
section
/-! DEFINITION. What the claims speak of: the memories in canonical form. -/

namespace Sys2Proof

open Sys2Proof.Machine

/-- Every memory of the block is in canonical form: staging and the two tile-bank slices of each bay. -/
def MemoriesOk (s : State) : Prop :=
  s.staging.wf ∧ ∀ b : Bay, (s.by b).bank0.mem.wf ∧ (s.by b).bank1.mem.wf

end Sys2Proof
end

