-- ==== Sys2Proof/Certificates/Slice0/Obligations.lean ====
section
/-! DEFINITION. The statements for the provers, and the words they are said in. -/

namespace Sys2Proof.Claims

open Sys2Proof Sys2Proof.Machine

/-! ### Requests of the write ports, fault records and the log -/

/-- A request of a write port without its tag and time. -/
def bare : WrReq → WrReq
  | .wr line far c mask data => .wr line far c mask data
  | .afadd _ line far c lanes adds w _ => .afadd 0 line far c lanes adds w 0
  | .flush _ w _ => .flush 0 w 0

/-- What a write port has been asked to send: requests that no response has ended, and those that wait for a tag. -/
def asks (p : Port) : List WrReq := (p.wr ++ p.wrWait).map bare

/-- The requests that bay b's port gets for some writes of a context: its share of the window lines, dealt to the ports in turn from the
first, then one FLUSH where it has any (R203, R205). -/
def posts (s : State) (c : Ctx) (w : Owner) (ports : List Bay) (spans : List Range) (ws : List Wr) (b : Bay) : List WrReq :=
  let ls := (deal ports (wrLines ws)).filter (·.1 == b)
  ls.map (fun x => .wr x.2.1 (tierIn s c true spans x.2.1) c x.2.2.1 x.2.2.2) ++ if ls.isEmpty then [] else [.flush 0 w 0]

/-- The same for the adds of an ATOMADD (R203, R207). -/
def adds (s : State) (c : Ctx) (seq : BitVec 8) (ports : List Bay) (spans : List Range) (w : List (Nat × Word)) (b : Bay) : List WrReq :=
  ((deal ports (addLines w)).filter (·.1 == b)).map fun x =>
    .afadd 0 x.2.1 (tierIn s c true spans x.2.1) c x.2.2.1 x.2.2.2 (.op c seq) 0

/-- The window ranges of some spans. -/
def winRanges (l : List (Nat × Nat)) : List Range := l.map fun x => ⟨true, x.1, x.2⟩

/-- The record of a fault at the time of `t` (R231): the first one since the record was cleared, or a fatal one over a milder one, takes
the record; any other is counted. -/
def FaultNoted (s t : State) (c : Ctx) (code : Nat) (cls : BitVec 3) (q : QSel) (idx aux : Nat) : Prop :=
  let f := (s.cx c).fault
  let up : BitVec 16 := if f.count = 0xFFFF then 0xFFFF else f.count + 1
  (t.cx c).fault =
    if f.code = 0 ∨ f.cls.toNat < 2 ∧ 2 ≤ cls.toNat then
      { code := BitVec.ofNat 8 code, cls := cls, prioQ := q == .prio, index := BitVec.ofNat 16 idx, aux := BitVec.ofNat 32 aux,
        time := BitVec.ofNat 64 (timebase t), count := if f.code = 0 then 0 else up }
    else { f with count := up }

/-- A source is in the log with the time of `t`, when the log has room (R276, R277). -/
def Logged (s t : State) (code typ id : Nat) : Prop :=
  (∃ i, s.ras.log.get i = none) → ∃ i e, t.ras.log.get i = some e ∧ e.code = BitVec.ofNat 8 code ∧ e.typ = BitVec.ofNat 4 typ ∧
    e.id = BitVec.ofNat 32 id ∧ e.last = BitVec.ofNat 64 (timebase t)

/-! ### Dispatch -/

/-- The instruction rows: opcode, context and queue. -/
def instRow : Instr → Option (Nat × Ctx × QSel)
  | .raise c q => some (0x01, c, q)
  | .gather c q => some (0x02, c, q)
  | .pass c q => some (0x03, c, q)
  | .seed c q => some (0x04, c, q)
  | .drain c q => some (0x05, c, q)
  | .fold c q => some (0x06, c, q)
  | .blend c q => some (0x07, c, q)
  | .reduce c q => some (0x08, c, q)
  | .topk c q => some (0x09, c, q)
  | .norm c q => some (0x0A, c, q)
  | .root c q => some (0x0B, c, q)
  | .rough c q => some (0x0C, c, q)
  | .mask c q => some (0x0D, c, q)
  | .csr c q => some (0x0E, c, q)
  | .copy c q => some (0x10, c, q)
  | .send c q => some (0x11, c, q)
  | .recv c q => some (0x12, c, q)
  | .atomAdd c q => some (0x13, c, q)
  | .wait c q => some (0x18, c, q)
  | .signal c q => some (0x19, c, q)
  | .fence c q => some (0x1A, c, q)
  | .loop c q => some (0x1B, c, q)
  | .lock c q => some (0x1C, c, q)
  | .unlock c q => some (0x1D, c, q)
  | .mark c q => some (0x20, c, q)
  | .watch c q => some (0x21, c, q)
  | .scrub c q => some (0x22, c, q)
  | .flags c q => some (0x23, c, q)
  | .scale c q => some (0x24, c, q)
  | .endProg c q => some (0x3F, c, q)
  | _ => none

/-- The queue's next instruction is `w` of opcode `k`; it passes every check and nothing holds it, as a lock member sees memory. -/
structure Ready (s : State) (c : Ctx) (q : QSel) (k : Nat) (w : Inst) : Prop where
  next : nextInst s c q = some w
  opcode : iOpc w = k
  runs : canDispatch s c q = true
  turn : q = .main → dispatchable s c .prio = false
  free : preHold s c q w = false
  checks : checkInst (memberView s c q) c q w = none
  holds : lateHold s (memberView s c q) c q w = false

/-- The instruction of the same kind fails a check with this code and position. -/
structure Failing (s : State) (c : Ctx) (q : QSel) (k : Nat) (w : Inst) (code aux : Nat) : Prop where
  next : nextInst s c q = some w
  opcode : iOpc w = k
  runs : canDispatch s c q = true
  turn : q = .main → dispatchable s c .prio = false
  free : preHold s c q w = false
  checks : checkInst (memberView s c q) c q w = some (code, aux)

/-- Contexts other than `c`, staging, the tile banks and the protection set-up are as before. -/
structure OnlyCtx (c : Ctx) (s t : State) : Prop where
  others : ∀ d, d ≠ c → t.cx d = s.cx d
  staging : t.staging = s.staging
  banks : ∀ b, (t.by b).bank0.mem = (s.by b).bank0.mem ∧ (t.by b).bank1.mem = (s.by b).bank1.mem
  prot : t.prot = s.prot

/-- Semaphores, sticky flags, cullet counters, mask slots and the rough-out set are as before. -/
structure SameValues (x y : CtxState) : Prop where
  sem : y.sem = x.sem
  sticky : y.sticky = x.sticky
  cullet : y.cullet = x.cullet
  masks : y.masks = x.masks
  rough : y.rough = x.rough

/-- An operation of an instruction: identity, opcode, word, and the descriptors and MARK fields copied at dispatch; a lock member copies
its descriptors from memory as it sees it (R162). -/
structure OpOf (s : State) (c : Ctx) (q : QSel) (w : Inst) (o : Op) : Prop where
  ctx : o.ctx = c
  queue : o.q = q
  seq : o.seq = (s.cx c).seq
  word : o.word = w
  opc : o.opc = iOpc w
  layer : o.layer = (s.qu c q).layer.toNat
  oper : o.oper = (s.qu c q).oper.toNat
  da : (useOfInst w).da = true → o.da = descAt (memberView s c q) c (iDA w)
  db : (useOfInst w).db = true → o.db = descAt (memberView s c q) c (iDB w)
  dO : (useOfInst w).dO = true → o.dO = descAt (memberView s c q) c (iDO w)
  dx : (useOfInst w).dx = true → o.dx = descAt (memberView s c q) c (iDX w)

/-- The rows whose operation waits for a unit after its dispatch. -/
def waitsForUnit : Instr → Bool
  | .raise _ _ | .pass _ _ | .seed _ _ | .drain _ _ | .fold _ _ | .rough _ _ | .blend _ _ | .reduce _ _ | .topk _ _
  | .norm _ _ | .mask _ _ | .csr _ _ | .copy _ _ | .scale _ _ | .scrub _ _ => true
  | _ => false

/-- The bay whose entry or port a command names; a build of fewer bays has no such entry and no such port (R23, R24). -/
def bayNamed : Instr → Option Bay
  | .bayGrant b _ | .rdata b _ _ _ | .aack b _ _ | .fack b _ _ | .portTmoExpiry b _ _ => some b
  | _ => none

end Sys2Proof.Claims

open Sys2Proof Sys2Proof.Machine Sys2Proof.Claims

/-! ### The queue of commands -/

/-- One step runs the command at the front of the queue on the state with the queue's rest; with an empty queue one fc passes and the
queue stays empty (the latter is the model's choice, log entry 2). A command that names
no bay, or a bay that the build has, is answered with a next state; one that names a bay the build does not have is no command of
that build, and stops (log entry 1). -/
def Obligations.StepRunsFront : Prop :=
  (∀ (i : Instr) (s : State) (rest : List Instr), s.pending = i :: rest → step s = exec i { s with pending := rest }) ∧
  (∀ s : State, s.pending = [] → ∃ t, step s = .next t ∧ t.clk = s.clk + (if s.g.opCur then 25 else 16) ∧ t.pending = [] ∧
    t.ctx = s.ctx ∧ t.ops = s.ops ∧ t.staging = s.staging ∧ t.prot = s.prot ∧ t.g = s.g) ∧
  (∀ (i : Instr) (s : State), (∀ b, bayNamed i = some b → s.present b = true) → ∃ t, exec i s = .next t) ∧
  (∀ (i : Instr) (s : State) (b : Bay), bayNamed i = some b → s.present b = false → exec i s = .fault (.absentBay b))

/-! ### Dispatch -/

/-- An instruction of class T, D, S or K enters the block: its operation waits with the marks and descriptor copies taken
at dispatch, and nothing else of the memories, of the other contexts or of the context's values changes.
Completes: RAISE, PASS, SEED, DRAIN, FOLD, ROUGH, BLEND, REDUCE, TOPK, NORM, MASK, CSR, COPY, SCALE, SCRUB. -/
def Obligations.UnitInstructionStarts : Prop :=
  ∀ (i : Instr) (k : Nat) (c : Ctx) (q : QSel) (s : State) (w : Inst), waitsForUnit i = true → instRow i = some (k, c, q) →
    Ready s c q k w →
    ∃ t o, exec i s = .next t ∧ o ∈ t.ops ∧ OpOf s c q w o ∧ o.stage = .waiting ∧ (t.cx c).seq = (s.cx c).seq + 1 ∧
      OnlyCtx c s t ∧ SameValues (s.cx c) (t.cx c)

/-- An instruction that fails a check takes no SEQ and starts nothing; both queues of its context enter FAULTED, its
completion record carries the code, and the context's fault record names the queue, its head and the position of the fault (R151, R187,
R231). -/
def Obligations.CheckFaultStops : Prop :=
  ∀ (i : Instr) (k : Nat) (c : Ctx) (q : QSel) (s : State) (w : Inst) (code aux : Nat), instRow i = some (k, c, q) →
    Failing s c q k w code aux →
    ∃ t, exec i s = .next t ∧ (t.cx c).seq = (s.cx c).seq ∧ (t.cx c).mode = .faulted ∧ (t.qu c q).head = (s.qu c q).head ∧
      OnlyCtx c s t ∧ (∀ o ∈ t.ops, o ∈ s.ops) ∧
      FaultNoted s t c code 2 q (s.qu c q).head.toNat
        (match (s.qu c q).loop with | some l => l.run * 65536 + l.pos | none => aux) ∧
      ∃ r ∈ (t.cx c).recs, r.status = code ∧ r.opc = k ∧ r.bays = 0 ∧ r.info = (s.qu c q).head.toNat ∧ r.q = q

/-! ### Control instructions -/

namespace Sys2Proof.Claims

/-- An instruction that completes at its dispatch: one SEQ, no new operation, and a record with this INFO when it carries CMP. -/
structure CompletesNow (s : State) (c : Ctx) (w : Inst) (info : Nat) (t : State) : Prop where
  seq : (t.cx c).seq = (s.cx c).seq + 1
  ops : ∀ o ∈ t.ops, o ∈ s.ops
  record : iCmp w = true → ∃ r ∈ (t.cx c).recs, r.opc = iOpc w ∧ r.status = 0 ∧ r.info = info ∧ r.bays = 0

/-- The address of the 4 or 16 bytes an instruction stores at its byte view, when it is in staging. -/
def stagingStore (n : Nat) (d : Desc) : Option Nat := if (byteRange n d).win then none else some (byteRange n d).lo

end Sys2Proof.Claims

/-- A WAIT whose condition is met completes with the semaphore's value in INFO. While the difference of semaphore and value, read as a
signed number, is negative, it holds its queue in WAITING and takes no SEQ; WAIT_RELEASE dispatches it once the condition is met (R160).
Completes: WAIT, WAIT_RELEASE. -/
def Obligations.WaitFollowsItsSemaphore : Prop :=
  (∀ (c : Ctx) (q : QSel) (s : State) (w : Inst), Ready s c q 0x18 w →
      ∃ t, exec (.wait c q) s = .next t ∧ CompletesNow s c w ((s.cx c).sem.get (semOf w)).toNat t ∧
        OnlyCtx c s t ∧ SameValues (s.cx c) (t.cx c)) ∧
  (∀ (c : Ctx) (q : QSel) (s : State) (w : Inst), nextInst s c q = some w → iOpc w = 0x18 → canDispatch s c q = true →
      (q = .main → dispatchable s c .prio = false) → preHold s c q w = false → checkInst (memberView s c q) c q w = none →
      ((s.cx c).sem.get (semOf w) - BitVec.ofNat 32 (iImm48 w)).toInt < 0 →
      ∃ t, exec (.wait c q) s = .next t ∧ (t.qu c q).waiting = true ∧ (t.cx c).seq = (s.cx c).seq ∧
        (t.qu c q).head = (s.qu c q).head ∧ t.ops = s.ops ∧ OnlyCtx c s t ∧ SameValues (s.cx c) (t.cx c)) ∧
  (∀ (c : Ctx) (q : QSel) (s : State) (w : Inst), waitOver s c q = true →
      Ready (s.modQueue c q fun x => { x with waiting := false }) c q 0x18 w →
      ∃ t, exec (.waitRelease c q) s = .next t ∧ (t.qu c q).waiting = false ∧
        CompletesNow s c w ((s.cx c).sem.get (semOf w)).toNat t ∧ OnlyCtx c s t ∧ SameValues (s.cx c) (t.cx c))

/-- SIGNAL outside a lock window adds its addend modulo 2^32 to its semaphore and to no other, and with IMM16[14] stores the
new value at the start of its byte view: in staging at once, every other byte of staging reading as before; in a window as a posted
write through a port of the context's bays, with a FLUSH behind it (R160, R203, R205).
Completes: SIGNAL. -/
def Obligations.SignalAdds : Prop :=
  ∀ (c : Ctx) (q : QSel) (s : State) (w : Inst) (d : Desc), Ready s c q 0x19 w → inWindow s c q = false → MemoriesOk s →
    d = descAt s c (iDX w) →
    ∃ t v, exec (.signal c q) s = .next t ∧ v = (s.cx c).sem.get (semOf w) + BitVec.ofNat 32 (iImm48 w) ∧
      (∀ i, (t.cx c).sem.get i = if i = semOf w then v else (s.cx c).sem.get i) ∧
      (t.cx c).seq = (s.cx c).seq + 1 ∧ (t.cx c).sticky = (s.cx c).sticky ∧ (t.cx c).masks = (s.cx c).masks ∧
      (∀ d, d ≠ c → t.cx d = s.cx d) ∧
      (∀ a, (iImm w).testBit 14 = true → stagingStore 4 d = some a → t.staging.readN a 4 = leBytes 4 v.toNat) ∧
      (∀ b, (∀ a, (iImm w).testBit 14 = true → stagingStore 4 d = some a → b < a ∨ a + 4 ≤ b) →
        t.staging.read b = s.staging.read b) ∧
      (∀ b, asks (t.by b).port = asks (s.by b).port ++
        if (iImm w).testBit 14 = true ∧ (byteRange 4 d).win = true then
          posts s c (.op c (s.cx c).seq) (s.portBays c) [byteRange 4 d] [(true, (byteRange 4 d).lo, leBytes 4 v.toNat)] b
        else [])

/-- LOOP keeps the head at itself and makes its queue dispatch its body again, from run 1 and position 0 (R184, R187); a queue
that runs a loop dispatches no LOOP (R186).
Completes: LOOP. -/
def Obligations.LoopStartsSecondRun : Prop :=
  ∀ (c : Ctx) (q : QSel) (s : State) (w : Inst), Ready s c q 0x1B w → (s.qu c q).loop = none →
    ∃ t l, exec (.loop c q) s = .next t ∧ (t.qu c q).loop = some l ∧ l.run = 1 ∧ l.pos = 0 ∧ l.inst = w ∧
      l.seq = (s.cx c).seq ∧ l.count = loopCount w ∧ l.step = loopStep w ∧ l.smask = loopSmask w ∧
      l.body = lastInsts (s.qu c q) (loopBody w) ∧ (t.qu c q).head = (s.qu c q).head ∧
      (t.cx c).seq = (s.cx c).seq + 1 ∧ t.ops = s.ops ∧ OnlyCtx c s t ∧ SameValues (s.cx c) (t.cx c)

/-- LOCK opens the window of its queue, with its members still to run and an empty buffer. UNLOCK starts the commit of its window, which
64 bytes of the store buffer lengthen by one fc, and stays in flight; when a requested halt would come first, the window breaks
instead and the head returns to the LOCK (R162, R163).
Completes: LOCK, UNLOCK.
The model's choices, by log entry: times, 2. -/
def Obligations.LockOpensAndUnlockCommits : Prop :=
  (∀ (c : Ctx) (q : QSel) (s : State) (w : Inst), Ready s c q 0x1C w →
      ∃ t l, exec (.lock c q) s = .next t ∧ (t.cx c).lockWin = some l ∧ l.q = q ∧ l.index = (s.qu c q).head ∧
        l.left = iImm w % 64 + 1 ∧ l.buf = [] ∧ l.commitEnd = none ∧
        CompletesNow s c w 0 t ∧ OnlyCtx c s t ∧ SameValues (s.cx c) (t.cx c)) ∧
  (∀ (c : Ctx) (q : QSel) (s : State) (w : Inst) (l : LockWin), Ready s c q 0x1D w → (s.cx c).lockWin = some l →
      inWindow s c q = false →
      ∃ t e, exec (.unlock c q) s = .next t ∧ e = s.clk + fcTime s ((l.share + 63) / 64) ∧
        (t.cx c).seq = (s.cx c).seq + 1 ∧ OnlyCtx c s t ∧ SameValues (s.cx c) (t.cx c) ∧
        (if haltReq s = true ∧ ∃ h, s.dbg.reqAt = some h ∧ h + 256 * fcLen s < e then
          (t.cx c).lockWin = none ∧ (t.qu c l.q).head = l.index
        else (t.cx c).lockWin = some { l with commitEnd := some e, unlock := some (s.cx c).seq } ∧
          ∃ o ∈ t.ops, o.ctx = c ∧ o.seq = (s.cx c).seq ∧ o.opc = 0x1D ∧ o.info = l.share))

namespace Sys2Proof.Claims

/-- What the commit of a lock window has done so far: semaphores, sticky flags, staging, and the requests of each bay's write port. -/
structure Commit where
  sem    : Vector Word 16
  sticky : Vector Flags 4
  mem    : Mem
  out    : Bay → List WrReq

/-- Some writes of a commit: staging bytes at once, window bytes as posted lines. -/
def Commit.put (s : State) (c : Ctx) (seq : BitVec 8) (spans : List Range) (ws : List Wr) (v : Commit) : Commit :=
  { v with
    mem := (ws.filter fun x => !x.1).foldl (fun m x => m.writeN x.2.1 x.2.2) v.mem
    out := fun b => v.out b ++ posts s c (.op c seq) (s.portBays c) spans ws b }

/-- One item of the store buffer takes effect (R162, R318). -/
def Commit.item (s : State) (c : Ctx) (seq : BitVec 8) (v : Commit) : BufItem → Commit
  | .bytes w keep _ spans =>
    v.put s c seq (winRanges spans) ((keepBits v.mem.read keep w).map fun x => (x.1, x.2.1, [x.2.2]))
  | .sem i add post =>
    let x := v.sem.get i + add
    let v := { v with sem := v.sem.set i.1 x i.2 }
    match post with
    | some (win, a) => v.put s c seq [⟨win, a, 4⟩] [(win, a, leBytes 4 x.toNat)]
    | none => v
  | .atoms w _ spans => { v with out := fun b => v.out b ++ adds s c seq (s.portBays c) (winRanges spans) w b }
  | .clear sel => { v with sticky := v.sticky.map (·.clear sel) }

/-- The whole commit of a window, in member order. -/
def commitOf (s : State) (c : Ctx) (seq : BitVec 8) (l : LockWin) : Commit :=
  l.buf.foldl (Commit.item s c seq) ⟨(s.cx c).sem, (s.cx c).sticky, s.staging, fun _ => []⟩

end Sys2Proof.Claims

/-- The end of a commit, one fc for every 64 bytes of the store buffer after its begin, closes the window and applies what it held back in
member order: buffered bytes, semaphore adds with their posted words, the adds of ATOMADDs and the clears of FLAGS; no other context
changes (R162). A window still open without a commit 256 fc after a halt was requested breaks: its buffer is
discarded, nothing it held back takes effect, the head returns to the LOCK, and the context's fault record says LOCK_BROKEN (R163, R231).
An ATOMADD of another context that waited for the commit goes on with it, so the words on ports and other contexts are for a commit that
no ATOMADD waits for.
Completes: LOCK_COMMIT_END, LOCK_BROKEN.
The model's choices, by log entry: times, 2 and 20. -/
def Obligations.LockWindowEnds : Prop :=
  (∀ (c : Ctx) (s : State) (l : LockWin) (e : Nat) (u : BitVec 8) (o : Op), (s.cx c).lockWin = some l → l.commitEnd = some e →
      l.unlock = some u → s.op? c u = some o → s.fastOn = true → s.damp.hardNow = false → scrubHolds s (bufRanges l) = false →
      portless s c (lockSpans l) = false →
      ∃ t, exec (.lockCommitEnd c) s = .next t ∧ (t.cx c).lockWin = none ∧ t.clk = max s.clk (phaseEnd s o ((l.share + 63) / 64)) ∧
        (∀ i, (t.cx c).sem.get i = (s.cx c).sem.get i + bufferedAdds s c i) ∧
        (t.cx c).sem = (commitOf s c u l).sem ∧ (t.cx c).sticky = (commitOf s c u l).sticky ∧ t.staging = (commitOf s c u l).mem ∧
        (t.cx c).masks = (s.cx c).masks ∧ t.prot = s.prot ∧
        ((∀ p ∈ s.ops, p.opc = 0x13 → p.stage ≠ .granted) →
          (∀ d, d ≠ c → t.cx d = s.cx d) ∧ ∀ b, asks (t.by b).port = asks (s.by b).port ++ (commitOf s c u l).out b)) ∧
  (∀ (c : Ctx) (s : State) (l : LockWin) (h : Nat), (s.cx c).lockWin = some l → l.commitEnd = none → haltReq s = true →
      s.dbg.reqAt = some h →
      ∃ t, exec (.lockBroken c) s = .next t ∧ (t.cx c).lockWin = none ∧ (t.qu c l.q).head = l.index ∧
        t.clk = max s.clk (h + 256 * fcLen s) ∧ (t.cx c).seq = (s.cx c).seq ∧ (t.cx c).mode = (s.cx c).mode ∧
        OnlyCtx c s t ∧ SameValues (s.cx c) (t.cx c) ∧ (∀ o ∈ t.ops, o ∈ s.ops ∧ ¬(o.ctx = c ∧ o.member = true)) ∧
        FaultNoted s t c 0x14 1 l.q l.index.toNat 0)

/-- GATHER leaves the geometry record at DX, with its input tensor and format, pending in its queue, and completes (R174). MARK sets the
LAYER and OPER of its queue from IMM48[23:0] and IMM16, as a lock member too (R188). FENCE completes when its hold has ended and
changes nothing but its queue (R159).
Completes: GATHER, FENCE, MARK. -/
def Obligations.GatherMarkAndFenceComplete : Prop :=
  (∀ (c : Ctx) (q : QSel) (s : State) (w : Inst), Ready s c q 0x02 w →
      ∃ t, exec (.gather c q) s = .next t ∧
        (t.qu c q).geo = some { decodeGeo (descBytes s c (iDX w)) with
          input := descAt (memberView s c q) c (iDA w), fa := iFA w } ∧
        CompletesNow s c w 0 t ∧ OnlyCtx c s t ∧ SameValues (s.cx c) (t.cx c)) ∧
  (∀ (c : Ctx) (q : QSel) (s : State) (w : Inst), Ready s c q 0x20 w →
      ∃ t, exec (.mark c q) s = .next t ∧ (t.qu c q).layer = BitVec.ofNat 24 (iImm48 w) ∧ (t.qu c q).oper = BitVec.ofNat 16 (iImm w) ∧
        CompletesNow s c w 0 t ∧ OnlyCtx c s t ∧ SameValues (s.cx c) (t.cx c)) ∧
  (∀ (c : Ctx) (q : QSel) (s : State) (w : Inst), Ready s c q 0x1A w →
      ∃ t, exec (.fence c q) s = .next t ∧ CompletesNow s c w 0 t ∧ OnlyCtx c s t ∧ SameValues (s.cx c) (t.cx c))

/-- WATCH: with MODE[2] its operation waits for the SVU; otherwise it is armed for the next RAISE (MODE[0]) or DRAIN (MODE[1])
of its queue beside those armed before, and holds no unit (R189).
Completes: WATCH.
The model's choices, by log entry: an armed digest, 28. -/
def Obligations.WatchArmsOrWaits : Prop :=
  ∀ (c : Ctx) (q : QSel) (s : State) (w : Inst), Ready s c q 0x21 w →
    ∃ t o, exec (.watch c q) s = .next t ∧ o ∈ t.ops ∧ OpOf s c q w o ∧
      o.stage = (if (iMode w).testBit 2 then .waiting else .armed) ∧
      (t.qu c q).watchR = (s.qu c q).watchR ++
        (if (iMode w).testBit 2 = false ∧ (iMode w).testBit 0 = true then [(s.cx c).seq] else []) ∧
      (t.qu c q).watchD = (s.qu c q).watchD ++
        (if (iMode w).testBit 2 = false ∧ (iMode w).testBit 1 = true then [(s.cx c).seq] else []) ∧
      (t.cx c).seq = (s.cx c).seq + 1 ∧ OnlyCtx c s t ∧ SameValues (s.cx c) (t.cx c)

/-- FLAGS outside a lock window clears the selected sticky flags in every bay and no others, with their union before in INFO;
with MODE[0] it stores 16 bytes, byte 4b the flags of bay b before: in staging at once, every other byte of staging reading as before; in
a window as posted writes that it waits to have flushed (R190, R205).
Completes: FLAGS. -/
def Obligations.FlagsClear : Prop :=
  ∀ (c : Ctx) (q : QSel) (s : State) (w : Inst) (r : Range), Ready s c q 0x23 w → inWindow s c q = false → MemoriesOk s →
    r = byteRange 16 (descAt s c (iDO w)) →
    ∃ t, exec (.flags c q) s = .next t ∧
      (∀ b, (t.cx c).sticky.get b =
        { ovf := ((s.cx c).sticky.get b).ovf && !(iImm w).testBit 0, unf := ((s.cx c).sticky.get b).unf && !(iImm w).testBit 1,
          inx := ((s.cx c).sticky.get b).inx && !(iImm w).testBit 2, inv := ((s.cx c).sticky.get b).inv && !(iImm w).testBit 3 }) ∧
      (t.cx c).sem = (s.cx c).sem ∧ (t.cx c).masks = (s.cx c).masks ∧ (t.cx c).seq = (s.cx c).seq + 1 ∧
      (∀ d, d ≠ c → t.cx d = s.cx d) ∧
      (∀ a, (iMode w).testBit 0 = true → stagingStore 16 (descAt s c (iDO w)) = some a →
        ∀ b : Bay, t.staging.readN (a + 4 * b.val) 4 = [BitVec.ofNat 8 ((s.cx c).sticky.get b).toNat, 0, 0, 0]) ∧
      (∀ b, (∀ a, (iMode w).testBit 0 = true → stagingStore 16 (descAt s c (iDO w)) = some a → b < a ∨ a + 16 ≤ b) →
        t.staging.read b = s.staging.read b) ∧
      if (iMode w).testBit 0 = true ∧ r.win = true then
        (∃ p ∈ t.ops, p.ctx = c ∧ p.seq = (s.cx c).seq ∧ p.stage = .flushing ∧ p.info = (Flags.union (s.cx c).sticky.toList).toNat) ∧
          ∀ b, asks (t.by b).port = asks (s.by b).port ++
            posts s c (.op c (s.cx c).seq) (s.portBays c) [r] [(true, r.lo, flagsRecord (s.cx c))] b
      else CompletesNow s c w (Flags.union (s.cx c).sticky.toList).toNat t ∧ ∀ b, asks (t.by b).port = asks (s.by b).port

/-- END discards a pending geometry and armed digests, sets LAYER and OPER to 0, and completes with INFO the number of
instructions since the previous END (R193).
Completes: END. -/
def Obligations.EndClearsQueue : Prop :=
  ∀ (c : Ctx) (q : QSel) (s : State) (w : Inst), Ready s c q 0x3F w →
    ∃ t, exec (.endProg c q) s = .next t ∧ (t.qu c q).geo = none ∧ (t.qu c q).watchR = [] ∧ (t.qu c q).watchD = [] ∧
      (t.qu c q).layer = 0 ∧ (t.qu c q).oper = 0 ∧ (t.qu c q).since = 0 ∧ CompletesNow s c w (s.qu c q).since.toNat t ∧
      (∀ o ∈ t.ops, ¬(o.ctx = c ∧ o.q = q ∧ o.stage = .armed)) ∧ OnlyCtx c s t ∧ SameValues (s.cx c) (t.cx c)

/-! ### Messages, ROOT and the units -/

namespace Sys2Proof.Claims

/-- The unit an SVU or top-k grant fills. -/
def unitOf (u : UnitSel) (s : State) : Option (Ctx × BitVec 8) :=
  match u with
  | .svu => s.svu
  | .topk => s.topk

/-- What every command but the resets and the writes of boot code leaves alone. -/
structure SameSetup (s t : State) : Prop where
  prot : t.prot = s.prot
  build : t.build = s.build
  pending : t.pending = s.pending

/-- An operation that ends with this STATUS: it is gone, its record waits, and a fatal STATUS stops its context's queues. -/
structure EndsWith (s : State) (o : Op) (status : Nat) (t : State) : Prop where
  gone : ∀ p ∈ t.ops, ¬(p.ctx = o.ctx ∧ p.seq = o.seq)
  record : o.cmp = true ∨ status ≠ 0 → ∃ r ∈ (t.cx o.ctx).recs, r.opc = o.opc ∧ r.status = status
  stops : status ≠ 0 → status ≠ 0x15 → (s.cx o.ctx).mode = .active → (t.cx o.ctx).mode = .faulted

end Sys2Proof.Claims

/-- SEND and RECV enter the block with their tag and the destination of their peer entry, SEND with its byte count; before an enumeration
has given the block an address their operation waits for admission (R254).
Completes: SEND, RECV. -/
def Obligations.MessageInstructionWaits : Prop :=
  ∀ (send : Bool) (c : Ctx) (q : QSel) (s : State) (w : Inst), Ready s c q (if send then 0x11 else 0x12) w → s.g.ringValid = false →
    ∃ t o, exec (if send then .send c q else .recv c q) s = .next t ∧ o ∈ t.ops ∧ OpOf s c q w o ∧ o.stage = .waiting ∧
      o.x = .waitAdmit ∧ o.hdr.tag = BitVec.ofNat 32 (iImm48 w) ∧ o.dest = (peerEntry s (iImm w)).dest ∧
      (send = true → o.hdr.count = viewLen (fmtOf (iFA w)) o.da) ∧ t.xch = s.xch ∧
      (t.cx c).seq = (s.cx c).seq + 1 ∧ OnlyCtx c s t ∧ SameValues (s.cx c) (t.cx c)

/-- The exchange port admits the oldest waiting SEND, and the ring shell offers its header with the next sequence number for that peer
entry; it admits the oldest waiting RECV, which waits for a header when none is kept (R208, R210, R211, R319).
Completes: EXCHANGE_ADMIT.
The model's choices, by log entry: ring output, 17. -/
def Obligations.ExchangeAdmission : Prop :=
  (∀ s : State, blockOpen s = true → s.g.ringValid = true → sourceHolds s 6 = false → exchangeLoad s true < 16 →
      (∃ o ∈ s.ops, admissible true s o = true) →
      ∃ t o h, exec (.exchangeAdmit true) s = .next t ∧ o ∈ s.ops ∧ admissible true s o = true ∧
        (∀ p ∈ s.ops, admissible true s p = true → o.tArr ≤ p.tArr) ∧
        t.xch.out = s.xch.out ++ [.header o.dest h] ∧ h.src = s.g.ringAddr.zeroExtend 32 ∧ h.tag = o.hdr.tag ∧ h.count = o.hdr.count ∧
        h.seqno = ((s.xch.seqnos.find? fun x => x.1 == o.peer).map (·.2)).getD 0 ∧
        (∃ p ∈ t.ops, p.ctx = o.ctx ∧ p.seq = o.seq ∧ p.stage = .granted ∧ p.x = .offered ∧ p.hdr = h) ∧
        t.ctx = s.ctx ∧ t.staging = s.staging ∧ SameSetup s t) ∧
  (∀ s : State, blockOpen s = true → s.g.ringValid = true → sourceHolds s 6 = false → exchangeLoad s false < 16 → s.xch.headers = [] →
      (∃ o ∈ s.ops, admissible false s o = true) →
      ∃ t o, exec (.exchangeAdmit false) s = .next t ∧ o ∈ s.ops ∧ admissible false s o = true ∧
        (∀ p ∈ s.ops, admissible false s p = true → o.tArr ≤ p.tArr) ∧
        (∃ p ∈ t.ops, p.ctx = o.ctx ∧ p.seq = o.seq ∧ p.stage = .granted ∧ p.x = .recvWait) ∧
        t.ctx = s.ctx ∧ t.staging = s.staging ∧ t.xch = s.xch ∧ SameSetup s t)

namespace Sys2Proof.Claims

/-- The block once a header that was refused is offered again: it is refused no longer. -/
def offeredAgain (h : MsgHeader) (s : State) : State :=
  { s with xch := { s.xch with refused := s.xch.refused.filter (· != h) } }

end Sys2Proof.Claims

/-- A header meets the RECV that waits for it: clear-to-send when the view holds the message, else a refusal that names the
small view, and the RECV ends with SHAPE_LIMIT; unmatched, or behind an earlier message of its source, destination and tag that was
refused and not offered again, it is kept while fewer than 64 wait, else refused (R182, R211, R212); a shell
in BYPASS passes it on as it came (R214). The kept headers are those that no waiting RECV can take.
Completes: MESSAGE_HEADER_RECEIVE.
The model's choices, by log entry: ring output, 17; what a refused header keeps, 38. -/
def Obligations.HeaderMatchesKeepsOrRefuses : Prop :=
  (∀ (h : MsgHeader) (s : State), s.xch.joined = false → h.count < 2 ^ 32 → h.seqno < 2 ^ 32 →
    exec (.messageHeaderReceive h) s = .next { s with xch := { s.xch with out := s.xch.out ++ [.passed (.header h)] } }) ∧
  ∀ (h : MsgHeader) (s u : State), s.xch.joined = true → h.count < 2 ^ 32 → h.seqno < 2 ^ 32 → u = offeredAgain h s →
    (∀ g ∈ s.xch.headers, taken u g = false) →
    ∃ t, exec (.messageHeaderReceive h) s = .next t ∧ SameSetup s t ∧ t.staging = s.staging ∧
      (∀ o, overtakes u h = false → s.ops.find? (matchesHeader s h) = some o →
        if viewLen (fmtOf (iFO o.word)) o.dO < h.count then
          t.xch.out = s.xch.out ++ [.refuse h .viewSmall] ∧
            ((s.cx o.ctx).rstBusy = false → o.status = 0 → o.wrs = 0 → o.acks = 0 → EndsWith s o 0x06 t)
        else t.xch.out = s.xch.out ++ [.clearToSend h] ∧ ∃ p ∈ t.ops, p.ctx = o.ctx ∧ p.seq = o.seq ∧ p.x = .recvFlow h) ∧
      (overtakes u h = true ∨ s.ops.find? (matchesHeader s h) = none →
        t.ops = s.ops ∧
        t.xch = if s.xch.headers.length < 64 then { u.xch with headers := s.xch.headers ++ [h] }
          else { u.xch with out := s.xch.out ++ [.refuse h .tableFull], refused := u.xch.refused ++ [h] })

/-- The life of a SEND: refused for a full table, its header is offered again after 1,250 fc; refused for a small view, it
ends with SHAPE_LIMIT; cleared to send, its bytes flow, at 1,600 per fc at most (R208, R211, R212). A shell in BYPASS passes the refusal
and the clear-to-send on (R214).
Completes: HEADER_RETRY, CLEAR_TO_SEND, MESSAGE_REFUSED.
The model's choices, by log entry: times, 2; ring output, 17; the direction shared, 38. -/
def Obligations.SendIsRefusedRetriedOrFlows : Prop :=
  (∀ (c : Ctx) (q : BitVec 8) (s : State), s.xch.joined = false →
    (∀ r, exec (.messageRefused c q r) s = .next { s with xch := { s.xch with out := s.xch.out ++ [.passed (.refused c q r)] } }) ∧
    exec (.clearToSend c q) s = .next { s with xch := { s.xch with out := s.xch.out ++ [.passed (.clearToSend c q)] } }) ∧
  ∀ (c : Ctx) (q : BitVec 8) (s : State) (o : Op), s.xch.joined = true → s.op? c q = some o → o.opc = 0x11 → (s.cx c).rstBusy = false →
    (o.x = .offered → ∃ t, exec (.messageRefused c q .tableFull) s = .next t ∧
      (∃ p ∈ t.ops, p.ctx = c ∧ p.seq = q ∧ p.x = .refused (s.clk + fcTime s 1250)) ∧ t.xch = s.xch ∧ t.ctx = s.ctx) ∧
    (o.x = .offered → o.status = 0 → o.wrs = 0 → o.acks = 0 → ∃ t, exec (.messageRefused c q .viewSmall) s = .next t ∧ EndsWith s o 0x06 t) ∧
    (∀ due, o.x = .refused due → portRuns s = true → ∃ t, exec (.headerRetry c q) s = .next t ∧ t.clk = max s.clk due ∧
      t.xch.out = s.xch.out ++ [.header o.dest o.hdr] ∧ ∃ p ∈ t.ops, p.ctx = c ∧ p.seq = q ∧ p.x = .offered) ∧
    (o.x = .offered → ∃ t, exec (.clearToSend c q) s = .next t ∧
      ∃ p ∈ t.ops, p.ctx = c ∧ p.seq = q ∧ p.x = .flowing ∧ p.left = o.hdr.count ∧ p.tFirst = s.clk ∧ p.ran = 0 ∧ p.tProg = s.clk ∧
        p.tDue = s.clk + fcTime s ((o.hdr.count + 1599) / 1600))

/-- SEND completes when its last byte is on the ring: the message carries the bytes of its view, and INFO counts them (R182).
Completes: SEND_COMPLETE.
The model's choices, by log entry: times, 2; ring output, 17; the direction shared, 38. -/
def Obligations.SendCompletes : Prop :=
  ∀ (c : Ctx) (q : BitVec 8) (s : State) (o : Op), s.op? c q = some o → o.opc = 0x11 → o.x = .flowing → opReady s o = true →
    dataAsked o = true → o.status = 0 → (s.cx c).rstBusy = false → poisonedIn s (viewRanges (fmtOf (iFA o.word)) o.da) = none →
    ∃ t, exec (.sendComplete c q) s = .next t ∧ t.clk = max s.clk (sendDue s o) ∧
      t.xch.out = s.xch.out ++ [.data o.dest o.hdr (messageBytes s o)] ∧ EndsWith s o 0 t ∧
      (o.cmp = true → ∃ r ∈ (t.cx c).recs, r.opc = 0x11 ∧ r.info = o.hdr.count) ∧ t.staging = s.staging ∧ SameSetup s t

/-- RECV completes when its message is written, and INFO counts its bytes: into staging in view order, elements of 8 bits row by row, every
byte outside the message as before; into a window as posted writes that it waits to have flushed (R182, R205, R208, R212).
Completes: RECV_COMPLETE.
The model's choices, by log entry: times, 2 and 20; the direction shared, 38. -/
def Obligations.RecvWritesMessage : Prop :=
  ∀ (c : Ctx) (q : BitVec 8) (s : State) (o : Op) (h : MsgHeader) (data : List Byte) (f : Fmt) (ws : List Wr), s.xch.joined = true →
    s.op? c q = some o → o.opc = 0x12 → o.x = .recvFlow h → opReady s o = true → stranded s o = false → o.wrs = 0 → o.status = 0 →
    (s.cx c).rstBusy = false → data.length = h.count → f = fmtOf (iFO o.word) → ws = messageWrites (opRead s o) f o.dO data → MemoriesOk s →
    ∃ t, exec (.recvComplete c q data) s = .next t ∧ t.clk = max s.clk (recvDue s o h.count) ∧ SameSetup s t ∧
      (o.dO.loc = false → t.staging = (writeStaging (ws.map (·.2)) s).staging) ∧
      (o.dO.loc = false → f.width = 8 → h.count ≤ o.dO.vrows * o.dO.vcols → o.dO.vcols ≤ o.dO.rstride →
        (∀ i j, j < o.dO.vcols → i * o.dO.vcols + j < h.count →
          data[i * o.dO.vcols + j]? = some (t.staging.read (o.dO.base + (o.dO.vrow0 + i) * o.dO.rstride + o.dO.vcol0 + j))) ∧
        ∀ a, (∀ i j, j < o.dO.vcols → i * o.dO.vcols + j < h.count → a ≠ o.dO.base + (o.dO.vrow0 + i) * o.dO.rstride + o.dO.vcol0 + j) →
          t.staging.read a = s.staging.read a) ∧
      (o.dO.loc = true → t.staging = s.staging ∧
        ∀ b, asks (t.by b).port = asks (s.by b).port ++ posts s c (.op c q) (s.portBays c) (outRanges o) ws b) ∧
      if o.dO.loc = true ∧ wrLines ws ≠ [] then
        ∃ p ∈ t.ops, p.ctx = c ∧ p.seq = q ∧ p.stage = .flushing ∧ 0 < p.wrs ∧ p.status = 0 ∧ p.info = h.count
      else EndsWith s o 0 t ∧ (o.cmp = true → ∃ r ∈ (t.cx c).recs, r.opc = 0x12 ∧ r.status = 0 ∧ r.info = h.count)

/-- EXCHANGE_TIMEOUT: a message that makes no progress for XCH_TMO ends its operation with EXCHANGE_TIMEOUT, is logged under 0x13 with its
peer, and is announced to NOTIFY_ADDR when that is enabled; a RECV into a window that has bytes to flush ends when they are flushed; any
other ending is in the context's fault record. PEER_DOWN: a notice is
logged under 0x3A, and a shell in BYPASS passes it on (R205, R213, R214, R231, R254, R275, R276).
Completes: EXCHANGE_TIMEOUT, PEER_DOWN.
The model's choices, by log entry: times, 2; ring output, 17; what progress is, 38. -/
def Obligations.ExchangeTimeoutEndsAndNotifies : Prop :=
  (∀ (c : Ctx) (q : BitVec 8) (s : State) (o : Op) (data : List Byte) (fc : Nat), s.op? c q = some o → canTimeOut s o data.length = true →
    o.wrs = 0 → (s.cx c).rstBusy = false →
    ∃ t, exec (.exchangeTimeout c q ⟨data, fc⟩) s = .next t ∧
      t.clk = max s.clk (exchangeDue s o data.length fc) ∧ Logged s t 0x13 6 (o.dest.toNat % 2 ^ 31) ∧
      t.xch.out = s.xch.out ++ (if s.g.notifyEn then [.peerDown s.g.notify o.dest] else []) ∧
      (EndsWith s o 0x13 t ∨ o.dO.loc = true ∧ ∃ p ∈ t.ops, p.ctx = c ∧ p.seq = q ∧ p.stage = .flushing ∧ p.status = 0x13 ∧ 0 < p.wrs) ∧
      ((∀ h, o.x ≠ .recvFlow h) → EndsWith s o 0x13 t ∧ t.staging = s.staging ∧ FaultNoted s t c 0x13 2 o.q o.qidx o.aux)) ∧
  (∀ (s : State) (o : Op), o.x = .offered → exchangeDue s o 0 0 = o.tGrant + s.g.xchTmo.toNat * 20000) ∧
  (∀ (a : BitVec 31) (s : State), s.xch.joined = true →
    ∃ t, exec (.peerDown a) s = .next t ∧ t = report 0x3A 0 0xF 6 a.toNat s ∧ t.ops = s.ops ∧ t.ctx = s.ctx ∧ t.xch = s.xch) ∧
  (∀ (a : BitVec 31) (s : State), s.xch.joined = false →
    exec (.peerDown a) s = .next { s with xch := { s.xch with out := s.xch.out ++ [.passed (.peerDown a)] } })

/-- ROOT enters the block; a free lehr takes it at once when no other ROOT waits, otherwise it waits, and the lehr takes next the ROOT
that has waited longest (R19).
Completes: ROOT, ROOT_ACCEPT. -/
def Obligations.RootEntersTheLehr : Prop :=
  (∀ (c : Ctx) (q : QSel) (s : State) (w : Inst), Ready s c q 0x0B w →
      ∃ t o, exec (.root c q) s = .next t ∧ o ∈ t.ops ∧ OpOf s c q w o ∧ (t.cx c).seq = (s.cx c).seq + 1 ∧
        OnlyCtx c s t ∧ SameValues (s.cx c) (t.cx c) ∧
        (lehrOpen (takeHead c q w s) = true → (∀ p ∈ (takeHead c q w s).ops, ¬(p.opc = 0x0B ∧ p.stage = .waiting)) →
          o.stage = .granted ∧ ∃ j, t.lehr = some j ∧ j.ctx = c ∧ j.seq = (s.cx c).seq ∧ j.mat = 0 ∧
            j.restarts = 0 ∧ j.n = o.da.vrows ∧ j.eps = rootEps w) ∧
        ((lehrOpen (takeHead c q w s) = false ∨ ∃ p ∈ (takeHead c q w s).ops, p.opc = 0x0B ∧ p.stage = .waiting) →
          o.stage = .waiting ∧ t.lehr = s.lehr)) ∧
  (∀ s : State, lehrOpen s = true → (∃ o ∈ s.ops, o.opc = 0x0B ∧ o.stage = .waiting) →
      ∃ t o j, exec .rootAccept s = .next t ∧ o ∈ s.ops ∧ o.opc = 0x0B ∧ o.stage = .waiting ∧
        (∀ p ∈ s.ops, p.opc = 0x0B → p.stage = .waiting → o.tArr ≤ p.tArr) ∧
        t.lehr = some j ∧ j.ctx = o.ctx ∧ j.seq = o.seq ∧ j.mat = 0 ∧ t.ctx = s.ctx ∧ t.staging = s.staging ∧ SameSetup s t)

/-- A setup or an iteration begins with its first operation on the SVU, and the others follow it one by one, each through the arbiters.
When they are over, a setup either stops its matrix as diverged, with STATUS 3, or begins an attempt with X, M and r of R139. An iteration
computes T from M, X·T and the last of p products T·…·M in the stage the residual before it chooses, and counts itself; unless the control
stops or restarts, the job goes on from there (R139 to R141, R144). A value that a joint corrupted unnoticed stands in its product (R261).
Completes: LEHR_SETUP, LEHR_ITERATION.
The model's choices, by log entry: the job kept in State, 14; when operations are issued, 15. -/
def Obligations.LehrSetupAndIterations : Prop :=
  (∀ (s : State) (j : LehrJob) (o : Op), job? s = some (j, o) → j.next ≠ .finish → lehrMay s j o = true →
      ∃ t k, exec (if j.next = .setup then .lehrSetup else .lehrIteration) s = .next t ∧ t.lehr = some k ∧ SameSetup s t ∧
        k.begun = true ∧ k.next = j.next ∧ k.mat = j.mat ∧ k.x = j.x ∧ k.m = j.m ∧ k.r = j.r ∧ k.it = j.it ∧
        k.todo = (if j.next = .setup then [.svu (rootN j.n) [], .svu (rootS j.n) [], .svu (rootS j.n) [], .svu (rootN j.n) []]
          else (List.range (rootP o.word + 1)).flatMap fun i => [.product i, .drain i]) ∧
        t.staging = s.staging ∧ t.ctx = s.ctx ∧
        ∃ p ∈ t.ops, p.ctx = j.ctx ∧ p.seq = j.seq ∧ p.opc = 0x30B ∧ p.stage = .waiting ∧ p.fc = rootS j.n) ∧
  (∀ (s : State) (j : LehrJob) (o : Op), job? s = some (j, o) → j.next = .setup → lehrOver s j o = true →
      poisonedIn s (viewRanges .fp32 (batchView o.da j.mat)) = none →
      ∃ t k, exec .lehrSetup s = .next t ∧ t.lehr = some k ∧ SameSetup s t ∧ k.begun = false ∧
        match rootSetup (rootP o.word) j.n j.eps
          ((codesOf (opRead s o) .fp32 (batchView o.da j.mat)).flatten.map (decodeFmt .fp32)) with
        | .inl f => ∃ r, k.stats = j.stats ++ [r] ∧ r.status = 3 ∧ r.res = f ∧ k.mat = j.mat + 1
        | .inr (_, x, m, r) => k.x = x ∧ k.m = m ∧ k.r = r ∧ k.it = 0 ∧ k.next = .iterate ∧ k.mat = j.mat ∧ k.stats = j.stats) ∧
  (∀ (s : State) (j : LehrJob) (o : Op), job? s = some (j, o) → j.next = .iterate → lehrOver s j o = true →
      poisonedIn s [rootWork j.n o.db] = none →
      ∃ t k, exec .lehrIteration s = .next t ∧ t.lehr = some k ∧ SameSetup s t ∧ k.begun = false ∧
        (k.next = .iterate → k.it = j.it + 1 ∧ k.total = j.total + 1 ∧
          k.x = prodWith (j.patch (rootP o.word)) j.pick j.n j.x (rootT (rootP o.word) j.n j.m) ∧
          k.m = rootY (rootP o.word) j (rootP o.word) ∧
          ((∀ i, j.patch i = []) →
            k.x = prod j.pick j.n j.x (rootT (rootP o.word) j.n j.m) ∧
            k.m = (List.range (rootP o.word)).foldl (fun y _ => prod j.pick j.n (rootT (rootP o.word) j.n j.m) y) j.m)))

/-- At the end of a job the lehr is free and the ROOT completes with the number of matrices whose STATUS is not 0 (R143).
Completes: ROOT_COMPLETE. -/
def Obligations.RootCompletes : Prop :=
  ∀ (s : State) (j : LehrJob) (o : Op), job? s = some (j, o) → j.next = .finish → lehrIdle s o = true →
    o.status = 0 → o.wrs = 0 → (s.cx o.ctx).rstBusy = false →
    ∃ t, exec .rootComplete s = .next t ∧ t.lehr = none ∧ EndsWith s o 0 t ∧ t.staging = s.staging ∧ SameSetup s t ∧
      ∃ r ∈ (t.cx o.ctx).recs, r.opc = 0x0B ∧ r.status = 0 ∧ r.info = (j.stats.filter fun x => x.status != 0).length

/-- The SVU and the top-k selector serve the oldest arrival first; it holds the unit and is granted (R319).
Completes: UNIT_GRANT. -/
def Obligations.UnitServesOldest : Prop :=
  ∀ (u : UnitSel) (s : State), blockRuns s = true → haltReq s = false → unitOf u s = none →
    sourceHolds s (match u with | .svu => 4 | .topk => 7) = false → (∃ o ∈ s.ops, waitsFor u s o = true) →
    ∃ t o, exec (.unitGrant u) s = .next t ∧ o ∈ s.ops ∧ waitsFor u s o = true ∧
      (∀ p ∈ s.ops, waitsFor u s p = true → o.tArr ≤ p.tArr) ∧ unitOf u t = some (o.ctx, o.seq) ∧
      (∃ p ∈ t.ops, p.ctx = o.ctx ∧ p.seq = o.seq ∧ p.stage = .granted) ∧ t.ctx = s.ctx ∧ t.staging = s.staging ∧ SameSetup s t

namespace Sys2Proof.Claims

/-- The code of an element of a view in staging. -/
def codeIn (m : Mem) (f : Fmt) (d : Desc) (i j : Nat) : Nat := codeAt (fun _ a => m.read a) f d i j

/-- An operation that has nothing to answer and no fault so far. -/
structure Clear (s : State) (o : Op) : Prop where
  status : o.status = 0
  wrs : o.wrs = 0
  acks : o.acks = 0
  ctx : (s.cx o.ctx).rstBusy = false

/-- The precision in which BLEND computes (R134). -/
def blendPrec (f : Fmt) : Prec := if f = .fp64 then prec64 else prec32

end Sys2Proof.Claims

/-- SVU_OP_COMPLETE and TOPK_COMPLETE: an operation of the SVU or the top-k selector ends when it is due. With all its outputs in staging
its record carries STATUS 0 and staging holds what it stored, and no other change; outputs in windows go out as posted writes and it waits
for their flushes; as a
lock member it completes with its bytes held back; a fault of its data ends it with that code. A TOPK, which no data can fault, stores the
k entries of each row and their positions. In staging, BLEND stores β·L + γ·X, REDUCE the sum of its parts in order, and NORM its norm; MASK
binds its slot when every block keeps at most two of four, and empties it with MASK_NOT_TRANSPOSABLE otherwise; CSR counts what is not zero, and ends
with SHAPE_LIMIT when that is more than its tensor holds (R91, R98, R102, R134, R136, R158, R162, R168, R177 to R179, R203, R205).
Completes: SVU_OP_COMPLETE, TOPK_COMPLETE.
The model's choices, by log entry: times, 2 and 20; outputs at the end of an operation, 6. -/
def Obligations.UnitOperationCompletes : Prop :=
  (∀ (topk : Bool) (c : Ctx) (q : BitVec 8) (s u : State) (o : Op) (r : SvuOut), s.op? c q = some o →
    unitReady (if topk then .k else .s) s o = true → Clear s o → o.opc ≠ 0x22 → o.ofLehr = false → poisonedIn s (svuReads o) = none →
    u = at' (phaseEnd s o (svuTime s o (opPorts s o).length)) s → svuOut u o = r → MemoriesOk s →
    ∃ t, exec (if topk then .topkComplete c q else .svuOpComplete c q) s = .next t ∧ t.clk = u.clk ∧
      (∀ d, d ≠ c → t.cx d = s.cx d) ∧ (t.cx c).sem = (s.cx c).sem ∧ SameSetup s t ∧
      (∀ code aux, r.fault = some (code, aux) → code ≠ 0 → EndsWith s o code t) ∧
      (r.fault = none → o.member = false → (∀ w ∈ r.wrs, w.1 = false) → EndsWith s o 0 t ∧
        t.staging = (writeStaging (r.wrs.map (·.2)) s).staging ∧
        ∀ a, (∀ w ∈ r.wrs, a < w.2.1 ∨ w.2.1 + w.2.2.length ≤ a) → t.staging.read a = s.staging.read a) ∧
      (r.fault = none → o.member = false →
        ∀ b, asks (t.by b).port = asks (s.by b).port ++ posts s c (.op c q) (s.portBays c) (outRanges o) r.wrs b) ∧
      (r.fault = none → o.member = false → (∃ w ∈ r.wrs, w.1 = true ∧ w.2.2 ≠ []) → opPorts s o ≠ [] →
        ∃ p ∈ t.ops, p.ctx = c ∧ p.seq = q ∧ p.stage = .flushing ∧ 0 < p.wrs ∧ p.status = 0 ∧ p.info = r.info) ∧
      (∀ l, r.fault = none → o.member = true → (s.cx c).lockWin = some l → EndsWith s o 0 t ∧ t.staging = s.staging ∧
        ∃ m, (t.cx c).lockWin = some m ∧ m.buf = l.buf ++ [heldBytes o r.wrs] ∧ m.share = l.share + (wrBytes r.wrs).length ∧ m.left = l.left)) ∧
  (∀ (c : Ctx) (q : BitVec 8) (s : State) (o : Op), s.op? c q = some o → o.opc = 0x09 → opReady s o = true → Clear s o →
    o.member = false → o.dO.loc = false → o.dx.loc = false → poisonedIn s (svuReads o) = none →
    ∃ t, exec (.topkComplete c q) s = .next t ∧ EndsWith s o 0 t ∧ SameSetup s t ∧ (∀ d, d ≠ c → t.cx d = s.cx d) ∧
      t.clk = max s.clk (phaseEnd s o (svuTime s o (opPorts s o).length)) ∧
      t.staging = (writeStaging ((topkOut (opRead s o) o).wrs.map (·.2)) s).staging) ∧
  (∀ (c : Ctx) (q : BitVec 8) (s : State) (o : Op) (f : Fmt) (rd : Rd), s.op? c q = some o → unitReady .s s o = true → Clear s o →
    o.member = false → o.dO.loc = false → poisonedIn s (svuReads o) = none → MemoriesOk s → f = fmtOf (iFA o.word) → rd = opRead s o →
    ∃ t, exec (.svuOpComplete c q) s = .next t ∧
      (o.opc = 0x07 → f.width % 8 = 0 → o.da.vcols * (f.width / 8) ≤ o.dO.rstride → EndsWith s o 0 t ∧
        ∀ i j, i < o.da.vrows → j < o.da.vcols → codeIn t.staging f o.dO i j =
          encodeFmt f (ieeeFma (blendPrec f) (decodeFmt .fp32 (iImm48 o.word % 2 ^ 32)) (decodeFmt f (codeAt rd f o.da i j))
            (ieeeMul (blendPrec f) (decodeFmt .fp32 (iImm o.word * 65536 + iImm48 o.word / 2 ^ 32)) (decodeFmt f (codeAt rd f o.db i j))).1).1
            % 2 ^ f.width) ∧
      (o.opc = 0x08 → f.width % 8 = 0 → o.da.vcols * (f.width / 8) ≤ o.dO.rstride → EndsWith s o 0 t ∧
        ∀ i j, i < o.da.vrows → j < o.da.vcols → codeIn t.staging f o.dO i j =
          (reduceCodes f ((List.range (reduceParts o.word)).map fun n => codeAt rd f (batchView o.da n) i j)).1 % 2 ^ f.width) ∧
      (o.opc = 0x0A → EndsWith s o 0 t ∧ codeIn t.staging .fp64 o.dO 0 0 =
        encodeFmt .fp64 (normOf (iImm o.word != 2)
          (normVals (f == .fp32x2) (iImm o.word == 1) ((codesOf rd f o.da).map fun r => r.map (decodeFmt f))).1).1 % 2 ^ 64) ∧
      (o.opc = 0x0D →
        if ∀ g, g < o.da.vrows → ∀ x, x < o.da.vcols / 4 → blockOk (((((codesOf rd .int4 o.da)[g]?).getD []).drop (4 * x)).take 4) = true then
          EndsWith s o 0 t ∧ (t.cx c).masks.get ⟨iImm o.word % 8, Nat.mod_lt _ (by decide)⟩ = some ⟨o.dO, 4 * o.da.vrows, o.da.vcols⟩
        else EndsWith s o 0x07 t ∧ (t.cx c).masks.get ⟨iImm o.word % 8, Nat.mod_lt _ (by decide)⟩ = none) ∧
      (o.opc = 0x0E → ∀ n, n = ((codesOf rd f o.da).map fun r => r.countP fun x => !(decodeFmt f x).isZero).sum →
        (o.dO.nnz < n → EndsWith s o 0x06 t) ∧
        (n ≤ o.dO.nnz → o.dO.auxLoc = false → EndsWith s o 0 t ∧ (o.cmp = true → ∃ r ∈ (t.cx c).recs, r.opc = 0x0E ∧ r.info = n))))

/-- A COPY of an 8-bit format between views in staging moves every element unchanged (R180).
Completes: SVU_OP_COMPLETE. -/
def Obligations.CopyMovesEveryElement : Prop :=
  ∀ (c : Ctx) (q : BitVec 8) (s : State) (o : Op), s.op? c q = some o → o.opc = 0x10 → opReady s o = true → o.wrs = 0 →
    o.status = 0 → o.member = false → (s.cx c).rstBusy = false → iFA o.word = iFO o.word →
    (fmtOf (iFA o.word)).width = 8 → (iMode o.word).testBit 0 = false → o.da.loc = false → o.dO.loc = false →
    o.dO.vrows = o.da.vrows → o.dO.vcols = o.da.vcols → o.dO.vcol0 + o.dO.vcols ≤ o.dO.tcols → o.dO.tcols ≤ o.dO.rstride →
    poisonedIn s (svuReads o) = none → MemoriesOk s →
    ∃ t, exec (.svuOpComplete c q) s = .next t ∧ EndsWith s o 0 t ∧
      ∀ i j, i < o.da.vrows → j < o.da.vcols →
        t.staging.read (o.dO.base + (o.dO.vrow0 + i) * o.dO.rstride + (o.dO.vcol0 + j)) =
          s.staging.read (o.da.base + (o.da.vrow0 + i) * o.da.rstride + (o.da.vcol0 + j))

/-- A SCRUB leaves the staging slice and both tile-bank slices of each of its bays zero, its face tag empty, and every other
slice as it was (R192).
Completes: SVU_OP_COMPLETE.
The model's choices, by log entry: times, 2 and 20. -/
def Obligations.ScrubZeroesItsBays : Prop :=
  ∀ (c : Ctx) (q : BitVec 8) (s : State) (o : Op), s.op? c q = some o → o.opc = 0x22 → opReady s o = true → o.status = 0 →
    (s.cx c).rstBusy = false → s.staging.bg = none → MemoriesOk s →
    ∃ t, exec (.svuOpComplete c q) s = .next t ∧ t.clk = max s.clk (phaseEnd s o 17500) ∧ EndsWith s o 0 t ∧ SameSetup s t ∧
      ∀ b : Bay, if (iBays o.word).getLsb b then
          (∀ a, a / 2 ^ 24 = b.val → t.staging.read a = 0) ∧ (∀ a, (t.by b).bank0.mem.read a = 0 ∧ (t.by b).bank1.mem.read a = 0) ∧
            (t.by b).tag = none
        else (∀ a, a / 2 ^ 24 = b.val → t.staging.read a = s.staging.read a) ∧ (t.by b).bank0.mem = (s.by b).bank0.mem ∧
            (t.by b).bank1.mem = (s.by b).bank1.mem ∧ (t.by b).tag = (s.by b).tag

/-! ### Atomic adds, members of a lock window, and the bays -/

/-- ATOMADD with its addends in staging issues one add per line of its targets, dealt to the ports of its context's bays, and waits for
their acknowledgements; with its addends in a
window it reads them first; while a SCRUB or another context's commit holds what it reads or adds to, it waits. Members of a lock window
are held back: an ATOMADD's
adds; a SIGNAL's add, which changes no semaphore yet, with the value it will leave in INFO; a FLAGS' record and clear (R162, R183, R190 to
R192, R203, R207).
Completes: ATOMADD, SIGNAL, FLAGS. -/
def Obligations.AtomAddAndMembersAreHeldBack : Prop :=
  ∀ (c : Ctx) (q : QSel) (s : State) (w : Inst) (d : Desc) (o0 : Op) (adding : List (Nat × Word)),
    d = descAt (memberView s c q) c (iDA w) → o0 = newOp (memberView s c q) c q w → adding = atomTargets (opRead s o0) o0 →
    (Ready s c q 0x13 w → d.loc = true → (deal (s.portBays c) (rdLines (viewRanges .fp32 d))).length ≠ 0 →
      ∃ t o, exec (.atomAdd c q) s = .next t ∧ o ∈ t.ops ∧ OpOf s c q w o ∧ o.stage = .granted ∧
        o.rds = (deal (s.portBays c) (rdLines (viewRanges .fp32 d))).length ∧ (t.cx c).seq = (s.cx c).seq + 1 ∧ OnlyCtx c s t ∧
        SameValues (s.cx c) (t.cx c)) ∧
    (Ready s c q 0x13 w → d.loc = false → accessWaits (takeHead c q w s) o0 = true →
      ∃ t o, exec (.atomAdd c q) s = .next t ∧ o ∈ t.ops ∧ OpOf s c q w o ∧ o.stage = .granted ∧ o.rds = 0 ∧
        (t.cx c).seq = (s.cx c).seq + 1 ∧ OnlyCtx c s t ∧ SameValues (s.cx c) (t.cx c)) ∧
    (Ready s c q 0x13 w → d.loc = false → accessWaits (takeHead c q w s) o0 = false → poisonedIn s (viewRanges .fp32 d) = none →
      ∃ t, exec (.atomAdd c q) s = .next t ∧ (t.cx c).seq = (s.cx c).seq + 1 ∧ OnlyCtx c s t ∧ SameValues (s.cx c) (t.cx c) ∧
        (inWindow s c q = false →
          (∃ o ∈ t.ops, OpOf s c q w o ∧ o.stage = .flushing ∧ o.wrs = 0 ∧ o.acks = (deal (s.portBays c) (addLines adding)).length) ∧
          ∀ b, asks (t.by b).port = asks (s.by b).port ++ adds s c (s.cx c).seq (s.portBays c) (outRanges o0) adding b) ∧
        (inWindow s c q = true → (∀ o ∈ t.ops, o ∈ s.ops) ∧ (∀ b, asks (t.by b).port = asks (s.by b).port) ∧
          ∃ l m, (s.cx c).lockWin = some l ∧ (t.cx c).lockWin = some m ∧ m.left + 1 = l.left ∧
            m.buf = l.buf ++ [.atoms adding (s.cx c).seq (winSpans (outRanges o0))])) ∧
    (Ready s c q 0x19 w → inWindow s c q = true →
      ∃ t l m, exec (.signal c q) s = .next t ∧ (s.cx c).lockWin = some l ∧ (t.cx c).lockWin = some m ∧ m.left + 1 = l.left ∧
        m.buf = l.buf ++ [.sem (semOf w) (BitVec.ofNat 32 (iImm48 w))
          (if (iImm w).testBit 14 then some ((byteRange 4 o0.dx).win, (byteRange 4 o0.dx).lo) else none)] ∧
        (∀ i, bufferedAdds t c i = bufferedAdds s c i + if i = semOf w then BitVec.ofNat 32 (iImm48 w) else 0) ∧
        CompletesNow s c w ((s.cx c).sem.get (semOf w) + bufferedAdds s c (semOf w) + BitVec.ofNat 32 (iImm48 w)).toNat t ∧
        OnlyCtx c s t ∧ SameValues (s.cx c) (t.cx c)) ∧
    (Ready s c q 0x23 w → inWindow s c q = true →
      ∃ t l m, exec (.flags c q) s = .next t ∧ (s.cx c).lockWin = some l ∧ (t.cx c).lockWin = some m ∧ m.left + 1 = l.left ∧
        m.buf = l.buf ++
          (if (iMode w).testBit 0 then [.bytes ((flagsRecord (s.cx c)).zipIdx.map fun y =>
            ((byteRange 16 o0.dO).win, (byteRange 16 o0.dO).lo + y.2, y.1)) [] 16 (winSpans [byteRange 16 o0.dO])] else []) ++
          [.clear (Flags.ofNat (iImm w))] ∧
        CompletesNow s c w (Flags.union (s.cx c).sticky.toList).toNat t ∧ OnlyCtx c s t ∧ SameValues (s.cx c) (t.cx c))

namespace Sys2Proof.Claims

/-- Every operation in flight is the one its identity names, and its context is not under reset. -/
def Named (s : State) : Prop := ∀ o ∈ s.ops, s.opOf o = some o ∧ (s.cx o.ctx).rstBusy = false

/-- Whether an operation waits for the Truss or the drain path of a bay. -/
def wants (drain : Bool) (s : State) (b : Bay) (o : Op) : Bool := if drain then wantsDrain s b o else wantsTruss s b o

/-- Who holds or has reserved a bay's Truss or drain path. -/
def unitAt (drain : Bool) (s : State) (b : Bay) : Option (Ctx × BitVec 8) := if drain then (s.by b).drain else (s.by b).truss

/-- All bays of a set run, and nothing holds them. -/
abbrev allRun (drain : Bool) (s : State) (set : BitVec 4) : Prop :=
  ∀ k ∈ maskBays set, (s.by k).pstate = .running ∧ bayHeld drain s k = false

/-- The fault of an operation at its grant on the bays of its set: that of R41, R128, R171 and R225, or of a DRAIN that of R111, R132 and
R176 for the banks it takes. -/
def grantFault (drain : Bool) (s : State) (o : Op) : Option Nat :=
  if drain then drainFault s { o with gset := Machine.setOf s o, takes := (takesNow s o).getD [] }
  else trussFault s { o with gset := Machine.setOf s o }

/-- An operation starts on its bays in `t`: it ends with the fault of its grant, or is granted them. -/
def Started (drain : Bool) (s u : State) (o : Op) (t : State) : Prop :=
  match grantFault drain u o with
  | some code => Clear s o → EndsWith s o code t
  | none => ∃ p ∈ t.ops, p.ctx = o.ctx ∧ p.seq = o.seq ∧ p.stage = .granted ∧ p.gset = Machine.setOf u o ∧ p.resv = Machine.setOf u o

end Sys2Proof.Claims

/-- A free bay goes to an operation that R17 ranks first among those that wait for it. It takes the bay when the bay is in the set that its
first reservation fixes, and with it starts exactly when all bays of that set are its own, run, and are held by nothing; starting, it ends
with the fault of its grant if it has one, and is granted its bays otherwise (R16 to R18, R41, R128, R171, R176, R225, R302). An operation
that has reserved all its bays starts when they run (R240). An operation that cannot have its bays
ends with DESC_INVALID (R45, R229, R271). A SCRUB that waits for the bay comes first: it faults when its mask names a bay outside TM's set,
out of service or going out, wakes its bays when all are free, and is granted them when they run (R192).
Completes: BAY_GRANT.
The model's choices, by log entry: order of checks, 16; how a SCRUB waits, 54. -/
def Obligations.BayGrantReservesTheFirst : Prop :=
  ∀ (b : Bay) (drain : Bool) (s : State), s.present b = true → blockOpen s = true →
    (∀ o : Op, (s.ops.find? fun p => refused s p && isT p != drain && (aim s p).getLsb b) = some o → o.ofLehr = false → Clear s o →
      ∃ t, exec (.bayGrant b drain) s = .next t ∧ EndsWith s o 3 t ∧ SameSetup s t ∧ t.staging = s.staging) ∧
    ((∀ p ∈ s.ops, refused s p = true → isT p ≠ drain → (aim s p).getLsb b = false) →
      (∀ o : Op, scrubFor s b = some o →
        ∃ t, exec (.bayGrant b drain) s = .next t ∧ SameSetup s t ∧ t.staging = s.staging ∧
          if (∃ k ∈ maskBays (iBays o.word), (s.curSet o.ctx).getLsb k = false ∨ s.inService k = false ∨ (s.by k).outCmd ≠ none) then
            Clear s o → EndsWith s o 3 t
          else if (∀ k ∈ maskBays (iBays o.word), scrubFree s k = true) then
            (if ∀ k ∈ maskBays (iBays o.word), (s.by k).pstate = .running then
              ∃ p ∈ t.ops, p.ctx = o.ctx ∧ p.seq = o.seq ∧ p.stage = .granted ∧ p.gset = iBays o.word
            else t.ops = s.ops ∧ ∀ k ∈ maskBays (iBays o.word),
              (t.by k).pstate = .running ∨ (t.by k).pstate = .waking ∨ (t.by k).wakeReq = true)
          else t = s) ∧
      (scrubFor s b = none → Named s →
        (unitAt drain s b = none → bayOpen drain s b = true → (∃ o ∈ s.ops, wants drain s b o = true) →
          ∃ t o u set, exec (.bayGrant b drain) s = .next t ∧ o ∈ s.ops ∧ wants drain s b o = true ∧
            (∀ p ∈ s.ops, wants drain s b p = true → grantRank s o ≤ grantRank s p) ∧ SameSetup s t ∧ t.staging = s.staging ∧
            u = (if o.gset = 0 then narrow o s else s) ∧ set = Machine.setOf u o ∧
            if set.getLsb b = false then
              ∃ p ∈ t.ops, p.ctx = o.ctx ∧ p.seq = o.seq ∧ p.stage = .waiting ∧ p.gset = set ∧ p.resv = o.resv
            else if o.resv ||| (1#4 <<< b.val) = set ∧ allRun drain s set then Started drain s u o t
            else unitAt drain t b = some (o.ctx, o.seq) ∧ ∃ p ∈ t.ops, p.ctx = o.ctx ∧ p.seq = o.seq ∧ p.stage = .waiting ∧ p.gset = set ∧
              p.resv = o.resv ||| (1#4 <<< b.val)) ∧
        ∀ o : Op, reservedOp s drain b = some o →
          ∃ t, exec (.bayGrant b drain) s = .next t ∧ SameSetup s t ∧ t.staging = s.staging ∧
            if failoverHolds s o = false ∧ allRun drain s o.gset then Started drain s s o t else t = s))

/-! ### The Truss and the drain path -/

/-- A RAISE completes when its last raise slot is written: the joints, the face tag and the RAISE record of each of its bays hold
its face (R31, R171). A parity error on the raise bus is recorded under PARITY and makes the face be written again, under stall reason 10
(R259, R265).
Completes: RAISE_DONE.
The model's choices, by log entry: times, 2 and 20; delays, 10; faults as operands, 11. -/
def Obligations.RaiseCompletesOrIsWrittenAgain : Prop :=
  ∀ (c : Ctx) (q : BitVec 8) (s u : State) (o : Op) (r : RaiseRec) (parity : List (Bay × Nat)) (d : Delay),
    s.op? c q = some o → opReady s o = true → o.opc = 0x01 → o.rr = some r → o.reraise = 0 → o.watch = [] → Clear s o →
    (Instr.raiseDone c q ⟨parity, d⟩).wellFormed = true → u = delayLag o d (runSegs o ((o.why, raiseTime s o) :: delaySegs d) s) →
    poisonedIn u ((raiseWork u o).flatMap (·.2.2.2)) = none →
    ∃ t, exec (.raiseDone c q ⟨parity, d⟩) s = .next t ∧ SameSetup s t ∧ t.staging = s.staging ∧ t.clk = u.clk ∧
      (d = {} → t.clk = max s.clk (phaseEnd s o (raiseTime s o))) ∧
      (parity = [] → EndsWith s o 0 t ∧
        (∀ x ∈ (maskBays o.gset).zipIdx, (t.by x.1).tag = some ⟨c, { r with rank := x.2 }, false⟩ ∧
          (t.by x.1).recs.get c = some { r with rank := x.2 } ∧
          (t.by x.1).face = some (mkFace (heldCols (opRead s o) { r with rank := x.2 } (x.2 * faceCols r.face)
            (min (faceCols r.face) (r.n - x.2 * faceCols r.face))).1)) ∧
        (∀ b, b ∉ maskBays o.gset → (t.by b).tag = (s.by b).tag ∧ (t.by b).face = (s.by b).face ∧ (t.by b).recs = (s.by b).recs)) ∧
      (parity ≠ [] → FaultNoted s t c 0x33 1 o.q o.qidx 0 ∧
        (∀ b, (t.by b).tag = (s.by b).tag ∧ (t.by b).face = (s.by b).face ∧ (t.by b).recs = (s.by b).recs) ∧
        ∃ p ∈ t.ops, p.ctx = c ∧ p.seq = q ∧ p.stage = .granted ∧ p.tFirst = t.clk ∧ p.ran = 0 ∧ p.why = 10)

namespace Sys2Proof.Claims

/-- The lehr does not work under the identity of an operation. -/
def Alone (s : State) (o : Op) : Prop := ∀ j, s.lehr = some j → ¬(j.ctx = o.ctx ∧ j.seq = o.seq)

/-- The operation waits in its bays for a replay, under stall reason 9. -/
def waiting (c : Ctx) (q : BitVec 8) (v : State) : State := v.modOp c q fun p => { p with why := 9, tFirst := v.clk, ran := 0 }

/-- What the end of a pass leaves of the banks that `v` holds after it: with LAST the filling banks become COMPLETE, with the r and e of the
attempt that is kept, and the bays swap them; without LAST, and in other bays, nothing changes. -/
structure Closed (v : State) (p : Op) (t : State) : Prop where
  swap : ∀ b ∈ maskBays p.gset, (t.by b).fill1 = ((v.by b).fill1 != p.last)
  last : p.last = true → ∀ b ∈ maskBays p.gset, ∃ x, (t.by b).bank (v.by b).fill1 =
    { (v.by b).fill with st := .complete, r := p.attempt, e := p.attempt * p.replay.2, taken := x,
                         folded := if p.opc = 0x06 then some ((foldShape p (maskBays p.gset).length).1, p.da.vrows) else none }
  more : p.last = false → ∀ b ∈ maskBays p.gset, (t.by b).bank (v.by b).fill1 = (v.by b).fill
  others : ∀ b, b ∉ maskBays p.gset → (t.by b).bank0 = (v.by b).bank0 ∧ (t.by b).bank1 = (v.by b).bank1 ∧ (t.by b).fill1 = (v.by b).fill1

/-- What follows a replay of a PASS or FOLD that has left the state `v`: another replay where one is due; the end with ABFT_PERSISTENT where
slots are withheld after the second, and their bays leave service; else the end, with REPLAY_EXHAUSTED where the tile still
overflows after the second overflow replay. -/
def AfterReplay (s : State) (o : Op) (v : State) (p : Op) (t : State) : Prop :=
  if needsAbft p = true ∨ needsOverflow v p = true then t = waiting o.ctx o.seq v
  else if p.held ≠ [] then EndsWith s o 0x11 t ∧ ∀ h ∈ p.held, t.inService h.1 = false
  else EndsWith s o (if p.ovfNow = true ∧ replayable v p = true then 0x15 else 0) t ∧ Closed v p t

end Sys2Proof.Claims

/-- A PASS or FOLD whose rows have streamed waits for an ABFT replay exactly when a check withheld slots of it, and for an overflow replay
when an element overflowed and the operation may be replayed; otherwise it ends, with the bank that its pass wrote: with LAST that bank
becomes COMPLETE and the bays swap, without LAST it stays filling. A SEED ends with the banks its tile is written to. A ROUGH replaces its
context's decision set, or waits for a replay of the pass whose slots were withheld; so does a product of the lehr, whose
values are kept for its iteration (R42, R44, R77, R86, R122, R144, R175, R263).
Completes: TRUSS_OP_COMPLETE.
The model's choices, by log entry: delays, 10; faults as operands, 11; the products, 14; slots of inner passes, 53. -/
def Obligations.TrussOperationEndsOrWaitsForReplay : Prop :=
  ∀ (c : Ctx) (q : BitVec 8) (s : State) (o : Op) (faults : List SlotFault) (d : Delay), s.op? c q = some o → canStream s o = true →
    o.retry = 0 → o.attempt = 0 → o.pass ≤ (opInner s o).passes → (Instr.trussOpComplete c q faults d).wellFormed = true → Clear s o →
    trussPoison s o = none →
    ∃ t, exec (.trussOpComplete c q faults d) s = .next t ∧ SameSetup s t ∧ t.staging = s.staging ∧
      (o.opc = 0x03 ∨ o.opc = 0x06 → Alone s o →
        ∃ p, (streamRun o faults d s).op? c q = some p ∧ p.retry = 0 ∧ p.attempt = 0 ∧
          if p.held ≠ [] ∨ needsOverflow (streamRun o faults d s) p = true then t = waiting c q (streamRun o faults d s)
          else EndsWith s o 0 t ∧ Closed (streamRun o faults d s) p t) ∧
      (o.opc = 0x04 → Alone s o → EndsWith s o 0 t ∧ ∀ u, u = runSeed o (delayLag o d (runSegs o ((0, plainTime s o) :: delaySegs d) s)) →
        ∀ b, (t.by b).bank0 = (u.by b).bank0 ∧ (t.by b).bank1 = (u.by b).bank1 ∧ (t.by b).fill1 = (s.by b).fill1) ∧
      (o.opc = 0x0C ∨ o.opc = 0x10B → ∀ n r,
        runPasses (opInner s o) (chkBays s o) faults ((opInner s o).passes - o.pass) o.pass { patch := o.patch } = (n, r) →
        (r.held ≠ [] → ∃ p ∈ t.ops, p.ctx = c ∧ p.seq = q ∧ p.opc = o.opc ∧ p.stage = .granted ∧ p.streamed = true ∧ p.held = r.held ∧
          p.retry = 0 ∧ p.pass = n ∧ p.patch = r.patch ∧ p.why = 9 ∧ p.tFirst = t.clk) ∧
        (r.held = [] → o.opc = 0x0C → EndsWith s o 0 t ∧ (t.cx c).rough = some (runRough s { o with patch := r.patch })) ∧
        (r.held = [] → o.opc = 0x10B → ∀ j, s.lehr = some j → ∃ k, t.lehr = some k ∧ k.bays = j.bays ||| o.gset ∧
          k.patches = j.patches.take (o.chain - j.chain) ++ [r.patch]))

/-- An ABFT replay is recorded under the code of its cause and counts one retry; an overflow replay counts one attempt, with no retry yet.
While slots are withheld and fewer than two retries are counted, another ABFT replay follows; while the tile overflows and fewer than two
attempts are counted, another overflow replay. Slots withheld after the second retry end the operation with ABFT_PERSISTENT, and the bays
they are withheld in leave service. Otherwise it ends with its tile closed, with REPLAY_EXHAUSTED when the last attempt still overflows. A
pass of a ROUGH or of a product of the lehr is replayed alike, and the next pass follows (R87, R89, R122, R144, R263 to R265, R272).
Completes: ABFT_REPLAY, OVERFLOW_REPLAY.
The model's choices, by log entry: faults as operands, 11; lines used again, 52; slots of inner passes, 53. -/
def Obligations.ReplayRunsAgain : Prop :=
  ∀ (c : Ctx) (q : BitVec 8) (s : State) (o : Op) (faults : List SlotFault), s.op? c q = some o → opReady s o = true → Clear s o →
    trussPoison s o = none →
    (needsAbft o = true → (Instr.abftReplay c q faults).wellFormed = true → o.opc = 0x03 ∨ o.opc = 0x06 → Alone s o →
      ∃ t p, exec (.abftReplay c q faults) s = .next t ∧ SameSetup s t ∧ (replayRun o faults s).op? c q = some p ∧
        p.retry = o.retry + 1 ∧ p.attempt = o.attempt ∧ AfterReplay s o (replayRun o faults s) p t) ∧
    (needsOverflow s o = true → (Instr.overflowReplay c q faults).wellFormed = true → Alone s o →
      ∃ t p, exec (.overflowReplay c q faults) s = .next t ∧ SameSetup s t ∧ (overflowRun o faults s).op? c q = some p ∧
        p.retry = 0 ∧ p.attempt = o.attempt + 1 ∧ AfterReplay s o (overflowRun o faults s) p t) ∧
    (needsAbft o = true → (Instr.abftReplay c q faults).wellFormed = true → o.opc = 0x0C ∨ o.opc = 0x10B →
      ∀ x r, x = opInner s o →
        r = x.attempt (chkBays s o) o.pass (fun b => (o.held.filter (·.1 == b)).map (·.2)) faults (decide (o.retry + 1 = 2)) o.patch →
        ∃ t, exec (.abftReplay c q faults) s = .next t ∧ SameSetup s t ∧
          (r.held ≠ [] → o.retry = 0 → ∃ p ∈ t.ops, p.ctx = c ∧ p.seq = q ∧ p.opc = o.opc ∧ p.retry = 1 ∧ p.pass = o.pass ∧
            p.held = r.held ∧ p.patch = r.patch ∧ p.why = 9) ∧
          (r.held ≠ [] → o.retry = 1 → o.opc = 0x0C → EndsWith s o 0x11 t ∧ ∀ h ∈ r.held, t.inService h.1 = false) ∧
          (r.held = [] → o.pass + 1 < x.passes → ∃ p ∈ t.ops, p.ctx = c ∧ p.seq = q ∧ p.opc = o.opc ∧ p.streamed = false ∧
            p.retry = 0 ∧ p.pass = o.pass + 1 ∧ p.patch = r.patch ∧ p.held = []) ∧
          (r.held = [] → x.passes ≤ o.pass + 1 → o.opc = 0x0C →
            EndsWith s o 0 t ∧ (t.cx c).rough = some (runRough s { o with patch := r.patch })))

/-- A DRAIN stores what it converts from the banks it took: the bytes in staging are there when it is due and no other byte changes, the
bytes in a window go out through the port of the bay they come from. With all outputs in staging it ends, otherwise it waits for its
flushes. The banks are FREE with their contents kept. A drain of the lehr writes nothing and frees the banks of its product
(R44, R46, R144, R176, R203, R205).
Completes: DRAIN_COMPLETE.
The model's choices, by log entry: times, 2 and 20; outputs at the end of an operation, 6; delays, 10; bays of a DRAIN, 15. -/
def Obligations.DrainFreesItsBanks : Prop :=
  (∀ (c : Ctx) (q : BitVec 8) (s u : State) (o : Op) (d : Delay), s.op? c q = some o → opReady s o = true → o.opc = 0x05 → Clear s o →
    o.watch = [] → (Instr.drainComplete c ⟨q, d⟩).wellFormed = true →
    u = delayLag o d (runSegs o ((0, drainTime s o) :: delaySegs d) s) → drainPoison u o = none →
    poisonedIn u (drainReads u o) = none → MemoriesOk s →
    ∃ t, exec (.drainComplete c ⟨q, d⟩) s = .next t ∧ t.clk = u.clk ∧ SameSetup s t ∧
      (∀ b ∈ maskBays o.gset, ((t.by b).bank (takenBank s o b).1).st = .free) ∧
      (∀ b, (t.by b).bank0.mem = (s.by b).bank0.mem ∧ (t.by b).bank1.mem = (s.by b).bank1.mem) ∧
      t.staging = (writeStaging ((maskBays o.gset).flatMap fun b =>
        (runDrain u o).wrs.filterMap fun w => if w.1 == b && !w.2.1 then some w.2.2 else none) s).staging ∧
      (∀ a, (∀ w ∈ (runDrain u o).wrs, w.2.1 = true ∨ a < w.2.2.1 ∨ w.2.2.1 + w.2.2.2.length ≤ a) →
        t.staging.read a = s.staging.read a) ∧
      (∀ b ∈ maskBays o.gset, asks (t.by b).port = asks (s.by b).port ++
        posts s c (.op c q) [b] (outRanges o) ((runDrain u o).wrs.filterMap fun w => if w.1 == b then some w.2 else none) b) ∧
      ((∀ w ∈ (runDrain u o).wrs, w.2.1 = false) → EndsWith s o 0 t) ∧
      ((∃ w ∈ (runDrain u o).wrs, w.1 ∈ maskBays o.gset ∧ w.2.1 = true ∧ w.2.2.2 ≠ []) →
        ∃ p ∈ t.ops, p.ctx = c ∧ p.seq = q ∧ p.stage = .flushing ∧ 0 < p.wrs ∧ p.status = 0)) ∧
  (∀ (c : Ctx) (q : BitVec 8) (s u : State) (o : Op) (d : Delay), s.opIn .d c q = some o → opReady s o = true → o.opc = 0x20B →
    (Instr.drainComplete c ⟨q, d⟩).wellFormed = true → u = delayLag o d (runSegs o ((0, drainTime s o) :: delaySegs d) s) →
    drainPoison u o = none →
    ∃ t, exec (.drainComplete c ⟨q, d⟩) s = .next t ∧ t.clk = u.clk ∧ SameSetup s t ∧ t.staging = s.staging ∧
      (∀ b ∈ maskBays o.gset, ((t.by b).bank (takenBank s o b).1).st = .free) ∧
      (o.side = true → ∃ p ∈ t.ops, p.ctx = c ∧ p.seq = q ∧ p.side = true ∧ p.opc = 0x30B ∧ p.stage = .waiting))

/-! ### Completion records, the fabric ports, queue fetch -/

/-- COMPLETION_RECORD_WRITE: the oldest record of a context goes to its completion queue, not before the fc after its delivery and one record
an fc. In staging its 32 bytes stand at their place, no other byte changes, and CQ_TAIL passes it; in a window its bytes are posted on the
lowest bay's port, behind them a flush, and it stays invisible; where the context may not write, it is dropped with all that wait, and the
context faults (R164 to R166, R199, R203, R205).
Completes: COMPLETION_RECORD_WRITE.
The model's choices, by log entry: posted writes and flushes, 7; records in flight, 13. -/
def Obligations.CompletionRecordIsWritten : Prop :=
  ∀ (c : Ctx) (s : State) (r : Rec) (l : List Rec) (a : Nat), (s.cx c).recs = r :: l → cqRoom (s.cx c) = true → s.fastOn = true →
    s.dbg.halted = false → s.damp.hardNow = false → recordWaits s c = false → MemoriesOk s →
    a = (s.cx c).cqBase.2 + 32 * (s.cx c).cqWrite.toNat →
    ∃ t, exec (.completionRecordWrite c) s = .next t ∧ SameSetup s t ∧ t.clk = max s.clk (max (r.at_ + fcLen s) (s.cx c).recAt) ∧
      (t.cx c).recAt = t.clk + fcLen s ∧
      (rangeOk s c true ⟨(s.cx c).cqBase.1, a, 32⟩ = false → (t.cx c).recs = [] ∧ (t.cx c).irqFault = true ∧ t.staging = s.staging ∧
        ((s.cx c).mode = .active → (t.cx c).mode = .faulted)) ∧
      (rangeOk s c true ⟨(s.cx c).cqBase.1, a, 32⟩ = true → (s.cx c).cqBase.1 = false →
        (t.cx c).recs = l ∧ (t.cx c).cqTail = BitVec.ofNat 16 (((s.cx c).cqTail.toNat + 1) % (s.cx c).cqEntries) ∧
        t.staging.readN a 32 = r.bytes (s.cx c).cqWPhase ∧ (∀ b, (b < a ∨ a + 32 ≤ b) → t.staging.read b = s.staging.read b)) ∧
      (∀ b, rangeOk s c true ⟨(s.cx c).cqBase.1, a, 32⟩ = true → (s.cx c).cqBase.1 = true → s.lowBay = some b →
        (t.cx c).recs = l ∧ (t.cx c).cqTail = (s.cx c).cqTail ∧ t.staging = s.staging ∧
        asks (t.by b).port = asks (s.by b).port ++
          (wrLines [(true, a, r.bytes (s.cx c).cqWPhase)]).map (fun x => .wr x.1 (farOf s c true ⟨true, a, 32⟩) c x.2.1 x.2.2) ++
          [.flush 0 (.record c (s.cx c).cqWrite.toNat) 0])

/-- A read port gives its responses in request order: the answer of the oldest request reaches the operation that waits for it, an
answer of a later one waits behind it, and one that comes after its request expired only frees its tag. An error ends the operation with
PORT_ERROR, with a fault record and a log entry, once its writes are answered too; an ATOMADD that has its last addends issues its
adds (R183, R202, R204 to R207, R231, R276).
Completes: RDATA.
The model's choices, by log entry: reads and their data, 7. -/
def Obligations.ReadPortAnswersInOrder : Prop :=
  ∀ (b : Bay) (s : State) (r : RdReq) (l : List RdReq) (c : Ctx) (q : BitVec 8) (o : Op) (data : List Byte), s.present b = true →
    (s.by b).port.rd = r :: l → (s.by b).port.rdWait = [] → (s.by b).port.rdGone.contains r.tag = false → r.reply = none →
    data.length = 64 → r.owner = .op c q → s.op? c q = some o → (∀ x, l.head? = some x → x.reply = none) →
    (o.opc ≠ 0x13 → ∃ t, exec (.rdata b r.tag .ok data) s = .next t ∧ (t.by b).port.rd = l ∧ t.ctx = s.ctx ∧ t.staging = s.staging ∧
      SameSetup s t ∧ ∃ p ∈ t.ops, p.ctx = c ∧ p.seq = q ∧ p.rds = o.rds - 1 ∧ p.got = o.got ++ [(r.line, data)]) ∧
    ((s.cx c).rstBusy = false → o.status = 0 → ∃ t, exec (.rdata b r.tag .err data) s = .next t ∧ SameSetup s t ∧
      Logged s t 0x12 5 (b.val * 2 ^ 28) ∧
      if o.wrs = 0 ∧ o.acks = 0 then EndsWith s (o.whole s) 0x12 t ∧ FaultNoted s t c 0x12 2 o.q o.qidx o.aux
      else ∃ p ∈ t.ops, p.ctx = c ∧ p.seq = q ∧ p.stage = .flushing ∧ p.status = 0x12) ∧
    (o.opc = 0x13 → o.stage = .granted → o.rds = 1 → o.member = false → accessWaits s o = false → portless s c (outRanges o) = false →
      poisonedIn s (viewRanges .fp32 o.da) = none → ∀ w, w = atomTargets (opRead s { o with got := o.got ++ [(r.line, data)] }) o →
      ∃ t, exec (.rdata b r.tag .ok data) s = .next t ∧ t.staging = s.staging ∧ SameSetup s t ∧
        (∃ p ∈ t.ops, p.ctx = c ∧ p.seq = q ∧ p.rds = 0 ∧ p.stage = .flushing ∧ p.acks = o.acks + (deal (opPorts s o) (addLines w)).length) ∧
        ∀ k, asks (t.by k).port = asks (s.by k).port ++ adds s c q (opPorts s o) (outRanges o) w k) ∧
    ∀ tag, tag ≠ r.tag → ∃ t, exec (.rdata b tag .ok data) s = .next t ∧ (t.by b).port.rd.head? = some r ∧ t.ops = s.ops ∧
      t.ctx = s.ctx ∧ t.staging = s.staging ∧
      ((s.by b).port.rdGone.contains tag = true → (t.by b).port.rd = r :: l ∧ (t.by b).port.rdGone = (s.by b).port.rdGone.erase tag)

namespace Sys2Proof.Claims

/-- How many expiries of a port count against it at the time of `t`, before another one. -/
def expired (s t : State) (l : List Nat) : Nat := l.countP fun x => decide (timebase t < x + s.g.failWin.toNat * 1000000)

/-- An operation fails with PORT_ERROR when `last` says that nothing of it is unanswered, and else waits for its other responses. -/
def PortFails (s : State) (o : Op) (last : Prop) [Decidable last] (t : State) : Prop :=
  if last then EndsWith s (o.whole s) 0x12 t ∧ FaultNoted s t o.ctx 0x12 2 o.q o.qidx o.aux
  else ∃ p ∈ t.ops, p.ctx = o.ctx ∧ p.seq = o.seq ∧ p.stage = .flushing ∧ p.status = 0x12

end Sys2Proof.Claims

/-- The last acknowledgement of an operation completes it; an error makes it fail with PORT_ERROR, with a log entry and a fault record, when
its other responses have come. So does the expiry of PORT_TMO, for a write and for a read; the fourth within FAIL_WIN on one port takes its
bay out of service (R183, R202, R205, R206, R231, R272, R275, R276).
Completes: AACK, FACK, PORT_TMO_EXPIRY.
The model's choices, by log entry: times, 2; posted writes and flushes, 7. -/
def Obligations.WritePortAnswers : Prop :=
  ∀ (b : Bay) (s : State) (c : Ctx) (q : BitVec 8) (o : Op) (time : Nat), s.present b = true → s.op? c q = some o →
    (s.cx c).rstBusy = false → o.status = 0 →
    (o.stage = .flushing → (s.by b).port.wrWait = [] →
      (∀ tag line far k lanes adds l, (s.by b).port.wr = .afadd tag line far k lanes adds (.op c q) time :: l →
        (∃ t, exec (.aack b tag .ok) s = .next t ∧ (t.by b).port.wr = l ∧ t.staging = s.staging ∧ SameSetup s t ∧
          if o.acks ≤ 1 ∧ o.wrs = 0 then EndsWith s o 0 t else ∃ p ∈ t.ops, p.ctx = c ∧ p.seq = q ∧ p.acks = o.acks - 1) ∧
        (∃ t, exec (.aack b tag .err) s = .next t ∧ SameSetup s t ∧ Logged s t 0x12 5 (b.val * 2 ^ 28 + 1) ∧
          PortFails s o (o.acks ≤ 1 ∧ o.wrs = 0) t)) ∧
      (∀ tag l, (s.by b).port.wr = .flush tag (.op c q) time :: l →
        (∃ t, exec (.fack b tag .ok) s = .next t ∧ (t.by b).port.wr = l ∧ t.staging = s.staging ∧ SameSetup s t ∧
          if o.wrs ≤ 1 ∧ o.acks = 0 then EndsWith s o 0 t else ∃ p ∈ t.ops, p.ctx = c ∧ p.seq = q ∧ p.wrs = o.wrs - 1) ∧
        (∃ t, exec (.fack b tag .err) s = .next t ∧ SameSetup s t ∧ Logged s t 0x12 5 (b.val * 2 ^ 28 + 1) ∧
          PortFails s o (o.wrs ≤ 1 ∧ o.acks = 0) t)) ∧
      (∀ tag : BitVec 14, (s.by b).port.wr = [.flush (tag.truncate 12) (.op c q) time] →
        ∃ t, exec (.portTmoExpiry b true tag) s = .next t ∧ t.clk = max s.clk (time + s.g.portTmo.toNat * 20000) ∧ SameSetup s t ∧
          Logged s t 0x12 5 (b.val * 2 ^ 28 + 1) ∧
          (expired s t (s.by b).port.wrExp < 3 → PortFails s o (o.wrs ≤ 1 ∧ o.acks = 0) t) ∧
          (3 ≤ expired s t (s.by b).port.wrExp → t.inService b = false))) ∧
    (∀ r : RdReq, o.stage = .granted → (s.by b).port.rd = [r] → (s.by b).port.rdWait = [] → r.reply = none → r.owner = .op c q →
      ∃ t, exec (.portTmoExpiry b false r.tag) s = .next t ∧ t.clk = max s.clk (r.time + s.g.portTmo.toNat * 20000) ∧ SameSetup s t ∧
        (t.by b).port.rd = [] ∧ (t.by b).port.rdGone = (s.by b).port.rdGone ++ [r.tag] ∧ Logged s t 0x12 5 (b.val * 2 ^ 28) ∧
        (expired s t (s.by b).port.rdExp < 3 → PortFails s o (o.wrs = 0 ∧ o.acks = 0) t) ∧
        (3 ≤ expired s t (s.by b).port.rdExp → t.inService b = false))

/-- QUEUE_FETCH reads the 64 bytes of the next entries: from staging at once, from a window through the lowest bay's port; no head
moves. WATCHDOG faults a queue that has dispatched nothing for WDOG µs (R149, R151, R203).
Completes: QUEUE_FETCH, WATCHDOG.
The model's choices, by log entry: times, 2; fetch by entries, 12. -/
def Obligations.QueueFetchAndWatchdog : Prop :=
  (∀ (c : Ctx) (q : QSel) (s : State) (i : Nat) (k : List Nat) (a : Nat), blockRuns s = true → (s.cx c).mode = .active →
    (s.cx c).rstBusy = false → toFetch (s.qu c q) = i :: k → a = (s.qu c q).base.2 + i / 4 * 64 →
    rangeOk s c false ⟨(s.qu c q).base.1, a, 64⟩ = true →
    ∃ t, exec (.queueFetch c q) s = .next t ∧ (t.qu c q).head = (s.qu c q).head ∧ (t.cx c).seq = (s.cx c).seq ∧ OnlyCtx c s t ∧
      ((s.qu c q).base.1 = false → scrubHolds s [⟨false, a, 64⟩] = false → commitHolds s c [⟨false, a, 64⟩] = false → poisonedIn s [⟨false, a, 64⟩] = none → ∀ j ∈ toFetch (s.qu c q), j / 4 = i / 4 →
        fetchedAt (t.qu c q) j = some (wordOf (s.staging.readN ((s.qu c q).base.2 + 16 * j) 16))) ∧
      (∀ b, (s.qu c q).base.1 = true → s.lowBay = some b → (s.by b).port.rdWait = [] → (s.by b).port.rdFree = true →
        ∃ r, (t.by b).port.rd = (s.by b).port.rd ++ [r] ∧ r.line = a / 64 ∧ r.owner = .fetch c q)) ∧
  (∀ (c : Ctx) (q : QSel) (s : State), queueRuns s c q = true → (s.cx c).wdog ≠ 0 →
    ∃ t, exec (.watchdog c q) s = .next t ∧ t.clk = max s.clk ((s.qu c q).lastAt + (s.cx c).wdog.toNat * 20000) ∧
      (t.cx c).mode = .faulted ∧ (t.cx c).seq = (s.cx c).seq ∧ OnlyCtx c s t ∧ (∃ r ∈ (t.cx c).recs, r.status = 0x20) ∧
      FaultNoted s t c 0x20 2 q (s.qu c q).head.toNat (if (s.qu c q).loop.isSome = true then loopAux (s.qu c q) else 0))

/-! ### Reliability and service -/

namespace Sys2Proof.Claims

/-- The same operations are in flight, each at the same stage; only their times may differ. -/
def SameOps (s t : State) : Prop := t.ops.map (fun o => (o.ctx, o.seq, o.stage)) = s.ops.map fun o => (o.ctx, o.seq, o.stage)

/-- Staging and the tile banks are as before. -/
def SameMemories (s t : State) : Prop :=
  t.staging = s.staging ∧ ∀ b, (t.by b).bank0.mem = (s.by b).bank0.mem ∧ (t.by b).bank1.mem = (s.by b).bank1.mem

end Sys2Proof.Claims

/-- A corrected error is counted and stops nothing; an uncorrectable one that the patrol finds poisons its word; neither changes a
byte (R255 to R258). An uncorrectable error of a common memory is logged and recorded in every context, and no queue dispatches any more
(R231, R274).
Completes: ECC_WRITE_BACK, PATROL_READ.
The model's choices, by log entry: faults as operands, 11; rows, 32; errors of common memories, 46. -/
def Obligations.MemoryErrorsAreCounted : Prop :=
  (∀ (l : EccLoc) (s : State) (b : Bay), locBay s l = some b → s.fastOn = true → s.cnt.frozen = false →
    (∀ reader, ∃ t, exec (.eccWriteBack l reader) s = .next t ∧
      (t.by b).eccCor.toNat = min 0xFFFFFFFF ((s.by b).eccCor.toNat + 1) ∧ t.ras.poison = s.ras.poison ∧ SameOps s t ∧
      SameMemories s t ∧ SameSetup s t ∧ (∀ c, (t.cx c).mode = (s.cx c).mode) ∧
      ∀ c, reader = some c → FaultNoted s t c 0x30 0 .main 0 0) ∧
    exec (.patrolRead (.row l) .clean) s = .next s ∧
    (∃ t, exec (.patrolRead (.row l) .single) s = .next t ∧ (t.by b).eccCor.toNat = min 0xFFFFFFFF ((s.by b).eccCor.toNat + 1) ∧
      t.ras.poison = s.ras.poison ∧ SameMemories s t ∧ t.ctx = s.ctx ∧ SameOps s t ∧ SameSetup s t) ∧
    (∃ t, exec (.patrolRead (.row l) .double) s = .next t ∧ (t.by b).eccUnc.toNat = min 0xFFFFFFFF ((s.by b).eccUnc.toNat + 1) ∧
      wordOfLoc l ∈ t.ras.poison ∧ (∀ w ∈ t.ras.poison, w = wordOfLoc l ∨ w ∈ s.ras.poison) ∧ SameMemories s t ∧ t.ctx = s.ctx ∧
      SameOps s t ∧ SameSetup s t)) ∧
  ∀ (n : Nat) (s : State), s.fastOn = true → subsystem n = true →
    ∃ t, exec (.patrolRead (.common n) .double) s = .next t ∧ Logged s t 0x3B 8 n ∧ SameMemories s t ∧ t.ops = s.ops ∧ SameSetup s t ∧
      ∀ c, (t.cx c).mode ≠ .active ∧ FaultNoted s t c 0x3B 4 .main (s.qu c .main).head.toNat 0 ∧ ∀ q, canDispatch t c q = false

/-- At a tile boundary a failed column is retired, and a data column moves to a spare or its bay leaves service; a failed sill lane
moves to the spare lane; a failure count returns to 0 after FAIL_WIN; an OUT ends with the bay out of service and power-gated
(R266 to R269, R272).
Completes: COLUMN_REMAP, SILL_LANE_SPARED, FAIL_WIN_EXPIRY, BAY_LEAVE_SERVICE. -/
def Obligations.RepairsHappenAtBoundaries : Prop :=
  ∀ (b : Bay) (s : State),
    (∀ col l, (s.by b).pendCol = col :: l → boundary s b = true →
      ∃ t, exec (.columnRemap b) s = .next t ∧ col ∈ (t.by b).retired ∧ col ∉ (t.by b).pendCol ∧ SameSetup s t ∧
        t.staging = s.staging ∧ (col < 32 → (t.by b).oos = true ∨ ∃ k, (col, k) ∈ (t.by b).remap ∧ (t.by b).spares[k]? = some .data)) ∧
    (∀ col, (s.by b).pendLane = some col → boundary s b = true →
      ∃ t, exec (.sillLaneSpared b) s = .next t ∧ t.ras.lane = some (b, col) ∧ (t.by b).pendLane = none ∧ SameSetup s t ∧
        t.staging = s.staging) ∧
    (∀ lane col f, (s.by b).fails.find? (fun f => f.lane == lane && f.col == col) = some f →
      ∃ t, exec (.failWinExpiry b lane col) s = .next t ∧ (∀ g ∈ (t.by b).fails, ¬(g.lane = lane ∧ g.col = col)) ∧ t.ctx = s.ctx ∧
        t.ops = s.ops ∧ SameSetup s t) ∧
    (outReady s b = true →
      ∃ t, exec (.bayLeaveService b) s = .next t ∧ (t.by b).oos = true ∧ (t.by b).pstate = .powerGated ∧ (t.by b).outCmd = none ∧
        (t.by b).bank0.st = .free ∧ (t.by b).bank1.st = .free ∧ t.g.repBusy = false ∧ t.g.repDone = true ∧ t.staging = s.staging ∧
        SameSetup s t)

namespace Sys2Proof.Claims

/-- Firmware's or the boot code's access to a register port that answers, not through the debug path. -/
structure FwAccess (s : State) (a : Access) : Prop where
  running : s.boot.running = true
  tag : a.tag = 8 ∨ a.tag = 9
  plain : a.dbg = false

/-- The port has acknowledged a write. -/
def Acked (t : State) : Prop := t.regs.answer = .ack

/-- The port has answered ERR, and the write has changed nothing of contexts, memories, bays' repair state or set-up. -/
structure Refused (s t : State) : Prop where
  answer : t.regs.answer = .err
  ctx : t.ctx = s.ctx
  ops : t.ops = s.ops
  staging : t.staging = s.staging
  g : t.g = s.g
  prot : t.prot = s.prot
  boot : t.boot = s.boot
  dbg : t.dbg = s.dbg

end Sys2Proof.Claims

/-- The repair commands act while LOCK is 1 and no command is busy, and answer ERR otherwise; RETIRE adds a column to those that
wait, OUT starts a departure, IN returns a bay that passed BIST, CLEAR makes every column fresh again (R270, R272, R273).
Completes: RETIRE, OUT, IN, CLEAR. -/
def Obligations.RepairCommandsActOrAreRefused : Prop :=
  ∀ (a : Access) (b : BitVec 2) (s : State), FwAccess s a →
    (s.prot.lock = false ∨ s.g.repBusy = true →
      (∀ col, ∃ t, exec (.retire a b col) s = .next t ∧ Refused s t) ∧ (∀ f, ∃ t, exec (.bayOut a b f) s = .next t ∧ Refused s t) ∧
      (∃ t, exec (.bayIn a b) s = .next t ∧ Refused s t) ∧ ∃ t, exec (.clearCols a b) s = .next t ∧ Refused s t) ∧
    (s.prot.lock = true → s.g.repBusy = false → s.present (bayArg b) = true →
      (∀ col : BitVec 6, mayRetire s (bayArg b) col.toNat = true →
        ∃ t, exec (.retire a b col) s = .next t ∧ Acked t ∧ (t.by (bayArg b)).pendCol = (s.by (bayArg b)).pendCol ++ [col.toNat] ∧
          t.g.repDone = true) ∧
      (∀ f, (s.by (bayArg b)).oos = false →
        ∃ t, exec (.bayOut a b f) s = .next t ∧ Acked t ∧ (t.by (bayArg b)).outCmd = some (if f then .forced else .graceful) ∧
          t.g.repBusy = true) ∧
      ((s.by (bayArg b)).oos = true → (s.by (bayArg b)).bistOk = true →
        ∃ t, exec (.bayIn a b) s = .next t ∧ Acked t ∧ (t.by (bayArg b)).oos = false ∧ t.g.repDone = true) ∧
      ((s.by (bayArg b)).oos = true →
        ∃ t, exec (.clearCols a b) s = .next t ∧ Acked t ∧ (t.by (bayArg b)).retired = [] ∧ (t.by (bayArg b)).remap = [] ∧
          (t.by (bayArg b)).fails = [] ∧ t.g.repDone = true))

/-! ### Contexts -/

/-- DOORBELL moves a tail that its queue has, at once or when the common domain wakes, whose wake it asks for; FEAT_ACK starts both
queues once, after LOCK, with the features that the block has; a value out of range is ERR (R148, R149, R152, R218, R240).
Completes: DOORBELL, FEAT_ACK. -/
def Obligations.DoorbellAndFeatAck : Prop :=
  ∀ (a : Access) (c : Ctx) (v : Word) (s : State), s.boot.running = true →
    (∀ q, mayWrite s a (tailAddr c q) = true →
      ∃ t, exec (.doorbell a c q v) s = .next t ∧ SameSetup s t ∧ t.staging = s.staging ∧ t.ops = s.ops ∧ (∀ d, d ≠ c → t.cx d = s.cx d) ∧
        if (s.qu c q).entries ≤ v.toNat % 65536 then t.regs.answer = .err ∧ t.ctx = s.ctx
        else Acked t ∧ if s.fastOn then (t.qu c q).tail = BitVec.ofNat 16 v.toNat ∧ (t.qu c q).head = (s.qu c q).head
          else t.ctx = s.ctx ∧ t.fastReq = true ∧ (BitVec.ofNat 16 (tailAddr c q), v) ∈ t.regs.posted) ∧
    (mayWrite s a (ctxBase c) = true →
      ∃ t, exec (.featAck a c v) s = .next t ∧ SameSetup s t ∧ t.staging = s.staging ∧ t.ops = s.ops ∧ (∀ d, d ≠ c → t.cx d = s.cx d) ∧
        if s.prot.lock = true ∧ s.boot.ready = true ∧ (s.cx c).acked = false then
          Acked t ∧ (t.cx c).mode = .active ∧ (t.cx c).acked = true ∧ (t.cx c).feat = BitVec.ofNat 16 v.toNat &&& Config.featCap s.build
        else t.regs.answer = .err ∧ t.ctx = s.ctx)

namespace Sys2Proof.Claims

/-- What a reset clears of a context, and what it keeps (R233). -/
structure CtxCleared (x y : CtxState) : Prop where
  queues : y.mode = .stopped ∧ y.acked = false ∧ y.feat = 0 ∧ y.rstBusy = false ∧ y.seq = 0 ∧ y.qm.head = 0 ∧ y.qm.tail = 0 ∧
    y.qp.head = 0 ∧ y.qp.tail = 0
  marks : y.qm.layer = 0 ∧ y.qm.oper = 0 ∧ y.qp.layer = 0 ∧ y.qp.oper = 0 ∧ y.qm.geo = none ∧ y.qp.geo = none ∧
    y.qm.watchR = [] ∧ y.qm.watchD = [] ∧ y.qp.watchR = [] ∧ y.qp.watchD = []
  completion : y.cqTail = 0 ∧ y.cqHead = 0 ∧ y.cqWrite = 0 ∧ y.cqFull = false ∧ y.cqPhase = true ∧ y.recs = [] ∧ y.cqFlight = []
  values : (∀ b, y.sticky.get b = {}) ∧ (∀ b, y.cullet.get b = 0) ∧ (∀ i, y.sem.get i = 0) ∧ y.fault = {}
  work : y.chains = [] ∧ (∀ i, y.masks.get i = none) ∧ y.rough = none ∧ y.lockWin = none
  kept : y.qm.baseLo = x.qm.baseLo ∧ y.qm.baseHi = x.qm.baseHi ∧ y.qm.size = x.qm.size ∧ y.qp.baseLo = x.qp.baseLo ∧
    y.qp.baseHi = x.qp.baseHi ∧ y.qp.size = x.qp.size ∧ y.cqLo = x.cqLo ∧ y.cqHi = x.cqHi ∧ y.cqSize = x.cqSize ∧
    y.descBase = x.descBase ∧ y.cqIrq = x.cqIrq ∧ y.wdog = x.wdog ∧ y.alt = x.alt ∧ y.epoch = x.epoch

end Sys2Proof.Claims

/-- CTX_RST: a tenant reset starts with what waits gone, in no other context, and with what has begun to go to its next boundary left;
TENANT_RESET_DONE: it ends when nothing of the context is left, with its queues STOPPED and empty, its flags, counters, semaphores, fault
record and completion pointers at their reset values, and no chain, bank, RAISE record, face tag or mask slot, while bases, sizes and the set
selection stay (R232, R233).
Completes: CTX_RST, TENANT_RESET_DONE.
The model's choices, by log entry: boundaries, 44. -/
def Obligations.TenantResetClearsItsContext : Prop :=
  ∀ (c : Ctx) (s : State),
    (∀ (a : Access) (v : Word), s.boot.running = true → s.fastOn = true → mayWrite s a (ctxBase c + 0x0F0) = true → v.getLsbD 0 = true →
      (s.cx c).rstBusy = false →
      ∃ t, exec (.ctxRst a c v) s = .next t ∧ Acked t ∧ (t.cx c).rstBusy = true ∧ (∀ d, d ≠ c → t.cx d = s.cx d) ∧
        (∀ o ∈ t.ops, o.ctx = c → o.stage = .granted ∨ o.stage = .flushing) ∧
        (∀ o ∈ s.ops, o.ctx ≠ c → o.x ≠ .flowing → (∀ h, o.x ≠ .recvFlow h) → o ∈ t.ops) ∧
        ((∀ o ∈ s.ops, o.ctx = c → o.stage = .granted → isT o = true) → t.staging = s.staging) ∧ SameSetup s t) ∧
    ((s.cx c).rstBusy = true → (∀ o ∈ s.ops, o.ctx ≠ c) → (s.cx c).lockWin = none → portHolds s c = false →
      ∃ t, exec (.tenantResetDone c) s = .next t ∧ (∀ d, d ≠ c → t.cx d = s.cx d) ∧ t.ops = s.ops ∧ t.staging = s.staging ∧ SameSetup s t ∧
        CtxCleared (s.cx c) (t.cx c) ∧
        ∀ b, (t.by b).recs.get c = none ∧ (∀ g, (t.by b).tag = some g → g.ctx ≠ c) ∧
          ((t.by b).bank0.st ≠ .free → (t.by b).bank0.ctx ≠ c) ∧ ((t.by b).bank1.st ≠ .free → (t.by b).bank1.ctx ≠ c))

/-! ### Resets of bays and of the block -/

namespace Sys2Proof.Claims

/-- What a warm reset leaves (R233). -/
structure Warmed (s t : State) : Prop where
  phase : t.boot.phase = 4
  ready : t.boot.ready = false
  fast : t.fastOn = false
  ops : t.ops = []
  ctx : ∀ c, CtxCleared (s.cx c) (t.cx c)
  ring : t.xch.joined = false ∧ t.xch.seqnos = []
  counts : t.cnt.busy = 0 ∧ t.cnt.ops = 0 ∧ ∀ b, s.present b = true →
    (t.by b).busyCyc = 0 ∧ (t.by b).opsRet = 0 ∧ (t.by b).eccCor = 0 ∧ (t.by b).eccUnc = 0 ∧ (t.by b).lag = 0
  raises : ∀ b, s.present b = true → (t.by b).tag = none ∧ ∀ c, (t.by b).recs.get c = none
  limits : t.g.foTmo = s.g.foTmo
  bays : ∀ b, s.present b = true → (t.by b).pstate = .powerGated ∧ (t.by b).bank0.st = .free ∧ (t.by b).bank1.st = .free ∧
    (t.by b).face = none ∧ (t.by b).retired = (s.by b).retired ∧ (t.by b).spares = (s.by b).spares
  setup : SameSetup s t

end Sys2Proof.Claims

/-- BRST starts a reset of a bay that is out of service, else it is ERR; at its end the bay has no chain, face, tag or RAISE record, is
power-gated, and keeps its memories; a failed BIST clears BIST_OK (R233).
Completes: BRST, BAY_RESET_DONE.
The model's choices, by log entry: times, 2; durations, 23. -/
def Obligations.BayResetClearsTheBay : Prop :=
  ∀ (b : Bay) (s : State), s.present b = true →
    (∀ (a : Access) (v : Word), FwAccess s a →
      ((s.by b).oos = false → ∃ t, exec (.brst a b v) s = .next t ∧ Refused s t) ∧
      ((s.by b).oos = true → v.getLsbD 0 = true → ∃ t, exec (.brst a b v) s = .next t ∧ Acked t ∧ (t.by b).brst = true ∧
        t.ctx = s.ctx ∧ SameMemories s t ∧ SameSetup s t)) ∧
    (∀ (x : BayTest) (us : Nat), (s.by b).brst = true → (s.by b).pstate = .running → (Instr.bayResetDone b x us).wellFormed = true →
      ∃ t, exec (.bayResetDone b x us) s = .next t ∧ t.clk = s.clk + us * 20000 ∧ (t.by b).brst = false ∧ (t.by b).pstate = .powerGated ∧
        (t.by b).bank0.st = .free ∧ (t.by b).bank1.st = .free ∧ (t.by b).tag = none ∧ (t.by b).face = none ∧
        (∀ c, (t.by b).recs.get c = none) ∧ (t.by b).pendCol = [] ∧ (x.pass = false → (t.by b).bistOk = false) ∧ SameMemories s t ∧
        SameSetup s t)

/-- A warm reset, by WARM_RST or by WRST_N, goes back to phase 4 with every context reset and keeps the memories, the repairs and the
protection set-up; a rail excursion does the same and leaves staging undefined, and before phase 4 lets start-up go on where it stands;
cold reset keeps the memories until phase 6, clears everything else and leaves LOCK at 0; its release samples BLK_ID and starts the
timebase (R22, R221, R233, R237, R243, R249).
Completes: WARM_RST, WRST_N, PORST_N_ASSERT, PORST_N_RELEASE, RAIL_EXCURSION.
The model's choices, by log entry: times, 2; undefined staging, 9; an excursion before phase 4, 23. -/
def Obligations.BlockResets : Prop :=
  ∀ s : State,
    (warmable s = true →
      (∀ (a : Access) (v : Word), FwAccess s a → v.getLsbD 0 = true →
        ∃ t, exec (.warmRst a v) s = .next t ∧ Acked t ∧ Warmed s t ∧ SameMemories s t ∧ t.ras.log = s.ras.log) ∧
      (∃ t, exec (.wrstN false) s = .next t ∧ Warmed s t ∧ SameMemories s t ∧ t.ras.log = s.ras.log) ∧
      (∀ r, ∃ t, exec (.railExcursion r) s = .next t ∧ Warmed s t ∧ t.staging = ⟨[], some (t.nfree - 1)⟩)) ∧
    (s.boot.porstN = true → warmable s = false →
      ∀ r, ∃ t, exec (.railExcursion r) s = .next t ∧ t.boot = s.boot ∧ t.ops = [] ∧ t.fastOn = false ∧ SameSetup s t ∧
        (∀ c, (t.cx c).mode = .stopped ∧ (t.cx c).acked = false) ∧ t.staging = ⟨[], some (t.nfree - 1)⟩) ∧
    (∃ t, exec (.wrstN true) s = .next t ∧ t.boot.wrstN = true ∧ t.ctx = s.ctx ∧ t.ops = s.ops ∧ SameMemories s t ∧ SameSetup s t) ∧
    (∃ t, exec .porstNAssert s = .next t ∧ t.boot.porstN = false ∧ t.boot.ready = false ∧ t.prot = {} ∧ t.ops = [] ∧ SameMemories s t ∧
      t.ras = { poison := s.ras.poison } ∧ (∀ c, t.cx c = {}) ∧ t.cnt.busy = 0 ∧ t.cnt.ops = 0 ∧ t.xch.joined = false ∧ t.xch.seqnos = [] ∧
      t.g = { State.reset.g with pwrCap := BitVec.ofNat 8 (Config.capMax s.build) } ∧
      (∀ b, (t.by b).bank0.st = .free ∧ (t.by b).bank1.st = .free ∧ (t.by b).tag = none ∧ (∀ c, (t.by b).recs.get c = none) ∧
        (t.by b).retired = [] ∧ (t.by b).remap = [] ∧ (t.by b).fails = [] ∧ (t.by b).rows = [] ∧ (t.by b).busyCyc = 0 ∧ (t.by b).opsRet = 0 ∧
        (t.by b).eccCor = 0 ∧ (t.by b).eccUnc = 0) ∧
      t.build = s.build ∧ t.pending = s.pending) ∧
    (∀ blk, s.boot.porstN = false → ∃ t, exec (.porstNRelease blk) s = .next t ∧ t.boot.porstN = true ∧ t.boot.phase = 1 ∧
      t.g.blkId = blk ∧ t.clk = 0 ∧ t.ctx = s.ctx ∧ SameMemories s t ∧ SameSetup s t)

/-- Start-up goes through its phases in order: the register port answers from phase 2 on, the fuses are read 220 µs after the release,
the wake slot lies 80 µs times SLOT later, phase 4 wakes every bay, BIST takes a failing bay out of service and a failing common domain
stops the block, the remap retires what the fuses name and zeroes the memories after a cold reset, and the ring join makes the block READY
(R215, R240, R249 to R252).
Completes: FURNACE_START, FUSE_READ, WAKE_SLOT, FAST_START, BIST, REMAP, RING_JOIN.
The model's choices, by log entry: times, 2; durations, 23; memories before phase 6, 5. -/
def Obligations.StartupPhases : Prop :=
  ∀ s : State, s.boot.porstN = true →
    (∀ us, us ≤ 20 → s.boot.phase = 1 → ∃ t, exec (.furnaceStart us) s = .next t ∧ t.boot.phase = 2 ∧ t.boot.running = true ∧
      t.clk = max s.clk (s.boot.released + us * 20000) ∧ SameSetup s t) ∧
    (∀ cols lane, s.boot.phase = 2 → (Instr.fuseRead cols lane).wellFormed = true → ∃ t, exec (.fuseRead cols lane) s = .next t ∧
      t.boot.phase = 3 ∧ t.clk = max s.clk (s.boot.released + 220 * 20000) ∧ t.ras.lane = (if s.build = .fig4B then lane else none) ∧
      t.boot.fuseCols = cols ∧ t.damp.fused = true ∧ SameSetup s t) ∧
    (s.boot.phase = 3 → ∃ t, exec .wakeSlot s = .next t ∧ t.boot.phase = 4 ∧
      t.clk = max s.clk (s.boot.released + (220 + s.g.blkId.toNat % 32 * 80) * 20000) ∧
      (∀ b, s.present b = true → (t.by b).wakeReq = true) ∧ SameSetup s t) ∧
    (∀ us, us ≤ 30 → s.boot.phase = 4 → s.boot.wrstN = true → ∃ t, exec (.fastStart us) s = .next t ∧ t.boot.phase = 5 ∧
      s.boot.started + us * 20000 ≤ t.clk ∧
      (s.regs.posted = [] → t.fastOn = true ∧ SameSetup s t ∧
        ∀ b, s.present b = true → (s.by b).wakeReq = true → (t.by b).pstate = .running)) ∧
    (∀ tests fails us, s.boot.phase = 5 → s.boot.cfail = false → (Instr.bist tests fails us).wellFormed = true →
      ∃ t, exec (.bist tests fails us) s = .next t ∧ SameSetup s t ∧
        (∀ n, fails = some n → t.boot.phase = 5 ∧ t.boot.cfail = true ∧ Logged s t 0x3C 8 n) ∧
        (fails = none → t.boot.phase = 6 ∧ ∀ (b : Bay) (x : BayTest), s.present b = true → tests[b.val]? = some x →
          (t.by b).bistOk = x.pass ∧ (x.pass = false → (t.by b).oos = true))) ∧
    (∀ us, us ≤ 150 → s.boot.phase = 6 → ∃ t, exec (.remap us) s = .next t ∧ t.boot.phase = 7 ∧ SameSetup s t ∧
      (∀ b, s.present b = true → (t.by b).pendCol = [] ∧ (t.by b).pendLane = none) ∧
      (s.boot.cold = true → ∀ b : Bay, s.present b = true → ∀ col ∈ (s.boot.fuseCols[b.val]?).getD [],
        col ∈ (t.by b).retired ∨ (t.by b).oos = true) ∧
      if s.boot.cold then t.staging = {} ∧ (∀ b, (t.by b).bank0.mem = {} ∧ (t.by b).bank1.mem = {}) ∧ t.ras.poison = []
      else SameMemories s t) ∧
    (∀ us, us ≤ 500 → s.boot.phase = 7 → ∃ t, exec (.ringJoin us) s = .next t ∧ t.boot.phase = 0 ∧ t.boot.ready = true ∧
      t.boot.intr = true ∧ t.xch.joined = true ∧ t.xch.seqnos = [] ∧ t.g.ringValid = false ∧ SameMemories s t ∧ SameSetup s t ∧
      ∀ b, s.present b = true → (t.boot.bfail.getLsb b = (s.by b).oos) ∧ ((s.by b).oos = true → (t.by b).pstate = .powerGated))

/-- A JOINED shell takes the address of an enumeration flit, answers it with its identity and passes on the next address; a shell in
BYPASS passes the flit on as it came (R214, R254).
Completes: ENUMERATION_FLIT.
The model's choices, by log entry: ring output, 17. -/
def Obligations.EnumerationGivesTheAddress : Prop :=
  ∀ (origin addr : BitVec 31) (s : State),
    ∃ t, exec (.enumerationFlit origin addr) s = .next t ∧ t.ctx = s.ctx ∧ t.ops = s.ops ∧ t.staging = s.staging ∧ SameSetup s t ∧
      if s.xch.joined then t.g.ringAddr = addr ∧ t.g.ringValid = true ∧
        t.xch.out = s.xch.out ++ [.enumAnswer origin s.g.blkId (Config.buildCode s.build) (inServiceMask s), .enumForward origin (addr + 1)]
      else t.g = s.g ∧ t.xch.out = s.xch.out ++ [.enumForward origin addr]

/-! ### Failover -/

/-- A write to FO_CMD, by FAILOVER, FORCED_FAILOVER or a plain register write, is ERR and starts nothing while LOCK is 0, while a failover
is busy, for a reserved CTX, for a target set that is already current, and for a target set that is empty or holds a bay out of
service (R226). -/
def Obligations.FoCmdRefuses : Prop :=
  ∀ (s : State) (a : Access) (n : BitVec 4) (target : Bool), s.boot.running = true →
    (s.prot.lock = false ∨ s.g.failover ≠ none ∨ 8 < n.toNat ∨
      (∃ c : Ctx, c.val = n.toNat ∧ ((s.cx c).alt = target ∨ targetSet s c target = 0 ∨ ∃ b ∈ maskBays (targetSet s c target), s.inService b = false))) →
    (∃ t, exec (.failover a n target) s = .next t ∧ Refused s t) ∧ (∃ t, exec (.forcedFailover a n target) s = .next t ∧ Refused s t) ∧
    ∀ v : Word, BitVec.ofNat 4 v.toNat = n → v.getLsbD 4 = target → ∃ t, exec (.registerWrite a 0x1900 v) s = .next t ∧ Refused s t

/-- An accepted failover command starts a failover and changes no context; its time limit forces it; the switch changes the current set
of its context alone, raises EPOCH and, when forced, releases the context's chains (R227 to R229).
Completes: FAILOVER, FORCED_FAILOVER, FO_TMO_EXPIRY, FAILOVER_SWITCH.
The model's choices, by log entry: times, 2. -/
def Obligations.FailoverSwitchesTheSet : Prop :=
  ∀ s : State,
    (∀ (a : Access) (c : Ctx) (target : Bool), FwAccess s a → s.prot.lock = true → s.g.failover = none → (s.cx c).alt ≠ target →
      targetSet s c target ≠ 0 → (∀ b ∈ maskBays (targetSet s c target), s.inService b = true) →
      (∃ t f, exec (.failover a (BitVec.ofNat 4 c.val) target) s = .next t ∧ Acked t ∧ t.g.failover = some f ∧ f.ctx = c ∧
        f.target = target ∧ f.forced = false ∧ t.ctx = s.ctx) ∧
      (∃ t f, exec (.forcedFailover a (BitVec.ofNat 4 c.val) target) s = .next t ∧ Acked t ∧ t.g.failover = some f ∧ f.ctx = c ∧
        f.target = target ∧ f.forced = true ∧ t.ctx = s.ctx)) ∧
    (∀ f, s.g.failover = some f → f.forced = false → s.g.foTmo ≠ 0 → s.dbg.halted = false →
      ∃ t, exec .foTmoExpiry s = .next t ∧ t.g.failover = some { f with forced := true } ∧
        t.clk = max s.clk (f.start + s.g.foTmo.toNat * 20000) ∧ t.ctx = s.ctx ∧ t.ops = s.ops ∧ SameSetup s t) ∧
    (∀ f, s.g.failover = some f → foReady s f = true →
      ∃ t, exec .failoverSwitch s = .next t ∧ (t.cx f.ctx).alt = f.target ∧ (t.cx f.ctx).epoch = (s.cx f.ctx).epoch + 1 ∧
        (t.cx f.ctx).irqEpoch = true ∧ t.g.failover = none ∧ t.g.foStatDone = true ∧ t.g.foForced = f.forced ∧
        (∀ d, d ≠ f.ctx → (∀ o ∈ s.ops, o.ctx = d → atomMay s o = false) → t.cx d = s.cx d) ∧ (f.forced = true → (t.cx f.ctx).chains = []) ∧ SameMemories s t ∧ SameSetup s t)

/-! ### Power -/

/-- OPPT sets a target unless a change is under way; when nothing is granted the clocks stop and OPS_REQ rises; after OPS_ACK the block
runs at the target (R238).
Completes: OPPT, OPS_REQ, OPS_ACK, OPS_RESTART.
The model's choices, by log entry: times, 2; due times, 20. -/
def Obligations.OperatingPointChanges : Prop :=
  ∀ s : State,
    (∀ (a : Access) (v : Word), FwAccess s a → ∃ t, exec (.oppt a v) s = .next t ∧ t.ctx = s.ctx ∧ t.ops = s.ops ∧ SameMemories s t ∧
      if s.g.opBusy then Refused s t else Acked t ∧ t.g.opTgt = v.getLsbD 0 ∧ t.g.opBusy = (v.getLsbD 0 != s.g.opCur) ∧ t.g.opCur = s.g.opCur) ∧
    (s.g.opBusy = true → s.g.opsReq = false → quiet s = true → s.dbg.halted = false → s.damp.hardNow = false → ∃ t, exec .opsReq s = .next t ∧ t.g.opsReq = true ∧
      t.g.opsLow = s.g.opTgt ∧ t.fastOn = false ∧ t.ctx = s.ctx ∧ t.ops = s.ops ∧ SameMemories s t ∧ SameSetup s t) ∧
    (∀ level, ∃ t, exec (.opsAck level) s = .next t ∧ t = { s with g := { s.g with opsAck := level } }) ∧
    (s.g.opsReq = true → s.g.opsAck = true → s.regs.posted = [] → ∃ t, exec .opsRestart s = .next t ∧ t.g.opCur = s.g.opTgt ∧
      t.g.opBusy = false ∧ t.g.opsReq = false ∧ t.clk = s.clk + 4000 ∧ (s.g.opRun.contains .common = true → t.fastOn = true) ∧
      t.ctx = s.ctx ∧ (∀ o ∈ s.ops, o.opc ≠ 0x0B → o ∈ t.ops) ∧ SameOps s t ∧ SameMemories s t ∧ SameSetup s t)

/-- A wake that the damper admits starts the bay, which runs 20 µs after a power gate and 200 ns after a clock stop; one that it does not
admit waits, and shows in WWAIT; an idle bay stops its clock after 256 fc and is power-gated PG_DELAY later, its joints empty and its tag
and RAISE records kept; a bay out of service is gated at once; the common clock stops when nothing is left to do. Writes posted to the
sleeping common domain, doorbells and interrupt clears among them, take effect when it runs (R21, R218, R239 to R242, R248, R271).
Completes: WAKE_START, WAKE_DONE, BAY_CLOCK_STOP, POWER_GATE, COMMON_CLOCK_STOP.
The model's choices, by log entry: times, 2. -/
def Obligations.SleepAndWake : Prop :=
  ∀ s : State,
    (∀ b, wakesRun s = true → wakesFirst s b = true → admits s b = true →
      ∃ t, exec (.wakeStart (.bay b)) s = .next t ∧ (t.by b).pstate = .waking ∧ (t.by b).wakeReq = false ∧
        (t.by b).wakeAt = t.clk + (if (s.by b).pstate = .powerGated then 400000 else 4000) ∧ t.clk % 400 = 0 ∧ t.lastWake = some t.clk ∧
        t.ctx = s.ctx ∧ t.ops = s.ops ∧ SameMemories s t ∧ SameSetup s t) ∧
    (∀ b, wakesRun s = true → wakesFirst s b = true → admits s b = false →
      ∃ t, exec (.wakeStart (.bay b)) s = .next t ∧ t.damp.wwait = true ∧ (t.by b).wakeHeld = true ∧ (t.by b).wakeReq = true ∧
        (t.by b).pstate = (s.by b).pstate ∧ t.clk = s.clk ∧ t.ctx = s.ctx ∧ t.ops = s.ops ∧ SameMemories s t ∧ SameSetup s t) ∧
    (wakesRun s = true → s.fastReq = true → s.fastGo = false → s.fastOn = false → ∃ t, exec (.wakeStart .common) s = .next t ∧
      t.fastGo = true ∧ t.clk = max s.clk ((s.fastAt / 400 + 1) * 400) ∧ t.ctx = s.ctx ∧ t.ops = s.ops ∧ SameMemories s t ∧ SameSetup s t) ∧
    (s.g.opsReq = false → s.fastGo = true → s.regs.posted = [] → ∃ t, exec (.wakeDone .common) s = .next t ∧ t.fastOn = true ∧
      t.fastReq = false ∧ t.clk = max s.clk (s.fastAt + 4000) ∧ t.ctx = s.ctx ∧ t.ops = s.ops ∧ SameMemories s t ∧ SameSetup s t) ∧
    (s.g.opsReq = false → s.fastGo = true → ∃ t, exec (.wakeDone .common) s = .next t ∧ t.fastOn = true ∧
      (∀ x ∈ t.regs.posted, ownedBy s .common x.1.toNat = false) ∧
      (∀ c q v, s.regs.posted = [(BitVec.ofNat 16 (tailAddr c q), v)] → v.toNat % 65536 < (s.qu c q).entries →
        t.regs.posted = [] ∧ (t.qu c q).tail = BitVec.ofNat 16 v.toNat ∧ (t.qu c q).head = (s.qu c q).head ∧ t.ops = s.ops ∧
        (∀ d, d ≠ c → t.cx d = s.cx d) ∧ SameMemories s t ∧ SameSetup s t) ∧
      (∀ c v, s.regs.posted = [(BitVec.ofNat 16 (ctxBase c + 0x0C4), v)] →
        t.regs.posted = [] ∧ (t.cx c).irqFault = ((s.cx c).irqFault && !v.getLsbD 1) ∧
        (t.cx c).irqEpoch = ((s.cx c).irqEpoch && !v.getLsbD 2) ∧ t.ops = s.ops ∧ (∀ d, d ≠ c → t.cx d = s.cx d) ∧ SameMemories s t ∧
        SameSetup s t)) ∧
    (∀ b, (s.by b).pstate = .waking → s.fastOn = true → s.regs.posted = [] → ∃ t, exec (.wakeDone (.bay b)) s = .next t ∧
      (t.by b).pstate = .running ∧ t.clk = max s.clk (s.by b).wakeAt ∧ t.staging = s.staging ∧ SameSetup s t ∧
      ((∀ drain, reservedOp s drain b = none) → t.ops = s.ops ∧ t.ctx = s.ctx ∧ SameMemories s t)) ∧
    (∀ b, s.boot.ready = true → s.present b = true → (s.by b).pstate = .running → s.fastOn = true → bayFree s b = true →
      (s.by b).brst = false → policy s b ≤ 1 → ∃ t, exec (.bayClockStop b) s = .next t ∧ (t.by b).pstate = .clockStopped ∧
        t.clk = max s.clk ((s.by b).idleAt + 256 * fcLen s) ∧ (t.by b).face = (s.by b).face ∧ t.ctx = s.ctx ∧ t.ops = s.ops ∧
        SameMemories s t ∧ SameSetup s t) ∧
    (∀ b, s.present b = true → keepsPower s b = false → (s.by b).oos = false → (s.by b).pstate = .clockStopped → policy s b = 0 →
      ∃ t, exec (.powerGate b) s = .next t ∧ (t.by b).pstate = .powerGated ∧ (t.by b).face = none ∧ (t.by b).tag = (s.by b).tag ∧
        (t.by b).recs = (s.by b).recs ∧ t.clk = max s.clk ((s.by b).idleAt + s.g.pgDelay.toNat * 20000) ∧ t.ctx = s.ctx ∧ t.ops = s.ops ∧
        SameMemories s t ∧ SameSetup s t) ∧
    (∀ b, s.present b = true → keepsPower s b = false → (s.by b).oos = true → (s.by b).pstate ≠ .powerGated →
      ∃ t, exec (.powerGate b) s = .next t ∧ (t.by b).pstate = .powerGated ∧ (t.by b).face = none ∧ t.clk = s.clk ∧ t.ctx = s.ctx ∧
        t.ops = s.ops ∧ SameMemories s t ∧ SameSetup s t) ∧
    (s.boot.ready = true → s.fastOn = true → (∀ c, ctxIdle s c = true) → s.ops = [] → s.lehr = none → haltReq s = false →
      (∀ b, s.present b = true → ((s.by b).pstate = .clockStopped ∨ (s.by b).pstate = .powerGated) ∧ (s.by b).wakeReq = false) →
      ∃ t, exec .commonClockStop s = .next t ∧ t.fastOn = false ∧ t.clk = s.clk ∧ t.ctx = s.ctx ∧ SameMemories s t ∧ SameSetup s t)

/-- At the end of a window the damper takes the cap that stands, shows the mean of its estimate, ends a hard stop, looks at the waiting wakes
again, and takes as duty the largest n of 64 whose plan lies within the cap, 1 when none does; before the first window after READY the duty is
64. A hard stop comes as soon as the energy so far and a stalled rest reach the cap of the window, and not before; it stalls every
engine for the rest of the window: nothing is dispatched, granted or ended (R245, R246, R248, R249).
Completes: DAMPER_WINDOW, DAMPER_HARD_STOP.
The model's choices, by log entry: times, 2; piecewise estimate, 20. -/
def Obligations.DamperChoosesTheDuty : Prop :=
  ∀ (s u : State) (stop : Nat), stop = (s.damp.start / 200000 + 1) * 200000 → u = at' stop s →
    (∃ t, exec .damperWindow s = .next t ∧ t.clk = max s.clk stop ∧ t.damp.start = t.clk ∧ t.damp.hard = s.damp.hardNow ∧
      t.damp.hardNow = false ∧ t.damp.energy = 0 ∧ t.damp.cap = s.g.pwrCap ∧ t.damp.last = u.damp.act ∧
      t.damp.est.toNat = min 0xFFFF (u.damp.energy * 16 / (64 * 1000 * max 1 (u.clk - s.damp.start))) ∧
      (if s.boot.ready = false ∨ s.damp.start < s.boot.started then t.damp.n = 64
        else 1 ≤ t.damp.n.toNat ∧ t.damp.n.toNat ≤ 64 ∧ (t.damp.n.toNat = 1 ∨ within t (planned t [] t.damp.n.toNat) = true) ∧
          ∀ k, t.damp.n.toNat < k → k ≤ 64 → within t (planned t [] k) = false) ∧
      (s.g.opsReq = false → (∀ b, (t.by b).wakeHeld = ((s.by b).wakeHeld && !admits t b)) ∧
        (t.damp.wwait = true ↔ ∃ b, s.present b = true ∧ (t.by b).wakeHeld = true)) ∧
      (s.dbg.halted = false → t.ctx = s.ctx) ∧ SameOps s t ∧ SameMemories s t ∧ SameSetup s t) ∧
    (if s.boot.ready = true ∧ s.fastOn = true ∧ s.damp.hardNow = false ∧ s.clk < stop ∧
        64 * 1000 * s.damp.cap.toNat * 200000 ≤ s.damp.energy + 64 * stallPower s * (stop - s.clk) then
      ∃ t, exec .damperHardStop s = .next t ∧ t.damp.hardNow = true ∧ t.clk = s.clk ∧ globalStall t ≠ 0 ∧ blockRuns t = false ∧
        (∀ o, opReady t o = false) ∧ SameOps s t ∧ t.ctx = s.ctx ∧ SameMemories s t ∧ SameSetup s t
    else exec .damperHardStop s = .next s)

/-! ### Observability and debug -/

namespace Sys2Proof.Claims

/-- A trigger-centred buffer that the trigger fires. -/
def Fires (t : TraceBuf) : Prop := t.armed = true ∧ t.triggered = false ∧ t.mode = 2 ∧ t.en = true

/-- The domain of a trace buffer. -/
def bufDomain : Option Bay → Domain
  | none => .common
  | some b => .bay b

/-- The register that names the buffer exists. -/
def bufThere (s : State) : Option Bay → Bool
  | none => true
  | some b => s.present b

end Sys2Proof.Claims

/-- ARM sets the mode of a buffer, empties a trigger-centred one and arms it, and its TIME_HI record may trigger it at once; FIRE triggers every
armed one: the records of its fc begin the post part, behind a TRIGGER record where the ring of no context takes it; PURGE takes a context's
records out of every buffer, and a tenant's PURGE is ERR; TIME_HI counts the wraps of the timebase; the trace DMA takes the oldest record out of
its buffer and writes its 16 bytes to its ring's next slot through the lowest bay's port, a flush behind them (R205, R286 to R291, R317).
Completes: TIME_HI, TRACE_DMA, ARM, FIRE, PURGE.
The model's choices, by log entry: times, 2. -/
def Obligations.TraceBuffersAndRings : Prop :=
  ∀ s : State,
    (∀ (a : Access) (buf : Option Bay) (v : Word), FwAccess s a → bufThere s buf = true → awake s (bufDomain buf) = true →
      v.toNat % 4 ≠ 3 → ((bufOf s buf).en = true → v.toNat % 4 = (bufOf s buf).mode.toNat ∧ v.toNat / 16 % 16 = (bufOf s buf).pre.toNat) →
      (v.toNat % 4 = 2 → (bufOf s buf).recs = [] ∧ (bufOf s buf).post = []) →
      ∃ t, exec (.arm a buf v) s = .next t ∧ Acked t ∧ (bufOf t buf).armed = true ∧ (bufOf t buf).mode = BitVec.ofNat 2 v.toNat ∧
        (bufOf t buf).en = v.getLsbD 2 ∧ t.ctx = s.ctx ∧ SameMemories s t ∧
        if anyRing s = true ∧ triggers s (timeHiRec s) = true ∧ v.toNat % 4 = 2 ∧ v.getLsbD 2 = true then (bufOf t buf).triggered = true
        else (bufOf t buf).triggered = false ∧ (bufOf t buf).done = false ∧ (bufOf t buf).post = []) ∧
    (∀ (a : Access) (v : Word), FwAccess s a → s.fastOn = true → v.toNat % 8 ≤ 4 → ∃ t, exec (.fire a v) s = .next t ∧ Acked t ∧
      t.trace.src = BitVec.ofNat 3 v.toNat ∧ t.ctx = s.ctx ∧ SameMemories s t ∧
      ∀ buf k, bufThere s buf = true → Fires (bufOf s buf) → (bufOf s buf).dropped = 0 →
        k = (bufOf s buf).recs.length - (if (bufOf s buf).stamp.1 = t.clk / fcLen s then (bufOf s buf).stamp.2 else 0) →
        (bufOf t buf).triggered = true ∧ (bufOf t buf).recs = (bufOf s buf).recs.take k ∧
        if ringNone s then ∃ r, (bufOf t buf).post = r :: (bufOf s buf).recs.drop k ∧ r.typ = 0x23 ∧ r.arg = 0
        else (bufOf t buf).post = (bufOf s buf).recs.drop k) ∧
    (∀ (a : Access) (c : Ctx) (v : Word), s.boot.running = true → a.dbg = false → mayWrite s a (0x6014 + 0x40 * c.val) = true →
      if a.tag = 8 ∨ a.tag = 9 then s.fastOn = true →
        (v.getLsbD 0 = true → rangeOk s c true ⟨true, ringBase (s.trace.rings.get c), 16 * 2 ^ (s.trace.rings.get c).size.toNat⟩ = true) →
        ∃ t, exec (.purge a c v) s = .next t ∧ Acked t ∧
        t.ctx = s.ctx ∧ SameMemories s t ∧ ∀ buf, bufThere s buf = true → ∀ r ∈ (bufOf t buf).recs ++ (bufOf t buf).post, r.ctx ≠ c.val
      else ∃ t, exec (.purge a c v) s = .next t ∧ Refused s t) ∧
    (∃ t, exec .timeHi s = .next t ∧ t.trace.hi = s.trace.hi + 1 ∧ t.clk = max s.clk ((s.trace.hi.toNat + 1) * 2 ^ 32 * 20) ∧
      t.ctx = s.ctx ∧ t.ops = s.ops ∧ SameMemories s t ∧ SameSetup s t) ∧
    (∀ (buf : Option Bay) (b : Bay) (r : TraceRec) (l : List TraceRec) (c : Ctx), s.lowBay = some b → s.fastOn = true →
      s.dbg.halted = false → bufThere s buf = true → (∀ k, (s.trace.rings.get k).loss = 0) → (bufOf s buf).mode ≠ 2 →
      (bufOf s buf).recs = r :: l → (bufOf s buf).run = 0 → ringsOf s r = [c] → (s.trace.rings.get c).en = true →
      (s.trace.rings.get c).full = false →
      ∃ t, exec (.traceDma buf) s = .next t ∧ (bufOf t buf).recs = l ∧ (t.trace.rings.get c).flight = (s.trace.rings.get c).flight + 1 ∧
        t.ctx = s.ctx ∧ t.ops = s.ops ∧ SameMemories s t ∧ SameSetup s t ∧
        ∀ at_, at_ = ringBase (s.trace.rings.get c) + 16 * (s.trace.rings.get c).next →
          asks (t.by b).port = asks (s.by b).port ++
            (wrLines [(true, at_, r.bytes)]).map (fun x => .wr x.1 (farOf s c true ⟨true, at_, 16⟩) c x.2.1 x.2.2) ++ [.flush 0 (.trace c) 0])

/-- A change of the freeze condition takes effect at the second CLK_AON edge after it. While the counters are frozen none of them counts;
otherwise, in every fc, the block counts itself busy when an engine is busy or stalled, each bay when its Truss or drain path holds a granted
operation, and each selectable counter what its configuration names; a completion counts as an operation. A halt request stops the block
when no lock window is open, 8 fc after it or in the fc in which the last window closes; HALT_OUT follows; after a resume every operation has as
many running fc ahead as it had at the halt (R163, R169, R282, R283, R285, R294, R295).
Completes: FREEZE, COUNTER_FREEZE, DBG_HALT, HALTED, RESUME.
The model's choices, by log entry: times, 2; due times, 20. -/
def Obligations.FreezeAndHalt : Prop :=
  ∀ s : State,
    (∀ level, ∃ t, exec (.freeze (.pin level)) s = .next t ∧ t.cnt.pin = level ∧ t.cnt.frozen = s.cnt.frozen ∧
      t.cnt.pending = (if freezeReq t = freezeReq s then s.cnt.pending else s.cnt.pending ++ [((s.clk / 400 + 2) * 400, freezeReq t)]) ∧
      t.ctx = s.ctx ∧ SameMemories s t) ∧
    (∀ (a : Access) (v : Word), FwAccess s a → ∃ t, exec (.freeze (.reg a v)) s = .next t ∧ Acked t ∧ t.cnt.freeze = v.getLsbD 0 ∧
      t.cnt.pinEn = v.getLsbD 1 ∧ t.ctx = s.ctx ∧ SameMemories s t ∧
      t.cnt.pending = (if freezeReq t = freezeReq s then s.cnt.pending else s.cnt.pending ++ [((t.clk / 400 + 2) * 400, freezeReq t)])) ∧
    (∀ d f l, s.cnt.pending = (d, f) :: l → ∃ t, exec .counterFreeze s = .next t ∧ (t.cnt.frozen, t.cnt.pending) = edgeChanges d f l ∧
      t.clk = max s.clk d ∧ t.ctx = s.ctx ∧ t.ops = s.ops ∧ SameMemories s t ∧ SameSetup s t) ∧
    (∀ level, ∃ t, exec (.dbgHalt (.pin level)) s = .next t ∧ t.dbg.hin = level ∧ t.dbg.halted = s.dbg.halted ∧ t.ctx = s.ctx ∧
      t.ops = s.ops ∧ (haltReq s = false → haltReq t = true → t.dbg.reqAt = some s.clk)) ∧
    (∀ (a : Access) (v : Word), FwAccess s a → s.fastOn = true → ∃ t, exec (.dbgHalt (.reg a v)) s = .next t ∧ Acked t ∧
      t.dbg.halt = v.getLsbD 0 ∧ t.dbg.force = v.getLsbD 2 ∧ t.dbg.hinEn = v.getLsbD 3 ∧ t.dbg.houtEn = v.getLsbD 4 ∧ t.ctx = s.ctx) ∧
    (mayHalt s = true → ∃ t, exec .halted s = .next t ∧ t.dbg.halted = true ∧ globalStall t = 11 ∧
      t.clk = max s.clk (haltDue s) ∧ (s.dbg.reqWin = false → haltDue s = s.dbg.reqAt.getD s.clk + 8 * fcLen s) ∧
      haltOut t = s.dbg.houtEn ∧ t.ctx = s.ctx ∧ (∀ o ∈ s.ops, o.x ≠ .flowing → (∀ h, o.x ≠ .recvFlow h) → o ∈ t.ops) ∧
      SameOps s t ∧ SameMemories s t ∧ SameSetup s t) ∧
    (s.dbg.halted = true → haltReq s = false → s.dbg.snapBusy = false → ∃ t, exec .resume s = .next t ∧ t.dbg.halted = false ∧ haltOut t = false ∧ t.clk = s.clk ∧
      t.ops.map (·.tArr) = s.ops.map (fun o => o.tArr + (s.clk - max s.dbg.haltAt o.tArr)) ∧
      t.ops.map (·.tDue) = s.ops.map (fun o => if o.stage ≠ .granted ∨ o.tDue ≤ workTime s then o.tDue
        else fcAfter s s.clk (runsTo s o.tDue - runsTo s (workTime s))) ∧ SameMemories s t ∧ SameSetup s t) ∧
    (∀ u k k8, u = noteStalls s → fcPassing u (s.clk + fcLen s) = (k, k8) → s.pending = [] → ∃ t, step s = .next t ∧
      if s.cnt.frozen = true ∨ s.fastOn = false then
        t.cnt = s.cnt ∧ ∀ b, (t.by b).busyCyc = (s.by b).busyCyc ∧ (t.by b).opsRet = (s.by b).opsRet ∧ (t.by b).sel = (s.by b).sel
      else
        t.cnt.busy = s.cnt.busy + (if ((List.range 15).any fun e => (engineState u e).1.isSome && engineClocked u e) = true then BitVec.ofNat 64 k else 0) ∧
        (∀ b, (t.by b).busyCyc = (s.by b).busyCyc +
          (if ((s.by b).trussOn = true ∨ (s.by b).drainOn = true) ∧ (s.by b).pstate = .running then BitVec.ofNat 64 k else 0)) ∧
        (∀ i, (t.cnt.gsel.get i).cnt = (s.cnt.gsel.get i).cnt + BitVec.ofNat 64 (selCount u none k k8 (s.cnt.gsel.get i).cfg)) ∧
        ∀ b i, ((t.by b).sel.get i).cnt = ((s.by b).sel.get i).cnt + BitVec.ofNat 64 (selCount u (some b) k k8 ((s.by b).sel.get i).cfg)) ∧
    (∀ (c : Ctx) (q : QSel) (w : Inst), Ready s c q 0x20 w → ∃ t, exec (.mark c q) s = .next t ∧
      t.cnt.ops = s.cnt.ops + (if s.cnt.frozen then 0 else 1))

/-- A snapshot starts in a halted block that is not taking one. The image is the selected parts as they stand, in their order; where no
window of TM with WR covers it, or no bay is in service, ERR is set and nothing is copied. At its end, 1 GB/s after its start, the image has
been posted on the port of the lowest bay in service, with a flush behind it. A whole scan changes nothing, a part of one leaves its domain
unusable until a reset; a bay out of service is power-gated when its scan ends (R205, R241, R296; the port and the open contents by the
model's choice, log entry 18; what a part of a scan leaves, log entry 19).
Completes: SNAPSHOT_START, SNAPSHOT_DONE, SCAN_OUT. -/
def Obligations.SnapshotAndScan : Prop :=
  ∀ s : State,
    (∀ (a : Access) (v : Word) (u : State), FwAccess s a → u = { atBc s with dbg := { s.dbg with snapSel := snapSelOf s v.toNat } } →
      if s.dbg.halted = true ∧ s.dbg.snapBusy = false then ∃ t, exec (.snapshotStart a v) s = .next t ∧ Acked t ∧ t.dbg.snapBusy = true ∧
        t.dbg.snapSel = snapSelOf s v.toNat ∧ t.dbg.snapAt = u.clk ∧
        (t.dbg.snapErr = true ↔ rangeOk s tm true ⟨true, snapAddr u, snapBytes u⟩ = false ∨ s.lowBay = none) ∧
        t.dbg.image = (if t.dbg.snapErr then [] else snapImage u) ∧ t.ctx = s.ctx ∧ SameMemories s t
      else ∃ t, exec (.snapshotStart a v) s = .next t ∧ Refused s t) ∧
    (∀ e, s.dbg.snapBusy = true → ∃ t, exec (.snapshotDone e) s = .next t ∧ t.dbg.snapBusy = false ∧ t.dbg.snapErr = (s.dbg.snapErr || e) ∧
      t.clk = max s.clk (s.dbg.snapAt + 20 * snapBytes s) ∧ t.ctx = s.ctx ∧ t.ops = s.ops ∧ SameMemories s t ∧ SameSetup s t ∧
      ∀ b ls, s.lowBay = some b → ls = wrLines (s.dbg.image.map fun p => (true, p.addr, p.bytes)) →
        asks (t.by b).port = asks (s.by b).port ++
          ls.map (fun x => .wr x.1 (farOf s tm true ⟨true, snapAddr s, snapBytes s⟩) tm x.2.1 x.2.2) ++
          if ls.isEmpty then [] else [.flush 0 .snapshot 0]) ∧
    (∀ b, s.present b = true → s.dbg.halted = true → (s.by b).oos = false → exec (.scanOut (.bay b) true) s = .next s ∧
      ∃ t, exec (.scanOut (.bay b) false) s = .next t ∧ (t.by b).scanned = true ∧ (∀ d, bayOpen d t b = false) ∧ t.ctx = s.ctx ∧ SameMemories s t) ∧
    (∀ b whole, s.present b = true → (s.by b).oos = true → (s.by b).brst = false →
      ∃ t, exec (.scanOut (.bay b) whole) s = .next t ∧ (t.by b).pstate = .powerGated ∧ (whole = false → (t.by b).scanned = true) ∧
        t.ctx = s.ctx ∧ t.ops = s.ops ∧ SameMemories s t ∧ SameSetup s t) ∧
    (s.dbg.halted = true → exec (.scanOut .common true) s = .next s ∧
      ∃ t, exec (.scanOut .common false) s = .next t ∧ (∀ d b, bayOpen d t b = false) ∧ t.ctx = s.ctx ∧ SameMemories s t)

/-! ### Registers -/

namespace Sys2Proof.Claims

/-- A register that is always on, or a shadow whose domain is awake. -/
def liveReg (s : State) (n : Nat) : Bool :=
  match regKind s n with
  | some (.shadow d _) => awake s d
  | _ => true

end Sys2Proof.Claims

/-- A read that its tag may make answers the word latched for it, and uses that latch up, or else the register's value: the live one of an
always-on register, the shadow of any other, with its age; a low half of a pair latches the high half of the same moment. Any other read is
ERR. A read clears exactly the fields that a read clears, from the value it returned: at once, or, while the register's domain sleeps, in the
shadow and as a request that waits; a debug read clears and latches nothing. A shadow of a clock that runs takes the value of its domain,
both halves of a pair together. The interrupt lines follow BLK_IRQ and IRQ_STAT (R216, R217, R219, R276, R297, R305, R309, R315).
Completes: SHADOW_REFRESH, REGISTER_READ_CLEAR, PAIR_LOW_READ. -/
def Obligations.RegisterReads : Prop :=
  ∀ s : State,
    (∀ (a : Access) (n : BitVec 16) (i : Instr) (u : State) (now got : Word × Nat) (part : Word), s.boot.running = true → u = atBc s →
      i = .registerReadClear a n ∨ i = .pairLowRead a n ∧ pairLow n.toNat = true →
      now = readTaken u a.tag.toNat n.toNat →
      got = (if a.dbg then now else ((s.regs.latches.find? fun x => x.1 == a.tag && x.2.1.toNat == n.toNat).map (·.2.2)).getD now) →
      part = got.1 &&& BitVec.ofNat 32 (rcMask n.toNat) →
      ∃ t, exec i s = .next t ∧ t.clk = u.clk ∧ t.ops = s.ops ∧ SameMemories s t ∧ SameSetup s t ∧
        if mayRead s a n.toNat then
          t.regs.answer = .ok got.1 ∧ (n ≠ 0x0008 → t.regs.rdAge.get a.tag.toFin = BitVec.ofNat 32 (ageWord u n.toNat got.2)) ∧
          (a.dbg = true → t.regs.latches = s.regs.latches) ∧
          (a.dbg = false → (∀ x ∈ t.regs.latches, ¬(x.1 = a.tag ∧ x.2.1 = n)) ∧
            (pairLow n.toNat = true → ∀ x ∈ t.regs.latches, x.1 = a.tag → x.2.1.toNat = n.toNat + 4 →
              x.2.2 = readTaken u a.tag.toNat (n.toNat + 4)) ∧
            (pairLow n.toNat = true → (a.tag, BitVec.ofNat 16 (n.toNat + 4), readTaken u a.tag.toNat (n.toNat + 4)) ∈ t.regs.latches)) ∧
          (a.dbg = true ∨ rcMask n.toNat = 0 → t.ctx = s.ctx ∧ t.ras = u.ras ∧ t.bay = u.bay ∧ t.trace = u.trace ∧
            t.regs.posted = s.regs.posted ∧ t.regs.shadows = s.regs.shadows) ∧
          (a.dbg = false → rcMask n.toNat ≠ 0 →
            if liveReg s n.toNat then
              regValue t a.tag.toNat n.toNat = regValue u a.tag.toNat n.toNat - part ∧ t.regs.posted = s.regs.posted
            else t.ctx = s.ctx ∧ t.bay = u.bay ∧ t.trace = u.trace ∧ postedAt t n.toNat = postedAt s n.toNat + part ∧
              ∀ x, shadowOf s n.toNat = some x → ∃ y, shadowOf t n.toNat = some y ∧ y.val = got.1 - part)
        else t.regs.answer = .err ∧ t.ctx = s.ctx ∧ t.ras = u.ras ∧ t.bay = u.bay ∧ t.trace = u.trace) ∧
    (∀ n : BitVec 16, isShadow s n.toNat = true → ∃ t x, exec (.shadowRefresh n) s = .next t ∧ shadowOf t n.toNat = some x ∧
      x.val = shadowValue s n.toNat ∧ (postedAt s n.toNat = 0 → x.val = regValue s 0 n.toNat) ∧ x.time = s.clk ∧
      (pairLow n.toNat = true → ∃ y, shadowOf t (n.toNat + 4) = some y ∧ y.val = shadowValue s (n.toNat + 4) ∧ y.time = s.clk) ∧
      t.ctx = s.ctx ∧ t.bay = s.bay ∧ t.ops = s.ops ∧ SameSetup s t) ∧
    (irqBlk s = true ↔ s.boot.intr = true ∨ s.g.foStatDone = true ∨ s.g.repDone = true ∨ s.ras.pend = true) ∧
    ∀ c, irqCtx s c = true ↔ (s.cx c).irqFault = true ∨ (s.cx c).irqEpoch = true ∨
      (s.cx c).cqIrq ≠ 0 ∧ (s.cx c).cqIrq.toNat ≤ cqUnread (s.cx c)

/-- A write that its tag may not make is ERR and changes nothing: the boot code alone writes the protection range, before LOCK, a tenant
writes only its own context and its own trace ring, and no tag an unaligned address or one above the map; PORT_TMO refuses 0 and takes any other value; a semaphore takes the
value written; the protection range is written by the boot code alone, before LOCK, and LOCK is never cleared by a write (R160, R216,
R220, R221, R308, R311).
Completes: BOOTLOCK, REGISTER_WRITE. -/
def Obligations.RegisterWrites : Prop :=
  ∀ (a : Access) (v : Word) (s : State), s.boot.running = true →
    (∀ n : BitVec 16, mayWrite s a n.toNat = false → ∃ t, exec (.registerWrite a n v) s = .next t ∧ Refused s t) ∧
    (∀ n : BitVec 16,
      (0x1000 ≤ n.toNat ∧ n.toNat < 0x1800 ∧ (a.tag ≠ 9 ∨ s.prot.lock = true)) ∨ 9 < a.tag.toNat ∨ 0x8000 ≤ n.toNat ∨ n.toNat % 4 ≠ 0 ∨
        (a.tag.toNat < 8 ∧ ¬(0x2000 + 0x400 * a.tag.toNat ≤ n.toNat ∧ n.toNat < 0x2400 + 0x400 * a.tag.toNat) ∧
          ¬(0x6000 + 0x40 * a.tag.toNat ≤ n.toNat ∧ n.toNat < 0x6040 + 0x40 * a.tag.toNat)) →
      ∃ t, exec (.registerWrite a n v) s = .next t ∧ Refused s t) ∧
    (FwAccess s a → ∃ t, exec (.registerWrite a 0x0010 v) s = .next t ∧ t.ctx = s.ctx ∧ t.ops = s.ops ∧ SameMemories s t ∧ SameSetup s t ∧
      if v.toNat % 2 ^ 24 = 0 then Refused s t else Acked t ∧ t.g.portTmo = BitVec.ofNat 24 v.toNat) ∧
    (∀ (c : Ctx) (i : Fin 16), s.fastOn = true → mayWrite s a (ctxBase c + 0x080 + 4 * i.val) = true →
      ∃ t, exec (.registerWrite a (BitVec.ofNat 16 (ctxBase c + 0x080 + 4 * i.val)) v) s = .next t ∧ Acked t ∧
        (∀ j, (t.cx c).sem.get j = if j = i then v else (s.cx c).sem.get j) ∧ (∀ d, d ≠ c → t.cx d = s.cx d) ∧ t.ops = s.ops ∧
        SameMemories s t ∧ SameSetup s t) ∧
    (∃ t, exec (.bootlock a v) s = .next t ∧ t.ctx = s.ctx ∧ t.ops = s.ops ∧ SameMemories s t ∧
      if s.prot.lock = false ∧ a.tag = 9 ∧ v.toNat ≤ 1 then Acked t ∧ t.prot = { s.prot with lock := v == 1 }
      else Refused s t)

namespace Sys2Proof.Claims

/-- A value that sets a reserved bit of a protection register, or names an absent bay (R222). -/
def BadProt (s : State) (n : Nat) (v : Word) : Prop :=
  if n = 0x1000 then 2 ≤ v.toNat
  else if n < 0x1034 then 256 ≤ v.toNat ∨ ∃ b : Bay, s.present b = false ∧ (v.getLsbD b.val = true ∨ v.getLsbD (4 + b.val) = true)
  else if n < 0x1064 then ∃ i, (10 ≤ i ∧ i < 16 ∨ 26 ≤ i ∧ i < 31) ∧ v.getLsbD i = true
  else n % 16 = 8 ∧ 256 ≤ v.toNat

end Sys2Proof.Claims

/-- A write that may reach a protection register is ERR and changes nothing when it sets a reserved bit or names an absent bay; any other
value is taken, whatever it overlaps, and reads back (R222).
Completes: REGISTER_WRITE. -/
def Obligations.ProtectionWritesAreChecked : Prop :=
  ∀ (a : Access) (n : BitVec 16) (v : Word) (s : State), s.boot.running = true → 0x1000 ≤ n.toNat → n.toNat < 0x1800 →
    mayWrite s a n.toNat = true →
    (BadProt s n.toNat v → ∃ t, exec (.registerWrite a n v) s = .next t ∧ Refused s t ∧ SameMemories s t) ∧
    (¬BadProt s n.toNat v → ∃ t, exec (.registerWrite a n v) s = .next t ∧ Acked t ∧ regValue t 9 n.toNat = v ∧
      t.ctx = s.ctx ∧ t.ops = s.ops ∧ SameMemories s t ∧ t.build = s.build)

/-! ### Reset, and what every step keeps -/

/-- The reset state: PORST_N low, phase 1, LOCK 0, no address, every context STOPPED with no feature accepted, every semaphore 0, both
round-robins behind T7, every bay power-gated, PORT_TMO 1,000 µs, an empty log, and memories in canonical form with nothing listed
(R17, R160, R206, R221, R249; the memories' zeros by the model's choice before phase 6, log entry 5). -/
def Obligations.ResetState : Prop :=
  State.reset.boot.porstN = false ∧ State.reset.boot.phase = 1 ∧ State.reset.boot.ready = false ∧ State.reset.prot.lock = false ∧
    State.reset.g.ringValid = false ∧ State.reset.g.portTmo = 1000 ∧ State.reset.g.failWin = 1000 ∧ State.reset.rrPrio = 7 ∧
    State.reset.rrMain = 7 ∧ State.reset.pending = [] ∧ State.reset.ops = [] ∧ State.reset.staging.cells = [] ∧
    (∀ c, (State.reset.cx c).mode = .stopped ∧ (State.reset.cx c).acked = false ∧ (State.reset.cx c).seq = 0 ∧
      (∀ i, (State.reset.cx c).sem.get i = 0) ∧ (State.reset.cx c).replaySh = 8) ∧
    (∀ b, (State.reset.by b).pstate = .powerGated ∧ (State.reset.by b).bank0.st = .free ∧ (State.reset.by b).bank1.st = .free ∧
      (State.reset.by b).tag = none) ∧
    (∀ i, State.reset.ras.log.get i = none) ∧ MemoriesOk State.reset

/-- Every step keeps every memory in canonical form. -/
def Obligations.StepKeepsMemories : Prop := ∀ s t : State, MemoriesOk s → step s = .next t → MemoriesOk t

/-- While LOCK is 1, no command but cold reset changes the protection set-up, and a write to a register of it is ERR; only cold reset
returns LOCK to 0; while LOCK is 0, a write of FEAT_ACK is ERR and no queue leaves STOPPED; none changes the build (R221). -/
def Obligations.StepKeepsProtection : Prop :=
  (∀ s t : State, s.prot.lock = true → s.pending.head? ≠ some .porstNAssert → step s = .next t → t.prot = s.prot ∧ t.build = s.build) ∧
  (∀ (a : Access) (n : BitVec 16) (v : Word) (s : State), s.boot.running = true → s.prot.lock = true → 0x1000 ≤ n.toNat →
    n.toNat < 0x1800 → ∃ t, exec (.registerWrite a n v) s = .next t ∧ Refused s t) ∧
  (∀ s : State, ∃ t, exec .porstNAssert s = .next t ∧ t.prot.lock = false) ∧
  (∀ (a : Access) (c : Ctx) (v : Word) (s : State), s.boot.running = true → s.prot.lock = false →
    (∃ t, exec (.featAck a c v) s = .next t ∧ Refused s t) ∧
    ∃ t, exec (.registerWrite a (BitVec.ofNat 16 (ctxBase c)) v) s = .next t ∧ Refused s t) ∧
  (∀ (s t : State) (c : Ctx), s.prot.lock = false → (s.cx c).mode = .stopped → step s = .next t → (t.cx c).mode = .stopped)

/-- A bay that is out of service returns only by an IN command, which asks that its last BIST passed, or by cold reset; BIST_OK returns only
with a BIST that the bay passes, or by cold reset; a context changes its set only at a failover switch, or by cold reset
(R273, and the ERR cases of REP_CMD). -/
def Obligations.OnlyInReturnsABay : Prop :=
  ∀ (s t : State) (b : Bay), step s = .next t → s.pending.head? ≠ some .porstNAssert →
    ((s.by b).oos = true → (t.by b).oos = false → (s.by b).bistOk = true ∧
      ((∃ a k, s.pending.head? = some (.bayIn a k) ∧ bayArg k = b) ∨
        ∃ a v, s.pending.head? = some (.registerWrite a 0x1920 v) ∧ v.toNat % 8 = 3 ∧ v.toNat / 16 % 4 = b.val)) ∧
    ((s.by b).bistOk = false → (t.by b).bistOk = true →
      (∃ x us, s.pending.head? = some (.bayResetDone b x us) ∧ x.pass = true) ∨
        ∃ l us x, s.pending.head? = some (.bist l none us) ∧ l[b.val]? = some x ∧ x.pass = true) ∧
    ∀ c, (t.cx c).alt ≠ (s.cx c).alt → s.pending.head? = some .failoverSwitch
end

