-- ==== Sys2Proof/Laws/Memory.lean ====
section
/-! SUPPORT. A memory keeps its canonical form under every operation; a read after a write. -/

namespace Sys2Proof.Machine

open Sys2Proof

/-- What the canonical form says of the cells alone, for the byte `u a` that an unlisted address `a` reads as. -/
def CellsOk (u : Nat → Byte) (l : List Host.Cell) : Prop :=
  l.Pairwise (fun x y => x.1 < y.1) ∧ ∀ c ∈ l, c.2 ≠ u c.1

theorem Mem.wf_iff (m : Mem) : m.wf ↔ CellsOk m.bgByte m.cells := Iff.rfl

theorem cellsSet_mem {l : List Host.Cell} {a : Nat} {x : Option Byte} {c : Host.Cell} (h : c ∈ cellsSet l a x) :
    (c.1 = a ∧ x = some c.2) ∨ c ∈ l := by
  induction l with
  | nil =>
    simp only [cellsSet, Option.mem_toList, Option.map_eq_some_iff] at h
    obtain ⟨v, rfl, rfl⟩ := h
    exact .inl ⟨rfl, rfl⟩
  | cons d l ih =>
    obtain ⟨b, w⟩ := d
    simp only [cellsSet] at h
    split at h
    · rcases List.mem_append.1 h with h | h
      · simp only [Option.mem_toList, Option.map_eq_some_iff] at h
        obtain ⟨v, rfl, rfl⟩ := h
        exact .inl ⟨rfl, rfl⟩
      · exact .inr h
    · split at h
      · rcases List.mem_append.1 h with h | h
        · simp only [Option.mem_toList, Option.map_eq_some_iff] at h
          obtain ⟨v, rfl, rfl⟩ := h
          exact .inl ⟨rfl, rfl⟩
        · exact .inr (List.mem_cons_of_mem _ h)
      · rcases List.mem_cons.1 h with h | h
        · exact .inr (h ▸ List.mem_cons_self)
        · exact (ih h).imp_right (List.mem_cons_of_mem _)

theorem cellsSet_pairwise {l : List Host.Cell} (a : Nat) (x : Option Byte)
    (h : l.Pairwise (fun y z => y.1 < z.1)) : (cellsSet l a x).Pairwise (fun y z => y.1 < z.1) := by
  induction l with
  | nil => cases x <;> simp [cellsSet]
  | cons d l ih =>
    obtain ⟨b, w⟩ := d
    have hb : ∀ e ∈ l, b < e.1 := fun e he => List.rel_of_pairwise_cons h he
    simp only [cellsSet]
    split
    · next hab =>
      cases x with
      | none => simpa using h
      | some v =>
        refine List.pairwise_cons.2 ⟨fun e he => ?_, h⟩
        rcases List.mem_cons.1 he with rfl | he
        · exact hab
        · exact Nat.lt_trans hab (hb e he)
    · split
      · next hab =>
        subst hab
        cases x with
        | none => exact (List.pairwise_cons.1 h).2
        | some v => exact List.pairwise_cons.2 ⟨hb, (List.pairwise_cons.1 h).2⟩
      · refine List.pairwise_cons.2 ⟨fun e he => ?_, ih (List.pairwise_cons.1 h).2⟩
        rcases cellsSet_mem he with ⟨e1, _⟩ | he
        · rw [e1]; show b < a; omega
        · exact hb e he

/-- Writing a byte keeps the canonical form. -/
theorem Mem.write_wf {m : Mem} (a : Nat) (v : Byte) (h : m.wf) : (m.write a v).wf := by
  refine ⟨cellsSet_pairwise _ _ h.1, fun c hc => ?_⟩
  rcases cellsSet_mem hc with ⟨h1, h2⟩ | hc
  · split at h2
    · cases h2
    · next hv => cases h2; rw [h1]; exact hv
  · exact h.2 c hc

@[simp] theorem Mem.write_bg (m : Mem) (a : Nat) (v : Byte) : (m.write a v).bg = m.bg := rfl

theorem Mem.writes_wf (l : List (Nat × Byte)) {m : Mem} (h : m.wf) : (m.writes l).wf := by
  induction l generalizing m with
  | nil => exact h
  | cons x l ih => exact ih (Mem.write_wf _ _ h)

theorem Mem.writeN_wf (a : Nat) (l : List Byte) {m : Mem} (h : m.wf) : (m.writeN a l).wf := Mem.writes_wf _ h

/-- Dropping cells keeps the canonical form. -/
theorem Mem.filter_wf (p : Host.Cell → Bool) {m : Mem} (h : m.wf) :
    Mem.wf { m with cells := m.cells.filter p } :=
  ⟨h.1.filter _, fun c hc => h.2 c (List.mem_filter.1 hc).1⟩

/-- Zeroing a range keeps the canonical form. -/
theorem Mem.zero_wf (a n : Nat) {m : Mem} (h : m.wf) : (m.zero a n).wf := by
  unfold Mem.zero
  split
  · exact Mem.filter_wf _ h
  · exact Mem.writes_wf _ h

/-- A memory with nothing listed is canonical. -/
theorem Mem.nil_wf (k : Option Nat) : Mem.wf ⟨[], k⟩ := ⟨List.Pairwise.nil, fun _ h => by cases h⟩

theorem foldl_writeN_wf (ws : List (Nat × List Byte)) {m : Mem} (h : m.wf) :
    (ws.foldl (fun m w => m.writeN w.1 w.2) m).wf := by
  induction ws generalizing m with
  | nil => exact h
  | cons w ws ih => exact ih (Mem.writeN_wf _ _ h)

theorem cellsGet_set (l : List Host.Cell) (a b : Nat) (x : Option Byte) (h : l.Pairwise (fun y z => y.1 < z.1)) :
    cellsGet (cellsSet l a x) b = if b = a then x else cellsGet l b := by
  induction l with
  | nil =>
    cases x with
    | none => simp [cellsSet, cellsGet]
    | some v =>
      by_cases e : b = a
      · simp [cellsSet, cellsGet, e]
      · simp [cellsSet, cellsGet, e]
  | cons d l ih =>
    obtain ⟨k, w⟩ := d
    have hp := List.pairwise_cons.1 h
    have low : ∀ m, m ≤ k → cellsGet l m = none := by
      intro m hm
      cases l with
      | nil => rfl
      | cons e l =>
        have := hp.1 e List.mem_cons_self
        have h1 : m ≠ e.1 := by omega
        have h2 : m < e.1 := by omega
        simp [cellsGet, h1, h2]
    have ih := ih hp.2
    simp only [cellsSet]
    split
    · next hak =>
      cases x with
      | none =>
        by_cases e : b = a
        · subst e
          simp [cellsGet, Nat.ne_of_lt hak, hak]
        · simp [e]
      | some v =>
        by_cases e : b = a
        · simp [cellsGet, e]
        · by_cases lt : b < a
          · simp [cellsGet, e, lt, show b ≠ k by omega, show b < k by omega]
          · simp [cellsGet, e, lt]
    · split
      · next hak =>
        subst hak
        cases x with
        | none =>
          by_cases e : b = a
          · subst e; simpa using low b (Nat.le_refl _)
          · by_cases lt : b < a
            · simp [cellsGet, e, lt, low b (by omega)]
            · simp [cellsGet, e, lt]
        | some v => by_cases e : b = a <;> simp [cellsGet, e]
      · by_cases e : b = k
        · subst e; simp [cellsGet, show b ≠ a by omega]
        · by_cases lt : b < k
          · simp [cellsGet, e, lt, show b ≠ a by omega]
          · simp [cellsGet, e, lt, ih]

/-- A read after a write gives the byte written; every other address reads as before. -/
theorem Mem.read_write {m : Mem} (h : m.wf) (a b : Nat) (v : Byte) :
    (m.write a v).read b = if b = a then v else m.read b := by
  have hb : (m.write a v).bgByte = m.bgByte := rfl
  simp only [Mem.read, hb]
  simp only [Mem.write, cellsGet_set _ _ _ _ h.1]
  by_cases e : b = a
  · subst e
    by_cases hv : v = m.bgByte b <;> simp [hv]
  · simp [e]

/-- Bytes outside a list of writes read as before. -/
theorem Mem.read_writes_ne (l : List (Nat × Byte)) {m : Mem} (h : m.wf) (b : Nat) (hb : ∀ x ∈ l, x.1 ≠ b) :
    (m.writes l).read b = m.read b := by
  induction l generalizing m with
  | nil => rfl
  | cons x l ih =>
    have h1 := ih (Mem.write_wf x.1 x.2 h) (fun y hy => hb y (List.mem_cons_of_mem _ hy))
    have h2 := Mem.read_write h x.1 b x.2
    rw [if_neg (fun e => hb x List.mem_cons_self e.symm)] at h2
    exact h1.trans h2

/-- Bytes outside a contiguous write read as before. -/
theorem Mem.read_writeN_ne (a : Nat) (l : List Byte) {m : Mem} (h : m.wf) (b : Nat) (hb : b < a ∨ a + l.length ≤ b) :
    (m.writeN a l).read b = m.read b := by
  refine Mem.read_writes_ne _ h b fun x hx => ?_
  obtain ⟨y, hy, rfl⟩ := List.mem_map.1 hx
  have := List.snd_lt_of_mem_zipIdx hy
  show a + y.2 ≠ b
  omega

/-- Zeroed addresses read 0, the others as before. -/
theorem Mem.read_zero_bg {m : Mem} (hm : m.bg = none) (h : m.wf) (a n b : Nat) :
    (m.zero a n).read b = if a ≤ b ∧ b < a + n then 0 else m.read b := by
  have key : ∀ (l : List Host.Cell), l.Pairwise (fun y z => y.1 < z.1) →
      cellsGet (l.filter fun c => c.1 < a || a + n ≤ c.1) b = if a ≤ b ∧ b < a + n then none else cellsGet l b := by
    intro l hl
    induction l with
    | nil => simp [cellsGet]
    | cons d l ih =>
      obtain ⟨k, w⟩ := d
      have hp := List.pairwise_cons.1 hl
      have ih := ih hp.2
      by_cases hk : k < a ∨ a + n ≤ k
      · rw [List.filter_cons_of_pos (by simpa using hk)]
        simp only [cellsGet, ih]
        by_cases e : b = k
        · subst e; simp; omega
        · by_cases lt : b < k <;> simp [e, lt]
      · rw [List.filter_cons_of_neg (by simpa using hk), ih]
        by_cases hb : a ≤ b ∧ b < a + n
        · simp [hb]
        · have e : b ≠ k := by omega
          simp only [hb, if_false, cellsGet, e]
          by_cases lt : b < k
          · rw [if_pos lt]
            cases l with
            | nil => rfl
            | cons e l =>
              have := hp.1 e List.mem_cons_self
              have h1 : b ≠ e.1 := by omega
              have h2 : b < e.1 := by omega
              simp [cellsGet, h1, h2]
          · rw [if_neg lt]
  unfold Mem.zero
  rw [hm]
  simp only [Mem.read, Mem.bgByte, hm, key _ h.1]
  split <;> simp

end Sys2Proof.Machine
end

