-- ==== Sys2Proof/Laws/State.lean ====
section
/-! SUPPORT. One lemma per field per update of the state, and what the parts of an updated state are. -/

namespace Sys2Proof.Machine

open Sys2Proof

variable (s : State) (c : Ctx) (b : Bay) (q : BitVec 8) (f : CtxState → CtxState) (g : BayState → BayState) (h : Op → Op) (n : Nat) (o : Op)

/-! ### modCtx -/

@[simp] theorem modCtx_build : (s.modCtx c f).build = s.build := rfl
@[simp] theorem modCtx_clk : (s.modCtx c f).clk = s.clk := rfl
@[simp] theorem modCtx_holdI : (s.modCtx c f).holdI = s.holdI := rfl
@[simp] theorem modCtx_holdU : (s.modCtx c f).holdU = s.holdU := rfl
@[simp] theorem modCtx_restart : (s.modCtx c f).restart = s.restart := rfl
@[simp] theorem modCtx_fastOn : (s.modCtx c f).fastOn = s.fastOn := rfl
@[simp] theorem modCtx_fastReq : (s.modCtx c f).fastReq = s.fastReq := rfl
@[simp] theorem modCtx_fastGo : (s.modCtx c f).fastGo = s.fastGo := rfl
@[simp] theorem modCtx_fastAt : (s.modCtx c f).fastAt = s.fastAt := rfl
@[simp] theorem modCtx_lastWake : (s.modCtx c f).lastWake = s.lastWake := rfl
@[simp] theorem modCtx_g : (s.modCtx c f).g = s.g := rfl
@[simp] theorem modCtx_boot : (s.modCtx c f).boot = s.boot := rfl
@[simp] theorem modCtx_prot : (s.modCtx c f).prot = s.prot := rfl
@[simp] theorem modCtx_bay : (s.modCtx c f).bay = s.bay := rfl
@[simp] theorem modCtx_ops : (s.modCtx c f).ops = s.ops := rfl
@[simp] theorem modCtx_nextId : (s.modCtx c f).nextId = s.nextId := rfl
@[simp] theorem modCtx_rrPrio : (s.modCtx c f).rrPrio = s.rrPrio := rfl
@[simp] theorem modCtx_rrMain : (s.modCtx c f).rrMain = s.rrMain := rfl
@[simp] theorem modCtx_svu : (s.modCtx c f).svu = s.svu := rfl
@[simp] theorem modCtx_topk : (s.modCtx c f).topk = s.topk := rfl
@[simp] theorem modCtx_lehr : (s.modCtx c f).lehr = s.lehr := rfl
@[simp] theorem modCtx_staging : (s.modCtx c f).staging = s.staging := rfl
@[simp] theorem modCtx_ras : (s.modCtx c f).ras = s.ras := rfl
@[simp] theorem modCtx_xch : (s.modCtx c f).xch = s.xch := rfl
@[simp] theorem modCtx_damp : (s.modCtx c f).damp = s.damp := rfl
@[simp] theorem modCtx_cnt : (s.modCtx c f).cnt = s.cnt := rfl
@[simp] theorem modCtx_trace : (s.modCtx c f).trace = s.trace := rfl
@[simp] theorem modCtx_dbg : (s.modCtx c f).dbg = s.dbg := rfl
@[simp] theorem modCtx_regs : (s.modCtx c f).regs = s.regs := rfl
@[simp] theorem modCtx_nfree : (s.modCtx c f).nfree = s.nfree := rfl
@[simp] theorem modCtx_pending : (s.modCtx c f).pending = s.pending := rfl

/-! ### modBay -/

@[simp] theorem modBay_build : (s.modBay b g).build = s.build := rfl
@[simp] theorem modBay_clk : (s.modBay b g).clk = s.clk := rfl
@[simp] theorem modBay_holdI : (s.modBay b g).holdI = s.holdI := rfl
@[simp] theorem modBay_holdU : (s.modBay b g).holdU = s.holdU := rfl
@[simp] theorem modBay_restart : (s.modBay b g).restart = s.restart := rfl
@[simp] theorem modBay_fastOn : (s.modBay b g).fastOn = s.fastOn := rfl
@[simp] theorem modBay_fastReq : (s.modBay b g).fastReq = s.fastReq := rfl
@[simp] theorem modBay_fastGo : (s.modBay b g).fastGo = s.fastGo := rfl
@[simp] theorem modBay_fastAt : (s.modBay b g).fastAt = s.fastAt := rfl
@[simp] theorem modBay_lastWake : (s.modBay b g).lastWake = s.lastWake := rfl
@[simp] theorem modBay_g : (s.modBay b g).g = s.g := rfl
@[simp] theorem modBay_boot : (s.modBay b g).boot = s.boot := rfl
@[simp] theorem modBay_prot : (s.modBay b g).prot = s.prot := rfl
@[simp] theorem modBay_ctx : (s.modBay b g).ctx = s.ctx := rfl
@[simp] theorem modBay_ops : (s.modBay b g).ops = s.ops := rfl
@[simp] theorem modBay_nextId : (s.modBay b g).nextId = s.nextId := rfl
@[simp] theorem modBay_rrPrio : (s.modBay b g).rrPrio = s.rrPrio := rfl
@[simp] theorem modBay_rrMain : (s.modBay b g).rrMain = s.rrMain := rfl
@[simp] theorem modBay_svu : (s.modBay b g).svu = s.svu := rfl
@[simp] theorem modBay_topk : (s.modBay b g).topk = s.topk := rfl
@[simp] theorem modBay_lehr : (s.modBay b g).lehr = s.lehr := rfl
@[simp] theorem modBay_staging : (s.modBay b g).staging = s.staging := rfl
@[simp] theorem modBay_ras : (s.modBay b g).ras = s.ras := rfl
@[simp] theorem modBay_xch : (s.modBay b g).xch = s.xch := rfl
@[simp] theorem modBay_damp : (s.modBay b g).damp = s.damp := rfl
@[simp] theorem modBay_cnt : (s.modBay b g).cnt = s.cnt := rfl
@[simp] theorem modBay_trace : (s.modBay b g).trace = s.trace := rfl
@[simp] theorem modBay_dbg : (s.modBay b g).dbg = s.dbg := rfl
@[simp] theorem modBay_regs : (s.modBay b g).regs = s.regs := rfl
@[simp] theorem modBay_nfree : (s.modBay b g).nfree = s.nfree := rfl
@[simp] theorem modBay_pending : (s.modBay b g).pending = s.pending := rfl

/-! ### modOp -/

@[simp] theorem modOp_build : (s.modOp c q h).build = s.build := rfl
@[simp] theorem modOp_clk : (s.modOp c q h).clk = s.clk := rfl
@[simp] theorem modOp_holdI : (s.modOp c q h).holdI = s.holdI := rfl
@[simp] theorem modOp_holdU : (s.modOp c q h).holdU = s.holdU := rfl
@[simp] theorem modOp_restart : (s.modOp c q h).restart = s.restart := rfl
@[simp] theorem modOp_fastOn : (s.modOp c q h).fastOn = s.fastOn := rfl
@[simp] theorem modOp_fastReq : (s.modOp c q h).fastReq = s.fastReq := rfl
@[simp] theorem modOp_fastGo : (s.modOp c q h).fastGo = s.fastGo := rfl
@[simp] theorem modOp_fastAt : (s.modOp c q h).fastAt = s.fastAt := rfl
@[simp] theorem modOp_lastWake : (s.modOp c q h).lastWake = s.lastWake := rfl
@[simp] theorem modOp_g : (s.modOp c q h).g = s.g := rfl
@[simp] theorem modOp_boot : (s.modOp c q h).boot = s.boot := rfl
@[simp] theorem modOp_prot : (s.modOp c q h).prot = s.prot := rfl
@[simp] theorem modOp_ctx : (s.modOp c q h).ctx = s.ctx := rfl
@[simp] theorem modOp_bay : (s.modOp c q h).bay = s.bay := rfl
@[simp] theorem modOp_nextId : (s.modOp c q h).nextId = s.nextId := rfl
@[simp] theorem modOp_rrPrio : (s.modOp c q h).rrPrio = s.rrPrio := rfl
@[simp] theorem modOp_rrMain : (s.modOp c q h).rrMain = s.rrMain := rfl
@[simp] theorem modOp_svu : (s.modOp c q h).svu = s.svu := rfl
@[simp] theorem modOp_topk : (s.modOp c q h).topk = s.topk := rfl
@[simp] theorem modOp_lehr : (s.modOp c q h).lehr = s.lehr := rfl
@[simp] theorem modOp_staging : (s.modOp c q h).staging = s.staging := rfl
@[simp] theorem modOp_ras : (s.modOp c q h).ras = s.ras := rfl
@[simp] theorem modOp_xch : (s.modOp c q h).xch = s.xch := rfl
@[simp] theorem modOp_damp : (s.modOp c q h).damp = s.damp := rfl
@[simp] theorem modOp_cnt : (s.modOp c q h).cnt = s.cnt := rfl
@[simp] theorem modOp_trace : (s.modOp c q h).trace = s.trace := rfl
@[simp] theorem modOp_dbg : (s.modOp c q h).dbg = s.dbg := rfl
@[simp] theorem modOp_regs : (s.modOp c q h).regs = s.regs := rfl
@[simp] theorem modOp_nfree : (s.modOp c q h).nfree = s.nfree := rfl
@[simp] theorem modOp_pending : (s.modOp c q h).pending = s.pending := rfl

/-! ### modOf -/

@[simp] theorem modOf_build : (s.modOf o h).build = s.build := rfl
@[simp] theorem modOf_clk : (s.modOf o h).clk = s.clk := rfl
@[simp] theorem modOf_holdI : (s.modOf o h).holdI = s.holdI := rfl
@[simp] theorem modOf_holdU : (s.modOf o h).holdU = s.holdU := rfl
@[simp] theorem modOf_restart : (s.modOf o h).restart = s.restart := rfl
@[simp] theorem modOf_fastOn : (s.modOf o h).fastOn = s.fastOn := rfl
@[simp] theorem modOf_fastReq : (s.modOf o h).fastReq = s.fastReq := rfl
@[simp] theorem modOf_fastGo : (s.modOf o h).fastGo = s.fastGo := rfl
@[simp] theorem modOf_fastAt : (s.modOf o h).fastAt = s.fastAt := rfl
@[simp] theorem modOf_lastWake : (s.modOf o h).lastWake = s.lastWake := rfl
@[simp] theorem modOf_g : (s.modOf o h).g = s.g := rfl
@[simp] theorem modOf_boot : (s.modOf o h).boot = s.boot := rfl
@[simp] theorem modOf_prot : (s.modOf o h).prot = s.prot := rfl
@[simp] theorem modOf_ctx : (s.modOf o h).ctx = s.ctx := rfl
@[simp] theorem modOf_bay : (s.modOf o h).bay = s.bay := rfl
@[simp] theorem modOf_nextId : (s.modOf o h).nextId = s.nextId := rfl
@[simp] theorem modOf_rrPrio : (s.modOf o h).rrPrio = s.rrPrio := rfl
@[simp] theorem modOf_rrMain : (s.modOf o h).rrMain = s.rrMain := rfl
@[simp] theorem modOf_svu : (s.modOf o h).svu = s.svu := rfl
@[simp] theorem modOf_topk : (s.modOf o h).topk = s.topk := rfl
@[simp] theorem modOf_lehr : (s.modOf o h).lehr = s.lehr := rfl
@[simp] theorem modOf_staging : (s.modOf o h).staging = s.staging := rfl
@[simp] theorem modOf_ras : (s.modOf o h).ras = s.ras := rfl
@[simp] theorem modOf_xch : (s.modOf o h).xch = s.xch := rfl
@[simp] theorem modOf_damp : (s.modOf o h).damp = s.damp := rfl
@[simp] theorem modOf_cnt : (s.modOf o h).cnt = s.cnt := rfl
@[simp] theorem modOf_trace : (s.modOf o h).trace = s.trace := rfl
@[simp] theorem modOf_dbg : (s.modOf o h).dbg = s.dbg := rfl
@[simp] theorem modOf_regs : (s.modOf o h).regs = s.regs := rfl
@[simp] theorem modOf_nfree : (s.modOf o h).nfree = s.nfree := rfl
@[simp] theorem modOf_pending : (s.modOf o h).pending = s.pending := rfl

/-! ### dropOp -/

@[simp] theorem dropOp_build : (s.dropOp c q).build = s.build := rfl
@[simp] theorem dropOp_clk : (s.dropOp c q).clk = s.clk := rfl
@[simp] theorem dropOp_holdI : (s.dropOp c q).holdI = s.holdI := rfl
@[simp] theorem dropOp_holdU : (s.dropOp c q).holdU = s.holdU := rfl
@[simp] theorem dropOp_restart : (s.dropOp c q).restart = s.restart := rfl
@[simp] theorem dropOp_fastOn : (s.dropOp c q).fastOn = s.fastOn := rfl
@[simp] theorem dropOp_fastReq : (s.dropOp c q).fastReq = s.fastReq := rfl
@[simp] theorem dropOp_fastGo : (s.dropOp c q).fastGo = s.fastGo := rfl
@[simp] theorem dropOp_fastAt : (s.dropOp c q).fastAt = s.fastAt := rfl
@[simp] theorem dropOp_lastWake : (s.dropOp c q).lastWake = s.lastWake := rfl
@[simp] theorem dropOp_g : (s.dropOp c q).g = s.g := rfl
@[simp] theorem dropOp_boot : (s.dropOp c q).boot = s.boot := rfl
@[simp] theorem dropOp_prot : (s.dropOp c q).prot = s.prot := rfl
@[simp] theorem dropOp_ctx : (s.dropOp c q).ctx = s.ctx := rfl
@[simp] theorem dropOp_bay : (s.dropOp c q).bay = s.bay := rfl
@[simp] theorem dropOp_nextId : (s.dropOp c q).nextId = s.nextId := rfl
@[simp] theorem dropOp_rrPrio : (s.dropOp c q).rrPrio = s.rrPrio := rfl
@[simp] theorem dropOp_rrMain : (s.dropOp c q).rrMain = s.rrMain := rfl
@[simp] theorem dropOp_svu : (s.dropOp c q).svu = s.svu := rfl
@[simp] theorem dropOp_topk : (s.dropOp c q).topk = s.topk := rfl
@[simp] theorem dropOp_lehr : (s.dropOp c q).lehr = s.lehr := rfl
@[simp] theorem dropOp_staging : (s.dropOp c q).staging = s.staging := rfl
@[simp] theorem dropOp_ras : (s.dropOp c q).ras = s.ras := rfl
@[simp] theorem dropOp_xch : (s.dropOp c q).xch = s.xch := rfl
@[simp] theorem dropOp_damp : (s.dropOp c q).damp = s.damp := rfl
@[simp] theorem dropOp_cnt : (s.dropOp c q).cnt = s.cnt := rfl
@[simp] theorem dropOp_trace : (s.dropOp c q).trace = s.trace := rfl
@[simp] theorem dropOp_dbg : (s.dropOp c q).dbg = s.dbg := rfl
@[simp] theorem dropOp_regs : (s.dropOp c q).regs = s.regs := rfl
@[simp] theorem dropOp_nfree : (s.dropOp c q).nfree = s.nfree := rfl
@[simp] theorem dropOp_pending : (s.dropOp c q).pending = s.pending := rfl

/-! ### useFree -/

@[simp] theorem useFree_build : (useFree n s).build = s.build := rfl
@[simp] theorem useFree_clk : (useFree n s).clk = s.clk := rfl
@[simp] theorem useFree_holdI : (useFree n s).holdI = s.holdI := rfl
@[simp] theorem useFree_holdU : (useFree n s).holdU = s.holdU := rfl
@[simp] theorem useFree_restart : (useFree n s).restart = s.restart := rfl
@[simp] theorem useFree_fastOn : (useFree n s).fastOn = s.fastOn := rfl
@[simp] theorem useFree_fastReq : (useFree n s).fastReq = s.fastReq := rfl
@[simp] theorem useFree_fastGo : (useFree n s).fastGo = s.fastGo := rfl
@[simp] theorem useFree_fastAt : (useFree n s).fastAt = s.fastAt := rfl
@[simp] theorem useFree_lastWake : (useFree n s).lastWake = s.lastWake := rfl
@[simp] theorem useFree_g : (useFree n s).g = s.g := rfl
@[simp] theorem useFree_boot : (useFree n s).boot = s.boot := rfl
@[simp] theorem useFree_prot : (useFree n s).prot = s.prot := rfl
@[simp] theorem useFree_ctx : (useFree n s).ctx = s.ctx := rfl
@[simp] theorem useFree_bay : (useFree n s).bay = s.bay := rfl
@[simp] theorem useFree_ops : (useFree n s).ops = s.ops := rfl
@[simp] theorem useFree_nextId : (useFree n s).nextId = s.nextId := rfl
@[simp] theorem useFree_rrPrio : (useFree n s).rrPrio = s.rrPrio := rfl
@[simp] theorem useFree_rrMain : (useFree n s).rrMain = s.rrMain := rfl
@[simp] theorem useFree_svu : (useFree n s).svu = s.svu := rfl
@[simp] theorem useFree_topk : (useFree n s).topk = s.topk := rfl
@[simp] theorem useFree_lehr : (useFree n s).lehr = s.lehr := rfl
@[simp] theorem useFree_staging : (useFree n s).staging = s.staging := rfl
@[simp] theorem useFree_ras : (useFree n s).ras = s.ras := rfl
@[simp] theorem useFree_xch : (useFree n s).xch = s.xch := rfl
@[simp] theorem useFree_damp : (useFree n s).damp = s.damp := rfl
@[simp] theorem useFree_cnt : (useFree n s).cnt = s.cnt := rfl
@[simp] theorem useFree_trace : (useFree n s).trace = s.trace := rfl
@[simp] theorem useFree_dbg : (useFree n s).dbg = s.dbg := rfl
@[simp] theorem useFree_regs : (useFree n s).regs = s.regs := rfl
@[simp] theorem useFree_pending : (useFree n s).pending = s.pending := rfl

/-! ### Parts -/

theorem get_set {α : Type} {k : Nat} (v : Vector α k) (i j : Fin k) (x : α) :
    (v.set i.1 x i.2).get j = if i = j then x else v.get j := by
  show (v.set i.1 x i.2)[j.1] = if i = j then x else v[j.1]
  rw [Vector.getElem_set]
  simp [Fin.ext_iff]

@[simp] theorem modCtx_cx : (s.modCtx c f).cx c = f (s.cx c) := by
  simp [State.cx, State.modCtx, get_set]

theorem modCtx_cx_ne {d : Ctx} (hd : d ≠ c) : (s.modCtx c f).cx d = s.cx d := by
  simp [State.cx, State.modCtx, get_set, Ne.symm hd]

@[simp] theorem modBay_by : (s.modBay b g).by b = g (s.by b) := by
  simp [State.by, State.modBay, get_set]

theorem modBay_by_ne {d : Bay} (hd : d ≠ b) : (s.modBay b g).by d = s.by d := by
  simp [State.by, State.modBay, get_set, Ne.symm hd]

@[simp] theorem modBay_cx (d : Ctx) : (s.modBay b g).cx d = s.cx d := rfl

@[simp] theorem modCtx_by (d : Bay) : (s.modCtx c f).by d = s.by d := rfl

@[simp] theorem modOp_cx (d : Ctx) : (s.modOp c q h).cx d = s.cx d := rfl

@[simp] theorem modOp_by (d : Bay) : (s.modOp c q h).by d = s.by d := rfl

@[simp] theorem dropOp_cx (d : Ctx) : (s.dropOp c q).cx d = s.cx d := rfl

@[simp] theorem dropOp_by (d : Bay) : (s.dropOp c q).by d = s.by d := rfl

theorem modCtx_cx_cases (d : Ctx) : (s.modCtx c f).cx d = if d = c then f (s.cx c) else s.cx d := by
  split
  · next e => subst e; simp
  · next e => exact modCtx_cx_ne s c f e

theorem modBay_by_cases (d : Bay) : (s.modBay b g).by d = if d = b then g (s.by b) else s.by d := by
  split
  · next e => subst e; simp
  · next e => exact modBay_by_ne s b g e

end Sys2Proof.Machine
end

