-- ==== Sys2Proof/Laws/Keeps.lean ====
section
/-! SUPPORT. What every shared operation leaves alone: the build, the protection set-up, the queue of commands and, but
for the writes to staging, every memory. -/

namespace Sys2Proof.Machine

open Sys2Proof

/-- Both memories of a bay are those of another. -/
def SameBanks (x y : BayState) : Prop := y.bank0.mem = x.bank0.mem ∧ y.bank1.mem = x.bank1.mem

/-- Nothing but bookkeeping differs: build, protection, queue, staging and tile banks are the same. -/
structure Keeps (s t : State) : Prop where
  build : t.build = s.build
  prot : t.prot = s.prot
  pending : t.pending = s.pending
  staging : t.staging = s.staging
  banks : ∀ b, SameBanks (s.by b) (t.by b)

/-- Build, protection and queue are the same, and canonical memories stay canonical. -/
structure Sound (s t : State) : Prop where
  build : t.build = s.build
  prot : t.prot = s.prot
  pending : t.pending = s.pending
  mem : MemoriesOk s → MemoriesOk t

theorem SameBanks.rfl' (x : BayState) : SameBanks x x := ⟨rfl, rfl⟩

theorem Keeps.refl (s : State) : Keeps s s := ⟨rfl, rfl, rfl, rfl, fun _ => ⟨rfl, rfl⟩⟩

theorem Keeps.trans {s t u : State} (h : Keeps s t) (k : Keeps t u) : Keeps s u :=
  ⟨k.build.trans h.build, k.prot.trans h.prot, k.pending.trans h.pending, k.staging.trans h.staging,
    fun b => ⟨(k.banks b).1.trans (h.banks b).1, (k.banks b).2.trans (h.banks b).2⟩⟩

theorem Sound.refl (s : State) : Sound s s := ⟨rfl, rfl, rfl, id⟩

theorem Sound.trans {s t u : State} (h : Sound s t) (k : Sound t u) : Sound s u :=
  ⟨k.build.trans h.build, k.prot.trans h.prot, k.pending.trans h.pending, k.mem ∘ h.mem⟩

theorem Keeps.sound {s t : State} (h : Keeps s t) : Sound s t :=
  ⟨h.build, h.prot, h.pending, fun m => ⟨h.staging ▸ m.1, fun b => ⟨(h.banks b).1 ▸ (m.2 b).1, (h.banks b).2 ▸ (m.2 b).2⟩⟩⟩

/-- A state that differs in other fields only. -/
theorem Keeps.of_eq {s t : State} (h1 : t.build = s.build) (h2 : t.prot = s.prot) (h3 : t.pending = s.pending)
    (h4 : t.staging = s.staging) (h5 : t.bay = s.bay) : Keeps s t :=
  ⟨h1, h2, h3, h4, fun b => by simp [State.by, h5, SameBanks]⟩

theorem Keeps.foldl {α : Type} {f : State → α → State} (h : ∀ s x, Keeps s (f s x)) (l : List α) (s : State) :
    Keeps s (l.foldl f s) := by
  induction l generalizing s with
  | nil => exact Keeps.refl s
  | cons x l ih => exact (h s x).trans (ih _)

theorem Sound.foldl {α : Type} {f : State → α → State} (h : ∀ s x, Sound s (f s x)) (l : List α) (s : State) :
    Sound s (l.foldl f s) := by
  induction l generalizing s with
  | nil => exact Sound.refl s
  | cons x l ih => exact (h s x).trans (ih _)

/-! ### Parts of the state -/

theorem modCtx_keeps (s : State) (c : Ctx) (f : CtxState → CtxState) : Keeps s (s.modCtx c f) :=
  Keeps.of_eq rfl rfl rfl rfl rfl

theorem modQueue_keeps (s : State) (c : Ctx) (q : QSel) (f : Queue → Queue) : Keeps s (s.modQueue c q f) := modCtx_keeps ..

theorem modOp_keeps (s : State) (c : Ctx) (q : BitVec 8) (f : Op → Op) : Keeps s (s.modOp c q f) :=
  Keeps.of_eq rfl rfl rfl rfl rfl

theorem dropOp_keeps (s : State) (c : Ctx) (q : BitVec 8) : Keeps s (s.dropOp c q) := Keeps.of_eq rfl rfl rfl rfl rfl

theorem useFree_keeps (n : Nat) (s : State) : Keeps s (useFree n s) := Keeps.of_eq rfl rfl rfl rfl rfl

/-- A change of a bay that keeps its memories. -/
theorem modBay_keeps (s : State) (b : Bay) {f : BayState → BayState} (h : ∀ x, SameBanks x (f x)) : Keeps s (s.modBay b f) :=
  ⟨rfl, rfl, rfl, rfl, fun d => by
    rw [modBay_by_cases]
    split
    · next e => subst e; exact h _
    · exact ⟨rfl, rfl⟩⟩

theorem modBays_keeps (s : State) (l : List Bay) {f : Bay → BayState → BayState} (h : ∀ b x, SameBanks x (f b x)) :
    Keeps s (s.modBays l f) := Keeps.foldl (fun s b => modBay_keeps s b (h b)) l s

theorem ifThen_keeps {b : Bool} {f : State → State} (h : ∀ s, Keeps s (f s)) (s : State) : Keeps s (State.ifThen b f s) := by
  cases b
  · exact Keeps.refl s
  · exact h s

/-- A change of the state of a bank that keeps its contents keeps the bay's memories. -/
theorem modBank_same {f : Bank → Bank} (h : ∀ k, (f k).mem = k.mem) (w : Bool) (x : BayState) : SameBanks x (x.modBank w f) := by
  cases w <;> simp [BayState.modBank, SameBanks, h]

theorem modBanks_same {f : Bank → Bank} (h : ∀ k, (f k).mem = k.mem) (x : BayState) : SameBanks x (x.modBanks f) := by
  simp [BayState.modBanks, SameBanks, h]

/-! ### Time, trace, log -/

theorem modBuf_keeps (s : State) (b : Option Bay) (f : TraceBuf → TraceBuf) : Keeps s (s.modBuf b f) := by
  cases b
  · exact Keeps.of_eq rfl rfl rfl rfl rfl
  · unfold State.modBuf
    dsimp only
    apply modBay_keeps
    exact fun _ => ⟨rfl, rfl⟩

theorem fireTrigger_keeps (n : Nat) (s : State) : Keeps s (fireTrigger n s) :=
  by
  unfold fireTrigger
  exact Keeps.trans (Keeps.foldl (fun s _ => modBuf_keeps s _ _) _ s) (modBuf_keeps _ _ _)

theorem emitUnit_keeps (e c : Nat) (rs : List TraceRec) (s : State) : Keeps s (emitUnit e c rs s) := by
  unfold emitUnit
  split
  · exact Keeps.refl s
  · exact (ifThen_keeps (fireTrigger_keeps _) s).trans (modBuf_keeps ..)

theorem emit_keeps (r : TraceRec) (s : State) : Keeps s (emit r s) := emitUnit_keeps ..

theorem emitOp_keeps (a b d : Nat) (o : Op) (s : State) : Keeps s (emitOp a b d o s) := by
  unfold emitOp
  split
  · exact emit_keeps ..
  · exact Keeps.refl s

theorem emitStall_keeps (a b : Nat) (o : Op) (s : State) : Keeps s (emitStall a b o s) := by
  unfold emitStall
  split
  · exact emitOp_keeps ..
  · exact Keeps.refl s

theorem endStall_keeps (o : Op) (s : State) : Keeps s (endStall o s) := by
  unfold endStall
  split
  · refine Keeps.trans ?_ (emitStall_keeps _ _ _ _)
    exact Keeps.of_eq rfl rfl rfl rfl rfl
  · exact Keeps.refl s

theorem noteStall_keeps (o : Op) (n : Nat) (s : State) : Keeps s (noteStall o n s) := by
  unfold noteStall
  dsimp only
  repeat' split
  · exact Keeps.refl s
  · exact endStall_keeps ..
  · refine (endStall_keeps o s).trans ?_
    exact Keeps.of_eq rfl rfl rfl rfl rfl

theorem noteStalls_keeps (s : State) : Keeps s (noteStalls s) := by
  unfold noteStalls
  refine Keeps.trans (Keeps.foldl (fun s o => ?_) s.ops s) (Keeps.of_eq rfl rfl rfl rfl rfl)
  split
  exacts [noteStall_keeps .., Keeps.refl s]

/-- Time passes: counters, estimate and clock only. -/
theorem passTo_keeps (t : Nat) (s : State) : Keeps s (passTo t s) := by
  refine ⟨rfl, rfl, rfl, rfl, fun b => ?_⟩
  simp only [passTo, State.by, SameBanks]
  have : ∀ (v : Vector BayState 4) (f : (i : Nat) → BayState → i < 4 → BayState), (v.mapFinIdx f).get b = f b.1 (v.get b) b.2 :=
    fun v f => by show (v.mapFinIdx f)[b.1] = f b.1 v[b.1] b.2; simp
  rw [this]
  split <;> exact ⟨rfl, rfl⟩

theorem advanceTo_keeps (t : Nat) (s : State) : Keeps s (advanceTo t s) := by
  unfold advanceTo
  split
  · exact Keeps.refl s
  · exact (noteStalls_keeps s).trans (passTo_keeps ..)

theorem tick_keeps (s : State) : Keeps s (tick s) := advanceTo_keeps ..

theorem at'_keeps (t : Nat) (s : State) : Keeps s (at' t s) := (advanceTo_keeps ..).trans (advanceTo_keeps ..)

theorem emitReplay_keeps (a : Nat) (o : Op) (s : State) : Keeps s (emitReplay a o s) := by
  unfold emitReplay
  split
  · exact emit_keeps ..
  · exact Keeps.refl s

theorem report_keeps (code : Nat) (cls : BitVec 3) (ctx typ id : Nat) (s : State) : Keeps s (report code cls ctx typ id s) := by
  unfold report
  dsimp only
  repeat' split
  all_goals first | exact Keeps.refl s | exact Keeps.of_eq rfl rfl rfl rfl rfl

theorem reportPoison_keeps (c : Ctx) (n : Nat) (s : State) : Keeps s (reportPoison c n s) := report_keeps ..

/-! ### Faults and completion -/

theorem dropWindow_keeps (c : Ctx) (s : State) : Keeps s (dropWindow c s) :=
  Keeps.of_eq rfl rfl rfl rfl rfl

theorem recordFault_keeps (c : Ctx) (code : Nat) (cls : BitVec 3) (q : QSel) (idx aux : Nat) (s : State) :
    Keeps s (recordFault c code cls q idx aux s) := (modCtx_keeps ..).trans (emit_keeps ..)

theorem ctxFault_keeps (c : Ctx) (code : Nat) (q : QSel) (idx aux : Nat) (s : State) : Keeps s (ctxFault c code q idx aux s) :=
  (recordFault_keeps ..).trans (modCtx_keeps ..)

theorem memberFault_keeps (c : Ctx) (s : State) : Keeps s (memberFault c s) := ifThen_keeps (dropWindow_keeps c) s

theorem deliver_keeps (c : Ctx) (r : Rec) (s : State) : Keeps s (deliver c r s) := Keeps.of_eq rfl rfl rfl rfl rfl

theorem forget_keeps (c : Ctx) (q : BitVec 8) (s : State) : Keeps s (forget c q s) := Keeps.of_eq rfl rfl rfl rfl rfl

theorem raiseFlags_keeps (c : Ctx) (b : Bay) (f : Flags) (s : State) : Keeps s (raiseFlags c b f s) := modCtx_keeps ..

theorem countOp_keeps (o : Op) (s : State) : Keeps s (countOp o s) := by
  unfold countOp
  split
  · exact Keeps.refl s
  · dsimp only
    refine Keeps.trans ?_ (modBays_keeps _ _ ?_)
    · exact Keeps.of_eq rfl rfl rfl rfl rfl
    · exact fun _ _ => ⟨rfl, rfl⟩

theorem complete_keeps (o : Op) (s : State) : Keeps s (complete o s) := by
  unfold complete
  split
  · exact dropOp_keeps ..
  · dsimp only
    refine Keeps.trans ?_ (ifThen_keeps (deliver_keeps _ _) _)
    refine Keeps.trans ?_ (emitOp_keeps _ _ _ _ _)
    refine Keeps.trans ?_ (ifThen_keeps (memberFault_keeps _) _)
    refine Keeps.trans ?_ (ifThen_keeps (ctxFault_keeps _ _ _ _ _) _)
    refine Keeps.trans ?_ (endStall_keeps _ _)
    exact ((dropOp_keeps s o.ctx o.seq).trans (forget_keeps ..)).trans (countOp_keeps ..)

/-- A change of every bay that keeps its memories. -/
theorem mapBays_keeps {s t : State} {f : BayState → BayState} (h : ∀ x, SameBanks x (f x)) (h1 : t.build = s.build)
    (h2 : t.prot = s.prot) (h3 : t.pending = s.pending) (h4 : t.staging = s.staging) (h5 : t.bay = s.bay.map f) : Keeps s t :=
  ⟨h1, h2, h3, h4, fun b => by
    have : (s.bay.map f).get b = f (s.bay.get b) := by show (s.bay.map f)[b.1] = f s.bay[b.1]; simp
    simp only [State.by, h5, this]
    exact h _⟩

theorem freeProducts_keeps (j : Option LehrJob) (s : State) : Keeps s (freeProducts j s) := by
  cases j
  · exact Keeps.refl s
  · exact mapBays_keeps (fun x => modBanks_same (fun k => by split <;> rfl) x) rfl rfl rfl rfl rfl

theorem releaseUnits_keeps (o : Op) (s : State) : Keeps s (releaseUnits o s) := by
  unfold releaseUnits
  dsimp only
  refine Keeps.trans ?_ (freeProducts_keeps _ _)
  refine mapBays_keeps ?_ rfl rfl rfl rfl rfl
  exact fun _ => ⟨rfl, rfl⟩

theorem modOf_keeps (s : State) (o : Op) (f : Op → Op) : Keeps s (s.modOf o f) := Keeps.of_eq rfl rfl rfl rfl rfl

theorem holdFailed_keeps (o : Op) (s : State) : Keeps s (holdFailed o s) := by
  unfold holdFailed
  dsimp only
  refine Keeps.trans ?_ (modOp_keeps ..)
  split
  · refine (releaseUnits_keeps o s).trans ?_
    exact Keeps.of_eq rfl rfl rfl rfl rfl
  · exact Keeps.refl s

theorem release_keeps (o : Op) (s : State) : Keeps s (complete o (releaseUnits o s)) :=
  (releaseUnits_keeps ..).trans (complete_keeps ..)

theorem failOp_keeps (o : Op) (code : Nat) (s : State) : Keeps s (failOp o code s) := by
  unfold failOp
  dsimp only
  split
  · exact release_keeps ..
  · exact holdFailed_keeps ..

theorem poisonFail_keeps (o : Op) (n : Nat) (s : State) : Keeps s (poisonFail o n s) :=
  (reportPoison_keeps ..).trans (failOp_keeps ..)

/-! ### Ports -/

theorem issueRd_keeps (b : Bay) (l : Nat) (far : Bool) (c : Ctx) (w : Owner) (s : State) : Keeps s (issueRd b l far c w s) := by
  unfold issueRd
  exact modBay_keeps _ _ (by intro _; exact ⟨rfl, rfl⟩)

theorem issueWrReq_keeps (b : Bay) (r : WrReq) (s : State) : Keeps s (issueWrReq b r s) := by
  unfold issueWrReq
  exact modBay_keeps _ _ (by intro _; exact ⟨rfl, rfl⟩)

theorem issueWr_keeps (b : Bay) (l : Nat) (far : Bool) (c : Ctx) (m : BitVec 64) (d : List Byte) (s : State) :
    Keeps s (issueWr b l far c m d s) := issueWrReq_keeps ..

theorem issueFlush_keeps (b : Bay) (w : Owner) (s : State) : Keeps s (issueFlush b w s) := issueWrReq_keeps ..

theorem issueAdd_keeps (b : Bay) (l : Nat) (far : Bool) (c : Ctx) (m : BitVec 16) (d : List Word) (w : Owner) (s : State) :
    Keeps s (issueAdd b l far c m d w s) := issueWrReq_keeps ..

theorem pumpPorts_keeps (b : Bay) (s : State) : Keeps s (pumpPorts b s) := by
  unfold pumpPorts
  exact modBay_keeps _ _ (by intro _; exact ⟨rfl, rfl⟩)

theorem issueLines_keeps (o : Op) (c : Ctx) (f : Nat → Bool) (p : List Bay) (rs : List Range) (s : State) :
    Keeps s (issueLines o c f p rs s) :=
  (Keeps.foldl (fun s _ => issueRd_keeps _ _ _ _ _ s) _ s).trans (modOp_keeps ..)

theorem issueReads_keeps (o : Op) (p : List Bay) (rs : List Range) (s : State) : Keeps s (issueReads o p rs s) := issueLines_keeps ..

/-- Writes to staging change staging alone, in canonical form. -/
theorem writeStaging_sound (ws : List (Nat × List Byte)) (s : State) : Sound s (writeStaging ws s) :=
  ⟨rfl, rfl, rfl, fun m => ⟨foldl_writeN_wf ws m.1, m.2⟩⟩

theorem issueWrites_sound (c : Ctx) (w : Owner) (p : List Bay) (rs : List Range) (ws : List Wr) (s : State) :
    Sound s (issueWrites c w p rs ws s).1 := by
  unfold issueWrites
  dsimp only
  refine Sound.trans ?_ (Keeps.foldl (fun s _ => issueFlush_keeps _ _ s) _ _).sound
  exact Sound.trans (writeStaging_sound _ s) (Keeps.foldl (fun s _ => issueWr_keeps _ _ _ _ _ _ s) _ _).sound

theorem awaitFlushes_keeps (o : Op) (n : Nat) (s : State) : Keeps s (awaitFlushes o n s) := by
  unfold awaitFlushes
  split
  · exact release_keeps ..
  · exact modOp_keeps ..

theorem finish_sound (o : Op) (p : List Bay) (ws : List Wr) (s : State) : Sound s (finish o p ws s) :=
  (issueWrites_sound o.ctx (.op o.ctx o.seq) p (outRanges o) ws s).trans (awaitFlushes_keeps ..).sound

/-! ### Dispatch -/

theorem faultAtCheck_keeps (c : Ctx) (q : QSel) (w : Inst) (code aux : Nat) (s : State) : Keeps s (faultAtCheck c q w code aux s) :=
  ((ifThen_keeps (memberFault_keeps c) s).trans (ifThen_keeps (reportPoison_keeps c aux) _)).trans
    ((ctxFault_keeps ..).trans (deliver_keeps ..))

theorem loopEnd_keeps (c : Ctx) (q : QSel) (l : Loop) (s : State) : Keeps s (loopEnd c q l s) := complete_keeps ..

theorem moveQueue_keeps (c : Ctx) (q : QSel) (w : Inst) (s : State) : Keeps s (moveQueue c q w s) := Keeps.of_eq rfl rfl rfl rfl rfl

theorem takeHead_keeps (c : Ctx) (q : QSel) (w : Inst) (s : State) : Keeps s (takeHead c q w s) := by
  unfold takeHead
  dsimp only
  split
  · exact (moveQueue_keeps ..).trans (loopEnd_keeps ..)
  · exact moveQueue_keeps ..

theorem enqueue_keeps (o : Op) (s : State) : Keeps s (enqueue o s) := by
  unfold enqueue
  refine Keeps.trans ?_ (emitOp_keeps _ _ _ _ _)
  exact Keeps.of_eq rfl rfl rfl rfl rfl

theorem completeNow_keeps (o : Op) (s : State) : Keeps s (completeNow o s) := (emitOp_keeps ..).trans (complete_keeps ..)

theorem noteHold_keeps (c : Ctx) (q : QSel) (w : Inst) (s : State) : Keeps s (noteHold c q w s) := modQueue_keeps ..

/-- A dispatch attempt is sound when its effect is. -/
theorem dispatch_sound (k : Nat) {f : Op → State → State} (h : ∀ o s, Sound s (f o s)) (c : Ctx) (q : QSel) (s : State) :
    Sound s (dispatch k f c q s) := by
  unfold dispatch
  split
  · exact Sound.refl s
  · split
    · exact Sound.refl s
    · split
      · exact (faultAtCheck_keeps ..).sound
      · split
        · exact Sound.refl s
        · dsimp only
          split
          · exact (faultAtCheck_keeps ..).sound
          · split
            · exact (noteHold_keeps ..).sound
            · exact (takeHead_keeps ..).sound.trans (h _ _)

/-! ### Grants -/

theorem narrow_keeps (o : Op) (s : State) : Keeps s (narrow o s) := by
  unfold narrow
  dsimp only
  repeat' split
  all_goals first | exact Keeps.refl s | exact modCtx_keeps ..

theorem noteGrant_keeps (o : Op) (s : State) : Keeps s (noteGrant o s) := by
  unfold noteGrant
  repeat' split
  all_goals exact Keeps.of_eq rfl rfl rfl rfl rfl

theorem askWake_keeps (b : Bay) (s : State) : Keeps s (askWake b s) := by
  unfold askWake
  split
  · exact Keeps.refl s
  · exact modBay_keeps _ _ (by intro _; exact ⟨rfl, rfl⟩)

theorem addLag_keeps (o : Op) (b : Bay) (k : Nat) (s : State) : Keeps s (addLag o b k s) := by
  unfold addLag
  split
  · exact Keeps.refl s
  · dsimp only
    split
    · exact modOf_keeps ..
    · refine Keeps.trans ?_ (modOf_keeps ..)
      exact modBay_keeps _ _ (by intro _; exact ⟨rfl, rfl⟩)

theorem waitLag_keeps (o : Op) (s : State) : Keeps s (waitLag o s) := by
  unfold waitLag
  split
  · exact Keeps.refl s
  · exact Keeps.foldl (fun s b => addLag_keeps ..) _ s

theorem reserve_keeps (d : Bool) (b : Bay) (o : Op) (m : BitVec 4) (s : State) : Keeps s (reserve d b o m s) := by
  unfold reserve
  dsimp only
  refine Keeps.trans (addLag_keeps ..) (Keeps.trans (modOf_keeps ..) (Keeps.trans (modBay_keeps _ _ fun x => ?_) (askWake_keeps b _)))
  cases d <;> exact ⟨rfl, rfl⟩

theorem beginBay_same (o : Op) (j : Nat) (y : BayState) : SameBanks y (beginBay o j y) := by
  unfold beginBay
  dsimp only
  split
  · unfold BayState.modBank
    split <;> exact ⟨rfl, rfl⟩
  · exact ⟨rfl, rfl⟩

theorem readReraise_keeps (o : Op) (s : State) : Keeps s (readReraise o s) := Keeps.foldl (fun _ _ => issueLines_keeps ..) _ s

theorem readRaises_keeps (o : Op) (s : State) : Keeps s (readRaises o s) := by
  unfold readRaises
  dsimp only
  split
  all_goals first | exact Keeps.refl s | exact Keeps.foldl (fun s _ => issueReads_keeps _ _ _ s) _ s

theorem readStream_keeps (o : Op) (s : State) : Keeps s (readStream o s) := by
  unfold readStream
  dsimp only
  split
  all_goals first | exact Keeps.refl s | exact issueReads_keeps ..

theorem readInputs_keeps (o : Op) (s : State) : Keeps s (readInputs o s) :=
  ((readReraise_keeps ..).trans (readRaises_keeps ..)).trans (readStream_keeps ..)

theorem noteChain_keeps (o : Op) (s : State) : Keeps s (noteChain o s) := by
  unfold noteChain
  split
  exacts [modCtx_keeps .., Keeps.refl s]

theorem startTruss_keeps (o : Op) (s : State) : Keeps s (startTruss o s) := by
  unfold startTruss
  split
  · exact failOp_keeps ..
  · dsimp only
    refine Keeps.trans ?_ (readInputs_keeps _ _)
    refine Keeps.trans ?_ (emitOp_keeps _ _ _ _ _)
    refine Keeps.trans ?_ (noteGrant_keeps _ _)
    refine Keeps.trans ?_ (noteChain_keeps _ _)
    refine Keeps.trans ?_ (Keeps.foldl (fun s (x : Bay × Nat) => modBay_keeps s x.1 (beginBay_same _ _)) _ _)
    exact modOf_keeps ..

theorem tryStart_sound {f : Op → State → State} (h : ∀ o s, Sound s (f o s)) (o : Op) (s : State) : Sound s (tryStart f o s) := by
  unfold tryStart
  dsimp only
  repeat' split
  all_goals first | exact Sound.refl s | exact (waitLag_keeps ..).sound.trans (h _ _) | exact (waitLag_keeps ..).sound

theorem startScrub_keeps (o : Op) (s : State) : Keeps s (startScrub o s) := by
  unfold startScrub
  dsimp only
  have h := Keeps.foldl (fun s b => askWake_keeps b s) (maskBays (iBays o.word)) s
  repeat' split
  · exact failOp_keeps ..
  · exact (h.trans (modOf_keeps ..)).trans (emitOp_keeps ..)
  · exact h
  · exact Keeps.refl s

end Sys2Proof.Machine
end

