-- ==== Sys2Proof/Laws/Dispatch.lean ====
section
/-! SUPPORT. What the shared operations of dispatch and completion do to contexts and operations. -/

namespace Sys2Proof.Machine

open Sys2Proof

/-! ### Trace, log and ports leave contexts and operations alone -/

theorem ifThen_eq {α : Type} (p : State → α) {b : Bool} {f : State → State} (h : ∀ s, p (f s) = p s) (s : State) :
    p (State.ifThen b f s) = p s := by cases b <;> simp [State.ifThen, h]

@[simp] theorem modBuf_ctx (s : State) (b : Option Bay) (f : TraceBuf → TraceBuf) : (s.modBuf b f).ctx = s.ctx := by
  cases b <;> rfl

@[simp] theorem modBuf_ops (s : State) (b : Option Bay) (f : TraceBuf → TraceBuf) : (s.modBuf b f).ops = s.ops := by
  cases b <;> rfl

theorem foldl_eq {α β : Type} (p : State → α) {f : State → β → State} (h : ∀ s x, p (f s x) = p s) (l : List β) (s : State) :
    p (l.foldl f s) = p s := by
  induction l generalizing s with
  | nil => rfl
  | cons x l ih => exact (ih _).trans (h s x)

@[simp] theorem fireTrigger_ctx (n : Nat) (s : State) : (fireTrigger n s).ctx = s.ctx := by
  unfold fireTrigger
  exact (modBuf_ctx _ _ _).trans (foldl_eq State.ctx (fun s x => modBuf_ctx s _ _) _ s)

@[simp] theorem fireTrigger_ops (n : Nat) (s : State) : (fireTrigger n s).ops = s.ops := by
  unfold fireTrigger
  exact (modBuf_ops _ _ _).trans (foldl_eq State.ops (fun s x => modBuf_ops s _ _) _ s)

@[simp] theorem emitUnit_ctx (e c : Nat) (rs : List TraceRec) (s : State) : (emitUnit e c rs s).ctx = s.ctx := by
  unfold emitUnit
  split
  · rfl
  · exact (modBuf_ctx _ _ _).trans (ifThen_eq State.ctx (fireTrigger_ctx _) s)

@[simp] theorem emitUnit_ops (e c : Nat) (rs : List TraceRec) (s : State) : (emitUnit e c rs s).ops = s.ops := by
  unfold emitUnit
  split
  · rfl
  · exact (modBuf_ops _ _ _).trans (ifThen_eq State.ops (fireTrigger_ops _) s)

@[simp] theorem emit_ctx (r : TraceRec) (s : State) : (emit r s).ctx = s.ctx := emitUnit_ctx ..

@[simp] theorem emit_ops (r : TraceRec) (s : State) : (emit r s).ops = s.ops := emitUnit_ops ..

@[simp] theorem emitOp_ctx (a b d : Nat) (o : Op) (s : State) : (emitOp a b d o s).ctx = s.ctx := by
  unfold emitOp; split <;> simp

@[simp] theorem emitOp_ops (a b d : Nat) (o : Op) (s : State) : (emitOp a b d o s).ops = s.ops := by
  unfold emitOp; split <;> simp

@[simp] theorem emitStall_ctx (a b : Nat) (o : Op) (s : State) : (emitStall a b o s).ctx = s.ctx := by
  unfold emitStall; split <;> simp

@[simp] theorem emitStall_ops (a b : Nat) (o : Op) (s : State) : (emitStall a b o s).ops = s.ops := by
  unfold emitStall; split <;> simp

@[simp] theorem endStall_ctx (o : Op) (s : State) : (endStall o s).ctx = s.ctx := by
  unfold endStall; split <;> simp

@[simp] theorem endStall_ops (o : Op) (s : State) : (endStall o s).ops = s.ops := by
  unfold endStall; split <;> simp

@[simp] theorem noteStall_ctx (o : Op) (n : Nat) (s : State) : (noteStall o n s).ctx = s.ctx := by
  unfold noteStall; dsimp only; repeat' split
  all_goals simp

@[simp] theorem noteStall_ops (o : Op) (n : Nat) (s : State) : (noteStall o n s).ops = s.ops := by
  unfold noteStall; dsimp only; repeat' split
  all_goals simp

@[simp] theorem noteStalls_ctx (s : State) : (noteStalls s).ctx = s.ctx :=
  foldl_eq State.ctx (fun s o => by split <;> simp) s.ops s

@[simp] theorem noteStalls_ops (s : State) : (noteStalls s).ops = s.ops :=
  foldl_eq State.ops (fun s o => by split <;> simp) s.ops s

@[simp] theorem report_ctx (code : Nat) (cls : BitVec 3) (ctx typ id : Nat) (s : State) : (report code cls ctx typ id s).ctx = s.ctx := by
  unfold report
  dsimp only
  repeat' split
  all_goals rfl

@[simp] theorem report_ops (code : Nat) (cls : BitVec 3) (ctx typ id : Nat) (s : State) : (report code cls ctx typ id s).ops = s.ops := by
  unfold report
  dsimp only
  repeat' split
  all_goals rfl

@[simp] theorem reportPoison_ctx (c : Ctx) (n : Nat) (s : State) : (reportPoison c n s).ctx = s.ctx := report_ctx ..

@[simp] theorem reportPoison_ops (c : Ctx) (n : Nat) (s : State) : (reportPoison c n s).ops = s.ops := report_ops ..

@[simp] theorem modBays_ctx (s : State) (l : List Bay) (f : Bay → BayState → BayState) : (s.modBays l f).ctx = s.ctx := by
  unfold State.modBays
  exact foldl_eq State.ctx (fun s b => modBay_ctx s b _) l s

@[simp] theorem modBays_ops (s : State) (l : List Bay) (f : Bay → BayState → BayState) : (s.modBays l f).ops = s.ops := by
  unfold State.modBays
  exact foldl_eq State.ops (fun s b => modBay_ops s b _) l s

@[simp] theorem countOp_ctx (o : Op) (s : State) : (countOp o s).ctx = s.ctx := by
  unfold countOp; split <;> simp

@[simp] theorem countOp_ops (o : Op) (s : State) : (countOp o s).ops = s.ops := by
  unfold countOp; split <;> simp

@[simp] theorem freeProducts_ctx (j : Option LehrJob) (s : State) : (freeProducts j s).ctx = s.ctx := by cases j <;> rfl

@[simp] theorem freeProducts_ops (j : Option LehrJob) (s : State) : (freeProducts j s).ops = s.ops := by cases j <;> rfl

@[simp] theorem releaseUnits_ctx (o : Op) (s : State) : (releaseUnits o s).ctx = s.ctx := freeProducts_ctx ..

@[simp] theorem releaseUnits_ops (o : Op) (s : State) : (releaseUnits o s).ops = s.ops := freeProducts_ops ..

@[simp] theorem advanceTo_ctx (t : Nat) (s : State) : (advanceTo t s).ctx = s.ctx := by
  unfold advanceTo
  split
  exacts [rfl, noteStalls_ctx s]

@[simp] theorem advanceTo_ops (t : Nat) (s : State) : (advanceTo t s).ops = s.ops := by
  unfold advanceTo
  split
  exacts [rfl, noteStalls_ops s]

@[simp] theorem at'_ctx (t : Nat) (s : State) : (at' t s).ctx = s.ctx := by simp [at']

@[simp] theorem at'_ops (t : Nat) (s : State) : (at' t s).ops = s.ops := by simp [at']

theorem advanceTo_clk (t : Nat) (s : State) : (advanceTo t s).clk = max s.clk t := by
  unfold advanceTo
  split
  · omega
  · show t = _
    omega

/-- The next time at which a stream has presented its slots is no later than the one asked about. -/
theorem nextPresented_le (s : State) (t : Nat) : nextPresented s t ≤ t := by
  have h : ∀ (l : List Op) (u : Nat), l.foldl (fun t o => if o.stage == .granted && isT o && o.rds > 0 && presents s o
      then min t (phaseEnd s o o.fc) else t) u ≤ u := fun l => by
    induction l with
    | nil => exact fun u => Nat.le_refl u
    | cons o l ih =>
      intro u
      refine Nat.le_trans (ih _) ?_
      dsimp only
      split
      exacts [Nat.min_le_left .., Nat.le_refl u]
  exact h s.ops t

/-- The later of now and the due time. -/
@[simp] theorem at'_clk (t : Nat) (s : State) : (at' t s).clk = max s.clk t := by
  have := nextPresented_le s t
  simp only [at', advanceTo_clk]
  omega

theorem cx_of_ctx {s t : State} (h : t.ctx = s.ctx) (d : Ctx) : t.cx d = s.cx d := by simp [State.cx, h]

/-! ### One context alone changes -/

/-- Contexts other than `c` are the same, no operation is new, and of `c` itself the SEQ, the semaphores, the sticky flags,
the cullet counters, the mask slots and the rough-out set are the same; its mode and its heads change only where a fault
stops its queues (R151). -/
structure Calm (c : Ctx) (s t : State) : Prop where
  others : ∀ d, d ≠ c → t.cx d = s.cx d
  ops : ∀ o ∈ t.ops, o ∈ s.ops
  seq : (t.cx c).seq = (s.cx c).seq
  sem : (t.cx c).sem = (s.cx c).sem
  sticky : (t.cx c).sticky = (s.cx c).sticky
  cullet : (t.cx c).cullet = (s.cx c).cullet
  masks : (t.cx c).masks = (s.cx c).masks
  rough : (t.cx c).rough = (s.cx c).rough
  head : ((t.cx c).mode = (s.cx c).mode ∧ ∀ q, (t.qu c q).head = (s.qu c q).head) ∨
    ((s.cx c).mode = .active ∧ (t.cx c).mode = .faulted)

theorem Calm.trans {c : Ctx} {s t u : State} (h : Calm c s t) (k : Calm c t u) : Calm c s u :=
  ⟨fun d e => (k.others d e).trans (h.others d e), fun o e => h.ops o (k.ops o e), k.seq.trans h.seq, k.sem.trans h.sem,
    k.sticky.trans h.sticky, k.cullet.trans h.cullet, k.masks.trans h.masks, k.rough.trans h.rough, by
    obtain ⟨a, b⟩ | ⟨a, b⟩ := h.head <;> obtain ⟨a', b'⟩ | ⟨a', b'⟩ := k.head
    · exact .inl ⟨a'.trans a, fun q => (b' q).trans (b q)⟩
    · exact .inr ⟨a ▸ a', b'⟩
    · exact .inr ⟨a, a'.trans b⟩
    · rw [b] at a'; cases a'⟩

theorem Calm.of_eq {c : Ctx} {s t : State} (h : t.ctx = s.ctx) (k : t.ops = s.ops) : Calm c s t := by
  have e : ∀ d, t.cx d = s.cx d := cx_of_ctx h
  exact ⟨fun d _ => e d, fun o m => k ▸ m, by rw [e], by rw [e], by rw [e], by rw [e], by rw [e], by rw [e],
    .inl ⟨by rw [e], fun q => by simp only [State.qu, e]⟩⟩

/-- A change of one context that keeps those parts. -/
theorem modCtx_calm (s : State) (c : Ctx) {f : CtxState → CtxState} (h1 : ∀ x, (f x).seq = x.seq) (h2 : ∀ x, (f x).sem = x.sem)
    (h3 : ∀ x, (f x).sticky = x.sticky) (h4 : ∀ x, (f x).cullet = x.cullet) (h5 : ∀ x, (f x).masks = x.masks)
    (h6 : ∀ x, (f x).rough = x.rough) (h7 : ∀ x, (f x).mode = x.mode) (h8 : ∀ x q, ((f x).queue q).head = (x.queue q).head) :
    Calm c s (s.modCtx c f) :=
  ⟨fun d e => modCtx_cx_ne s c f e, fun _ h => h, by simp [h1], by simp [h2], by simp [h3], by simp [h4], by simp [h5],
    by simp [h6], .inl ⟨by simp [h7], fun q => by simp [State.qu, h8]⟩⟩

theorem ifThen_calm {c : Ctx} {b : Bool} {f : State → State} (h : ∀ s, Calm c s (f s)) (s : State) :
    Calm c s (State.ifThen b f s) := by
  cases b
  · exact Calm.of_eq rfl rfl
  · exact h s

theorem dropOp_calm (s : State) (c d : Ctx) (q : BitVec 8) : Calm c s (s.dropOp d q) :=
  ⟨fun _ _ => rfl, fun _ h => (List.mem_filter.1 h).1, rfl, rfl, rfl, rfl, rfl, rfl, .inl ⟨rfl, fun _ => rfl⟩⟩

theorem forget_calm (c : Ctx) (n : BitVec 8) (s : State) : Calm c s (forget c n s) := by
  unfold forget
  dsimp only
  apply modCtx_calm <;> intro x <;> try rfl
  intro q
  cases q <;> rfl

theorem dropWindow_calm (c : Ctx) (s : State) : Calm c s (dropWindow c s) := by
  have h : Calm c s (s.modCtx c fun x => { x with lockWin := none }) := by
    apply modCtx_calm <;> intro x <;> try rfl
    intro q
    cases q <;> rfl
  refine h.trans ?_
  exact ⟨fun _ _ => rfl, fun _ h => (List.mem_filter.1 h).1, rfl, rfl, rfl, rfl, rfl, rfl, .inl ⟨rfl, fun _ => rfl⟩⟩

theorem memberFault_calm (c : Ctx) (s : State) : Calm c s (memberFault c s) := ifThen_calm (dropWindow_calm c) s

theorem recordFault_calm (c : Ctx) (code : Nat) (cls : BitVec 3) (q : QSel) (idx aux : Nat) (s : State) :
    Calm c s (recordFault c code cls q idx aux s) := by
  have h : ∀ f : FaultRec, Calm c s (s.modCtx c fun x => { x with fault := f }) := fun f => by
    apply modCtx_calm <;> intro x <;> try rfl
    intro q
    cases q <;> rfl
  exact (h _).trans (Calm.of_eq (emit_ctx ..) (emit_ops ..))

theorem ctxFault_calm (c : Ctx) (code : Nat) (q : QSel) (idx aux : Nat) (s : State) : Calm c s (ctxFault c code q idx aux s) := by
  refine (recordFault_calm c code tenantFatal q idx aux s).trans ?_
  refine ⟨fun d e => modCtx_cx_ne _ c _ e, fun _ h => h, ?_, ?_, ?_, ?_, ?_, ?_, ?_⟩
  case refine_7 =>
    unfold ctxFault
    by_cases e : ((recordFault c code tenantFatal q idx aux s).cx c).mode = .active
    · exact .inr ⟨e, by simp [e]⟩
    · exact .inl ⟨by simp [e], fun p => by simp [State.qu, e]⟩
  all_goals
    simp only [ctxFault, modCtx_cx]
    split
    · cases q <;> rfl
    · rfl

/-- A fault of class TENANT_FATAL stops the queues of an active context (R151). -/
theorem ctxFault_mode (c : Ctx) (code : Nat) (q : QSel) (idx aux : Nat) (s : State) (h : (s.cx c).mode = .active) :
    ((ctxFault c code q idx aux s).cx c).mode = .faulted := by
  have e : ((recordFault c code tenantFatal q idx aux s).cx c).mode = .active := by
    have k : ∀ f : FaultRec, ((s.modCtx c fun x => { x with fault := f }).cx c).mode = .active := fun f => by simp [h]
    exact (congrArg CtxState.mode (cx_of_ctx (emit_ctx ..) c)).trans (k _)
  simp [ctxFault, e]

theorem deliver_calm (c : Ctx) (r : Rec) (s : State) : Calm c s (deliver c r s) := by
  unfold deliver
  apply modCtx_calm <;> intro x <;> try rfl
  intro q
  cases q <;> rfl

theorem complete_calm (o : Op) (s : State) : Calm o.ctx s (complete o s) := by
  unfold complete
  split
  · exact dropOp_calm ..
  · dsimp only
    refine Calm.trans ?_ (ifThen_calm (deliver_calm _ _) _)
    refine Calm.trans ?_ (Calm.of_eq (emitOp_ctx _ _ _ _ _) (emitOp_ops _ _ _ _ _))
    refine Calm.trans ?_ (ifThen_calm (memberFault_calm _) _)
    refine Calm.trans ?_ (ifThen_calm (ctxFault_calm _ _ _ _ _) _)
    refine Calm.trans ?_ (Calm.of_eq (endStall_ctx _ _) (endStall_ops _ _))
    refine Calm.trans ?_ (Calm.of_eq (countOp_ctx _ _) (countOp_ops _ _))
    exact (dropOp_calm s o.ctx o.ctx o.seq).trans (forget_calm o.ctx o.seq _)

theorem release_calm (o : Op) (s : State) : Calm o.ctx s (complete o (releaseUnits o s)) :=
  Calm.trans (Calm.of_eq (releaseUnits_ctx o s) (releaseUnits_ops o s)) (complete_calm o _)

/-- The operation found under a context and SEQ has them. -/
theorem op?_is {s : State} {c : Ctx} {q : BitVec 8} {o : Op} (h : s.op? c q = some o) : o.ctx = c ∧ o.seq = q ∧ o.side = false := by
  have := List.find?_some h
  simpa [Op.is, Op.under, and_assoc] using this

/-- One of the lehr's operations belongs to a ROOT of the same context. -/
theorem whole_ctx (s : State) (o : Op) : (o.whole s).ctx = o.ctx := by
  unfold Op.whole
  split
  · cases h : s.op? o.ctx o.seq with
    | none => rfl
    | some p => exact (op?_is h).1
  · rfl

/-- An operation that fails with no response to wait for completes. -/
theorem failOp_calm (o : Op) (code : Nat) (s : State) (h1 : (o.whole s).wrs = 0) (h2 : (o.whole s).acks = 0) :
    Calm o.ctx s (failOp o code s) := by
  have := release_calm { o.whole s with status := if (o.whole s).status == 0 then code else (o.whole s).status } s
  rw [show (Op.ctx _) = o.ctx from whole_ctx s o] at this
  simpa [failOp, h1, h2] using this

theorem completeNow_calm (o : Op) (s : State) : Calm o.ctx s (completeNow o s) :=
  Calm.trans (Calm.of_eq (emitOp_ctx ..) (emitOp_ops ..)) (complete_calm o _)

/-- Where a record stands among those that wait. -/
theorem mem_insertRec (r : Rec) (l : List Rec) : r ∈ insertRec r l := by
  induction l with
  | nil => simp [insertRec]
  | cons y l ih => unfold insertRec; split <;> simp [ih]

/-- A record enters the collector at the time it is delivered, or one fc later behind the Truss of its bay (R166). -/
theorem mem_collect (fc t : Nat) (r : Rec) (l : List Rec) : ∃ u, { r with at_ := u } ∈ collect fc t r l := by
  unfold collect
  dsimp only
  split
  · split
    · exact ⟨_, mem_insertRec ..⟩
    · exact ⟨_, mem_insertRec ..⟩
  · split
    · have mono : ∀ (x y : Rec) (m : List Rec), x ∈ m → x ∈ insertRec y m := fun x y m h => by
        induction m with
        | nil => cases h
        | cons z m ih =>
          unfold insertRec
          split
          · exact List.mem_cons_of_mem _ h
          · obtain rfl | h := List.mem_cons.1 h
            · exact List.mem_cons_self ..
            · exact List.mem_cons_of_mem _ (ih h)
      exact ⟨t, mono _ _ _ (mem_insertRec ..)⟩
    · exact ⟨t, mem_insertRec ..⟩

theorem deliver_mem (c : Ctx) (r : Rec) (s : State) : ∃ u, { r with at_ := u } ∈ ((deliver c r s).cx c).recs := by
  unfold deliver
  simpa using mem_collect (fcLen s) s.clk r (s.cx c).recs

theorem faultAtCheck_calm (c : Ctx) (q : QSel) (w : Inst) (code aux : Nat) (s : State) : Calm c s (faultAtCheck c q w code aux s) :=
  (ifThen_calm (memberFault_calm c) s).trans
    ((ifThen_calm (fun s => Calm.of_eq (reportPoison_ctx c aux s) (reportPoison_ops c aux s)) _).trans
      ((ctxFault_calm ..).trans (deliver_calm ..)))

/-! ### A dispatch -/

/-- The effect of an instruction that every check and hold lets through. -/
theorem dispatch_ready {k : Nat} {f : Op → State → State} {c : Ctx} {q : QSel} {s : State} {w : Inst}
    (h1 : nextInst s c q = some w) (h2 : iOpc w = k) (h3 : canDispatch s c q = true)
    (h4 : q = .main → dispatchable s c .prio = false) (h5 : preHold s c q w = false)
    (h6 : checkInst (memberView s c q) c q w = none) (h7 : lateHold s (memberView s c q) c q w = false) (h8 : (opClass k).isSome) :
    dispatch k f c q s = f (newOp (memberView s c q) c q w) (takeHead c q w s) := by
  subst h2
  have h9 : (opClass (iOpc w)).isNone = false := by cases h : opClass (iOpc w) <;> simp_all
  cases q with
  | main => simp [dispatch, h1, h3, h4 rfl, h5, h6, h7, h9]
  | prio =>
    have : (QSel.prio == QSel.main) = false := rfl
    simp [dispatch, h1, h3, h5, h6, h7, h9]

/-- A fault at the checks. -/
theorem dispatch_failing {k : Nat} {f : Op → State → State} {c : Ctx} {q : QSel} {s : State} {w : Inst} {code aux : Nat}
    (h1 : nextInst s c q = some w) (h2 : iOpc w = k) (h3 : canDispatch s c q = true)
    (h4 : q = .main → dispatchable s c .prio = false) (h5 : preHold s c q w = false)
    (h6 : checkInst (memberView s c q) c q w = some (code, aux)) (h8 : (opClass k).isSome) :
    dispatch k f c q s = faultAtCheck c q w code aux s := by
  subst h2
  have h9 : (opClass (iOpc w)).isNone = false := by cases h : opClass (iOpc w) <;> simp_all
  cases q with
  | main => simp [dispatch, h1, h3, h4 rfl, h5, h6, h9]
  | prio =>
    have : (QSel.prio == QSel.main) = false := rfl
    simp [dispatch, h1, h3, h5, h6, h9]

theorem loopEnd_calm (c : Ctx) (q : QSel) (l : Loop) (s : State) : Calm c s (loopEnd c q l s) := by
  have h : ∀ o : Op, o.ctx = c → Calm c s (complete o s) := fun o e => e ▸ complete_calm o s
  exact h _ rfl

/-- What moving a queue on leaves alone: everything of `Calm` but the SEQ and this queue's own head. -/
structure Moved (c : Ctx) (s t : State) : Prop where
  others : ∀ d, d ≠ c → t.cx d = s.cx d
  ops : ∀ o ∈ t.ops, o ∈ s.ops
  seq : (t.cx c).seq = (s.cx c).seq + 1
  sem : (t.cx c).sem = (s.cx c).sem
  sticky : (t.cx c).sticky = (s.cx c).sticky
  cullet : (t.cx c).cullet = (s.cx c).cullet
  masks : (t.cx c).masks = (s.cx c).masks
  rough : (t.cx c).rough = (s.cx c).rough

theorem Moved.calm {c : Ctx} {s t u : State} (h : Moved c s t) (k : Calm c t u) : Moved c s u :=
  ⟨fun d e => (k.others d e).trans (h.others d e), fun o e => h.ops o (k.ops o e), k.seq.trans h.seq, k.sem.trans h.sem,
    k.sticky.trans h.sticky, k.cullet.trans h.cullet, k.masks.trans h.masks, k.rough.trans h.rough⟩

theorem moveQueue_moved (c : Ctx) (q : QSel) (w : Inst) (s : State) : Moved c s (moveQueue c q w s) := by
  refine ⟨fun d e => modCtx_cx_ne s c _ e, fun o h => h, ?_, ?_, ?_, ?_, ?_, ?_⟩ <;> cases q <;> simp [moveQueue, CtxState.modQueue]

theorem takeHead_moved (c : Ctx) (q : QSel) (w : Inst) (s : State) : Moved c s (takeHead c q w s) := by
  unfold takeHead
  dsimp only
  split
  · exact (moveQueue_moved c q w s).calm (loopEnd_calm ..)
  · exact moveQueue_moved c q w s

@[simp] theorem enqueue_ctx (o : Op) (s : State) : (enqueue o s).ctx = s.ctx := by simp [enqueue]

@[simp] theorem enqueue_ops (o : Op) (s : State) : (enqueue o s).ops = s.ops ++ [o] := by simp [enqueue]

end Sys2Proof.Machine
end

