-- ==== Sys2Proof/Tests/Slice0.lean ====
section
/-! SUPPORT. Tests: ill-formed commands, worked cases of the manual, and a witness for the hypotheses of every statement. -/

namespace Sys2Proof.Tests

set_option Elab.async false

open Sys2Proof Sys2Proof.Machine Sys2Proof.Claims

/-! ### Ill-formed commands: each check refuses one -/

theorem test_wf_raiseDone : (Instr.raiseDone 0 0 ⟨[(0, 35)], {}⟩).wellFormed = false := by decide
theorem test_wf_trussOpComplete : (Instr.trussOpComplete 0 0 [⟨0, 0, .residue 35⟩] {}).wellFormed = false := by decide
theorem test_wf_delay : (Instr.trussOpComplete 0 0 [] { lag := [0, 0, 0, 0, 0] }).wellFormed = false := by decide
theorem test_wf_drainComplete : (Instr.drainComplete 0 ⟨0, { lag := [0, 0, 0, 0, 0] }⟩).wellFormed = false := by decide
theorem test_wf_abftReplay : (Instr.abftReplay 0 0 [⟨0, 0, .parityCol 35⟩]).wellFormed = false := by decide
theorem test_wf_overflowReplay : (Instr.overflowReplay 0 0 [⟨0, 0, .parityLane 35⟩]).wellFormed = false := by decide
theorem test_wf_rdata : (Instr.rdata 0 0 .ok [0]).wellFormed = false := by decide
theorem test_wf_failWinExpiry : (Instr.failWinExpiry 0 false 35).wellFormed = false := by decide
theorem test_wf_eccWriteBack : (Instr.eccWriteBack (.staging 0x4000000) none).wellFormed = false := by decide
theorem test_wf_patrolRead : (Instr.patrolRead (.row (.bank 0 false 0x400000)) .clean).wellFormed = false := by decide
theorem test_wf_patrolCommon : (Instr.patrolRead (.common 21) .double).wellFormed = false := by decide
theorem test_wf_furnaceStart : (Instr.furnaceStart 21).wellFormed = false := by decide
theorem test_wf_fastStart : (Instr.fastStart 31).wellFormed = false := by decide
theorem test_wf_bist : (Instr.bist [] none 1000).wellFormed = false := by decide
theorem test_wf_bistUnit : (Instr.bist (List.replicate 4 ⟨true, [], []⟩) (some 21) 1000).wellFormed = false := by decide
theorem test_wf_remap : (Instr.remap 151).wellFormed = false := by decide
theorem test_wf_ringJoin : (Instr.ringJoin 501).wellFormed = false := by decide
theorem test_wf_bayResetDone : (Instr.bayResetDone 0 ⟨true, [35], []⟩ 10).wellFormed = false := by decide
theorem test_wf_fuseRead : (Instr.fuseRead [[35], [], [], []] none).wellFormed = false := by decide
theorem test_wf_header : (Instr.messageHeaderReceive ⟨0, 0, 0, 0, 0x100000000, 0⟩).wellFormed = false := by decide

/-! ### Small states -/

/-- A block that runs, with LOCK set, every context ACTIVE on all four bays, all of staging in every partition, and a
window at 0x10_0000. -/
def base : State :=
  { clk := 10000000, fastOn := true, boot := { porstN := true, phase := 0, ready := true, running := true }
    prot := { lock := true, pri := .replicate 9 0xF, part := .replicate 9 ⟨0, 0x3FF, true⟩,
              window := (Vector.replicate 64 {}).set 0 ⟨0x100, 0x1FF, true, true, 0, 0⟩ }
    bay := .replicate 4 { pstate := .running, spares := [.free, .free, .checksum] }
    ctx := .replicate 9 { acked := true, mode := .active, feat := 0xFFFF, descBase := 0x10000 } }

/-- An instruction word from its fields (R153). -/
def inst (opc fa fb fo mode flg imm da db dO dx imm48 : Nat) : Inst :=
  BitVec.ofNat 128 (opc + fa * 2 ^ 8 + fb * 2 ^ 12 + fo * 2 ^ 16 + mode * 2 ^ 20 + flg * 2 ^ 28 + imm * 2 ^ 32 + da * 2 ^ 48 +
    db * 2 ^ 56 + dO * 2 ^ 64 + dx * 2 ^ 72 + imm48 * 2 ^ 80)

/-- The 64 bytes of a descriptor of one whole view (R155). -/
def desc (baseWord r c rs : Nat) (fctl : Nat := 0) (spctl : Nat := 0) (aux : Nat := 0) (bs : Nat := 0) (nnz : Nat := 0) : List Byte :=
  leBytes 8 baseWord ++ leBytes 8 aux ++ leBytes 4 r ++ leBytes 4 c ++ leBytes 4 0 ++ leBytes 4 0 ++ leBytes 4 r ++ leBytes 4 c ++
    leBytes 4 rs ++ leBytes 2 fctl ++ leBytes 1 spctl ++ [0] ++ leBytes 8 bs ++ leBytes 4 nnz ++ leBytes 4 0

/-- Bytes in staging. -/
def put (a : Nat) (l : List Byte) (s : State) : State := { s with staging := s.staging.writeN a l }

/-- T0's main queue holds one fetched instruction at its head; the descriptors are the first ones of T0's table. -/
def holding (w : Inst) (ds : List (List Byte)) (s : State := base) : State :=
  (put 0x10000 ds.flatten s).modCtx 0 fun x => { x with qm := { x.qm with tail := 1, fetched := [(0, w)] } }

def readyB (s : State) (c : Ctx) (q : QSel) (k : Nat) (w : Inst) : Bool :=
  nextInst s c q == some w && iOpc w == k && canDispatch s c q && (q == .prio || !dispatchable s c .prio) && !preHold s c q w &&
    (checkInst (memberView s c q) c q w).isNone && !lateHold s (memberView s c q) c q w

theorem ready_of {s : State} {c : Ctx} {q : QSel} {k : Nat} {w : Inst} (h : readyB s c q k w = true) : Ready s c q k w := by
  simp only [readyB, Bool.and_eq_true, beq_iff_eq, Bool.or_eq_true, Bool.not_eq_true', Option.isNone_iff_eq_none] at h
  obtain ⟨⟨⟨⟨⟨⟨h1, h2⟩, h3⟩, h4⟩, h5⟩, h6⟩, h7⟩ := h
  exact ⟨h1, h2, h3, fun hq => by subst hq; simpa using h4, h5, h6, h7⟩

/-- A 2 × 4 FP32 matrix at an address. -/
def m24 (a : Nat) : List Byte := desc a 2 4 16

def copyW : Inst := inst 0x10 1 0 1 0 2 0 0 0 1 0 0
def raiseW : Inst := inst 0x01 0 1 0 0 2 0 0 0 0 0 0

theorem ready_copy : Ready (holding copyW [m24 0x2000, m24 0x3000]) 0 .main 0x10 copyW := ready_of (by decide +kernel)
theorem ready_raise : Ready (holding raiseW [desc 0x2000 4 4 16]) 0 .main 0x01 raiseW := ready_of (by decide +kernel)

/-! ### Every instruction passes its checks somewhere -/

/-- A chain of a PASS in progress in bay 0, its bank FILLING, its face raised: what a second PASS and a DRAIN need. -/
def rr44 : RaiseRec :=
  { fmt := .fp32, face := .fp32, ahold := false, trans := false, k := 4, n := 4, db := { base := 0x2000, trows := 4, tcols := 4, vrows := 4, vcols := 4, rstride := 16 } }

/-- Every bay has T0's RAISE record and face tag. -/
def raised : State :=
  { base with bay := base.bay.map fun x =>
      { x with recs := x.recs.set 0 (some rr44), tag := some ⟨0, rr44, false⟩, face := some ⟨[], false⟩ } }

/-- A complete chain of T0 whose tile lies in bank 0 of bay 0. -/
def chained : State :=
  let s := raised.modCtx 0 fun x => { x with chains := [{ id := 5, ctx := 0, kind := .pass, bays := 1, m := 2, n := 4, acc := .fp32, cpb := 128, isOpen := false }] }
  { s.modBay 0 fun x => { x with bank0 := { x.bank0 with st := .complete, chain := 5, ctx := 0, acc := .fp32, m := 2, n := 4 } } with
    prot := { s.prot with pri := .replicate 9 1 } }

def passW : Inst := inst 0x03 1 1 1 3 2 0 0 0 1 0 0
def seedW : Inst := inst 0x04 1 1 1 0 2 0 0 0 0 0 0
def drainW : Inst := inst 0x05 0 0 1 0 2 0 0 0 0 0 0
def foldW : Inst := inst 0x06 1 1 1 3 2 0 0 0 1 0 0
def blendW : Inst := inst 0x07 1 1 1 0 2 0x4040 0 1 2 0 0x40000000
def reduceW : Inst := inst 0x08 1 0 1 0 2 0 0 0 1 0 0
def topkW : Inst := inst 0x09 1 0 1 0 2 2 0 0 1 2 0
def normW : Inst := inst 0x0A 1 0 0 0 2 0 0 0 1 0 0
def rootW : Inst := inst 0x0B 1 0 1 0 2 0 0 1 2 3 0
def roughW : Inst := inst 0x0C 9 9 0 0 2 0x3E80 0 1 2 0 0
def maskW : Inst := inst 0x0D 0 0 0 0 2 0 0 0 1 0 0
def csrW : Inst := inst 0x0E 1 0 1 0 2 0 0 0 1 0 0
def sendW : Inst := inst 0x11 1 0 0 0 2 1 0 0 0 0 42
def recvW : Inst := inst 0x12 1 0 1 0 2 1 0 0 0 0 43
def atomW : Inst := inst 0x13 1 0 1 0 2 0 0 0 1 0 0
def watchW : Inst := inst 0x21 0 0 0 1 2 9 0 0 0 0 0
def watchNowW : Inst := inst 0x21 0 0 0 4 2 9 0 0 1 0 0
def scrubW : Inst := inst 0x22 0 0 0 0 2 0 0 0 0 0 0 + 0x3000000
def scaleW : Inst := inst 0x24 1 0 9 0 2 0 0 0 1 0 0
def gatherW : Inst := inst 0x02 1 0 0 0 2 0 0 0 0 1 0
def waitW (v : Nat) : Inst := inst 0x18 0 0 0 0 2 3 0 0 0 0 v
def signalW : Inst := inst 0x19 0 0 0 0 2 0x4003 0 0 0 0 0xFFFFFFFF
def fenceW : Inst := inst 0x1A 0 0 0 0 2 0 0 0 0 0 0
def lockW : Inst := inst 0x1C 0 0 0 0 2 1 0 0 0 0 0
def unlockW : Inst := inst 0x1D 0 0 0 0 2 0 0 0 0 0 0
def markW : Inst := inst 0x20 0 0 0 0 2 0xFFFF 0 0 0 0 0xFFFFFF
def flagsW : Inst := inst 0x23 0 0 0 1 2 15 0 0 0 0 0
def endW : Inst := inst 0x3F 0 0 0 0 2 0 0 0 0 0 0

theorem ready_pass : Ready (holding passW [m24 0x4000, m24 0x5000] raised) 0 .main 0x03 passW := ready_of (by decide +kernel)
theorem ready_seed : Ready (holding seedW [m24 0x4000]) 0 .main 0x04 seedW := ready_of (by decide +kernel)
theorem ready_drain : Ready (holding drainW [m24 0x5000] chained) 0 .main 0x05 drainW := ready_of (by decide +kernel)
theorem ready_fold : Ready (holding foldW [m24 0x2000, desc 0x3000 2 2 8]) 0 .main 0x06 foldW := ready_of (by decide +kernel)
theorem ready_blend : Ready (holding blendW [m24 0x2000, m24 0x3000, m24 0x4000]) 0 .main 0x07 blendW := ready_of (by decide +kernel)
theorem ready_reduce : Ready (holding reduceW [desc 0x2000 2 4 16 0 0 0 32, m24 0x3000]) 0 .main 0x08 reduceW := ready_of (by decide +kernel)
theorem ready_topk : Ready (holding topkW [m24 0x2000, desc 0x3000 2 2 8, desc 0x4000 2 2 8]) 0 .main 0x09 topkW :=
  ready_of (by decide +kernel)
theorem ready_norm : Ready (holding normW [m24 0x2000, desc 0x3000 1 1 8]) 0 .main 0x0A normW := ready_of (by decide +kernel)
theorem ready_root : Ready (holding rootW [desc 0x2000 2 2 8, desc 0x3000 8 2 8, desc 0x4000 2 2 8, desc 0x5000 1 16 16]) 0 .main 0x0B rootW :=
  ready_of (by decide +kernel)
theorem ready_rough : Ready (holding roughW [desc 0x2000 4 8 4, desc 0x3000 8 64 32, desc 0x6000 4 64 256]) 0 .main 0x0C roughW :=
  ready_of (by decide +kernel)
theorem ready_mask : Ready (holding maskW [desc 0x2000 1 4 2, desc 0x2100 1 4 2]) 0 .main 0x0D maskW := ready_of (by decide +kernel)
theorem ready_csr : Ready (holding csrW [m24 0x2000, desc 0x3000 2 4 16 0 1 0x3100 0 8]) 0 .main 0x0E csrW := ready_of (by decide +kernel)
theorem ready_watch : Ready (holding watchW [desc 0x5000 1 64 64]) 0 .main 0x21 watchW := ready_of (by decide +kernel)
theorem ready_watchNow : Ready (holding watchNowW [m24 0x2000, desc 0x5000 1 64 64]) 0 .main 0x21 watchNowW := ready_of (by decide +kernel)
theorem ready_scrub : Ready (base.modCtx tm fun x => { x with qm := { x.qm with tail := 1, fetched := [(0, scrubW)] } }) tm .main 0x22 scrubW := ready_of (by decide +kernel)
theorem ready_scale : Ready (holding scaleW [desc 0x2000 2 32 128, desc 0x3000 2 32 16 1 0 0x3100]) 0 .main 0x24 scaleW := ready_of (by decide +kernel)
theorem ready_gather : Ready (holding gatherW [desc 0x2000 9 1 4,
    leBytes 2 1 ++ leBytes 2 3 ++ leBytes 2 3 ++ leBytes 2 1 ++ [2, 2, 1, 1, 1, 1, 0, 0] ++ leBytes 8 0 ++ leBytes 4 4 ++ leBytes 4 0 ++ leBytes 4 4])
    0 .main 0x02 gatherW := ready_of (by decide +kernel)
theorem ready_wait : Ready (holding (waitW 0) []) 0 .main 0x18 (waitW 0) := ready_of (by decide +kernel)
theorem ready_signal : Ready (holding signalW [desc 0x6000 1 4 4]) 0 .main 0x19 signalW := ready_of (by decide +kernel)
theorem ready_fence : Ready (holding fenceW []) 0 .main 0x1A fenceW := ready_of (by decide +kernel)
theorem ready_mark : Ready (holding markW []) 0 .main 0x20 markW := ready_of (by decide +kernel)
theorem ready_flags : Ready (holding flagsW [desc 0x6000 1 16 16]) 0 .main 0x23 flagsW := ready_of (by decide +kernel)
theorem ready_end : Ready (holding endW []) 0 .main 0x3F endW := ready_of (by decide +kernel)
theorem ready_atom : Ready (holding atomW [m24 0x2000, desc (0x104000 + 2 ^ 44) 2 4 16]) 0 .main 0x13 atomW := ready_of (by decide +kernel)

/-! ### Dispatch and control: witnesses -/

theorem witness_StepRunsFront : ({ base with pending := [.halted] } : State).pending = Instr.halted :: [] ∧ base.pending = [] ∧
    bayNamed .halted = none ∧ bayNamed (.fack 2 0 .ok) = some 2 ∧ base.present 2 = true ∧
    ({ base with build := .fig1B } : State).present 2 = false := by decide +kernel

theorem witness_UnitInstructionStarts : waitsForUnit (.copy 0 .main) = true ∧ instRow (.copy 0 .main) = some (0x10, 0, .main) ∧
    Ready (holding copyW [m24 0x2000, m24 0x3000]) 0 .main 0x10 copyW := ⟨rfl, rfl, ready_copy⟩

/-- A COPY to a view of another shape. -/
def badCopy : State := holding copyW [m24 0x2000, desc 0x3000 4 4 16]

theorem witness_CheckFaultStops : instRow (.copy 0 .main) = some (0x10, 0, .main) ∧ Failing badCopy 0 .main 0x10 copyW 6 0 :=
  ⟨rfl, by decide +kernel, by decide +kernel, by decide +kernel, by decide +kernel, by decide +kernel, by decide +kernel⟩

/-- R160: the difference −1 waits, the difference 0 of ready_wait does not. -/
theorem witness_WaitHolds : let s := holding (waitW 1) []
    nextInst s 0 .main = some (waitW 1) ∧ iOpc (waitW 1) = 0x18 ∧ canDispatch s 0 .main = true ∧ dispatchable s 0 .prio = false ∧
      preHold s 0 .main (waitW 1) = false ∧ checkInst (memberView s 0 .main) 0 .main (waitW 1) = none ∧
      ((s.cx 0).sem.get (semOf (waitW 1)) - BitVec.ofNat 32 (iImm48 (waitW 1))).toInt < 0 := by decide +kernel

def waiting : State := (holding (waitW 0) []).modQueue 0 .main fun x => { x with waiting := true }

theorem witness_WaitReleases : waitOver waiting 0 .main = true ∧
    Ready (waiting.modQueue 0 .main fun x => { x with waiting := false }) 0 .main 0x18 (waitW 0) :=
  ⟨by decide +kernel, ready_of (by decide +kernel)⟩

theorem base_memories : MemoriesOk base := by unfold MemoriesOk; decide +kernel

theorem witness_SignalAdds : let s := holding signalW [desc 0x6000 1 4 4]
    Ready s 0 .main 0x19 signalW ∧ inWindow s 0 .main = false ∧ MemoriesOk s :=
  ⟨ready_signal, by decide +kernel, by unfold MemoriesOk; decide +kernel⟩

/-- A word with FLG.LCK. -/
def lck (w : Inst) : Inst := w ||| BitVec.ofNat 128 (2 ^ 31)

/-- A lock window of T0's main queue with members still to run. -/
def locked (left : Nat) (s : State) : State := s.modCtx 0 fun x => { x with lockWin := some { q := .main, index := 0, left := left } }

def loopW : Inst := inst 0x1B 0 0 0 0 2 1 0 0 0 0 (3 + 1 * 2 ^ 16 + 5 * 2 ^ 24)

theorem witness_LoopStartsSecondRun : let s := (holding loopW []).modQueue 0 .main fun x => { x with history := [copyW] }
    Ready s 0 .main 0x1B loopW ∧ (s.qu 0 .main).loop = none := ⟨ready_of (by decide +kernel), by decide +kernel⟩

def lock1W : Inst := inst 0x1C 0 0 0 0 2 0 0 0 0 0 0

theorem witness_LockOpensAndUnlockCommits :
    Ready ((holding lock1W []).modQueue 0 .main fun x => { x with tail := 3, fetched := [(0, lock1W), (1, lck markW), (2, unlockW)] })
      0 .main 0x1C lock1W ∧
    (let s := locked 0 (holding unlockW []);
      Ready s 0 .main 0x1D unlockW ∧ (s.cx 0).lockWin = some { q := .main, index := 0, left := 0 } ∧ inWindow s 0 .main = false) :=
  ⟨ready_of (by decide +kernel), ready_of (by decide +kernel), by decide +kernel, by decide +kernel⟩

theorem witness_LockWindowEnds :
    (let l : LockWin := { q := .main, index := 0, left := 0, buf := [.bytes [(false, 0x3000, 7)] [] 1 []], share := 1, commitEnd := some 5, unlock := some 1 };
      let o : Op := { ctx := 0, q := .main, seq := 1, opc := 0x1D, word := unlockW, qidx := 0 };
      let s := { base.modCtx 0 (fun x => { x with lockWin := some l }) with ops := [o] };
      (s.cx 0).lockWin = some l ∧ l.commitEnd = some 5 ∧ l.unlock = some 1 ∧ s.op? 0 1 = some o ∧ s.damp.hardNow = false ∧
        s.fastOn = true ∧ scrubHolds s (bufRanges l) = false ∧ portless s 0 (lockSpans l) = false ∧ ∀ p ∈ s.ops, p.opc = 0x13 → p.stage ≠ .granted) ∧
    (let s := { locked 2 base with dbg := { halt := true, reqAt := some 7 } };
      let l : LockWin := { q := .main, index := 0, left := 2 };
      (s.cx 0).lockWin = some l ∧ l.commitEnd = none ∧ haltReq s = true ∧ s.dbg.reqAt = some 7) := by decide +kernel

theorem witness_FlagsClear : let s := holding flagsW [desc 0x6000 1 16 16]
    Ready s 0 .main 0x23 flagsW ∧ inWindow s 0 .main = false ∧ MemoriesOk s :=
  ⟨ready_flags, by decide +kernel, by unfold MemoriesOk; decide +kernel⟩

/-! ### Messages and ROOT: witnesses -/

def v24 (a : Nat) : Desc := { base := a, trows := 2, tcols := 4, vrows := 2, vcols := 4, rstride := 16 }

/-- A peer table of two entries at 0x2000; entry 1 is valid for every tenant. -/
def peers (s : State) : State :=
  put 0x2010 ([1, 0xFF, 3, 0] ++ leBytes 4 9) { s with g := { s.g with peerBase := 0x2000, peerCount := 2 } }

theorem witness_MessageInstructionWaits :
    (let s := holding sendW [m24 0x4000] (peers base);
      Ready s 0 .main 0x11 sendW ∧ s.g.ringValid = false) ∧
    (let s := holding recvW [m24 0x4000] (peers base);
      Ready s 0 .main 0x12 recvW ∧ s.g.ringValid = false) :=
  ⟨⟨ready_of (by decide +kernel), by decide +kernel⟩, ⟨ready_of (by decide +kernel), by decide +kernel⟩⟩

/-- An operation of T0's main queue. -/
def op (k seq : Nat) (w : Inst) : Op := { ctx := 0, q := .main, seq := BitVec.ofNat 8 seq, opc := k, word := w, qidx := 0 }

/-- A block with these operations in flight. -/
def flight (l : List Op) (s : State := base) : State := { s with ops := l }

def joined : State := { base with xch := { joined := true }, g := { ringAddr := 5, ringValid := true } }

def sendOp : Op := { op 0x11 0 sendW with x := .waitAdmit, da := { vrows := 1, vcols := 4, trows := 1, tcols := 4, rstride := 16 }, dest := 9 }
def recvOp : Op := { op 0x12 1 recvW with x := .waitAdmit, dO := { base := 0x3000, vrows := 1, vcols := 4, trows := 1, tcols := 4, rstride := 16 } }

theorem witness_ExchangeAdmission : let s := flight [sendOp, recvOp] joined
    blockOpen s = true ∧ s.g.ringValid = true ∧ sourceHolds s 6 = false ∧ exchangeLoad s true < 16 ∧ exchangeLoad s false < 16 ∧
      s.xch.headers = [] ∧ (∃ o ∈ s.ops, admissible true s o = true) ∧ ∃ o ∈ s.ops, admissible false s o = true := by decide +kernel

def hdr (n : Nat) : MsgHeader := ⟨9, 3, 0, 43, n, 0⟩

/-- A RECV that waits for the header with tag 43. -/
def recvWaits : Op := { recvOp with x := .recvWait, stage := .granted, dest := 9, hdr := ⟨0, 3, 0, 43, 0, 0⟩ }

/-- The view of 16 bytes takes a message of 16 and not one of 17; a header waits behind an earlier one that was refused. -/
theorem witness_HeaderMatchesKeepsOrRefuses : base.xch.joined = false ∧ (hdr 16).count < 2 ^ 32 ∧ (hdr 16).seqno < 2 ^ 32 ∧
    (let s := flight [recvWaits] joined;
    s.xch.joined = true ∧ s.ops.find? (matchesHeader s (hdr 16)) = some recvWaits ∧ s.ops.find? (matchesHeader s (hdr 17)) = some recvWaits ∧
      overtakes (offeredAgain (hdr 16) s) (hdr 16) = false ∧ (∀ g ∈ s.xch.headers, taken (offeredAgain (hdr 16) s) g = false) ∧
      viewLen (fmtOf (iFO recvWaits.word)) recvWaits.dO = 16 ∧ (s.cx 0).rstBusy = false ∧ recvWaits.status = 0 ∧ recvWaits.wrs = 0 ∧
      recvWaits.acks = 0 ∧ (flight [] joined).ops.find? (matchesHeader (flight [] joined) (hdr 16)) = none) ∧
    (let s : State := { flight [recvWaits] joined with xch := { joined := true, refused := [hdr 16] } };
      overtakes (offeredAgain { hdr 16 with seqno := 1 } s) { hdr 16 with seqno := 1 } = true) := by decide +kernel

theorem witness_SendIsRefusedRetriedOrFlows : let o : Op := { sendOp with x := .offered }
    let s := flight [o] joined
    base.xch.joined = false ∧ s.xch.joined = true ∧ s.op? 0 0 = some o ∧ o.opc = 0x11 ∧ (s.cx 0).rstBusy = false ∧ o.x = .offered ∧
      o.status = 0 ∧ o.wrs = 0 ∧ o.acks = 0 ∧
      (let p : Op := { sendOp with x := .refused 9 };
        (flight [p] joined).op? 0 0 = some p ∧ p.x = .refused 9 ∧ portRuns (flight [p] joined) = true) := by decide +kernel

theorem witness_SendCompletes : let o : Op := { sendOp with x := .flowing, stage := .granted }
    let s := flight [o] joined
    s.op? 0 0 = some o ∧ o.opc = 0x11 ∧ o.x = .flowing ∧ opReady s o = true ∧ dataAsked o = true ∧ o.status = 0 ∧ (s.cx 0).rstBusy = false ∧
      poisonedIn s (viewRanges (fmtOf (iFA o.word)) o.da) = none := by decide +kernel

/-- A RECV of INT8 in flow, of a message of as many bytes as its row. -/
def recvFlows : Op := { op 0x12 1 (inst 0x12 10 0 10 0 2 1 0 0 0 0 43) with
  x := .recvFlow (hdr 4), stage := .granted, dO := { base := 0x3000, vrows := 2, vcols := 4, trows := 2, tcols := 4, rstride := 4 } }

/-- The message fills the view or part of it; the view lies in staging or in a window. -/
theorem witness_RecvWritesMessage :
    (∀ n ∈ [4, 8], let o : Op := { recvFlows with x := .recvFlow (hdr n) }
      let s := flight [o] joined
      s.xch.joined = true ∧ s.op? 0 1 = some o ∧ o.opc = 0x12 ∧ o.x = .recvFlow (hdr n) ∧ opReady s o = true ∧ stranded s o = false ∧ o.wrs = 0 ∧
        o.status = 0 ∧ (s.cx 0).rstBusy = false ∧ (List.replicate n (7 : Byte)).length = (hdr n).count ∧ o.dO.loc = false ∧
        (fmtOf (iFO o.word)).width = 8 ∧ (hdr n).count ≤ o.dO.vrows * o.dO.vcols ∧ o.dO.vcols ≤ o.dO.rstride ∧ MemoriesOk s) ∧
    (let o : Op := { recvFlows with dO := { v24 0x100000 with loc := true } };
      let s := flight [o] joined;
      s.op? 0 1 = some o ∧ opReady s o = true ∧ stranded s o = false ∧ o.dO.loc = true ∧
        wrLines (messageWrites (opRead s o) (fmtOf (iFO o.word)) o.dO [1, 2, 3, 4]) ≠ []) := by
  unfold MemoriesOk; decide +kernel

theorem witness_ExchangeTimeoutEndsAndNotifies :
    (∀ o ∈ [({ sendOp with x := .offered, stage := .granted } : Op), { sendOp with x := .flowing, stage := .granted },
        { sendOp with x := .refused 9, stage := .granted }, { recvFlows with seq := 0 },
        { recvFlows with seq := 0, dO := { v24 0x100000 with loc := true } }],
      (flight [o] joined).op? 0 0 = some o ∧ canTimeOut (flight [o] joined) o ([1, 2, 3] : List Byte).length = true ∧ o.wrs = 0 ∧
        ((flight [o] joined).cx 0).rstBusy = false) ∧
    canTimeOut (flight [recvFlows] joined) recvFlows (hdr 4).count = false ∧
    ((flight [sendOp]).op? 0 0 = some sendOp ∧ canTimeOut (flight [sendOp]) sendOp 0 = true ∧ canTimeOut (flight [sendOp] joined) sendOp 0 = false) ∧
    joined.xch.joined = true ∧ base.xch.joined = false := by decide +kernel

theorem witness_RootEntersTheLehr :
    (let s := holding rootW [desc 0x2000 2 2 8, desc 0x3000 8 2 8, desc 0x4000 2 2 8, desc 0x5000 1 16 16];
      Ready s 0 .main 0x0B rootW ∧ lehrOpen (takeHead 0 .main rootW s) = true ∧ ∀ p ∈ s.ops, ¬(p.opc = 0x0B ∧ p.stage = .waiting)) ∧
    (let s := { holding rootW [desc 0x2000 2 2 8, desc 0x3000 8 2 8, desc 0x4000 2 2 8, desc 0x5000 1 16 16] with
                ops := [{ op 0x0B 9 rootW with ctx := 1 }] };
      Ready s 0 .main 0x0B rootW ∧ ∃ p ∈ s.ops, p.opc = 0x0B ∧ p.stage = .waiting) ∧
    (let s := flight [op 0x0B 0 rootW]; lehrOpen s = true ∧ ∃ o ∈ s.ops, o.opc = 0x0B ∧ o.stage = .waiting) :=
  ⟨⟨ready_root, by decide +kernel⟩, ⟨ready_of (by decide +kernel), by decide +kernel⟩, by decide +kernel⟩

/-- A job of the lehr on a 1 × 1 batch. -/
def job (n : LehrNext) : LehrJob := { ctx := 0, seq := 0, next := n, n := 1, eps := .fin false 1 0 }

def lehrOp : Op :=
  { op 0x0B 0 rootW with
    stage := .granted, da := { base := 0x2000, vrows := 1, vcols := 1, trows := 1, tcols := 1, rstride := 4 }
    db := { base := 0x3000, vrows := 4, vcols := 1, trows := 4, tcols := 1, rstride := 4 } }

def lehrState (n : LehrNext) : State := { (flight [lehrOp]) with lehr := some (job n) }

/-- The job between the begin of what comes next and its end. -/
def lehrDone (n : LehrNext) : State := { (flight [lehrOp]) with lehr := some { job n with begun := true } }

theorem witness_LehrSetupAndIterations :
    (∀ n ∈ [LehrNext.setup, .iterate], job? (lehrState n) = some (job n, lehrOp) ∧ (job n).next ≠ .finish ∧
      lehrMay (lehrState n) (job n) lehrOp = true) ∧
    (∀ n ∈ [LehrNext.setup, .iterate], job? (lehrDone n) = some ({ job n with begun := true }, lehrOp) ∧ (job n).next = n ∧
      lehrOver (lehrDone n) { job n with begun := true } lehrOp = true) ∧
    poisonedIn (lehrDone .setup) (viewRanges .fp32 (batchView lehrOp.da 0)) = none ∧
    poisonedIn (lehrDone .iterate) [rootWork 1 lehrOp.db] = none ∧ ∀ i, (job .iterate).patch i = [] := by
  refine ⟨by decide +kernel, by decide +kernel, by decide +kernel, by decide +kernel, fun i => by simp [job, LehrJob.patch]⟩

theorem witness_RootCompletes : job? (lehrState .finish) = some (job .finish, lehrOp) ∧ (job .finish).next = .finish ∧
    lehrIdle (lehrState .finish) lehrOp = true ∧ lehrOp.status = 0 ∧ lehrOp.wrs = 0 ∧ ((lehrState .finish).cx lehrOp.ctx).rstBusy = false := by
  decide +kernel

/-! ### Units, bays, ports: witnesses -/

def copyOp : Op := { op 0x10 0 copyW with da := v24 0x2000, dO := v24 0x3000, named := 0xF }
def topkOp : Op := { op 0x09 1 topkW with da := v24 0x2000, dO := v24 0x3000, dx := v24 0x4000, named := 0xF }

theorem witness_UnitServesOldest : let s := flight [copyOp, topkOp]
    blockRuns s = true ∧ haltReq s = false ∧ unitOf .svu s = none ∧ unitOf .topk s = none ∧ sourceHolds s 4 = false ∧ sourceHolds s 7 = false ∧
      (∃ o ∈ s.ops, waitsFor .svu s o = true) ∧ ∃ o ∈ s.ops, waitsFor .topk s o = true := by decide +kernel

/-- The hypotheses that UnitOperationCompletes makes of its operation. -/
def unitOk (topk : Bool) (s : State) (o : Op) : Bool :=
  s.op? o.ctx o.seq == some o && unitReady (if topk then .k else .s) s o && o.wrs == 0 && o.acks == 0 && o.status == 0 &&
    !(s.cx o.ctx).rstBusy && o.opc != 0x22 && !o.ofLehr && (poisonedIn s (svuReads o)).isNone

/-- What the operation leaves when it is due. -/
def outAt (s : State) (o : Op) : SvuOut := svuOut (at' (phaseEnd s o (svuTime s o (opPorts s o).length)) s) o

/-- Outputs in staging, in a window, those of a lock member, and a CSR whose view is too small. -/
theorem witness_UnitOperationCompletes :
    (let o : Op := { copyOp with stage := .granted };
      unitOk false (flight [o]) o = true ∧ (outAt (flight [o]) o).fault = none ∧ ∀ w ∈ (outAt (flight [o]) o).wrs, w.1 = false) ∧
    (let o : Op := { topkOp with stage := .granted };
      unitOk true (flight [o]) o = true ∧ o.opc = 0x09 ∧ o.member = false ∧ o.dO.loc = false ∧ o.dx.loc = false) ∧
    (let o : Op := { copyOp with stage := .granted, dO := { v24 0x100000 with loc := true } };
      unitOk false (flight [o]) o = true ∧ (outAt (flight [o]) o).fault = none ∧ opPorts (flight [o]) o ≠ [] ∧
        ∃ w ∈ (outAt (flight [o]) o).wrs, w.1 = true ∧ w.2.2 ≠ []) ∧
    (let o : Op := { copyOp with stage := .granted, member := true };
      unitOk false (flight [o] (locked 0 base)) o = true ∧ (outAt (flight [o] (locked 0 base)) o).fault = none ∧
        ((flight [o] (locked 0 base)).cx 0).lockWin.isSome = true) ∧
    (let o : Op := { op 0x0E 0 csrW with da := v24 0x2000, dO := { v24 0x3000 with nnz := 0, spctl := 1 }, stage := .granted };
      let s := flight [o] (put 0x2000 [0, 0, 0x80, 0x3F] base);
      unitOk false s o = true ∧ (outAt s o).fault = some (6, 0)) ∧
    MemoriesOk (flight [copyOp]) := by unfold MemoriesOk; decide +kernel

/-- An operation of the SVU on small views; MASK and CSR read four columns of INT4 and FP32. -/
def svuOp (k : Nat) (w : Inst) : Op := { op k 0 w with da := v24 0x2000, db := v24 0x2800, dO := v24 0x3000, named := 0xF, stage := .granted }

/-- Values: BLEND, REDUCE and NORM in staging; a MASK whose blocks keep two and one that keeps three; a CSR that fits and one that does not. -/
theorem witness_UnitValues :
    (∀ o ∈ [svuOp 0x07 blendW, svuOp 0x08 reduceW, { svuOp 0x0A normW with dO := { v24 0x3000 with vrows := 1, vcols := 1 } },
        { svuOp 0x0D maskW with da := { v24 0x2000 with vrows := 1, rstride := 2 }, dO := { v24 0x3000 with vrows := 1, rstride := 2 } },
        { svuOp 0x0E csrW with dO := { v24 0x3000 with nnz := 0, spctl := 1 } }, { svuOp 0x0E csrW with dO := { v24 0x3000 with nnz := 8, spctl := 1 } }],
      unitOk false (flight [o]) o = true ∧ o.member = false ∧ o.dO.loc = false) ∧
    (∀ o ∈ [svuOp 0x07 blendW, svuOp 0x08 reduceW], (fmtOf (iFA o.word)).width = 32 ∧ o.da.vcols * (32 / 8) ≤ o.dO.rstride) ∧
    [0x4, 0xE, 0x8, 0xD].map keptOf = [[0, 1], [2, 3], [0, 2], [1, 3]] ∧ blockOk ([0x4, 0xE, 0x8, 0x6].map checkedNib) = false ∧
    MemoriesOk (flight [svuOp 0x07 blendW]) := by unfold MemoriesOk; decide +kernel

def v8 (a : Nat) : Desc := { base := a, trows := 2, tcols := 8, vrows := 2, vcols := 4, vcol0 := 4, rstride := 8 }

theorem witness_CopyMovesEveryElement :
    let o : Op := { op 0x10 0 (inst 0x10 10 0 10 0 2 0 0 0 1 0 0) with da := v8 0x2000, dO := v8 0x3000, stage := .granted }
    unitOk false (flight [o]) o = true ∧ opReady (flight [o]) o = true ∧ o.member = false ∧ iFA o.word = iFO o.word ∧ (fmtOf (iFA o.word)).width = 8 ∧
      (iMode o.word).testBit 0 = false ∧ o.dO.vrows = o.da.vrows ∧ o.dO.vcols = o.da.vcols ∧ o.dO.vcol0 + o.dO.vcols ≤ o.dO.tcols ∧
      o.dO.tcols ≤ o.dO.rstride ∧ MemoriesOk (flight [o]) := by unfold MemoriesOk; decide +kernel

theorem witness_ScrubZeroesItsBays : let o : Op := { op 0x22 0 scrubW with stage := .granted }
    let s := flight [o]
    s.op? 0 0 = some o ∧ o.opc = 0x22 ∧ opReady s o = true ∧ o.status = 0 ∧ (s.cx 0).rstBusy = false ∧ s.staging.bg = none ∧
      MemoriesOk s ∧ (iBays o.word).getLsb (1 : Bay) = true ∧ (iBays o.word).getLsb (2 : Bay) = false := by unfold MemoriesOk; decide +kernel

/-! ### The bays and their operations: witnesses -/

theorem witness_AtomAddAndMembersAreHeldBack :
    (let s := holding atomW [desc (0x104000 + 2 ^ 44) 2 4 16, desc (0x105000 + 2 ^ 44) 2 4 16];
      let d := descAt (memberView s 0 .main) 0 (iDA atomW);
      Ready s 0 .main 0x13 atomW ∧ d.loc = true ∧ (deal (s.portBays 0) (rdLines (viewRanges .fp32 d))).length ≠ 0) ∧
    (let s := { holding atomW [m24 0x1002000, desc (0x104000 + 2 ^ 44) 2 4 16] with
                ops := [{ op 0x22 9 (inst 0x22 0 0 0 0 2 0 0 0 0 0 0 + 0x2000000) with ctx := tm, stage := .granted }] };
      Ready s 0 .main 0x13 atomW ∧ (descAt (memberView s 0 .main) 0 (iDA atomW)).loc = false ∧
        accessWaits (takeHead 0 .main atomW s) (newOp (memberView s 0 .main) 0 .main atomW) = true) ∧
    (let s := holding atomW [m24 0x2000, desc (0x104000 + 2 ^ 44) 2 4 16];
      let d := descAt (memberView s 0 .main) 0 (iDA atomW);
      Ready s 0 .main 0x13 atomW ∧ d.loc = false ∧ accessWaits (takeHead 0 .main atomW s) (newOp (memberView s 0 .main) 0 .main atomW) = false ∧
        poisonedIn s (viewRanges .fp32 d) = none ∧ inWindow s 0 .main = false) ∧
    (let s := locked 1 (holding (lck atomW) [m24 0x2000, desc (0x104000 + 2 ^ 44) 2 4 16]);
      let d := descAt (memberView s 0 .main) 0 (iDA (lck atomW));
      Ready s 0 .main 0x13 (lck atomW) ∧ d.loc = false ∧
        accessWaits (takeHead 0 .main (lck atomW) s) (newOp (memberView s 0 .main) 0 .main (lck atomW)) = false ∧
        poisonedIn s (viewRanges .fp32 d) = none ∧ inWindow s 0 .main = true) ∧
    (let s := locked 1 (holding (lck signalW) [desc 0x6000 1 4 4]);
      Ready s 0 .main 0x19 (lck signalW) ∧ inWindow s 0 .main = true) ∧
    (let s := locked 1 (holding (lck flagsW) [desc 0x6000 1 16 16]);
      Ready s 0 .main 0x23 (lck flagsW) ∧ inWindow s 0 .main = true) :=
  ⟨⟨ready_of (by decide +kernel), by decide +kernel⟩, ⟨ready_of (by decide +kernel), by decide +kernel⟩, ⟨ready_atom, by decide +kernel⟩,
    ⟨ready_of (by decide +kernel), by decide +kernel⟩, ⟨ready_of (by decide +kernel), by decide +kernel⟩,
    ready_of (by decide +kernel), by decide +kernel⟩

def raiseOp : Op := { op 0x01 0 raiseW with rr := some rr44, named := 0xF }
def drainOp : Op := { op 0x05 1 drainW with dO := v24 0x5000, takes := [(0, 5)], named := 1 }

def scrubOp : Op := { op 0x22 9 scrubW with ctx := tm }

theorem witness_BayGrantReservesTheFirst :
    (let o : Op := { raiseOp with word := inst 0x01 0 1 0 0 2 0 0 0 0 0 0 + 2 * 2 ^ 24, named := 2 };
      let s := flight [o] (base.modBay 1 fun x => { x with oos := true });
      s.present 1 = true ∧ blockOpen s = true ∧ o.ofLehr = false ∧ (s.cx o.ctx).rstBusy = false ∧
        (s.ops.find? fun p => refused s p && isT p != false && (aim s p).getLsb (1 : Bay)) = some o) ∧
    (let o : Op := { drainOp with takes := [] };
      let s := flight [o];
      s.present 3 = true ∧ blockOpen s = true ∧ (s.cx o.ctx).rstBusy = false ∧
        (s.ops.find? fun p => refused s p && isT p != true && (aim s p).getLsb (3 : Bay)) = some o) ∧
    (let s := flight [raiseOp];
      s.present 0 = true ∧ bayOpen false s 0 = true ∧ scrubFor s 0 = none ∧ (∀ p ∈ s.ops, refused s p = false) ∧
        unitAt false s 0 = none ∧ Named s ∧ ∃ o ∈ s.ops, wants false s 0 o = true) ∧
    (let s := flight [drainOp] chained;
      s.present 0 = true ∧ bayOpen true s 0 = true ∧ scrubFor s 0 = none ∧ (∀ p ∈ s.ops, refused s p = false) ∧
        unitAt true s 0 = none ∧ Named s ∧ ∃ o ∈ s.ops, wants true s 0 o = true) := by unfold Named; decide +kernel

/-- A SCRUB that waits for free bays, for one that a pass holds, and for one that is out of service; an operation that has reserved its bay. -/
theorem witness_BayGrantToWaiting :
    (∀ s ∈ [flight [scrubOp], flight [scrubOp] (base.modBay 1 fun x => { x with trussOn := true }),
        flight [scrubOp] (base.modBay 1 fun x => { x with oos := true }), flight [scrubOp] (base.modBay 1 fun x => { x with pstate := .clockStopped })],
      s.present 0 = true ∧ blockOpen s = true ∧ (∀ p ∈ s.ops, refused s p = false) ∧ scrubFor s 0 = some scrubOp) ∧
    (let o : Op := { raiseOp with gset := 1, resv := 1 };
      let s := flight [o] (base.modBay 0 fun x => { x with truss := some (0, 0) });
      scrubFor s 0 = none ∧ reservedOp s false 0 = some o ∧ Named s ∧ ∀ p ∈ s.ops, refused s p = false) := by unfold Named; decide +kernel

def granted (o : Op) (g : BitVec 4) : Op := { o with stage := .granted, gset := g, resv := g }

theorem witness_RaiseCompletesOrIsWrittenAgain : ∀ parity ∈ [([] : List (Bay × Nat)), [(0, 34)]], ∀ d ∈ [({} : Delay), { staging := 3, lag := [1, 2] }],
    let o := granted raiseOp 3
    let s := flight [o]
    let u := delayLag o d (runSegs o ((o.why, raiseTime s o) :: delaySegs d) s)
    s.op? 0 0 = some o ∧ opReady s o = true ∧ o.opc = 0x01 ∧ o.rr = some rr44 ∧ o.reraise = 0 ∧ o.status = 0 ∧ o.wrs = 0 ∧ o.acks = 0 ∧
      o.watch = [] ∧ (s.cx 0).rstBusy = false ∧ poisonedIn u ((raiseWork u o).flatMap (·.2.2.2)) = none ∧
      (Instr.raiseDone 0 0 ⟨parity, d⟩).wellFormed = true := by decide +kernel

def passOp : Op := granted { op 0x03 0 passW with rr := some rr44, da := v24 0x4000, dO := v24 0x5000, first := true, last := true } 1
def seedOp : Op := granted { op 0x04 0 seedW with da := v24 0x4000, first := true } 1
def roughOp : Op := granted { op 0x0C 0 roughW with da := v24 0x4000, db := v24 0x4100, dO := v24 0x5000 } 1

/-- A residue error in the first slot of bay 0. -/
def bad0 : SlotFault := ⟨0, 0, .residue 0⟩

/-- A product of the lehr, with its job. -/
def productOp : Op := granted { lehrOp with opc := 0x10B, first := true, last := true, chain := 7 } 1

theorem witness_TrussOperationEndsOrWaitsForReplay :
    (∀ o ∈ [passOp, { passOp with last := false }, seedOp, roughOp], ∀ d ∈ [({} : Delay), { starved := 5, lag := [1, 2, 3, 4] }], let s := flight [o] raised
      s.op? 0 0 = some o ∧ canStream s o = true ∧ o.retry = 0 ∧ o.attempt = 0 ∧ o.pass ≤ (opInner s o).passes ∧
        (Instr.trussOpComplete 0 0 [bad0] d).wellFormed = true ∧ o.status = 0 ∧ o.wrs = 0 ∧ o.acks = 0 ∧ (s.cx 0).rstBusy = false ∧
        s.lehr = none ∧ trussPoison s o = none) ∧
    (let s := { flight [productOp] with lehr := some { job .iterate with begun := true, chain := 7 } };
      s.op? 0 0 = some productOp ∧ canStream s productOp = true ∧ productOp.pass ≤ (opInner s productOp).passes ∧ trussPoison s productOp = none) := by
  decide +kernel

/-- Both outcomes: slots are withheld, or none is. -/
theorem witness_TrussOutcomes :
    (∀ fs ∈ [([] : List SlotFault), [bad0]],
      ((streamRun passOp fs {} (flight [passOp] raised)).op? 0 0).map (·.held) = some (fs.map fun f => (f.bay, f.slot))) ∧
    (∀ fs ∈ [([] : List SlotFault), [bad0]], let s := flight [roughOp] raised
      (runPasses (opInner s roughOp) (chkBays s roughOp) fs (opInner s roughOp).passes 0 {}).2.held = fs.map fun f => (f.bay, f.slot)) := by
  decide +kernel

def heldOp (retry : Nat) : Op := { passOp with streamed := true, held := [(0, 0)], cause := 0x32, retry := retry }
def overflowOp (n : Nat) : Op :=
  { passOp with streamed := true, ovfNow := true, replay := (true, 8), da := { v24 0x4000 with fctl := 1 }
                word := inst 0x03 9 1 1 3 2 0 0 0 1 0 0, attempt := n }
def heldRough (retry : Nat) : Op := { roughOp with streamed := true, held := [(0, 0)], cause := 0x32, retry := retry }

theorem witness_ReplayRunsAgain :
    (∀ r ∈ [0, 1], ∀ o ∈ [heldOp r, heldRough r], let s := flight [o] raised
      s.op? 0 0 = some o ∧ opReady s o = true ∧ (s.cx 0).rstBusy = false ∧ o.status = 0 ∧ o.wrs = 0 ∧ o.acks = 0 ∧ s.lehr = none ∧
        trussPoison s o = none ∧ needsAbft o = true ∧ (Instr.abftReplay 0 0 [bad0]).wellFormed = true) ∧
    (∀ n ∈ [0, 1], let o := overflowOp n
      let s := flight [o] raised
      s.op? 0 0 = some o ∧ opReady s o = true ∧ trussPoison s o = none ∧ needsOverflow s o = true ∧
        (Instr.overflowReplay 0 0 [bad0]).wellFormed = true) := by decide +kernel

/-- The outcomes of the second replay: slots still withheld, or none. -/
theorem witness_ReplayOutcomes : ∀ fs ∈ [([] : List SlotFault), [bad0]],
    ((replayRun (heldOp 1) fs (flight [heldOp 1] raised)).op? 0 0).map (fun p => (p.retry, p.held)) =
      some (2, fs.map fun f => (f.bay, f.slot)) := by decide +kernel

theorem witness_DrainFreesItsBanks :
    (∀ o ∈ [granted drainOp 1, granted { drainOp with dO := { v24 0x100000 with loc := true } } 1], let s := flight [o] chained
      let u := delayLag o {} (runSegs o ((0, drainTime s o) :: delaySegs {}) s)
      s.op? 0 1 = some o ∧ opReady s o = true ∧ o.opc = 0x05 ∧ o.status = 0 ∧ o.wrs = 0 ∧ o.acks = 0 ∧ o.watch = [] ∧
        (Instr.drainComplete 0 ⟨1, {}⟩).wellFormed = true ∧ (s.cx 0).rstBusy = false ∧ drainPoison u o = none ∧
        poisonedIn u (drainReads u o) = none ∧ (runDrain u o).wrs ≠ [] ∧ (∀ w ∈ (runDrain u o).wrs, w.1 = 0 ∧ w.2.1 = o.dO.loc ∧ w.2.2.2 ≠ []) ∧
        MemoriesOk s) ∧
    (let o : Op := granted { lehrOp with opc := 0x20B, side := true, takes := [(0, 5)] } 1;
      let s := flight [lehrOp, o] chained;
      let u := delayLag o {} (runSegs o ((0, drainTime s o) :: delaySegs {}) s);
      s.opIn .d 0 0 = some o ∧ opReady s o = true ∧ o.side = true ∧ drainPoison u o = none) := by unfold MemoriesOk; decide +kernel

/-! ### Records, ports, queue fetch: witnesses -/

/-- A record waits; the completion queue lies in staging at 0x3_0000, in the window, or nowhere. -/
def recording (hi : BitVec 13) (lo : Word) : State :=
  base.modCtx 0 fun x => { x with recs := [{ opc := 0x10, mark := 0, status := 0, q := .main }], cqLo := lo, cqHi := hi }

theorem witness_CompletionRecordIsWritten : ∀ s ∈ [recording 0 0x30000, recording 0x1000 0x100000, recording 0x1000 0x200000],
    (s.cx 0).recs = [{ opc := 0x10, mark := 0, status := 0, q := .main }] ∧ cqRoom (s.cx 0) = true ∧ s.fastOn = true ∧
      s.dbg.halted = false ∧ s.damp.hardNow = false ∧ recordWaits s 0 = false ∧ MemoriesOk s := by unfold MemoriesOk; decide +kernel

/-- The three clauses: a place in staging, one in the window, one that no window covers. -/
theorem witness_CompletionRecordPlaces :
    rangeOk (recording 0 0x30000) 0 true ⟨false, 0x30000, 32⟩ = true ∧ rangeOk (recording 0x1000 0x100000) 0 true ⟨true, 0x100000, 32⟩ = true ∧
      rangeOk (recording 0x1000 0x200000) 0 true ⟨true, 0x200000, 32⟩ = false ∧ (recording 0x1000 0x100000).lowBay = some 0 ∧
      ((recording 0x1000 0x100000).cx 0).cqBase = (true, 0x100000) := by decide +kernel

def rdReq (o : Owner) : RdReq := { tag := 3, line := 0x4000, far := false, ctx := 0, owner := o, time := 5 }

/-- Bay 0's ports hold these requests. -/
def porting (rd : List RdReq) (wr : List WrReq) (s : State) : State := s.modBay 0 fun x => { x with port := { x.port with rd := rd, wr := wr } }

/-- Tag 9 of bay 0's read port is owed a response that comes too late. -/
def goneTag (s : State) : State := s.modBay 0 fun x => { x with port := { x.port with rdGone := [9] } }

theorem witness_ReadPortAnswersInOrder :
    (∀ o ∈ [{ granted copyOp 0 with rds := 2 }, { granted copyOp 0 with rds := 2, wrs := 1 }], let s := goneTag (porting [rdReq (.op 0 0), rdReq (.op 0 0)] [] (flight [o]))
      s.present 0 = true ∧ (s.by 0).port.rd = [rdReq (.op 0 0), rdReq (.op 0 0)] ∧ (s.by 0).port.rdWait = [] ∧
        (s.by 0).port.rdGone.contains (rdReq (.op 0 0)).tag = false ∧ (s.by 0).port.rdGone.contains 9 = true ∧ (rdReq (.op 0 0)).reply = none ∧
        (List.replicate 64 (0 : Byte)).length = 64 ∧ s.op? 0 0 = some o ∧ o.opc ≠ 0x13 ∧ (s.cx 0).rstBusy = false ∧ o.status = 0 ∧
        (4 : BitVec 14) ≠ (rdReq (.op 0 0)).tag) ∧
    (let o : Op := { granted (op 0x13 0 atomW) 0 with da := { v24 0x100000 with loc := true }, dO := { v24 0x104000 with loc := true }, rds := 1 };
      let s := porting [rdReq (.op 0 0)] [] (flight [o]);
      (s.by 0).port.rd = [rdReq (.op 0 0)] ∧ s.op? 0 0 = some o ∧ o.opc = 0x13 ∧ o.stage = .granted ∧ o.rds = 1 ∧ o.member = false ∧
        accessWaits s o = false ∧ portless s 0 (outRanges o) = false ∧ poisonedIn s (viewRanges .fp32 o.da) = none) := by decide +kernel

theorem witness_WritePortAnswers : let o : Op := { copyOp with stage := .flushing, wrs := 1 }
    let s := porting [] [.flush 3 (.op 0 0) 5] (flight [o])
    let u := porting [] [.afadd 3 0x4000 false 0 1 [0] (.op 0 0) 5] (flight [{ o with wrs := 0, acks := 1 }])
    let p : Op := { granted copyOp 0 with rds := 1 }
    let v := porting [rdReq (.op 0 0)] [] (flight [p])
    s.present 0 = true ∧ s.op? 0 0 = some o ∧ (s.by 0).port.wrWait = [] ∧ (s.cx 0).rstBusy = false ∧ o.status = 0 ∧ o.stage = .flushing ∧
      (s.by 0).port.wr = [.flush ((3 : BitVec 14).truncate 12) (.op 0 0) 5] ∧
      u.op? 0 0 = some { o with wrs := 0, acks := 1 } ∧ (u.by 0).port.wr = [.afadd 3 0x4000 false 0 1 [0] (.op 0 0) 5] ∧
      v.op? 0 0 = some p ∧ p.stage = .granted ∧ p.status = 0 ∧ (v.by 0).port.rd = [rdReq (.op 0 0)] ∧ (v.by 0).port.rdWait = [] := by decide +kernel

/-- The third expiry within FAIL_WIN fails its operation only, the fourth takes the bay out of service. -/
theorem witness_FourthExpiry : expired base base [500000, 499999] = 2 ∧ expired base base [500000, 499999, 1] = 3 := by decide +kernel

/-- T0's main queue has two entries to fetch, in staging or in the window. -/
def fetching (hi : BitVec 13) (lo : Word) : State := base.modQueue 0 .main fun x => { x with baseLo := lo, baseHi := hi, tail := 2 }

theorem witness_QueueFetch : (∀ s ∈ [fetching 0 0x20000, fetching 0x1000 0x100000], blockRuns s = true ∧ (s.cx 0).mode = .active ∧
      (s.cx 0).rstBusy = false ∧ toFetch (s.qu 0 .main) = [0, 1] ∧ (s.by 0).port.rdWait = [] ∧ (s.by 0).port.rdFree = true) ∧
    rangeOk (fetching 0 0x20000) 0 false ⟨false, 0x20000, 64⟩ = true ∧ scrubHolds (fetching 0 0x20000) [⟨false, 0x20000, 64⟩] = false ∧
    commitHolds (fetching 0 0x20000) 0 [⟨false, 0x20000, 64⟩] = false ∧
    poisonedIn (fetching 0 0x20000) [⟨false, 0x20000, 64⟩] = none ∧
    rangeOk (fetching 0x1000 0x100000) 0 false ⟨true, 0x100000, 64⟩ = true ∧ (fetching 0x1000 0x100000).lowBay = some 0 := by decide +kernel

theorem witness_Watchdog : let s := (holding copyW []).modCtx 0 fun x => { x with wdog := 1 }
    queueRuns s 0 .main = true ∧ (s.cx 0).wdog ≠ 0 := by decide +kernel

/-! ### Repair, tenancy, resets: witnesses -/

theorem witness_MemoryErrorsAreCounted : locBay base (.staging 0x3FFFFF8) = some 3 ∧ locBay base (.bank 0 true 0x3FFFF8) = some 0 ∧
    base.fastOn = true ∧ base.cnt.frozen = false ∧ subsystem 1 = true ∧ subsystem 20 = true := by decide +kernel

theorem witness_RepairsHappenAtBoundaries :
    (let s := base.modBay 0 fun x => { x with pendCol := [31, 34], pendLane := some 7, fails := [⟨true, 7, 1, 0⟩], outCmd := some .graceful };
      (s.by 0).pendCol = 31 :: [34] ∧ boundary s 0 = true ∧ (s.by 0).pendLane = some 7 ∧
        (s.by 0).fails.find? (fun f => f.lane == true && f.col == 7) = some ⟨true, 7, 1, 0⟩ ∧ outReady s 0 = true) := by decide +kernel

def fw : Access := ⟨8, false⟩

theorem fw_access : FwAccess base fw := ⟨rfl, .inl rfl, rfl⟩

theorem witness_RepairCommands : base.prot.lock = true ∧ base.g.repBusy = false ∧ base.present (bayArg 0) = true ∧
    mayRetire base (bayArg 0) (34 : BitVec 6).toNat = true ∧ (base.by (bayArg 0)).oos = false ∧
    (let s := base.modBay 0 fun x => { x with oos := true };
      (s.by (bayArg 0)).oos = true ∧ (s.by (bayArg 0)).bistOk = true) ∧
    (let s : State := { base with g := { repBusy := true } }; s.g.repBusy = true) := by decide +kernel

theorem witness_DoorbellAndFeatAck : let a : Access := ⟨0, false⟩
    base.boot.running = true ∧ mayWrite base a (tailAddr 0 .main) = true ∧ mayWrite base a (ctxBase 0) = true ∧ (base.qu 0 .main).entries = 16 := by
  decide +kernel

theorem witness_TenantResetClearsItsContext :
    (base.fastOn = true ∧ mayWrite base fw (ctxBase 0 + 0x0F0) = true ∧ (1 : Word).getLsbD 0 = true ∧ (base.cx 0).rstBusy = false) ∧
    (let s := base.modCtx 0 fun x => { x with rstBusy := true };
      (s.cx 0).rstBusy = true ∧ (∀ o ∈ s.ops, o.ctx ≠ 0) ∧ (s.cx 0).lockWin = none ∧ portHolds s 0 = false) := by decide +kernel

theorem witness_BayResetClearsTheBay : let s := base.modBay 0 fun x => { x with oos := true, brst := true }
    s.present 0 = true ∧ (base.by 0).oos = false ∧ (s.by 0).oos = true ∧ (s.by 0).brst = true ∧ (s.by 0).pstate = .running ∧
      (Instr.bayResetDone 0 ⟨false, [34], [(127, 4)]⟩ 1600).wellFormed = true := by decide +kernel

theorem witness_BlockResets : warmable base = true ∧ State.reset.boot.porstN = false ∧ (1 : Word).getLsbD 0 = true ∧
    (let s : State := { boot := { porstN := true, phase := 3, running := true } }; s.boot.porstN = true ∧ warmable s = false) := by decide +kernel

/-- Start-up at a phase. -/
def phase (p : BitVec 3) : State := { boot := { porstN := true, phase := p, running := true } }

theorem witness_StartupPhases : (phase 1).boot.porstN = true ∧ (phase 1).boot.phase = 1 ∧
    (phase 2).boot.phase = 2 ∧ (Instr.fuseRead [[34], [], [], []] (some (3, 34))).wellFormed = true ∧ (phase 3).boot.phase = 3 ∧
    (phase 4).boot.phase = 4 ∧ (phase 4).boot.wrstN = true ∧ (phase 4).regs.posted = [] ∧ (phase 4).present 3 = true ∧
    (((phase 4).modBay 3 fun x => { x with wakeReq := true }).by 3).wakeReq = true ∧ (phase 5).boot.phase = 5 ∧
    (phase 5).boot.cfail = false ∧ (Instr.bist (List.replicate 4 ⟨false, [34], [(127, 4)]⟩) none 1600).wellFormed = true ∧
    (Instr.bist (List.replicate 4 ⟨true, [], []⟩) (some 20) 1600).wellFormed = true ∧
    (phase 6).boot.phase = 6 ∧ (phase 7).boot.phase = 7 ∧
    (let s : State := { boot := { porstN := true, phase := 6, cold := true, fuseCols := [[34], [], [], [0]] } };
      s.boot.cold = true ∧ (34 : Nat) ∈ (s.boot.fuseCols[(0 : Bay).val]?).getD [] ∧ (0 : Nat) ∈ (s.boot.fuseCols[(3 : Bay).val]?).getD []) := by
  decide +kernel

def alone : State := { base with prot := { base.prot with alt := .replicate 9 1 } }

theorem witness_FailoverSwitchesTheSet : FwAccess alone fw ∧ alone.prot.lock = true ∧ alone.g.failover = none ∧ (alone.cx 0).alt ≠ true ∧
    targetSet alone 0 true ≠ 0 ∧ (∀ b ∈ maskBays (targetSet alone 0 true), alone.inService b = true) ∧
    (let f : Failover := ⟨0, true, false, 7⟩;
      let s : State := { alone with g := { failover := some f } };
      (∀ o ∈ s.ops, o.ctx = 1 → atomMay s o = false) ∧ s.g.failover = some f ∧ f.forced = false ∧ s.g.foTmo ≠ 0 ∧ s.dbg.halted = false ∧ foReady s f = true) ∧
    (let f : Failover := ⟨0, true, true, 7⟩;
      let s : State := { alone with g := { failover := some f } }; s.g.failover = some f ∧ foReady s f = true) :=
  ⟨⟨rfl, .inl rfl, rfl⟩, by decide +kernel⟩

/-! ### Power, trace, debug, registers: witnesses -/

theorem witness_OperatingPointChanges :
    (let s : State := { base with g := { opBusy := true, opTgt := true } };
      FwAccess s fw ∧ s.g.opBusy = true ∧ s.g.opsReq = false ∧ quiet s = true ∧ s.dbg.halted = false ∧ s.damp.hardNow = false) ∧
    (let s : State := { base with g := { opBusy := true, opsReq := true, opsAck := true, opRun := [.common] } };
      s.g.opsReq = true ∧ s.g.opsAck = true ∧ s.regs.posted = [] ∧ s.g.opRun.contains .common = true) :=
  ⟨⟨⟨rfl, .inl rfl, rfl⟩, by decide +kernel⟩, by decide +kernel⟩

/-- Every bay stopped, bay 0 asked to wake. -/
def sleepy (cap : BitVec 8) : State :=
  { base with g := { pwrCap := cap }, damp := { cap := cap }, bay := (Vector.replicate 4 { pstate := .clockStopped }).set 0 { pstate := .clockStopped, wakeReq := true } }

theorem witness_SleepAndWake :
    (wakesRun (sleepy 160) = true ∧ wakesFirst (sleepy 160) 0 = true ∧ admits (sleepy 160) 0 = true) ∧
    (wakesRun (sleepy 10) = true ∧ wakesFirst (sleepy 10) 0 = true ∧ admits (sleepy 10) 0 = false) ∧
    (let s : State := { base with fastOn := false, fastReq := true };
      wakesRun s = true ∧ s.fastReq = true ∧ s.fastGo = false ∧ s.fastOn = false) ∧
    (let s : State := { base with fastOn := false, fastGo := true }; s.g.opsReq = false ∧ s.fastGo = true ∧ s.regs.posted = []) ∧
    ((15 : Word).toNat % 65536 < (base.qu 0 .main).entries) ∧
    (((base.modBay 0 fun x => { x with pstate := .waking }).by 0).pstate = .waking ∧ base.fastOn = true ∧ base.regs.posted = [] ∧
      ∀ drain, reservedOp (base.modBay 0 fun x => { x with pstate := .waking }) drain 0 = none) ∧
    (base.boot.ready = true ∧ base.present 0 = true ∧ (base.by 0).pstate = .running ∧ base.fastOn = true ∧ bayFree base 0 = true ∧
      (base.by 0).brst = false ∧ policy base 0 ≤ 1) ∧
    (let s := base.modBay 0 fun x => { x with oos := true };
      s.present 0 = true ∧ keepsPower s 0 = false ∧ (s.by 0).oos = true ∧ (s.by 0).pstate ≠ .powerGated) ∧
    (let s := base.modBay 0 fun x => { x with pstate := .clockStopped };
      s.present 0 = true ∧ keepsPower s 0 = false ∧ (s.by 0).oos = false ∧ (s.by 0).pstate = .clockStopped ∧ policy s 0 = 0) ∧
    (let s : State := { base with bay := .replicate 4 { pstate := .clockStopped } };
      s.boot.ready = true ∧ s.fastOn = true ∧ (∀ c, ctxIdle s c = true) ∧ s.ops = [] ∧ s.lehr = none ∧ haltReq s = false ∧
        ∀ b, s.present b = true → ((s.by b).pstate = .clockStopped ∨ (s.by b).pstate = .powerGated) ∧ (s.by b).wakeReq = false) := by
  decide +kernel

/-- A window that has spent its energy and one that has not; a cap that allows every duty and one that allows none. -/
theorem witness_DamperChoosesTheDuty :
    (let s : State := { base with damp := { start := 10000000, cap := 160, energy := 64 * 1000 * 160 * 200000 } };
      s.boot.ready = true ∧ s.fastOn = true ∧ s.damp.hardNow = false ∧ s.clk < (s.damp.start / 200000 + 1) * 200000 ∧
        64 * 1000 * s.damp.cap.toNat * 200000 ≤
          s.damp.energy + 64 * stallPower s * ((s.damp.start / 200000 + 1) * 200000 - s.clk)) ∧
    within base (planned base [] 64) = true ∧ within { base with damp := { cap := 1 } } (planned base [] 1) = false := by decide +kernel

def traceR : TraceRec := { typ := 0x04, eng := 0, ctx := 0, time := 0 }

/-- T0's ring is on, and the block buffer and bay 0's hold a record. -/
def tracing : State :=
  { base.modBay 0 (fun x => { x with tbuf := { x.tbuf with recs := [traceR], en := true } }) with
    trace := { buf := { recs := [traceR], en := true }, rings := (Vector.replicate 9 {}).set 0 { en := true, baseLo := 0x110000 } } }

theorem witness_TraceBuffersAndRings :
    (∀ buf ∈ [none, some (3 : Bay)], bufThere base buf = true ∧ awake base (bufDomain buf) = true ∧ (bufOf base buf).en = false ∧
      (bufOf base buf).recs = [] ∧ (bufOf base buf).post = []) ∧ (6 : Word).toNat % 4 = 2 ∧ (4 : Word).toNat % 8 ≤ 4 ∧
    (∀ buf ∈ [none, some (0 : Bay)], bufThere tracing buf = true ∧ awake tracing (bufDomain buf) = true ∧ (bufOf tracing buf).en = true ∧
      (0x44 : Word).toNat % 4 = (bufOf tracing buf).mode.toNat ∧ (0x44 : Word).toNat / 16 % 16 = (bufOf tracing buf).pre.toNat) ∧
    mayWrite base fw (0x6014 + 0x40 * 0) = true ∧ mayWrite base ⟨0, false⟩ (0x6014 + 0x40 * 0) = true ∧
    ((9 : Word).getLsbD 0 = true ∧
      rangeOk tracing 0 true ⟨true, ringBase (tracing.trace.rings.get 0), 16 * 2 ^ (tracing.trace.rings.get 0).size.toNat⟩ = true) := by
  decide +kernel

theorem witness_TraceDma :
    (∀ buf ∈ [none, some (0 : Bay)], tracing.lowBay = some 0 ∧ tracing.fastOn = true ∧ tracing.dbg.halted = false ∧ bufThere tracing buf = true ∧
      (bufOf tracing buf).mode ≠ 2 ∧ (bufOf tracing buf).recs = [traceR] ∧ (bufOf tracing buf).run = 0) ∧
    (∀ k, (tracing.trace.rings.get k).loss = 0) ∧
    ringsOf tracing traceR = [0] ∧ (tracing.trace.rings.get 0).en = true ∧ (tracing.trace.rings.get 0).full = false ∧
    ringBase (tracing.trace.rings.get 0) + 16 * (tracing.trace.rings.get 0).next = 0x110000 := by decide +kernel

theorem witness_Fires : Fires { armed := true, mode := 2, en := true } ∧ ({ armed := true, mode := 2, en := true } : TraceBuf).dropped = 0 :=
  ⟨⟨rfl, rfl, rfl, rfl⟩, rfl⟩

theorem witness_FreezeAndHalt :
    (let s : State := { base with cnt := { pending := [(5, true), (5, false), (405, true)] } };
      s.cnt.pending = (5, true) :: [(5, false), (405, true)] ∧ edgeChanges 5 true [(5, false), (405, true)] = (false, [(405, true)])) ∧
    base.pending = [] ∧ base.cnt.frozen = false ∧ base.fastOn = true ∧ ({ base with cnt := { frozen := true } } : State).cnt.frozen = true ∧
    (let s : State := { base with dbg := { halt := true, reqAt := some 5 } }; mayHalt s = true) ∧
    (let s : State := { base with dbg := { halted := true } }; s.dbg.halted = true ∧ haltReq s = false ∧ s.dbg.snapBusy = false) := by
  decide +kernel

theorem witness_SnapshotAndScan :
    (let s : State := { base with dbg := { halted := true } };
      FwAccess s fw ∧ s.dbg.halted = true ∧ s.dbg.snapBusy = false ∧ s.present 3 = true ∧ (s.by 3).oos = false) ∧
    (let s := base.modBay 3 fun x => { x with oos := true }; s.present 3 = true ∧ (s.by 3).oos = true ∧ (s.by 3).brst = false) ∧
    (let s : State := { base with dbg := { halted := true, snapBusy := true } }; s.dbg.snapBusy = true) :=
  ⟨⟨⟨rfl, .inl rfl, rfl⟩, by decide +kernel⟩, by decide +kernel, rfl⟩

theorem witness_RegisterReads : FwAccess base fw ∧ pairLow (0x0130 : BitVec 16).toNat = true ∧
    mayRead base ⟨0, false⟩ (0x0130 : BitVec 16).toNat = true ∧ mayRead base ⟨0, false⟩ (0x0200 : BitVec 16).toNat = false ∧
    rcMask (0x0200 : BitVec 16).toNat ≠ 0 ∧ liveReg base (0x0200 : BitVec 16).toNat = true ∧ rcMask (0x2070 : BitVec 16).toNat ≠ 0 ∧
    liveReg { base with fastOn := false } (0x2070 : BitVec 16).toNat = false ∧ isShadow base (0x5000 : BitVec 16).toNat = true ∧
    isShadow base (0x2014 : BitVec 16).toNat = true := ⟨fw_access, by decide +kernel⟩

theorem witness_RegisterWrites : base.boot.running = true ∧ mayWrite base ⟨0, false⟩ (0x0010 : BitVec 16).toNat = false ∧ base.fastOn = true ∧
    base.prot.lock = true ∧ ((0 : BitVec 4).toNat < 8 ∧ ¬(0x2000 + 0x400 * (0 : BitVec 4).toNat ≤ (0x2400 : BitVec 16).toNat ∧
      (0x2400 : BitVec 16).toNat < 0x2400 + 0x400 * (0 : BitVec 4).toNat)) ∧
    mayWrite base ⟨0, false⟩ (ctxBase 0 + 0x080 + 4 * (15 : Fin 16).val) = true ∧
    mayWrite base fw (ctxBase tm + 0x080 + 4 * (0 : Fin 16).val) = true := by decide +kernel

theorem witness_StepKeepsMemories : MemoriesOk base ∧ ∃ t, step base = .next t := ⟨base_memories, _, rfl⟩

/-- Each case of R226. -/
theorem witness_FoCmdRefuses : base.boot.running = true ∧ (8 < (9 : BitVec 4).toNat) ∧
    (let s : State := { base with prot := { base.prot with lock := false } }; s.prot.lock = false) ∧
    (let s : State := { base with g := { failover := some ⟨0, true, false, 7⟩ } }; s.g.failover ≠ none) ∧
    ((base.cx 0).alt = false ∧ targetSet base 0 true = 0 ∧
      ∃ b ∈ maskBays (targetSet (base.modBay 0 fun x => { x with oos := true }) 0 false),
        (base.modBay 0 fun x => { x with oos := true }).inService b = false) ∧
    (BitVec.ofNat 4 (0x19 : Word).toNat = 9 ∧ (0x19 : Word).getLsbD 4 = true) := by
  decide +kernel

/-- A Figil-2B before LOCK: each register refuses a value and takes one; the last bits that are and are not reserved. -/
theorem witness_ProtectionWritesAreChecked :
    (let s : State := { base with build := .fig2B, prot := {} }
     s.boot.running = true ∧ (∀ n ∈ [0x1000, 0x1010, 0x1030, 0x1040, 0x1060, 0x1100, 0x1104, 0x14F8], mayWrite s ⟨9, false⟩ n = true) ∧
       s.present 2 = false ∧ s.present 1 = true ∧ (0x40 : Word).getLsbD (4 + 2) = true ∧ (∀ b : Bay, s.present b = false →
         (0x33 : Word).getLsbD b.val = false ∧ (0x33 : Word).getLsbD (4 + b.val) = false) ∧
       (0x40000000 : Word).getLsbD 30 = true ∧ (∀ i < 31, (10 ≤ i ∧ i < 16 ∨ 26 ≤ i ∧ i < 31) → (0x83FF03FF : Word).getLsbD i = false)) := by
  decide +kernel

theorem witness_StepKeepsProtection : (base.prot.lock = true ∧ base.pending.head? ≠ some .porstNAssert ∧ ∃ t, step base = .next t) ∧
    base.boot.running = true ∧
    (let s : State := { base with prot := {}, ctx := .replicate 9 {} };
      s.boot.running = true ∧ s.prot.lock = false ∧ (s.cx 0).mode = .stopped ∧ ∃ t, step s = .next t) :=
  ⟨⟨rfl, by decide +kernel, _, rfl⟩, rfl, rfl, rfl, rfl, _, rfl⟩

/-- A bay out of service with a good BIST and an IN in front; the step takes it back. -/
theorem witness_OnlyInReturnsABay :
    (let s : State := { base.modBay 1 (fun x => { x with oos := true }) with pending := [.bayIn fw 1] }
     (s.by 1).oos = true ∧ s.pending.head? ≠ some .porstNAssert ∧
       (match step s with | .next t => !(t.by 1).oos | _ => false) = true) ∧
    (let s : State := { alone with g := { failover := some ⟨0, true, false, 7⟩ }, pending := [.failoverSwitch] }
     (s.cx 0).alt = false ∧ (match step s with | .next t => (t.cx 0).alt | _ => false) = true) ∧
    (let s : State := { base.modBay 1 (fun x => { x with oos := true, bistOk := false, brst := true }) with
        pending := [.bayResetDone 1 ⟨true, [], []⟩ 10] }
     (s.by 1).bistOk = false ∧ (match step s with | .next t => (t.by 1).bistOk | _ => false) = true) := by decide +kernel

/-! ### Worked cases of the manual; every expected number is the manual's -/

def fp32 (c : Nat) : Val := decodeFmt .fp32 c

/-- The worked case after R63: seven accumulators drained into GF8E4. -/
theorem test_convert_gf8e4 :
    convertTo .gf8e4 false (fp32 0x3DCCCCCD) = (0x25, { inx := true }) ∧
    convertTo .gf8e4 false (fp32 0x42C80000) = (0x74, { inx := true }) ∧
    convertTo .gf8e4 false (fp32 0x43740000) = (0x7F, { inx := true }) ∧
    convertTo .gf8e4 false (fp32 0xC3960000) = (0xFF, { ovf := true, inx := true }) ∧
    convertTo .gf8e4 true (fp32 0xC3960000) = (0x80, { ovf := true, inx := true }) ∧
    convertTo .gf8e4 false (fp32 0x3B9374BC) = (0x01, { inx := true }) ∧
    convertTo .gf8e4 false (fp32 0x3B449BA6) = (0x00, { unf := true, inx := true }) ∧
    convertTo .gf8e4 false (fp32 0x80000000) = (0x00, {}) := by decide +kernel

/-- The worked case after R70: INT4 code 0xA, z = 2, s = 2^-4 in BF16. -/
theorem test_expand_group : expandCode 2 .bf16 .int4 0xA 0x3D80 2 = (0xBF00, {}) := by decide +kernel

/-- The worked case after R72: a block whose largest magnitude is 1,000 in UE8 and in SE43. -/
theorem test_output_scales :
    chooseScale 1 .gf8e4 0 [fp32 0x447A0000, fp32 0x3C23D70A] = 0x82 ∧
    convertScaled 1 .gf8e4 false 0x82 (fp32 0x447A0000) = (0x78, { inx := true }) ∧
    convertScaled 1 .gf8e4 false 0x82 (fp32 0x3C23D70A) = (0x00, { unf := true, inx := true }) ∧
    chooseScale 2 .gf8e4 0 [fp32 0x447A0000, fp32 0x3C23D70A] = 0x49 ∧
    convertScaled 2 .gf8e4 false 0x49 (fp32 0x447A0000) = (0x7E, { inx := true }) ∧
    convertScaled 2 .gf8e4 false 0x49 (fp32 0x3C23D70A) = (0x00, { unf := true, inx := true }) := by decide +kernel

def bf16s (l : List Nat) : List Val := l.map (decodeFmt .bf16)

/-- The worked case after R81, up to its infinite partial sum and the zero that is skipped beside an infinity's NaN. -/
theorem test_dot_fp32 :
    (dotFrom .fp32 0 (accZero .fp32) (bf16s [0x3FC0, 0x7180, 0xBF00]) (bf16s [0x4000, 0x4E80, 0x4080])) =
      (.one (.inf false), { ovf := true, inx := true }) ∧
    (dotFrom .fp32 0 (.one (.inf false)) (bf16s [0x0000]) (bf16s [0x3F80])) = (.one (.inf false), {}) ∧
    accEncode .fp32 (dotFrom .fp32 0 (.one (.inf false)) (bf16s [0x0000]) (bf16s [0x7F80])).1 = 0x7FC00000 ∧
    (dotFrom .fp32 0 (.one (.inf false)) (bf16s [0x0000]) (bf16s [0x7F80])).2 = { inv := true } := by decide +kernel

/-- The worked case after R82: 2^24 + 1 + 1 + 1 as a pair, renormalised, and with an FP32 accumulator. -/
theorem test_pair_mode :
    accEncode .fp32x2 (dotFrom .fp32x2 0 (accZero .fp32x2) (bf16s [0x4580, 0x3F80, 0x3F80, 0x3F80])
      (bf16s [0x4580, 0x3F80, 0x3F80, 0x3F80])).1 = 0x404000004B800000 ∧
    (let r := (renorm (fp32 0x4B800000) (fp32 0x40400000)).1; encodePair r.1 r.2) = 0xBF8000004B800002 ∧
    accEncode .fp32 (dotFrom .fp32 0 (accZero .fp32) (bf16s [0x4580, 0x3F80, 0x3F80, 0x3F80])
      (bf16s [0x4580, 0x3F80, 0x3F80, 0x3F80])).1 = 0x4B800000 := by decide +kernel

/-- The worked case after R89: sixty-four products of attempt 1. -/
theorem test_replay_attempt :
    (let p : Val := .fin false 49 117
     let q : Val := .fin false 1 2
     let r := dotFrom .fp32 8 (accZero .fp32) (List.replicate 64 p) (List.replicate 64 q)
     (accEncode .fp32 r.1, r.2)) = (0x7CC40000, {}) := by decide +kernel

/-- The worked case after R94: REDUCE of the four products, and of two parts. -/
theorem test_reduce :
    reduceCodes .fp32 [0x4B800000, 0x3F800000, 0x3F800000, 0x3F800000] = (0x4B800000, { inx := true }) ∧
    reduceCodes .fp32 [0x4B800000, 0x40000000] = (0x4B800001, {}) := by decide +kernel

/-- The worked case after R105: the block passes, passes with a duplicate, and fails with 0x6 in column 3. -/
theorem test_mask_block :
    [0x4, 0xE, 0x8, 0xD].map keptOf = [[0, 1], [2, 3], [0, 2], [1, 3]] ∧ blockOk ([0x4, 0xE, 0x8, 0xD].map checkedNib) = true ∧
    keptOf 0x5 = [1] ∧ blockOk ([0x4, 0xE, 0x8, 0x5].map checkedNib) = true ∧
    keptOf (checkedNib 0x6) = [1, 2] ∧ blockOk ([0x4, 0xE, 0x8, 0x6].map checkedNib) = false := by decide +kernel

/-- The worked case after R167: the sixteen bytes of a PASS and its fields. -/
theorem test_instruction_word :
    (let w : Inst := BitVec.ofNat 128 (leNat ([0x03, 0x44, 0x31, 0x20, 0, 0, 0x10, 0, 0x12, 0, 0, 0, 0, 0, 0, 0] : List Byte))
     w = inst 3 4 4 1 3 2 0 0x10 0 0x12 0 0 ∧ iOpc w = 3 ∧ iMode w = 3 ∧ iDA w = 0x10 ∧ iDO w = 0x12) := by decide +kernel

/-- The worked case after R249: BLK_ID 12,345 wakes 2,000 us after its fuse read. -/
theorem test_wake_slot :
    (let s : State := { base with clk := 0, g := { base.g with blkId := 12345 }, boot := { base.boot with phase := 3, released := 0 } }
     match exec .wakeSlot s with
     | .next t => t.clk == 2220 * usLen && t.boot.phase == 4
     | _ => false) = true := by decide +kernel

end Sys2Proof.Tests
end

section
/-! Settles the statement about the reset state. -/

namespace Sys2Proof.Claims

open Sys2Proof Sys2Proof.Machine

theorem reset_cx (c : Ctx) : State.reset.cx c = {} := by
  revert c
  decide

theorem reset_by (b : Bay) : State.reset.by b = { spares := [.free, .free, .checksum] } := by
  revert b
  decide

/-- The reset state lists no byte of any memory. -/
theorem reset_memories : MemoriesOk State.reset :=
  ⟨Mem.nil_wf none, fun b => by rw [reset_by]; exact ⟨Mem.nil_wf none, Mem.nil_wf none⟩⟩

/-- Settles O57: every field of the reset state is its default. -/
theorem resetState : Obligations.ResetState := by
  refine ⟨rfl, rfl, rfl, rfl, rfl, rfl, rfl, rfl, rfl, rfl, rfl, rfl, fun c => ?_, fun b => ?_, by decide, reset_memories⟩
  · rw [reset_cx]
    exact ⟨rfl, rfl, rfl, by decide, rfl⟩
  · rw [reset_by]
    exact ⟨rfl, rfl, rfl, rfl⟩

end Sys2Proof.Claims
end

section
/-! Refutes the statement about bay grants. -/

namespace Sys2Proof.Claims

open Sys2Proof Sys2Proof.Machine

/-- A waiting DRAIN of T0 that carries the FIRST mark of chain 7. It was dispatched for bay 0 alone and takes that chain's bank there. -/
def markedDrain : Op :=
  { ctx := 0, q := .main, seq := 0, opc := 0x05, word := 0x00010005, qidx := 0, first := true, chain := 7, takes := [(0, 7)], named := 1,
    dO := { vrows := 1, vcols := 1 } }

/-- A running block with that DRAIN alone in flight. T0's set is bays 0 and 1; bay 0 holds the COMPLETE bank of chain 7, bay 1 is going out. -/
def markedState : State :=
  { fastOn := true
    boot := { ready := true }
    prot := { pri := .replicate 9 3 }
    ctx := (Vector.replicate 9 {}).set 0
      { chains := [{ id := 7, ctx := 0, kind := .pass, bays := 0, m := 1, n := 1, acc := .fp32, cpb := 128 }] }
    bay := #v[{ pstate := .running, bank1 := { st := .complete, chain := 7, m := 1, n := 1 } }, { outCmd := some .forced }, {}, {}]
    ops := [markedDrain] }

/-- Before its reservation the DRAIN stands for all of T0's set, so chain 7 counts as coming in bay 1 too: the grant finds no fault. -/
theorem markedDrain_grantFault : grantFault true (narrow markedDrain markedState) markedDrain = none := by decide +kernel

/-- Reserved, it stands for bay 0 alone: chain 7 no longer comes in bay 1, nothing is left to take, and the DRAIN ends with a fault. -/
theorem markedDrain_dropped : (grantBay 0 true markedState).ops = [] := by decide +kernel

/-- The DRAIN's set is bay 0, and reserving it completes the set. -/
theorem markedDrain_set : Machine.setOf (narrow markedDrain markedState) markedDrain = 1 := by decide +kernel

/-- So it does not start as the grant of its bays says. -/
theorem markedDrain_not_started :
    ¬ Started true markedState (narrow markedDrain markedState) markedDrain (grantBay 0 true markedState) := by
  unfold Started
  rw [markedDrain_grantFault]
  rintro ⟨p, hp, -⟩
  rw [markedDrain_dropped] at hp
  cases hp

/-- Refutes O28: reserving a bay can itself bring about the fault of the grant. The statement evaluates that fault on the operation
before its first reservation (none here), the model on the operation that stands for its reserved bay, where chain 7 comes in too few
bays. The state is allowed by the statement's hypotheses; dispatch gives no DRAIN a FIRST mark, which the statement does not ask. -/
theorem not_bayGrantReservesTheFirst : ¬ Obligations.BayGrantReservesTheFirst := by
  unfold Obligations.BayGrantReservesTheFirst
  intro h
  obtain ⟨-, h⟩ := h 0 true markedState (by decide) (by decide)
  obtain ⟨-, h⟩ := h (by decide +kernel)
  obtain ⟨h, -⟩ := h (by decide +kernel) (by unfold Named; decide +kernel)
  obtain ⟨t, o, u, set, ht, ho, -, -, -, -, rfl, rfl, h⟩ := h (by decide +kernel) (by decide +kernel) ⟨_, List.mem_cons_self, by decide +kernel⟩
  obtain rfl : o = markedDrain := List.mem_singleton.1 ho
  obtain rfl : grantBay 0 true markedState = t := Host.Outcome.next.inj ht
  rw [if_pos (show markedDrain.gset = 0 from rfl), markedDrain_set, if_neg (by decide), if_pos (by decide +kernel)] at h
  exact markedDrain_not_started h

end Sys2Proof.Claims
end

section
/-! SUPPORT. What the trace and the passing of time leave alone, said once for every field. -/

namespace Sys2Proof.Machine

open Sys2Proof

/-- Two states differ in the trace unit and the bays' trace buffers alone. -/
structure Traced (s t : State) : Prop where
  rest : t = { s with trace := t.trace, bay := t.bay }
  bays : ∀ b, t.by b = { s.by b with tbuf := (t.by b).tbuf }

theorem Traced.refl (s : State) : Traced s s := ⟨rfl, fun _ => rfl⟩

theorem Traced.trans {s t u : State} (h : Traced s t) (k : Traced t u) : Traced s u :=
  ⟨k.rest.trans (by rw [h.rest]), fun b => (k.bays b).trans (by rw [h.bays b])⟩

theorem Traced.of_trace (s : State) (x : Trace) : Traced s { s with trace := x } := ⟨rfl, fun _ => rfl⟩

theorem Traced.foldl {α : Type} {f : State → α → State} (h : ∀ s x, Traced s (f s x)) (l : List α) (s : State) :
    Traced s (l.foldl f s) := by
  induction l generalizing s with
  | nil => exact Traced.refl s
  | cons x l ih => exact (h s x).trans (ih _)

theorem ifThen_traced {b : Bool} {f : State → State} (h : ∀ s, Traced s (f s)) (s : State) : Traced s (State.ifThen b f s) := by
  cases b
  exacts [Traced.refl s, h s]

theorem modBuf_traced (s : State) (b : Option Bay) (f : TraceBuf → TraceBuf) : Traced s (s.modBuf b f) := by
  cases b with
  | none => exact Traced.of_trace s _
  | some b =>
    refine ⟨rfl, fun d => ?_⟩
    simp only [State.modBuf, modBay_by_cases]
    split
    · next e => rw [e]
    · rfl

theorem fireTrigger_traced (n : Nat) (s : State) : Traced s (fireTrigger n s) := by
  unfold fireTrigger
  exact (Traced.foldl (fun s _ => modBuf_traced s _ _) _ s).trans (modBuf_traced _ _ _)

theorem storeRec_traced (b : Option Bay) (rs : List TraceRec) (s : State) : Traced s (storeRec b rs s) := modBuf_traced ..

theorem emitUnit_traced (e c : Nat) (rs : List TraceRec) (s : State) : Traced s (emitUnit e c rs s) := by
  unfold emitUnit
  split
  · exact Traced.refl s
  · exact (ifThen_traced (fireTrigger_traced _) s).trans (storeRec_traced ..)

theorem emit_traced (r : TraceRec) (s : State) : Traced s (emit r s) := emitUnit_traced ..

theorem emitOp_traced (a b d : Nat) (o : Op) (s : State) : Traced s (emitOp a b d o s) := by
  unfold emitOp
  split
  exacts [emit_traced .., Traced.refl s]

theorem emitStall_traced (a b : Nat) (o : Op) (s : State) : Traced s (emitStall a b o s) := by
  unfold emitStall
  split
  exacts [emitOp_traced .., Traced.refl s]

theorem endStall_traced (o : Op) (s : State) : Traced s (endStall o s) := by
  unfold endStall
  split
  · exact (Traced.of_trace s _).trans (emitStall_traced ..)
  · exact Traced.refl s

theorem noteStall_traced (o : Op) (n : Nat) (s : State) : Traced s (noteStall o n s) := by
  unfold noteStall
  dsimp only
  split
  · exact Traced.refl s
  · split
    · exact endStall_traced o s
    · exact (endStall_traced o s).trans (Traced.of_trace ..)

theorem noteStalls_traced (s : State) : Traced s (noteStalls s) := by
  unfold noteStalls
  refine Traced.trans (Traced.foldl (fun s o => ?_) s.ops s) (Traced.of_trace ..)
  split
  exacts [noteStall_traced .., Traced.refl s]

/-- Two states differ in the clock and in what time and the trace move: counters, the damper, the trace unit and buffers. -/
structure Passed (s t : State) : Prop where
  rest : t = { s with clk := t.clk, cnt := t.cnt, damp := t.damp, trace := t.trace, bay := t.bay }
  bays : ∀ b, t.by b = { s.by b with busyCyc := (t.by b).busyCyc, sel := (t.by b).sel, tbuf := (t.by b).tbuf }

theorem Passed.refl (s : State) : Passed s s := ⟨rfl, fun _ => rfl⟩

theorem Passed.trans {s t u : State} (h : Passed s t) (k : Passed t u) : Passed s u :=
  ⟨k.rest.trans (by rw [h.rest]), fun b => (k.bays b).trans (by rw [h.bays b])⟩

theorem Traced.passed {s t : State} (h : Traced s t) : Passed s t := ⟨by rw [h.rest], fun b => by rw [h.bays b]⟩

theorem by_mapFinIdx (s : State) (f : (i : Nat) → BayState → i < 4 → BayState) (b : Bay) :
    (s.bay.mapFinIdx f).get b = f b.1 (s.by b) b.2 := by
  show (s.bay.mapFinIdx f)[b.1] = _
  simp only [Vector.getElem_mapFinIdx]
  rfl

theorem passTo_passed (t : Nat) (s : State) : Passed s (passTo t s) := by
  refine ⟨rfl, fun b => ?_⟩
  have h : (passTo t s).by b = _ := by_mapFinIdx s _ b
  rw [h]
  split <;> rfl

theorem advanceTo_passed (t : Nat) (s : State) : Passed s (advanceTo t s) := by
  unfold advanceTo
  split
  · exact Passed.refl s
  · exact (noteStalls_traced s).passed.trans (passTo_passed ..)

theorem at'_passed (t : Nat) (s : State) : Passed s (at' t s) := (advanceTo_passed ..).trans (advanceTo_passed ..)

theorem atBc_passed (s : State) : Passed s (atBc s) := advanceTo_passed ..

end Sys2Proof.Machine
end

section
/-! SUPPORT. What dispatch and reads leave of the lehr, and the operation that ROOT becomes. -/

namespace Sys2Proof.Machine

open Sys2Proof

theorem Traced.lehr {s t : State} (h : Traced s t) : t.lehr = s.lehr := by rw [h.rest]

theorem deliver_lehr (c : Ctx) (r : Rec) (s : State) : (deliver c r s).lehr = s.lehr := rfl

theorem memberFault_lehr (c : Ctx) (s : State) : (memberFault c s).lehr = s.lehr :=
  ifThen_eq State.lehr (f := dropWindow c) (fun _ => rfl) s

theorem ctxFault_lehr (c : Ctx) (code : Nat) (q : QSel) (idx aux : Nat) (s : State) : (ctxFault c code q idx aux s).lehr = s.lehr :=
  (emit_traced _ (s.modCtx c _)).lehr

theorem modBays_lehr (s : State) (l : List Bay) (f : Bay → BayState → BayState) : (s.modBays l f).lehr = s.lehr :=
  foldl_eq State.lehr (fun s b => modBay_lehr s b _) l s

theorem countOp_lehr (o : Op) (s : State) : (countOp o s).lehr = s.lehr := by
  unfold countOp
  split
  exacts [rfl, modBays_lehr ..]

theorem complete_lehr (o : Op) (s : State) : (complete o s).lehr = s.lehr := by
  unfold complete
  split
  · rfl
  · dsimp only
    rw [ifThen_eq State.lehr (deliver_lehr _ _), (emitOp_traced _ _ _ _ _).lehr, ifThen_eq State.lehr (memberFault_lehr _),
      ifThen_eq State.lehr (ctxFault_lehr _ _ _ _ _), (endStall_traced _ _).lehr, countOp_lehr]
    rfl

theorem takeHead_lehr (c : Ctx) (q : QSel) (w : Inst) (s : State) : (takeHead c q w s).lehr = s.lehr := by
  unfold takeHead
  dsimp only
  split
  · exact complete_lehr ..
  · rfl

theorem enqueue_lehr (o : Op) (s : State) : (enqueue o s).lehr = s.lehr := (emitOp_traced ..).lehr

theorem issueRd_lehr (b : Bay) (l : Nat) (far : Bool) (c : Ctx) (w : Owner) (s : State) : (issueRd b l far c w s).lehr = s.lehr := rfl

theorem issueRd_ctx (b : Bay) (l : Nat) (far : Bool) (c : Ctx) (w : Owner) (s : State) : (issueRd b l far c w s).ctx = s.ctx := rfl

theorem issueRd_ops (b : Bay) (l : Nat) (far : Bool) (c : Ctx) (w : Owner) (s : State) : (issueRd b l far c w s).ops = s.ops := rfl

theorem issueLines_lehr (o : Op) (c : Ctx) (f : Nat → Bool) (p : List Bay) (rs : List Range) (s : State) :
    (issueLines o c f p rs s).lehr = s.lehr := foldl_eq State.lehr (fun s _ => issueRd_lehr _ _ _ _ _ s) _ s

theorem issueLines_ctx (o : Op) (c : Ctx) (f : Nat → Bool) (p : List Bay) (rs : List Range) (s : State) :
    (issueLines o c f p rs s).ctx = s.ctx := foldl_eq State.ctx (fun s _ => issueRd_ctx _ _ _ _ _ s) _ s

/-- An operation whose reads go out stays among the operations, with their count. -/
theorem issueLines_mem {o p : Op} {c : Ctx} {f : Nat → Bool} {ports : List Bay} {rs : List Range} {s : State} (h : p ∈ s.ops)
    (hp : p.is o.ctx o.seq = true) : ∃ n, { p with rds := n } ∈ (issueLines o c f ports rs s).ops := by
  have hops := foldl_eq State.ops (fun s (x : Bay × Nat) => issueRd_ops x.1 x.2 (f x.2) c (.op o.ctx o.seq) s) (deal ports (rdLines rs)) s
  exact ⟨_, List.mem_map.2 ⟨p, hops ▸ h, if_pos hp⟩⟩

/-- What a lock member sees of its context is the context itself. -/
theorem memberView_cx (s : State) (c : Ctx) (q : QSel) (d : Ctx) : (memberView s c q).cx d = s.cx d := by
  unfold memberView
  split <;> rfl

/-! ### ROOT -/

/-- The operation of a ROOT that the lehr has taken at the time of `s`. -/
def takenRoot (s : State) (o : Op) : Op :=
  { o with stage := .granted, named := s.curSet o.ctx, tGrant := s.clk, tFirst := s.clk, tDue := s.clk }

/-- The job with which the lehr begins a ROOT. -/
def firstJob (s : State) (o : Op) : LehrJob :=
  { ctx := o.ctx, seq := o.seq, n := o.da.vrows, eps := rootEps o.word, chain := s.nextId }

theorem startJob_lehr (o : Op) (s : State) : (startJob o s).lehr = some (firstJob s o) :=
  (issueLines_lehr ..).trans (emitOp_traced ..).lehr

theorem startJob_ctx (o : Op) (s : State) : (startJob o s).ctx = s.ctx := (issueLines_ctx ..).trans (emitOp_ctx ..)

theorem startJob_keeps (o : Op) (s : State) : Keeps s (startJob o s) := by
  unfold startJob askInput
  dsimp only
  refine Keeps.trans ?_ ((emitOp_keeps _ _ _ _ _).trans (issueReads_keeps _ _ _ _))
  exact Keeps.of_eq rfl rfl rfl rfl rfl

/-- The ROOT that the lehr takes stands among the operations, granted, with its reads sent. -/
theorem startJob_mem {o : Op} {s : State} (h : o ∈ s.ops) (hs : o.side = false) :
    ∃ n, { takenRoot s o with rds := n } ∈ (startJob o s).ops := by
  have hi : o.is o.ctx o.seq = true := by simp [Op.is, Op.under, hs]
  refine issueLines_mem ?_ hi
  rw [emitOp_ops]
  exact List.mem_map.2 ⟨o, h, if_pos hi⟩

theorem startRoot_eq (o : Op) (s : State) :
    startRoot o s = if lehrOpen s = true ∧ ∀ p ∈ s.ops, ¬(p.opc = 0x0B ∧ p.stage = .waiting) then startJob o (enqueue o s) else enqueue o s := by
  have h : (s.ops.all fun p => !(p.opc == 0x0B && p.stage == .waiting)) = true ↔ ∀ p ∈ s.ops, ¬(p.opc = 0x0B ∧ p.stage = .waiting) := by
    simp [Classical.or_iff_not_imp_left]
  unfold startRoot
  simp only [Bool.and_eq_true, h]

/-- A free lehr for which no other ROOT waits takes a ROOT at once. -/
theorem startRoot_taken {o : Op} {s : State} (hs : o.side = false) (h : lehrOpen s = true)
    (hfirst : ∀ p ∈ s.ops, ¬(p.opc = 0x0B ∧ p.stage = .waiting)) :
    (∃ n, { takenRoot (enqueue o s) o with rds := n } ∈ (startRoot o s).ops) ∧
      (startRoot o s).lehr = some (firstJob (enqueue o s) o) := by
  rw [startRoot_eq, if_pos ⟨h, hfirst⟩]
  exact ⟨startJob_mem (by simp) hs, startJob_lehr ..⟩

/-- Otherwise it waits, and the lehr goes on with what it has. -/
theorem startRoot_waits {o : Op} {s : State} (h : ¬(lehrOpen s = true ∧ ∀ p ∈ s.ops, ¬(p.opc = 0x0B ∧ p.stage = .waiting))) :
    o ∈ (startRoot o s).ops ∧ (startRoot o s).lehr = s.lehr := by
  rw [startRoot_eq, if_neg h]
  exact ⟨by simp, enqueue_lehr ..⟩

theorem startRoot_ctx (o : Op) (s : State) : (startRoot o s).ctx = s.ctx := by
  rw [startRoot_eq]
  split
  · exact (startJob_ctx ..).trans (enqueue_ctx ..)
  · exact enqueue_ctx ..

theorem startRoot_keeps (o : Op) (s : State) : Keeps s (startRoot o s) := by
  rw [startRoot_eq]
  split
  · exact (enqueue_keeps ..).trans (startJob_keeps ..)
  · exact enqueue_keeps ..

/-! ### The operation served first -/

/-- The operation served first arrived no later than any other. -/
theorem firstArrival_spec (s : State) (l : List Op) (hl : l ≠ []) :
    ∃ o ∈ l, firstArrival s l = some o ∧ ∀ p ∈ l, o.tArr ≤ p.tArr := by
  have key : ∀ (l : List Op) (a : Op), ∃ o ∈ a :: l, (l.foldl (fun b o => match b with
      | some p => if o.tArr < p.tArr || (o.tArr == p.tArr && grantRank s o < grantRank s p) then some o else b
      | none => some o) (some a)) = some o ∧ ∀ p ∈ a :: l, o.tArr ≤ p.tArr := by
    intro l
    induction l with
    | nil => exact fun a => ⟨a, by simp⟩
    | cons x l ih =>
      intro a
      simp only [List.foldl_cons]
      split
      · next h =>
        obtain ⟨o, ho, he, hm⟩ := ih x
        have hx : x.tArr ≤ a.tArr := by simp at h; omega
        exact ⟨o, List.mem_cons_of_mem _ ho, he, by simp at hm ⊢; exact ⟨hm.1.trans hx, hm⟩⟩
      · next h =>
        obtain ⟨o, ho, he, hm⟩ := ih a
        have hx : a.tArr ≤ x.tArr := by simp at h; omega
        refine ⟨o, ?_, he, ?_⟩
        · simp at ho ⊢; tauto
        · simp at hm ⊢; exact ⟨hm.1, hm.1.trans hx, hm.2⟩
  cases l with
  | nil => exact absurd rfl hl
  | cons a l =>
    obtain ⟨o, ho, he, hm⟩ := key l a
    exact ⟨o, ho, he, hm⟩

end Sys2Proof.Machine

namespace Sys2Proof.Claims

open Sys2Proof Sys2Proof.Machine

/-- The operation of an instruction is the one that its dispatch makes. -/
theorem newOp_opOf (s : State) (c : Ctx) (q : QSel) (w : Inst) : OpOf s c q w (newOp (memberView s c q) c q w) where
  ctx := rfl
  queue := rfl
  seq := congrArg CtxState.seq (memberView_cx ..)
  word := rfl
  opc := rfl
  layer := congrArg (fun x => (CtxState.queue x q).layer.toNat) (memberView_cx ..)
  oper := congrArg (fun x => (CtxState.queue x q).oper.toNat) (memberView_cx ..)
  da h := if_pos h
  db h := if_pos h
  dO h := if_pos h
  dx h := if_pos h

/-- A ROOT that the lehr has taken is still the operation of its instruction. -/
theorem OpOf.takenRoot {s u : State} {c : Ctx} {q : QSel} {w : Inst} {o : Op} (h : OpOf s c q w o) (n : Nat) :
    OpOf s c q w { takenRoot u o with rds := n } :=
  ⟨h.ctx, h.queue, h.seq, h.word, h.opc, h.layer, h.oper, h.da, h.db, h.dO, h.dx⟩

/-- A queue that moves on, and then an effect that keeps contexts and memories, changes no other context and no values. -/
theorem onlyCtx_of_takeHead {c : Ctx} {q : QSel} {w : Inst} {s t : State} (h : t.ctx = (takeHead c q w s).ctx)
    (k : Keeps (takeHead c q w s) t) :
    (t.cx c).seq = (s.cx c).seq + 1 ∧ OnlyCtx c s t ∧ SameValues (s.cx c) (t.cx c) := by
  have m := takeHead_moved c q w s
  have k := (takeHead_keeps c q w s).trans k
  have e := cx_of_ctx h
  exact ⟨by rw [e, m.seq], ⟨fun d hd => by rw [e, m.others d hd], k.staging, k.banks, k.prot⟩,
    by rw [e]; exact ⟨m.sem, m.sticky, m.cullet, m.masks, m.rough⟩⟩

theorem sameSetup_of_keeps {s t : State} (k : Keeps s t) : SameSetup s t := ⟨k.prot, k.build, k.pending⟩

theorem root_dispatch {c : Ctx} {q : QSel} {s : State} {w : Inst} (h : Ready s c q 0x0B w) :
    exec (.root c q) s = .next (startRoot (newOp (memberView s c q) c q w) (takeHead c q w s)) :=
  congrArg Host.Outcome.next (dispatch_ready h.next h.opcode h.runs h.turn h.free h.checks h.holds rfl)

/-- A free lehr takes the ROOT that has waited longest. -/
theorem rootAccept_takes {s : State} {p : Op} (hopen : lehrOpen s = true) (hp : p ∈ s.ops) (hopc : p.opc = 0x0B) (hst : p.stage = .waiting) :
    ∃ o ∈ s.ops, exec .rootAccept s = .next (startJob o s) ∧ o.opc = 0x0B ∧ o.stage = .waiting ∧
      ∀ p ∈ s.ops, p.opc = 0x0B → p.stage = .waiting → o.tArr ≤ p.tArr := by
  have hmem : p ∈ s.ops.filter fun o => o.opc == 0x0B && o.stage == .waiting := by simp [hp, hopc, hst]
  obtain ⟨o, ho, hfirst, hmin⟩ := firstArrival_spec s _ (List.ne_nil_of_mem hmem)
  simp only [List.mem_filter, Bool.and_eq_true, beq_iff_eq] at ho hmin
  have hrun : execRootAccept s = .next (startJob o s) := by simp [execRootAccept, hopen, hfirst]
  exact ⟨o, ho.1, hrun, ho.2.1, ho.2.2, fun p hp h1 h2 => hmin p ⟨hp, h1, h2⟩⟩

/-- Settles O20: dispatch puts the operation in flight, and the lehr takes it or leaves it waiting as `startRoot` decides. -/
theorem rootEntersTheLehr : Obligations.RootEntersTheLehr := by
  refine ⟨fun c q s w h => ?_, fun s hopen ⟨p, hp, hopc, hst⟩ => ?_⟩
  · obtain ⟨hseq, honly, hsame⟩ := onlyCtx_of_takeHead (startRoot_ctx (newOp (memberView s c q) c q w) (takeHead c q w s))
      (startRoot_keeps ..)
    have hop := newOp_opOf s c q w
    rw [root_dispatch h]
    by_cases hfirst : lehrOpen (takeHead c q w s) = true ∧ ∀ p ∈ (takeHead c q w s).ops, ¬(p.opc = 0x0B ∧ p.stage = .waiting)
    · obtain ⟨⟨n, hn⟩, hlehr⟩ := startRoot_taken (o := newOp (memberView s c q) c q w) rfl hfirst.1 hfirst.2
      refine ⟨_, _, rfl, hn, hop.takenRoot n, hseq, honly, hsame, fun _ _ => ⟨rfl, _, hlehr, rfl, hop.seq, rfl, rfl, rfl, rfl⟩, ?_⟩
      rintro (hno | ⟨p, hp, hw⟩)
      · exact absurd hfirst.1 (by simp [hno])
      · exact absurd hw (hfirst.2 p hp)
    · obtain ⟨hn, hlehr⟩ := startRoot_waits (o := newOp (memberView s c q) c q w) hfirst
      exact ⟨_, _, rfl, hn, hop, hseq, honly, hsame, fun h1 h2 => absurd ⟨h1, h2⟩ hfirst,
        fun _ => ⟨rfl, hlehr.trans (takeHead_lehr ..)⟩⟩
  · obtain ⟨o, ho, hrun, hopc, hst, hmin⟩ := rootAccept_takes hopen hp hopc hst
    have hk := startJob_keeps o s
    exact ⟨_, o, _, hrun, ho, hopc, hst, hmin, startJob_lehr .., rfl, rfl, rfl, startJob_ctx .., hk.staging, sameSetup_of_keeps hk⟩

end Sys2Proof.Claims
end

section
/-! SUPPORT. What the resets clear of contexts and bays, and what they leave of everything else. -/

namespace Sys2Proof.Machine

open Sys2Proof Sys2Proof.Claims

/-- Two states differ in contexts, bays, registers, trace and free values alone. -/
def Within (s t : State) : Prop :=
  t = { s with ctx := t.ctx, bay := t.bay, regs := t.regs, trace := t.trace, nfree := t.nfree }

theorem Within.refl (s : State) : Within s s := rfl

theorem Within.trans {s t u : State} (h : Within s t) (k : Within t u) : Within s u := by
  unfold Within at *
  rw [k, h]

theorem Within.foldl {α : Type} {f : State → α → State} (h : ∀ s x, Within s (f s x)) (l : List α) (s : State) :
    Within s (l.foldl f s) := by
  induction l generalizing s with
  | nil => exact Within.refl s
  | cons x l ih => exact (h s x).trans (ih _)

theorem modBay_within (s : State) (b : Bay) (f : BayState → BayState) : Within s (s.modBay b f) := rfl

theorem modBays_within (s : State) (l : List Bay) (f : Bay → BayState → BayState) : Within s (s.modBays l f) :=
  Within.foldl (fun s b => modBay_within s b (f b)) l s

section
variable {s t : State} (h : Within s t)
include h

theorem Within.build : t.build = s.build := by rw [h]
theorem Within.clk : t.clk = s.clk := by rw [h]
theorem Within.g : t.g = s.g := by rw [h]
theorem Within.boot : t.boot = s.boot := by rw [h]
theorem Within.prot : t.prot = s.prot := by rw [h]
theorem Within.ops : t.ops = s.ops := by rw [h]
theorem Within.staging : t.staging = s.staging := by rw [h]
theorem Within.ras : t.ras = s.ras := by rw [h]
theorem Within.xch : t.xch = s.xch := by rw [h]
theorem Within.cnt : t.cnt = s.cnt := by rw [h]
theorem Within.pending : t.pending = s.pending := by rw [h]
theorem Within.fastOn : t.fastOn = s.fastOn := by rw [h]
theorem Within.dbg : t.dbg = s.dbg := by rw [h]

end

/-! ### Shadows -/

/-- Two states differ in the shadows of the register port alone. -/
def Shadowed (s t : State) : Prop := t = { s with regs := { s.regs with shadows := t.regs.shadows } }

theorem Shadowed.refl (s : State) : Shadowed s s := rfl

theorem Shadowed.trans {s t u : State} (h : Shadowed s t) (k : Shadowed t u) : Shadowed s u := by
  unfold Shadowed at *
  rw [k, h]

theorem Shadowed.foldl {α : Type} {f : State → α → State} (h : ∀ s x, Shadowed s (f s x)) (l : List α) (s : State) :
    Shadowed s (l.foldl f s) := by
  induction l generalizing s with
  | nil => exact Shadowed.refl s
  | cons x l ih => exact (h s x).trans (ih _)

theorem refresh_shadowed (n : Nat) (s : State) : Shadowed s (refresh n s) := rfl

theorem refreshAll_shadowed (p : Domain → Bool) (s : State) : Shadowed s (refreshAll p s) := by
  refine Shadowed.foldl (fun s n => ?_) _ s
  split
  · split
    exacts [refresh_shadowed .., Shadowed.refl s]
  · exact Shadowed.refl s

theorem refreshNative_shadowed (c : Ctx) (s : State) : Shadowed s (refreshNative c s) :=
  Shadowed.foldl (fun s _ => refresh_shadowed _ s) _ s

theorem nativeShadows_shadowed (n : Nat) (s : State) : Shadowed s (nativeShadows n s) := by
  unfold nativeShadows
  repeat' split
  · exact Shadowed.refl s
  · exact refreshNative_shadowed ..
  · exact refreshNative_shadowed ..
  · exact Shadowed.foldl (fun s _ => refresh_shadowed _ s) _ s
  · exact Shadowed.refl s

theorem stopShadows_shadowed (b : Bay) (s : State) : Shadowed s (stopShadows b s) := by
  unfold stopShadows
  split
  exacts [refreshAll_shadowed .., Shadowed.refl s]

theorem Shadowed.within {s t : State} (h : Shadowed s t) : Within s t := by
  unfold Shadowed at h
  unfold Within
  rw [h]

/-! ### Contexts -/

/-- A context lost chains and mask slots alone. -/
structure Emptied (x y : CtxState) : Prop where
  rest : y = { x with chains := y.chains, masks := y.masks }
  chains : x.chains = [] → y.chains = []
  masks : (∀ i, x.masks.get i = none) → ∀ i, y.masks.get i = none

theorem Emptied.refl (x : CtxState) : Emptied x x := ⟨rfl, id, id⟩

theorem Emptied.trans {x y z : CtxState} (h : Emptied x y) (k : Emptied y z) : Emptied x z :=
  ⟨k.rest.trans (by rw [h.rest]), k.chains ∘ h.chains, k.masks ∘ h.masks⟩

theorem afterReset_cleared (x : CtxState) : CtxCleared x x.afterReset where
  queues := ⟨rfl, rfl, rfl, rfl, rfl, rfl, rfl, rfl, rfl⟩
  marks := ⟨rfl, rfl, rfl, rfl, rfl, rfl, rfl, rfl, rfl, rfl⟩
  completion := ⟨rfl, rfl, rfl, rfl, rfl, rfl, rfl⟩
  values := ⟨by simp only [CtxState.afterReset]; decide, by simp only [CtxState.afterReset]; decide, by simp only [CtxState.afterReset]; decide, rfl⟩
  work := ⟨rfl, by simp only [CtxState.afterReset]; decide, rfl, rfl⟩
  kept := ⟨rfl, rfl, rfl, rfl, rfl, rfl, rfl, rfl, rfl, rfl, rfl, rfl, rfl, rfl⟩

theorem cleared_emptied {x y z : CtxState} (h : CtxCleared x y) (k : Emptied y z) : CtxCleared x z := by
  have hc := k.chains h.work.1
  have hm := k.masks h.work.2.1
  rw [k.rest]
  exact ⟨h.queues, h.marks, h.completion, h.values, ⟨hc, hm, h.work.2.2⟩, h.kept⟩

theorem clearCtx_cx (s : State) (c d : Ctx) : (clearCtx s c).cx d = if d = c then (s.cx c).afterReset else s.cx d :=
  modCtx_cx_cases s c CtxState.afterReset d

/-- A warm reset resets every context once. -/
theorem clearCtxs_cx (l : List Ctx) (s : State) (c : Ctx) :
    (l.foldl clearCtx s).cx c = if c ∈ l then (s.cx c).afterReset else s.cx c := by
  induction l generalizing s with
  | nil => simp
  | cons d l ih =>
    rw [List.foldl_cons, ih, clearCtx_cx]
    by_cases h : c = d
    · subst h
      simp only [if_true, List.mem_cons, true_or]
      split <;> rfl
    · simp [h]

theorem releaseChain_emptied (k : Ctx) (n : Nat) (s : State) (c : Ctx) : Emptied (s.cx c) ((releaseChain k n s).cx c) := by
  have h : (releaseChain k n s).cx c = _ := modCtx_cx_cases s k (fun x => { x with chains := x.chains.filter (·.id != n) }) c
  rw [h]
  split
  · next e => subst e; exact ⟨rfl, fun h => by simp [h], id⟩
  · exact Emptied.refl _

theorem vget_map {α β : Type} {n : Nat} (f : α → β) (v : Vector α n) (i : Fin n) : (v.map f).get i = f (v.get i) := by
  show (v.map f)[i.1] = f v[i.1]
  simp

theorem emptySlots_emptied (b : Bay) (s : State) (c : Ctx) : Emptied (s.cx c) ((emptySlots b s).cx c) := by
  have h : (emptySlots b s).cx c = _ := vget_map _ s.ctx c
  rw [h]
  refine ⟨rfl, id, fun hm i => ?_⟩
  dsimp only
  rw [vget_map, show (s.ctx.get c).masks.get i = none from hm i]

theorem clearBay_emptied (b : Bay) (s : State) (c : Ctx) : Emptied (s.cx c) ((clearBay b s).cx c) := by
  have h : ∀ (l : List Bank) (s : State), Emptied (s.cx c) ((l.foldl (fun s k => releaseChain k.ctx k.chain s) s).cx c) := by
    intro l
    induction l with
    | nil => exact fun s => Emptied.refl _
    | cons k l ih => exact fun s => (releaseChain_emptied ..).trans (ih _)
  exact (h _ s).trans (emptySlots_emptied ..)

/-! ### Bays -/

/-- What no reset but a bay's own changes of it: the memories, the repaired columns. -/
structure KeptBay (x y : BayState) : Prop where
  banks : SameBanks x y
  retired : y.retired = x.retired
  spares : y.spares = x.spares

theorem KeptBay.refl (x : BayState) : KeptBay x x := ⟨⟨rfl, rfl⟩, rfl, rfl⟩

theorem KeptBay.trans {x y z : BayState} (h : KeptBay x y) (k : KeptBay y z) : KeptBay x z :=
  ⟨⟨k.banks.1.trans h.banks.1, k.banks.2.trans h.banks.2⟩, k.retired.trans h.retired, k.spares.trans h.spares⟩

/-- A bay as a warm reset leaves it (R233). -/
structure WarmBay (y : BayState) : Prop where
  power : y.pstate = .powerGated
  banks : y.bank0.st = .free ∧ y.bank1.st = .free
  face : y.face = none
  tag : y.tag = none
  recs : ∀ c, y.recs.get c = none
  counts : y.busyCyc = 0 ∧ y.opsRet = 0 ∧ y.eccCor = 0 ∧ y.eccUnc = 0 ∧ y.lag = 0

/-- A step of a reset at a bay: it keeps what `KeptBay` says, and a bay that is reset stays so. -/
structure ResetStep (x y : BayState) : Prop where
  kept : KeptBay x y
  warm : WarmBay x → WarmBay y

theorem ResetStep.refl (x : BayState) : ResetStep x x := ⟨KeptBay.refl x, id⟩

theorem ResetStep.trans {x y z : BayState} (h : ResetStep x y) (k : ResetStep y z) : ResetStep x z :=
  ⟨h.kept.trans k.kept, k.warm ∘ h.warm⟩

/-- A change of the state of a bank that keeps its contents, and a FREE bank FREE. -/
structure Fades (f : Bank → Bank) : Prop where
  mem : ∀ k, (f k).mem = k.mem
  free : ∀ k, k.st = .free → (f k).st = .free

theorem modBanks_resetStep {f : Bank → Bank} (h : Fades f) (x : BayState) : ResetStep x (x.modBanks f) :=
  ⟨⟨⟨h.mem _, h.mem _⟩, rfl, rfl⟩, fun w => ⟨w.power, ⟨h.free _ w.banks.1, h.free _ w.banks.2⟩, w.face, w.tag, w.recs, w.counts⟩⟩

theorem freeIf_fades (p : Bank → Bool) : Fades fun k => if p k then k.free else k := by
  refine ⟨fun k => ?_, fun k h => ?_⟩ <;> by_cases hp : p k = true
  · simp [hp, Bank.free]
  · simp [hp]
  · simp [hp, Bank.free]
  · simpa [hp] using h

theorem by_map (s : State) (f : BayState → BayState) (b : Bay) : (s.bay.map f).get b = f (s.by b) := vget_map ..

theorem releaseChain_step (k : Ctx) (id : Nat) (s : State) (b : Bay) : ResetStep (s.by b) ((releaseChain k id s).by b) := by
  have h : (releaseChain k id s).by b = _ := by_map s _ b
  rw [h]
  exact modBanks_resetStep (freeIf_fades _) _

theorem forgetCtx_step (c : Ctx) (x : BayState) : ResetStep x (x.forgetCtx c) := by
  have h := modBanks_resetStep (freeIf_fades fun k => k.st != .free && k.ctx == c) x
  refine ⟨⟨h.kept.banks, rfl, rfl⟩, fun w => ?_⟩
  have w' := h.warm w
  refine ⟨w.power, w'.banks, w.face, ?_, fun d => ?_, w.counts⟩
  · simp [BayState.forgetCtx, w.tag]
  · simp only [BayState.forgetCtx, get_set, w.recs, ite_self]

theorem clearCtx_step (s : State) (c : Ctx) (b : Bay) : ResetStep (s.by b) ((clearCtx s c).by b) := by
  have h : (clearCtx s c).by b = _ := by_map s (BayState.forgetCtx c) b
  rw [h]
  exact forgetCtx_step ..

/-- A relation between a bay before and after each step of a fold relates it before and after the fold. -/
theorem foldl_by {α : Type} {R : BayState → BayState → Prop} (hr : ∀ x, R x x) (ht : ∀ {x y z}, R x y → R y z → R x z)
    {f : State → α → State} {b : Bay} (h : ∀ s x, R (s.by b) ((f s x).by b)) (l : List α) (s : State) :
    R (s.by b) ((l.foldl f s).by b) := by
  induction l generalizing s with
  | nil => exact hr _
  | cons x l ih => exact ht (h s x) (ih _)

theorem clearCtx_within (s : State) (c : Ctx) : Within s (clearCtx s c) := rfl

theorem releaseChain_within (c : Ctx) (n : Nat) (s : State) : Within s (releaseChain c n s) := rfl

theorem emptySlots_within (b : Bay) (s : State) : Within s (emptySlots b s) := rfl

theorem clearBay_within (b : Bay) (s : State) : Within s (clearBay b s) := by
  unfold clearBay
  exact ((Within.foldl (fun s (k : Bank) => releaseChain_within k.ctx k.chain s) _ s).trans (emptySlots_within b _)).trans (modBay_within ..)

/-- One bay in a warm reset: its chains go, then all it holds. -/
def warmBay (s : State) (b : Bay) : State := (clearBay b s).modBay b BayState.warm

theorem warmBay_within (s : State) (b : Bay) : Within s (warmBay s b) :=
  (clearBay_within b s).trans (modBay_within ..)

theorem warmBay_emptied (s : State) (b : Bay) (c : Ctx) : Emptied (s.cx c) ((warmBay s b).cx c) := clearBay_emptied b s c

/-- The bay of a warm reset's step keeps its memories and columns and is reset; the others only lose FILLING banks. -/
theorem warmBay_step (s : State) (b d : Bay) :
    ResetStep (s.by d) ((warmBay s b).by d) ∧ (d = b → WarmBay ((warmBay s b).by d)) := by
  have h1 := foldl_by (R := ResetStep) ResetStep.refl ResetStep.trans (b := d) (fun s (k : Bank) => releaseChain_step k.ctx k.chain s d)
    ([(s.by b).bank0, (s.by b).bank1].filter (·.st != .free)) s
  unfold warmBay clearBay
  dsimp only
  generalize List.foldl _ s _ = u at h1
  by_cases e : d = b
  · subst e
    have hw : ∀ x : BayState, WarmBay (BayState.warm { x.modBanks Bank.free with
        tag := none, face := none, redo := false, recs := .replicate 9 none, fill1 := false, scanned := false }) :=
      fun x => ⟨rfl, ⟨rfl, rfl⟩, rfl, rfl, by simp only [BayState.warm]; decide, rfl, rfl, rfl, rfl, rfl⟩
    simp only [modBay_by]
    exact ⟨⟨⟨h1.kept.banks, h1.kept.retired, h1.kept.spares⟩, fun _ => hw _⟩, fun _ => hw _⟩
  · rw [modBay_by_ne _ _ _ e, modBay_by_ne _ _ _ e]
    exact ⟨h1, fun h => absurd h e⟩

/-! ### The warm reset -/

/-- A warm reset takes every operation out of the block and resets every context. -/
def clearTenants (s : State) : State := allCtx.foldl clearCtx { s with ops := [], svu := none, topk := none, lehr := none }

/-- It then resets every bay. -/
def clearAll (s : State) : State := (clearTenants s).bays.foldl warmBay (clearTenants s)

theorem clearTenants_within (s : State) : Within { s with ops := [], svu := none, topk := none, lehr := none } (clearTenants s) :=
  Within.foldl clearCtx_within _ _

theorem clearAll_within (s : State) : Within { s with ops := [], svu := none, topk := none, lehr := none } (clearAll s) :=
  (clearTenants_within s).trans (Within.foldl warmBay_within _ _)

theorem clearAll_cx (s : State) (c : Ctx) : CtxCleared (s.cx c) ((clearAll s).cx c) := by
  have h : ∀ (l : List Bay) (u : State), Emptied (u.cx c) ((l.foldl warmBay u).cx c) := by
    intro l
    induction l with
    | nil => exact fun u => Emptied.refl _
    | cons b l ih => exact fun u => (warmBay_emptied u b c).trans (ih _)
  have hc : (clearTenants s).cx c = (s.cx c).afterReset := by
    rw [clearTenants, clearCtxs_cx, if_pos (show c ∈ allCtx from List.mem_finRange c)]
    rfl
  have hb : Emptied ((clearTenants s).cx c) ((clearAll s).cx c) := h (clearTenants s).bays (clearTenants s)
  rw [hc] at hb
  exact cleared_emptied (afterReset_cleared (s.cx c)) hb

theorem mem_bays {s : State} {b : Bay} : b ∈ s.bays ↔ s.present b = true := by
  simp [State.bays, State.present, allBays]

/-- A bay that a fold of resets reaches is reset at its end. -/
theorem foldl_warmBay {l : List Bay} {b : Bay} (h : b ∈ l) (s : State) : WarmBay ((l.foldl warmBay s).by b) := by
  induction l generalizing s with
  | nil => cases h
  | cons d l ih =>
    rw [List.foldl_cons]
    by_cases e : b = d
    · exact (foldl_by (R := ResetStep) ResetStep.refl ResetStep.trans (fun s x => (warmBay_step s x b).1) l _).warm
        ((warmBay_step s d b).2 e)
    · exact ih ((List.mem_cons.1 h).resolve_left e) _

theorem clearAll_kept (s : State) (b : Bay) : KeptBay (s.by b) ((clearAll s).by b) :=
  (foldl_by (R := ResetStep) ResetStep.refl ResetStep.trans (fun s c => clearCtx_step s c b) allCtx
      { s with ops := [], svu := none, topk := none, lehr := none }).kept.trans
    (foldl_by (R := ResetStep) ResetStep.refl ResetStep.trans (fun s x => (warmBay_step s x b).1) (clearTenants s).bays (clearTenants s)).kept

theorem clearAll_warm {s : State} {b : Bay} (h : s.present b = true) : WarmBay ((clearAll s).by b) := by
  have hb : (clearTenants s).build = s.build := by rw [clearTenants_within s]
  refine foldl_warmBay (mem_bays.2 ?_) _
  rw [State.present, hb]
  exact h

/-- What a warm reset clears, and what it keeps but for memories and start-up (R233). -/
structure Cleared (s t : State) : Prop where
  fast : t.fastOn = false
  ops : t.ops = []
  ctx : ∀ c, CtxCleared (s.cx c) (t.cx c)
  ring : t.xch.joined = false ∧ t.xch.seqnos = []
  counts : t.cnt.busy = 0 ∧ t.cnt.ops = 0
  limits : t.g.foTmo = s.g.foTmo
  setup : SameSetup s t
  columns : ∀ b, (t.by b).retired = (s.by b).retired ∧ (t.by b).spares = (s.by b).spares
  warm : ∀ b, s.present b = true → WarmBay (t.by b)

/-- The fields of the block that a warm reset clears beside its tenants and bays. -/
def restarted (s : State) : State :=
  { s with
    holdI := timebaseSub s, holdU := s.clk / ucLen, fastOn := false, fastReq := false, fastGo := false
    rrPrio := 7, rrMain := 7
    g := { s.g with failover := none, opBusy := false, opsReq := false, opTgt := s.g.opCur, repBusy := false }
    xch := { out := s.xch.out }
    cnt := { s.cnt with busy := 0, ops := 0, gsel := s.cnt.gsel.map SelCnt.zero }
    damp := { start := s.damp.start, cap := s.damp.cap, fcFrom := s.damp.fcFrom, fused := s.damp.fused }
    dbg := { s.dbg with halted := false, reqAt := if haltReq s then some s.clk else none, reqWin := false, snapBusy := false, image := [], commonScanned := false }
    ras := { s.ras with fatal := false }
    trace := { s.trace with stalls := [], rings := s.trace.rings.map fun x => { x with flight := 0, gone := 0 } } }

theorem warmClear_eq (s : State) : warmClear s = refreshAll (fun _ => true) (restarted (clearAll s)) := rfl

theorem restarted_cleared (s : State) : Cleared s (restarted (clearAll s)) := by
  have h := clearAll_within s
  have hg : (clearAll s).g.foTmo = s.g.foTmo := congrArg Global.foTmo h.g
  exact ⟨rfl, h.ops, clearAll_cx s, ⟨rfl, rfl⟩, ⟨rfl, rfl⟩, hg, ⟨h.prot, h.build, h.pending⟩,
    fun b => ⟨(clearAll_kept s b).retired, (clearAll_kept s b).spares⟩, fun _ => clearAll_warm⟩

/-! ### What happens beside a reset -/

/-- Nothing differs that a reset clears: memories, trace, registers, the log, start-up and the wakes asked for may. -/
structure Aside (t u : State) : Prop where
  rest : u = { t with boot := u.boot, bay := u.bay, staging := u.staging, trace := u.trace, regs := u.regs, nfree := u.nfree,
                      fastReq := u.fastReq, fastAt := u.fastAt, ras := u.ras }
  columns : ∀ b, (u.by b).retired = (t.by b).retired ∧ (u.by b).spares = (t.by b).spares
  warm : ∀ b, WarmBay (t.by b) → WarmBay (u.by b)

theorem Aside.refl (t : State) : Aside t t := ⟨rfl, fun _ => ⟨rfl, rfl⟩, fun _ => id⟩

theorem Aside.trans {s t u : State} (h : Aside s t) (k : Aside t u) : Aside s u :=
  ⟨k.rest.trans (by rw [h.rest]), fun b => ⟨(k.columns b).1.trans (h.columns b).1, (k.columns b).2.trans (h.columns b).2⟩,
    fun b => k.warm b ∘ h.warm b⟩

theorem Aside.foldl {α : Type} {f : State → α → State} (h : ∀ s x, Aside s (f s x)) (l : List α) (s : State) : Aside s (l.foldl f s) := by
  induction l generalizing s with
  | nil => exact Aside.refl s
  | cons x l ih => exact (h s x).trans (ih _)

theorem Shadowed.aside {t u : State} (h : Shadowed t u) : Aside t u := by
  rw [h]
  exact ⟨rfl, fun _ => ⟨rfl, rfl⟩, fun _ => id⟩

/-- A change of a bay that neither moves a column nor undoes its reset. -/
theorem modBay_aside (s : State) (b : Bay) {f : BayState → BayState} (h : ∀ x, (f x).retired = x.retired ∧ (f x).spares = x.spares)
    (w : ∀ x, WarmBay x → WarmBay (f x)) : Aside s (s.modBay b f) := by
  refine ⟨rfl, fun d => ?_, fun d hd => ?_⟩ <;> rw [modBay_by_cases] <;> split
  · next e => subst e; exact h _
  · exact ⟨rfl, rfl⟩
  · next e => subst e; exact w _ hd
  · exact hd

theorem Cleared.aside {s t u : State} (h : Cleared s t) (k : Aside t u) : Cleared s u := by
  have hc := fun b => (k.columns b).1.trans (h.columns b).1
  have hs := fun b => (k.columns b).2.trans (h.columns b).2
  have hw := fun b hb => k.warm b (h.warm b hb)
  obtain ⟨hf, ho, hx, hr, hn, hl, ⟨h1, h2, h3⟩, -, -⟩ := h
  rw [k.rest] at hc hs hw ⊢
  exact ⟨hf, ho, hx, hr, hn, hl, ⟨h1, h2, h3⟩, fun b => ⟨hc b, hs b⟩, hw⟩

/-- What stood before a reset may have seen time pass or an error reported. -/
theorem Cleared.before {r s t : State} (h : Cleared s t) (hx : s.ctx = r.ctx) (hg : s.g = r.g) (hs : SameSetup r s)
    (hb : ∀ b, (s.by b).retired = (r.by b).retired ∧ (s.by b).spares = (r.by b).spares) : Cleared r t where
  fast := h.fast
  ops := h.ops
  ctx c := cx_of_ctx hx c ▸ h.ctx c
  ring := h.ring
  counts := h.counts
  limits := hg ▸ h.limits
  setup := ⟨h.setup.prot.trans hs.prot, h.setup.build.trans hs.build, h.setup.pending.trans hs.pending⟩
  columns b := ⟨(h.columns b).1.trans (hb b).1, (h.columns b).2.trans (hb b).2⟩
  warm b hp := h.warm b (by rw [State.present, hs.build]; exact hp)

theorem warmClear_cleared (s : State) : Cleared s (warmClear s) := by
  rw [warmClear_eq]
  exact (restarted_cleared s).aside (refreshAll_shadowed ..).aside

theorem warmClear_boot (s : State) : (warmClear s).boot = s.boot := by
  rw [warmClear_eq, refreshAll_shadowed]
  exact (clearAll_within s).boot

theorem warmClear_log (s : State) : (warmClear s).ras.log = s.ras.log := by
  rw [warmClear_eq, refreshAll_shadowed]
  exact (congrArg Ras.log (clearAll_within s).ras :)

theorem warmClear_memories (s : State) : SameMemories s (warmClear s) := by
  rw [warmClear_eq, refreshAll_shadowed]
  exact ⟨(clearAll_within s).staging, fun b => (clearAll_kept s b).banks⟩

theorem askFast_aside (s : State) : Aside s (askFast s) := by
  unfold askFast
  split
  exacts [Aside.refl s, ⟨rfl, fun _ => ⟨rfl, rfl⟩, fun _ => id⟩]

theorem askWakes_aside (t : Nat) (s : State) : Aside s (s.modBays s.bays fun _ x => { x with wakeReq := true, wakeAt := t }) :=
  Aside.foldl (fun s b => modBay_aside s b (f := fun x => { x with wakeReq := true, wakeAt := t }) (fun _ => ⟨rfl, rfl⟩)
    fun _ w => ⟨w.power, w.banks, w.face, w.tag, w.recs, w.counts⟩) s.bays s

theorem wakeAll_aside (s : State) : Aside s (wakeAll s) := (askWakes_aside s.clk s).trans (askFast_aside _)

theorem askFast_keeps (s : State) : Keeps s (askFast s) := by
  unfold askFast
  split
  exacts [Keeps.refl s, Keeps.of_eq rfl rfl rfl rfl rfl]

theorem wakeAll_keeps (s : State) : Keeps s (wakeAll s) :=
  (modBays_keeps s s.bays (f := fun _ x => { x with wakeReq := true, wakeAt := s.clk }) fun _ _ => ⟨rfl, rfl⟩).trans (askFast_keeps _)

theorem askFast_boot (s : State) : (askFast s).boot = s.boot := by unfold askFast; split <;> rfl

theorem wakeAll_boot (s : State) : (wakeAll s).boot = s.boot := (askFast_boot _).trans (modBays_within ..).boot

end Sys2Proof.Machine
end

section
/-! Settles the statement about the block's resets: how the block restarts at phase 4, and how a rail excursion leaves its memories. -/

namespace Sys2Proof.Machine

open Sys2Proof Sys2Proof.Claims

/-! ### Warm reset -/

/-- Start-up goes back to the begin of phase 4. -/
def toPhaseFour (s : State) : State :=
  { s with boot := { s.boot with phase := 4, ready := false, cfail := false, cold := false, started := s.clk } }

theorem warmReset_eq (s : State) : warmReset s = wakeAll (toPhaseFour (warmClear s)) := rfl

theorem toPhaseFour_aside (s : State) : Aside s (toPhaseFour s) := ⟨rfl, fun _ => ⟨rfl, rfl⟩, fun _ => id⟩

theorem warmReset_cleared (s : State) : Cleared s (warmReset s) := by
  rw [warmReset_eq]
  exact ((warmClear_cleared s).aside (toPhaseFour_aside _)).aside (wakeAll_aside _)

theorem wakeAll_toPhaseFour (s : State) : (wakeAll (toPhaseFour s)).boot.phase = 4 ∧ (wakeAll (toPhaseFour s)).boot.ready = false := by
  rw [wakeAll_boot]
  exact ⟨rfl, rfl⟩

theorem warmReset_boot (s : State) : (warmReset s).boot.phase = 4 ∧ (warmReset s).boot.ready = false := wakeAll_toPhaseFour (warmClear s)

theorem askFast_ras (s : State) : (askFast s).ras = s.ras := by unfold askFast; split <;> rfl

theorem wakeAll_ras (s : State) : (wakeAll s).ras = s.ras := (askFast_ras _).trans (modBays_within ..).ras

theorem wakeAll_toPhaseFour_log (s : State) : (wakeAll (toPhaseFour s)).ras.log = s.ras.log := by
  rw [wakeAll_ras]
  rfl

theorem warmReset_log (s : State) : (warmReset s).ras.log = s.ras.log := (wakeAll_toPhaseFour_log (warmClear s)).trans (warmClear_log s)

theorem memories_trans {s t u : State} (h : SameMemories s t) (k : SameMemories t u) : SameMemories s u :=
  ⟨k.1.trans h.1, fun b => ⟨(k.2 b).1.trans (h.2 b).1, (k.2 b).2.trans (h.2 b).2⟩⟩

theorem Keeps.memories {s t : State} (h : Keeps s t) : SameMemories s t := ⟨h.staging, h.banks⟩

theorem Passed.memories {s t : State} (h : Passed s t) : SameMemories s t :=
  ⟨by rw [h.rest], fun b => by rw [h.bays b]; exact ⟨rfl, rfl⟩⟩

theorem toPhaseFour_keeps (s : State) : Keeps s (toPhaseFour s) := Keeps.of_eq rfl rfl rfl rfl rfl

theorem wakeAll_toPhaseFour_memories (s : State) : SameMemories s (wakeAll (toPhaseFour s)) :=
  ((toPhaseFour_keeps s).trans (wakeAll_keeps _)).memories

theorem warmReset_memories (s : State) : SameMemories s (warmReset s) :=
  memories_trans (warmClear_memories s) (wakeAll_toPhaseFour_memories (warmClear s))

/-- A cleared block at phase 4 is what a warm reset leaves. -/
theorem Cleared.warmed {s t : State} (h : Cleared s t) (hb : t.boot.phase = 4 ∧ t.boot.ready = false) : Warmed s t where
  phase := hb.1
  ready := hb.2
  fast := h.fast
  ops := h.ops
  ctx := h.ctx
  ring := h.ring
  counts := ⟨h.counts.1, h.counts.2, fun b hp => (h.warm b hp).counts⟩
  raises b hp := ⟨(h.warm b hp).tag, (h.warm b hp).recs⟩
  limits := h.limits
  bays b hp := ⟨(h.warm b hp).power, (h.warm b hp).banks.1, (h.warm b hp).banks.2, (h.warm b hp).face, h.columns b⟩
  setup := h.setup

/-- Time may pass before a reset clears the block. -/
theorem Cleared.after_passed {r s t : State} (h : Cleared s t) (p : Passed r s) : Cleared r t := by
  refine h.before ?_ ?_ ⟨?_, ?_, ?_⟩ fun b => ?_
  case refine_6 => rw [p.bays b]; exact ⟨rfl, rfl⟩
  all_goals rw [p.rest]

/-! ### The write of WARM_RST -/

theorem warmable_of_boot {s t : State} (h : t.boot = s.boot) : warmable t = warmable s := by simp [warmable, h]

/-- WRST_N at a level. -/
def setWrstN (level : Bool) (s : State) : State := { s with boot := { s.boot with wrstN := level } }

theorem warmable_setWrstN (level : Bool) (s : State) : warmable (setWrstN level s) = warmable s := rfl

/-- WARM_RST stands in the global registers, which firmware and boot code always write. -/
theorem mayWrite_warmRst {s : State} {a : Access} (ht : a.tag = 8 ∨ a.tag = 9) (hd : a.dbg = false) : mayWrite s a 0x0040 = true := by
  have hk : (regKind s 0x0040).isSome = true := rfl
  have hu : underReset s 0x0040 = false := rfl
  have hw : tagWrites s a.tag.toNat 0x0040 = true := by rcases ht with e | e <;> rw [e] <;> rfl
  simp [mayWrite, hk, hu, hw, hd]

/-- WARM_RST with RST = 1 acts at once, and the shadows show what it cleared. -/
theorem warmRst_acts {s : State} {a : Access} {v : Word} (h : FwAccess s a) (hv : v.getLsbD 0 = true) (hs : warmable s = true) :
    exec (.warmRst a v) s = .next (answer .ack (nativeShadows 0x0040 (warmReset (atBc s)))) := by
  have hw : warmable (atBc s) = true := (warmable_of_boot (by rw [(atBc_passed s).rest])).trans hs
  have hk : regKind (atBc s) 0x0040 = some .native := rfl
  have hf : warmWrite v.toNat (atBc s) = some (warmReset (atBc s)) := by
    rw [warmWrite, if_pos]
    rw [Bool.and_eq_true]
    exact ⟨hv, hw⟩
  show Host.Outcome.next (access (regWrite a 0x0040 v (warmWrite v.toNat)) s) = _
  rw [access, if_pos h.running, regWrite, mayWrite_warmRst h.tag h.plain, hf]
  simp only [Bool.not_true, Bool.false_eq_true, if_false, hk]

theorem answered_aside (x : Answer) (n : Nat) (t : State) : Aside t (answer x (nativeShadows n t)) :=
  (nativeShadows_shadowed n t).aside.trans ⟨rfl, fun _ => ⟨rfl, rfl⟩, fun _ => id⟩

theorem answered_memories (x : Answer) (n : Nat) (t : State) : SameMemories t (answer x (nativeShadows n t)) := by
  rw [nativeShadows_shadowed]
  exact ⟨rfl, fun _ => ⟨rfl, rfl⟩⟩

theorem answered_log (x : Answer) (n : Nat) (t : State) : (answer x (nativeShadows n t)).ras.log = t.ras.log :=
  congrArg Ras.log (nativeShadows_shadowed n t).within.ras

theorem answered_boot (x : Answer) (n : Nat) (t : State) : (answer x (nativeShadows n t)).boot = t.boot :=
  (nativeShadows_shadowed n t).within.boot

/-! ### Rail excursions -/

/-- The tile banks of a bay with undefined contents, from the events `n` and `n + 1`. -/
def voidBanks (n : Nat) (x : BayState) : BayState :=
  { x with bank0 := { x.bank0 with mem := ⟨[], some n⟩ }, bank1 := { x.bank1 with mem := ⟨[], some (n + 1)⟩ } }

/-- The tile banks and the trace buffer of a bay hold undefined contents. -/
def freeBay (s : State) (b : Bay) : State :=
  freeBuf (some b) (useFree 2 (s.modBay b (voidBanks s.nfree)))

/-- Staging holds undefined contents. -/
def freeStaging (s : State) : State := useFree 1 { s with staging := ⟨[], some s.nfree⟩ }

/-- Every memory of the block holds undefined contents. -/
def freeMemories (s : State) : State := freeStaging (s.bays.foldl freeBay (freeBuf none s))

/-- The log's source that a rail names (R274). -/
def railId (r : Rail) : Nat := match r with | .arr => 0 | .mem => 1

theorem railExcursion_eq (r : Rail) (s : State) :
    railExcursion r s = freeMemories (if warmable (report 0x39 4 0xF 9 (railId r) s) then warmReset (report 0x39 4 0xF 9 (railId r) s)
      else warmClear (report 0x39 4 0xF 9 (railId r) s)) := by cases r <;> rfl

theorem Traced.aside {s t : State} (h : Traced s t) : Aside s t := by
  refine ⟨by rw [h.rest], fun b => ?_, fun b w => ?_⟩ <;> rw [h.bays b]
  · exact ⟨rfl, rfl⟩
  · exact ⟨w.power, w.banks, w.face, w.tag, w.recs, w.counts⟩

theorem useFree_aside (n : Nat) (s : State) : Aside s (useFree n s) := ⟨rfl, fun _ => ⟨rfl, rfl⟩, fun _ => id⟩

theorem freeBuf_aside (b : Option Bay) (s : State) : Aside s (freeBuf b s) := (modBuf_traced ..).aside.trans (useFree_aside ..)

theorem freeBay_aside (s : State) (b : Bay) : Aside s (freeBay s b) :=
  ((modBay_aside s b (f := voidBanks s.nfree) (fun _ => ⟨rfl, rfl⟩)
    fun _ w => ⟨w.power, w.banks, w.face, w.tag, w.recs, w.counts⟩).trans (useFree_aside ..)).trans (freeBuf_aside ..)

theorem freeStaging_aside (s : State) : Aside s (freeStaging s) := ⟨rfl, fun _ => ⟨rfl, rfl⟩, fun _ => id⟩

theorem freeMemories_aside (s : State) : Aside s (freeMemories s) :=
  ((freeBuf_aside none s).trans (Aside.foldl freeBay_aside ..)).trans (freeStaging_aside _)

theorem freeBuf_boot (b : Option Bay) (s : State) : (freeBuf b s).boot = s.boot := by cases b <;> rfl

theorem freeMemories_boot (s : State) : (freeMemories s).boot = s.boot :=
  (foldl_eq State.boot (f := freeBay) (fun _ _ => freeBuf_boot ..) ..).trans (freeBuf_boot ..)

theorem freeMemories_staging (s : State) : (freeMemories s).staging = ⟨[], some ((freeMemories s).nfree - 1)⟩ := rfl

theorem report_ras_only (code : Nat) (cls : BitVec 3) (ctx typ id : Nat) (s : State) :
    report code cls ctx typ id s = { s with ras := (report code cls ctx typ id s).ras } := by
  unfold report
  dsimp only
  repeat' split
  all_goals rfl

/-- An error may be reported before a reset clears the block. -/
theorem Cleared.after_report {s t : State} {code : Nat} {cls : BitVec 3} {ctx typ id : Nat}
    (h : Cleared (report code cls ctx typ id s) t) : Cleared s t := by
  rw [report_ras_only] at h
  exact h.before rfl rfl ⟨rfl, rfl, rfl⟩ fun _ => ⟨rfl, rfl⟩

theorem report_boot (code : Nat) (cls : BitVec 3) (ctx typ id : Nat) (s : State) : (report code cls ctx typ id s).boot = s.boot := by
  rw [report_ras_only]

theorem railExcursion_warm {s : State} (h : warmable s = true) (r : Rail) :
    railExcursion r s = freeMemories (warmReset (report 0x39 4 0xF 9 (railId r) s)) := by
  rw [railExcursion_eq, warmable_of_boot (report_boot ..), if_pos h]

theorem railExcursion_early {s : State} (h : warmable s = false) (r : Rail) :
    railExcursion r s = freeMemories (warmClear (report 0x39 4 0xF 9 (railId r) s)) := by
  rw [railExcursion_eq, warmable_of_boot (report_boot ..), if_neg (by simp [h])]

theorem warmable_porstN {s : State} (h : warmable s = true) : s.boot.porstN = true := by
  simp only [warmable, Bool.and_eq_true] at h
  exact h.1

theorem rail_exec {s : State} (h : s.boot.porstN = true) (r : Rail) : exec (.railExcursion r) s = .next (railExcursion r s) := if_pos h

/-! ### Cold reset -/

theorem new_bay_recs (c : Ctx) : ({} : BayState).recs.get c = none := by
  revert c
  decide

theorem coldReset_by (s : State) (b : Bay) : (coldReset s).by b =
    { spares := freshSpares s.build, bank0 := { mem := (s.by b).bank0.mem }, bank1 := { mem := (s.by b).bank1.mem },
      tbuf := { recs := (s.by b).tbuf.recs, post := (s.by b).tbuf.post } } := by_map ..

end Sys2Proof.Machine

namespace Sys2Proof.Claims

open Sys2Proof Sys2Proof.Machine

/-- WRST_N low resets a block that has reached phase 4. -/
theorem wrstN_low {s : State} (h : warmable s = true) :
    exec (.wrstN false) s = .next (warmReset (setWrstN false s)) := by
  show Host.Outcome.next (if warmable (setWrstN false s) then warmReset (setWrstN false s) else setWrstN false s) = _
  rw [if_pos ((warmable_setWrstN false s).trans h)]

/-- The pin is no part of the log. -/
theorem setWrstN_log (level : Bool) (s : State) : (setWrstN level s).ras.log = s.ras.log := rfl

theorem warmReset_setWrstN {s : State} : Warmed s (warmReset (setWrstN false s)) ∧ SameMemories s (warmReset (setWrstN false s)) ∧
    (warmReset (setWrstN false s)).ras.log = s.ras.log := by
  refine ⟨Cleared.warmed ?_ (warmReset_boot _), warmReset_memories (setWrstN false s), ?_⟩
  · exact (warmReset_cleared (setWrstN false s)).before rfl rfl ⟨rfl, rfl, rfl⟩ fun _ => ⟨rfl, rfl⟩
  · exact (warmReset_log _).trans (setWrstN_log false s)

theorem wrstN_resets {s : State} (h : warmable s = true) :
    ∃ t, exec (.wrstN false) s = .next t ∧ Warmed s t ∧ SameMemories s t ∧ t.ras.log = s.ras.log :=
  ⟨_, wrstN_low h, warmReset_setWrstN⟩

/-- WRST_N high begins phase 4 again, or does nothing. -/
theorem wrstN_high (s : State) : ∃ t, exec (.wrstN true) s = .next t ∧ t.boot.wrstN = true ∧ Aside s t ∧ Keeps s t := by
  show ∃ t, Host.Outcome.next (if s.boot.phase == 4 then _ else _) = Host.Outcome.next t ∧ _
  split
  · refine ⟨_, rfl, ?_, Aside.trans ?_ (wakeAll_aside _), Keeps.trans ?_ (wakeAll_keeps _)⟩
    · rw [wakeAll_boot]
    · exact ⟨rfl, fun _ => ⟨rfl, rfl⟩, fun _ => id⟩
    · exact Keeps.of_eq rfl rfl rfl rfl rfl
  · exact ⟨_, rfl, rfl, ⟨rfl, fun _ => ⟨rfl, rfl⟩, fun _ => id⟩, Keeps.of_eq rfl rfl rfl rfl rfl⟩

theorem warmRst_resets {s : State} (hs : warmable s = true) {a : Access} {v : Word} (h : FwAccess s a) (hv : v.getLsbD 0 = true) :
    ∃ t, exec (.warmRst a v) s = .next t ∧ Acked t ∧ Warmed s t ∧ SameMemories s t ∧ t.ras.log = s.ras.log := by
  have hp := atBc_passed s
  refine ⟨_, warmRst_acts h hv hs, rfl, Cleared.warmed ?_ ?_, ?_, ?_⟩
  · exact ((warmReset_cleared _).aside (answered_aside ..)).after_passed hp
  · rw [answered_boot]
    exact warmReset_boot _
  · exact memories_trans (memories_trans hp.memories (warmReset_memories _)) (answered_memories ..)
  · exact ((answered_log ..).trans (warmReset_log _)).trans (by rw [hp.rest])

theorem excursion_resets {s : State} (h : warmable s = true) (r : Rail) :
    ∃ t, exec (.railExcursion r) s = .next t ∧ Warmed s t ∧ t.staging = ⟨[], some (t.nfree - 1)⟩ := by
  refine ⟨_, (rail_exec (warmable_porstN h) r).trans (congrArg _ (railExcursion_warm h r)), Cleared.warmed ?_ ?_, freeMemories_staging _⟩
  · exact ((warmReset_cleared _).aside (freeMemories_aside _)).after_report
  · rw [freeMemories_boot]
    exact warmReset_boot _

theorem early_excursion {s : State} (hp : s.boot.porstN = true) (h : warmable s = false) (r : Rail) :
    ∃ t, exec (.railExcursion r) s = .next t ∧ t.boot = s.boot ∧ t.ops = [] ∧ t.fastOn = false ∧ SameSetup s t ∧
      (∀ c, (t.cx c).mode = .stopped ∧ (t.cx c).acked = false) ∧ t.staging = ⟨[], some (t.nfree - 1)⟩ := by
  have hc := ((warmClear_cleared (report 0x39 4 0xF 9 (railId r) s)).aside (freeMemories_aside _)).after_report
  refine ⟨_, (rail_exec hp r).trans (congrArg _ (railExcursion_early h r)), ?_, hc.ops, hc.fast, hc.setup,
    fun c => ?_, freeMemories_staging _⟩
  · rw [freeMemories_boot, warmClear_boot, report_boot]
  · exact ⟨(hc.ctx c).queues.1, (hc.ctx c).queues.2.1⟩

/-- Settles O43: a warm reset and a rail excursion leave a block `Cleared`; cold reset and its release set every field. -/
theorem blockResets : Obligations.BlockResets := by
  refine fun s => ⟨fun hs => ⟨fun _ _ h hv => warmRst_resets hs h hv, wrstN_resets hs, excursion_resets hs⟩,
    fun hp h => early_excursion hp h, ?_, ?_, fun blk h => ?_⟩
  · obtain ⟨t, hrun, hpin, ha, hk⟩ := wrstN_high s
    exact ⟨t, hrun, hpin, by rw [ha.rest], by rw [ha.rest], ⟨hk.staging, hk.banks⟩, sameSetup_of_keeps hk⟩
  · refine ⟨_, rfl, rfl, rfl, rfl, rfl, ⟨rfl, fun b => ?_⟩, rfl, reset_cx, rfl, rfl, rfl, rfl, rfl, fun b => ?_, rfl, rfl⟩ <;>
      rw [coldReset_by]
    · exact ⟨rfl, rfl⟩
    · exact ⟨rfl, rfl, rfl, new_bay_recs, rfl, rfl, rfl, rfl, rfl, rfl, rfl, rfl⟩
  · have hrun : exec (.porstNRelease blk) s = .next _ := if_neg (by simp [h])
    exact ⟨_, hrun, rfl, rfl, rfl, rfl, rfl, ⟨rfl, fun _ => ⟨rfl, rfl⟩⟩, rfl, rfl, rfl⟩

end Sys2Proof.Claims
end

section
/-! SUPPORT. What neither moves time, nor starts or stops a clock, nor takes a posted write away: the effects of register writes, and the
start of reserved operations. -/

namespace Sys2Proof.Machine

open Sys2Proof

/-- The build, the clock, the power states of all domains and the posted writes are the same. -/
structure Still (s t : State) : Prop where
  build : t.build = s.build
  clk : t.clk = s.clk
  fast : t.fastOn = s.fastOn
  posted : t.regs.posted = s.regs.posted
  power : ∀ b, (t.by b).pstate = (s.by b).pstate

theorem Still.refl (s : State) : Still s s := ⟨rfl, rfl, rfl, rfl, fun _ => rfl⟩

theorem Still.trans {s t u : State} (h : Still s t) (k : Still t u) : Still s u :=
  ⟨k.build.trans h.build, k.clk.trans h.clk, k.fast.trans h.fast, k.posted.trans h.posted, fun b => (k.power b).trans (h.power b)⟩

theorem Still.foldl {α : Type} {f : State → α → State} (h : ∀ s x, Still s (f s x)) (l : List α) (s : State) : Still s (l.foldl f s) := by
  induction l generalizing s with
  | nil => exact Still.refl s
  | cons x l ih => exact (h s x).trans (ih _)

/-- A state that differs in none of these fields and in no bay. -/
theorem Still.of_eq {s t : State} (h1 : t.build = s.build) (h2 : t.clk = s.clk) (h3 : t.fastOn = s.fastOn) (h4 : t.regs = s.regs)
    (h5 : t.bay = s.bay) : Still s t := ⟨h1, h2, h3, by rw [h4], fun b => by rw [State.by, State.by, h5]⟩

/-- A change of every bay that leaves its power state. -/
theorem Still.of_map {s t : State} {f : BayState → BayState} (h : ∀ x, (f x).pstate = x.pstate) (h1 : t.build = s.build)
    (h2 : t.clk = s.clk) (h3 : t.fastOn = s.fastOn) (h4 : t.regs = s.regs) (h5 : t.bay = s.bay.map f) : Still s t :=
  ⟨h1, h2, h3, by rw [h4], fun b => by rw [State.by, h5, by_map]; exact h _⟩

theorem modCtx_still (s : State) (c : Ctx) (f : CtxState → CtxState) : Still s (s.modCtx c f) := Still.of_eq rfl rfl rfl rfl rfl

theorem modOp_still (s : State) (c : Ctx) (q : BitVec 8) (f : Op → Op) : Still s (s.modOp c q f) := Still.of_eq rfl rfl rfl rfl rfl

theorem modOf_still (s : State) (o : Op) (f : Op → Op) : Still s (s.modOf o f) := Still.of_eq rfl rfl rfl rfl rfl

theorem dropOp_still (s : State) (c : Ctx) (q : BitVec 8) : Still s (s.dropOp c q) := Still.of_eq rfl rfl rfl rfl rfl

theorem useFree_still (n : Nat) (s : State) : Still s (useFree n s) := Still.of_eq rfl rfl rfl rfl rfl

theorem modBay_still (s : State) (b : Bay) {f : BayState → BayState} (h : ∀ x, (f x).pstate = x.pstate) : Still s (s.modBay b f) := by
  refine ⟨rfl, rfl, rfl, rfl, fun d => ?_⟩
  rw [modBay_by_cases]
  split
  · next e => rw [e]; exact h _
  · rfl

theorem modBays_still (s : State) (l : List Bay) {f : Bay → BayState → BayState} (h : ∀ b x, (f b x).pstate = x.pstate) :
    Still s (s.modBays l f) := Still.foldl (fun s b => modBay_still s b (h b)) l s

theorem ifThen_still {b : Bool} {f : State → State} (h : ∀ s, Still s (f s)) (s : State) : Still s (State.ifThen b f s) := by
  cases b
  exacts [Still.refl s, h s]

theorem Traced.still {s t : State} (h : Traced s t) : Still s t := by
  refine ⟨?_, ?_, ?_, ?_, fun b => by rw [h.bays b]⟩ <;> rw [h.rest]

theorem modBank_pstate (x : BayState) (w : Bool) (f : Bank → Bank) : (x.modBank w f).pstate = x.pstate := by
  unfold BayState.modBank
  split <;> rfl

/-! ### Completion -/

theorem countOp_still (o : Op) (s : State) : Still s (countOp o s) := by
  unfold countOp
  split
  · exact Still.refl s
  · refine Still.trans ?_ (modBays_still _ _ ?_)
    · exact Still.of_eq rfl rfl rfl rfl rfl
    · exact fun _ _ => rfl

theorem dropWindow_still (c : Ctx) (s : State) : Still s (dropWindow c s) := Still.of_eq rfl rfl rfl rfl rfl

theorem memberFault_still (c : Ctx) (s : State) : Still s (memberFault c s) := ifThen_still (dropWindow_still c) s

theorem recordFault_still (c : Ctx) (code : Nat) (cls : BitVec 3) (q : QSel) (idx aux : Nat) (s : State) :
    Still s (recordFault c code cls q idx aux s) := (modCtx_still ..).trans (emit_traced ..).still

theorem ctxFault_still (c : Ctx) (code : Nat) (q : QSel) (idx aux : Nat) (s : State) : Still s (ctxFault c code q idx aux s) :=
  (recordFault_still ..).trans (modCtx_still ..)

theorem deliver_still (c : Ctx) (r : Rec) (s : State) : Still s (deliver c r s) := Still.of_eq rfl rfl rfl rfl rfl

theorem forget_still (c : Ctx) (q : BitVec 8) (s : State) : Still s (forget c q s) := Still.of_eq rfl rfl rfl rfl rfl

theorem complete_still (o : Op) (s : State) : Still s (complete o s) := by
  unfold complete
  split
  · exact dropOp_still ..
  · refine Still.trans ?_ (ifThen_still (deliver_still _ _) _)
    refine Still.trans ?_ (emitOp_traced _ _ _ _ _).still
    refine Still.trans ?_ (ifThen_still (memberFault_still _) _)
    refine Still.trans ?_ (ifThen_still (ctxFault_still _ _ _ _ _) _)
    refine Still.trans ?_ (endStall_traced _ _).still
    exact ((dropOp_still s o.ctx o.seq).trans (forget_still ..)).trans (countOp_still ..)

theorem freeProducts_still (j : Option LehrJob) (s : State) : Still s (freeProducts j s) := by
  cases j
  · exact Still.refl s
  · refine Still.of_map ?_ rfl rfl rfl rfl rfl
    exact fun _ => rfl

theorem releaseUnits_still (o : Op) (s : State) : Still s (releaseUnits o s) := by
  unfold releaseUnits
  refine Still.trans ?_ (freeProducts_still _ _)
  refine Still.of_map ?_ rfl rfl rfl rfl rfl
  exact fun _ => rfl

theorem holdFailed_still (o : Op) (s : State) : Still s (holdFailed o s) := by
  unfold holdFailed
  refine Still.trans ?_ (modOp_still ..)
  split
  · refine (releaseUnits_still o s).trans ?_
    exact Still.of_eq rfl rfl rfl rfl rfl
  · exact Still.refl s

theorem failOp_still (o : Op) (code : Nat) (s : State) : Still s (failOp o code s) := by
  unfold failOp
  dsimp only
  split
  · exact (releaseUnits_still ..).trans (complete_still ..)
  · exact holdFailed_still ..

/-! ### Ports -/

theorem issueRd_still (b : Bay) (l : Nat) (far : Bool) (c : Ctx) (w : Owner) (s : State) : Still s (issueRd b l far c w s) := by
  unfold issueRd
  exact modBay_still _ _ (by intro _; rfl)

theorem issueWrReq_still (b : Bay) (r : WrReq) (s : State) : Still s (issueWrReq b r s) := by
  unfold issueWrReq
  exact modBay_still _ _ (by intro _; rfl)

theorem issueLines_still (o : Op) (c : Ctx) (f : Nat → Bool) (p : List Bay) (rs : List Range) (s : State) :
    Still s (issueLines o c f p rs s) := (Still.foldl (fun s _ => issueRd_still _ _ _ _ _ s) _ s).trans (modOp_still ..)

theorem issueReads_still (o : Op) (p : List Bay) (rs : List Range) (s : State) : Still s (issueReads o p rs s) := issueLines_still ..

theorem writeStaging_still (ws : List (Nat × List Byte)) (s : State) : Still s (writeStaging ws s) := Still.of_eq rfl rfl rfl rfl rfl

theorem issueWrites_still (c : Ctx) (w : Owner) (p : List Bay) (rs : List Range) (ws : List Wr) (s : State) :
    Still s (issueWrites c w p rs ws s).1 := by
  unfold issueWrites
  refine Still.trans ?_ (Still.foldl (fun s _ => issueWrReq_still _ _ s) _ _)
  exact Still.trans (writeStaging_still _ s) (Still.foldl (fun s _ => issueWrReq_still _ _ s) _ _)

theorem awaitFlushes_still (o : Op) (n : Nat) (s : State) : Still s (awaitFlushes o n s) := by
  unfold awaitFlushes
  split
  · exact (releaseUnits_still ..).trans (complete_still ..)
  · exact modOp_still ..

/-! ### The reset of a context -/

theorem discard_still (s : State) (o : Op) : Still s (discard s o) := (releaseUnits_still ..).trans (dropOp_still ..)

theorem leaveUnit_still (o : Op) (s : State) : Still s (leaveUnit o s) := by
  unfold leaveUnit
  dsimp only
  split
  · refine Still.of_map (fun x => ?_) rfl rfl rfl rfl rfl
    split <;> rfl
  · refine Still.of_map (fun x => ?_) rfl rfl rfl rfl rfl
    split <;> rfl
  · exact Still.of_eq rfl rfl rfl rfl rfl

theorem breakLehr_still (o : Op) (s : State) : Still s (breakLehr o s) := by
  unfold breakLehr
  split
  · refine (leaveUnit_still o s).trans ?_
    exact Still.of_eq rfl rfl rfl rfl rfl
  · split
    exacts [discard_still .., holdFailed_still ..]

theorem undefRange_still (s : State) (r : Range) : Still s (undefRange s r) := by
  unfold undefRange
  split
  exacts [Still.refl s, (writeStaging_still ..).trans (useFree_still ..)]

theorem undefView_still (s : State) (x : Fmt × Desc) : Still s (undefView s x) := by
  unfold undefView
  dsimp only
  split
  · exact Still.refl s
  · split
    · exact Still.foldl undefRange_still _ s
    · exact (writeStaging_still ..).trans (useFree_still ..)

theorem settleFlow_still (s : State) : Still s (settleFlow s) := Still.of_eq rfl rfl rfl rfl rfl

/-- One part of what a broken operation has written goes out. -/
def issuePart (o : Op) (x : State × Nat) (w : List Bay × List Wr) : State × Nat :=
  let r := issueWrites o.ctx (.op o.ctx o.seq) w.1 (outRanges o) w.2 x.1
  (r.1, x.2 + r.2)

theorem issueParts_still (o : Op) (ws : List (List Bay × List Wr)) (x : State × Nat) : Still x.1 (ws.foldl (issuePart o) x).1 := by
  induction ws generalizing x with
  | nil => exact Still.refl _
  | cons w ws ih => exact (issueWrites_still _ _ _ _ _ _).trans (ih (issuePart o x w))

/-- All of it goes out, and its responses are awaited. -/
def writeOut (o : Op) (s : State) (ws : List (List Bay × List Wr)) : State :=
  awaitFlushes o (ws.foldl (issuePart o) (releaseUnits o s, 0)).2 (ws.foldl (issuePart o) (releaseUnits o s, 0)).1

theorem writeOut_still (o : Op) (s : State) (ws : List (List Bay × List Wr)) : Still s (writeOut o s ws) :=
  ((releaseUnits_still o s).trans (issueParts_still o ws (releaseUnits o s, 0))).trans (awaitFlushes_still ..)

/-- A broken SCRUB has zeroed the first `n` lines of the slices of a bay. -/
def zeroSlice (n : Nat) (s : State) (b : Bay) : State :=
  { (s.modBay b fun x => x.modBanks fun k => { k with mem := k.mem.zero 0 (16 * n) }) with
    staging := s.staging.zero (b.val * sliceBytes) (64 * n) }

theorem zeroSlice_still (n : Nat) (s : State) (b : Bay) : Still s (zeroSlice n s b) :=
  (modBay_still s b (f := fun x => x.modBanks fun k => { k with mem := k.mem.zero 0 (16 * n) }) fun _ => rfl).trans
    (Still.of_eq rfl rfl rfl rfl rfl)

theorem breakOff_still (s : State) (o : Op) : Still s (breakOff s o) := by
  unfold breakOff
  dsimp only
  split
  · exact breakLehr_still ..
  split
  · exact discard_still ..
  split
  · exact writeOut_still o s _
  · split
    · exact (Still.foldl (zeroSlice_still _) _ s).trans (discard_still ..)
    · exact writeOut_still o s _
  · split
    · exact (Still.foldl (zeroSlice_still _) _ s).trans (discard_still ..)
    · exact writeOut_still o s _
  · refine Still.trans ?_ (discard_still ..)
    split
    exacts [undefView_still .., settleFlow_still ..]
  · split
    exacts [discard_still .., (releaseUnits_still ..).trans (modOp_still ..)]

theorem startReset_still (c : Ctx) (s : State) : Still s (startReset c s) := by
  unfold startReset
  refine ((modCtx_still s c _).trans (ifThen_still (dropWindow_still c) _)).trans (Still.foldl (fun s o => ?_) _ _)
  split
  exacts [breakOff_still .., discard_still ..]

end Sys2Proof.Machine
end

section
/-! SUPPORT. The effect of a register write moves no time, starts and stops no clock, and takes no posted write away. -/

namespace Sys2Proof.Machine

open Sys2Proof

/-- An effect that, where it is not refused, is `Still`. -/
structure StillIfDone (s : State) (x : Option State) : Prop where
  still : ∀ t, x = some t → Still s t

theorem stillIfDone_none (s : State) : StillIfDone s none := ⟨fun _ h => by cases h⟩

theorem stillIfDone_some {s t : State} (h : Still s t) : StillIfDone s (some t) :=
  ⟨fun _ e => by cases e; exact h⟩

theorem stillIfDone_same (s : State) : StillIfDone s (some s) := stillIfDone_some (Still.refl s)

/-- A guarded effect. -/
theorem stillIfDone_guard {s : State} {p : Prop} [Decidable p] {x : Option State} (h : StillIfDone s x) :
    StillIfDone s (if p then none else x) := by
  split
  exacts [stillIfDone_none s, h]

theorem stillIfDone_ite {s : State} {p : Prop} [Decidable p] {x y : Option State} (h : StillIfDone s x) (k : StillIfDone s y) :
    StillIfDone s (if p then x else y) := by
  split
  exacts [h, k]

theorem stillIfDone_dite {s : State} {p : Prop} [Decidable p] {x : p → Option State} {y : ¬p → Option State}
    (h : ∀ a, StillIfDone s (x a)) (k : ∀ a, StillIfDone s (y a)) : StillIfDone s (if a : p then x a else y a) := by
  split
  exacts [h _, k _]

theorem stillIfDone_modCtx (s : State) (c : Ctx) (f : CtxState → CtxState) : StillIfDone s (some (s.modCtx c f)) :=
  stillIfDone_some (modCtx_still s c f)

theorem stillIfDone_modQueue (s : State) (c : Ctx) (q : QSel) (f : Queue → Queue) : StillIfDone s (some (s.modQueue c q f)) :=
  stillIfDone_some (modCtx_still ..)

/-! ### Contexts -/

theorem setTail_still (c : Ctx) (q : QSel) (v : Nat) (s : State) : StillIfDone s (setTail c q v s) :=
  stillIfDone_guard (stillIfDone_modQueue ..)

theorem queueWrite_still (c : Ctx) (q : QSel) (off v : Nat) (s : State) : StillIfDone s (queueWrite c q off v s) := by
  unfold queueWrite
  dsimp only
  split
  · exact stillIfDone_guard (stillIfDone_modQueue ..)
  · exact stillIfDone_guard (stillIfDone_modQueue ..)
  · exact stillIfDone_guard (stillIfDone_modQueue ..)
  · exact setTail_still ..
  · exact stillIfDone_same s

theorem ctxWrite_still (c : Ctx) (off v : Nat) (s : State) : StillIfDone s (ctxWrite c off v s) := by
  unfold ctxWrite
  dsimp only
  split
  case h_12 =>
    split
    · exact stillIfDone_modCtx ..
    · exact stillIfDone_ite (queueWrite_still ..) (stillIfDone_ite (queueWrite_still ..) (stillIfDone_same s))
  case h_6 | h_7 | h_10 | h_11 => exact stillIfDone_modCtx ..
  all_goals exact stillIfDone_guard (stillIfDone_modCtx ..)

theorem ctxRstWrite_still (c : Ctx) (v : Nat) (s : State) : StillIfDone s (ctxRstWrite c v s) := by
  refine stillIfDone_some ?_
  split
  exacts [startReset_still c s, Still.refl s]

/-! ### The block -/

theorem of_g_still (s : State) (g : Global) : StillIfDone s (some { s with g := g }) := stillIfDone_some (Still.of_eq rfl rfl rfl rfl rfl)

theorem of_prot_still (s : State) (p : Prot) : StillIfDone s (some { s with prot := p }) := stillIfDone_some (Still.of_eq rfl rfl rfl rfl rfl)

theorem of_trace_still (s : State) (x : Trace) : StillIfDone s (some { s with trace := x }) := stillIfDone_some (Still.of_eq rfl rfl rfl rfl rfl)

theorem of_cnt_still (s : State) (x : Counters) : StillIfDone s (some { s with cnt := x }) := stillIfDone_some (Still.of_eq rfl rfl rfl rfl rfl)

theorem globalWrite_still (n v : Nat) (s : State) : StillIfDone s (globalWrite n v s) := by
  unfold globalWrite
  dsimp only
  split
  case h_6 | h_8 => exact stillIfDone_some (Still.of_eq rfl rfl rfl rfl rfl)
  case h_7 =>
    refine stillIfDone_guard (stillIfDone_some ?_)
    split <;> exact Still.of_eq rfl rfl rfl rfl rfl
  case h_10 =>
    split
    · exact stillIfDone_ite (stillIfDone_some (Still.of_eq rfl rfl rfl rfl rfl)) (stillIfDone_same s)
    · exact stillIfDone_same s
  all_goals exact stillIfDone_guard (of_g_still ..)

theorem protWrite_still (n v : Nat) (s : State) : StillIfDone s (protWrite n v s) := by
  unfold protWrite lockWrite
  dsimp only
  split
  · exact stillIfDone_guard (of_prot_still ..)
  split
  · exact stillIfDone_guard (of_prot_still ..)
  split
  · exact stillIfDone_guard (of_prot_still ..)
  split
  · split
    exacts [of_prot_still .., of_prot_still .., stillIfDone_guard (of_prot_still ..)]
  · exact stillIfDone_same s

theorem tmWrite_still (n v : Nat) (s : State) : StillIfDone s (tmWrite n v s) := by
  unfold tmWrite
  dsimp only
  split
  case h_5 | h_6 => exact stillIfDone_ite (of_g_still ..) (stillIfDone_none s)
  case h_7 => exact stillIfDone_same s
  all_goals exact of_g_still ..

/-! ### Counters and trace -/

theorem modBay_stillIfDone (s : State) (b : Bay) {f : BayState → BayState} (h : ∀ x, (f x).pstate = x.pstate) :
    StillIfDone s (some (s.modBay b f)) := stillIfDone_some (modBay_still s b h)

theorem countWrite_still (n v : Nat) (s : State) : StillIfDone s (countWrite n v s) := by
  unfold countWrite
  refine stillIfDone_ite ?_ (stillIfDone_dite (fun _ => ?_) fun _ => stillIfDone_dite (fun _ => ?_) fun _ => stillIfDone_same s)
  · split
    · exact stillIfDone_same s
    · refine stillIfDone_dite (fun _ => modBay_stillIfDone _ _ fun _ => rfl) fun _ => stillIfDone_dite (fun _ => ?_) fun _ => stillIfDone_same s
      exact stillIfDone_ite (modBay_stillIfDone _ _ fun _ => rfl) (stillIfDone_none s)
  · exact of_cnt_still ..
  · exact stillIfDone_ite (of_cnt_still ..) (stillIfDone_none s)

theorem modBuf_still (s : State) (b : Option Bay) (f : TraceBuf → TraceBuf) : Still s (s.modBuf b f) := (modBuf_traced ..).still

theorem purge_still (c : Ctx) (s : State) : Still s (purge c s) :=
  by
  unfold purge
  exact (Still.foldl (fun s b => modBuf_still s (some b) _) allBays s).trans (modBuf_still _ none _)

theorem setRing_still (c : Ctx) (f : Ring → Ring) (s : State) : Still s (setRing c f s) := Still.of_eq rfl rfl rfl rfl rfl

theorem ringWrite_still (c : Ctx) (off v : Nat) (s : State) : StillIfDone s (ringWrite c off v s) := by
  have h : ∀ f, StillIfDone s (some (setRing c f s)) := fun f => stillIfDone_some (setRing_still c f s)
  unfold ringWrite
  dsimp only
  split
  · exact stillIfDone_guard (h _)
  · exact stillIfDone_guard (h _)
  · exact stillIfDone_guard (h _)
  · exact h _
  · refine stillIfDone_guard (stillIfDone_some ?_)
    split
    exacts [(setRing_still ..).trans (purge_still ..), setRing_still ..]
  · exact stillIfDone_same s

theorem storePlain_still (b : Option Bay) (r : TraceRec) (s : State) : Still s (storePlain b r s) :=
  (ifThen_still (fun s => (fireTrigger_traced _ s).still) s).trans (storeRec_traced ..).still

theorem armBuf_still (b : Option Bay) (s : State) : Still s (armBuf b s) := (modBuf_still s b _).trans (ifThen_still (storePlain_still b _) _)

theorem tbWrite_still (b : Option Bay) (v : Nat) (s : State) : StillIfDone s (tbWrite b v s) := by
  refine stillIfDone_guard (stillIfDone_some ?_)
  split
  exacts [(modBuf_still s b _).trans (armBuf_still ..), modBuf_still s b _]

theorem trigWrite_still (v : Nat) (s : State) : StillIfDone s (trigWrite v s) := by
  refine stillIfDone_guard (stillIfDone_some ?_)
  split
  · exact (Traced.of_trace s _).still.trans (fireTrigger_traced 0 _).still
  · exact (Traced.of_trace s _).still

theorem traceWrite_still (n v : Nat) (s : State) : StillIfDone s (traceWrite n v s) := by
  unfold traceWrite
  split
  · exact ringWrite_still ..
  · split
    · exact tbWrite_still ..
    · exact trigWrite_still ..
    · exact of_trace_still ..
    · split
      · exact stillIfDone_ite (tbWrite_still ..) (stillIfDone_same s)
      · exact stillIfDone_same s

theorem snapWrite_still (n v : Nat) (s : State) : StillIfDone s (snapWrite n v s) := by
  unfold snapWrite
  split
  case h_4 => exact stillIfDone_same s
  all_goals exact stillIfDone_some (Still.of_eq rfl rfl rfl rfl rfl)

theorem noteRequest_still (was : Bool) (s : State) : Still s (noteRequest was s) := by
  unfold noteRequest
  split
  · exact Still.of_eq rfl rfl rfl rfl rfl
  · split
    exacts [Still.of_eq rfl rfl rfl rfl rfl, Still.refl s]

theorem dbgWrite_still (v : Nat) (s : State) : StillIfDone s (dbgWrite v s) := by
  refine stillIfDone_some (Still.trans ?_ (noteRequest_still ..))
  exact Still.of_eq rfl rfl rfl rfl rfl

theorem still_ite {s t u : State} {p : Prop} [Decidable p] (h : Still s t) (k : Still s u) : Still s (if p then t else u) := by
  split
  exacts [h, k]

theorem still_dite {s : State} {p : Prop} [Decidable p] {t : p → State} {u : ¬p → State} (h : ∀ a, Still s (t a))
    (k : ∀ a, Still s (u a)) : Still s (if a : p then t a else u a) := by
  split
  exacts [h _, k _]

theorem subtract_still (n : Nat) (v : Word) (s : State) : Still s (subtract n v s) := by
  unfold subtract
  refine still_ite (Still.of_eq rfl rfl rfl rfl rfl) (still_ite (modBuf_still ..)
    (still_dite (fun _ => Still.of_eq rfl rfl rfl rfl rfl) fun _ => still_ite ?_ ?_))
  · cases blockBay s ((n - 0x6410) / 0x10)
    exacts [Still.refl s, modBuf_still ..]
  · cases ctxAddr n
    · cases blockBay s ((n - 0x4000) / 0x400)
      exacts [Still.refl s, modBay_still _ _ fun _ => rfl]
    · exact still_dite (fun _ => modCtx_still ..) fun _ => Still.refl s

theorem plainEffect_still (n v : Nat) (s : State) : StillIfDone s (plainEffect n v s) := by
  unfold plainEffect
  refine stillIfDone_ite (globalWrite_still ..) (stillIfDone_ite (protWrite_still ..) ?_)
  split
  · exact ctxWrite_still ..
  · exact stillIfDone_ite (tmWrite_still ..) (stillIfDone_ite (stillIfDone_same s) (stillIfDone_ite (countWrite_still ..)
      (stillIfDone_ite (traceWrite_still ..) (snapWrite_still ..))))

theorem effect_still (n v : Nat) (s : State) : StillIfDone s (effect n v s) := by
  unfold effect
  refine stillIfDone_ite (stillIfDone_some (subtract_still ..)) (stillIfDone_ite (dbgWrite_still ..) ?_)
  split
  exacts [ctxRstWrite_still .., plainEffect_still ..]

end Sys2Proof.Machine
end

section
/-! SUPPORT. The start of reserved operations moves no time, starts and stops no clock, and changes neither set-up nor staging. -/

namespace Sys2Proof.Machine

open Sys2Proof Sys2Proof.Claims

/-- What a start of operations keeps. -/
structure Starts (s t : State) : Prop where
  still : Still s t
  setup : SameSetup s t
  staging : t.staging = s.staging

theorem Starts.of_keeps {s t : State} (h : Still s t) (k : Keeps s t) : Starts s t := ⟨h, sameSetup_of_keeps k, k.staging⟩

theorem Starts.refl (s : State) : Starts s s := .of_keeps (Still.refl s) (Keeps.refl s)

theorem SameSetup.trans {s t u : State} (h : SameSetup s t) (k : SameSetup t u) : SameSetup s u :=
  ⟨k.prot.trans h.prot, k.build.trans h.build, k.pending.trans h.pending⟩

theorem Starts.trans {s t u : State} (h : Starts s t) (k : Starts t u) : Starts s u :=
  ⟨h.still.trans k.still, SameSetup.trans h.setup k.setup, k.staging.trans h.staging⟩

theorem Starts.foldl {α : Type} {f : State → α → State} (h : ∀ s x, Starts s (f s x)) (l : List α) (s : State) :
    Starts s (l.foldl f s) := by
  induction l generalizing s with
  | nil => exact Starts.refl s
  | cons x l ih => exact (h s x).trans (ih _)

/-! ### Truss operations -/

theorem noteGrant_still (o : Op) (s : State) : Still s (noteGrant o s) := by
  unfold noteGrant
  split
  · split <;> exact Still.of_eq rfl rfl rfl rfl rfl
  · exact Still.refl s

theorem noteChain_still (o : Op) (s : State) : Still s (noteChain o s) := still_ite (modCtx_still ..) (Still.refl s)

theorem beginBay_pstate (o : Op) (j : Nat) (y : BayState) : (beginBay o j y).pstate = y.pstate := by
  unfold beginBay
  dsimp only
  split
  exacts [modBank_pstate .., rfl]

theorem readInputs_still (o : Op) (s : State) : Still s (readInputs o s) := by
  have h1 : Still s (readReraise o s) := Still.foldl (fun _ _ => issueLines_still ..) _ s
  have h2 : ∀ s, Still s (readRaises o s) := fun s => by
    unfold readRaises
    dsimp only
    split
    case h_4 => exact Still.refl s
    all_goals exact Still.foldl (fun s _ => issueReads_still _ _ _ s) _ s
  have h3 : ∀ s, Still s (readStream o s) := fun s => by
    unfold readStream
    dsimp only
    split
    case h_1 | h_2 => exact Still.refl s
    all_goals exact issueReads_still ..
  exact (h1.trans (h2 _)).trans (h3 _)

theorem startTruss_still (o : Op) (s : State) : Still s (startTruss o s) := by
  unfold startTruss
  split
  · exact failOp_still ..
  · dsimp only
    refine Still.trans ?_ (readInputs_still _ _)
    refine Still.trans ?_ (emitOp_traced _ _ _ _ _).still
    refine Still.trans ?_ (noteGrant_still _ _)
    refine Still.trans ?_ (noteChain_still _ _)
    exact (modOf_still ..).trans (Still.foldl (fun s (x : Bay × Nat) => modBay_still s x.1 (beginBay_pstate _ _)) _ _)

theorem startTruss_starts (o : Op) (s : State) : Starts s (startTruss o s) := .of_keeps (startTruss_still ..) (startTruss_keeps ..)

/-! ### Drains -/

/-- A bay's drain path begins to read a bank. -/
def takeDrain (w : Bool) (x : BayState) : BayState :=
  { x.modBank w (fun k => { k with st := .draining, taken := true }) with drainOn := true }

theorem takeDrain_pstate (w : Bool) (x : BayState) : (takeDrain w x).pstate = x.pstate := modBank_pstate ..

theorem takeDrain_banks (w : Bool) (x : BayState) : SameBanks x (takeDrain w x) :=
  modBank_same (f := fun k => { k with st := .draining, taken := true }) (fun _ => rfl) w x

theorem takeDrain_starts (w : Bool) (s : State) (b : Bay) : Starts s (s.modBay b (takeDrain w)) :=
  .of_keeps (modBay_still s b (takeDrain_pstate w)) (modBay_keeps s b (takeDrain_banks w))

theorem startDrain_starts (o : Op) (s : State) : Starts s (startDrain o s) := by
  unfold startDrain
  dsimp only
  split
  · exact .of_keeps (failOp_still ..) (failOp_keeps ..)
  · refine Starts.trans ?_ (.of_keeps (issueReads_still ..) (issueReads_keeps ..))
    refine Starts.trans ?_ (.of_keeps (emitOp_traced _ _ _ _ _).still (emitOp_keeps ..))
    refine Starts.trans ?_ (.of_keeps (noteGrant_still ..) (noteGrant_keeps ..))
    refine Starts.trans ?_ (Starts.foldl (fun s b => ?_) _ _)
    · exact .of_keeps (modOf_still ..) (modOf_keeps ..)
    · exact takeDrain_starts _ s b

/-! ### Products of the lehr -/

/-- A change of bays that leaves their power states, whatever it does to their banks. -/
theorem modBays_starts (s : State) (l : List Bay) {f : Bay → BayState → BayState} (h : ∀ b x, (f b x).pstate = x.pstate) :
    Starts s (s.modBays l f) :=
  have w := modBays_within s l f
  ⟨modBays_still s l h, ⟨w.prot, w.build, w.pending⟩, w.staging⟩

theorem startProduct_starts (o : Op) (s : State) : Starts s (startProduct o s) := by
  refine ((startTruss_starts o s).trans (modBays_starts _ _ ?_)).trans (.of_keeps (useFree_still ..) (useFree_keeps ..))
  exact fun _ _ => modBank_pstate ..

/-! ### Reserved operations -/

theorem startOf_starts (drain : Bool) (k o : Op) (s : State) : Starts s (startOf drain k o s) := by
  unfold startOf
  split
  · exact startDrain_starts ..
  · split
    exacts [startProduct_starts .., startTruss_starts ..]

theorem addLag_still (o : Op) (b : Bay) (k : Nat) (s : State) : Still s (addLag o b k s) := by
  unfold addLag
  split
  · exact Still.refl s
  · refine Still.trans ?_ (modOf_still ..)
    split
    exacts [Still.refl s, modBay_still _ _ fun _ => rfl]

theorem waitLag_starts (o : Op) (s : State) : Starts s (waitLag o s) := by
  refine .of_keeps ?_ (waitLag_keeps ..)
  unfold waitLag
  split
  exacts [Still.refl s, Still.foldl (fun s b => addLag_still ..) _ s]

theorem tryStart_starts {f : Op → State → State} (h : ∀ o s, Starts s (f o s)) (o : Op) (s : State) : Starts s (tryStart f o s) := by
  unfold tryStart
  split
  · split
    · dsimp only
      split
      exacts [(waitLag_starts ..).trans (h _ _), waitLag_starts ..]
    · exact Starts.refl s
  · exact Starts.refl s

theorem startReserved_starts (b : Bay) (s : State) : Starts s (startReserved b s) := by
  have h : ∀ (drain : Bool) (s : State), Starts s (match reservedOp s drain b with
      | some o => tryStart (startOf drain o) o s
      | none => s) := fun drain s => by
    split
    exacts [tryStart_starts (startOf_starts drain _) _ s, Starts.refl s]
  exact (h false s).trans (h true _)

/-- Where no operation has reserved the bay, none starts. -/
theorem startReserved_none {b : Bay} {s : State} (h : ∀ drain, reservedOp s drain b = none) : startReserved b s = s := by
  simp [startReserved, h]

end Sys2Proof.Machine
end

section
/-! Settles the statement about sleep and wake: what each step of a domain's power leaves alone, and the posted writes. -/

namespace Sys2Proof.Machine

open Sys2Proof Sys2Proof.Claims

/-- Contexts, operations, memories and set-up are the same. -/
structure Rests (s t : State) : Prop where
  ctx : t.ctx = s.ctx
  ops : t.ops = s.ops
  keeps : Keeps s t

theorem Rests.refl (s : State) : Rests s s := ⟨rfl, rfl, Keeps.refl s⟩

theorem Rests.trans {s t u : State} (h : Rests s t) (k : Rests t u) : Rests s u :=
  ⟨k.ctx.trans h.ctx, k.ops.trans h.ops, h.keeps.trans k.keeps⟩

theorem Rests.same {s t : State} (h : Rests s t) : t.ctx = s.ctx ∧ t.ops = s.ops ∧ SameMemories s t ∧ SameSetup s t :=
  ⟨h.ctx, h.ops, h.keeps.memories, sameSetup_of_keeps h.keeps⟩

theorem at'_rests (n : Nat) (s : State) : Rests s (at' n s) := ⟨at'_ctx .., at'_ops .., at'_keeps ..⟩

theorem advanceTo_rests (n : Nat) (s : State) : Rests s (advanceTo n s) := ⟨advanceTo_ctx .., advanceTo_ops .., advanceTo_keeps ..⟩

theorem modBay_rests (s : State) (b : Bay) {f : BayState → BayState} (h : ∀ x, SameBanks x (f x)) : Rests s (s.modBay b f) :=
  ⟨rfl, rfl, modBay_keeps s b h⟩

theorem Shadowed.rests {s t : State} (h : Shadowed s t) : Rests s t := by
  rw [h]
  exact ⟨rfl, rfl, Keeps.of_eq rfl rfl rfl rfl rfl⟩

theorem Shadowed.bay {s t : State} (h : Shadowed s t) : t.bay = s.bay := by rw [h]

theorem askFast_rests (s : State) : Rests s (askFast s) := by
  unfold askFast
  split
  exacts [Rests.refl s, ⟨rfl, rfl, Keeps.of_eq rfl rfl rfl rfl rfl⟩]

theorem askFast_bay (s : State) : (askFast s).bay = s.bay := by unfold askFast; split <;> rfl

theorem by_of_bay {s t : State} (h : t.bay = s.bay) (b : Bay) : t.by b = s.by b := by rw [State.by, State.by, h]

theorem Passed.pstate {s t : State} (h : Passed s t) (b : Bay) : (t.by b).pstate = (s.by b).pstate := by rw [h.bays b]

/-! ### Wakes -/

/-- The time at which a bay's wake may start: after its edge and 100 uc after the wake before. -/
def wakeStarts (b : Bay) (s : State) : Nat :=
  max (((s.by b).wakeAt / ucLen + 1) * ucLen) (match s.lastWake with | some t => t + 100 * ucLen | none => 0)

/-- The block when a bay's wake starts, at an edge of CLK_AON. -/
def wakeEdge (b : Bay) (s : State) : State :=
  advanceTo (alignUp ucLen (askFast (at' (wakeStarts b s) s)).clk) (askFast (at' (wakeStarts b s) s))

theorem wakeEdge_rests (b : Bay) (s : State) : Rests s (wakeEdge b s) :=
  ((at'_rests ..).trans (askFast_rests _)).trans (advanceTo_rests ..)

theorem wakeEdge_pstate (b : Bay) (s : State) : ((wakeEdge b s).by b).pstate = (s.by b).pstate := by
  rw [wakeEdge, (advanceTo_passed ..).pstate, by_of_bay (askFast_bay _), (at'_passed ..).pstate]

theorem le_alignUp (n : Nat) : n ≤ alignUp 400 n := by
  unfold alignUp ceilDiv'
  omega

theorem wakeEdge_clk (b : Bay) (s : State) : (wakeEdge b s).clk % 400 = 0 := by
  rw [wakeEdge, advanceTo_clk, show ucLen = 400 from rfl, max_eq_right (le_alignUp _)]
  exact Nat.mul_mod_left ..

/-- When a bay in a power state whose wake starts at `n` runs. -/
def wakeDue (p : PState) (n : Nat) : Nat := n + if p == .powerGated then 20 * usLen else 4000

theorem wakeDue_eq (p : PState) (n : Nat) : wakeDue p n = n + if p = .powerGated then 400000 else 4000 := by
  cases p <;> rfl

/-- A bay whose wake starts and that runs at `due`. -/
def BayState.waking (due : Nat) (x : BayState) : BayState :=
  { x with pstate := .waking, wakeReq := false, wakeAt := due, wakes := if x.wakes == 0xFFFF then x.wakes else x.wakes + 1 }

theorem startWake_eq (b : Bay) (s : State) : startWake b s =
    { (wakeEdge b s).modBay b (BayState.waking (wakeDue ((wakeEdge b s).by b).pstate (wakeEdge b s).clk)) with
      lastWake := some (wakeEdge b s).clk } := rfl

theorem startWake_by (b : Bay) (s : State) :
    (startWake b s).by b = BayState.waking (wakeDue (s.by b).pstate (wakeEdge b s).clk) ((wakeEdge b s).by b) := by
  rw [startWake_eq, wakeEdge_pstate]
  exact modBay_by ..

theorem startWake_rests (b : Bay) (s : State) : Rests s (startWake b s) := by
  have h := modBay_rests (wakeEdge b s) b (f := BayState.waking (wakeDue ((wakeEdge b s).by b).pstate (wakeEdge b s).clk))
    fun _ => ⟨rfl, rfl⟩
  refine ((wakeEdge_rests b s).trans h).trans ?_
  exact ⟨rfl, rfl, Keeps.of_eq rfl rfl rfl rfl rfl⟩

theorem wakesFirst_req {s : State} {b : Bay} (h : wakesFirst s b = true) : (s.by b).wakeReq = true := by
  simp only [wakesFirst, Bool.and_eq_true] at h
  obtain ⟨⟨hreq, -⟩, -⟩ := h
  exact hreq

/-- A wake that starts or waits is decided by the damper. -/
theorem wakeStart_bay {s : State} {b : Bay} (hr : wakesRun s = true) (hf : wakesFirst s b = true) :
    exec (.wakeStart (.bay b)) s = .next (if admits s b then startWake b s else holdWake b s) := by
  show execWakeStart (.bay b) s = _
  simp only [execWakeStart, hr, hf, Bool.not_true, Bool.false_eq_true, if_false]
  split <;> rfl

theorem wakeStart_common {s : State} (hr : wakesRun s = true) (hq : s.fastReq = true) (hg : s.fastGo = false) (ho : s.fastOn = false) :
    exec (.wakeStart .common) s = .next { at' ((s.fastAt / ucLen + 1) * ucLen) s with
      fastGo := true, fastAt := (at' ((s.fastAt / ucLen + 1) * ucLen) s).clk } := by
  show execWakeStart .common s = _
  simp [execWakeStart, hr, hq, hg, ho]

/-! ### Posted writes -/

theorem blockBay_of_build {s t : State} (h : t.build = s.build) : blockBay t = blockBay s := by
  unfold blockBay State.present
  rw [h]

theorem regKind_of_build {s t : State} (h : t.build = s.build) (n : Nat) : regKind t n = regKind s n := by
  unfold regKind
  rw [blockBay_of_build h]

theorem ownedBy_of_build {s t : State} (h : t.build = s.build) (d : Domain) (n : Nat) : ownedBy t d n = ownedBy s d n := by
  rw [ownedBy, ownedBy, regKind_of_build h]

/-- A posted write with its effect, refused or not. -/
def applyOne (s : State) (x : BitVec 16 × Word) : State := (effect x.1.toNat x.2.toNat s).getD s

theorem applyOne_still (s : State) (x : BitVec 16 × Word) : Still s (applyOne s x) := by
  unfold applyOne
  cases h : effect x.1.toNat x.2.toNat s with
  | none => exact Still.refl s
  | some t => exact (effect_still ..).still t h

/-- The writes that a domain leaves posted. -/
def leftPosted (d : Domain) (s : State) : List (BitVec 16 × Word) := s.regs.posted.filter fun x => !ownedBy s d x.1.toNat

def setPosted (l : List (BitVec 16 × Word)) (s : State) : State := { s with regs := { s.regs with posted := l } }

theorem applyPosted_eq (d : Domain) (s : State) : applyPosted d s =
    (s.regs.posted.filter fun x => ownedBy s d x.1.toNat).foldl applyOne (setPosted (leftPosted d s) s) := rfl

theorem applyPosted_still (d : Domain) (s : State) : Still (setPosted (leftPosted d s) s) (applyPosted d s) := by
  rw [applyPosted_eq]
  exact Still.foldl applyOne_still _ _

theorem applyPosted_none {s : State} (h : s.regs.posted = []) (d : Domain) : applyPosted d s = s := by
  have e : setPosted [] s = s := by rw [← h]; rfl
  rw [applyPosted_eq, leftPosted, h, List.filter_nil, List.filter_nil, List.foldl_nil, e]

/-- A domain's only posted write takes effect, and nothing is left. -/
theorem applyPosted_one {s t : State} {d : Domain} {x : BitVec 16 × Word} (h : s.regs.posted = [x]) (ho : ownedBy s d x.1.toNat = true)
    (he : effect x.1.toNat x.2.toNat (setPosted [] s) = some t) : applyPosted d s = t := by
  simp [applyPosted_eq, leftPosted, h, ho, applyOne, he]

theorem applyPosted_posted (d : Domain) (s : State) : (applyPosted d s).regs.posted = leftPosted d s := (applyPosted_still d s).posted

/-! ### The start of the fast clocks -/

/-- A running bay's idle fc go on from when the clocks stopped. -/
def BayState.resume (k : Nat) (x : BayState) : BayState := if x.pstate == PState.running then { x with idleAt := x.idleAt + k } else x

/-- The fast clocks run, nothing posted applied yet. -/
def clocksOn (s : State) : State :=
  { s with fastOn := true, fastReq := false, fastGo := false, restart := s.clk
           bay := s.bay.map (BayState.resume (s.clk - s.damp.fcFrom)), damp := { s.damp with fcFrom := s.clk } }

theorem startFast_eq (s : State) : startFast s =
    ((clocksOn s).bays.filter fun b => ((clocksOn s).by b).pstate == .running).foldl (fun s b => applyPosted (.bay b) s)
      (applyPosted .common (clocksOn s)) := rfl

theorem resume_banks (k : Nat) (x : BayState) : SameBanks x (x.resume k) := by
  unfold BayState.resume
  split <;> exact ⟨rfl, rfl⟩

theorem clocksOn_rests (s : State) : Rests s (clocksOn s) :=
  ⟨rfl, rfl, mapBays_keeps (resume_banks _) rfl rfl rfl rfl rfl⟩

/-- The clocks run and no write for a domain that has taken its own is posted again. -/
structure Woken (s t : State) : Prop where
  build : t.build = s.build
  fast : t.fastOn = s.fastOn
  posted : t.regs.posted ⊆ s.regs.posted

theorem Woken.trans {s t u : State} (h : Woken s t) (k : Woken t u) : Woken s u :=
  ⟨k.build.trans h.build, k.fast.trans h.fast, fun _ hx => h.posted (k.posted hx)⟩

theorem applyPosted_woken (d : Domain) (s : State) : Woken s (applyPosted d s) :=
  have h := applyPosted_still d s
  ⟨h.build, h.fast, applyPosted_posted d s ▸ List.filter_subset_self _⟩

theorem applyPosteds_woken (l : List Bay) (s : State) : Woken s (l.foldl (fun s b => applyPosted (.bay b) s) s) := by
  induction l generalizing s with
  | nil => exact ⟨rfl, rfl, List.Subset.refl _⟩
  | cons b l ih => exact (applyPosted_woken (.bay b) s).trans (ih _)

/-- When the fast clocks run, nothing is posted to the common domain any more. -/
theorem startFast_woken (s : State) :
    (startFast s).fastOn = true ∧ ∀ x ∈ (startFast s).regs.posted, ownedBy s .common x.1.toNat = false := by
  rw [startFast_eq]
  have h := applyPosteds_woken ((clocksOn s).bays.filter fun b => ((clocksOn s).by b).pstate == .running) (applyPosted .common (clocksOn s))
  refine ⟨h.fast.trans (applyPosted_woken .common (clocksOn s)).fast, fun x hx => ?_⟩
  have hx := h.posted hx
  rw [applyPosted_posted] at hx
  have ho := (List.mem_filter.1 hx).2
  rw [ownedBy_of_build (t := clocksOn s) (s := s) rfl, Bool.not_eq_true'] at ho
  exact ho

/-- Where the common domain leaves nothing posted, the bays have nothing to take. -/
theorem startFast_of_common {s t : State} (h : applyPosted .common (clocksOn s) = t) (ht : t.regs.posted = []) : startFast s = t := by
  rw [startFast_eq, h]
  exact List.foldl_fixed' (fun b => applyPosted_none ht (.bay b)) _

theorem startFast_none {s : State} (h : s.regs.posted = []) : startFast s = clocksOn s :=
  startFast_of_common (applyPosted_none (s := clocksOn s) h .common) h

theorem wakeDone_common {s : State} (hq : s.g.opsReq = false) (hg : s.fastGo = true) :
    exec (.wakeDone .common) s = .next (startFast (at' (s.fastAt + 4000) s)) := by
  show execWakeDone .common s = _
  simp [execWakeDone, hq, hg]

end Sys2Proof.Machine
end

section
/-! Settles the statement about sleep and wake: doorbells and interrupt clears that wait for the common domain, and the sleep of bays. -/

namespace Sys2Proof.Machine

open Sys2Proof Sys2Proof.Claims

/-! ### Registers of a context that wake-up writes -/

/-- A context register of the common domain whose write has no effect but its own. -/
structure CommonReg (n : Nat) (c : Ctx) (off : Nat) : Prop where
  small : n < 65536
  aligned : n % 4 = 0
  high : 0x1800 ≤ n
  addr : ctxAddr n = some (c, off)
  kind : ∃ w, ctxKind off = some (.shadow .common w)
  plain : rcMask n = 0 ∧ n ≠ 0x7000 ∧ off ≠ 0x0F0

/-- The offset of the tail of a queue. -/
def tailOff : QSel → Nat
  | .main => 0x018
  | .prio => 0x038

theorem tailAddr_reg (c : Ctx) (q : QSel) : CommonReg (tailAddr c q) c (tailOff q) := by
  refine ⟨?_, ?_, ?_, ?_, ?_, ?_, ?_, ?_⟩
  case refine_5 => cases q <;> exact ⟨true, rfl⟩
  all_goals cases q <;> revert c <;> decide

theorem irqAddr_reg (c : Ctx) : CommonReg (ctxBase c + 0x0C4) c 0x0C4 := by
  refine ⟨?_, ?_, ?_, ?_, ⟨false, rfl⟩, ?_, ?_, ?_⟩
  all_goals revert c; decide

theorem CommonReg.owned {n off : Nat} {c : Ctx} (h : CommonReg n c off) (s : State) : ownedBy s .common n = true := by
  obtain ⟨w, hk⟩ := h.kind
  have e : regKind s n = some (.shadow .common w) := by
    have := h.high
    unfold regKind
    rw [if_neg (by simp [h.aligned]), if_neg (by omega), if_neg (by omega), h.addr]
    exact hk
  rw [ownedBy, e]
  rfl

theorem CommonReg.effect_eq {n off : Nat} {c : Ctx} (h : CommonReg n c off) (v : Nat) (s : State) : effect n v s = ctxWrite c off v s := by
  obtain ⟨h1, h2, h3⟩ := h.plain
  have := h.high
  have hp : plainEffect n v s = ctxWrite c off v s := by
    unfold plainEffect
    rw [if_neg (by omega), if_neg (by omega), h.addr]
  unfold effect
  rw [if_neg (by simp [h1]), if_neg (by simpa using h2), h.addr]
  split
  · next e => cases e; exact absurd rfl h3
  · exact hp

/-! ### Doorbells and interrupt clears that were posted -/

/-- The block as its fast clocks start, the common domain's writes taken. -/
def wokenUp (s : State) : State := setPosted [] (clocksOn s)

theorem wokenUp_rests (s : State) : Rests s (wokenUp s) := by
  refine (clocksOn_rests s).trans ?_
  exact ⟨rfl, rfl, Keeps.of_eq rfl rfl rfl rfl rfl⟩

/-- The only write that waits for the common domain takes effect when its clocks start. -/
theorem startFast_write {n off : Nat} {c : Ctx} {v : Word} {s : State} {f : CtxState → CtxState} (r : CommonReg n c off)
    (h : s.regs.posted = [(BitVec.ofNat 16 n, v)]) (he : ctxWrite c off v.toNat (wokenUp s) = some ((wokenUp s).modCtx c f)) :
    startFast s = (wokenUp s).modCtx c f := by
  have hn : (BitVec.ofNat 16 n).toNat = n := by
    rw [BitVec.toNat_ofNat]
    exact Nat.mod_eq_of_lt r.small
  refine startFast_of_common (applyPosted_one (s := clocksOn s) h ?_ ?_) rfl
  · rw [hn]
    exact r.owned _
  · rw [hn, r.effect_eq]
    exact he

/-- A queue whose tail a doorbell has moved at time `t`; one that was idle counts its time anew. -/
def Queue.rung (v : Nat) (idle : Bool) (t : Nat) (x : Queue) : Queue :=
  { x with tail := BitVec.ofNat 16 v, lastAt := if idle then t else x.lastAt }

theorem queue_modQueue (x : CtxState) (q : QSel) (f : Queue → Queue) : (x.modQueue q f).queue q = f (x.queue q) := by cases q <;> rfl

/-- A doorbell within its queue moves the tail alone. -/
theorem doorbell_done {c : Ctx} {q : QSel} {v : Nat} {s : State} (h : v % 65536 < (s.qu c q).entries) :
    ∃ idle t, ctxWrite c (tailOff q) v s = some (s.modQueue c q (Queue.rung v idle t)) := by
  have e : ctxWrite c (tailOff q) v s = setTail c q v s := by cases q <;> rfl
  rw [e, setTail, if_neg (by omega)]
  exact ⟨_, _, rfl⟩

/-- A context whose interrupt causes a write of IRQ_STAT has cleared. -/
def CtxState.irqCleared (v : Nat) (x : CtxState) : CtxState :=
  { x with irqFault := x.irqFault && !v.testBit 1, irqEpoch := x.irqEpoch && !v.testBit 2 }

/-- A change of one context after steps that rest. -/
theorem Rests.modCtx {s u : State} (h : Rests s u) (c : Ctx) (f : CtxState → CtxState) :
    (u.modCtx c f).cx c = f (s.cx c) ∧ (u.modCtx c f).ops = s.ops ∧ (∀ d, d ≠ c → (u.modCtx c f).cx d = s.cx d) ∧
      SameMemories s (u.modCtx c f) ∧ SameSetup s (u.modCtx c f) := by
  have k := h.keeps.trans (modCtx_keeps u c f)
  refine ⟨?_, h.ops, fun d hd => ?_, k.memories, sameSetup_of_keeps k⟩
  · rw [modCtx_cx, cx_of_ctx h.ctx]
  · rw [modCtx_cx_ne _ _ _ hd, cx_of_ctx h.ctx]

end Sys2Proof.Machine

namespace Sys2Proof.Claims

open Sys2Proof Sys2Proof.Machine

theorem doorbell_wakes {s u : State} (h : Rests s u) {c : Ctx} {q : QSel} {v : Word}
    (hp : u.regs.posted = [(BitVec.ofNat 16 (tailAddr c q), v)]) (hv : v.toNat % 65536 < (s.qu c q).entries) :
    (startFast u).regs.posted = [] ∧ ((startFast u).qu c q).tail = BitVec.ofNat 16 v.toNat ∧
      ((startFast u).qu c q).head = (s.qu c q).head ∧ (startFast u).ops = s.ops ∧ (∀ d, d ≠ c → (startFast u).cx d = s.cx d) ∧
      SameMemories s (startFast u) ∧ SameSetup s (startFast u) := by
  have hr := h.trans (wokenUp_rests u)
  have hq : (wokenUp u).qu c q = s.qu c q := congrArg (fun x => CtxState.queue x q) (cx_of_ctx hr.ctx c)
  obtain ⟨idle, time, he⟩ := doorbell_done (s := wokenUp u) (hq ▸ hv)
  obtain ⟨hc, hrest⟩ := hr.modCtx c fun x => x.modQueue q (Queue.rung v.toNat idle time)
  rw [startFast_write (tailAddr_reg c q) hp he]
  have ht : ((wokenUp u).modCtx c fun x => x.modQueue q (Queue.rung v.toNat idle time)).qu c q = Queue.rung v.toNat idle time (s.qu c q) := by
    rw [State.qu, hc, queue_modQueue]
    rfl
  exact ⟨rfl, by rw [ht]; rfl, by rw [ht]; rfl, hrest⟩

theorem irqClear_wakes {s u : State} (h : Rests s u) {c : Ctx} {v : Word}
    (hp : u.regs.posted = [(BitVec.ofNat 16 (ctxBase c + 0x0C4), v)]) :
    (startFast u).regs.posted = [] ∧ ((startFast u).cx c).irqFault = ((s.cx c).irqFault && !v.getLsbD 1) ∧
      ((startFast u).cx c).irqEpoch = ((s.cx c).irqEpoch && !v.getLsbD 2) ∧ (startFast u).ops = s.ops ∧
      (∀ d, d ≠ c → (startFast u).cx d = s.cx d) ∧ SameMemories s (startFast u) ∧ SameSetup s (startFast u) := by
  obtain ⟨hc, hrest⟩ := (h.trans (wokenUp_rests u)).modCtx c (CtxState.irqCleared v.toNat)
  rw [startFast_write (irqAddr_reg c) hp (f := CtxState.irqCleared v.toNat) rfl, hc]
  exact ⟨rfl, rfl, rfl, hrest⟩

end Sys2Proof.Claims
end

section
/-! Settles the statement about sleep and wake. -/

namespace Sys2Proof.Claims

open Sys2Proof Sys2Proof.Machine

/-! ### Wakes -/

theorem admitted_wake {s : State} {b : Bay} (hr : wakesRun s = true) (hf : wakesFirst s b = true) (ha : admits s b = true) :
    ∃ t, exec (.wakeStart (.bay b)) s = .next t ∧ (t.by b).pstate = .waking ∧ (t.by b).wakeReq = false ∧
      (t.by b).wakeAt = t.clk + (if (s.by b).pstate = .powerGated then 400000 else 4000) ∧ t.clk % 400 = 0 ∧ t.lastWake = some t.clk ∧
      t.ctx = s.ctx ∧ t.ops = s.ops ∧ SameMemories s t ∧ SameSetup s t := by
  refine ⟨startWake b s, ?_, ?_, ?_, ?_, wakeEdge_clk b s, rfl, (startWake_rests b s).same⟩
  · rw [wakeStart_bay hr hf, if_pos ha]
  all_goals rw [startWake_by]
  · rfl
  · rfl
  · exact wakeDue_eq ..

theorem holdWake_by (b : Bay) (s : State) : (holdWake b s).by b = { s.by b with wakeHeld := true } := by
  show (s.modBay b fun x => { x with wakeHeld := true }).by b = _
  rw [modBay_by]

theorem holdWake_rests (b : Bay) (s : State) : Rests s (holdWake b s) := by
  refine (modBay_rests s b (f := fun x => { x with wakeHeld := true }) fun _ => ⟨rfl, rfl⟩).trans ?_
  exact ⟨rfl, rfl, Keeps.of_eq rfl rfl rfl rfl rfl⟩

theorem held_wake {s : State} {b : Bay} (hr : wakesRun s = true) (hf : wakesFirst s b = true) (ha : admits s b = false) :
    ∃ t, exec (.wakeStart (.bay b)) s = .next t ∧ t.damp.wwait = true ∧ (t.by b).wakeHeld = true ∧ (t.by b).wakeReq = true ∧
      (t.by b).pstate = (s.by b).pstate ∧ t.clk = s.clk ∧ t.ctx = s.ctx ∧ t.ops = s.ops ∧ SameMemories s t ∧ SameSetup s t := by
  refine ⟨holdWake b s, ?_, rfl, ?_, ?_, ?_, rfl, (holdWake_rests b s).same⟩
  · rw [wakeStart_bay hr hf, if_neg (by simp [ha])]
  all_goals rw [holdWake_by]
  exact wakesFirst_req hf

theorem common_wake {s : State} (hr : wakesRun s = true) (hq : s.fastReq = true) (hg : s.fastGo = false) (ho : s.fastOn = false) :
    ∃ t, exec (.wakeStart .common) s = .next t ∧ t.fastGo = true ∧ t.clk = max s.clk ((s.fastAt / 400 + 1) * 400) ∧ t.ctx = s.ctx ∧
      t.ops = s.ops ∧ SameMemories s t ∧ SameSetup s t := by
  refine ⟨_, wakeStart_common hr hq hg ho, rfl, at'_clk .., Rests.same ((at'_rests ((s.fastAt / ucLen + 1) * ucLen) s).trans ?_)⟩
  exact ⟨rfl, rfl, Keeps.of_eq rfl rfl rfl rfl rfl⟩

/-! ### The end of wakes -/

theorem at'_posted (n : Nat) (s : State) : (at' n s).regs.posted = s.regs.posted := by rw [(at'_passed n s).rest]

theorem common_runs {s : State} (hq : s.g.opsReq = false) (hg : s.fastGo = true) (hp : s.regs.posted = []) :
    ∃ t, exec (.wakeDone .common) s = .next t ∧ t.fastOn = true ∧ t.fastReq = false ∧ t.clk = max s.clk (s.fastAt + 4000) ∧
      t.ctx = s.ctx ∧ t.ops = s.ops ∧ SameMemories s t ∧ SameSetup s t := by
  refine ⟨_, (wakeDone_common hq hg).trans (congrArg _ (startFast_none ((at'_posted ..).trans hp))), rfl, rfl, at'_clk .., ?_⟩
  exact ((at'_rests ..).trans (clocksOn_rests _)).same

theorem posted_writes_act {s : State} (hq : s.g.opsReq = false) (hg : s.fastGo = true) :
    ∃ t, exec (.wakeDone .common) s = .next t ∧ t.fastOn = true ∧
      (∀ x ∈ t.regs.posted, ownedBy s .common x.1.toNat = false) ∧
      (∀ c q v, s.regs.posted = [(BitVec.ofNat 16 (tailAddr c q), v)] → v.toNat % 65536 < (s.qu c q).entries →
        t.regs.posted = [] ∧ (t.qu c q).tail = BitVec.ofNat 16 v.toNat ∧ (t.qu c q).head = (s.qu c q).head ∧ t.ops = s.ops ∧
        (∀ d, d ≠ c → t.cx d = s.cx d) ∧ SameMemories s t ∧ SameSetup s t) ∧
      (∀ c v, s.regs.posted = [(BitVec.ofNat 16 (ctxBase c + 0x0C4), v)] →
        t.regs.posted = [] ∧ (t.cx c).irqFault = ((s.cx c).irqFault && !v.getLsbD 1) ∧
        (t.cx c).irqEpoch = ((s.cx c).irqEpoch && !v.getLsbD 2) ∧ t.ops = s.ops ∧ (∀ d, d ≠ c → t.cx d = s.cx d) ∧ SameMemories s t ∧
        SameSetup s t) := by
  have hr := at'_rests (s.fastAt + 4000) s
  have hp := at'_posted (s.fastAt + 4000) s
  obtain ⟨hon, hleft⟩ := startFast_woken (at' (s.fastAt + 4000) s)
  refine ⟨_, wakeDone_common hq hg, hon, fun x hx => ?_, fun c q v h hv => doorbell_wakes hr (hp.trans h) hv,
    fun c v h => irqClear_wakes hr (hp.trans h)⟩
  rw [← ownedBy_of_build hr.keeps.build]
  exact hleft x hx

/-- A bay as it begins to run at time `t`, `n` working fc into the damper's count. -/
def running (t n : Nat) (x : BayState) : BayState := { x with pstate := .running, idleAt := t, awakeAt := t, backRan := n }

/-- The block as a bay begins to run, before what waits for the bay. -/
def bayRuns (b : Bay) (s : State) : State :=
  (at' (s.by b).wakeAt s).modBay b (running (at' (s.by b).wakeAt s).clk (at' (s.by b).wakeAt s).damp.ran)

theorem endWake_eq {s : State} (hp : s.regs.posted = []) (b : Bay) : endWake b s = startReserved b (bayRuns b s) :=
  congrArg (startReserved b) (applyPosted_none (s := bayRuns b s) ((at'_posted ..).trans hp) (.bay b))

theorem bayRuns_rests (b : Bay) (s : State) : Rests s (bayRuns b s) :=
  (at'_rests ..).trans (modBay_rests _ b (f := running _ _) fun _ => ⟨rfl, rfl⟩)

/-- Beginning to run reserves nothing. -/
theorem bayRuns_units (b d : Bay) (s : State) :
    ((bayRuns b s).by d).truss = (s.by d).truss ∧ ((bayRuns b s).by d).drain = (s.by d).drain := by
  have h := (at'_passed (s.by b).wakeAt s).bays d
  rw [bayRuns, modBay_by_cases]
  split
  · next e => subst e; rw [h]; exact ⟨rfl, rfl⟩
  · rw [h]; exact ⟨rfl, rfl⟩

theorem bayRuns_reservedOp (b d : Bay) (drain : Bool) (s : State) : reservedOp (bayRuns b s) drain d = reservedOp s drain d := by
  unfold reservedOp
  rw [(bayRuns_units b d s).1, (bayRuns_units b d s).2, (bayRuns_rests b s).ops]

theorem bay_runs {s : State} {b : Bay} (hw : (s.by b).pstate = .waking) (ho : s.fastOn = true) (hp : s.regs.posted = []) :
    ∃ t, exec (.wakeDone (.bay b)) s = .next t ∧ (t.by b).pstate = .running ∧ t.clk = max s.clk (s.by b).wakeAt ∧
      t.staging = s.staging ∧ SameSetup s t ∧
      ((∀ drain, reservedOp s drain b = none) → t.ops = s.ops ∧ t.ctx = s.ctx ∧ SameMemories s t) := by
  have hrun : exec (.wakeDone (.bay b)) s = .next (startReserved b (bayRuns b s)) := by
    show execWakeDone (.bay b) s = _
    simp [execWakeDone, hw, ho, endWake_eq hp]
  have hr := bayRuns_rests b s
  obtain ⟨hstill, hsetup, hstag⟩ := startReserved_starts b (bayRuns b s)
  refine ⟨_, hrun, ?_, hstill.clk.trans (at'_clk ..), hstag.trans hr.keeps.staging,
    SameSetup.trans (sameSetup_of_keeps hr.keeps) hsetup, fun hno => ?_⟩
  · rw [hstill.power, bayRuns, modBay_by]
    rfl
  · rw [startReserved_none fun drain => (bayRuns_reservedOp b b drain s).trans (hno drain)]
    exact ⟨hr.ops, hr.ctx, hr.keeps.memories⟩

/-! ### Sleep -/

theorem stopShadows_by (b d : Bay) (s : State) : (stopShadows b s).by d = s.by d := by_of_bay (stopShadows_shadowed b s).bay d

theorem clock_stops {s : State} {b : Bay} (hready : s.boot.ready = true) (hb : s.present b = true) (hrun : (s.by b).pstate = .running)
    (ho : s.fastOn = true) (hfree : bayFree s b = true) (hrst : (s.by b).brst = false) (hpol : policy s b ≤ 1) :
    ∃ t, exec (.bayClockStop b) s = .next t ∧ (t.by b).pstate = .clockStopped ∧ t.clk = max s.clk ((s.by b).idleAt + 256 * fcLen s) ∧
      (t.by b).face = (s.by b).face ∧ t.ctx = s.ctx ∧ t.ops = s.ops ∧ SameMemories s t ∧ SameSetup s t := by
  have he : exec (.bayClockStop b) s = .next ((stopShadows b (at' ((s.by b).idleAt + 256 * fcLen s) s)).modBay b fun x =>
      { x with pstate := .clockStopped, idleAt := (at' ((s.by b).idleAt + 256 * fcLen s) s).clk }) := by
    show execBayClockStop b s = _
    simp [execBayClockStop, hready, hb, hrun, ho, hfree, hrst, hpol]
  generalize hu : at' ((s.by b).idleAt + 256 * fcLen s) s = u at he
  have hclk : u.clk = max s.clk ((s.by b).idleAt + 256 * fcLen s) := by rw [← hu, at'_clk]
  have hface : (u.by b).face = (s.by b).face := by rw [← hu, (at'_passed ..).bays b]
  have hr : Rests s u := hu ▸ at'_rests ..
  have hs := (stopShadows_shadowed b u).within
  refine ⟨_, he, ?_, hs.clk.trans hclk, ?_, ((hr.trans (stopShadows_shadowed b u).rests).trans (modBay_rests _ b ?_)).same⟩
  · rw [modBay_by]
  · rw [modBay_by, stopShadows_by]
    exact hface
  · exact fun _ => ⟨rfl, rfl⟩

theorem gate_by (b : Bay) (s : State) : (gate b s).by b = { s.by b with pstate := .powerGated, face := none } := by
  rw [gate, modBay_by, stopShadows_by]

theorem gate_rests (b : Bay) (s : State) : Rests s (gate b s) :=
  (stopShadows_shadowed b s).rests.trans (modBay_rests _ b (f := fun x => { x with pstate := .powerGated, face := none }) fun _ => ⟨rfl, rfl⟩)

theorem gate_clk (b : Bay) (s : State) : (gate b s).clk = s.clk := (stopShadows_shadowed b s).within.clk

theorem stopped_bay_gated {s : State} {b : Bay} (hb : s.present b = true) (hk : keepsPower s b = false) (hin : (s.by b).oos = false)
    (hst : (s.by b).pstate = .clockStopped) (hpol : policy s b = 0) :
    ∃ t, exec (.powerGate b) s = .next t ∧ (t.by b).pstate = .powerGated ∧ (t.by b).face = none ∧ (t.by b).tag = (s.by b).tag ∧
      (t.by b).recs = (s.by b).recs ∧ t.clk = max s.clk ((s.by b).idleAt + s.g.pgDelay.toNat * 20000) ∧ t.ctx = s.ctx ∧ t.ops = s.ops ∧
      SameMemories s t ∧ SameSetup s t := by
  have he : exec (.powerGate b) s = .next (gate b (at' ((s.by b).idleAt + s.g.pgDelay.toNat * usLen) s)) := by
    show execPowerGate b s = _
    simp [execPowerGate, hb, hk, hin, hst, hpol]
  have hp := (at'_passed ((s.by b).idleAt + s.g.pgDelay.toNat * usLen) s).bays b
  refine ⟨_, he, ?_, ?_, ?_, ?_, (gate_clk ..).trans (at'_clk ..), ((at'_rests ..).trans (gate_rests ..)).same⟩ <;> rw [gate_by]
  · rw [hp]
  · rw [hp]

theorem absent_service_gated {s : State} {b : Bay} (hb : s.present b = true) (hk : keepsPower s b = false) (hout : (s.by b).oos = true)
    (hst : (s.by b).pstate ≠ .powerGated) :
    ∃ t, exec (.powerGate b) s = .next t ∧ (t.by b).pstate = .powerGated ∧ (t.by b).face = none ∧ t.clk = s.clk ∧ t.ctx = s.ctx ∧
      t.ops = s.ops ∧ SameMemories s t ∧ SameSetup s t := by
  have he : exec (.powerGate b) s = .next (gate b s) := by
    show execPowerGate b s = _
    simp [execPowerGate, hb, hk, hout, hst]
  refine ⟨_, he, ?_, ?_, gate_clk .., (gate_rests b s).same⟩ <;> rw [gate_by]

/-- The fast clocks stand: the timebase holds its sub-count, the damper the positions of its window. -/
def clocksOff (s : State) : State :=
  { s with holdI := timebaseSub s, holdU := s.clk / ucLen, fastOn := false, damp := { s.damp with fcBase := fcIndex s s.clk, fcFrom := s.clk } }

theorem stopFast_eq (s : State) : stopFast s = clocksOff (refreshAll (awake s) s) := rfl

theorem clocksOff_rests (s : State) : Rests s (clocksOff s) := ⟨rfl, rfl, Keeps.of_eq rfl rfl rfl rfl rfl⟩

theorem clocksOff_clk (s : State) : (clocksOff s).clk = s.clk := rfl

theorem stopFast_rests (s : State) : Rests s (stopFast s) := by
  rw [stopFast_eq]
  exact (refreshAll_shadowed (awake s) s).rests.trans (clocksOff_rests _)

theorem stopFast_clk (s : State) : (stopFast s).clk = s.clk := by
  rw [stopFast_eq, clocksOff_clk]
  exact (refreshAll_shadowed (awake s) s).within.clk

theorem common_stops {s : State} (hready : s.boot.ready = true) (ho : s.fastOn = true) (hidle : ∀ c, ctxIdle s c = true) (hops : s.ops = [])
    (hlehr : s.lehr = none) (hhalt : haltReq s = false)
    (hbays : ∀ b, s.present b = true → ((s.by b).pstate = .clockStopped ∨ (s.by b).pstate = .powerGated) ∧ (s.by b).wakeReq = false) :
    ∃ t, exec .commonClockStop s = .next t ∧ t.fastOn = false ∧ t.clk = s.clk ∧ t.ctx = s.ctx ∧ SameMemories s t ∧ SameSetup s t := by
  have he : exec .commonClockStop s = .next (stopFast s) := by
    refine if_pos ?_
    simp only [Bool.and_eq_true, List.all_eq_true, hready, ho, hops, hlehr, hhalt, Bool.not_eq_true', Bool.or_eq_true, beq_iff_eq, mem_bays]
    exact ⟨⟨⟨⟨⟨⟨trivial, trivial⟩, fun c _ => hidle c⟩, rfl⟩, rfl⟩, trivial⟩, hbays⟩
  obtain ⟨hc, -, hm, hs⟩ := (stopFast_rests s).same
  exact ⟨_, he, rfl, stopFast_clk s, hc, hm, hs⟩

/-- Settles O49: one lemma for each step of a bay's and of the common domain's power. -/
theorem sleepAndWake : Obligations.SleepAndWake :=
  fun _ => ⟨fun _ => admitted_wake, fun _ => held_wake, common_wake, common_runs, posted_writes_act, fun _ => bay_runs,
    fun _ => clock_stops, fun _ => stopped_bay_gated, fun _ => absent_service_gated, common_stops⟩

end Sys2Proof.Claims
end

section
/-! SUPPORT. What work in the bays leaves alone: of operations all but how far they have come, of contexts all but their flags and counts,
of bays the joints, the tile banks and the ports. -/

namespace Sys2Proof.Machine

open Sys2Proof

/-! ### Operations -/

/-- The operation `p` is `o`, further on in its work. -/
def Op.Ran (o p : Op) : Prop :=
  p = { o with why := p.why, lags := p.lags, streamed := p.streamed, held := p.held, cause := p.cause, holes := p.holes, ovfNow := p.ovfNow,
               bayFlags := p.bayFlags, opFlags := p.opFlags, pass := p.pass, patch := p.patch, tDue := p.tDue }

theorem Op.Ran.refl (o : Op) : o.Ran o := rfl

theorem Op.Ran.trans {o p r : Op} (h : o.Ran p) (k : p.Ran r) : o.Ran r := by
  unfold Op.Ran at *
  rw [k, h]

section
variable {o p : Op} (h : o.Ran p)
include h

theorem Op.Ran.ctx : p.ctx = o.ctx := by rw [h]
theorem Op.Ran.seq : p.seq = o.seq := by rw [h]
theorem Op.Ran.side : p.side = o.side := by rw [h]
theorem Op.Ran.opc : p.opc = o.opc := by rw [h]
theorem Op.Ran.word : p.word = o.word := by rw [h]
theorem Op.Ran.stage : p.stage = o.stage := by rw [h]
theorem Op.Ran.status : p.status = o.status := by rw [h]
theorem Op.Ran.retry : p.retry = o.retry := by rw [h]
theorem Op.Ran.attempt : p.attempt = o.attempt := by rw [h]
theorem Op.Ran.gset : p.gset = o.gset := by rw [h]
theorem Op.Ran.chain : p.chain = o.chain := by rw [h]

theorem Op.Ran.is (c : Ctx) (q : BitVec 8) : p.is c q = o.is c q := by rw [h]; rfl

end

/-! ### Contexts -/

/-- A context but for its sticky flags, its cullet counters and the lags of its last operations. -/
def SameTenant (x y : CtxState) : Prop :=
  y = { x with sticky := y.sticky, cullet := y.cullet, nlag := y.nlag, nocc := y.nocc, nraise := y.nraise }

theorem SameTenant.refl (x : CtxState) : SameTenant x x := rfl

theorem SameTenant.trans {x y z : CtxState} (h : SameTenant x y) (k : SameTenant y z) : SameTenant x z := by
  unfold SameTenant at *
  rw [k, h]

/-! ### Bays -/

/-- Joints, tile banks and ports of a bay are the same. -/
structure SameContents (x y : BayState) : Prop where
  tag : y.tag = x.tag
  face : y.face = x.face
  recs : y.recs = x.recs
  bank0 : y.bank0 = x.bank0
  bank1 : y.bank1 = x.bank1
  fill1 : y.fill1 = x.fill1
  port : y.port = x.port

theorem SameContents.refl (x : BayState) : SameContents x x := ⟨rfl, rfl, rfl, rfl, rfl, rfl, rfl⟩

theorem SameContents.trans {x y z : BayState} (h : SameContents x y) (k : SameContents y z) : SameContents x z :=
  ⟨k.tag.trans h.tag, k.face.trans h.face, k.recs.trans h.recs, k.bank0.trans h.bank0, k.bank1.trans h.bank1, k.fill1.trans h.fill1,
    k.port.trans h.port⟩

theorem SameContents.bank {x y : BayState} (h : SameContents x y) (w : Bool) : y.bank w = x.bank w := by
  rw [BayState.bank, BayState.bank, h.bank0, h.bank1]

theorem SameContents.fill {x y : BayState} (h : SameContents x y) : y.fill = x.fill := by
  rw [BayState.fill, BayState.fill, h.bank, h.fill1]

/-- No bay's contents change. -/
structure BaysKept (s t : State) : Prop where
  bays : ∀ b, SameContents (s.by b) (t.by b)

theorem BaysKept.refl (s : State) : BaysKept s s := ⟨fun _ => SameContents.refl _⟩

theorem BaysKept.trans {s t u : State} (h : BaysKept s t) (k : BaysKept t u) : BaysKept s u := ⟨fun b => (h.bays b).trans (k.bays b)⟩

theorem BaysKept.of_bay {s t : State} (h : t.bay = s.bay) : BaysKept s t := by
  refine ⟨fun b => ?_⟩
  rw [by_of_bay h]
  exact SameContents.refl _

theorem BaysKept.foldl {α : Type} {f : State → α → State} (h : ∀ s x, BaysKept s (f s x)) (l : List α) (s : State) :
    BaysKept s (l.foldl f s) := by
  induction l generalizing s with
  | nil => exact BaysKept.refl s
  | cons x l ih => exact (h s x).trans (ih _)

theorem modBay_baysKept (s : State) (b : Bay) {f : BayState → BayState} (h : ∀ x, SameContents x (f x)) : BaysKept s (s.modBay b f) := by
  refine ⟨fun d => ?_⟩
  rw [modBay_by_cases]
  split
  · next e => rw [e]; exact h _
  · exact SameContents.refl _

theorem modBays_baysKept (s : State) (l : List Bay) {f : Bay → BayState → BayState} (h : ∀ b x, SameContents x (f b x)) :
    BaysKept s (s.modBays l f) := BaysKept.foldl (fun s b => modBay_baysKept s b (h b)) l s

theorem ifThen_baysKept {b : Bool} {f : State → State} (h : ∀ s, BaysKept s (f s)) (s : State) : BaysKept s (State.ifThen b f s) := by
  cases b
  exacts [BaysKept.refl s, h s]

theorem Passed.baysKept {s t : State} (h : Passed s t) : BaysKept s t := by
  refine ⟨fun b => ?_⟩
  rw [h.bays b]
  exact ⟨rfl, rfl, rfl, rfl, rfl, rfl, rfl⟩

theorem Traced.baysKept {s t : State} (h : Traced s t) : BaysKept s t := h.passed.baysKept

/-! ### The whole block -/

/-- Work in the bays may have gone on and time passed: nothing differs but operations further on, flags and counts of contexts, bays, the
log, the damper, counters and the trace. -/
structure Lapsed (s t : State) : Prop where
  rest : t = { s with clk := t.clk, ctx := t.ctx, bay := t.bay, ops := t.ops, ras := t.ras, damp := t.damp, cnt := t.cnt, trace := t.trace }
  ctxs : ∀ c, SameTenant (s.cx c) (t.cx c)
  ops : ∃ g : Op → Op, t.ops = s.ops.map g ∧ ∀ o : Op, o.Ran (g o)

/-- The same, at one time. -/
structure Works (s t : State) : Prop extends Lapsed s t where
  clk : t.clk = s.clk

theorem ranOps_refl {l m : List Op} (h : m = l) : ∃ g : Op → Op, m = l.map g ∧ ∀ o : Op, o.Ran (g o) :=
  ⟨id, h.trans (List.map_id l).symm, Op.Ran.refl⟩

theorem Lapsed.refl (s : State) : Lapsed s s := ⟨rfl, fun _ => SameTenant.refl _, ranOps_refl rfl⟩

theorem Lapsed.trans {s t u : State} (h : Lapsed s t) (k : Lapsed t u) : Lapsed s u := by
  refine ⟨k.rest.trans (by rw [h.rest]), fun c => (h.ctxs c).trans (k.ctxs c), ?_⟩
  obtain ⟨f, hf, rf⟩ := h.ops
  obtain ⟨g, hg, rg⟩ := k.ops
  exact ⟨g ∘ f, by rw [hg, hf, List.map_map], fun o => (rf o).trans (rg _)⟩

theorem Works.refl (s : State) : Works s s := ⟨Lapsed.refl s, rfl⟩

theorem Works.trans {s t u : State} (h : Works s t) (k : Works t u) : Works s u := ⟨h.toLapsed.trans k.toLapsed, k.clk.trans h.clk⟩

theorem Works.foldl {α : Type} {f : State → α → State} (h : ∀ s x, Works s (f s x)) (l : List α) (s : State) : Works s (l.foldl f s) := by
  induction l generalizing s with
  | nil => exact Works.refl s
  | cons x l ih => exact (h s x).trans (ih _)

section
variable {s t : State} (h : Lapsed s t)
include h

theorem Lapsed.build : t.build = s.build := by rw [h.rest]
theorem Lapsed.prot : t.prot = s.prot := by rw [h.rest]
theorem Lapsed.pending : t.pending = s.pending := by rw [h.rest]
theorem Lapsed.staging : t.staging = s.staging := by rw [h.rest]
theorem Lapsed.lehr : t.lehr = s.lehr := by rw [h.rest]
theorem Lapsed.rstBusy (c : Ctx) : (t.cx c).rstBusy = (s.cx c).rstBusy := by rw [h.ctxs c]
theorem Lapsed.fault (c : Ctx) : (t.cx c).fault = (s.cx c).fault := by rw [h.ctxs c]

/-- What an operation reads is the same. -/
theorem Lapsed.opRead (o : Op) : opRead t o = opRead s o := by
  have hl : (t.cx o.ctx).lockWin = (s.cx o.ctx).lockWin := by rw [h.ctxs o.ctx]
  have hs : (t.cx o.ctx).sem = (s.cx o.ctx).sem := by rw [h.ctxs o.ctx]
  unfold Machine.opRead bufferedBytes
  rw [hl, hs, h.staging]

/-- An operation that was found is found further on. -/
theorem Lapsed.op? {c : Ctx} {q : BitVec 8} {o : Op} (ho : s.op? c q = some o) : ∃ p, t.op? c q = some p ∧ o.Ran p := by
  obtain ⟨g, hg, hr⟩ := h.ops
  have e : ((·.is c q) ∘ g) = fun o : Op => o.is c q := funext fun o => (hr o).is c q
  refine ⟨g o, ?_, hr o⟩
  rw [State.op?, hg, List.find?_map, e, show s.ops.find? (fun o => o.is c q) = some o from ho]
  rfl

/-- An operation in flight is still in flight. -/
theorem Lapsed.mem {o : Op} (ho : o ∈ s.ops) : ∃ p ∈ t.ops, o.Ran p := by
  obtain ⟨g, hg, hr⟩ := h.ops
  exact ⟨g o, hg ▸ List.mem_map_of_mem ho, hr o⟩

end

theorem Works.timebase {s t : State} (h : Works s t) : timebase t = timebase s := by
  have hf : t.fastOn = s.fastOn := by rw [h.rest]
  have hg : t.g = s.g := by rw [h.rest]
  have hr : t.restart = s.restart := by rw [h.rest]
  have hi : t.holdI = s.holdI := by rw [h.rest]
  have hu : t.holdU = s.holdU := by rw [h.rest]
  simp only [Machine.timebase, timebaseSub, fcLen, h.clk, hf, hg, hr, hi, hu]

theorem Passed.lapsed {s t : State} (h : Passed s t) : Lapsed s t := by
  have hc : t.ctx = s.ctx := by rw [h.rest]
  exact ⟨by rw [h.rest], fun c => by rw [cx_of_ctx hc]; exact SameTenant.refl _, ranOps_refl (by rw [h.rest])⟩

theorem Traced.works {s t : State} (h : Traced s t) : Works s t := ⟨h.passed.lapsed, by rw [h.rest]⟩

theorem ifThen_works {b : Bool} {f : State → State} (h : ∀ s, Works s (f s)) (s : State) : Works s (State.ifThen b f s) := by
  cases b
  exacts [Works.refl s, h s]

theorem modBay_works (s : State) (b : Bay) (f : BayState → BayState) : Works s (s.modBay b f) :=
  ⟨⟨rfl, fun _ => SameTenant.refl _, ranOps_refl rfl⟩, rfl⟩

theorem modCtx_works (s : State) (c : Ctx) {f : CtxState → CtxState} (h : ∀ x, SameTenant x (f x)) : Works s (s.modCtx c f) := by
  refine ⟨⟨rfl, fun d => ?_, ranOps_refl rfl⟩, rfl⟩
  rw [modCtx_cx_cases]
  split
  · next e => rw [e]; exact h _
  · exact SameTenant.refl _

/-- A change of some operations that are only further on. -/
theorem mapOps_works (s : State) (p : Op → Bool) {f : Op → Op} (h : ∀ o : Op, o.Ran (f o)) :
    Works s { s with ops := s.ops.map fun o => if p o then f o else o } := by
  refine ⟨⟨rfl, fun _ => SameTenant.refl _, _, rfl, fun o => ?_⟩, rfl⟩
  split
  exacts [h o, Op.Ran.refl o]

theorem modOp_works (s : State) (c : Ctx) (q : BitVec 8) {f : Op → Op} (h : ∀ o : Op, o.Ran (f o)) : Works s (s.modOp c q f) :=
  mapOps_works s _ h

theorem modOf_works (s : State) (o : Op) {f : Op → Op} (h : ∀ o : Op, o.Ran (f o)) : Works s (s.modOf o f) := mapOps_works s _ h

theorem report_works (code : Nat) (cls : BitVec 3) (ctx typ id : Nat) (s : State) : Works s (report code cls ctx typ id s) := by
  rw [report_ras_only]
  exact ⟨⟨rfl, fun _ => SameTenant.refl _, ranOps_refl rfl⟩, rfl⟩

theorem report_baysKept (code : Nat) (cls : BitVec 3) (ctx typ id : Nat) (s : State) : BaysKept s (report code cls ctx typ id s) := by
  rw [report_ras_only]
  exact .of_bay rfl

theorem raiseFlags_works (c : Ctx) (b : Bay) (f : Flags) (s : State) : Works s (raiseFlags c b f s) := modCtx_works _ _ fun _ => rfl

theorem raiseFlags_baysKept (c : Ctx) (b : Bay) (f : Flags) (s : State) : BaysKept s (raiseFlags c b f s) := .of_bay rfl

theorem addDrops_works (c : Ctx) (d : Drops) (s : State) : Works s (addDrops c d s) := modCtx_works _ _ fun _ => rfl

theorem countFail_works (b : Bay) (lane : Bool) (col : Nat) (s : State) : Works s (countFail b lane col s) := by
  unfold countFail
  dsimp only
  split
  exacts [modBay_works .., (modBay_works ..).trans (modBay_works ..)]

theorem countFail_baysKept (b : Bay) (lane : Bool) (col : Nat) (s : State) : BaysKept s (countFail b lane col s) := by
  have h : ∀ (s : State) (fs : List FailCount), BaysKept s (s.modBay b fun x => { x with fails := fs }) := fun s fs =>
    modBay_baysKept s b (f := fun x => { x with fails := fs }) fun _ => ⟨rfl, rfl, rfl, rfl, rfl, rfl, rfl⟩
  unfold countFail
  dsimp only
  split
  · exact h ..
  · refine (h ..).trans (modBay_baysKept _ b ?_)
    exact fun _ => ⟨rfl, rfl, rfl, rfl, rfl, rfl, rfl⟩

theorem noteErr_works (c : Ctx) (b : Bay) (e : SlotErr) (s : State) : Works s (noteErr c b e s) := by
  cases e with
  | corrupt => exact Works.refl s
  | residue | parityCol | parityLane => exact (report_works ..).trans (countFail_works ..)

theorem noteErr_baysKept (c : Ctx) (b : Bay) (e : SlotErr) (s : State) : BaysKept s (noteErr c b e s) := by
  cases e with
  | corrupt => exact BaysKept.refl s
  | residue | parityCol | parityLane => exact (report_baysKept ..).trans (countFail_baysKept ..)

theorem noteLag_works (o : Op) (s : State) : Works s (noteLag o s) := by
  unfold noteLag
  split
  · exact Works.refl s
  · refine modCtx_works _ _ fun x => ?_
    split <;> rfl

theorem noteLag_baysKept (o : Op) (s : State) : BaysKept s (noteLag o s) := by
  unfold noteLag
  split
  exacts [BaysKept.refl s, .of_bay rfl]

/-! ### The time an operation takes -/

theorem addLag_works (o : Op) (b : Bay) (k : Nat) (s : State) : Works s (addLag o b k s) := by
  unfold addLag
  split
  · exact Works.refl s
  · refine Works.trans ?_ (modOf_works _ _ fun _ => rfl)
    split
    exacts [Works.refl s, modBay_works ..]

theorem addLag_baysKept (o : Op) (b : Bay) (k : Nat) (s : State) : BaysKept s (addLag o b k s) := by
  unfold addLag
  split
  · exact BaysKept.refl s
  · split
    · exact .of_bay rfl
    · refine (modBay_baysKept s b (f := fun x => { x with lag := satAdd x.lag k }) ?_).trans (.of_bay rfl)
      exact fun _ => ⟨rfl, rfl, rfl, rfl, rfl, rfl, rfl⟩

theorem delayLag_works (o : Op) (d : Delay) (s : State) : Works s (delayLag o d s) := by
  unfold delayLag
  split
  exacts [Works.refl s, Works.foldl (fun s b => addLag_works o b _ s) _ s]

theorem delayLag_baysKept (o : Op) (d : Delay) (s : State) : BaysKept s (delayLag o d s) := by
  unfold delayLag
  split
  exacts [BaysKept.refl s, BaysKept.foldl (fun s b => addLag_baysKept o b _ s) _ s]

/-- An operation's fc pass under a stall reason from now on. -/
def underReason (n : Nat) (o : Op) (s : State) : State := s.modOf o fun o => { o with why := n }

theorem underReason_works (n : Nat) (o : Op) (s : State) : Works s (underReason n o s) := modOf_works s o fun _ => rfl

/-- One segment of a phase passes. -/
def passSeg (o : Op) (x : State × Nat) (g : Nat × Nat) : State × Nat :=
  if g.2 == 0 then x else (at' (phaseEnd (underReason g.1 o x.1) o (x.2 + g.2)) (underReason g.1 o x.1), x.2 + g.2)

theorem runSegs_eq (o : Op) (segs : List (Nat × Nat)) (s : State) :
    runSegs o segs s = underReason 0 o (segs.foldl (passSeg o) (s, 0)).1 := rfl

theorem passSeg_lapsed (o : Op) (x : State × Nat) (g : Nat × Nat) : Lapsed x.1 (passSeg o x g).1 := by
  unfold passSeg
  split
  exacts [Lapsed.refl _, (underReason_works ..).toLapsed.trans (at'_passed ..).lapsed]

theorem passSeg_baysKept (o : Op) (x : State × Nat) (g : Nat × Nat) : BaysKept x.1 (passSeg o x g).1 := by
  unfold passSeg
  split
  exacts [BaysKept.refl _, (BaysKept.of_bay (s := x.1) (t := underReason g.1 o x.1) rfl).trans (at'_passed ..).baysKept]

theorem runSegs_lapsed (o : Op) (segs : List (Nat × Nat)) (s : State) : Lapsed s (runSegs o segs s) := by
  have h : ∀ (l : List (Nat × Nat)) (x : State × Nat), Lapsed x.1 (l.foldl (passSeg o) x).1 := fun l => by
    induction l with
    | nil => exact fun x => Lapsed.refl _
    | cons g l ih => exact fun x => (passSeg_lapsed o x g).trans (ih _)
  exact (h segs (s, 0)).trans (underReason_works 0 o _).toLapsed

theorem runSegs_baysKept (o : Op) (segs : List (Nat × Nat)) (s : State) : BaysKept s (runSegs o segs s) := by
  have h : ∀ (l : List (Nat × Nat)) (x : State × Nat), BaysKept x.1 (l.foldl (passSeg o) x).1 := fun l => by
    induction l with
    | nil => exact fun x => BaysKept.refl _
    | cons g l ih => exact fun x => (passSeg_baysKept o x g).trans (ih _)
  exact (h segs (s, 0)).trans (.of_bay rfl)

theorem passSeg_zero (o : Op) (x : State × Nat) (w : Nat) : passSeg o x (w, 0) = x := if_pos rfl

theorem passSeg_pos {k : Nat} (h : k ≠ 0) (o : Op) (x : State × Nat) (w : Nat) :
    passSeg o x (w, k) = (at' (phaseEnd (underReason w o x.1) o (x.2 + k)) (underReason w o x.1), x.2 + k) := if_neg (by simpa using h)

theorem underReason_clk (n : Nat) (o : Op) (s : State) : (underReason n o s).clk = s.clk := rfl

theorem underReason_phaseEnd (n : Nat) (o p : Op) (s : State) (k : Nat) : phaseEnd (underReason n o s) p k = phaseEnd s p k := rfl

theorem delaySegs_default : delaySegs {} = [(2, 0), (3, 0), (5, 0)] := rfl

/-- A phase of one segment ends at its due time. -/
theorem runSegs_clk {k : Nat} (h : k ≠ 0) (w : Nat) (o : Op) (s : State) :
    (runSegs o ((w, k) :: delaySegs {}) s).clk = max s.clk (phaseEnd s o k) := by
  simp only [runSegs_eq, delaySegs_default, List.foldl_cons, List.foldl_nil, passSeg_zero, passSeg_pos h, underReason_clk, at'_clk,
    underReason_phaseEnd, Nat.zero_add]

/-- The block when an operation's phase is over, with what delayed it. -/
theorem phase_lapsed (o : Op) (d : Delay) (segs : List (Nat × Nat)) (s : State) : Lapsed s (delayLag o d (runSegs o segs s)) :=
  (runSegs_lapsed o segs s).trans (delayLag_works ..).toLapsed

theorem phase_baysKept (o : Op) (d : Delay) (segs : List (Nat × Nat)) (s : State) : BaysKept s (delayLag o d (runSegs o segs s)) :=
  (runSegs_baysKept o segs s).trans (delayLag_baysKept ..)

end Sys2Proof.Machine
end

section
/-! SUPPORT. The end of an operation without a fault: what it leaves, and what it leaves alone. -/

namespace Sys2Proof.Machine

open Sys2Proof Sys2Proof.Claims

theorem Lapsed.sameSetup {s t : State} (h : Lapsed s t) : SameSetup s t := ⟨h.prot, h.build, h.pending⟩

/-! ### Bays -/

theorem countOp_baysKept (o : Op) (s : State) : BaysKept s (countOp o s) := by
  unfold countOp
  split
  · exact BaysKept.refl s
  · refine BaysKept.trans ?_ (modBays_baysKept _ _ ?_)
    · exact .of_bay rfl
    · exact fun _ _ => ⟨rfl, rfl, rfl, rfl, rfl, rfl, rfl⟩

theorem ctxFault_baysKept (c : Ctx) (code : Nat) (q : QSel) (idx aux : Nat) (s : State) : BaysKept s (ctxFault c code q idx aux s) :=
  ((BaysKept.of_bay (s := s) (t := s.modCtx c _) rfl).trans (emit_traced ..).baysKept).trans (.of_bay rfl)

theorem deliver_baysKept (c : Ctx) (r : Rec) (s : State) : BaysKept s (deliver c r s) := .of_bay rfl

theorem memberFault_baysKept (c : Ctx) (s : State) : BaysKept s (memberFault c s) := ifThen_baysKept (f := dropWindow c) (fun _ => .of_bay rfl) s

theorem complete_baysKept (o : Op) (s : State) : BaysKept s (complete o s) := by
  unfold complete
  split
  · exact .of_bay rfl
  · refine BaysKept.trans ?_ (ifThen_baysKept (deliver_baysKept _ _) _)
    refine BaysKept.trans ?_ (emitOp_traced _ _ _ _ _).baysKept
    refine BaysKept.trans ?_ (ifThen_baysKept (memberFault_baysKept _) _)
    refine BaysKept.trans ?_ (ifThen_baysKept (ctxFault_baysKept _ _ _ _ _) _)
    refine BaysKept.trans ?_ (endStall_traced _ _).baysKept
    exact (BaysKept.of_bay (s := s) (t := forget o.ctx o.seq (s.dropOp o.ctx o.seq)) rfl).trans (countOp_baysKept ..)

/-- The units of an operation free, in one bay. -/
def freeUnits (o : Op) (s : State) (x : BayState) : BayState :=
  let mine (y : Option (Ctx × BitVec 8)) : Bool := y == some (o.ctx, o.seq)
  { x with
    truss := if mine x.truss then none else x.truss
    trussOn := x.trussOn && !mine x.truss
    drain := if mine x.drain then none else x.drain
    drainOn := x.drainOn && !mine x.drain
    idleAt := if mine x.truss || mine x.drain then s.clk else x.idleAt
    backRan := if mine x.truss then s.damp.ran else x.backRan }

theorem freeUnits_contents (o : Op) (s : State) (x : BayState) : SameContents x (freeUnits o s x) := ⟨rfl, rfl, rfl, rfl, rfl, rfl, rfl⟩

/-- The job of the lehr that ends with an operation. -/
def endingJob (o : Op) (s : State) : Option LehrJob := s.lehr.filter fun j => j.ctx == o.ctx && j.seq == o.seq

/-- A product's bank goes with the job. -/
def freeBank (j : LehrJob) (k : Bank) : Bank :=
  if k.ctx == j.ctx && decide (j.chain ≤ k.chain) && decide (k.chain < j.chain + 16) then k.free else k

theorem freeBank_free (j : LehrJob) {k : Bank} (h : k.st = .free) : (freeBank j k).st = .free := by
  unfold freeBank
  split
  exacts [rfl, h]

/-- The units of an operation free, before the products of its job. -/
def unitsFree (o : Op) (s : State) : State :=
  { s with
    bay := s.bay.map (freeUnits o s)
    svu := if s.svu == some (o.ctx, o.seq) then none else s.svu
    topk := if s.topk == some (o.ctx, o.seq) then none else s.topk
    lehr := s.lehr.filter fun j => !(j.ctx == o.ctx && j.seq == o.seq) }

theorem unitsFree_by (o : Op) (s : State) (b : Bay) : (unitsFree o s).by b = freeUnits o s (s.by b) := by_map ..

theorem releaseUnits_eq (o : Op) (s : State) : releaseUnits o s = freeProducts (endingJob o s) (unitsFree o s) := rfl

theorem releaseUnits_by (o : Op) (s : State) (b : Bay) : (releaseUnits o s).by b =
    match endingJob o s with
    | some j => (freeUnits o s (s.by b)).modBanks (freeBank j)
    | none => freeUnits o s (s.by b) := by
  rw [releaseUnits_eq]
  cases endingJob o s with
  | none => exact unitsFree_by o s b
  | some j => exact (by_map (unitsFree o s) (fun y => y.modBanks (freeBank j)) b).trans (by rw [unitsFree_by])

/-- An operation that runs for no job of the lehr leaves the contents of the bays alone. -/
theorem releaseUnits_baysKept {o : Op} {s : State} (h : Alone s o) : BaysKept s (releaseUnits o s) := by
  have hj : endingJob o s = none := by
    refine Option.filter_eq_none_iff.2 fun j hj => ?_
    simpa using h j hj
  refine ⟨fun b => ?_⟩
  rw [releaseUnits_by, hj]
  exact freeUnits_contents ..

/-- A FREE bank stays FREE when an operation ends. -/
theorem releaseUnits_bank_free (o : Op) {s : State} {b : Bay} {w : Bool} (h : ((s.by b).bank w).st = .free) :
    (((releaseUnits o s).by b).bank w).st = .free := by
  rw [releaseUnits_by]
  split
  · cases w
    exacts [freeBank_free _ h, freeBank_free _ h]
  · exact h

theorem releaseUnits_port (o : Op) (s : State) (b : Bay) : ((releaseUnits o s).by b).port = (s.by b).port := by
  rw [releaseUnits_by]
  split <;> rfl

theorem releaseUnits_joints (o : Op) (s : State) (b : Bay) : ((releaseUnits o s).by b).tag = (s.by b).tag ∧
    ((releaseUnits o s).by b).face = (s.by b).face ∧ ((releaseUnits o s).by b).recs = (s.by b).recs := by
  rw [releaseUnits_by]
  split <;> exact ⟨rfl, rfl, rfl⟩

/-! ### The operation, its record, and the rest -/

theorem release_starts (o : Op) (s : State) : Starts s (release o s) :=
  .of_keeps ((releaseUnits_still ..).trans (complete_still ..)) (release_keeps ..)

/-- The block when an operation without a fault has left it, its record not delivered yet. -/
def retire (o : Op) (s : State) : State :=
  emitOp 0x04 o.engine (o.status + 256 * o.opFlags.toNat + 4096 * o.nrep.toNat) o (endStall o (countOp o (forget o.ctx o.seq (s.dropOp o.ctx o.seq))))

theorem complete_clear {o : Op} {s : State} (hr : (s.cx o.ctx).rstBusy = false) (h0 : o.status = 0) :
    complete o s = State.ifThen (o.cmp || o.opc == 0x0B) (deliver o.ctx (o.toRec (timebase (retire o s)))) (retire o s) := by
  unfold complete retire
  rw [hr, h0]
  simp [State.ifThen]

theorem retire_ops (o : Op) (s : State) : (retire o s).ops = s.ops.filter fun p => !p.under o.ctx o.seq := by
  unfold retire
  rw [emitOp_ops, endStall_ops, countOp_ops]
  rfl

theorem ifThen_deliver_ops (b : Bool) (c : Ctx) (r : Rec) (s : State) : (State.ifThen b (deliver c r) s).ops = s.ops :=
  ifThen_eq State.ops (f := deliver c r) (fun _ => rfl) s

/-- An operation `p` that stands for `o` ends without a fault. -/
theorem release_endsWith {r s : State} {o p : Op} (hc : p.ctx = o.ctx) (hq : p.seq = o.seq) (hk : p.opc = o.opc) (hw : p.word = o.word)
    (h0 : p.status = 0) (hr : (s.cx o.ctx).rstBusy = false) : EndsWith r o 0 (release p s) := by
  have hrst : ((releaseUnits p s).cx p.ctx).rstBusy = false := by rw [hc, cx_of_ctx (releaseUnits_ctx ..), hr]
  have hrun := complete_clear hrst h0
  refine ⟨fun x hx => ?_, fun h => ?_, fun h => absurd rfl h⟩
  · rw [release, hrun, ifThen_deliver_ops, retire_ops, List.mem_filter] at hx
    simpa [Op.under, hc, hq, Classical.or_iff_not_imp_left] using hx.2
  · have hcmp : p.cmp = true := by
      rw [Op.cmp, hw]
      exact h.resolve_right fun h => h rfl
    obtain ⟨u, hu⟩ := deliver_mem o.ctx (p.toRec (timebase (retire p (releaseUnits p s)))) (retire p (releaseUnits p s))
    have he : release p s = deliver o.ctx (p.toRec (timebase (retire p (releaseUnits p s)))) (retire p (releaseUnits p s)) := by
      rw [release, hrun, hcmp, hc]
      rfl
    exact ⟨{ p.toRec (timebase (retire p (releaseUnits p s))) with at_ := u }, he ▸ hu, hk, h0⟩

theorem release_baysKept {o : Op} {s : State} (h : Alone s o) : BaysKept s (release o s) :=
  (releaseUnits_baysKept h).trans (complete_baysKept ..)

theorem release_joints (o : Op) (s : State) (b : Bay) : ((release o s).by b).tag = (s.by b).tag ∧
    ((release o s).by b).face = (s.by b).face ∧ ((release o s).by b).recs = (s.by b).recs := by
  have h := (complete_baysKept o (releaseUnits o s)).bays b
  obtain ⟨ht, hf, hr⟩ := releaseUnits_joints o s b
  exact ⟨h.tag.trans ht, h.face.trans hf, h.recs.trans hr⟩

theorem release_rough (o : Op) (s : State) : ((release o s).cx o.ctx).rough = (s.cx o.ctx).rough := (release_calm o s).rough

/-- The time, the set-up and staging are the same. -/
structure SameTime (s t : State) : Prop where
  clk : t.clk = s.clk
  setup : SameSetup s t
  staging : t.staging = s.staging

theorem SameTime.trans {s t u : State} (h : SameTime s t) (k : SameTime t u) : SameTime s u :=
  ⟨k.clk.trans h.clk, SameSetup.trans h.setup k.setup, k.staging.trans h.staging⟩

theorem Works.sameTime {s t : State} (h : Works s t) : SameTime s t := ⟨h.clk, h.sameSetup, h.staging⟩

theorem Starts.sameTime {s t : State} (h : Starts s t) : SameTime s t := ⟨h.still.clk, h.setup, h.staging⟩

/-- What happens at one time after a phase leaves set-up and staging alone. -/
theorem SameTime.after {s u t : State} (h : Lapsed s u) (k : SameTime u t) : SameSetup s t ∧ t.staging = s.staging ∧ t.clk = u.clk :=
  ⟨SameSetup.trans h.sameSetup k.setup, k.staging.trans h.staging, k.clk⟩

theorem endTruss_sameTime (o : Op) (s : State) : SameTime s (endTruss o s) := (noteLag_works o s).sameTime.trans (release_starts ..).sameTime

/-- An operation `p` of class T that stands for `o` ends without a fault. -/
theorem endTruss_endsWith {r s : State} {o p : Op} (hc : p.ctx = o.ctx) (hq : p.seq = o.seq) (hk : p.opc = o.opc) (hw : p.word = o.word)
    (h0 : p.status = 0) (hr : (s.cx o.ctx).rstBusy = false) : EndsWith r o 0 (endTruss p s) :=
  release_endsWith hc hq hk hw h0 (((noteLag_works p s).rstBusy o.ctx).trans hr)

theorem endTruss_joints (o : Op) (s : State) (b : Bay) : ((endTruss o s).by b).tag = (s.by b).tag ∧
    ((endTruss o s).by b).face = (s.by b).face ∧ ((endTruss o s).by b).recs = (s.by b).recs := by
  have h := (noteLag_baysKept o s).bays b
  obtain ⟨ht, hf, hr⟩ := release_joints o (noteLag o s) b
  exact ⟨ht.trans h.tag, hf.trans h.face, hr.trans h.recs⟩

theorem endTruss_baysKept {o : Op} {s : State} (h : Alone s o) : BaysKept s (endTruss o s) :=
  (noteLag_baysKept o s).trans (release_baysKept fun j hj => h j ((noteLag_works o s).lehr.symm.trans hj))

theorem mem_of_op? {s : State} {c : Ctx} {q : BitVec 8} {o : Op} (h : s.op? c q = some o) : o ∈ s.ops := List.mem_of_find?_eq_some h

theorem opReady_granted {s : State} {o : Op} (h : opReady s o = true) : o.stage = .granted := by
  simp only [opReady, Bool.and_eq_true, beq_iff_eq] at h
  exact h.1.1.1.1.1.1

/-! ### Steps bay by bay -/

theorem maskBays_nodup (m : BitVec 4) : (maskBays m).Nodup := (List.nodup_finRange 4).filter _

section
variable {α : Type} {f : State → α → State} {key : α → Bay} (hf : ∀ s x d, d ≠ key x → (f s x).by d = s.by d)
include hf

theorem foldl_by_of_not_mem {b : Bay} {l : List α} (hb : b ∉ l.map key) (s : State) : (l.foldl f s).by b = s.by b := by
  induction l generalizing s with
  | nil => rfl
  | cons y l ih =>
    rw [List.map_cons, List.mem_cons, not_or] at hb
    exact (ih hb.2 _).trans (hf s y b hb.1)

/-- Where each step changes a bay of its own, a bay is changed by its own step alone, after some of the others. -/
theorem foldl_by_of_mem {x : α} {l : List α} (hl : (l.map key).Nodup) (hx : x ∈ l) (s : State) :
    ∃ l' : List α, (l'.foldl f s).by (key x) = s.by (key x) ∧ (l.foldl f s).by (key x) = (f (l'.foldl f s) x).by (key x) := by
  induction l generalizing s with
  | nil => cases hx
  | cons y l ih =>
    rw [List.map_cons, List.nodup_cons] at hl
    by_cases e : key x = key y
    · obtain rfl : x = y := by
        rcases List.mem_cons.1 hx with rfl | hm
        · rfl
        · exact absurd (e ▸ List.mem_map_of_mem hm) hl.1
      exact ⟨[], rfl, foldl_by_of_not_mem hf hl.1 _⟩
    · have hm := (List.mem_cons.1 hx).resolve_left fun h => e (h ▸ rfl)
      obtain ⟨l', h1, h2⟩ := ih hl.2 hm (f s y)
      exact ⟨y :: l', h1.trans (hf s y _ e), h2⟩

end

end Sys2Proof.Machine
end

section
/-! Settles the statement about the end of a RAISE. -/

namespace Sys2Proof.Machine

open Sys2Proof Sys2Proof.Claims

/-! ### Fault records -/

theorem recordFault_timebase (c : Ctx) (code : Nat) (cls : BitVec 3) (q : QSel) (idx aux : Nat) (s : State) :
    timebase (recordFault c code cls q idx aux s) = timebase s := (emit_traced _ (s.modCtx c _)).works.timebase

theorem recordFault_baysKept (c : Ctx) (code : Nat) (cls : BitVec 3) (q : QSel) (idx aux : Nat) (s : State) :
    BaysKept s (recordFault c code cls q idx aux s) :=
  (BaysKept.of_bay (s := s) (t := s.modCtx c _) rfl).trans (emit_traced ..).baysKept

theorem recordFault_ops (c : Ctx) (code : Nat) (cls : BitVec 3) (q : QSel) (idx aux : Nat) (s : State) :
    (recordFault c code cls q idx aux s).ops = s.ops := emit_ops ..

theorem recordFault_noted (c : Ctx) (code : Nat) (cls : BitVec 3) (q : QSel) (idx aux : Nat) (s : State) :
    FaultNoted s (recordFault c code cls q idx aux s) c code cls q idx aux := by
  unfold FaultNoted
  rw [recordFault_timebase]
  have h : ((recordFault c code cls q idx aux s).cx c).fault = _ :=
    congrArg CtxState.fault ((cx_of_ctx (emit_ctx _ _) c).trans (modCtx_cx s c _))
  rw [h]
  by_cases h0 : (s.cx c).fault.code = 0#8
  · simp [h0]
  · have e : ((s.cx c).fault.cls.toNat < 2) = ((s.cx c).fault.cls.toNat ≤ 1) := by simp
    by_cases hn : (s.cx c).fault.count = 0xFFFF#16 <;> simp [h0, hn, isFatal]

/-- A fault that has been noted stands in every state with the same record at the same time. -/
theorem faultNoted_of_eq {s s' t t' : State} {c : Ctx} {code : Nat} {cls : BitVec 3} {q : QSel} {idx aux : Nat}
    (h : FaultNoted s t c code cls q idx aux) (hs : (s.cx c).fault = (s'.cx c).fault) (ht : (t'.cx c).fault = (t.cx c).fault)
    (hb : timebase t' = timebase t) : FaultNoted s' t' c code cls q idx aux := by
  unfold FaultNoted at *
  rw [ht, hb, ← hs]
  exact h

/-! ### Faces -/

/-- The face that a record's part of the held operand gives (R27, R31). -/
def recordFace (s : State) (o : Op) (r : RaiseRec) : Face :=
  mkFace (heldCols (opRead s o) r (r.rank * faceCols r.face) (min (faceCols r.face) (r.n - r.rank * faceCols r.face))).1

/-- The joints of a bay with the face of a record. -/
def BayState.raised (y : BayState) (f : Face) (t : FaceTag) : BayState := { y with face := some f, tag := some t, redo := false }

theorem loadFace_eq (o : Op) (b : Bay) (c : Ctx) (r : RaiseRec) (fold : Bool) (s : State) : ∃ fl,
    loadFace o b c r fold s =
      State.ifThen (fctlXmode r.db.fctl == 2) (raiseFlags c b fl) (s.modBay b fun y => y.raised (recordFace s o r) ⟨c, r, fold⟩) := ⟨_, rfl⟩

theorem loadFace_works (o : Op) (b : Bay) (c : Ctx) (r : RaiseRec) (fold : Bool) (s : State) : Works s (loadFace o b c r fold s) := by
  obtain ⟨fl, h⟩ := loadFace_eq o b c r fold s
  rw [h]
  exact (modBay_works ..).trans (ifThen_works (raiseFlags_works _ _ _) _)

theorem loadFace_by (o : Op) (b : Bay) (c : Ctx) (r : RaiseRec) (fold : Bool) (s : State) (d : Bay) :
    (loadFace o b c r fold s).by d = if d = b then (s.by b).raised (recordFace s o r) ⟨c, r, fold⟩ else s.by d := by
  obtain ⟨fl, h⟩ := loadFace_eq o b c r fold s
  rw [h, by_of_bay (ifThen_eq State.bay (f := raiseFlags c b fl) (fun _ => rfl) _), modBay_by_cases]

theorem recordFace_congr {s t : State} (h : Lapsed s t) (o : Op) (r : RaiseRec) : recordFace t o r = recordFace s o r := by
  rw [recordFace, recordFace, h.opRead]

theorem zipIdx_fst_nodup (m : BitVec 4) : ((maskBays m).zipIdx.map Prod.fst).Nodup := by
  rw [List.zipIdx_map_fst]
  exact maskBays_nodup m

theorem loadFaces_works (o : Op) (r : RaiseRec) (fold : Bool) (s : State) : Works s (loadFaces o r fold s) :=
  Works.foldl (fun s (x : Bay × Nat) => loadFace_works o x.1 o.ctx { r with rank := x.2 } fold s) _ s

theorem loadFaces_by_of_mem (o : Op) (r : RaiseRec) (fold : Bool) (s : State) {x : Bay × Nat} (hx : x ∈ (maskBays o.gset).zipIdx) :
    (loadFaces o r fold s).by x.1 =
      (s.by x.1).raised (recordFace s o { r with rank := x.2 }) ⟨o.ctx, { r with rank := x.2 }, fold⟩ := by
  obtain ⟨l, h1, h2⟩ := foldl_by_of_mem (f := fun s (x : Bay × Nat) => loadFace o x.1 o.ctx { r with rank := x.2 } fold s) (key := Prod.fst)
    (fun s x d hd => by rw [loadFace_by, if_neg hd]) (zipIdx_fst_nodup o.gset) hx s
  have hw := Works.foldl (fun s (x : Bay × Nat) => loadFace_works o x.1 o.ctx { r with rank := x.2 } fold s) l s
  rw [loadFace_by, if_pos rfl, h1, recordFace_congr hw.toLapsed] at h2
  exact h2

theorem loadFaces_by_of_not_mem (o : Op) (r : RaiseRec) (fold : Bool) (s : State) {b : Bay} (hb : b ∉ maskBays o.gset) :
    (loadFaces o r fold s).by b = s.by b :=
  foldl_by_of_not_mem (key := Prod.fst) (fun s x d hd => by rw [loadFace_by, if_neg hd]) (by rwa [List.zipIdx_map_fst]) s

/-- Each bay of a RAISE keeps its record, with its own rank (R171). -/
def recordRaise (o : Op) (r : RaiseRec) (s : State) : State :=
  (maskBays o.gset).zipIdx.foldl (fun s x => s.modBay x.1 fun y =>
    { y with recs := y.recs.set o.ctx.1 (some { r with rank := x.2 }) o.ctx.2 }) s

theorem recordRaise_works (o : Op) (r : RaiseRec) (s : State) : Works s (recordRaise o r s) :=
  Works.foldl (fun _ _ => modBay_works ..) _ s

theorem recordRaise_by_of_mem (o : Op) (r : RaiseRec) (s : State) {x : Bay × Nat} (hx : x ∈ (maskBays o.gset).zipIdx) :
    (recordRaise o r s).by x.1 = { s.by x.1 with recs := (s.by x.1).recs.set o.ctx.1 (some { r with rank := x.2 }) o.ctx.2 } := by
  obtain ⟨l, h1, h2⟩ := foldl_by_of_mem (f := fun s (x : Bay × Nat) => s.modBay x.1 fun y =>
    { y with recs := y.recs.set o.ctx.1 (some { r with rank := x.2 }) o.ctx.2 }) (key := Prod.fst)
    (fun s x d hd => modBay_by_ne _ _ _ hd) (zipIdx_fst_nodup o.gset) hx s
  rw [modBay_by, h1] at h2
  exact h2

theorem recordRaise_by_of_not_mem (o : Op) (r : RaiseRec) (s : State) {b : Bay} (hb : b ∉ maskBays o.gset) :
    (recordRaise o r s).by b = s.by b :=
  foldl_by_of_not_mem (key := Prod.fst) (fun s x d hd => modBay_by_ne _ _ _ hd) (by rwa [List.zipIdx_map_fst]) s

/-! ### The end of a RAISE -/

/-- The flags of a RAISE's expansion. -/
def raiseExpansion (o : Op) (r : RaiseRec) (s : State) : Flags :=
  if fctlXmode r.db.fctl == 2 then (heldCols (opRead s o) r 0 r.n).2.1 else {}

/-- The drops of a CSR face are counted (R125). -/
def raiseDrops (o : Op) (r : RaiseRec) (s : State) : State :=
  if sform r.db == 1 then addDrops o.ctx (heldCols (opRead s o) r 0 0).2.2 s else s

theorem raiseDrops_works (o : Op) (r : RaiseRec) (s : State) : Works s (raiseDrops o r s) := by
  unfold raiseDrops
  split
  exacts [addDrops_works .., Works.refl s]

theorem raiseDrops_by (o : Op) (r : RaiseRec) (s : State) (b : Bay) : (raiseDrops o r s).by b = s.by b := by
  unfold raiseDrops
  split <;> rfl

/-- The joints and records of a RAISE's bays are written. -/
def raised (o : Op) (r : RaiseRec) (s : State) : State := recordRaise o r (loadFaces o r false s)

theorem raised_works (o : Op) (r : RaiseRec) (s : State) : Works s (raised o r s) := (loadFaces_works ..).trans (recordRaise_works ..)

theorem endRaise_eq {o : Op} (hw : o.watch = []) (r : RaiseRec) (s : State) : endRaise o r s =
    endTruss { o with opFlags := raiseExpansion o r (raised o r s) } (raiseDrops o r (raised o r s)) := by
  unfold endRaise fireWatch
  rw [hw]
  rfl

theorem endRaise_sameTime {o : Op} (hw : o.watch = []) (r : RaiseRec) (s : State) : SameTime s (endRaise o r s) := by
  rw [endRaise_eq hw]
  exact ((raised_works o r s).trans (raiseDrops_works ..)).sameTime.trans (endTruss_sameTime ..)

theorem endRaise_by_of_mem {o : Op} (hw : o.watch = []) (r : RaiseRec) (s : State) {x : Bay × Nat} (hx : x ∈ (maskBays o.gset).zipIdx) :
    ((endRaise o r s).by x.1).tag = some ⟨o.ctx, { r with rank := x.2 }, false⟩ ∧
      ((endRaise o r s).by x.1).recs.get o.ctx = some { r with rank := x.2 } ∧
      ((endRaise o r s).by x.1).face = some (recordFace s o { r with rank := x.2 }) := by
  obtain ⟨ht, hf, hr⟩ := endTruss_joints { o with opFlags := raiseExpansion o r (raised o r s) } (raiseDrops o r (raised o r s)) x.1
  rw [endRaise_eq hw, ht, hf, hr, raiseDrops_by, raised, recordRaise_by_of_mem o r _ hx, loadFaces_by_of_mem o r false s hx, get_set,
    if_pos rfl]
  exact ⟨rfl, rfl, rfl⟩

theorem endRaise_by_of_not_mem {o : Op} (hw : o.watch = []) (r : RaiseRec) (s : State) {b : Bay} (hb : b ∉ maskBays o.gset) :
    ((endRaise o r s).by b).tag = (s.by b).tag ∧ ((endRaise o r s).by b).face = (s.by b).face ∧
      ((endRaise o r s).by b).recs = (s.by b).recs := by
  have h := endTruss_joints { o with opFlags := raiseExpansion o r (raised o r s) } (raiseDrops o r (raised o r s)) b
  rw [← endRaise_eq hw, raiseDrops_by, raised, recordRaise_by_of_not_mem o r _ hb, loadFaces_by_of_not_mem o r false s hb] at h
  exact h

theorem endRaise_endsWith {u s : State} {o : Op} (hw : o.watch = []) (h0 : o.status = 0) (hr : (s.cx o.ctx).rstBusy = false) (r : RaiseRec) :
    EndsWith u o 0 (endRaise o r s) := by
  rw [endRaise_eq hw]
  refine endTruss_endsWith rfl rfl rfl rfl h0 ?_
  exact (((raised_works o r s).trans (raiseDrops_works ..)).rstBusy o.ctx).trans hr

/-! ### A RAISE that is written again -/

/-- Parity errors are counted against their columns. -/
def noteParity (c : Ctx) (parity : List (Bay × Nat)) (s : State) : State :=
  parity.foldl (fun s x => noteErr c x.1 (.parityCol x.2) s) s

theorem noteParity_works (c : Ctx) (parity : List (Bay × Nat)) (s : State) : Works s (noteParity c parity s) :=
  Works.foldl (fun s (x : Bay × Nat) => noteErr_works c x.1 (.parityCol x.2) s) parity s

theorem noteParity_baysKept (c : Ctx) (parity : List (Bay × Nat)) (s : State) : BaysKept s (noteParity c parity s) :=
  BaysKept.foldl (fun s (x : Bay × Nat) => noteErr_baysKept c x.1 (.parityCol x.2) s) parity s

/-- A raise that runs again from `t` on, under stall reason 10, for `dt` longer. -/
def Op.again (t dt : Nat) (o : Op) : Op := { o with why := 10, tFirst := t, ran := 0, tDue := o.tDue + dt }

/-- The fault record of a raise with parity errors is written. -/
def parityNoted (o : Op) (parity : List (Bay × Nat)) (s : State) : State :=
  recordFault o.ctx 0x33 1 o.q o.qidx 0 (noteParity o.ctx parity s)

theorem parityNoted_sameTime (o : Op) (parity : List (Bay × Nat)) (s : State) : SameTime s (parityNoted o parity s) :=
  (noteParity_works ..).sameTime.trans (Starts.of_keeps (recordFault_still ..) (recordFault_keeps ..)).sameTime

theorem raiseAgain_sameTime (o : Op) (parity : List (Bay × Nat)) (s : State) : SameTime s (raiseAgain o parity s) := by
  have h := parityNoted_sameTime o parity s
  exact ⟨h.clk, ⟨h.setup.prot, h.setup.build, h.setup.pending⟩, h.staging⟩

theorem raiseAgain_baysKept (o : Op) (parity : List (Bay × Nat)) (s : State) : BaysKept s (raiseAgain o parity s) :=
  ((noteParity_baysKept ..).trans (recordFault_baysKept ..)).trans (.of_bay rfl)

theorem raiseAgain_noted (o : Op) (parity : List (Bay × Nat)) (s : State) :
    FaultNoted s (raiseAgain o parity s) o.ctx 0x33 1 o.q o.qidx 0 :=
  faultNoted_of_eq (recordFault_noted o.ctx 0x33 1 o.q o.qidx 0 (noteParity o.ctx parity s)) ((noteParity_works ..).fault _) rfl rfl

theorem raiseAgain_mem {o p : Op} (parity : List (Bay × Nat)) {s : State} (hp : p ∈ s.ops) (hi : p.is o.ctx o.seq = true) :
    ∃ x ∈ (raiseAgain o parity s).ops, ∃ p', p.Ran p' ∧ x = p'.again (raiseAgain o parity s).clk (fcTime (parityNoted o parity s) 514) := by
  obtain ⟨p', hm, hr⟩ := (noteParity_works o.ctx parity s).mem hp
  have hm' : p' ∈ (parityNoted o parity s).ops := (recordFault_ops ..).symm ▸ hm
  exact ⟨_, List.mem_map.2 ⟨p', hm', if_pos ((hr.is ..).trans hi)⟩, p', hr, rfl⟩

end Sys2Proof.Machine

namespace Sys2Proof.Claims

open Sys2Proof Sys2Proof.Machine

/-- The block when the last raise slot of a RAISE is written. -/
def raiseOver (o : Op) (d : Delay) (s : State) : State := delayLag o d (runSegs o ((o.why, raiseTime s o) :: delaySegs d) s)

theorem raise_runs {c : Ctx} {q : BitVec 8} {s : State} {o : Op} {r : RaiseRec} {parity : List (Bay × Nat)} {d : Delay}
    (ho : s.op? c q = some o) (hready : opReady s o = true) (hopc : o.opc = 0x01) (hrr : o.rr = some r) (hre : o.reraise = 0)
    (hwf : (Instr.raiseDone c q ⟨parity, d⟩).wellFormed = true)
    (hpoison : poisonedIn (raiseOver o d s) ((raiseWork (raiseOver o d s) o).flatMap (·.2.2.2)) = none) :
    exec (.raiseDone c q ⟨parity, d⟩) s =
      .next (if parity = [] then endRaise o r (raiseOver o d s) else raiseAgain o parity (raiseOver o d s)) := by
  have hraising : raising o = true := by simp [raising, hopc]
  have hend : ∀ u, endRaising o u = endRaise o r u := fun u => by simp [endRaising, hre, hopc, hrr]
  show execRaiseDone c q ⟨parity, d⟩ s = _
  rw [raiseOver] at *
  simp only [execRaiseDone, ho, hready, hraising, hwf, hpoison, hend, Bool.and_self, if_true, List.isEmpty_iff]
  split <;> rfl

theorem raiseTime_ne_zero (s : State) (o : Op) : raiseTime s o ≠ 0 := by
  have h : ∀ (l : List Nat) (n : Nat), n ≤ l.foldl max n := fun l => by
    induction l with
    | nil => exact fun n => Nat.le_refl n
    | cons x l ih => exact fun n => (Nat.le_max_left n x).trans (ih _)
  have := h ((raiseWork s o).map fun x => 2 + max (512 + csrExtra (opRead s o) x.2.2.1) (portFc 1 (o.lat / fcLen s) (winBytes x.2.2.2))) 514
  unfold raiseTime
  omega

theorem delayLag_default (o : Op) (s : State) : delayLag o {} s = s := by
  unfold delayLag
  split
  · rfl
  · exact foldl_eq id (fun _ _ => rfl) (maskBays o.gset) s

/-- Settles O29: a raise without parity errors ends with `endRaise`, one with them runs again. -/
theorem raiseCompletesOrIsWrittenAgain : Obligations.RaiseCompletesOrIsWrittenAgain := by
  rintro c q s u o r parity d ho hready hopc hrr hre hwatch ⟨hst, -, -, hrst⟩ hwf rfl hpoison
  obtain ⟨rfl, rfl, hside⟩ := op?_is ho
  have hlapse : Lapsed s (raiseOver o d s) := phase_lapsed ..
  have hkept : BaysKept s (raiseOver o d s) := phase_baysKept ..
  have hclk : d = {} → (raiseOver o d s).clk = max s.clk (phaseEnd s o (raiseTime s o)) := by
    rintro rfl
    rw [raiseOver, delayLag_default, runSegs_clk (raiseTime_ne_zero s o)]
  refine ⟨_, raise_runs ho hready hopc hrr hre hwf hpoison, ?_⟩
  by_cases hpar : parity = []
  · rw [if_pos hpar]
    obtain ⟨hset, hstag, ht⟩ := (endRaise_sameTime hwatch r (raiseOver o d s)).after hlapse
    refine ⟨hset, hstag, ht, fun hd => ht.trans (hclk hd), fun _ => ⟨?_, fun x hx => ?_, fun b hb => ?_⟩, fun h => absurd hpar h⟩
    · exact endRaise_endsWith hwatch hst ((hlapse.rstBusy o.ctx).trans hrst) r
    · have h := endRaise_by_of_mem hwatch r (raiseOver o d s) hx
      rw [recordFace_congr hlapse] at h
      exact h
    · have h := hkept.bays b
      obtain ⟨h1, h2, h3⟩ := endRaise_by_of_not_mem hwatch r (raiseOver o d s) hb
      exact ⟨h1.trans h.tag, h2.trans h.face, h3.trans h.recs⟩
  · rw [if_neg hpar]
    obtain ⟨hset, hstag, ht⟩ := (raiseAgain_sameTime o parity (raiseOver o d s)).after hlapse
    refine ⟨hset, hstag, ht, fun hd => ht.trans (hclk hd), fun h => absurd h hpar, fun _ => ⟨?_, fun b => ?_, ?_⟩⟩
    · exact faultNoted_of_eq (raiseAgain_noted o parity (raiseOver o d s)) (hlapse.fault o.ctx) rfl rfl
    · have h := (hkept.trans (raiseAgain_baysKept o parity _)).bays b
      exact ⟨h.tag, h.face, h.recs⟩
    · obtain ⟨p, hp, hran⟩ := hlapse.mem (mem_of_op? ho)
      have hi : p.is o.ctx o.seq = true := (hran.is ..).trans (by simp [Op.is, Op.under, hside])
      obtain ⟨_, hx, p', hran', rfl⟩ := raiseAgain_mem parity hp hi
      have hr := hran.trans hran'
      exact ⟨_, hx, hr.ctx, hr.seq, hr.stage.trans (opReady_granted hready), rfl, rfl, rfl⟩

end Sys2Proof.Claims
end

section
/-! SUPPORT. Passes, seeds and tiles of the Truss: what their work leaves alone, and what the last write of a pass does to the banks. -/

namespace Sys2Proof.Machine

open Sys2Proof Sys2Proof.Claims

/-! ### One operation among those in flight -/

/-- An operation that changes where it stands is found as it is then. -/
theorem modOp_op? {s : State} {c : Ctx} {q : BitVec 8} {o : Op} {f : Op → Op} (hf : ∀ p : Op, (f p).is c q = p.is c q)
    (ho : s.op? c q = some o) : (s.modOp c q f).op? c q = some (f o) := by
  have e : ((·.is c q) ∘ fun p : Op => if p.is c q then f p else p) = fun p : Op => p.is c q := funext fun p => by
    by_cases hp : p.is c q = true
    · simpa [hp] using (hf p).trans hp
    · simp [hp]
  have ho' : s.ops.find? (fun p => p.is c q) = some o := ho
  have hi : o.is c q = true := by simpa using List.find?_some ho'
  rw [State.op?, State.modOp, List.find?_map, e, ho', Option.map_some, if_pos hi]

theorem modOf_eq_modOp {o : Op} (h : o.side = false) (f : Op → Op) (s : State) : s.modOf o f = s.modOp o.ctx o.seq f := by
  simp [State.modOf, State.modOp, Op.is, h]

theorem opOf_eq_op? {o : Op} (h : o.side = false) (s : State) : s.opOf o = s.op? o.ctx o.seq := by
  simp [State.opOf, State.op?, Op.is, h]

/-- An operation of the class that a command is for is the one dispatched. -/
theorem opIn_of_class {s : State} {cls : OpClass} {c : Ctx} {q : BitVec 8} {o : Op} (ho : s.op? c q = some o)
    (hc : opClass o.opc = some cls) : s.opIn cls c q = some o := by
  simp [State.opIn, ho, hc]

/-! ### Poison, seeds and passes -/

theorem cleanBank_works (b : Bay) (w : Bool) (lo hi : Nat) (s : State) : Works s (cleanBank b w lo hi s) :=
  ⟨⟨rfl, fun _ => SameTenant.refl _, ranOps_refl rfl⟩, rfl⟩

theorem runPass_works (o : Op) (slots : Bay → List Nat) (e : Nat) (faults : List SlotFault) (keep : Bool) (s : State) :
    Works s (runPass o slots e faults keep s) := by
  unfold runPass
  refine Works.trans ?_ (modOp_works _ _ _ fun _ => rfl)
  refine Works.trans ?_ (Works.foldl (fun _ _ => report_works ..) _ _)
  refine Works.trans ?_ (Works.foldl (fun _ _ => Works.foldl (fun _ _ => cleanBank_works ..) _ _) _ _)
  refine Works.trans ?_ (Works.foldl (fun _ _ => noteErr_works ..) _ _)
  exact Works.foldl (fun _ _ => modBay_works ..) _ s

theorem runSeed_works (o : Op) (s : State) : Works s (runSeed o s) := by
  refine Works.foldl (fun s x => ?_) _ s
  refine Works.trans ?_ (modOp_works _ _ _ fun _ => rfl)
  refine Works.trans ?_ (raiseFlags_works ..)
  refine Works.trans ?_ (Works.foldl (fun _ _ => cleanBank_works ..) _ _)
  exact modBay_works ..

theorem modBank_fill1 (x : BayState) (w : Bool) (f : Bank → Bank) : (x.modBank w f).fill1 = x.fill1 := by
  cases w <;> rfl

theorem foldl_cleanBank_bay (b : Bay) (lo hi : Nat → Nat) (l : List Nat) (s : State) :
    (l.foldl (fun s i => cleanBank b (s.by b).fill1 (lo i) (hi i) s) s).bay = s.bay :=
  foldl_eq State.bay (f := fun s i => cleanBank b (s.by b).fill1 (lo i) (hi i) s) (fun _ _ => rfl) l s

theorem runSeed_fill1 (o : Op) (s : State) (b : Bay) : ((runSeed o s).by b).fill1 = (s.by b).fill1 := by
  refine foldl_eq (fun s : State => (s.by b).fill1) (fun s x => ?_) _ s
  refine (congrArg BayState.fill1 (by_of_bay (foldl_cleanBank_bay x.1 _ _ _ _) b)).trans ?_
  rw [modBay_by_cases]
  split
  · next h => rw [modBank_fill1, h]
  · rfl

/-- The attempt of a pass leaves its slots in the operation. -/
theorem streamRun_lapsed (o : Op) (faults : List SlotFault) (d : Delay) (s : State) : Lapsed s (streamRun o faults d s) := by
  refine (phase_lapsed o d (streamSegs s o ++ delaySegs d) s).trans (Works.toLapsed ?_)
  refine Works.trans ?_ (modOp_works _ _ _ fun _ => rfl)
  exact (addDrops_works ..).trans (runPass_works ..)

theorem streamRun_op? {o : Op} {s : State} (ho : s.op? o.ctx o.seq = some o) (faults : List SlotFault) (d : Delay) :
    ∃ p, (streamRun o faults d s).op? o.ctx o.seq = some p ∧ o.Ran p ∧ p.streamed = true := by
  have hw := (phase_lapsed o d (streamSegs s o ++ delaySegs d) s).trans
    ((addDrops_works o.ctx (streamDrops (delayLag o d (runSegs o (streamSegs s o ++ delaySegs d) s)) o) _).trans
      (runPass_works o (fun _ => List.range (slotsOf (opRows o) (opRate o))) 0 faults false _)).toLapsed
  obtain ⟨p, hp, hr⟩ := hw.op? ho
  exact ⟨_, modOp_op? (fun _ => rfl) hp, hr.trans rfl, rfl⟩

/-! ### The last write of a pass -/

theorem keepFlags_works (o : Op) (s : State) : Works s (keepFlags o s) := Works.foldl (fun _ _ => raiseFlags_works ..) _ s

theorem keepFlags_baysKept (o : Op) (s : State) : BaysKept s (keepFlags o s) := BaysKept.foldl (fun _ _ => raiseFlags_baysKept ..) _ s

theorem replayable_keepFlags (o p : Op) (s : State) : replayable (keepFlags o s) p = replayable s p := by
  have hf : ((keepFlags o s).cx p.ctx).feat = (s.cx p.ctx).feat := by rw [(keepFlags_works o s).ctxs p.ctx]
  unfold replayable feat
  rw [hf]

/-- A bank whose tile is complete. -/
def closeBank (o : Op) (taken : Bool) (k : Bank) : Bank :=
  { k with st := .complete, r := o.attempt, e := o.attempt * o.replay.2, taken := taken,
           folded := if o.opc == 0x06 then some ((foldShape o (maskBays o.gset).length).1, o.da.vrows) else none }

/-- A bay whose filling bank is complete, and that fills the other one. -/
def closeBay (o : Op) (taken : Bool) (x : BayState) : BayState := { x.modBank x.fill1 (closeBank o taken) with fill1 := !x.fill1 }

theorem closeBay_bank (o : Op) (taken : Bool) (x : BayState) : (closeBay o taken x).bank x.fill1 = closeBank o taken x.fill := by
  unfold closeBay BayState.fill
  cases h : x.fill1 <;> rfl

/-- The bays a DRAIN has been dispatched for, of a chain of the operation. -/
def takenBays (o : Op) (s : State) : BitVec 4 := (((s.cx o.ctx).chains.find? (·.id == o.chain)).map (·.taken)).getD 0

/-- The banks of the operation's bays become COMPLETE. -/
def closeBays (o : Op) (s : State) : State :=
  (maskBays o.gset).foldl (fun t b => t.modBay b (closeBay o (o.ofLehr || (takenBays o s).getLsb b))) s

/-- A chain of a context is over. -/
def dropChain (id : Nat) (x : CtxState) : CtxState := { x with chains := x.chains.filter (·.id != id) }

theorem closeTile_of_last {o : Op} (h : o.last = true) (s : State) : closeTile o s = (closeBays o s).modCtx o.ctx (dropChain o.chain) := by
  rw [closeTile, h]
  rfl

theorem closeTile_of_more {o : Op} (h : o.last = false) (s : State) : closeTile o s = s := by simp [closeTile, h]

theorem closeBays_works (o : Op) (s : State) : Works s (closeBays o s) := Works.foldl (fun _ _ => modBay_works ..) _ s

theorem closeBays_by_of_mem (o : Op) (s : State) {b : Bay} (hb : b ∈ maskBays o.gset) :
    (closeBays o s).by b = closeBay o (o.ofLehr || (takenBays o s).getLsb b) (s.by b) := by
  obtain ⟨l, h1, h2⟩ := foldl_by_of_mem (f := fun (t : State) b => t.modBay b (closeBay o (o.ofLehr || (takenBays o s).getLsb b))) (key := id)
    (fun t x d hd => modBay_by_ne _ _ _ hd) (by rw [List.map_id]; exact maskBays_nodup o.gset) hb s
  rw [id, modBay_by] at h2
  rw [id] at h1
  rw [closeBays, h2, h1]

theorem closeBays_by_of_not_mem (o : Op) (s : State) {b : Bay} (hb : b ∉ maskBays o.gset) : (closeBays o s).by b = s.by b :=
  foldl_by_of_not_mem (key := id) (fun t x d hd => modBay_by_ne _ _ _ hd) (by rwa [List.map_id]) s

/-- What the close of a tile may change beside the banks: chains of its context. -/
theorem closeTile_cases (o : Op) (s : State) : closeTile o s = s ∨ ∃ f : CtxState → CtxState,
    (∀ x, (f x).rstBusy = x.rstBusy) ∧ closeTile o s = (closeBays o s).modCtx o.ctx f := by
  cases h : o.last with
  | false => exact .inl (closeTile_of_more h s)
  | true => exact .inr ⟨dropChain o.chain, fun _ => rfl, closeTile_of_last h s⟩

theorem closeTile_sameTime (o : Op) (s : State) : SameTime s (closeTile o s) := by
  rcases closeTile_cases o s with h | ⟨f, -, h⟩
  · rw [h]; exact (Works.refl s).sameTime
  · rw [h]; exact (closeBays_works o s).sameTime.trans ⟨rfl, ⟨rfl, rfl, rfl⟩, rfl⟩

theorem closeTile_lehr (o : Op) (s : State) : (closeTile o s).lehr = s.lehr := by
  rcases closeTile_cases o s with h | ⟨f, -, h⟩
  · rw [h]
  · rw [h]; exact (closeBays_works o s).lehr

theorem closeTile_rstBusy (o : Op) (s : State) (c : Ctx) : ((closeTile o s).cx c).rstBusy = (s.cx c).rstBusy := by
  rcases closeTile_cases o s with h | ⟨f, hf, h⟩
  · rw [h]
  · have hb := (closeBays_works o s).rstBusy
    rw [h, modCtx_cx_cases]
    split
    · next e => rw [hf, hb, e]
    · exact hb c

theorem closeTile_closed (o : Op) (s : State) : Closed s o (closeTile o s) := by
  cases h : o.last with
  | false =>
    rw [closeTile_of_more h]
    exact ⟨fun b _ => by simp [h], fun hl => by simp [h] at hl, fun _ b _ => rfl, fun b _ => ⟨rfl, rfl, rfl⟩⟩
  | true =>
    rw [closeTile_of_last h]
    have hby : ∀ f, ∀ b, ((closeBays o s).modCtx o.ctx f).by b = (closeBays o s).by b := fun _ _ => rfl
    refine ⟨fun b hb => ?_, fun _ b hb => ⟨o.ofLehr || (takenBays o s).getLsb b, ?_⟩, fun hl => by simp [h] at hl, fun b hb => ?_⟩
    · rw [hby, closeBays_by_of_mem o s hb, h]
      simp [closeBay]
    · rw [hby, closeBays_by_of_mem o s hb, closeBay_bank]
      simp [closeBank]
    · rw [hby, closeBays_by_of_not_mem o s hb]
      exact ⟨rfl, rfl, rfl⟩

/-- What keeps the banks before and after a tile is closed does not matter. -/
theorem closed_of_kept {v s t u : State} {p : Op} (h : Closed s p t) (hv : BaysKept v s) (hu : BaysKept t u) : Closed v p u := by
  refine ⟨fun b hb => ?_, fun hl b hb => ?_, fun hm b hb => ?_, fun b hb => ?_⟩
  · rw [(hu.bays b).fill1, ← (hv.bays b).fill1]
    exact h.swap b hb
  · rw [(hu.bays b).bank, ← (hv.bays b).fill1, ← (hv.bays b).fill]
    exact h.last hl b hb
  · rw [(hu.bays b).bank, ← (hv.bays b).fill1, ← (hv.bays b).fill]
    exact h.more hm b hb
  · obtain ⟨h0, h1, hf⟩ := h.others b hb
    exact ⟨(hu.bays b).bank0.trans (h0.trans (hv.bays b).bank0), (hu.bays b).bank1.trans (h1.trans (hv.bays b).bank1),
      (hu.bays b).fill1.trans (hf.trans (hv.bays b).fill1)⟩

/-! ### The end of a PASS or FOLD -/

/-- A pass whose attempts are over, without a fault. -/
def Op.settled (o : Op) : Op := { o with opFlags := Flags.union (o.bayFlags.map (·.2)), status := 0 }

theorem settle_waits {c : Ctx} {q : BitVec 8} {s : State} {p : Op} (hp : s.op? c q = some p) (hr : (s.cx c).rstBusy = false)
    (h : needsAbft p = true ∨ needsOverflow s p = true) : settle c q s = waiting c q s := by
  simp only [settle, hp, hr, Bool.false_eq_true, if_false, Bool.or_eq_true, h, if_true]
  rfl

theorem settle_ends {c : Ctx} {q : BitVec 8} {s : State} {p : Op} (hp : s.op? c q = some p) (hr : (s.cx c).rstBusy = false)
    (hheld : p.held = []) (hov : needsOverflow s p = false) (hex : (p.ovfNow && replayable s p) = false) :
    settle c q s = endTruss p.settled (closeTile p.settled (keepFlags p s)) := by
  have ha : needsAbft p = false := by simp [needsAbft, hheld]
  have hh : p.held.isEmpty = true := by rw [hheld]; rfl
  have hex' : (p.ovfNow && replayable (keepFlags p s) p) = false := by rw [replayable_keepFlags, hex]
  simp only [settle, hp, hr, ha, hov, hh, hex', Bool.not_true, Bool.or_self, Bool.false_eq_true, if_false]
  rfl

/-- An overflow of the first attempt that may be replayed will be. -/
theorem not_exhausted {s : State} {p : Op} (hs : p.streamed = true) (hh : p.held = []) (h0 : p.attempt = 0)
    (h : needsOverflow s p = false) : (p.ovfNow && replayable s p) = false := by
  simpa [needsOverflow, hs, hh, h0] using h

end Sys2Proof.Machine
end

section
/-! SUPPORT. The passes of a ROUGH and of a product of the lehr, and what the lehr issues after an operation of its own. -/

namespace Sys2Proof.Machine

open Sys2Proof Sys2Proof.Claims

/-! ### Passes -/

/-- Passes that end with no slot withheld have all run. -/
theorem runPasses_reached {x : Inner} {bays : List (Bay × Bool)} {faults : List SlotFault} {n p m : Nat} {a r : InnerRun}
    (h : runPasses x bays faults n p a = (m, r)) (hr : r.held = []) : m = p + n := by
  induction n generalizing p a with
  | zero => exact (congrArg Prod.fst h).symm
  | succ n ih =>
    rw [runPasses] at h
    dsimp only at h
    split at h
    · have := ih h
      omega
    · next hh =>
      obtain ⟨-, rfl⟩ := Prod.mk.inj h
      exact absurd (List.isEmpty_iff.2 hr) hh

theorem roughInner_congr {s t : State} {o : Op} (h : opRead t o = opRead s o) : roughInner t o = roughInner s o := by
  rw [roughInner, roughInner, h]

theorem opInner_congr {s t : State} {o : Op} (h : opRead t o = opRead s o) (hl : t.lehr = s.lehr) : opInner t o = opInner s o := by
  unfold opInner
  rw [hl, roughInner_congr h]

theorem runRough_congr {s t : State} {o : Op} (h : opRead t o = opRead s o) : runRough t o = runRough s o := by
  rw [runRough, runRough, roughInner_congr h]

/-- How far an operation has come does not change its passes. -/
theorem Op.Ran.opInner {o p : Op} (h : o.Ran p) (s : State) : opInner s p = opInner s o := by
  rw [h]
  rfl

theorem Op.Ran.opRead {o p : Op} (h : o.Ran p) (s : State) : opRead s p = opRead s o := by
  rw [h]
  rfl

/-- The decisions of a ROUGH are those of its passes. -/
theorem Op.Ran.runRough {o p : Op} (h : o.Ran p) (s : State) : runRough s p = runRough s { o with patch := p.patch } := by
  rw [h]
  rfl

theorem noteInner_works (o : Op) (seen : List SlotFault) (r : InnerRun) (s : State) : Works s (noteInner o seen r s) := by
  refine Works.trans ?_ (Works.foldl (fun _ _ => report_works ..) _ _)
  refine Works.trans ?_ (Works.foldl (fun _ _ => noteErr_works ..) _ _)
  exact Works.foldl (fun _ _ => modBay_works ..) _ s

/-- An operation after an attempt of the pass `n`. -/
def Op.tried (n retry : Nat) (r : InnerRun) (t : Nat) (p : Op) : Op :=
  { p with pass := n, patch := r.patch, held := r.held, cause := r.cause, streamed := true, retry := retry, tDue := t }

theorem keepInner_eq {o : Op} (h : o.side = false) (n retry : Nat) (r : InnerRun) (s : State) :
    keepInner o n retry r s = s.modOp o.ctx o.seq (Op.tried n retry r s.clk) := modOf_eq_modOp h _ s

theorem settleInner_waits {o p : Op} {s : State} (hp : s.opOf o = some p) (hr : (s.cx p.ctx).rstBusy = false) (hn : needsAbft p = true) :
    settleInner o s = s.modOf p fun x => { x with why := 9, tFirst := s.clk, ran := 0 } := by
  simp only [settleInner, hp, hr, hn, Bool.false_eq_true, if_false, if_true]

theorem settleInner_ends {o p : Op} {s : State} (hp : s.opOf o = some p) (hr : (s.cx p.ctx).rstBusy = false) (hh : p.held = [])
    (hd : ¬p.pass < (opInner s p).passes) : settleInner o s = if p.opc == 0x10B then endProduct p s else endRough p s := by
  have hn : needsAbft p = false := by simp [needsAbft, hh]
  have he : p.held.isEmpty = true := by rw [hh]; rfl
  simp only [settleInner, hp, hr, hn, he, hd, Bool.not_true, Bool.false_eq_true, if_false]

/-! ### The lehr -/

theorem leaveUnit_baysKept (o : Op) (s : State) : BaysKept s (leaveUnit o s) := by
  have hmap : ∀ {f : BayState → BayState}, (∀ x, SameContents x (f x)) → BaysKept s { s with bay := s.bay.map f } := fun {f} h =>
    ⟨fun b => by rw [show State.by { s with bay := s.bay.map f } b = f (s.by b) from by_map ..]; exact h _⟩
  unfold leaveUnit
  dsimp only
  split
  · refine hmap fun x => ?_
    split <;> exact ⟨rfl, rfl, rfl, rfl, rfl, rfl, rfl⟩
  · refine hmap fun x => ?_
    split <;> exact ⟨rfl, rfl, rfl, rfl, rfl, rfl, rfl⟩
  · exact .of_bay rfl

theorem leaveUnit_frame (o : Op) (s : State) : (leaveUnit o s).lehr = s.lehr ∧ (leaveUnit o s).ops = s.ops := by
  unfold leaveUnit
  dsimp only
  split <;> exact ⟨rfl, rfl⟩

theorem leaveUnit_sameTime (o : Op) (s : State) : SameTime s (leaveUnit o s) := by
  unfold leaveUnit
  dsimp only
  split <;> exact ⟨rfl, ⟨rfl, rfl, rfl⟩, rfl⟩

/-- An operation of the lehr is over: its unit is free. -/
def stepOver (o : Op) (s : State) : State := emitOp 0x04 o.engine 0 o (endStall o (leaveUnit o s))

theorem stepDone_eq (o : Op) (s : State) : stepDone o s =
    if !o.side then lehrNext (stepOver o s)
    else if o.opc == 0x20B then
      (stepOver o s).modOf o fun p =>
        { p with opc := 0x30B, stage := .waiting, fc := rootN p.da.vrows, gset := 0, resv := 0, takes := [], tArr := (stepOver o s).clk,
                 tRes := (stepOver o s).damp.ran, ran := 0 }
    else { stepOver o s with ops := (stepOver o s).ops.filter fun p => !(p.under o.ctx o.seq && p.side) } := rfl

theorem stepOver_traced (o : Op) (s : State) : Traced (leaveUnit o s) (stepOver o s) := (endStall_traced ..).trans (emitOp_traced ..)

theorem stepOver_baysKept (o : Op) (s : State) : BaysKept s (stepOver o s) := (leaveUnit_baysKept o s).trans (stepOver_traced o s).baysKept

theorem stepOver_frame (o : Op) (s : State) : (stepOver o s).lehr = s.lehr ∧ (stepOver o s).ops = s.ops := by
  obtain ⟨hl, ho⟩ := leaveUnit_frame o s
  have h := (stepOver_traced o s).rest
  exact ⟨by rw [h]; exact hl, by rw [h]; exact ho⟩

theorem stepOver_sameTime (o : Op) (s : State) : SameTime s (stepOver o s) :=
  (leaveUnit_sameTime o s).trans (stepOver_traced o s).works.sameTime

/-- The lehr changes no more than its job and the operations in flight. -/
theorem lehrNext_frame (s : State) : lehrNext s = { s with ops := (lehrNext s).ops, lehr := (lehrNext s).lehr } := by
  unfold lehrNext
  cases job? s with
  | none => rfl
  | some x => dsimp only; split <;> [rfl; split <;> rfl; rfl]

theorem lehrNext_sameTime (s : State) : SameTime s (lehrNext s) := by
  rw [lehrNext_frame]
  exact ⟨rfl, ⟨rfl, rfl, rfl⟩, rfl⟩

theorem stepDone_sameTime (o : Op) (s : State) : SameTime s (stepDone o s) := by
  refine (stepOver_sameTime o s).trans ?_
  rw [stepDone_eq]
  split
  · exact lehrNext_sameTime _
  · split <;> exact ⟨rfl, ⟨rfl, rfl, rfl⟩, rfl⟩

theorem stepDone_baysKept (o : Op) (s : State) : BaysKept s (stepDone o s) := by
  refine (stepOver_baysKept o s).trans ?_
  rw [stepDone_eq]
  split
  · rw [lehrNext_frame]
    exact .of_bay rfl
  · split <;> exact .of_bay rfl

/-- A job with the same products behind it. -/
def SameProducts (j k : LehrJob) : Prop := k.bays = j.bays ∧ k.patches = j.patches

theorem lehrNext_job {s : State} {j : LehrJob} (h : s.lehr = some j) : ∃ k, (lehrNext s).lehr = some k ∧ SameProducts j k := by
  unfold lehrNext
  cases hj : job? s with
  | none => exact ⟨j, h, rfl, rfl⟩
  | some x =>
    obtain ⟨i, o⟩ := x
    obtain rfl : j = i := by
      rw [job?, h] at hj
      obtain ⟨_, -, he⟩ := Option.map_eq_some_iff.1 hj
      exact congrArg Prod.fst he
    dsimp only
    split
    · exact ⟨_, rfl, rfl, rfl⟩
    · split <;> exact ⟨_, rfl, rfl, rfl⟩
    · exact ⟨_, rfl, rfl, rfl⟩

theorem stepDone_job {o : Op} {s : State} {j : LehrJob} (ho : o.side = false) (h : s.lehr = some j) :
    ∃ k, (stepDone o s).lehr = some k ∧ SameProducts j k := by
  rw [stepDone_eq, ho]
  exact lehrNext_job ((stepOver_frame o s).1.trans h)

/-- The job of the lehr with one product more. -/
def withProduct (o : Op) (j : LehrJob) : LehrJob :=
  { j with patches := j.patches.take (o.chain - j.chain) ++ [o.patch], bays := j.bays ||| o.gset }

/-- The tile of a product is closed, and its job keeps its values. -/
def productClosed (o : Op) (s : State) : State :=
  { closeTile o (noteLag o s) with lehr := (closeTile o (noteLag o s)).lehr.map (withProduct o) }

theorem endProduct_eq (o : Op) (s : State) : endProduct o s = stepDone o (productClosed o s) := rfl

theorem endProduct_sameTime (o : Op) (s : State) : SameTime s (endProduct o s) := by
  have h := (noteLag_works o s).sameTime.trans (closeTile_sameTime o (noteLag o s))
  have hp : SameTime s (productClosed o s) := ⟨h.clk, ⟨h.setup.prot, h.setup.build, h.setup.pending⟩, h.staging⟩
  rw [endProduct_eq]
  exact hp.trans (stepDone_sameTime ..)

theorem endProduct_job {o : Op} {s : State} {j : LehrJob} (ho : o.side = false) (h : s.lehr = some j) :
    ∃ k, (endProduct o s).lehr = some k ∧ k.bays = j.bays ||| o.gset ∧ k.patches = j.patches.take (o.chain - j.chain) ++ [o.patch] := by
  have hl : (productClosed o s).lehr = some (withProduct o j) := by
    rw [productClosed, closeTile_lehr, (noteLag_works o s).lehr, h]
    rfl
  rw [endProduct_eq]
  exact stepDone_job ho hl

/-! ### The end of a ROUGH -/

theorem endRough_eq (o : Op) (s : State) : endRough o s =
    endTruss { o with info := (runRough s o).skip.length } (s.modCtx o.ctx fun x => { x with rough := some (runRough s o) }) := rfl

theorem endRough_sameTime (o : Op) (s : State) : SameTime s (endRough o s) := by
  rw [endRough_eq]
  have h : SameTime s (s.modCtx o.ctx fun x => { x with rough := some (runRough s o) }) := ⟨rfl, ⟨rfl, rfl, rfl⟩, rfl⟩
  exact h.trans (endTruss_sameTime ..)

theorem endTruss_rough (o : Op) (s : State) : ((endTruss o s).cx o.ctx).rough = (s.cx o.ctx).rough := by
  rw [endTruss, release_rough, (noteLag_works o s).ctxs o.ctx]

theorem modCtx_rough (c : Ctx) (r : Option Rough) (s : State) : ((s.modCtx c fun x => { x with rough := r }).cx c).rough = r := by
  rw [modCtx_cx]

theorem endRough_rough (o : Op) (s : State) : ((endRough o s).cx o.ctx).rough = some (runRough s o) := by
  rw [endRough_eq]
  generalize hp : ({ o with info := (runRough s o).skip.length } : Op) = p
  have hc : o.ctx = p.ctx := by rw [← hp]
  rw [hc, endTruss_rough, modCtx_rough]

theorem endRough_endsWith {u s : State} {o p : Op} (hran : o.Ran p) (h0 : p.status = 0) (hr : (s.cx o.ctx).rstBusy = false) :
    EndsWith u o 0 (endRough p s) := by
  rw [endRough_eq]
  refine endTruss_endsWith hran.ctx hran.seq hran.opc hran.word h0 ?_
  rw [modCtx_cx_cases]
  split
  · next e => rw [← e]; exact hr
  · exact hr

end Sys2Proof.Machine
end

section
/-! Settles the statement about the end of a Truss operation. -/

namespace Sys2Proof.Machine

open Sys2Proof Sys2Proof.Claims

/-! ### A PASS or FOLD -/

/-- After its first attempt a PASS or FOLD waits for a replay, or it closes its tile and ends. -/
theorem firstAttempt_cases {s : State} {o : Op} (ho : s.op? o.ctx o.seq = some o) (hretry : o.retry = 0) (hatt : o.attempt = 0)
    (hr : (s.cx o.ctx).rstBusy = false) (faults : List SlotFault) (d : Delay) :
    ∃ p, (streamRun o faults d s).op? o.ctx o.seq = some p ∧ o.Ran p ∧
      if p.held ≠ [] ∨ needsOverflow (streamRun o faults d s) p = true then
        firstAttempt o faults d s = waiting o.ctx o.seq (streamRun o faults d s)
      else firstAttempt o faults d s = endTruss p.settled (closeTile p.settled (keepFlags p (streamRun o faults d s))) := by
  obtain ⟨p, hp, hran, hstreamed⟩ := streamRun_op? ho faults d
  have hrst : ((streamRun o faults d s).cx o.ctx).rstBusy = false := ((streamRun_lapsed o faults d s).rstBusy o.ctx).trans hr
  refine ⟨p, hp, hran, ?_⟩
  split
  · next h =>
    refine settle_waits hp hrst (h.imp_left fun hh => ?_)
    simp [needsAbft, hstreamed, hh, hran.retry.trans hretry]
  · next h =>
    rw [not_or, not_not, Bool.not_eq_true] at h
    obtain ⟨hh, hov⟩ := h
    exact settle_ends hp hrst hh hov (not_exhausted hstreamed hh (hran.attempt.trans hatt) hov)

theorem tileEnd_sameTime (p : Op) (v : State) : SameTime v (endTruss p.settled (closeTile p.settled (keepFlags p v))) :=
  ((keepFlags_works p v).sameTime.trans (closeTile_sameTime ..)).trans (endTruss_sameTime ..)

theorem waiting_sameTime (c : Ctx) (q : BitVec 8) (v : State) : SameTime v (waiting c q v) := ⟨rfl, ⟨rfl, rfl, rfl⟩, rfl⟩

theorem firstAttempt_sameTime {s : State} {o : Op} (ho : s.op? o.ctx o.seq = some o) (hretry : o.retry = 0) (hatt : o.attempt = 0)
    (hr : (s.cx o.ctx).rstBusy = false) (faults : List SlotFault) (d : Delay) :
    SameTime (streamRun o faults d s) (firstAttempt o faults d s) := by
  obtain ⟨p, -, -, h⟩ := firstAttempt_cases ho hretry hatt hr faults d
  split at h
  · rw [h]; exact waiting_sameTime ..
  · rw [h]; exact tileEnd_sameTime ..

theorem tileEnd_rstBusy (p : Op) (v : State) (c : Ctx) :
    ((closeTile p.settled (keepFlags p v)).cx c).rstBusy = (v.cx c).rstBusy := (closeTile_rstBusy ..).trans ((keepFlags_works p v).rstBusy c)

theorem tileEnd_closed {v : State} {p : Op} (h : Alone v p) :
    Closed v p (endTruss p.settled (closeTile p.settled (keepFlags p v))) := by
  have hl : (closeTile p.settled (keepFlags p v)).lehr = v.lehr := (closeTile_lehr ..).trans (keepFlags_works p v).lehr
  have hc := closed_of_kept (closeTile_closed p.settled (keepFlags p v)) (keepFlags_baysKept p v)
    (endTruss_baysKept (o := p.settled) fun j hj => h j (hl.symm.trans hj))
  exact ⟨hc.swap, hc.last, hc.more, hc.others⟩

theorem alone_of_ran {s t : State} {o p : Op} (h : Alone s o) (hl : Lapsed s t) (hp : o.Ran p) : Alone t p := by
  intro j hj
  rw [hp.ctx, hp.seq]
  exact h j (hl.lehr.symm.trans hj)

/-! ### A ROUGH or a product -/

/-- The state `v` that the passes of an operation lead to, the operation `p` in it: all runs but its last are done at pass `n`, with the
outcome `r`. -/
structure Reached (s : State) (o : Op) (n : Nat) (r : InnerRun) (v : State) (p : Op) : Prop where
  setup : SameSetup s v
  staging : v.staging = s.staging
  lehr : v.lehr = s.lehr
  rst : (v.cx o.ctx).rstBusy = (s.cx o.ctx).rstBusy
  reads : opRead v o = opRead s o
  found : v.op? o.ctx o.seq = some p
  ran : o.Ran p
  outcome : p.pass = n ∧ p.patch = r.patch ∧ p.held = r.held ∧ p.streamed = true

theorem ran_tried {p : Op} (h : p.retry = 0) (n : Nat) (r : InnerRun) (t : Nat) : p.Ran (p.tried n 0 r t) := by
  cases p
  cases h
  rfl

theorem innerAttempt_reached {s : State} {o : Op} (ho : s.op? o.ctx o.seq = some o) (hside : o.side = false) (hretry : o.retry = 0)
    (hr : (s.cx o.ctx).rstBusy = false) {faults : List SlotFault} (d : Delay) {n : Nat} {r : InnerRun}
    (hrun : runPasses (opInner s o) (chkBays s o) faults ((opInner s o).passes - o.pass) o.pass { patch := o.patch } = (n, r)) :
    ∃ v p, innerAttempt o faults d s = settleInner o v ∧ Reached s o n r v p := by
  let seen := faults.filter fun f => decide (o.pass * (opInner s o).slots ≤ f.slot) &&
    decide (f.slot < min (opInner s o).passes (n + 1) * (opInner s o).slots)
  let w := noteInner o seen r (delayLag o d (runSegs o ((0, (min (opInner s o).passes (n + 1) - o.pass) * innerPass o) :: delaySegs d) s))
  have hw : Lapsed s w := (phase_lapsed ..).trans (noteInner_works ..).toLapsed
  obtain ⟨p, hp, hran⟩ := hw.op? ho
  refine ⟨keepInner o n 0 r w, p.tried n 0 r w.clk, ?_, ?_⟩
  · simp only [innerAttempt, hr, Bool.false_eq_true, if_false, hrun]
    rfl
  · rw [keepInner_eq hside]
    exact ⟨⟨hw.prot, hw.build, hw.pending⟩, hw.staging, hw.lehr, hw.rstBusy _, hw.opRead o, modOp_op? (fun _ => rfl) hp,
      hran.trans (ran_tried (hran.retry.trans hretry) ..), rfl, rfl, rfl, rfl⟩

section
variable {s : State} {o : Op} {n : Nat} {r : InnerRun} {v : State} {p : Op} (h : Reached s o n r v p)
include h

theorem Reached.opOf (hside : o.side = false) : v.opOf o = some p := (opOf_eq_op? hside v).trans h.found

theorem Reached.rstBusy (hr : (s.cx o.ctx).rstBusy = false) : (v.cx p.ctx).rstBusy = false := by rw [h.ran.ctx, h.rst, hr]

theorem Reached.waits (hside : o.side = false) (hr : (s.cx o.ctx).rstBusy = false) (hretry : o.retry = 0) (hh : r.held ≠ []) :
    settleInner o v = v.modOp o.ctx o.seq fun x => { x with why := 9, tFirst := v.clk, ran := 0 } := by
  obtain ⟨-, -, hheld, hstreamed⟩ := h.outcome
  have hn : needsAbft p = true := by simp [needsAbft, hstreamed, hheld, hh, h.ran.retry.trans hretry]
  rw [settleInner_waits (h.opOf hside) (h.rstBusy hr) hn, modOf_eq_modOp (h.ran.side.trans hside), h.ran.ctx, h.ran.seq]

theorem Reached.ends (hside : o.side = false) (hr : (s.cx o.ctx).rstBusy = false) (hn : (opInner s o).passes = n) (hh : r.held = []) :
    settleInner o v = if o.opc == 0x10B then endProduct p v else endRough p v := by
  obtain ⟨hpass, -, hheld, -⟩ := h.outcome
  have hx : opInner v p = opInner s o := (h.ran.opInner v).trans (opInner_congr h.reads h.lehr)
  rw [settleInner_ends (h.opOf hside) (h.rstBusy hr) (hheld.trans hh) (by rw [hx, hpass]; omega), h.ran.opc]

theorem Reached.rough : Machine.runRough v p = Machine.runRough s { o with patch := r.patch } := by
  rw [h.ran.runRough, h.outcome.2.1]
  exact runRough_congr h.reads

end

end Sys2Proof.Machine

namespace Sys2Proof.Claims

open Sys2Proof Sys2Proof.Machine

theorem canStream_opc {s : State} {o : Op} (h : canStream s o = true) :
    (o.opc = 0x03 ∨ o.opc = 0x06) ∨ o.opc = 0x04 ∨ o.opc = 0x0C ∨ o.opc = 0x10B := by
  simp only [canStream, Bool.and_eq_true, Bool.or_eq_true, beq_iff_eq] at h
  omega

theorem canStream_granted {s : State} {o : Op} (h : canStream s o = true) : o.stage = .granted := by
  simp only [canStream, Bool.and_eq_true] at h
  exact opReady_granted h.1.1.1

/-- What a Truss operation other than a RAISE comes to when it streams. -/
def trussEnd (o : Op) (faults : List SlotFault) (d : Delay) (s : State) : State :=
  if o.opc == 0x04 then endSeed o (delayLag o d (runSegs o ((0, plainTime s o) :: delaySegs d) s))
  else if o.opc == 0x0C || o.opc == 0x10B then innerAttempt o faults d s
  else firstAttempt o faults d s

theorem truss_runs {c : Ctx} {q : BitVec 8} {s : State} {o : Op} {faults : List SlotFault} {d : Delay} (ho : s.op? c q = some o)
    (hstream : canStream s o = true) (hwf : (Instr.trussOpComplete c q faults d).wellFormed = true) (hpoison : trussPoison s o = none) :
    exec (.trussOpComplete c q faults d) s = .next (trussEnd o faults d s) := by
  have hopc := canStream_opc hstream
  have hclass : opClass o.opc = some .t := by rcases hopc with (h | h) | h | h | h <;> rw [h] <;> rfl
  show execTrussOpComplete c q faults d s = _
  simp only [execTrussOpComplete, trussEnd, opIn_of_class ho hclass, hstream, hwf, hpoison, Bool.and_self, if_true]
  rcases hopc with (h | h) | h | h | h <;> simp only [h] <;> rfl

/-- What TrussOperationEndsOrWaitsForReplay says of a PASS or FOLD. -/
theorem pass_outcome {s : State} {o : Op} (ho : s.op? o.ctx o.seq = some o) (hretry : o.retry = 0) (hatt : o.attempt = 0)
    (hclear : Clear s o) (halone : Alone s o) (faults : List SlotFault) (d : Delay) :
    ∃ p, (streamRun o faults d s).op? o.ctx o.seq = some p ∧ p.retry = 0 ∧ p.attempt = 0 ∧
      if p.held ≠ [] ∨ needsOverflow (streamRun o faults d s) p = true then
        firstAttempt o faults d s = waiting o.ctx o.seq (streamRun o faults d s)
      else EndsWith s o 0 (firstAttempt o faults d s) ∧ Closed (streamRun o faults d s) p (firstAttempt o faults d s) := by
  obtain ⟨hst, -, -, hr⟩ := hclear
  obtain ⟨p, hp, hran, hcase⟩ := firstAttempt_cases ho hretry hatt hr faults d
  refine ⟨p, hp, hran.retry.trans hretry, hran.attempt.trans hatt, ?_⟩
  have hlapsed := streamRun_lapsed o faults d s
  split
  · next hw => rwa [if_pos hw] at hcase
  · next hw =>
    rw [if_neg hw] at hcase
    rw [hcase]
    refine ⟨endTruss_endsWith hran.ctx hran.seq hran.opc hran.word rfl ?_, tileEnd_closed (alone_of_ran halone hlapsed hran)⟩
    exact (tileEnd_rstBusy ..).trans ((hlapsed.rstBusy _).trans hr)

/-- A SEED in the block `v` that its phase leads to: it ends with its tile in the banks. -/
theorem seed_outcome {s v : State} {o : Op} (ho : s.op? o.ctx o.seq = some o) (hclear : Clear s o) (hlapsed : Lapsed s v) (hkept : BaysKept s v) :
    SameTime v (endSeed o v) ∧ (Alone s o → EndsWith s o 0 (endSeed o v) ∧ ∀ b, ((endSeed o v).by b).bank0 = ((runSeed o v).by b).bank0 ∧
      ((endSeed o v).by b).bank1 = ((runSeed o v).by b).bank1 ∧ ((endSeed o v).by b).fill1 = (s.by b).fill1) := by
  obtain ⟨hst, -, -, hr⟩ := hclear
  have hseed := runSeed_works o v
  obtain ⟨p, hp, hran⟩ := (hlapsed.trans hseed.toLapsed).op? ho
  have hend : endSeed o v = endTruss p (runSeed o v) := by simp only [endSeed, hp]
  have hrst : ((runSeed o v).cx o.ctx).rstBusy = false := ((hlapsed.trans hseed.toLapsed).rstBusy o.ctx).trans hr
  rw [hend]
  refine ⟨hseed.sameTime.trans (endTruss_sameTime ..), fun halone => ⟨?_, fun b => ?_⟩⟩
  · exact endTruss_endsWith hran.ctx hran.seq hran.opc hran.word (hran.status.trans hst) hrst
  · have h := (endTruss_baysKept (alone_of_ran halone (hlapsed.trans hseed.toLapsed) hran)).bays b
    exact ⟨h.bank0, h.bank1, h.fill1.trans ((runSeed_fill1 o v b).trans (hkept.bays b).fill1)⟩

section
variable {s : State} {o : Op} {n : Nat} {r : InnerRun} {v : State} {p : Op} (h : Reached s o n r v p) (hside : o.side = false)
  (hr : (s.cx o.ctx).rstBusy = false) (hretry : o.retry = 0)
include h hside hr hretry

theorem inner_sameTime (hn : r.held = [] → (opInner s o).passes = n) : SameTime v (settleInner o v) := by
  by_cases hh : r.held = []
  · rw [h.ends hside hr (hn hh) hh]
    split
    · exact endProduct_sameTime ..
    · exact endRough_sameTime ..
  · rw [h.waits hside hr hretry hh]
    exact ⟨rfl, ⟨rfl, rfl, rfl⟩, rfl⟩

theorem inner_waiting (hgranted : o.stage = .granted) (hh : r.held ≠ []) : ∃ x ∈ (settleInner o v).ops, x.ctx = o.ctx ∧ x.seq = o.seq ∧
    x.opc = o.opc ∧ x.stage = .granted ∧ x.streamed = true ∧ x.held = r.held ∧ x.retry = 0 ∧ x.pass = n ∧ x.patch = r.patch ∧ x.why = 9 ∧
      x.tFirst = (settleInner o v).clk := by
  obtain ⟨hpass, hpatch, hheld, hstreamed⟩ := h.outcome
  have hran := h.ran
  rw [h.waits hside hr hretry hh]
  refine ⟨_, mem_of_op? (modOp_op? (fun _ => rfl) h.found), hran.ctx, hran.seq, hran.opc, hran.stage.trans hgranted, hstreamed, hheld,
    hran.retry.trans hretry, hpass, hpatch, rfl, rfl⟩

end

section
variable {s : State} {o : Op} {n : Nat} {r : InnerRun} {v : State} {p : Op} (h : Reached s o n r v p) (hside : o.side = false)
  (hr : (s.cx o.ctx).rstBusy = false) (hn : (opInner s o).passes = n) (hh : r.held = [])
include h hside hr hn hh

theorem rough_outcome (hopc : o.opc = 0x0C) (hst : o.status = 0) :
    EndsWith s o 0 (settleInner o v) ∧ ((settleInner o v).cx o.ctx).rough = some (runRough s { o with patch := r.patch }) := by
  have hend : settleInner o v = endRough p v := by simp [h.ends hside hr hn hh, hopc]
  rw [hend]
  refine ⟨endRough_endsWith h.ran (h.ran.status.trans hst) (h.rst.trans hr), ?_⟩
  have hrough := (endRough_rough p v).trans (congrArg some h.rough)
  rwa [h.ran.ctx] at hrough

theorem product_outcome (hopc : o.opc = 0x10B) {j : LehrJob} (hj : s.lehr = some j) : ∃ k, (settleInner o v).lehr = some k ∧
    k.bays = j.bays ||| o.gset ∧ k.patches = j.patches.take (o.chain - j.chain) ++ [r.patch] := by
  have hend : settleInner o v = endProduct p v := by simp [h.ends hside hr hn hh, hopc]
  obtain ⟨k, hk, hbays, hpatches⟩ := endProduct_job (h.ran.side.trans hside) (h.lehr.trans hj)
  rw [h.ran.gset] at hbays
  rw [h.ran.chain, h.outcome.2.1] at hpatches
  exact ⟨k, hend ▸ hk, hbays, hpatches⟩

end

/-- Settles O30: an operation of class T ends or waits after its first attempt, by what that attempt left in it. -/
theorem trussOperationEndsOrWaitsForReplay : Obligations.TrussOperationEndsOrWaitsForReplay := by
  intro c q s o faults d ho hstream hretry hatt hle hwf hclear hpoison
  obtain ⟨rfl, rfl, hside⟩ := op?_is ho
  obtain ⟨hst, -, -, hr⟩ := id hclear
  refine ⟨_, truss_runs ho hstream hwf hpoison, ?_⟩
  rcases canStream_opc hstream with hopc | hopc | hopc
  · have hrun : trussEnd o faults d s = firstAttempt o faults d s := by rcases hopc with h | h <;> simp [trussEnd, h]
    rw [hrun]
    obtain ⟨hset, hstag, -⟩ := (firstAttempt_sameTime ho hretry hatt hr faults d).after (streamRun_lapsed o faults d s)
    exact ⟨hset, hstag, fun _ halone => pass_outcome ho hretry hatt hclear halone faults d, fun h => by omega, fun h => by omega⟩
  · have hrun : trussEnd o faults d s = endSeed o (delayLag o d (runSegs o ((0, plainTime s o) :: delaySegs d) s)) := by simp [trussEnd, hopc]
    have hlapsed : Lapsed s (delayLag o d (runSegs o ((0, plainTime s o) :: delaySegs d) s)) := phase_lapsed ..
    have hkept : BaysKept s (delayLag o d (runSegs o ((0, plainTime s o) :: delaySegs d) s)) := phase_baysKept ..
    rw [hrun]
    obtain ⟨htime, hend⟩ := seed_outcome ho hclear hlapsed hkept
    obtain ⟨hset, hstag, -⟩ := htime.after hlapsed
    refine ⟨hset, hstag, fun h => by omega, fun _ halone => ?_, fun h => by omega⟩
    obtain ⟨he, hb⟩ := hend halone
    exact ⟨he, fun u hu => hu ▸ hb⟩
  · have hrun : trussEnd o faults d s = innerAttempt o faults d s := by rcases hopc with h | h <;> simp [trussEnd, h]
    rw [hrun]
    rcases hpasses : runPasses (opInner s o) (chkBays s o) faults ((opInner s o).passes - o.pass) o.pass { patch := o.patch } with ⟨n, r⟩
    obtain ⟨v, p, hv, h⟩ := innerAttempt_reached ho hside hretry hr d hpasses
    have hn : r.held = [] → (opInner s o).passes = n := fun hh => by
      have := runPasses_reached hpasses hh
      omega
    rw [hv]
    have htime := inner_sameTime h hside hr hretry hn
    refine ⟨SameSetup.trans h.setup htime.setup, htime.staging.trans h.staging, fun h => by omega, fun h => by omega, fun _ n' r' hp => ?_⟩
    obtain ⟨rfl, rfl⟩ := Prod.mk.inj hp
    exact ⟨inner_waiting h hside hr hretry (canStream_granted hstream), fun hh hopc => rough_outcome h hside hr (hn hh) hh hopc hst,
      fun hh hopc j hj => product_outcome h hside hr (hn hh) hh hopc hj⟩

end Sys2Proof.Claims
end

section
/-! SUPPORT. Writes into staging and through the write ports (R201, R203, R205). -/

namespace Sys2Proof.Machine

open Sys2Proof Sys2Proof.Claims

/-! ### One request -/

theorem asks_write (p : Port) (r : WrReq) (t : Nat) : asks (p.write r t) = asks p ++ [bare r] := by
  unfold Port.write
  split
  · next h =>
    have hw : p.wrWait = [] := List.isEmpty_iff.1 (Bool.and_eq_true .. ▸ h).1
    cases r <;> simp [Port.sendWr, asks, hw, bare]
  · simp [asks]

theorem issueWrReq_asks (b : Bay) (r : WrReq) (s : State) (d : Bay) :
    asks ((issueWrReq b r s).by d).port = asks (s.by d).port ++ if b = d then [bare r] else [] := by
  rw [issueWrReq, modBay_by_cases]
  by_cases h : d = b
  · subst h
    rw [if_pos rfl, if_pos rfl]
    exact asks_write ..
  · rw [if_neg h, if_neg fun e => h e.symm, List.append_nil]

theorem issueWrReq_by_ne {b d : Bay} (h : d ≠ b) (r : WrReq) (s : State) : (issueWrReq b r s).by d = s.by d := modBay_by_ne _ _ _ h

theorem issueWrReq_bank (b : Bay) (r : WrReq) (s : State) (d : Bay) (w : Bool) :
    ((issueWrReq b r s).by d).bank w = (s.by d).bank w := by
  rw [issueWrReq, modBay_by_cases]
  split
  · next h => rw [h]; rfl
  · rfl

/-! ### The requests of some writes -/

/-- A line for a port, with its mask and data. -/
abbrev PortLine := Bay × Nat × BitVec 64 × List Byte

/-- Lines go out as posted writes. -/
def sendLines (c : Ctx) (spans : List Range) (ls : List PortLine) (s : State) : State :=
  ls.foldl (fun s x => issueWr x.1 x.2.1 (tierIn s c true spans x.2.1) c x.2.2.1 x.2.2.2 s) s

/-- A FLUSH goes out on some ports. -/
def sendFlushes (w : Owner) (ports : List Bay) (s : State) : State := ports.foldl (fun s b => issueFlush b w s) s

/-- The ports that some lines use. -/
def usedPorts (ls : List PortLine) : List Bay := (ls.map (·.1)).dedup

/-- The writes to staging among some writes. -/
def staged (ws : List Wr) : List (Nat × List Byte) := ws.filterMap fun x => if x.1 then none else some x.2

theorem issueWrites_eq (c : Ctx) (w : Owner) (ports : List Bay) (spans : List Range) (ws : List Wr) (s : State) :
    issueWrites c w ports spans ws s =
      (sendFlushes w (usedPorts (deal ports (wrLines ws))) (sendLines c spans (deal ports (wrLines ws)) (writeStaging (staged ws) s)),
        (usedPorts (deal ports (wrLines ws))).length) := rfl

/-- The posted write of a line of a context, with its tier. -/
def lineReq (s : State) (c : Ctx) (spans : List Range) (x : PortLine) : WrReq :=
  .wr x.2.1 (tierIn s c true spans x.2.1) c x.2.2.1 x.2.2.2

theorem tierIn_congr {s t : State} (h : t.prot = s.prot) (c : Ctx) (wr : Bool) (spans : List Range) (line : Nat) :
    tierIn t c wr spans line = tierIn s c wr spans line := by
  unfold tierIn farOf windowOf
  rw [h]

theorem lineReq_congr {s t : State} (h : t.prot = s.prot) (c : Ctx) (spans : List Range) (x : PortLine) :
    lineReq t c spans x = lineReq s c spans x := by rw [lineReq, tierIn_congr h, lineReq]

theorem sendLines_asks (c : Ctx) (spans : List Range) (d : Bay) (ls : List PortLine) (s : State) :
    asks ((sendLines c spans ls s).by d).port = asks (s.by d).port ++ (ls.filter (·.1 == d)).map (lineReq s c spans) := by
  induction ls generalizing s with
  | nil => exact (List.append_nil _).symm
  | cons x ls ih =>
    let u := issueWr x.1 x.2.1 (tierIn s c true spans x.2.1) c x.2.2.1 x.2.2.2 s
    have hu : asks (u.by d).port = asks (s.by d).port ++ if x.1 = d then [lineReq s c spans x] else [] := issueWrReq_asks ..
    have hreq : lineReq u c spans = lineReq s c spans := funext fun y => lineReq_congr rfl c spans y
    refine (ih u).trans ?_
    rw [hu, hreq]
    by_cases h : x.1 = d
    · simp [h]
    · simp [h]

theorem sendFlushes_asks (w : Owner) (d : Bay) {ports : List Bay} (hn : ports.Nodup) (s : State) :
    asks ((sendFlushes w ports s).by d).port = asks (s.by d).port ++ if d ∈ ports then [.flush 0 w 0] else [] := by
  induction ports generalizing s with
  | nil => exact (List.append_nil _).symm
  | cons b l ih =>
    rw [List.nodup_cons] at hn
    have hb : asks ((issueFlush b w s).by d).port = asks (s.by d).port ++ if b = d then [.flush 0 w 0] else [] := issueWrReq_asks ..
    refine (ih hn.2 (issueFlush b w s)).trans ?_
    rw [hb]
    by_cases h : b = d
    · subst h
      simp [hn.1]
    · have h' : d ≠ b := fun e => h e.symm
      simp [h, h']

theorem mem_usedPorts {d : Bay} {ls : List PortLine} : d ∈ usedPorts ls ↔ ls.filter (·.1 == d) ≠ [] := by
  simp [usedPorts, List.filter_eq_nil_iff]

/-- The write ports get the requests of some writes in order. -/
theorem issueWrites_asks (c : Ctx) (w : Owner) (ports : List Bay) (spans : List Range) (ws : List Wr) (s : State) (d : Bay) :
    asks ((issueWrites c w ports spans ws s).1.by d).port = asks (s.by d).port ++ posts s c w ports spans ws d := by
  rw [issueWrites_eq, sendFlushes_asks w d (ports := usedPorts _) (List.nodup_dedup _), sendLines_asks, List.append_assoc]
  have hreq : lineReq (writeStaging (staged ws) s) c spans = lineReq s c spans := funext fun y => lineReq_congr rfl c spans y
  rw [hreq, show ((writeStaging (staged ws) s).by d).port = (s.by d).port from rfl]
  congr 2
  cases h : (deal ports (wrLines ws)).filter (·.1 == d) with
  | nil => rw [if_neg fun hm => mem_usedPorts.1 hm h]; rfl
  | cons x l => rw [if_pos (mem_usedPorts.2 (by rw [h]; exact List.cons_ne_nil _ _))]; rfl

theorem posts_congr {s t : State} (h : t.prot = s.prot) (c : Ctx) (w : Owner) (ports : List Bay) (spans : List Range) (ws : List Wr) (d : Bay) :
    posts t c w ports spans ws d = posts s c w ports spans ws d := by
  unfold posts
  simp only [tierIn_congr h]

/-! ### What else some writes leave -/

theorem mem_deal {α : Type} {ports : List Bay} {l : List α} {x : Bay × α} (h : x ∈ deal ports l) : x.1 ∈ ports := by
  unfold deal at h
  split at h
  · cases h
  · next hne =>
    obtain ⟨y, -, rfl⟩ := List.mem_map.1 h
    have hpos : 0 < ports.length := List.length_pos_iff.2 fun e => hne (List.isEmpty_iff.2 e)
    have hlt : y.2 % ports.length < ports.length := Nat.mod_lt _ hpos
    simp [hlt]

theorem deal_eq_nil {α : Type} {ports : List Bay} {l : List α} (hp : ports ≠ []) : deal ports l = [] ↔ l = [] := by
  simp [deal, hp, List.isEmpty_iff, List.zipIdx_eq_nil_iff]

theorem issueWrites_by_of_not_mem (c : Ctx) (w : Owner) {ports : List Bay} (spans : List Range) (ws : List Wr) (s : State) {d : Bay}
    (hd : d ∉ ports) : (issueWrites c w ports spans ws s).1.by d = s.by d := by
  have hl : d ∉ (deal ports (wrLines ws)).map (·.1) := fun h => by
    obtain ⟨x, hx, rfl⟩ := List.mem_map.1 h
    exact hd (mem_deal hx)
  rw [issueWrites_eq]
  refine (foldl_by_of_not_mem (key := id) (fun s b d hd => issueWrReq_by_ne hd _ s) (by simpa [usedPorts] using hl) _).trans ?_
  exact foldl_by_of_not_mem (key := fun x : PortLine => x.1) (fun s x d hd => issueWrReq_by_ne hd _ s) hl _

theorem issueWrites_bank (c : Ctx) (w : Owner) (ports : List Bay) (spans : List Range) (ws : List Wr) (s : State) (d : Bay) (k : Bool) :
    ((issueWrites c w ports spans ws s).1.by d).bank k = (s.by d).bank k := by
  rw [issueWrites_eq]
  refine (foldl_eq (fun s : State => (s.by d).bank k) (fun s b => issueWrReq_bank _ _ s d k) _ _).trans ?_
  exact foldl_eq (fun s : State => (s.by d).bank k) (fun s x => issueWrReq_bank _ _ s d k) _ _

/-- Writes touch staging with its poison, and the ports. -/
theorem issueWrites_rest (c : Ctx) (w : Owner) (ports : List Bay) (spans : List Range) (ws : List Wr) (s : State) :
    (issueWrites c w ports spans ws s).1 =
      { writeStaging (staged ws) s with bay := (issueWrites c w ports spans ws s).1.bay } := by
  have hl : ∀ (ls : List PortLine) (t : State), sendLines c spans ls t = { t with bay := (sendLines c spans ls t).bay } := fun ls => by
    induction ls with
    | nil => exact fun t => rfl
    | cons x ls ih => exact fun t => ih _
  have hf : ∀ (l : List Bay) (t : State), sendFlushes w l t = { t with bay := (sendFlushes w l t).bay } := fun l => by
    induction l with
    | nil => exact fun t => rfl
    | cons b l ih => exact fun t => ih _
  rw [issueWrites_eq]
  dsimp only
  rw [hf, hl]

/-! ### How many flushes -/

theorem wrLines_eq_nil {ws : List Wr} (h : ∀ w ∈ ws, w.1 = false) : wrLines ws = [] := by
  have e : (ws.flatMap fun w => if w.1 then w.2.2.zipIdx.map fun x => (w.2.1 + x.2, x.1) else []) = [] := by
    rw [List.flatMap_eq_nil_iff]
    intro w hw
    simp [h w hw]
  unfold wrLines
  rw [e]
  rfl

theorem wrLines_ne_nil {ws : List Wr} {w : Wr} (hm : w ∈ ws) (hw : w.1 = true) (hb : w.2.2 ≠ []) : wrLines ws ≠ [] := by
  have e : (ws.flatMap fun w => if w.1 then w.2.2.zipIdx.map fun x => (w.2.1 + x.2, x.1) else []) ≠ [] := fun h => by
    have := List.flatMap_eq_nil_iff.1 h w hm
    simp [hw, hb] at this
  unfold wrLines
  simpa [List.dedup_eq_nil] using e

/-- The flushes of some writes. -/
def flushes (ports : List Bay) (ws : List Wr) : Nat := (usedPorts (deal ports (wrLines ws))).length

theorem flushes_eq_zero {ports : List Bay} (hp : ports ≠ []) {ws : List Wr} : flushes ports ws = 0 ↔ wrLines ws = [] := by
  simp [flushes, usedPorts, List.dedup_eq_nil, deal_eq_nil hp]

/-! ### Bytes that no write touches -/

theorem foldl_writeN_read_ne (ws : List (Nat × List Byte)) {m : Mem} (h : m.wf) {a : Nat} (ha : ∀ w ∈ ws, a < w.1 ∨ w.1 + w.2.length ≤ a) :
    (ws.foldl (fun m w => m.writeN w.1 w.2) m).read a = m.read a := by
  induction ws generalizing m with
  | nil => rfl
  | cons w ws ih =>
    exact (ih (Mem.writeN_wf _ _ h) fun x hx => ha x (List.mem_cons_of_mem _ hx)).trans
      (Mem.read_writeN_ne _ _ h _ (ha w List.mem_cons_self))

/-! ### The end of an operation that has written -/

theorem awaitFlushes_port (o : Op) (n : Nat) (s : State) (b : Bay) : ((awaitFlushes o n s).by b).port = (s.by b).port := by
  unfold awaitFlushes
  split
  · exact ((complete_baysKept o (releaseUnits o s)).bays b).port.trans (releaseUnits_port ..)
  · rfl

theorem awaitFlushes_bank_free {o : Op} {n : Nat} {s : State} {b : Bay} {w : Bool} (h : ((s.by b).bank w).st = .free) :
    (((awaitFlushes o n s).by b).bank w).st = .free := by
  unfold awaitFlushes
  split
  · rw [release, ((complete_baysKept o (releaseUnits o s)).bays b).bank]
    exact releaseUnits_bank_free o h
  · exact h

theorem awaitFlushes_starts (o : Op) (n : Nat) (s : State) : Starts s (awaitFlushes o n s) :=
  .of_keeps (awaitFlushes_still ..) (awaitFlushes_keeps ..)

theorem awaitFlushes_done {o : Op} {n : Nat} (h : o.wrs + n = 0) (s : State) : awaitFlushes o n s = release o s := by
  rw [awaitFlushes, if_pos (beq_iff_eq.2 h)]

theorem awaitFlushes_flushing {o : Op} {n : Nat} (h : o.wrs + n ≠ 0) (s : State) :
    awaitFlushes o n s = s.modOp o.ctx o.seq fun _ => { o with stage := .flushing, wrs := o.wrs + n } := by
  rw [awaitFlushes, if_neg (by rwa [beq_iff_eq])]

end Sys2Proof.Machine
end

section
/-! Settles the statement about the end of a DRAIN. -/

namespace Sys2Proof.Machine

open Sys2Proof Sys2Proof.Claims

/-! ### The banks of a DRAIN -/

theorem takenBank_congr {s t : State} {b : Bay} (h0 : (t.by b).bank0 = (s.by b).bank0) (h1 : (t.by b).bank1 = (s.by b).bank1) (o : Op) :
    takenBank t o b = takenBank s o b := by
  rw [takenBank, takenBank, h0, h1]

/-- The bank that a DRAIN takes in one bay becomes FREE. -/
def freeTaken (o : Op) (s : State) (b : Bay) : State := s.modBay b fun x => x.modBank (takenBank s o b).1 Bank.free

theorem freeBanks_eq (o : Op) (s : State) : freeBanks o s = (maskBays o.gset).foldl (freeTaken o) s := rfl

theorem modBank_free (x : BayState) (w : Bool) : ((x.modBank w Bank.free).bank w).st = .free := by
  cases w <;> rfl

theorem modBank_free_mems (x : BayState) (w : Bool) : SameBanks x (x.modBank w Bank.free) := by
  cases w <;> exact ⟨rfl, rfl⟩

theorem freeTaken_by_ne (o : Op) (s : State) {b d : Bay} (h : d ≠ b) : (freeTaken o s b).by d = s.by d := modBay_by_ne _ _ _ h

theorem freeBanks_works (o : Op) (s : State) : Works s (freeBanks o s) := Works.foldl (fun _ _ => modBay_works ..) _ s

theorem freeBanks_keeps (o : Op) (s : State) : Keeps s (freeBanks o s) :=
  Keeps.foldl (fun s b => modBay_keeps s b fun x => modBank_free_mems x _) _ s

theorem freeBanks_ops (o : Op) (s : State) : (freeBanks o s).ops = s.ops := foldl_eq State.ops (f := freeTaken o) (fun _ _ => rfl) _ s

theorem freeBanks_free (o : Op) (s : State) {b : Bay} (hb : b ∈ maskBays o.gset) :
    (((freeBanks o s).by b).bank (takenBank s o b).1).st = .free := by
  obtain ⟨l, h1, h2⟩ := foldl_by_of_mem (f := freeTaken o) (key := id) (fun s x d hd => freeTaken_by_ne o s hd)
    (by rw [List.map_id]; exact maskBays_nodup o.gset) hb s
  rw [id] at h1 h2
  rw [freeBanks_eq, h2, ← takenBank_congr (congrArg BayState.bank0 h1) (congrArg BayState.bank1 h1), freeTaken, modBay_by]
  exact modBank_free ..

theorem freeTaken_port (o : Op) (s : State) (b d : Bay) : ((freeTaken o s b).by d).port = (s.by d).port := by
  rw [freeTaken, modBay_by_cases]
  split
  · next h =>
    subst h
    cases (takenBank s o d).1 <;> rfl
  · rfl

theorem freeBanks_port (o : Op) (s : State) (d : Bay) : ((freeBanks o s).by d).port = (s.by d).port :=
  foldl_eq (fun s : State => (s.by d).port) (f := freeTaken o) (fun s b => freeTaken_port o s b d) _ s

/-! ### What a DRAIN writes -/

/-- The writes of a DRAIN that go out through a bay. -/
def bayWrites (ws : List (Bay × Wr)) (b : Bay) : List Wr := ws.filterMap fun w => if w.1 == b then some w.2 else none

/-- A bay writes its part. -/
def drainBay (o : Op) (ws : List (Bay × Wr)) (s : State) (b : Bay) : State :=
  (issueWrites o.ctx (.op o.ctx o.seq) [b] (outRanges o) (bayWrites ws b) s).1

/-- A fold that counts beside a state is that of the state, and a sum. -/
theorem foldl_count {α : Type} (f : State → α → State) (k : α → Nat) (l : List α) (s : State) (n : Nat) :
    l.foldl (fun (x : State × Nat) a => (f x.1 a, x.2 + k a)) (s, n) = (l.foldl f s, n + (l.map k).sum) := by
  induction l generalizing s n with
  | nil => rfl
  | cons a l ih => rw [List.foldl_cons, ih, List.foldl_cons, List.map_cons, List.sum_cons, Nat.add_assoc]

theorem drainWrites_eq (o : Op) (ws : List (Bay × Wr)) (s : State) : drainWrites o ws s =
    ((maskBays o.gset).foldl (drainBay o ws) s, ((maskBays o.gset).map fun b => flushes [b] (bayWrites ws b)).sum) :=
  (foldl_count (drainBay o ws) (fun b => flushes [b] (bayWrites ws b)) (maskBays o.gset) s 0).trans (by rw [Nat.zero_add])

theorem mem_bayWrites {ws : List (Bay × Wr)} {b : Bay} {x : Wr} : x ∈ bayWrites ws b ↔ (b, x) ∈ ws := by
  simp only [bayWrites, List.mem_filterMap, Option.ite_none_right_eq_some, beq_iff_eq, Option.some.injEq]
  exact ⟨fun ⟨w, hw, hb, hx⟩ => by subst hb; subst hx; exact hw, fun h => ⟨_, h, rfl, rfl⟩⟩

theorem staged_bayWrites (ws : List (Bay × Wr)) (b : Bay) :
    staged (bayWrites ws b) = ws.filterMap fun w => if w.1 == b && !w.2.1 then some w.2.2 else none := by
  rw [staged, bayWrites, List.filterMap_filterMap]
  refine congrArg (fun f => List.filterMap f ws) (funext fun w => ?_)
  by_cases h : w.1 = b <;> cases hw : w.2.1 <;> simp [h, hw]

/-- The bytes that a DRAIN writes to staging, bay by bay. -/
def drainStaged (o : Op) (ws : List (Bay × Wr)) : List (Nat × List Byte) :=
  (maskBays o.gset).flatMap fun b => ws.filterMap fun w => if w.1 == b && !w.2.1 then some w.2.2 else none

theorem drainBay_rest (o : Op) (ws : List (Bay × Wr)) (s : State) (b : Bay) : drainBay o ws s b =
    { writeStaging (staged (bayWrites ws b)) s with bay := (drainBay o ws s b).bay } := issueWrites_rest ..

section
variable (o : Op) (ws : List (Bay × Wr)) (s : State)

/-- The block when the bays have written their parts. -/
def drainPosted : State := (maskBays o.gset).foldl (drainBay o ws) s

theorem drainPosted_staging : (drainPosted o ws s).staging = (writeStaging (drainStaged o ws) s).staging := by
  have h : ∀ (l : List Bay) (s : State), (l.foldl (drainBay o ws) s).staging =
      (l.flatMap fun b => ws.filterMap fun w => if w.1 == b && !w.2.1 then some w.2.2 else none).foldl (fun m w => m.writeN w.1 w.2) s.staging := by
    intro l
    induction l with
    | nil => exact fun s => rfl
    | cons b l ih =>
      intro s
      rw [List.foldl_cons, ih, List.flatMap_cons, List.foldl_append, drainBay_rest, staged_bayWrites]
      rfl
  exact h _ s

theorem drainPosted_still : Still s (drainPosted o ws s) := Still.foldl (fun _ _ => issueWrites_still ..) _ s

theorem drainPosted_sound : Sound s (drainPosted o ws s) := Sound.foldl (fun _ _ => issueWrites_sound ..) _ s

theorem drainPosted_ops : (drainPosted o ws s).ops = s.ops :=
  foldl_eq State.ops (f := drainBay o ws) (fun s b => by rw [drainBay_rest]; rfl) _ s

theorem drainPosted_ctx : (drainPosted o ws s).ctx = s.ctx :=
  foldl_eq State.ctx (f := drainBay o ws) (fun s b => by rw [drainBay_rest]; rfl) _ s

theorem drainPosted_bank (b : Bay) (w : Bool) : ((drainPosted o ws s).by b).bank w = (s.by b).bank w :=
  foldl_eq (fun s : State => (s.by b).bank w) (f := drainBay o ws) (fun s d => issueWrites_bank _ _ [d] _ _ s b w) _ s

theorem drainPosted_asks {b : Bay} (hb : b ∈ maskBays o.gset) : asks ((drainPosted o ws s).by b).port =
    asks (s.by b).port ++ posts s o.ctx (.op o.ctx o.seq) [b] (outRanges o) (bayWrites ws b) b := by
  obtain ⟨l, h1, h2⟩ := foldl_by_of_mem (f := drainBay o ws) (key := id)
    (fun s x d hd => issueWrites_by_of_not_mem (ports := [x]) o.ctx _ _ _ s (by simpa using hd))
    (by rw [List.map_id]; exact maskBays_nodup o.gset) hb s
  have hprot : (l.foldl (drainBay o ws) s).prot = s.prot := foldl_eq State.prot (f := drainBay o ws) (fun s b => by rw [drainBay_rest]; rfl) _ s
  rw [id] at h1 h2
  rw [drainPosted, h2, drainBay, issueWrites_asks, h1, posts_congr hprot]

end

/-- The flushes of a DRAIN. -/
def drainFlushes (o : Op) (ws : List (Bay × Wr)) : Nat := ((maskBays o.gset).map fun b => flushes [b] (bayWrites ws b)).sum

theorem drainFlushes_eq_zero (o : Op) {ws : List (Bay × Wr)} (h : ∀ w ∈ ws, w.2.1 = false) : drainFlushes o ws = 0 := by
  refine List.sum_eq_zero fun n hn => ?_
  obtain ⟨b, -, rfl⟩ := List.mem_map.1 hn
  refine (flushes_eq_zero (List.cons_ne_nil _ _)).2 (wrLines_eq_nil fun x hx => ?_)
  exact h _ (mem_bayWrites.1 hx)

theorem drainFlushes_ne_zero (o : Op) {ws : List (Bay × Wr)} {w : Bay × Wr} (hw : w ∈ ws) (hb : w.1 ∈ maskBays o.gset) (hwin : w.2.1 = true)
    (hbytes : w.2.2.2 ≠ []) : drainFlushes o ws ≠ 0 := fun h => by
  have h0 := List.sum_eq_zero_iff.1 h _ (List.mem_map_of_mem hb)
  exact wrLines_ne_nil (mem_bayWrites.2 hw) hwin hbytes ((flushes_eq_zero (List.cons_ne_nil _ _)).1 h0)

/-! ### The end of a DRAIN -/

/-- The flags of a DRAIN's elements reach its context. -/
def drainFlags (o : Op) (s : State) : State := (runDrain s o).flags.foldl (fun s x => raiseFlags o.ctx x.1 x.2 s) s

theorem drainFlags_works (o : Op) (s : State) : Works s (drainFlags o s) := Works.foldl (fun _ _ => raiseFlags_works ..) _ s

theorem drainFlags_baysKept (o : Op) (s : State) : BaysKept s (drainFlags o s) := BaysKept.foldl (fun _ _ => raiseFlags_baysKept ..) _ s

/-- The block when a DRAIN has read its banks, before its writes. -/
def drainRead (o : Op) (s : State) : State := leaveUnit o (freeBanks o (drainFlags o s))

theorem drainRead_sameTime (o : Op) (s : State) : SameTime s (drainRead o s) :=
  ((drainFlags_works o s).sameTime.trans (freeBanks_works ..).sameTime).trans (leaveUnit_sameTime ..)

theorem leaveUnit_ctx (o : Op) (s : State) : (leaveUnit o s).ctx = s.ctx := by
  unfold leaveUnit
  dsimp only
  split <;> rfl

theorem drainRead_mem {o p : Op} {s : State} (h : p ∈ s.ops) : ∃ p' ∈ (drainRead o s).ops, p.Ran p' := by
  obtain ⟨p', hp, hran⟩ := ((drainFlags_works o s).trans (freeBanks_works ..)).mem h
  exact ⟨p', by rwa [drainRead, (leaveUnit_frame ..).2], hran⟩

theorem drainRead_rstBusy (o : Op) (s : State) (c : Ctx) : ((drainRead o s).cx c).rstBusy = (s.cx c).rstBusy := by
  rw [drainRead, cx_of_ctx (leaveUnit_ctx ..)]
  exact ((drainFlags_works o s).trans (freeBanks_works ..)).rstBusy c

theorem drainRead_free (o : Op) (s : State) {b : Bay} (hb : b ∈ maskBays o.gset) :
    (((drainRead o s).by b).bank (takenBank s o b).1).st = .free := by
  have hf := (drainFlags_baysKept o s).bays b
  rw [drainRead, ((leaveUnit_baysKept ..).bays b).bank, ← takenBank_congr hf.bank0 hf.bank1]
  exact freeBanks_free o _ hb

theorem drainRead_mems (o : Op) (s : State) (b : Bay) : SameBanks (s.by b) ((drainRead o s).by b) := by
  have hf := (drainFlags_baysKept o s).bays b
  have hl := (leaveUnit_baysKept o (freeBanks o (drainFlags o s))).bays b
  obtain ⟨h0, h1⟩ := (freeBanks_keeps o (drainFlags o s)).banks b
  constructor
  · rw [drainRead, hl.bank0, h0, hf.bank0]
  · rw [drainRead, hl.bank1, h1, hf.bank1]

theorem drainRead_port (o : Op) (s : State) (b : Bay) : ((drainRead o s).by b).port = (s.by b).port := by
  rw [drainRead, ((leaveUnit_baysKept ..).bays b).port, freeBanks_port, ((drainFlags_baysKept o s).bays b).port]

/-- A DRAIN with what its record tells of its elements. -/
def drainRecord (o : Op) (s : State) : Op :=
  let k := ((takenBanks s o).head?).map (·.2)
  let r := (k.map (·.r)).getD 0
  { o with opFlags := Flags.union ((runDrain s o).flags.map (·.2)), amax := (runDrain s o).amax, attempt := r,
           replay := (o.replay.1, if r == 0 then o.replay.2 else (k.map (·.e)).getD 0 / r) }

theorem fireWatch_nil {o : Op} (hw : o.watch = []) (kind : Nat) (rows : List (BitVec 64)) (s : State) : fireWatch o kind rows s = s := by
  rw [fireWatch, hw]
  rfl

theorem endDrain_eq {o : Op} (hw : o.watch = []) (s : State) : endDrain o s =
    awaitFlushes (drainRecord o s) (drainFlushes o (runDrain s o).wrs) (drainPosted o (runDrain s o).wrs (drainRead o s)) := by
  have h : endDrain o s = awaitFlushes (drainRecord o s) (drainWrites o (runDrain s o).wrs (drainRead o s)).2
      (drainWrites o (runDrain s o).wrs (drainRead o s)).1 := by
    simp only [endDrain, fireWatch_nil hw]
    rfl
  rw [h, drainWrites_eq]
  rfl

/-- The lehr's operation of a class is under the context and SEQ that it is found under. -/
theorem opIn_is {s : State} {cls : OpClass} {c : Ctx} {q : BitVec 8} {o : Op} (h : s.opIn cls c q = some o) :
    o ∈ s.ops ∧ o.ctx = c ∧ o.seq = q := by
  have hdone : ∀ {p : Op}, s.op? c q = some p → p = o → o ∈ s.ops ∧ o.ctx = c ∧ o.seq = q := by
    rintro p hp rfl
    exact ⟨mem_of_op? hp, (op?_is hp).1, (op?_is hp).2.1⟩
  unfold State.opIn at h
  split at h
  · next p hp =>
    split at h
    · have hf := List.find?_some h
      simp only [Op.under, Bool.and_eq_true, beq_iff_eq] at hf
      exact ⟨List.mem_of_find?_eq_some h, hf.1.1.1, hf.1.1.2⟩
    · exact hdone hp (Option.some.inj h)
  · cases h

end Sys2Proof.Machine

namespace Sys2Proof.Claims

open Sys2Proof Sys2Proof.Machine

theorem drain_runs {c : Ctx} {q : BitVec 8} {s u : State} {o : Op} {d : Delay} (ho : s.opIn .d c q = some o) (hready : opReady s o = true)
    (hclass : opClass o.opc = some .d) (hwf : (Instr.drainComplete c ⟨q, d⟩).wellFormed = true)
    (hu : u = delayLag o d (runSegs o ((0, drainTime s o) :: delaySegs d) s)) (hbanks : drainPoison u o = none)
    (hreads : poisonedIn u (drainReads u o) = none) :
    exec (.drainComplete c ⟨q, d⟩) s = .next (if o.ofLehr then stepDone o (freeBanks o u) else endDrain o u) := by
  show execDrainComplete c ⟨q, d⟩ s = _
  simp only [execDrainComplete, ho, hready, hclass, hwf, beq_self_eq_true, Bool.and_self, if_true, ← hu, hbanks, hreads]
  rfl

section
variable {s u : State} {o : Op} (hwatch : o.watch = []) (hlapsed : Lapsed s u)
include hwatch

theorem endDrain_clk : (endDrain o u).clk = u.clk := by
  rw [endDrain_eq hwatch, (awaitFlushes_still ..).clk, (drainPosted_still ..).clk, (drainRead_sameTime o u).clk]

theorem endDrain_free {b : Bay} (hb : b ∈ maskBays o.gset) : (((endDrain o u).by b).bank (takenBank u o b).1).st = .free := by
  rw [endDrain_eq hwatch]
  refine awaitFlushes_bank_free ?_
  rw [drainPosted_bank]
  exact drainRead_free o u hb

theorem endDrain_mems (b : Bay) : SameBanks (u.by b) ((endDrain o u).by b) := by
  obtain ⟨h0, h1⟩ := drainRead_mems o u b
  obtain ⟨k0, k1⟩ := (awaitFlushes_keeps (drainRecord o u) (drainFlushes o (runDrain u o).wrs)
    (drainPosted o (runDrain u o).wrs (drainRead o u))).banks b
  have hp := drainPosted_bank o (runDrain u o).wrs (drainRead o u) b
  rw [endDrain_eq hwatch]
  exact ⟨k0.trans ((congrArg Bank.mem (hp false)).trans h0), k1.trans ((congrArg Bank.mem (hp true)).trans h1)⟩

include hlapsed

theorem endDrain_sameSetup : SameSetup s (endDrain o u) := by
  have hp := drainPosted_sound o (runDrain u o).wrs (drainRead o u)
  rw [endDrain_eq hwatch]
  exact SameSetup.trans hlapsed.sameSetup (SameSetup.trans (drainRead_sameTime o u).setup
    (SameSetup.trans ⟨hp.prot, hp.build, hp.pending⟩ (awaitFlushes_starts ..).setup))

theorem endDrain_staging : (endDrain o u).staging = (writeStaging (drainStaged o (runDrain u o).wrs) s).staging := by
  rw [endDrain_eq hwatch, (awaitFlushes_keeps ..).staging, drainPosted_staging]
  simp only [writeStaging]
  rw [(drainRead_sameTime o u).staging, hlapsed.staging]

/-- Bytes of staging that no write of a DRAIN covers are as before. -/
theorem endDrain_read (hmem : MemoriesOk s) {a : Nat}
    (ha : ∀ w ∈ (runDrain u o).wrs, w.2.1 = true ∨ a < w.2.2.1 ∨ w.2.2.1 + w.2.2.2.length ≤ a) :
    (endDrain o u).staging.read a = s.staging.read a := by
  rw [endDrain_staging hwatch hlapsed]
  refine foldl_writeN_read_ne _ hmem.1 fun x hx => ?_
  obtain ⟨b, -, hx⟩ := List.mem_flatMap.1 hx
  obtain ⟨w, hw, he⟩ := List.mem_filterMap.1 hx
  split at he
  · next hcond =>
    cases he
    refine (ha w hw).resolve_left fun hwin => ?_
    simp [hwin] at hcond
  · cases he

theorem endDrain_asks {b : Bay} (hb : b ∈ maskBays o.gset) : asks ((endDrain o u).by b).port =
    asks (u.by b).port ++ posts s o.ctx (.op o.ctx o.seq) [b] (outRanges o) (bayWrites (runDrain u o).wrs b) b := by
  have hprot : (drainRead o u).prot = s.prot := (drainRead_sameTime o u).setup.prot.trans hlapsed.prot
  rw [endDrain_eq hwatch, awaitFlushes_port, drainPosted_asks _ _ _ hb, drainRead_port, posts_congr hprot]

theorem endDrain_ends (hclear : Clear s o) (h : ∀ w ∈ (runDrain u o).wrs, w.2.1 = false) : EndsWith s o 0 (endDrain o u) := by
  obtain ⟨hst, hwrs, -, hr⟩ := hclear
  rw [endDrain_eq hwatch, awaitFlushes_done (by rw [drainFlushes_eq_zero o h]; exact hwrs)]
  refine release_endsWith rfl rfl rfl rfl hst ?_
  rw [cx_of_ctx (drainPosted_ctx ..), drainRead_rstBusy, hlapsed.rstBusy, hr]

theorem endDrain_flushes (ho : s.op? o.ctx o.seq = some o) (hclear : Clear s o) {w : Bay × Wr} (hw : w ∈ (runDrain u o).wrs)
    (hb : w.1 ∈ maskBays o.gset) (hwin : w.2.1 = true) (hbytes : w.2.2.2 ≠ []) :
    ∃ p ∈ (endDrain o u).ops, p.ctx = o.ctx ∧ p.seq = o.seq ∧ p.stage = .flushing ∧ 0 < p.wrs ∧ p.status = 0 := by
  have hn := drainFlushes_ne_zero o hw hb hwin hbytes
  obtain ⟨p, hp, hran⟩ := hlapsed.op? ho
  obtain ⟨p', hp', hran'⟩ := drainRead_mem (o := o) (mem_of_op? hp)
  obtain ⟨hctx, hseq, hside⟩ := op?_is ho
  have hi : p'.is (drainRecord o u).ctx (drainRecord o u).seq = true := by
    rw [hran'.is, hran.is]
    simp [Op.is, Op.under, drainRecord, hside]
  rw [endDrain_eq hwatch, awaitFlushes_flushing (by simp only [drainRecord]; omega)]
  refine ⟨_, List.mem_map.2 ⟨p', by rwa [drainPosted_ops], if_pos hi⟩, rfl, rfl, rfl, ?_, hclear.1⟩
  exact Nat.add_pos_right _ (Nat.pos_of_ne_zero hn)

end

/-! ### The drain of a product -/

theorem stepDone_free {o : Op} (s : State) {b : Bay} (hb : b ∈ maskBays o.gset) :
    (((stepDone o (freeBanks o s)).by b).bank (takenBank s o b).1).st = .free := by
  rw [((stepDone_baysKept o (freeBanks o s)).bays b).bank]
  exact freeBanks_free o s hb

/-- The norm of M waits for the SVU when the drain that the lehr runs beside its main operation is over. -/
theorem stepDone_norm {o p : Op} {s : State} (hopc : o.opc = 0x20B) (hside : o.side = true) (hp : p ∈ s.ops) (hran : o.Ran p) :
    ∃ x ∈ (stepDone o s).ops, x.ctx = o.ctx ∧ x.seq = o.seq ∧ x.side = true ∧ x.opc = 0x30B ∧ x.stage = .waiting := by
  have hi : (p.under o.ctx o.seq && p.side == o.side) = true := by simp [Op.under, hran.ctx, hran.seq, hran.side]
  have hm : p ∈ (stepOver o s).ops := by rwa [(stepOver_frame o s).2]
  rw [stepDone_eq, hside, hopc]
  exact ⟨_, List.mem_map.2 ⟨p, hm, if_pos hi⟩, hran.ctx, hran.seq, hran.side.trans hside, rfl, rfl⟩

theorem drainReads_product {o : Op} (hopc : o.opc = 0x20B) (s : State) : drainReads s o = [] := by
  simp [drainReads, hopc]

theorem poisonedIn_nil (s : State) : poisonedIn s [] = none := by
  rw [poisonedIn, List.findSome?_eq_none_iff]
  intro x _
  cases x <;> rfl

/-- Settles O32: a DRAIN ends with `endDrain`, one of the lehr with its step. -/
theorem drainFreesItsBanks : Obligations.DrainFreesItsBanks := by
  constructor
  · intro c q s u o d ho hready hopc hclear hwatch hwf hu hbanks hreads hmem
    obtain ⟨rfl, rfl, -⟩ := op?_is ho
    have hclass : opClass o.opc = some .d := by rw [hopc]; rfl
    have hlehr : o.ofLehr = false := by simp [Op.ofLehr, hopc]
    have hlapsed : Lapsed s u := hu ▸ phase_lapsed ..
    have hkept : BaysKept s u := hu ▸ phase_baysKept ..
    have hrun := drain_runs (opIn_of_class ho hclass) hready hclass hwf hu hbanks hreads
    rw [hlehr] at hrun
    refine ⟨_, hrun, endDrain_clk hwatch, endDrain_sameSetup hwatch hlapsed, fun b hb => ?_, fun b => ?_, endDrain_staging hwatch hlapsed,
      fun a ha => endDrain_read hwatch hlapsed hmem ha, fun b hb => ?_, endDrain_ends hwatch hlapsed hclear,
      fun ⟨w, hw, hb, hwin, hbytes⟩ => endDrain_flushes hwatch hlapsed ho hclear hw hb hwin hbytes⟩
    · rw [← takenBank_congr (hkept.bays b).bank0 (hkept.bays b).bank1]
      exact endDrain_free hwatch hb
    · obtain ⟨h0, h1⟩ := endDrain_mems hwatch (u := u) b
      exact ⟨h0.trans (congrArg Bank.mem (hkept.bays b).bank0), h1.trans (congrArg Bank.mem (hkept.bays b).bank1)⟩
    · rw [← (hkept.bays b).port]
      exact endDrain_asks hwatch hlapsed hb
  · intro c q s u o d ho hready hopc hwf hu hbanks
    obtain ⟨hm, rfl, rfl⟩ := opIn_is ho
    have hclass : opClass o.opc = some .d := by rw [hopc]; rfl
    have hlehr : o.ofLehr = true := by simp [Op.ofLehr, hopc]
    have hlapsed : Lapsed s u := hu ▸ phase_lapsed ..
    have hkept : BaysKept s u := hu ▸ phase_baysKept ..
    have hrun := drain_runs ho hready hclass hwf hu hbanks (by rw [drainReads_product hopc, poisonedIn_nil])
    rw [hlehr] at hrun
    obtain ⟨hset, hstag, hclk⟩ := SameTime.after hlapsed ((freeBanks_works o u).sameTime.trans (stepDone_sameTime o (freeBanks o u)))
    refine ⟨_, hrun, hclk, hset, hstag, fun b hb => ?_, fun hside => ?_⟩
    · rw [← takenBank_congr (hkept.bays b).bank0 (hkept.bays b).bank1]
      exact stepDone_free u hb
    · obtain ⟨p, hp, hran⟩ := hlapsed.mem hm
      exact stepDone_norm hopc hside (by rwa [freeBanks_ops]) hran

end Sys2Proof.Claims
end

section
/-! SUPPORT. The end of an operation with any STATUS, and what has ended staying so when others fail beside it. -/

namespace Sys2Proof.Machine

open Sys2Proof Sys2Proof.Claims

/-! ### An operation that completes -/

/-- A completion leaves alone what `Calm` names once the operation is gone. -/
theorem complete_calm_dropped (o : Op) (s : State) : Calm o.ctx (s.dropOp o.ctx o.seq) (complete o s) := by
  unfold complete
  split
  · exact Calm.of_eq rfl rfl
  · refine Calm.trans ?_ (ifThen_calm (deliver_calm _ _) _)
    refine Calm.trans ?_ (Calm.of_eq (emitOp_ctx _ _ _ _ _) (emitOp_ops _ _ _ _ _))
    refine Calm.trans ?_ (ifThen_calm (memberFault_calm _) _)
    refine Calm.trans ?_ (ifThen_calm (ctxFault_calm _ _ _ _ _) _)
    refine Calm.trans ?_ (Calm.of_eq (endStall_ctx _ _) (endStall_ops _ _))
    exact (forget_calm ..).trans (Calm.of_eq (countOp_ctx _ _) (countOp_ops _ _))

theorem complete_gone {o p : Op} {s : State} (h : p ∈ (complete o s).ops) : ¬(p.ctx = o.ctx ∧ p.seq = o.seq) := by
  have hd := (List.mem_filter.1 ((complete_calm_dropped o s).ops p h)).2
  simpa [Op.under, ← not_and_or] using hd

theorem Calm.mode_of_faulted {c : Ctx} {s t : State} (h : Calm c s t) (hf : (s.cx c).mode = .faulted) : (t.cx c).mode = .faulted := by
  rcases h.head with ⟨hm, -⟩ | ⟨-, hm⟩
  exacts [hm.trans hf, hm]

/-- The block when an operation has left it and been counted, its fault and its record still to come. -/
def counted (o : Op) (s : State) : State := endStall o (countOp o (forget o.ctx o.seq (s.dropOp o.ctx o.seq)))

theorem counted_mode (o : Op) (s : State) (c : Ctx) : ((counted o s).cx c).mode = (s.cx c).mode := by
  rw [counted, cx_of_ctx (endStall_ctx ..), cx_of_ctx (countOp_ctx ..), forget, modCtx_cx_cases]
  split
  · next h => rw [h]; rfl
  · rfl

/-- The block when the fault of an operation, if it has one, has stopped its queues. -/
def faultTaken (o : Op) (s : State) : State :=
  let fatal := o.status != 0 && o.status != 0x15
  emitOp 0x04 o.engine (o.status + 256 * o.opFlags.toNat + 4096 * o.nrep.toNat) o
    (State.ifThen (fatal && o.member) (memberFault o.ctx) (State.ifThen fatal (ctxFault o.ctx o.status o.q o.qidx o.aux) (counted o s)))

theorem complete_eq {o : Op} {s : State} (hr : (s.cx o.ctx).rstBusy = false) : complete o s =
    State.ifThen (o.cmp || o.status != 0 || o.opc == 0x0B) (deliver o.ctx (o.toRec (timebase (faultTaken o s)))) (faultTaken o s) := by
  unfold complete
  rw [hr]
  rfl

theorem faultTaken_mode {o : Op} {s : State} (h0 : o.status ≠ 0) (h15 : o.status ≠ 0x15) (hm : (s.cx o.ctx).mode = .active) :
    ((faultTaken o s).cx o.ctx).mode = .faulted := by
  have hfatal : (o.status != 0 && o.status != 0x15) = true := by simp [h0, h15]
  rw [faultTaken, hfatal, cx_of_ctx (emitOp_ctx ..)]
  exact (ifThen_calm (memberFault_calm o.ctx) _).mode_of_faulted (ctxFault_mode _ _ _ _ _ _ ((counted_mode ..).trans hm))

/-- The record of an operation that completes waits at the collector. -/
theorem complete_record {o : Op} {s : State} (hr : (s.cx o.ctx).rstBusy = false) (h : o.cmp = true ∨ o.status ≠ 0) :
    ∃ t u, { o.toRec t with at_ := u } ∈ ((complete o s).cx o.ctx).recs := by
  have hsend : (o.cmp || o.status != 0 || o.opc == 0x0B) = true := by rcases h with h | h <;> simp [h]
  obtain ⟨u, hu⟩ := deliver_mem o.ctx (o.toRec (timebase (faultTaken o s))) (faultTaken o s)
  rw [complete_eq hr, hsend]
  exact ⟨_, u, hu⟩

/-- An operation `p` that stands for `o` completes with its STATUS. -/
theorem complete_endsWith {r s : State} {o p : Op} (hc : p.ctx = o.ctx) (hq : p.seq = o.seq) (hk : p.opc = o.opc) (hw : p.word = o.word)
    (hr : (s.cx o.ctx).rstBusy = false) (hm : (s.cx o.ctx).mode = (r.cx o.ctx).mode) : EndsWith r o p.status (complete p s) := by
  have hrp : (s.cx p.ctx).rstBusy = false := by rw [hc, hr]
  have hcmp : p.cmp = o.cmp := by rw [Op.cmp, hw, Op.cmp]
  refine ⟨fun x hx => ?_, fun h => ?_, fun h0 h15 ha => ?_⟩
  · rw [← hc, ← hq]
    exact complete_gone hx
  · obtain ⟨t, u, hu⟩ := complete_record hrp (hcmp ▸ h)
    rw [← hc]
    exact ⟨_, hu, hk, rfl⟩
  · have hf : ((faultTaken p s).cx p.ctx).mode = .faulted := faultTaken_mode h0 h15 (by rw [hc, hm, ha])
    rw [complete_eq hrp, ← hc]
    exact (ifThen_calm (deliver_calm p.ctx _) _).mode_of_faulted hf

/-- An operation `p` that stands for `o` ends with its STATUS, its units free. -/
theorem release_endsWith_status {r s : State} {o p : Op} (hc : p.ctx = o.ctx) (hq : p.seq = o.seq) (hk : p.opc = o.opc) (hw : p.word = o.word)
    (hr : (s.cx o.ctx).rstBusy = false) (hm : (s.cx o.ctx).mode = (r.cx o.ctx).mode) : EndsWith r o p.status (release p s) :=
  complete_endsWith hc hq hk hw (by rw [cx_of_ctx (releaseUnits_ctx ..), hr]) (by rw [cx_of_ctx (releaseUnits_ctx ..), hm])

theorem noteLag_mode (o : Op) (s : State) (c : Ctx) : ((noteLag o s).cx c).mode = (s.cx c).mode := by rw [(noteLag_works o s).ctxs c]

/-- The same for an operation of class T. -/
theorem endTruss_endsWith_status {r s : State} {o p : Op} (hc : p.ctx = o.ctx) (hq : p.seq = o.seq) (hk : p.opc = o.opc)
    (hw : p.word = o.word) (hr : (s.cx o.ctx).rstBusy = false) (hm : (s.cx o.ctx).mode = (r.cx o.ctx).mode) :
    EndsWith r o p.status (endTruss p s) :=
  release_endsWith_status hc hq hk hw (((noteLag_works p s).rstBusy o.ctx).trans hr) ((noteLag_mode ..).trans hm)

/-! ### What has ended stays so -/

/-- What has ended in `s` has ended in `t`: no operation is new, records that are no drain path's still wait, stopped queues stand still,
bays out of service stay out, and nothing of the set-up differs. -/
structure Outlives (s t : State) : Prop where
  ops : ∀ p ∈ t.ops, ∃ x ∈ s.ops, x.ctx = p.ctx ∧ x.seq = p.seq
  recs : ∀ c, ∀ r ∈ (s.cx c).recs, r.drain = false → r ∈ (t.cx c).recs
  mode : ∀ c, (s.cx c).mode = .faulted → (t.cx c).mode = .faulted
  oos : ∀ b, (s.by b).oos = true → (t.by b).oos = true
  setup : SameSetup s t

theorem SameSetup.refl (s : State) : SameSetup s s := ⟨rfl, rfl, rfl⟩

theorem Outlives.refl (s : State) : Outlives s s :=
  ⟨fun p hp => ⟨p, hp, rfl, rfl⟩, fun _ _ hr _ => hr, fun _ h => h, fun _ h => h, SameSetup.refl s⟩

theorem Outlives.trans {s t u : State} (h : Outlives s t) (k : Outlives t u) : Outlives s u := by
  refine ⟨fun p hp => ?_, fun c r hr hd => k.recs c r (h.recs c r hr hd) hd, fun c hm => k.mode c (h.mode c hm),
    fun b hb => k.oos b (h.oos b hb), SameSetup.trans h.setup k.setup⟩
  obtain ⟨x, hx, hxc, hxq⟩ := k.ops p hp
  obtain ⟨y, hy, hyc, hyq⟩ := h.ops x hx
  exact ⟨y, hy, hyc.trans hxc, hyq.trans hxq⟩

theorem Outlives.foldl {α : Type} {f : State → α → State} (h : ∀ s x, Outlives s (f s x)) (l : List α) (s : State) :
    Outlives s (l.foldl f s) := by
  induction l generalizing s with
  | nil => exact Outlives.refl s
  | cons x l ih => exact (h s x).trans (ih _)

theorem ifThen_outlives {b : Bool} {f : State → State} (h : ∀ s, Outlives s (f s)) (s : State) : Outlives s (State.ifThen b f s) := by
  cases b
  exacts [Outlives.refl s, h s]

/-- An end that is no drain path's stays one. -/
theorem endsWith_outlives {r s t : State} {o : Op} {k : Nat} (h : EndsWith r o k s)
    (hrec : o.cmp = true ∨ k ≠ 0 → ∃ x ∈ (s.cx o.ctx).recs, x.drain = false ∧ x.opc = o.opc ∧ x.status = k) (hl : Outlives s t) :
    EndsWith r o k t := by
  refine ⟨fun p hp => ?_, fun hk => ?_, fun h0 h15 ha => hl.mode _ (h.stops h0 h15 ha)⟩
  · obtain ⟨x, hx, hxc, hxq⟩ := hl.ops p hp
    rw [← hxc, ← hxq]
    exact h.gone x hx
  · obtain ⟨x, hx, hd, hxk, hxs⟩ := hrec hk
    exact ⟨x, hl.recs _ x hx hd, hxk, hxs⟩

section
variable {s t : State} (hset : SameSetup s t)
include hset

/-- Neither operations nor contexts differ, and no bay returns to service. -/
theorem Outlives.of_bays (ho : t.ops = s.ops) (hc : t.ctx = s.ctx) (hb : ∀ b, (s.by b).oos = true → (t.by b).oos = true) : Outlives s t := by
  have hx := cx_of_ctx hc
  exact ⟨fun p hp => ⟨p, ho ▸ hp, rfl, rfl⟩, fun c r hr _ => by rw [hx]; exact hr, fun c hm => by rw [hx, hm], hb, hset⟩

/-- Neither contexts nor bays differ, and no operation is new. -/
theorem Outlives.of_ops (ho : ∀ p ∈ t.ops, ∃ x ∈ s.ops, x.ctx = p.ctx ∧ x.seq = p.seq) (hc : t.ctx = s.ctx) (hb : t.bay = s.bay) :
    Outlives s t := by
  have hx := cx_of_ctx hc
  exact ⟨ho, fun c r hr _ => by rw [hx]; exact hr, fun c hm => by rw [hx, hm], fun b h => by rw [by_of_bay hb, h], hset⟩

/-- Neither operations nor bays differ, and contexts keep their records and what stopped them. -/
theorem Outlives.of_ctxs (ho : t.ops = s.ops) (hb : t.bay = s.bay)
    (hc : ∀ c, (t.cx c).recs = (s.cx c).recs ∧ ((s.cx c).mode = .faulted → (t.cx c).mode = .faulted)) : Outlives s t :=
  ⟨fun p hp => ⟨p, ho ▸ hp, rfl, rfl⟩, fun c r hr _ => by rw [(hc c).1]; exact hr, fun c => (hc c).2,
    fun b h => by rw [by_of_bay hb, h], hset⟩

end

theorem Traced.outlives {s t : State} (h : Traced s t) : Outlives s t :=
  .of_bays h.works.sameSetup (by rw [h.rest]) (by rw [h.rest]) fun b hb => by rw [h.bays b]; exact hb

theorem modBay_outlives (s : State) (b : Bay) {f : BayState → BayState} (h : ∀ x, x.oos = true → (f x).oos = true) :
    Outlives s (s.modBay b f) := by
  refine .of_bays ⟨rfl, rfl, rfl⟩ rfl rfl fun d hd => ?_
  rw [modBay_by_cases]
  split
  · next e => subst e; exact h _ hd
  · exact hd

/-- A change of every bay that returns none to service. -/
theorem mapBays_outlives {s t : State} {f : BayState → BayState} (h : ∀ x, (f x).oos = x.oos) (hset : SameSetup s t)
    (ho : t.ops = s.ops) (hc : t.ctx = s.ctx) (hb : t.bay = s.bay.map f) : Outlives s t := by
  refine .of_bays hset ho hc fun b hd => ?_
  rw [show t.by b = f (s.by b) by rw [State.by, hb]; exact by_map .., h, hd]

theorem modCtx_outlives (s : State) (c : Ctx) {f : CtxState → CtxState} (hr : ∀ x, (f x).recs = x.recs)
    (hm : ∀ x, x.mode = .faulted → (f x).mode = .faulted) : Outlives s (s.modCtx c f) := by
  refine .of_ctxs ⟨rfl, rfl, rfl⟩ rfl rfl fun d => ?_
  rw [modCtx_cx_cases]
  split
  · next e => subst e; exact ⟨hr _, hm _⟩
  · exact ⟨rfl, id⟩

theorem filterOps_outlives (s : State) (p : Op → Bool) : Outlives s { s with ops := s.ops.filter p } :=
  .of_ops ⟨rfl, rfl, rfl⟩ (fun x hx => ⟨x, (List.mem_filter.1 hx).1, rfl, rfl⟩) rfl rfl

/-- A change of some operations that keeps their names. -/
theorem mapOps_outlives (s : State) (f : Op → Op) (h : ∀ p ∈ s.ops, (f p).ctx = p.ctx ∧ (f p).seq = p.seq) :
    Outlives s { s with ops := s.ops.map f } := by
  refine .of_ops ⟨rfl, rfl, rfl⟩ (fun x hx => ?_) rfl rfl
  obtain ⟨y, hy, rfl⟩ := List.mem_map.1 hx
  exact ⟨y, hy, (h y hy).1.symm, (h y hy).2.symm⟩

theorem report_outlives (code : Nat) (cls : BitVec 3) (ctx typ id : Nat) (s : State) : Outlives s (report code cls ctx typ id s) := by
  rw [report_ras_only]
  exact .of_bays ⟨rfl, rfl, rfl⟩ rfl rfl fun _ h => h

theorem dropOp_outlives (s : State) (c : Ctx) (q : BitVec 8) : Outlives s (s.dropOp c q) := filterOps_outlives s _

theorem forget_outlives (c : Ctx) (q : BitVec 8) (s : State) : Outlives s (forget c q s) := by
  unfold forget
  exact modCtx_outlives s c (fun _ => rfl) fun _ h => h

theorem countOp_outlives (o : Op) (s : State) : Outlives s (countOp o s) := by
  unfold countOp
  split
  · exact Outlives.refl s
  · refine Outlives.trans (t := { s with cnt := { s.cnt with ops := s.cnt.ops + 1, gsel := s.cnt.gsel.map (selOp o) } }) ?_ ?_
    · exact .of_bays ⟨rfl, rfl, rfl⟩ rfl rfl fun _ h => h
    · exact Outlives.foldl (fun s b => modBay_outlives s b (by exact fun _ h => h)) _ _

theorem recordFault_outlives (c : Ctx) (code : Nat) (cls : BitVec 3) (q : QSel) (idx aux : Nat) (s : State) :
    Outlives s (recordFault c code cls q idx aux s) := by
  unfold recordFault
  exact (modCtx_outlives s c (by exact fun _ => rfl) (by exact fun _ h => h)).trans (emit_traced ..).outlives

theorem ctxFault_outlives (c : Ctx) (code : Nat) (q : QSel) (idx aux : Nat) (s : State) : Outlives s (ctxFault c code q idx aux s) := by
  unfold ctxFault
  refine (recordFault_outlives c code tenantFatal q idx aux s).trans (modCtx_outlives _ c (fun x => ?_) fun x hx => ?_)
  · split
    · cases q <;> rfl
    · rfl
  · rw [if_neg (by simp [hx]), hx]

theorem memberFault_outlives (c : Ctx) (s : State) : Outlives s (memberFault c s) := by
  refine ifThen_outlives (fun s => ?_) s
  have h : Outlives s (s.modCtx c fun x => { x with lockWin := none }) := modCtx_outlives s c (fun _ => rfl) fun _ h => h
  refine h.trans ?_
  exact .of_ops ⟨rfl, rfl, rfl⟩ (fun x hx => ⟨x, (List.mem_filter.1 hx).1, rfl, rfl⟩) rfl rfl

/-- A record stays when another one is put among those that wait. -/
theorem mem_insertRec_of_mem {x : Rec} {l : List Rec} (h : x ∈ l) (r : Rec) : x ∈ insertRec r l := by
  induction l with
  | nil => cases h
  | cons z l ih =>
    unfold insertRec
    split
    · exact List.mem_cons_of_mem _ h
    · rcases List.mem_cons.1 h with rfl | h
      · exact List.mem_cons_self
      · exact List.mem_cons_of_mem _ (ih h)

/-- A record that is no drain path's stays when the collector takes another (R166). -/
theorem mem_collect_of_mem {x : Rec} {l : List Rec} (h : x ∈ l) (hx : x.drain = false) (fc t : Nat) (r : Rec) : x ∈ collect fc t r l := by
  unfold collect
  dsimp only
  split
  · exact mem_insertRec_of_mem h _
  · next hd =>
    have hp : Rec.pairs { r with at_ := t } x = false := by simp [Rec.pairs, hd, hx]
    split
    · exact mem_insertRec_of_mem (mem_insertRec_of_mem (List.mem_filter.2 ⟨h, by rw [hp]; rfl⟩) _) _
    · exact mem_insertRec_of_mem h _

theorem deliver_outlives (c : Ctx) (r : Rec) (s : State) : Outlives s (deliver c r s) := by
  refine ⟨fun p hp => ⟨p, hp, rfl, rfl⟩, fun d x hx hd => ?_, fun d hm => (?_ : _ = _).trans hm, fun _ h => h, rfl, rfl, rfl⟩
  · rw [deliver, modCtx_cx_cases]
    split
    · next e => subst e; exact mem_collect_of_mem hx hd ..
    · exact hx
  · rw [deliver, modCtx_cx_cases]
    split
    · next e => subst e; rfl
    · rfl

theorem complete_outlives (o : Op) (s : State) : Outlives s (complete o s) := by
  unfold complete
  split
  · exact dropOp_outlives ..
  · refine Outlives.trans ?_ (ifThen_outlives (deliver_outlives _ _) _)
    refine Outlives.trans ?_ (emitOp_traced _ _ _ _ _).outlives
    refine Outlives.trans ?_ (ifThen_outlives (memberFault_outlives _) _)
    refine Outlives.trans ?_ (ifThen_outlives (ctxFault_outlives _ _ _ _ _) _)
    refine Outlives.trans ?_ (endStall_traced _ _).outlives
    exact ((dropOp_outlives s o.ctx o.seq).trans (forget_outlives ..)).trans (countOp_outlives ..)

theorem releaseUnits_outlives (o : Op) (s : State) : Outlives s (releaseUnits o s) := by
  refine .of_bays (sameSetup_of_keeps (releaseUnits_keeps o s)) (releaseUnits_ops ..) (releaseUnits_ctx ..) fun b hb => ?_
  rw [releaseUnits_by]
  split <;> exact hb

/-- An operation that takes the place of the one of its name keeps the names. -/
theorem modOp_outlives (s : State) {c : Ctx} {q : BitVec 8} {f : Op → Op} (h : ∀ p : Op, p.ctx = c → p.seq = q → (f p).ctx = c ∧ (f p).seq = q) :
    Outlives s (s.modOp c q f) := by
  refine mapOps_outlives s _ fun p _ => ?_
  split
  · next hi =>
    simp only [Op.is, Op.under, Bool.and_eq_true, beq_iff_eq] at hi
    obtain ⟨⟨rfl, rfl⟩, -⟩ := hi
    exact h p rfl rfl
  · exact ⟨rfl, rfl⟩

theorem holdFailed_outlives (o : Op) (s : State) : Outlives s (holdFailed o s) := by
  unfold holdFailed
  refine Outlives.trans ?_ (modOp_outlives _ fun _ _ _ => ⟨rfl, rfl⟩)
  split
  · have h : Outlives (releaseUnits o s) { releaseUnits o s with lehr := s.lehr, ops := s.ops.filter fun p => !(p.under o.ctx o.seq && p.side) } :=
      .of_ops ⟨rfl, rfl, rfl⟩ (fun x hx => ⟨x, by rw [releaseUnits_ops]; exact (List.mem_filter.1 hx).1, rfl, rfl⟩) rfl rfl
    exact (releaseUnits_outlives o s).trans h
  · exact Outlives.refl s

theorem failOp_outlives (o : Op) (code : Nat) (s : State) : Outlives s (failOp o code s) := by
  unfold failOp
  dsimp only
  split
  · exact (releaseUnits_outlives ..).trans (complete_outlives ..)
  · exact holdFailed_outlives ..

/-! ### Bays that leave service -/

theorem releaseChain_outlives (c : Ctx) (id : Nat) (s : State) : Outlives s (releaseChain c id s) := by
  have h : Outlives s (s.modCtx c fun x => { x with chains := x.chains.filter (·.id != id) }) := modCtx_outlives s c (fun _ => rfl) fun _ h => h
  exact h.trans (mapBays_outlives (f := fun x => x.modBanks fun k => if k.st == .filling && k.chain == id then k.free else k) (fun _ => rfl)
    ⟨rfl, rfl, rfl⟩ rfl rfl rfl)

theorem unreserve_outlives (p : Op → Bool) (s : State) : Outlives s (unreserve p s) := by
  have h : Outlives s { s with ops := s.ops.map fun o => if o.stage == .waiting && p o then { o with resv := 0, gset := 0 } else o } :=
    mapOps_outlives s _ fun o _ => by split <;> exact ⟨rfl, rfl⟩
  refine h.trans (.of_bays ⟨rfl, rfl, rfl⟩ rfl rfl fun b hb => ?_)
  rw [State.by, show (unreserve p s).bay = s.bay.map _ from rfl, by_map]
  exact hb

theorem stopShadows_outlives (b : Bay) (s : State) : Outlives s (stopShadows b s) := by
  rw [stopShadows_shadowed b s]
  exact .of_bays ⟨rfl, rfl, rfl⟩ rfl rfl fun _ h => h

theorem lapse_outlives (b : Bay) (s : State) : Outlives s (lapse b s) := by
  refine .of_ctxs ⟨rfl, rfl, rfl⟩ rfl rfl fun c => ?_
  rw [show (lapse b s).cx c = (s.ctx.mapFinIdx _)[c.1] from rfl, Vector.getElem_mapFinIdx]
  split <;> exact ⟨rfl, id⟩

theorem leaveService_outlives (b : Bay) (s : State) : Outlives s (leaveService b s) := by
  unfold leaveService
  refine Outlives.trans ?_ (modBay_outlives _ b fun _ _ => rfl)
  refine Outlives.trans ?_ (ifThen_outlives ?_ _)
  on_goal 2 => exact fun s => .of_bays ⟨rfl, rfl, rfl⟩ rfl rfl fun _ h => h
  refine Outlives.trans ?_ (lapse_outlives ..)
  refine Outlives.trans ?_ (stopShadows_outlives ..)
  refine Outlives.trans ?_ (unreserve_outlives ..)
  exact Outlives.foldl (fun s (k : Bank) => releaseChain_outlives k.ctx k.chain s) _ s

theorem leaveService_oos (b : Bay) (s : State) : ((leaveService b s).by b).oos = true := by
  unfold leaveService
  rw [modBay_by]

theorem bayFatal_outlives (b : Bay) (code : Nat) (s : State) : Outlives s (bayFatal b code s) := by
  refine Outlives.trans (Outlives.foldl (fun s o => ?_) _ s) (leaveService_outlives b _)
  split
  exacts [failOp_outlives .., Outlives.refl s]

theorem bayFatal_oos (b : Bay) (code : Nat) (s : State) : ((bayFatal b code s).by b).oos = true := leaveService_oos b _

end Sys2Proof.Machine
end

section
/-! SUPPORT. Replays of the Truss: what they leave alone, and how an operation goes on after one. -/

namespace Sys2Proof.Machine

open Sys2Proof Sys2Proof.Claims

/-! ### Slots withheld for good -/

theorem endTruss_record {o : Op} {s : State} (hr : (s.cx o.ctx).rstBusy = false) (h : o.cmp = true ∨ o.status ≠ 0) :
    ∃ x ∈ ((endTruss o s).cx o.ctx).recs, x.drain = (opClass o.opc == some .d) ∧ x.opc = o.opc ∧ x.status = o.status := by
  have hr' : ((releaseUnits o (noteLag o s)).cx o.ctx).rstBusy = false := by
    rw [cx_of_ctx (releaseUnits_ctx ..), (noteLag_works o s).rstBusy, hr]
  obtain ⟨t, u, hu⟩ := complete_record hr' h
  exact ⟨_, hu, rfl, rfl, rfl⟩

/-- A bay is reported and leaves service (R272). -/
def failBay (c : Ctx) (s : State) (b : Bay) : State := bayFatal b 0x11 (report 0x11 3 (ctxCode c) 4 b.val s)

theorem failBay_outlives (c : Ctx) (s : State) (b : Bay) : Outlives s (failBay c s b) := (report_outlives ..).trans (bayFatal_outlives ..)

theorem foldl_failBay_oos (c : Ctx) {l : List Bay} {b : Bay} (h : b ∈ l) (s : State) : ((l.foldl (failBay c) s).by b).oos = true := by
  induction l generalizing s with
  | nil => cases h
  | cons d l ih =>
    rcases List.mem_cons.1 h with rfl | h
    · exact (Outlives.foldl (failBay_outlives c) l (failBay c s b)).oos b (bayFatal_oos ..)
    · exact ih h _

theorem persistent_eq (o : Op) (s : State) :
    persistent o s = (o.held.map (·.1)).dedup.foldl (failBay o.ctx) (endTruss { o with status := 0x11 } s) := rfl

theorem persistent_outlives (o : Op) (s : State) : Outlives (endTruss { o with status := 0x11 } s) (persistent o s) :=
  Outlives.foldl (failBay_outlives o.ctx) _ _

theorem persistent_setup (o : Op) (s : State) : SameSetup s (persistent o s) :=
  SameSetup.trans (endTruss_sameTime ..).setup (persistent_outlives o s).setup

theorem persistent_outOfService (o : Op) (s : State) {h : Bay × Nat} (hh : h ∈ o.held) : (persistent o s).inService h.1 = false := by
  have hb : h.1 ∈ (o.held.map (·.1)).dedup := List.mem_dedup.2 (List.mem_map_of_mem hh)
  rw [State.inService, persistent_eq, foldl_failBay_oos o.ctx hb]
  exact Bool.and_false _

/-- An operation `p` of class T that stands for `o` ends with ABFT_PERSISTENT. -/
theorem persistent_endsWith {r s : State} {o p : Op} (hc : p.ctx = o.ctx) (hq : p.seq = o.seq) (hk : p.opc = o.opc) (hw : p.word = o.word)
    (hr : (s.cx o.ctx).rstBusy = false) (hm : (s.cx o.ctx).mode = (r.cx o.ctx).mode) (hclass : opClass o.opc = some .t) :
    EndsWith r o 0x11 (persistent p s) := by
  have he : EndsWith r o 0x11 (endTruss { p with status := 0x11 } s) :=
    endTruss_endsWith_status (p := { p with status := 0x11 }) hc hq hk hw hr hm
  refine endsWith_outlives he (fun _ => ?_) (persistent_outlives p s)
  obtain ⟨x, hx, hd, hxk, hxs⟩ := endTruss_record (o := { p with status := 0x11 }) (s := s) (by rw [hc, hr]) (.inr (by simp))
  have hdrain : x.drain = false := by rw [hd, hk, hclass]; rfl
  exact ⟨x, hc ▸ hx, hdrain, hxk.trans hk, hxs⟩

/-! ### What a replay leaves alone -/

/-- An attempt may have been made again: set-up, staging and the lehr are the same, and contexts but for their faults, flags and counts. -/
structure Retried (s t : State) : Prop where
  setup : SameSetup s t
  staging : t.staging = s.staging
  lehr : t.lehr = s.lehr
  ctxs : ∀ c, SameTenant { s.cx c with fault := (t.cx c).fault } (t.cx c)

theorem Lapsed.retried {s t : State} (h : Lapsed s t) : Retried s t := by
  refine ⟨h.sameSetup, h.staging, h.lehr, fun c => ?_⟩
  have hf := h.fault c
  rw [hf]
  exact h.ctxs c

theorem Works.retried {s t : State} (h : Works s t) : Retried s t := h.toLapsed.retried

theorem Retried.trans {s t u : State} (h : Retried s t) (k : Retried t u) : Retried s u := by
  refine ⟨SameSetup.trans h.setup k.setup, k.staging.trans h.staging, k.lehr.trans h.lehr, fun c => ?_⟩
  have h1 := h.ctxs c
  have h2 := k.ctxs c
  unfold SameTenant at *
  rw [h2, h1]

theorem modOp_retried (s : State) (c : Ctx) (q : BitVec 8) (f : Op → Op) : Retried s (s.modOp c q f) :=
  ⟨⟨rfl, rfl, rfl⟩, rfl, rfl, fun _ => rfl⟩

section
variable {s t : State} (h : Retried s t)
include h

theorem Retried.rstBusy (c : Ctx) : (t.cx c).rstBusy = (s.cx c).rstBusy := by rw [h.ctxs c]

theorem Retried.mode (c : Ctx) : (t.cx c).mode = (s.cx c).mode := by rw [h.ctxs c]

theorem Retried.opRead (o : Op) : opRead t o = opRead s o := by
  have hl : (t.cx o.ctx).lockWin = (s.cx o.ctx).lockWin := by rw [h.ctxs o.ctx]
  have hs : (t.cx o.ctx).sem = (s.cx o.ctx).sem := by rw [h.ctxs o.ctx]
  unfold Machine.opRead bufferedBytes
  rw [hl, hs, h.staging]

end

theorem recordFault_ctx (c : Ctx) (code : Nat) (cls : BitVec 3) (q : QSel) (idx aux : Nat) (s : State) : ∃ f : FaultRec,
    (recordFault c code cls q idx aux s).ctx = (s.modCtx c fun x => { x with fault := f }).ctx := ⟨_, emit_ctx ..⟩

theorem recordFault_retried (c : Ctx) (code : Nat) (cls : BitVec 3) (q : QSel) (idx aux : Nat) (s : State) :
    Retried s (recordFault c code cls q idx aux s) := by
  have hk := recordFault_keeps c code cls q idx aux s
  obtain ⟨f, hf⟩ := recordFault_ctx c code cls q idx aux s
  refine ⟨sameSetup_of_keeps hk, hk.staging, (emit_traced ..).lehr, fun d => ?_⟩
  rw [cx_of_ctx hf, modCtx_cx_cases]
  split
  · next e => rw [e]; rfl
  · rfl

/-! ### An ABFT replay -/

theorem emitReplay_traced (cause : Nat) (o : Op) (s : State) : Traced s (emitReplay cause o s) := by
  unfold emitReplay
  split
  exacts [emit_traced .., Traced.refl s]

/-- The lag of the one bay that alone has withheld slots (R301). -/
def soleLag (o : Op) (s : State) : State :=
  match (o.held.map (·.1)).dedup with
  | [b] => if (maskBays o.gset).length < 2 then s else addLag o b (replayTime o (o.held.map (·.2)).dedup.length) s
  | _ => s

/-- The fault record of an ABFT replay is written. -/
def causeNoted (o : Op) (s : State) : State := recordFault o.ctx o.cause 1 o.q o.qidx 0 s

theorem replayWait_eq (o : Op) (s : State) : replayWait o s =
    soleLag o (at' (phaseEnd (emitReplay o.cause o (causeNoted o s)) o (replayTime o (o.held.map (·.2)).dedup.length))
      (emitReplay o.cause o (causeNoted o s))) := rfl

theorem soleLag_works (o : Op) (s : State) : Works s (soleLag o s) := by
  unfold soleLag
  split
  · split
    exacts [Works.refl s, addLag_works ..]
  · exact Works.refl s

theorem replayWait_lapsed (o : Op) (s : State) : Lapsed (causeNoted o s) (replayWait o s) := by
  rw [replayWait_eq]
  exact ((emitReplay_traced ..).works.toLapsed.trans (at'_passed ..).lapsed).trans (soleLag_works ..).toLapsed

theorem replayWait_retried (o : Op) (s : State) : Retried s (replayWait o s) :=
  (recordFault_retried ..).trans (replayWait_lapsed o s).retried

theorem replayWait_op? {o : Op} {s : State} (ho : s.op? o.ctx o.seq = some o) : ∃ p, (replayWait o s).op? o.ctx o.seq = some p ∧ o.Ran p := by
  refine (replayWait_lapsed o s).op? ?_
  rwa [State.op?, causeNoted, recordFault_ops]

theorem addLag_spares (o : Op) (b : Bay) (k : Nat) (s : State) (d : Bay) : ((addLag o b k s).by d).spares = (s.by d).spares := by
  unfold addLag
  split
  · rfl
  · split
    · rfl
    · rw [by_of_bay (modOf_bay ..), modBay_by_cases]
      split
      · next e => rw [e]
      · rfl

theorem replayWait_spares (o : Op) (s : State) (b : Bay) : ((replayWait o s).by b).spares = (s.by b).spares := by
  have hsole : ∀ u, ((soleLag o u).by b).spares = (u.by b).spares := fun u => by
    unfold soleLag
    split
    · split
      exacts [rfl, addLag_spares ..]
    · rfl
  have hnoted : ((causeNoted o s).by b).spares = (s.by b).spares := by
    rw [causeNoted, recordFault, (emit_traced ..).bays b]
    rfl
  rw [replayWait_eq, hsole, (at'_passed _ _).bays b, (emitReplay_traced ..).bays b]
  exact hnoted

theorem chkBays_replayWait (o p : Op) (s : State) : chkBays (replayWait o s) p = chkBays s p :=
  List.map_congr_left fun b _ => by rw [hasChecksum, replayWait_spares, hasChecksum]

/-! ### PASS and FOLD run again -/

/-- An operation at another count of retries and attempts. -/
def Op.tryNo (retry attempt : Nat) (o : Op) : Op := { o with retry := retry, attempt := attempt }

/-- A replay of `o` has led to the state `v` and left the operation `p` there, at its count of retries and attempts. -/
structure Replayed (s : State) (o : Op) (retry attempt : Nat) (v : State) (p : Op) : Prop where
  retried : Retried s v
  found : v.op? o.ctx o.seq = some p
  ran : (o.tryNo retry attempt).Ran p

/-- An attempt runs some slots of a pass, up to now. -/
def passEnd (o : Op) (slots : Bay → List Nat) (e : Nat) (faults : List SlotFault) (keep : Bool) (s : State) : State :=
  (runPass o slots e faults keep s).modOp o.ctx o.seq fun p => { p with tDue := (runPass o slots e faults keep s).clk }

theorem passEnd_works (o : Op) (slots : Bay → List Nat) (e : Nat) (faults : List SlotFault) (keep : Bool) (s : State) :
    Works s (passEnd o slots e faults keep s) := (runPass_works ..).trans (modOp_works _ _ _ fun _ => rfl)

/-- One more retry is counted. -/
def Op.retryCounted (p : Op) : Op := { p with retry := p.retry + 1 }

theorem replayRun_eq (o : Op) (faults : List SlotFault) (s : State) : replayRun o faults s =
    passEnd o (fun b => (o.held.filter (·.1 == b)).map (·.2)) (o.attempt * o.replay.2) faults (decide (o.retry + 1 = 2))
      ((replayWait o s).modOp o.ctx o.seq Op.retryCounted) := rfl

theorem replayRun_replayed {s : State} {o : Op} (ho : s.op? o.ctx o.seq = some o) (faults : List SlotFault) :
    ∃ p, Replayed s o (o.retry + 1) o.attempt (replayRun o faults s) p := by
  obtain ⟨p, hp, hran⟩ := replayWait_op? ho
  have hcount : (o.tryNo (o.retry + 1) o.attempt).Ran p.retryCounted := by
    rw [hran]
    rfl
  rw [replayRun_eq]
  have hw := passEnd_works o (fun b => (o.held.filter (·.1 == b)).map (·.2)) (o.attempt * o.replay.2) faults (decide (o.retry + 1 = 2))
    ((replayWait o s).modOp o.ctx o.seq Op.retryCounted)
  obtain ⟨x, hx, hr⟩ := hw.op? (modOp_op? (fun _ => rfl) hp)
  exact ⟨x, ((replayWait_retried o s).trans (modOp_retried ..)).trans hw.retried, hx, hcount.trans hr⟩

/-- An operation as its attempt number `n` begins. -/
def Op.anew (n : Nat) (p : Op) : Op := { p with attempt := n, retry := 0, held := [], ovfNow := false, bayFlags := [] }

/-- The block when an overflow replay has taken its time. -/
def overflowWait (o : Op) (s : State) : State :=
  let u := emitReplay 0 o (s.modOp o.ctx o.seq (Op.anew (o.attempt + 1)))
  at' (phaseEnd u o (streamTime s o)) u

theorem overflowWait_lapsed (o : Op) (s : State) : Lapsed (s.modOp o.ctx o.seq (Op.anew (o.attempt + 1))) (overflowWait o s) :=
  (emitReplay_traced ..).works.toLapsed.trans (at'_passed ..).lapsed

theorem overflowRun_eq (o : Op) (faults : List SlotFault) (s : State) : overflowRun o faults s =
    passEnd { o with attempt := o.attempt + 1 } (fun _ => List.range (slotsOf (opRows o) (opRate o))) ((o.attempt + 1) * o.replay.2) faults false
      (overflowWait o s) := rfl

theorem overflowRun_replayed {s : State} {o : Op} (ho : s.op? o.ctx o.seq = some o) (faults : List SlotFault) :
    ∃ p, Replayed s o 0 (o.attempt + 1) (overflowRun o faults s) p := by
  have hl : Lapsed (s.modOp o.ctx o.seq (Op.anew (o.attempt + 1))) (overflowRun o faults s) := by
    rw [overflowRun_eq]
    exact (overflowWait_lapsed o s).trans (passEnd_works ..).toLapsed
  obtain ⟨x, hx, hr⟩ := hl.op? (modOp_op? (fun _ => rfl) ho)
  have hanew : (o.tryNo 0 (o.attempt + 1)).Ran (o.anew (o.attempt + 1)) := rfl
  exact ⟨x, (modOp_retried ..).trans hl.retried, hx, hanew.trans hr⟩

/-! ### The end after a replay -/

/-- A pass whose attempts are over, with a STATUS. -/
def Op.settledAs (k : Nat) (o : Op) : Op := { o with opFlags := Flags.union (o.bayFlags.map (·.2)), status := k }

/-- The tile of a pass that ends with a STATUS is closed. -/
def tileClosed (k : Nat) (p : Op) (v : State) : State := closeTile (p.settledAs k) (keepFlags p v)

theorem tileClosed_setup (k : Nat) (p : Op) (v : State) : SameSetup v (tileClosed k p v) :=
  SameSetup.trans (keepFlags_works p v).sameSetup (closeTile_sameTime ..).setup

theorem tileClosed_lehr (k : Nat) (p : Op) (v : State) : (tileClosed k p v).lehr = v.lehr := (closeTile_lehr ..).trans (keepFlags_works p v).lehr

theorem tileClosed_rstBusy (k : Nat) (p : Op) (v : State) (c : Ctx) : ((tileClosed k p v).cx c).rstBusy = (v.cx c).rstBusy :=
  (closeTile_rstBusy ..).trans ((keepFlags_works p v).rstBusy c)

theorem closeTile_mode (o : Op) (s : State) (c : Ctx) : ((closeTile o s).cx c).mode = (s.cx c).mode := by
  have hb : ((closeBays o s).cx c).mode = (s.cx c).mode := by rw [(closeBays_works o s).ctxs c]
  cases h : o.last with
  | false => rw [closeTile_of_more h]
  | true =>
    rw [closeTile_of_last h, modCtx_cx_cases]
    split
    · next e => subst e; exact hb
    · exact hb

theorem tileClosed_mode (k : Nat) (p : Op) (v : State) (c : Ctx) : ((tileClosed k p v).cx c).mode = (v.cx c).mode :=
  (closeTile_mode ..).trans (by rw [(keepFlags_works p v).ctxs c])

/-- The tile stays closed in a state that keeps the banks. -/
theorem tileClosed_closed (k : Nat) (p : Op) {v t : State} (h : BaysKept (tileClosed k p v) t) : Closed v p t := by
  obtain ⟨hswap, hlast, hmore, hothers⟩ := closed_of_kept (closeTile_closed (p.settledAs k) (keepFlags p v)) (keepFlags_baysKept p v) h
  exact ⟨hswap, hlast, hmore, hothers⟩

section
variable {c : Ctx} {q : BitVec 8} {s : State} {p : Op} (hp : s.op? c q = some p) (hr : (s.cx c).rstBusy = false)
  (ha : needsAbft p = false) (hov : needsOverflow s p = false)
include hp hr ha hov

theorem settle_persists (hheld : p.held ≠ []) : settle c q s = persistent (p.settledAs 0x11) (tileClosed 0x11 p s) := by
  have hh : p.held.isEmpty = false := by simpa using hheld
  simp only [settle, hp, hr, ha, hov, hh, Bool.not_false, Bool.or_self, Bool.false_eq_true, if_false, if_true]
  rfl

theorem settle_exhausted (hheld : p.held = []) (hex : (p.ovfNow && replayable s p) = true) :
    settle c q s = endTruss (p.settledAs 0x15) (recordFault c 0x15 1 p.q p.qidx 0 (tileClosed 0x15 p s)) := by
  have hh : p.held.isEmpty = true := by rw [hheld]; rfl
  have hex' : (p.ovfNow && replayable (keepFlags p s) p) = true := by rw [replayable_keepFlags, hex]
  simp only [settle, hp, hr, ha, hov, hh, hex', Bool.not_true, Bool.or_self, Bool.false_eq_true, if_false, if_true]
  rfl

end

section
variable {s v : State} {o p : Op} {n m : Nat} (h : Replayed s o n m v p)
include h

theorem Replayed.alone (halone : Alone s o) : Alone v p := by
  intro j hj
  rw [h.ran.ctx, h.ran.seq]
  exact halone j (h.retried.lehr.symm.trans hj)

/-- Every way on from a replay keeps the set-up, and is the one that AfterReplay names. -/
theorem Replayed.goesOn (hr : (s.cx o.ctx).rstBusy = false) (hopc : o.opc = 0x03 ∨ o.opc = 0x06) (halone : Alone s o) :
    SameSetup s (settle o.ctx o.seq v) ∧ AfterReplay s o v p (settle o.ctx o.seq v) := by
  have hrv : (v.cx o.ctx).rstBusy = false := (h.retried.rstBusy _).trans hr
  have hctx : p.ctx = o.ctx := h.ran.ctx
  have hset := h.retried.setup
  have hal := h.alone halone
  unfold AfterReplay
  by_cases hn : needsAbft p = true ∨ needsOverflow v p = true
  · rw [if_pos hn, settle_waits h.found hrv hn]
    exact ⟨SameSetup.trans hset (waiting_sameTime ..).setup, rfl⟩
  rw [if_neg hn]
  obtain ⟨ha, hov⟩ : needsAbft p = false ∧ needsOverflow v p = false := by simpa using hn
  by_cases hheld : p.held = []
  · rw [if_neg (not_not.2 hheld)]
    by_cases hex : (p.ovfNow && replayable v p) = true
    · have hcode : p.ovfNow = true ∧ replayable v p = true := by simpa using hex
      have hrec := recordFault_retried o.ctx 0x15 1 p.q p.qidx 0 (tileClosed 0x15 p v)
      rw [settle_exhausted h.found hrv ha hov hheld hex, if_pos hcode]
      refine ⟨SameSetup.trans hset (SameSetup.trans (tileClosed_setup ..) (SameSetup.trans hrec.setup (endTruss_sameTime ..).setup)), ?_, ?_⟩
      · refine endTruss_endsWith_status (p := p.settledAs 0x15) hctx h.ran.seq h.ran.opc h.ran.word ?_ ?_
        · rw [hrec.rstBusy, tileClosed_rstBusy, hrv]
        · rw [hrec.mode, tileClosed_mode, h.retried.mode]
      · refine tileClosed_closed 0x15 p ((recordFault_baysKept ..).trans (endTruss_baysKept (o := p.settledAs 0x15) fun j hj => ?_))
        exact hal j (((hrec.lehr.trans (tileClosed_lehr ..)).symm).trans hj)
    · have hcode : ¬(p.ovfNow = true ∧ replayable v p = true) := by simpa using hex
      rw [settle_ends h.found hrv hheld hov (Bool.eq_false_iff.2 hex), if_neg hcode]
      refine ⟨SameSetup.trans hset (tileEnd_sameTime ..).setup, ?_, tileEnd_closed hal⟩
      exact endTruss_endsWith hctx h.ran.seq h.ran.opc h.ran.word rfl ((tileEnd_rstBusy ..).trans hrv)
  · rw [if_pos hheld, settle_persists h.found hrv ha hov hheld]
    refine ⟨SameSetup.trans hset (SameSetup.trans (tileClosed_setup ..) (persistent_setup ..)), ?_, fun x hx => persistent_outOfService _ _ hx⟩
    refine persistent_endsWith (p := p.settledAs 0x11) hctx h.ran.seq h.ran.opc h.ran.word ?_ ?_ ?_
    · rw [tileClosed_rstBusy, hrv]
    · rw [tileClosed_mode, h.retried.mode]
    · rcases hopc with h | h <;> rw [h] <;> rfl

end

end Sys2Proof.Machine
end

section
/-! Settles the statement about replays. -/

namespace Sys2Proof.Machine

open Sys2Proof Sys2Proof.Claims

/-! ### The passes of a ROUGH or a product run again -/

/-- An operation `p` that is `o` further on, after an attempt that counts `k` retries. -/
theorem tryNo_ran_tried {o p : Op} (h : o.Ran p) (n k : Nat) (r : InnerRun) (t : Nat) : (o.tryNo k o.attempt).Ran (p.tried n k r t) := by
  rw [h]
  rfl

/-- The attempt that an ABFT replay of a pass makes. -/
def replayAttempt (o : Op) (faults : List SlotFault) (s : State) : InnerRun :=
  (opInner s o).attempt (chkBays s o) o.pass (fun b => (o.held.filter (·.1 == b)).map (·.2)) faults (decide (o.retry + 1 = 2)) o.patch

theorem replayAttempt_replayWait (o : Op) (faults : List SlotFault) (s : State) :
    replayAttempt o faults (replayWait o s) = replayAttempt o faults s := by
  have h := replayWait_retried o s
  rw [replayAttempt, opInner_congr (h.opRead o) h.lehr, chkBays_replayWait, replayAttempt]

/-- The pass that an operation is at after an attempt: the next one when no slot is withheld. -/
def passAfter (o : Op) (r : InnerRun) : Nat := if r.held.isEmpty then o.pass + 1 else o.pass

theorem innerReplay_reached {s : State} {o : Op} (ho : s.op? o.ctx o.seq = some o) (hside : o.side = false) {faults : List SlotFault} {r : InnerRun}
    (hr : r = replayAttempt o faults s) :
    ∃ v p, innerReplay o faults (replayWait o s) = settleInner o v ∧ Retried s v ∧
      Reached s (o.tryNo (o.retry + 1) o.attempt) (passAfter o r) r v p := by
  subst hr
  have hwait := replayWait_retried o s
  let seen := faults.filter fun f => o.held.any fun h => h.1 == f.bay && o.pass * (opInner (replayWait o s) o).slots + h.2 == f.slot
  let w := noteInner o seen (replayAttempt o faults s) (replayWait o s)
  have hw : Works (replayWait o s) w := noteInner_works ..
  obtain ⟨x, hx, hran⟩ := replayWait_op? ho
  obtain ⟨p, hp, hran'⟩ := hw.op? hx
  have hret : Retried s w := hwait.trans hw.retried
  refine ⟨keepInner o (passAfter o (replayAttempt o faults s)) (o.retry + 1) (replayAttempt o faults s) w,
    p.tried (passAfter o (replayAttempt o faults s)) (o.retry + 1) (replayAttempt o faults s) w.clk, ?_, ?_⟩
  · have h : innerReplay o faults (replayWait o s) = settleInner o (keepInner o (passAfter o (replayAttempt o faults (replayWait o s)))
        (o.retry + 1) (replayAttempt o faults (replayWait o s)) (noteInner o seen (replayAttempt o faults (replayWait o s)) (replayWait o s))) := rfl
    rw [h, replayAttempt_replayWait]
  · rw [keepInner_eq hside]
    exact ⟨hret.trans (modOp_retried ..), ⟨hret.setup.prot, hret.setup.build, hret.setup.pending⟩, hret.staging, hret.lehr,
      hret.rstBusy _, hret.opRead o, modOp_op? (fun _ => rfl) hp, tryNo_ran_tried (hran.trans hran') .., rfl, rfl, rfl, rfl⟩

theorem settleInner_persists {o p : Op} {s : State} (hp : s.opOf o = some p) (hr : (s.cx p.ctx).rstBusy = false)
    (hn : needsAbft p = false) (hh : p.held ≠ []) : settleInner o s = persistent p s := by
  have he : p.held.isEmpty = false := by simpa using hh
  simp only [settleInner, hp, hr, hn, he, Bool.not_false, Bool.false_eq_true, if_false, if_true]

/-- An operation whose next pass begins at time `t`. -/
def Op.nextPass (t : Nat) (p : Op) : Op := { p with why := 0, streamed := false, retry := 0, tFirst := t, ran := 0 }

theorem settleInner_next {o p : Op} {s : State} (hp : s.opOf o = some p) (hr : (s.cx p.ctx).rstBusy = false) (hh : p.held = [])
    (hd : p.pass < (opInner s p).passes) : settleInner o s = s.modOf p (Op.nextPass s.clk) := by
  have hn : needsAbft p = false := by simp [needsAbft, hh]
  have he : p.held.isEmpty = true := by rw [hh]; rfl
  simp only [settleInner, hp, hr, hn, he, hd, Bool.not_true, Bool.false_eq_true, if_false, if_true]
  rfl

section
variable {s v : State} {o p : Op} {r : InnerRun} (h : Reached s (o.tryNo (o.retry + 1) o.attempt) (passAfter o r) r v p)
  (hside : o.side = false) (hr : (s.cx o.ctx).rstBusy = false)
include h

theorem Reached.retry_eq : p.retry = o.retry + 1 := h.ran.retry

theorem Reached.opInner_eq : opInner v p = opInner s o :=
  (h.ran.opInner v).trans ((opInner_congr h.reads h.lehr).trans rfl)

theorem Reached.pass_of_none (hh : r.held = []) : p.pass = o.pass + 1 := by simp [h.outcome.1, passAfter, hh]

theorem Reached.pass_of_held (hh : r.held ≠ []) : p.pass = o.pass := by simp [h.outcome.1, passAfter, hh]

include hside hr

/-- Slots withheld after the first retry: another replay follows. -/
theorem settleInner_again (hh : r.held ≠ []) (h0 : o.retry = 0) :
    settleInner o v = v.modOp o.ctx o.seq fun x => { x with why := 9, tFirst := v.clk, ran := 0 } := by
  have hn : needsAbft p = true := by simp [needsAbft, h.outcome.2.2.1, h.outcome.2.2.2, hh, h.retry_eq, h0]
  have hw : settleInner o v = _ := settleInner_waits (h.opOf hside) (h.rstBusy hr) hn
  rw [hw, modOf_eq_modOp (h.ran.side.trans hside), h.ran.ctx, h.ran.seq]
  rfl

/-- Slots withheld after the second: the operation ends. -/
theorem settleInner_givesUp (hh : r.held ≠ []) (h1 : o.retry = 1) : settleInner o v = persistent p v := by
  have hn : needsAbft p = false := by simp [needsAbft, h.retry_eq, h1]
  exact settleInner_persists (h.opOf hside) (h.rstBusy hr) hn (by rw [h.outcome.2.2.1]; exact hh)

theorem settleInner_goesOn (hh : r.held = []) (hlt : o.pass + 1 < (opInner s o).passes) :
    settleInner o v = v.modOp o.ctx o.seq (Op.nextPass v.clk) := by
  have hn : settleInner o v = _ := settleInner_next (h.opOf hside) (h.rstBusy hr) (h.outcome.2.2.1.trans hh)
    (by rw [h.opInner_eq, h.pass_of_none hh]; exact hlt)
  rw [hn, modOf_eq_modOp (h.ran.side.trans hside), h.ran.ctx, h.ran.seq]
  rfl

theorem settleInner_over (hh : r.held = []) (hle : (opInner s o).passes ≤ o.pass + 1) :
    settleInner o v = if o.opc == 0x10B then endProduct p v else endRough p v := by
  have hn : settleInner o v = _ := settleInner_ends (h.opOf hside) (h.rstBusy hr) (h.outcome.2.2.1.trans hh)
    (by rw [h.opInner_eq, h.pass_of_none hh]; omega)
  rw [hn, h.ran.opc]
  rfl

theorem innerReplay_setup (h2 : o.retry < 2) : SameSetup s (settleInner o v) := by
  refine SameSetup.trans h.setup ?_
  by_cases hh : r.held = []
  · by_cases hlt : o.pass + 1 < (opInner s o).passes
    · rw [settleInner_goesOn h hside hr hh hlt]
      exact ⟨rfl, rfl, rfl⟩
    · rw [settleInner_over h hside hr hh (by omega)]
      split
      exacts [(endProduct_sameTime ..).setup, (endRough_sameTime ..).setup]
  · by_cases h0 : o.retry = 0
    · rw [settleInner_again h hside hr hh h0]
      exact ⟨rfl, rfl, rfl⟩
    · rw [settleInner_givesUp h hside hr hh (by omega)]
      exact persistent_setup ..

theorem innerReplay_again (hh : r.held ≠ []) (h0 : o.retry = 0) : ∃ x ∈ (settleInner o v).ops, x.ctx = o.ctx ∧ x.seq = o.seq ∧ x.opc = o.opc ∧
    x.retry = 1 ∧ x.pass = o.pass ∧ x.held = r.held ∧ x.patch = r.patch ∧ x.why = 9 := by
  obtain ⟨-, hpatch, hheld, -⟩ := h.outcome
  have hretry : p.retry = 1 := by rw [h.retry_eq, h0]
  rw [settleInner_again h hside hr hh h0]
  exact ⟨_, mem_of_op? (modOp_op? (fun _ => rfl) h.found), h.ran.ctx, h.ran.seq, h.ran.opc, hretry, h.pass_of_held hh, hheld, hpatch, rfl⟩

theorem innerReplay_next (hh : r.held = []) (hlt : o.pass + 1 < (opInner s o).passes) : ∃ x ∈ (settleInner o v).ops, x.ctx = o.ctx ∧
    x.seq = o.seq ∧ x.opc = o.opc ∧ x.streamed = false ∧ x.retry = 0 ∧ x.pass = o.pass + 1 ∧ x.patch = r.patch ∧ x.held = [] := by
  obtain ⟨-, hpatch, hheld, -⟩ := h.outcome
  rw [settleInner_goesOn h hside hr hh hlt]
  exact ⟨_, mem_of_op? (modOp_op? (fun _ => rfl) h.found), h.ran.ctx, h.ran.seq, h.ran.opc, rfl, rfl, h.pass_of_none hh, hpatch, hheld.trans hh⟩

theorem innerReplay_over (hst : o.status = 0) (hh : r.held = []) (hle : (opInner s o).passes ≤ o.pass + 1) (hopc : o.opc = 0x0C) :
    EndsWith s o 0 (settleInner o v) ∧ ((settleInner o v).cx o.ctx).rough = some (runRough s { o with patch := r.patch }) := by
  have hend : settleInner o v = endRough p v := by simp [settleInner_over h hside hr hh hle, hopc]
  obtain ⟨hgone, hrec, hstop⟩ : EndsWith s (o.tryNo (o.retry + 1) o.attempt) 0 (endRough p v) :=
    endRough_endsWith h.ran (h.ran.status.trans hst) (h.rst.trans hr)
  have hrough : ((endRough p v).cx p.ctx).rough = some (runRough s { o with patch := r.patch }) :=
    (endRough_rough p v).trans (congrArg some h.rough)
  rw [hend]
  exact ⟨⟨hgone, hrec, hstop⟩, h.ran.ctx ▸ hrough⟩

theorem innerReplay_givesUp (hret : Retried s v) (hh : r.held ≠ []) (h1 : o.retry = 1) (hopc : o.opc = 0x0C) :
    EndsWith s o 0x11 (settleInner o v) ∧ ∀ x ∈ r.held, (settleInner o v).inService x.1 = false := by
  rw [settleInner_givesUp h hside hr hh h1, ← h.outcome.2.2.1]
  refine ⟨?_, fun x hx => persistent_outOfService _ _ hx⟩
  exact persistent_endsWith h.ran.ctx h.ran.seq h.ran.opc h.ran.word (h.rst.trans hr) (hret.mode _) (by rw [hopc]; rfl)

end

end Sys2Proof.Machine

namespace Sys2Proof.Claims

open Sys2Proof Sys2Proof.Machine

theorem needsOverflow_opc {s : State} {o : Op} (h : needsOverflow s o = true) : o.opc = 0x03 ∨ o.opc = 0x06 := by
  simp only [needsOverflow, replayable, Bool.and_eq_true, Bool.or_eq_true, beq_iff_eq] at h
  tauto

theorem abftReplay_runs {c : Ctx} {q : BitVec 8} {s : State} {o : Op} {faults : List SlotFault} (ho : s.op? c q = some o)
    (hready : opReady s o = true) (hneeds : needsAbft o = true) (hwf : (Instr.abftReplay c q faults).wellFormed = true)
    (hpoison : trussPoison s o = none) (hclass : opClass o.opc = some .t) :
    exec (.abftReplay c q faults) s = .next (abftReplay o faults s) := by
  show execAbftReplay c q faults s = _
  simp only [execAbftReplay, opIn_of_class ho hclass, hneeds, hready, hwf, hpoison, Bool.and_self, if_true]

theorem overflowReplay_runs {c : Ctx} {q : BitVec 8} {s : State} {o : Op} {faults : List SlotFault} (ho : s.op? c q = some o)
    (hready : opReady s o = true) (hneeds : needsOverflow s o = true) (hwf : (Instr.overflowReplay c q faults).wellFormed = true)
    (hpoison : trussPoison s o = none) : exec (.overflowReplay c q faults) s = .next (overflowReplay o faults s) := by
  show execOverflowReplay c q faults s = _
  simp only [execOverflowReplay, ho, hneeds, hready, hwf, hpoison, Bool.and_self, if_true]

/-- Settles O31: a replay leaves an operation at its next count, and `settle` or `settleInner` takes it on from there. -/
theorem replayRunsAgain : Obligations.ReplayRunsAgain := by
  intro c q s o faults ho hready hclear hpoison
  obtain ⟨rfl, rfl, hside⟩ := op?_is ho
  obtain ⟨hst, -, -, hr⟩ := hclear
  refine ⟨fun hneeds hwf hopc halone => ?_, fun hneeds hwf halone => ?_, fun hneeds hwf hopc x r hx hrun => ?_⟩
  · obtain ⟨p, h⟩ := replayRun_replayed ho faults
    obtain ⟨hset, hafter⟩ := h.goesOn hr hopc halone
    have hclass : opClass o.opc = some .t := by rcases hopc with h | h <;> rw [h] <;> rfl
    have hplain : abftReplay o faults s = settle o.ctx o.seq (replayRun o faults s) := by rcases hopc with h | h <;> simp [abftReplay, h]
    exact ⟨_, p, hplain ▸ abftReplay_runs ho hready hneeds hwf hpoison hclass, hset, h.found, h.ran.retry, h.ran.attempt, hafter⟩
  · obtain ⟨p, h⟩ := overflowRun_replayed ho faults
    obtain ⟨hset, hafter⟩ := h.goesOn hr (needsOverflow_opc hneeds) halone
    exact ⟨_, p, overflowReplay_runs ho hready hneeds hwf hpoison, hset, h.found, h.ran.retry, h.ran.attempt, hafter⟩
  · subst hx
    have hclass : opClass o.opc = some .t := by rcases hopc with h | h <;> rw [h] <;> rfl
    have hinner : abftReplay o faults s = innerReplay o faults (replayWait o s) := by rcases hopc with h | h <;> simp [abftReplay, h]
    have h2 : o.retry < 2 := by simp [needsAbft] at hneeds; omega
    obtain ⟨v, p, hv, hret, h⟩ := innerReplay_reached ho hside hrun
    refine ⟨_, abftReplay_runs ho hready hneeds hwf hpoison hclass, ?_⟩
    rw [hinner, hv]
    exact ⟨innerReplay_setup h hside hr h2, innerReplay_again h hside hr, innerReplay_givesUp h hside hr hret, innerReplay_next h hside hr,
      innerReplay_over h hside hr hst⟩

end Sys2Proof.Claims
end

section
/-! SUPPORT. Dense views of whole bytes: what they write to staging is what is read back from there (R53). -/

namespace Sys2Proof.Machine

open Sys2Proof Sys2Proof.Claims

/-! ### Bytes of numbers -/

theorem leBytes_eq_map (n v : Nat) : leBytes n v = (List.range n).map fun i => BitVec.ofNat 8 (v >>> (8 * i)) := by
  induction n generalizing v with
  | zero => rfl
  | succ n ih =>
    rw [leBytes, ih, List.range_succ_eq_map, List.map_cons, List.map_map]
    refine congrArg₂ _ rfl (List.map_congr_left fun i _ => ?_)
    rw [← Nat.shiftRight_add]
    exact congrArg _ (congrArg _ (by rw [Nat.succ_eq_add_one]; ring))

theorem leBytes_length (n v : Nat) : (leBytes n v).length = n := by simp [leBytes_eq_map]

theorem leBytes_getElem {n v k : Nat} (h : k < (leBytes n v).length) : (leBytes n v)[k] = BitVec.ofNat 8 (v >>> (8 * k)) := by
  simp [leBytes_eq_map]

theorem leNat_leBytes (n v : Nat) : leNat (leBytes n v) = v % 2 ^ (8 * n) := by
  induction n generalizing v with
  | zero => simp [leBytes, leNat, Nat.mod_one]
  | succ n ih =>
    have hb : (BitVec.ofNat 8 v).toNat = v % 256 := rfl
    have h : leNat (leBytes (n + 1) v) = (BitVec.ofNat 8 v).toNat + 256 * leNat (leBytes n (v >>> 8)) := rfl
    rw [h, ih, hb, Nat.shiftRight_eq_div_pow, show 8 * (n + 1) = 8 + 8 * n by ring, Nat.pow_add]
    exact (Nat.mod_mul (x := v) (a := 2 ^ 8)).symm

/-- Codes of `w` bits one behind the other, the first lowest. -/
def packCodes (w : Nat) (codes : List Nat) : Nat := codes.foldr (fun c x => c % 2 ^ w + 2 ^ w * x) 0

theorem packCodes_shiftRight (w : Nat) {codes : List Nat} {j : Nat} (h : j < codes.length) :
    (packCodes w codes >>> (w * j)) % 2 ^ w = codes[j] % 2 ^ w := by
  have hcons : ∀ c l, packCodes w (c :: l) = c % 2 ^ w + 2 ^ w * packCodes w l := fun _ _ => rfl
  induction codes generalizing j with
  | nil => cases h
  | cons c l ih =>
    cases j with
    | zero => simp [hcons]
    | succ j =>
      have hlow : packCodes w (c :: l) >>> w = packCodes w l := by
        rw [hcons, Nat.shiftRight_eq_div_pow, Nat.add_mul_div_left _ _ (Nat.two_pow_pos w), Nat.div_eq_of_lt (Nat.mod_lt _ (Nat.two_pow_pos w)),
          Nat.zero_add]
      rw [show w * (j + 1) = w + w * j by ring, Nat.shiftRight_add, hlow]
      exact ih (Nat.lt_of_succ_lt_succ h)

/-! ### Bytes of staging -/

theorem writeN_cons (m : Mem) (a : Nat) (x : Byte) (l : List Byte) : m.writeN a (x :: l) = (m.write a x).writeN (a + 1) l := by
  have h : (l.zipIdx 1).map (fun y => (a + y.2, y.1)) = l.zipIdx.map fun y => (a + 1 + y.2, y.1) := by
    rw [List.zipIdx_succ, List.map_map]
    refine List.map_congr_left fun y _ => ?_
    simp only [Function.comp_apply, Prod.mk.injEq, and_true]
    omega
  rw [Mem.writeN, Mem.writeN, List.zipIdx_cons, List.map_cons, ← h]
  rfl

/-- Written bytes are read back. -/
theorem read_writeN (l : List Byte) {m : Mem} (hm : m.wf) (a : Nat) {k : Nat} (hk : k < l.length) : (m.writeN a l).read (a + k) = l[k] := by
  induction l generalizing m a k with
  | nil => cases hk
  | cons x l ih =>
    rw [writeN_cons]
    cases k with
    | zero =>
      rw [Mem.read_writeN_ne _ _ (Mem.write_wf _ _ hm) _ (.inl (by omega)), Mem.read_write hm]
      exact if_pos rfl
    | succ k =>
      rw [show a + (k + 1) = a + 1 + k by ring]
      exact ih (Mem.write_wf _ _ hm) (a + 1) (Nat.lt_of_succ_lt_succ hk)

/-- The memory after some writes, one after the other. -/
def writesOf (m : Mem) (ws : List (Nat × List Byte)) : Mem := ws.foldl (fun m w => m.writeN w.1 w.2) m

/-- Bytes that no later write touches are read back. -/
theorem read_writesOf {m : Mem} (hm : m.wf) {ws : List (Nat × List Byte)} {i k : Nat} (hi : i < ws.length) (hk : k < ws[i].2.length)
    (hlater : ∀ i', (h : i' < ws.length) → i < i' → ws[i].1 + k < ws[i'].1) : (writesOf m ws).read (ws[i].1 + k) = ws[i].2[k] := by
  have hsplit : ws = ws.take i ++ ws[i] :: ws.drop (i + 1) := by simp
  have hfold : writesOf m ws = writesOf ((writesOf m (ws.take i)).writeN ws[i].1 ws[i].2) (ws.drop (i + 1)) := by
    conv_lhs => rw [hsplit, writesOf, List.foldl_append, List.foldl_cons]
    rfl
  have hwf : (writesOf m (ws.take i)).wf := foldl_writeN_wf _ hm
  rw [hfold, writesOf, foldl_writeN_read_ne _ (Mem.writeN_wf _ _ hwf) fun w hw => ?_]
  · exact read_writeN _ hwf _ hk
  · obtain ⟨n, hn, rfl⟩ := List.getElem_of_mem hw
    rw [List.length_drop] at hn
    rw [List.getElem_drop]
    exact .inl (hlater _ (by omega) (by omega))

/-! ### Dense views of whole bytes -/

theorem unitBytes_of_bytes {f : Fmt} (h : f.width % 8 = 0) (p n : Nat) : unitBytes f p n = (p * (f.width / 8), (p + n) * (f.width / 8)) := by
  have hunit : packUnit f = (1, f.width / 8) := by
    revert h
    cases f <;> decide
  simp [unitBytes, hunit, ceilDiv']

/-- The address of a byte of a view's row: byte `k` of the row's own part. -/
def byteAt (f : Fmt) (d : Desc) (i k : Nat) : Nat := d.base + (d.vrow0 + i) * d.rstride + d.vcol0 * (f.width / 8) + k

theorem byteAt_zero_add (f : Fmt) (d : Desc) (i k : Nat) : byteAt f d i 0 + k = byteAt f d i k := rfl

theorem rowWrite_of_bytes {f : Fmt} (h : f.width % 8 = 0) (rd : Rd) (d : Desc) (i : Nat) (codes : List Nat) :
    rowWrite rd f d.loc (d.base + (d.vrow0 + i) * d.rstride) d.vcol0 d.tcols codes =
      (d.loc, byteAt f d i 0, leBytes (codes.length * (f.width / 8)) (packCodes f.width codes)) := by
  have hlen : (d.vcol0 + codes.length) * (f.width / 8) - d.vcol0 * (f.width / 8) = codes.length * (f.width / 8) := by
    rw [Nat.add_mul, Nat.add_sub_cancel_left]
  simp only [rowWrite, unitBytes_of_bytes h, h, beq_self_eq_true, if_true, hlen]
  rfl

theorem viewWrites_loc {rd : Rd} {f : Fmt} {d : Desc} {rows : List (List Nat)} {w : Wr} (h : w ∈ viewWrites rd f d rows) : w.1 = d.loc := by
  obtain ⟨x, -, rfl⟩ := List.mem_map.1 h
  simp only [rowWrite]
  split <;> rfl

/-- What a view of whole bytes writes. -/
theorem viewWrites_of_bytes {f : Fmt} (h : f.width % 8 = 0) (rd : Rd) (d : Desc) (rows : List (List Nat)) : (viewWrites rd f d rows).map (·.2) =
    rows.zipIdx.map fun x => (byteAt f d x.2 0, leBytes (x.1.length * (f.width / 8)) (packCodes f.width x.1)) := by
  rw [viewWrites, List.map_map]
  exact List.map_congr_left fun x _ => congrArg Prod.snd (rowWrite_of_bytes h rd d x.2 x.1)

/-- An element of a view of whole bytes in staging. -/
theorem codeIn_of_bytes {f : Fmt} (h : f.width % 8 = 0) (m : Mem) (d : Desc) (i j : Nat) : codeIn m f d i j =
    leNat ((List.range (f.width / 8)).map fun k => m.read (byteAt f d i (j * (f.width / 8) + k))) % 2 ^ f.width := by
  obtain ⟨n, hn⟩ : ∃ n, f.width = 8 * n := ⟨f.width / 8, by omega⟩
  have hbit : f.width * (d.vcol0 + j) % 8 = 0 := by rw [hn, Nat.mul_assoc]; exact Nat.mul_mod_right ..
  have hbyte : f.width * (d.vcol0 + j) / 8 = d.vcol0 * (f.width / 8) + j * (f.width / 8) := by
    rw [hn, Nat.mul_assoc, Nat.mul_div_cancel_left _ (by decide), Nat.mul_div_cancel_left _ (by decide)]
    ring
  have hlen : ceilDiv' (0 + f.width) 8 = f.width / 8 := by rw [ceilDiv']; omega
  simp only [codeIn, codeAt, hbit, hbyte, hlen, bitField, Nat.shiftRight_zero, rdBytes, byteAt]
  refine congrArg (fun l => leNat l % 2 ^ f.width) (List.map_congr_left fun k _ => congrArg m.read ?_)
  ring

section
variable {f : Fmt} (h : f.width % 8 = 0) {m : Mem} (hm : m.wf) (rd : Rd) (d : Desc) {rows : List (List Nat)} {n : Nat}
  (hrows : ∀ r ∈ rows, r.length = n) (hstride : rows.length ≤ 1 ∨ n * (f.width / 8) ≤ d.rstride) {i : Nat} (hi : i < rows.length)
include h hm hrows hstride

/-- A byte that a view of whole bytes has written to staging is read back, where no two of its rows overlap. -/
theorem read_viewWrites {x : Nat} (hx : x < n * (f.width / 8)) :
    (writesOf m ((viewWrites rd f d rows).map (·.2))).read (byteAt f d i x) = BitVec.ofNat 8 (packCodes f.width rows[i] >>> (8 * x)) := by
  have hn : rows[i].length = n := hrows _ (List.getElem_mem hi)
  rw [viewWrites_of_bytes h]
  have hw := read_writesOf hm (ws := rows.zipIdx.map fun x => (byteAt f d x.2 0, leBytes (x.1.length * (f.width / 8)) (packCodes f.width x.1)))
    (i := i) (k := x) (by simpa using hi) (by simpa [leBytes_length, hn] using hx) fun i' hi' hlt => ?_
  · simpa [leBytes_getElem, byteAt_zero_add] using hw
  · have hrow : (d.vrow0 + i + 1) * d.rstride ≤ (d.vrow0 + i') * d.rstride := Nat.mul_le_mul_right _ (by omega)
    have hone : (d.vrow0 + i + 1) * d.rstride = (d.vrow0 + i) * d.rstride + d.rstride := Nat.succ_mul ..
    have hle : n * (f.width / 8) ≤ d.rstride := hstride.resolve_left fun hs => by simp at hi'; omega
    simp only [List.getElem_map, List.getElem_zipIdx, byteAt, Nat.zero_add]
    omega

/-- An element that a view of whole bytes has written to staging is read back. -/
theorem codeIn_viewWrites {j : Nat} (hj : j < rows[i].length) :
    codeIn (writesOf m ((viewWrites rd f d rows).map (·.2))) f d i j = rows[i][j] % 2 ^ f.width := by
  have hn : rows[i].length = n := hrows _ (List.getElem_mem hi)
  have hbytes : 8 * (f.width / 8) = f.width := by omega
  have hpos : ∀ k ∈ List.range (f.width / 8), (writesOf m ((viewWrites rd f d rows).map (·.2))).read (byteAt f d i (j * (f.width / 8) + k)) =
      BitVec.ofNat 8 (packCodes f.width rows[i] >>> (f.width * j) >>> (8 * k)) := fun k hk => by
    have hk' := List.mem_range.1 hk
    have hend : (j + 1) * (f.width / 8) ≤ n * (f.width / 8) := Nat.mul_le_mul_right _ (by omega)
    have hsucc : (j + 1) * (f.width / 8) = j * (f.width / 8) + f.width / 8 := Nat.succ_mul ..
    have hshift : 8 * (j * (f.width / 8) + k) = f.width * j + 8 * k := by
      calc 8 * (j * (f.width / 8) + k) = 8 * (f.width / 8) * j + 8 * k := by ring
        _ = f.width * j + 8 * k := by rw [hbytes]
    rw [read_viewWrites h hm rd d hrows hstride hi (by omega), hshift, Nat.shiftRight_add]
  rw [codeIn_of_bytes h, List.map_congr_left hpos, ← leBytes_eq_map, leNat_leBytes, hbytes, Nat.mod_mod, packCodes_shiftRight _ hj]

end

end Sys2Proof.Machine
end

section
/-! SUPPORT. The end of an operation of the SVU or the top-k selector: what it leaves of its context, staging and the ports. -/

namespace Sys2Proof.Machine

open Sys2Proof Sys2Proof.Claims

/-! ### What an operation reads when it is due -/

theorem Passed.poisonedIn {s t : State} (h : Passed s t) (rs : List Range) : poisonedIn t rs = poisonedIn s rs := by
  have hr : t.ras = s.ras := by rw [h.rest]
  rw [Machine.poisonedIn, hr, Machine.poisonedIn]

theorem portBays_congr {s t : State} (hset : SameSetup s t) {c : Ctx} (halt : (t.cx c).alt = (s.cx c).alt)
    (hoos : ∀ b, (t.by b).oos = (s.by b).oos) : t.portBays c = s.portBays c := by
  have hset' : t.curSet c = s.curSet c := by rw [State.curSet, halt, hset.prot, State.curSet]
  have hserve : t.inService = s.inService := funext fun b => by
    rw [State.inService, State.present, hset.build, hoos, State.inService, State.present]
  rw [State.portBays, hset', hserve, State.portBays]

/-! ### What the unit notes -/

/-- The context of an operation with the flags, the counts and the mask slot of its result. -/
def unitNoted (o : Op) (r : SvuOut) (s : State) : State :=
  (raiseFlags o.ctx (((maskBays o.named).head?).getD 0) r.flags (useFree r.free s)).modCtx o.ctx fun x =>
    { x with cullet := x.cullet.set 3 (satAdd (x.cullet.get 3) r.meta_)
             masks := match r.mask with | some (i, m) => x.masks.set i.1 m i.2 | none => x.masks }

/-- An operation with what its record tells of its result. -/
def unitRecord (o : Op) (r : SvuOut) : Op := { o with opFlags := r.flags, amax := r.amax, info := r.info }

theorem endUnit_of_fault {o : Op} {r : SvuOut} {code aux : Nat} (h : r.fault = some (code, aux)) (s : State) :
    endUnit o r s = failOp { unitRecord o r with aux := aux } code (writeStaging (staged r.wrs) (unitNoted o r s)) := by
  unfold endUnit
  rw [h]
  rfl

theorem endUnit_of_none {o : Op} {r : SvuOut} (h : r.fault = none) (s : State) : endUnit o r s =
    if o.member then release (unitRecord o r) (pushBuf o.ctx (heldBytes o r.wrs) (wrBytes r.wrs).length (unitNoted o r s))
    else finish (unitRecord o r) (opPorts (unitNoted o r s) o) r.wrs (unitNoted o r s) := by
  unfold endUnit
  rw [h]
  rfl

theorem endUnit_of_member {o : Op} {r : SvuOut} (h : r.fault = none) (hm : o.member = true) (s : State) : endUnit o r s =
    release (unitRecord o r) (pushBuf o.ctx (heldBytes o r.wrs) (wrBytes r.wrs).length (unitNoted o r s)) := by
  rw [endUnit_of_none h, if_pos hm]

/-- The block when the writes of a unit's operation have gone out. -/
def unitPosted (o : Op) (r : SvuOut) (s : State) : State :=
  (issueWrites o.ctx (.op o.ctx o.seq) (opPorts (unitNoted o r s) o) (outRanges o) r.wrs (unitNoted o r s)).1

theorem endUnit_of_writes {o : Op} {r : SvuOut} (h : r.fault = none) (hm : o.member = false) (s : State) : endUnit o r s =
    awaitFlushes (unitRecord o r) (flushes (opPorts (unitNoted o r s) o) r.wrs) (unitPosted o r s) := by
  rw [endUnit_of_none h, if_neg (by simp [hm])]
  rfl

section
variable (o : Op) (r : SvuOut) (s : State)

theorem unitNoted_cx_ne {d : Ctx} (h : d ≠ o.ctx) : (unitNoted o r s).cx d = s.cx d :=
  (modCtx_cx_ne _ _ _ h).trans (modCtx_cx_ne _ _ _ h)

/-- The context of the operation, but for flags, counts and mask slots. -/
theorem unitNoted_cx : ∃ f k m, (unitNoted o r s).cx o.ctx = { s.cx o.ctx with sticky := f, cullet := k, masks := m } :=
  ⟨_, _, _, by rw [unitNoted, modCtx_cx, raiseFlags, modCtx_cx]; rfl⟩

theorem unitNoted_masks {i : Fin 8} {m : Option MaskSlot} (h : r.mask = some (i, m)) : ((unitNoted o r s).cx o.ctx).masks.get i = m := by
  rw [unitNoted, modCtx_cx, h]
  exact (get_set ..).trans (if_pos rfl)

theorem unitNoted_setup : SameSetup s (unitNoted o r s) := ⟨rfl, rfl, rfl⟩

theorem unitNoted_still : Still s (unitNoted o r s) := Still.of_eq rfl rfl rfl rfl rfl

theorem unitNoted_ports : opPorts (unitNoted o r s) o = s.portBays o.ctx := by
  obtain ⟨f, k, m, h⟩ := unitNoted_cx o r s
  exact portBays_congr (unitNoted_setup o r s) (by rw [h]) fun _ => rfl

theorem unitPosted_ctx : (unitPosted o r s).ctx = (unitNoted o r s).ctx := by
  rw [unitPosted, issueWrites_rest]
  rfl

theorem unitPosted_ops : (unitPosted o r s).ops = s.ops := by
  rw [unitPosted, issueWrites_rest]
  rfl

theorem unitPosted_staging : (unitPosted o r s).staging = writesOf s.staging (staged r.wrs) := by
  rw [unitPosted, issueWrites_rest]
  rfl

theorem unitPosted_asks (b : Bay) : asks ((unitPosted o r s).by b).port =
    asks (s.by b).port ++ posts s o.ctx (.op o.ctx o.seq) (s.portBays o.ctx) (outRanges o) r.wrs b := by
  rw [unitPosted, issueWrites_asks, unitNoted_ports, posts_congr (unitNoted_setup o r s).prot]
  rfl

end

/-! ### Time and set-up -/

theorem endUnit_still (o : Op) (r : SvuOut) (s : State) : Still s (endUnit o r s) := by
  refine (unitNoted_still o r s).trans ?_
  rcases hf : r.fault with _ | ⟨code, aux⟩
  · cases hm : o.member with
    | false =>
      rw [endUnit_of_writes hf hm]
      exact (issueWrites_still ..).trans (awaitFlushes_still ..)
    | true =>
      rw [endUnit_of_member hf hm]
      exact (modCtx_still ..).trans (release_starts ..).still
  · rw [endUnit_of_fault hf]
    exact (writeStaging_still ..).trans (failOp_still ..)

theorem endUnit_setup (o : Op) (r : SvuOut) (s : State) : SameSetup s (endUnit o r s) := by
  refine SameSetup.trans (unitNoted_setup o r s) ?_
  rcases hf : r.fault with _ | ⟨code, aux⟩
  · cases hm : o.member with
    | false =>
      rw [endUnit_of_writes hf hm]
      have h := issueWrites_sound o.ctx (.op o.ctx o.seq) (opPorts (unitNoted o r s) o) (outRanges o) r.wrs (unitNoted o r s)
      exact SameSetup.trans ⟨h.prot, h.build, h.pending⟩ (awaitFlushes_starts ..).setup
    | true =>
      rw [endUnit_of_member hf hm]
      exact SameSetup.trans (sameSetup_of_keeps (modCtx_keeps ..)) (release_starts ..).setup
  · have h : SameSetup (unitNoted o r s) (writeStaging (staged r.wrs) (unitNoted o r s)) := ⟨rfl, rfl, rfl⟩
    rw [endUnit_of_fault hf]
    exact SameSetup.trans h (sameSetup_of_keeps (failOp_keeps ..))

/-! ### Contexts -/

/-- Other contexts are the same, and of `c` the semaphores and the mask slots. -/
structure Held (c : Ctx) (s t : State) : Prop where
  others : ∀ d, d ≠ c → t.cx d = s.cx d
  sem : (t.cx c).sem = (s.cx c).sem
  masks : (t.cx c).masks = (s.cx c).masks

theorem Held.trans {c : Ctx} {s t u : State} (h : Held c s t) (k : Held c t u) : Held c s u :=
  ⟨fun d hd => (k.others d hd).trans (h.others d hd), k.sem.trans h.sem, k.masks.trans h.masks⟩

theorem Held.of_ctx {c : Ctx} {s t : State} (h : t.ctx = s.ctx) : Held c s t :=
  ⟨fun d _ => cx_of_ctx h d, by rw [cx_of_ctx h], by rw [cx_of_ctx h]⟩

theorem Calm.held {c : Ctx} {s t : State} (h : Calm c s t) : Held c s t := ⟨h.others, h.sem, h.masks⟩

theorem pushBuf_held (c : Ctx) (b : BufItem) (n : Nat) (s : State) : Held c s (pushBuf c b n s) :=
  ⟨fun _ hd => modCtx_cx_ne _ _ _ hd, by rw [pushBuf, modCtx_cx], by rw [pushBuf, modCtx_cx]⟩

theorem awaitFlushes_held (o : Op) (n : Nat) (s : State) : Held o.ctx s (awaitFlushes o n s) := by
  unfold awaitFlushes
  split
  exacts [(release_calm o s).held, .of_ctx rfl]

theorem whole_of_not_lehr {o : Op} (h : o.ofLehr = false) (s : State) : o.whole s = o := by simp [Op.whole, h]

/-- An operation without an earlier fault and without responses to wait for fails at once. -/
theorem failOp_clear {o : Op} (hl : o.ofLehr = false) (h0 : o.status = 0) (hw : o.wrs = 0) (ha : o.acks = 0) (code : Nat) (s : State) :
    failOp o code s = release { o with status := code } s := by
  simp [failOp, whole_of_not_lehr hl, h0, hw, ha, release]

section
variable {s u : State} {o : Op} {r : SvuOut} (hclear : Clear s o)
include hclear

theorem endUnit_failed (hlehr : o.ofLehr = false) {code aux : Nat} (h : r.fault = some (code, aux)) (u : State) : endUnit o r u =
    release { unitRecord o r with aux := aux, status := code } (writeStaging (staged r.wrs) (unitNoted o r u)) := by
  obtain ⟨h0, hw, ha, -⟩ := hclear
  rw [endUnit_of_fault h]
  exact failOp_clear (o := { unitRecord o r with aux := aux }) hlehr h0 hw ha code _

theorem endUnit_held (hlehr : o.ofLehr = false) (u : State) : Held o.ctx (unitNoted o r u) (endUnit o r u) := by
  rcases hf : r.fault with _ | ⟨code, aux⟩
  · cases hm : o.member with
    | false =>
      rw [endUnit_of_writes hf hm]
      exact (Held.of_ctx (unitPosted_ctx o r u)).trans (awaitFlushes_held (unitRecord o r) _ _)
    | true =>
      rw [endUnit_of_member hf hm]
      exact (pushBuf_held ..).trans (release_calm (unitRecord o r) _).held
  · rw [endUnit_failed hclear hlehr hf]
    exact (Held.of_ctx (s := unitNoted o r u) (t := writeStaging (staged r.wrs) (unitNoted o r u)) rfl).trans
      (release_calm { unitRecord o r with aux := aux, status := code } _).held

/-- What the other contexts and the semaphores are after it. -/
theorem endUnit_tenants (hlehr : o.ofLehr = false) (u : State) :
    (∀ d, d ≠ o.ctx → (endUnit o r u).cx d = u.cx d) ∧ ((endUnit o r u).cx o.ctx).sem = (u.cx o.ctx).sem := by
  have h := endUnit_held (r := r) hclear hlehr u
  obtain ⟨f, k, m, hx⟩ := unitNoted_cx o r u
  exact ⟨fun d hd => (h.others d hd).trans (unitNoted_cx_ne o r u hd), h.sem.trans (by rw [hx])⟩

/-- What a mask slot holds after it. -/
theorem endUnit_mask (hlehr : o.ofLehr = false) (u : State) {i : Fin 8} {m : Option MaskSlot} (h : r.mask = some (i, m)) :
    ((endUnit o r u).cx o.ctx).masks.get i = m := by
  rw [(endUnit_held hclear hlehr u).masks]
  exact unitNoted_masks o r u h

variable (hu : u.ctx = s.ctx)
include hu

theorem unitNoted_rstBusy : ((unitNoted o r u).cx o.ctx).rstBusy = false := by
  obtain ⟨f, k, m, hx⟩ := unitNoted_cx o r u
  rw [hx, cx_of_ctx hu]
  exact hclear.ctx

omit hclear in
theorem unitNoted_mode : ((unitNoted o r u).cx o.ctx).mode = (s.cx o.ctx).mode := by
  obtain ⟨f, k, m, hx⟩ := unitNoted_cx o r u
  rw [hx, cx_of_ctx hu]

/-! ### A fault of its data -/

theorem endUnit_faults (hlehr : o.ofLehr = false) {code aux : Nat} (h : r.fault = some (code, aux)) : EndsWith s o code (endUnit o r u) := by
  rw [endUnit_failed hclear hlehr h]
  exact release_endsWith_status (p := { unitRecord o r with aux := aux, status := code }) rfl rfl rfl rfl
    (unitNoted_rstBusy hclear hu) (unitNoted_mode hu)

/-! ### A lock member -/

omit hclear hu in
theorem release_lockWin {p : Op} {v : State} (hr : (v.cx p.ctx).rstBusy = false) (h0 : p.status = 0) :
    ((release p v).cx p.ctx).lockWin = (v.cx p.ctx).lockWin := by
  have hrel : (releaseUnits p v).cx p.ctx = v.cx p.ctx := cx_of_ctx (releaseUnits_ctx ..) _
  have hret : ((retire p (releaseUnits p v)).cx p.ctx).lockWin = (v.cx p.ctx).lockWin := by
    rw [retire, cx_of_ctx (emitOp_ctx ..), cx_of_ctx (endStall_ctx ..), cx_of_ctx (countOp_ctx ..), forget, modCtx_cx, dropOp_cx, hrel]
  rw [release, complete_clear (by rw [hrel, hr]) h0]
  cases p.cmp || p.opc == 0x0B with
  | false => exact hret
  | true =>
    rw [State.ifThen, if_pos rfl, deliver, modCtx_cx]
    exact hret

theorem endUnit_member (h : r.fault = none) (hm : o.member = true) : EndsWith s o 0 (endUnit o r u) ∧ (endUnit o r u).staging = u.staging := by
  rw [endUnit_of_member h hm]
  refine ⟨?_, (release_starts ..).staging⟩
  refine release_endsWith (p := unitRecord o r) rfl rfl rfl rfl hclear.status ?_
  rw [pushBuf, modCtx_cx]
  exact unitNoted_rstBusy hclear hu

/-- The bytes of a lock member are held back in the store buffer of its window. -/
theorem endUnit_lockWin (h : r.fault = none) (hm : o.member = true) {l : LockWin} (hl : (s.cx o.ctx).lockWin = some l) :
    ((endUnit o r u).cx o.ctx).lockWin =
      some { l with buf := l.buf ++ [heldBytes o r.wrs], share := l.share + (wrBytes r.wrs).length } := by
  have hn : ((unitNoted o r u).cx o.ctx).lockWin = some l := by
    obtain ⟨f, k, m, hx⟩ := unitNoted_cx o r u
    rw [hx, cx_of_ctx hu, hl]
  have hrst : ((pushBuf o.ctx (heldBytes o r.wrs) (wrBytes r.wrs).length (unitNoted o r u)).cx o.ctx).rstBusy = false := by
    rw [pushBuf, modCtx_cx]
    exact unitNoted_rstBusy hclear hu
  rw [endUnit_of_member h hm]
  refine (release_lockWin (p := unitRecord o r) hrst hclear.status).trans ?_
  rw [show (unitRecord o r).ctx = o.ctx from rfl, pushBuf, modCtx_cx, hn]
  rfl

end

/-! ### Outputs in staging and in windows -/

theorem staged_of_staging {ws : List Wr} (h : ∀ w ∈ ws, w.1 = false) : staged ws = ws.map (·.2) := by
  rw [staged, ← List.filterMap_eq_map]
  exact List.filterMap_congr fun w hw => by simp [h w hw]

theorem flushes_of_staging {ws : List Wr} (h : ∀ w ∈ ws, w.1 = false) (ports : List Bay) : flushes ports ws = 0 := by
  simp [flushes, wrLines_eq_nil h, deal, usedPorts]

section
variable {s u : State} {o : Op} {r : SvuOut} (hclear : Clear s o) (hu : u.ctx = s.ctx) (h : r.fault = none) (hm : o.member = false)
include hclear h hm

omit hclear in
theorem endUnit_asks (b : Bay) : asks ((endUnit o r u).by b).port =
    asks (u.by b).port ++ posts u o.ctx (.op o.ctx o.seq) (u.portBays o.ctx) (outRanges o) r.wrs b := by
  rw [endUnit_of_writes h hm, awaitFlushes_port, unitPosted_asks]

theorem endUnit_flushing (ho : o ∈ u.ops) (hside : o.side = false) {w : Wr} (hw : w ∈ r.wrs) (hwin : w.1 = true) (hbytes : w.2.2 ≠ [])
    (hports : u.portBays o.ctx ≠ []) :
    ∃ p ∈ (endUnit o r u).ops, p.ctx = o.ctx ∧ p.seq = o.seq ∧ p.stage = .flushing ∧ 0 < p.wrs ∧ p.status = 0 ∧ p.info = r.info := by
  have hn : flushes (opPorts (unitNoted o r u) o) r.wrs ≠ 0 := fun h0 => by
    rw [unitNoted_ports, flushes_eq_zero hports] at h0
    exact wrLines_ne_nil hw hwin hbytes h0
  have hi : o.is o.ctx o.seq = true := by simp [Op.is, Op.under, hside]
  rw [endUnit_of_writes h hm, awaitFlushes_flushing (Nat.add_pos_right _ (Nat.pos_of_ne_zero hn)).ne']
  refine ⟨_, List.mem_map.2 ⟨o, by rwa [unitPosted_ops], if_pos hi⟩, rfl, rfl, rfl, ?_, hclear.status, rfl⟩
  exact Nat.add_pos_right _ (Nat.pos_of_ne_zero hn)

variable (hws : ∀ w ∈ r.wrs, w.1 = false)
include hws

/-- With every output in staging the operation completes at once. -/
theorem endUnit_staged : endUnit o r u = release (unitRecord o r) (unitPosted o r u) := by
  rw [endUnit_of_writes h hm, awaitFlushes_done]
  rw [flushes_of_staging hws]
  exact hclear.wrs

theorem endUnit_staging : (endUnit o r u).staging = writesOf u.staging (r.wrs.map (·.2)) := by
  rw [endUnit_staged hclear h hm hws, (release_starts ..).staging, unitPosted_staging, staged_of_staging hws]

include hu

omit h hm hws in
theorem unitPosted_rstBusy : ((unitPosted o r u).cx o.ctx).rstBusy = false := by
  rw [cx_of_ctx (unitPosted_ctx ..)]
  exact unitNoted_rstBusy hclear hu

theorem endUnit_endsWith : EndsWith s o 0 (endUnit o r u) := by
  rw [endUnit_staged hclear h hm hws]
  exact release_endsWith (p := unitRecord o r) rfl rfl rfl rfl hclear.status (unitPosted_rstBusy hclear hu)

/-- Its record tells what the unit counted. -/
theorem endUnit_record (hcmp : o.cmp = true) : ∃ x ∈ ((endUnit o r u).cx o.ctx).recs, x.opc = o.opc ∧ x.info = r.info := by
  have hr : ((releaseUnits (unitRecord o r) (unitPosted o r u)).cx o.ctx).rstBusy = false := by
    rw [cx_of_ctx (releaseUnits_ctx ..), unitPosted_rstBusy hclear hu]
  obtain ⟨t, n, hx⟩ := complete_record (o := unitRecord o r) hr (.inl hcmp)
  rw [endUnit_staged hclear h hm hws]
  refine ⟨_, hx, rfl, ?_⟩
  simp [Op.toRec, unitRecord, hclear.status]

end

end Sys2Proof.Machine
end

section
/-! SUPPORT. SVU_OP_COMPLETE and TOPK_COMPLETE: what they leave of the block, seen from before the time passed until the operation is due. -/

namespace Sys2Proof.Machine

open Sys2Proof Sys2Proof.Claims

/-! ### The step -/

/-- The block when an operation of the SVU or the top-k selector is due. -/
def unitDue (o : Op) (s : State) : State := at' (phaseEnd s o (svuTime s o (opPorts s o).length)) s

theorem unitDue_passed (o : Op) (s : State) : Passed s (unitDue o s) := at'_passed ..

theorem unitDue_clk (o : Op) (s : State) : (unitDue o s).clk = max s.clk (phaseEnd s o (svuTime s o (opPorts s o).length)) := at'_clk ..

theorem unitReady_iff {cls : OpClass} {s : State} {o : Op} : unitReady cls s o = true ↔
    opReady s o = true ∧ opClass o.opc = some cls ∧ (o.member = true ∨ portless s o.ctx (outRanges o) = false) := by
  simp [unitReady, and_assoc]

/-- An operation that reads no poison ends with its result. -/
theorem unitDone_of_clean {s : State} {o : Op} (h : poisonedIn s (svuReads o) = none) :
    unitDone o s = endUnit o (svuOut (unitDue o s) o) (unitDue o s) := by
  have hp : poisonedIn (unitDue o s) (svuReads o) = none := ((unitDue_passed o s).poisonedIn _).trans h
  unfold unitDone
  dsimp only
  rw [show poisonedIn (at' (phaseEnd s o (svuTime s o (opPorts s o).length)) s) (svuReads o) = none from hp]
  rfl

section
variable {s : State} {c : Ctx} {q : BitVec 8} {o : Op} (ho : s.op? c q = some o)
include ho

theorem exec_topkComplete (hr : unitReady .k s o = true) : exec (.topkComplete c q) s = .next (unitDone o s) := by
  show execTopkComplete c q s = _
  simp only [execTopkComplete, ho, hr, if_true]

theorem exec_svuOpComplete (hr : unitReady .s s o = true) (hscrub : o.opc ≠ 0x22) (hlehr : o.ofLehr = false) :
    exec (.svuOpComplete c q) s = .next (unitDone o s) := by
  obtain ⟨-, hcls, -⟩ := unitReady_iff.1 hr
  show execSvuOpComplete c q s = _
  simp [execSvuOpComplete, opIn_of_class ho hcls, hr, hscrub, hlehr]

end

/-- Instructions but those of the lehr are not the lehr's. -/
theorem ofLehr_of_lt {o : Op} (h : o.opc < 0x100) : o.ofLehr = false := by
  simp only [Op.ofLehr, Bool.or_eq_false_iff, beq_eq_false_iff_ne]
  omega

/-! ### The operation's end after the time has passed -/

section
variable {s u : State} {o : Op} {r : SvuOut} (hp : Passed s u) (hclear : Clear s o)
include hp

theorem Passed.ctx : u.ctx = s.ctx := by rw [hp.rest]

theorem Passed.portBays (c : Ctx) : u.portBays c = s.portBays c :=
  portBays_congr hp.lapsed.sameSetup (by rw [cx_of_ctx hp.ctx]) fun b => by rw [hp.bays b]

theorem endUnit_passed_setup : SameSetup s (endUnit o r u) := SameSetup.trans hp.lapsed.sameSetup (endUnit_setup ..)

include hclear

theorem endUnit_passed_tenants (hlehr : o.ofLehr = false) :
    (∀ d, d ≠ o.ctx → (endUnit o r u).cx d = s.cx d) ∧ ((endUnit o r u).cx o.ctx).sem = (s.cx o.ctx).sem := by
  obtain ⟨hothers, hsem⟩ := endUnit_tenants (r := r) hclear hlehr u
  exact ⟨fun d hd => (hothers d hd).trans (cx_of_ctx hp.ctx d), hsem.trans (by rw [cx_of_ctx hp.ctx])⟩

/-- A lock member ends, staging is as it was, and its bytes are held back. -/
theorem endUnit_passed_member (h : r.fault = none) (hm : o.member = true) {l : LockWin} (hl : (s.cx o.ctx).lockWin = some l) :
    EndsWith s o 0 (endUnit o r u) ∧ (endUnit o r u).staging = s.staging ∧
      ∃ m, ((endUnit o r u).cx o.ctx).lockWin = some m ∧ m.buf = l.buf ++ [heldBytes o r.wrs] ∧
        m.share = l.share + (wrBytes r.wrs).length ∧ m.left = l.left := by
  obtain ⟨hend, hstaging⟩ := endUnit_member hclear hp.ctx h hm
  exact ⟨hend, hstaging.trans hp.lapsed.staging, _, endUnit_lockWin hclear hp.ctx h hm hl, rfl, rfl, rfl⟩

variable (h : r.fault = none) (hm : o.member = false)
include h hm

omit hclear in
/-- Its outputs in windows go to the ports of its context as posted writes. -/
theorem endUnit_passed_asks (b : Bay) : asks ((endUnit o r u).by b).port =
    asks (s.by b).port ++ posts s o.ctx (.op o.ctx o.seq) (s.portBays o.ctx) (outRanges o) r.wrs b := by
  rw [endUnit_asks h hm, hp.portBays, posts_congr hp.lapsed.prot, hp.bays b]

/-- With an output in a window it waits for the flushes of its ports. -/
theorem endUnit_passed_flushing {c : Ctx} {q : BitVec 8} (ho : s.op? c q = some o) {w : Wr} (hw : w ∈ r.wrs) (hwin : w.1 = true)
    (hbytes : w.2.2 ≠ []) (hports : s.portBays o.ctx ≠ []) :
    ∃ p ∈ (endUnit o r u).ops, p.ctx = o.ctx ∧ p.seq = o.seq ∧ p.stage = .flushing ∧ 0 < p.wrs ∧ p.status = 0 ∧ p.info = r.info := by
  have hops : u.ops = s.ops := by rw [hp.rest]
  obtain ⟨-, -, hside⟩ := op?_is ho
  exact endUnit_flushing hclear h hm (hops ▸ mem_of_op? ho) hside hw hwin hbytes (by rwa [hp.portBays])

variable (hws : ∀ w ∈ r.wrs, w.1 = false)
include hws

theorem endUnit_passed_staging : (endUnit o r u).staging = (writeStaging (r.wrs.map (·.2)) s).staging := by
  rw [endUnit_staging hclear h hm hws, hp.lapsed.staging]
  rfl

/-- Bytes of staging that no output covers are as they were. -/
theorem endUnit_passed_frame (hok : MemoriesOk s) {a : Nat} (ha : ∀ w ∈ r.wrs, a < w.2.1 ∨ w.2.1 + w.2.2.length ≤ a) :
    (endUnit o r u).staging.read a = s.staging.read a := by
  rw [endUnit_passed_staging hp hclear h hm hws]
  exact foldl_writeN_read_ne _ hok.1 (List.forall_mem_map.2 ha)

end

end Sys2Proof.Machine
end

section
/-! SUPPORT. The results of BLEND, REDUCE, TOPK, NORM, MASK and CSR. -/

namespace Sys2Proof.Machine

open Sys2Proof Sys2Proof.Claims

/-! ### Rows of a result -/

/-- Rows of codes, one code for each position. -/
def grid (rows cols : Nat) (g : Nat → Nat → Nat) : List (List Nat) := (List.range rows).map fun i => (List.range cols).map (g i)

/-- The codes of rows that hold flags beside them. -/
theorem map_fst_rows (rows cols : Nat) (g : Nat → Nat → Nat × Flags) :
    (((List.range rows).map fun i => (List.range cols).map (g i)).map fun r => r.map (·.1)) = grid rows cols fun i j => (g i j).1 := by
  simp [grid, Function.comp_def]

theorem codeIn_grid {f : Fmt} (h : f.width % 8 = 0) {m : Mem} (hm : m.wf) (rd : Rd) (d : Desc) {rows cols : Nat} (g : Nat → Nat → Nat)
    (hstride : rows ≤ 1 ∨ cols * (f.width / 8) ≤ d.rstride) {i j : Nat} (hi : i < rows) (hj : j < cols) :
    codeIn (writesOf m ((viewWrites rd f d (grid rows cols g)).map (·.2))) f d i j = g i j % 2 ^ f.width := by
  have hlen : (grid rows cols g).length = rows := by simp [grid]
  have hrows : ∀ r ∈ grid rows cols g, r.length = cols := by simp [grid]
  rw [codeIn_viewWrites h hm rd d hrows (by rwa [hlen]) (by rwa [hlen]) (by rw [hrows _ (List.getElem_mem _)]; exact hj)]
  simp [grid]

/-! ### BLEND and REDUCE -/

/-- The code of an element of a BLEND (R134). -/
def blendCode (rd : Rd) (o : Op) (i j : Nat) : Nat :=
  (encodeFmt (fmtOf (iFA o.word)) (ieeeFma (blendPrec (fmtOf (iFA o.word))) (decodeFmt .fp32 (iImm48 o.word % 2 ^ 32))
    (decodeFmt (fmtOf (iFA o.word)) (codeAt rd (fmtOf (iFA o.word)) o.da i j))
    (ieeeMul (blendPrec (fmtOf (iFA o.word))) (decodeFmt .fp32 (iImm o.word * 65536 + iImm48 o.word / 2 ^ 32))
      (decodeFmt (fmtOf (iFA o.word)) (codeAt rd (fmtOf (iFA o.word)) o.db i j))).1).1)

/-- The code of an element of a REDUCE (R91, R178). -/
def reduceCode (rd : Rd) (o : Op) (i j : Nat) : Nat :=
  (reduceCodes (fmtOf (iFA o.word))
    ((List.range (reduceParts o.word)).map fun n => codeAt rd (fmtOf (iFA o.word)) (batchView o.da n) i j)).1

theorem svuOut_blend {o : Op} (h : o.opc = 0x07) (s : State) : (svuOut s o).fault = none ∧
    (svuOut s o).wrs = viewWrites (opRead s o) (fmtOf (iFA o.word)) o.dO (grid o.da.vrows o.da.vcols (blendCode (opRead s o) o)) := by
  have hprec : ∀ f : Fmt, (if f == .fp64 then prec64 else prec32) = blendPrec f := fun f => by simp [blendPrec]
  simp only [svuOut, h, blendOut, hprec, map_fst_rows]
  exact ⟨trivial, rfl⟩

theorem svuOut_reduce {o : Op} (h : o.opc = 0x08) (s : State) : (svuOut s o).fault = none ∧
    (svuOut s o).wrs = viewWrites (opRead s o) (fmtOf (iFA o.word)) o.dO (grid o.da.vrows o.da.vcols (reduceCode (opRead s o) o)) := by
  simp only [svuOut, h, reduceOut, map_fst_rows]
  exact ⟨trivial, rfl⟩

/-! ### NORM -/

/-- The code of a NORM (R136). -/
def normCode (rd : Rd) (o : Op) : Nat :=
  (encodeFmt .fp64 (normOf (iImm o.word != 2) (normVals (fmtOf (iFA o.word) == .fp32x2) (iImm o.word == 1)
    ((codesOf rd (fmtOf (iFA o.word)) o.da).map fun r => r.map (decodeFmt (fmtOf (iFA o.word))))).1).1)

theorem svuOut_norm {o : Op} (h : o.opc = 0x0A) (s : State) : (svuOut s o).fault = none ∧
    (svuOut s o).wrs = viewWrites (opRead s o) .fp64 o.dO (grid 1 1 fun _ _ => normCode (opRead s o) o) := by
  simp only [svuOut, h, normOut]
  exact ⟨trivial, rfl⟩

/-! ### TOPK -/

theorem svuOut_topk {o : Op} (h : o.opc = 0x09) (s : State) : svuOut s o = topkOut (opRead s o) o := by
  simp only [svuOut, h]

theorem topkOut_fault (rd : Rd) (o : Op) : (topkOut rd o).fault = none := rfl

theorem topkOut_staging {o : Op} (hO : o.dO.loc = false) (hx : o.dx.loc = false) (rd : Rd) : ∀ w ∈ (topkOut rd o).wrs, w.1 = false := by
  intro w hw
  rcases List.mem_append.1 hw with hw | hw
  · exact (viewWrites_loc hw).trans hO
  · exact (viewWrites_loc hw).trans hx

/-- A TOPK with its results in staging needs no port. -/
theorem topk_portless {o : Op} (h : o.opc = 0x09) (hO : o.dO.loc = false) (hx : o.dx.loc = false) (s : State) (c : Ctx) :
    portless s c (outRanges o) = false := by
  simp [portless, outRanges, h, viewSpan, hO, hx]

/-! ### MASK -/

/-- The slot of a MASK. -/
def maskSlotOf (o : Op) : Fin 8 := ⟨iImm o.word % 8, Nat.mod_lt _ (by decide)⟩

/-- Whether block `x` of row `g` of the nibbles of a MASK keeps at most two of four in every row and column (R102). -/
def maskBlockOk (rd : Rd) (o : Op) (g x : Nat) : Bool :=
  blockOk (((((codesOf rd .int4 o.da)[g]?).getD []).drop (4 * x)).take 4)

/-- The blocks of a MASK in the order in which they are checked. -/
def maskOrder (o : Op) : List (Nat × Nat) := (List.range o.da.vrows).flatMap fun g => (List.range (o.da.vcols / 4)).map fun x => (g, x)

theorem forall_mem_maskOrder (o : Op) (p : Nat × Nat → Prop) :
    (∀ b ∈ maskOrder o, p b) ↔ ∀ g, g < o.da.vrows → ∀ x, x < o.da.vcols / 4 → p (g, x) := by
  simp only [maskOrder, List.forall_mem_flatMap, List.forall_mem_map, List.mem_range]

theorem find?_maskOrder (rd : Rd) (o : Op) : ((maskOrder o).zipIdx.find? fun b => !maskBlockOk rd o b.1.1 b.1.2) = none ↔
    ∀ g, g < o.da.vrows → ∀ x, x < o.da.vcols / 4 → maskBlockOk rd o g x = true := by
  rw [List.find?_eq_none, ← forall_mem_maskOrder o fun b => maskBlockOk rd o b.1 b.2 = true]
  conv_rhs => rw [← List.zipIdx_map_fst 0 (maskOrder o), List.forall_mem_map]
  simp

/-- A MASK whose blocks all pass binds its slot. -/
theorem svuOut_mask_bound {o : Op} (h : o.opc = 0x0D) (s : State)
    (hok : ∀ g, g < o.da.vrows → ∀ x, x < o.da.vcols / 4 → maskBlockOk (opRead s o) o g x = true) :
    (svuOut s o).fault = none ∧ (svuOut s o).mask = some (maskSlotOf o, some ⟨o.dO, 4 * o.da.vrows, o.da.vcols⟩) ∧
      ∀ w ∈ (svuOut s o).wrs, w.1 = o.dO.loc := by
  have hfind := (find?_maskOrder (opRead s o) o).2 hok
  simp only [maskOrder, maskBlockOk] at hfind
  simp only [svuOut, h, maskOut, hfind]
  exact ⟨trivial, rfl, fun _ => viewWrites_loc⟩

/-- A MASK with a block that does not pass empties its slot and faults. -/
theorem svuOut_mask_refused {o : Op} (h : o.opc = 0x0D) (s : State)
    (hbad : ¬∀ g, g < o.da.vrows → ∀ x, x < o.da.vcols / 4 → maskBlockOk (opRead s o) o g x = true) :
    (∃ aux, (svuOut s o).fault = some (0x07, aux)) ∧ (svuOut s o).mask = some (maskSlotOf o, none) := by
  obtain ⟨⟨b, i⟩, hfind⟩ := Option.ne_none_iff_exists'.1 (mt (find?_maskOrder (opRead s o) o).1 hbad)
  simp only [maskOrder, maskBlockOk] at hfind
  simp only [svuOut, h, maskOut, hfind]
  exact ⟨⟨_, rfl⟩, rfl⟩

/-! ### CSR -/

/-- How many elements of the operand of a CSR are not zero. -/
def csrCount (rd : Rd) (o : Op) : Nat :=
  ((codesOf rd (fmtOf (iFA o.word)) o.da).map fun r => r.countP fun x => !(decodeFmt (fmtOf (iFA o.word)) x).isZero).sum

theorem length_filter_zipIdx (p : Nat → Bool) (l : List Nat) : ((l.zipIdx).filter fun x => p x.1).length = l.countP p := by
  conv_rhs => rw [← List.zipIdx_map_fst 0 l, List.countP_map, List.countP_eq_length_filter]
  rfl

theorem csrOut_count (rd : Rd) (o : Op) : (((codesOf rd (fmtOf (iFA o.word)) o.da).map fun r =>
    (r.zipIdx).filter fun x => !(decodeFmt (fmtOf (iFA o.word)) x.1).isZero).map List.length).sum = csrCount rd o := by
  rw [List.map_map]
  exact congrArg List.sum (List.map_congr_left fun r _ => length_filter_zipIdx (fun x => !(decodeFmt (fmtOf (iFA o.word)) x).isZero) r)

theorem svuOut_csr_refused {o : Op} (h : o.opc = 0x0E) (s : State) (hn : o.dO.nnz < csrCount (opRead s o) o) :
    (svuOut s o).fault = some (0x06, 0) := by
  simp only [svuOut, h, csrOut, csrOut_count]
  rw [if_pos hn]

theorem svuOut_csr {o : Op} (h : o.opc = 0x0E) (s : State) (hn : csrCount (opRead s o) o ≤ o.dO.nnz) (hloc : o.dO.loc = false)
    (haux : o.dO.auxLoc = false) :
    (svuOut s o).fault = none ∧ (svuOut s o).info = csrCount (opRead s o) o ∧ ∀ w ∈ (svuOut s o).wrs, w.1 = false := by
  simp only [svuOut, h, csrOut, csrOut_count]
  rw [if_neg (Nat.not_lt.2 hn)]
  simp [hloc, haux]

end Sys2Proof.Machine
end

section
/-! Settles the statement about the end of an operation of the SVU or the top-k selector. -/

namespace Sys2Proof.Machine

open Sys2Proof Sys2Proof.Claims

theorem execSvuOpComplete_next (c : Ctx) (q : BitVec 8) (s : State) : ∃ t, exec (.svuOpComplete c q) s = .next t := by
  show ∃ t, execSvuOpComplete c q s = .next t
  unfold execSvuOpComplete
  repeat' split
  all_goals exact ⟨_, rfl⟩

theorem opRead_unitDue (o : Op) (s : State) : opRead (unitDue o s) o = opRead s o := (unitDue_passed o s).lapsed.opRead o

/-! ### What each instruction leaves -/

section
variable {s : State} {o : Op} (hclear : Clear s o) (hm : o.member = false) (hclean : poisonedIn s (svuReads o) = none)
include hclear hclean

theorem unitDone_faults (hlehr : o.ofLehr = false) {code aux : Nat} (h : (svuOut (unitDue o s) o).fault = some (code, aux)) :
    EndsWith s o code (unitDone o s) := by
  rw [unitDone_of_clean hclean]
  exact endUnit_faults hclear (unitDue_passed o s).ctx hlehr h

theorem unitDone_mask (hlehr : o.ofLehr = false) {i : Fin 8} {m : Option MaskSlot} (h : (svuOut (unitDue o s) o).mask = some (i, m)) :
    ((unitDone o s).cx o.ctx).masks.get i = m := by
  rw [unitDone_of_clean hclean]
  exact endUnit_mask hclear hlehr _ h

theorem unitDone_mask_ends (hm : o.member = false) (hloc : o.dO.loc = false) (h : o.opc = 0x0D) :
    if ∀ g, g < o.da.vrows → ∀ x, x < o.da.vcols / 4 → maskBlockOk (opRead s o) o g x = true then
      EndsWith s o 0 (unitDone o s) ∧ ((unitDone o s).cx o.ctx).masks.get (maskSlotOf o) = some ⟨o.dO, 4 * o.da.vrows, o.da.vcols⟩
    else EndsWith s o 0x07 (unitDone o s) ∧ ((unitDone o s).cx o.ctx).masks.get (maskSlotOf o) = none := by
  have hlehr : o.ofLehr = false := ofLehr_of_lt (by omega)
  rw [← opRead_unitDue]
  split
  next hok =>
    obtain ⟨hf, hmask, hws⟩ := svuOut_mask_bound h _ hok
    refine ⟨?_, unitDone_mask hclear hclean hlehr hmask⟩
    rw [unitDone_of_clean hclean]
    exact endUnit_endsWith hclear (unitDue_passed o s).ctx hf hm fun w hw => (hws w hw).trans hloc
  next hbad =>
    obtain ⟨⟨aux, hf⟩, hmask⟩ := svuOut_mask_refused h _ hbad
    exact ⟨unitDone_faults hclear hclean hlehr hf, unitDone_mask hclear hclean hlehr hmask⟩

include hm

/-- With every output in staging an operation ends, and staging holds what it stored. -/
theorem unitDone_stores (hf : (svuOut (unitDue o s) o).fault = none) (hws : ∀ w ∈ (svuOut (unitDue o s) o).wrs, w.1 = false) :
    EndsWith s o 0 (unitDone o s) ∧ (unitDone o s).staging = writesOf s.staging ((svuOut (unitDue o s) o).wrs.map (·.2)) := by
  have hp := unitDue_passed o s
  rw [unitDone_of_clean hclean]
  exact ⟨endUnit_endsWith hclear hp.ctx hf hm hws, endUnit_passed_staging hp hclear hf hm hws⟩

/-- An operation whose result is a grid of codes stores each code at its place. -/
theorem unitDone_grid (hloc : o.dO.loc = false) (hok : MemoriesOk s) {f : Fmt} {rd : Rd} {rows cols : Nat} {g : Nat → Nat → Nat}
    (h : (svuOut (unitDue o s) o).fault = none ∧ (svuOut (unitDue o s) o).wrs = viewWrites rd f o.dO (grid rows cols g))
    (hf : f.width % 8 = 0) (hstride : rows ≤ 1 ∨ cols * (f.width / 8) ≤ o.dO.rstride) :
    EndsWith s o 0 (unitDone o s) ∧ ∀ i j, i < rows → j < cols → codeIn (unitDone o s).staging f o.dO i j = g i j % 2 ^ f.width := by
  obtain ⟨hfault, hwrs⟩ := h
  obtain ⟨hend, hstaging⟩ := unitDone_stores hclear hm hclean hfault (by rw [hwrs]; exact fun w hw => (viewWrites_loc hw).trans hloc)
  refine ⟨hend, fun i j hi hj => ?_⟩
  rw [hstaging, hwrs]
  exact codeIn_grid hf hok.1 rd o.dO g hstride hi hj

theorem unitDone_csr_ends (hloc : o.dO.loc = false) (h : o.opc = 0x0E) (hn : csrCount (opRead s o) o ≤ o.dO.nnz)
    (haux : o.dO.auxLoc = false) : EndsWith s o 0 (unitDone o s) ∧
      (o.cmp = true → ∃ x ∈ ((unitDone o s).cx o.ctx).recs, x.opc = 0x0E ∧ x.info = csrCount (opRead s o) o) := by
  rw [← opRead_unitDue] at hn ⊢
  obtain ⟨hf, hinfo, hws⟩ := svuOut_csr h _ hn hloc haux
  refine ⟨(unitDone_stores hclear hm hclean hf hws).1, fun hcmp => ?_⟩
  rw [unitDone_of_clean hclean, ← h, ← hinfo]
  exact endUnit_record hclear (unitDue_passed o s).ctx hf hm hws hcmp

end

end Sys2Proof.Machine

namespace Sys2Proof.Claims

open Sys2Proof Sys2Proof.Machine

/-- SVU_OP_COMPLETE and TOPK_COMPLETE of an operation that is not the lehr's and no SCRUB. -/
theorem exec_unitComplete {topk : Bool} {c : Ctx} {q : BitVec 8} {s : State} {o : Op} (ho : s.op? c q = some o)
    (hr : unitReady (if topk then .k else .s) s o = true) (hscrub : o.opc ≠ 0x22) (hlehr : o.ofLehr = false) :
    exec (if topk then .topkComplete c q else .svuOpComplete c q) s = .next (unitDone o s) := by
  cases topk with
  | false => exact exec_svuOpComplete ho hr hscrub hlehr
  | true => exact exec_topkComplete ho hr

/-- Settles O24: an operation that reads no poison ends with its result (`unitDone_of_clean`), whose way out, to staging, to windows or to
the store buffer of a lock window, is that of `endUnit`; the values are read back from what the view's rows write (`codeIn_viewWrites`). -/
theorem unitOperationCompletes : Obligations.UnitOperationCompletes := by
  unfold Obligations.UnitOperationCompletes
  refine ⟨?general, ?topk, ?values⟩
  case general =>
    rintro topk c q s u o r ho hr hclear hscrub hlehr hclean rfl rfl hok
    refine ⟨unitDone o s, exec_unitComplete ho hr hscrub hlehr, ?_⟩
    obtain ⟨rfl, rfl, -⟩ := op?_is ho
    have hp := unitDue_passed o s
    rw [unitDone_of_clean hclean]
    obtain ⟨hothers, hsem⟩ := endUnit_passed_tenants (r := svuOut (unitDue o s) o) hp hclear hlehr
    refine ⟨(endUnit_still ..).clk, hothers, hsem, endUnit_passed_setup hp, ?_, ?_, ?_, ?_, ?_⟩
    · exact fun code aux hf _ => endUnit_faults hclear hp.ctx hlehr hf
    · exact fun hf hm hws => ⟨endUnit_endsWith hclear hp.ctx hf hm hws, endUnit_passed_staging hp hclear hf hm hws,
        fun a => endUnit_passed_frame hp hclear hf hm hws hok⟩
    · exact fun hf hm b => endUnit_passed_asks hp hf hm b
    · rintro hf hm ⟨w, hw, hwin, hbytes⟩ hports
      exact endUnit_passed_flushing hp hclear hf hm ho hw hwin hbytes hports
    · exact fun l hf hm hl => endUnit_passed_member hp hclear hf hm hl
  case topk =>
    intro c q s o ho hopc hready hclear hm hO hx hclean
    have hr : unitReady .k s o = true := unitReady_iff.2 ⟨hready, by rw [hopc]; rfl, .inr (topk_portless hopc hO hx s o.ctx)⟩
    have hout : svuOut (unitDue o s) o = topkOut (opRead s o) o := by rw [svuOut_topk hopc, opRead_unitDue]
    have hp := unitDue_passed o s
    obtain ⟨hend, hstaging⟩ := unitDone_stores hclear hm hclean (by rw [hout, topkOut_fault]) (by rw [hout]; exact topkOut_staging hO hx _)
    refine ⟨unitDone o s, exec_topkComplete ho hr, hend, ?_⟩
    obtain ⟨rfl, rfl, -⟩ := op?_is ho
    refine ⟨?_, ?_, ?_, by rw [hstaging, hout]; rfl⟩
    all_goals rw [unitDone_of_clean hclean]
    · exact endUnit_passed_setup hp
    · exact (endUnit_passed_tenants hp hclear (ofLehr_of_lt (by omega))).1
    · rw [(endUnit_still ..).clk, unitDue_clk]
  case values =>
    rintro c q s o f rd ho hr hclear hm hloc hclean hok rfl rfl
    obtain ⟨t, ht⟩ := execSvuOpComplete_next c q s
    have hdone : o.opc < 0x22 → t = unitDone o s := fun h =>
      Host.Outcome.next.inj (ht.symm.trans (exec_svuOpComplete ho hr h.ne (ofLehr_of_lt (by omega))))
    have hread := opRead_unitDue o s
    obtain ⟨rfl, rfl, -⟩ := op?_is ho
    refine ⟨t, ht, ?blend, ?reduce, ?norm, ?mask, ?csr⟩
    all_goals intro hopc
    all_goals obtain rfl := hdone (by omega)
    case blend =>
      exact fun hf hstride => unitDone_grid hclear hm hclean hloc hok (hread ▸ svuOut_blend hopc (unitDue o s)) hf (.inr hstride)
    case reduce =>
      exact fun hf hstride => unitDone_grid hclear hm hclean hloc hok (hread ▸ svuOut_reduce hopc (unitDue o s)) hf (.inr hstride)
    case norm =>
      obtain ⟨hend, hcode⟩ := unitDone_grid hclear hm hclean hloc hok (hread ▸ svuOut_norm hopc (unitDue o s)) rfl (.inl le_rfl)
      exact ⟨hend, hcode 0 0 Nat.one_pos Nat.one_pos⟩
    case mask => exact unitDone_mask_ends hclear hclean hm hloc hopc
    case csr =>
      rintro n rfl
      refine ⟨fun hn => ?_, fun hn haux => unitDone_csr_ends hclear hm hclean hloc hopc hn haux⟩
      exact unitDone_faults hclear hclean (ofLehr_of_lt (by omega)) (svuOut_csr_refused hopc (unitDue o s) (by rwa [hread]))

end Sys2Proof.Claims
end

section
/-! SUPPORT. The job of the lehr: where its next operation goes, and what the control of R141 makes of the job. -/

namespace Sys2Proof.Machine

open Sys2Proof Sys2Proof.Claims

theorem job?_iff {s : State} {j : LehrJob} {o : Op} : job? s = some (j, o) ↔ s.lehr = some j ∧ s.op? j.ctx j.seq = some o := by
  unfold job?
  cases s.lehr with
  | none => simp
  | some i =>
    simp only [Option.map_eq_some_iff, Prod.mk.injEq, Option.some.injEq]
    exact ⟨fun ⟨_, h, hi, ho⟩ => ⟨hi, hi ▸ ho ▸ h⟩, fun ⟨hi, h⟩ => ⟨o, hi ▸ h, hi, rfl⟩⟩

/-! ### The next operation -/

/-- The job `k` is `j`, with other operations still to come. -/
def SameJob (j k : LehrJob) : Prop := k = { j with todo := k.todo, ws := k.ws }

theorem lehrNext_sameJob {s : State} {j : LehrJob} (h : s.lehr = some j) : ∃ k, (lehrNext s).lehr = some k ∧ SameJob j k := by
  unfold lehrNext
  cases hj : job? s with
  | none => exact ⟨j, h, rfl⟩
  | some x =>
    obtain ⟨i, o⟩ := x
    obtain rfl : j = i := Option.some.inj (h.symm.trans (job?_iff.1 hj).1)
    dsimp only
    split
    · exact ⟨_, rfl, rfl⟩
    · split <;> exact ⟨_, rfl, rfl⟩
    · exact ⟨_, rfl, rfl⟩

/-- A setup or an iteration whose first operation is one of the SVU begins with it. -/
theorem lehrBegin_svu {s : State} {j : LehrJob} {o : Op} (h : job? s = some (j, o)) (fc : Nat) (ws : List Wr) (l : List LehrStep) :
    lehrBegin j (.svu fc ws :: l) s =
      { s.modOp o.ctx o.seq (fun _ => stepOp s j o (.svu fc ws)) with
        lehr := some { j with begun := true, todo := l, ws := ws, patches := [] } } := by
  have hj : job? { s with lehr := some { j with begun := true, todo := .svu fc ws :: l, patches := [] } } =
      some ({ j with begun := true, todo := .svu fc ws :: l, patches := [] }, o) := job?_iff.2 ⟨rfl, (job?_iff.1 h).2⟩
  simp only [lehrBegin, lehrNext, hj]
  rfl

theorem lehrBegin_svu_frame {s : State} {j : LehrJob} {o : Op} (h : job? s = some (j, o)) (fc : Nat) (ws : List Wr) (l : List LehrStep) :
    (lehrBegin j (.svu fc ws :: l) s).lehr = some { j with begun := true, todo := l, ws := ws, patches := [] } ∧
      SameSetup s (lehrBegin j (.svu fc ws :: l) s) ∧ (lehrBegin j (.svu fc ws :: l) s).staging = s.staging ∧
      (lehrBegin j (.svu fc ws :: l) s).ctx = s.ctx := by
  rw [lehrBegin_svu h]
  exact ⟨rfl, ⟨rfl, rfl, rfl⟩, rfl, rfl⟩

theorem lehrBegin_svu_mem {s : State} {j : LehrJob} {o : Op} (h : job? s = some (j, o)) (fc : Nat) (l : List LehrStep) :
    ∃ p ∈ (lehrBegin j (.svu fc [] :: l) s).ops, p.ctx = j.ctx ∧ p.seq = j.seq ∧ p.opc = 0x30B ∧ p.stage = .waiting ∧ p.fc = fc := by
  obtain ⟨-, ho⟩ := job?_iff.1 h
  obtain ⟨hc, hq, hside⟩ := op?_is ho
  have hi : o.is o.ctx o.seq = true := by simp [Op.is, Op.under, hside]
  rw [lehrBegin_svu h]
  exact ⟨_, List.mem_map.2 ⟨o, mem_of_op? ho, if_pos hi⟩, hc, hq, rfl, rfl, rfl⟩

/-! ### When a setup or an iteration begins and ends -/

theorem lehrIdle_opc {s : State} {o : Op} (h : lehrIdle s o = true) : o.opc = 0x0B := by
  by_contra hopc
  simp [lehrIdle, hopc] at h

theorem lehrMay_begun {s : State} {j : LehrJob} {o : Op} (h : lehrMay s j o = true) : j.begun = false := by
  simp only [lehrMay, Bool.and_eq_true, Bool.not_eq_true'] at h
  exact h.1.2

theorem lehrOver_of_not_begun {j : LehrJob} (h : j.begun = false) (s : State) (o : Op) : lehrOver s j o = false := by
  simp [lehrOver, h]

/-- A ROOT with the results of its job (R143). -/
def rootResult (j : LehrJob) (o : Op) : Op :=
  { o with amax := rootAmax j.stats, info := (j.stats.filter fun r => r.status != 0).length }

section
variable {s : State} {j : LehrJob} {o : Op} (h : job? s = some (j, o))
include h

theorem lehrSetup_begins (hn : j.next = .setup) (hmay : lehrMay s j o = true) :
    exec .lehrSetup s = .next (lehrBegin j (setupSteps j.n) s) := by
  show execLehrSetup s = _
  simp [execLehrSetup, h, hn, hmay, lehrOver_of_not_begun (lehrMay_begun hmay)]

theorem lehrSetup_ends (hn : j.next = .setup) (hover : lehrOver s j o = true) : exec .lehrSetup s = .next (endSetup j o s) := by
  show execLehrSetup s = _
  simp [execLehrSetup, h, hn, hover]

theorem lehrIteration_begins (hn : j.next = .iterate) (hmay : lehrMay s j o = true) :
    exec .lehrIteration s = .next (lehrBegin j (iterSteps (rootP o.word) j.n) s) := by
  show execLehrIteration s = _
  simp [execLehrIteration, h, hn, hmay, lehrOver_of_not_begun (lehrMay_begun hmay)]

theorem lehrIteration_ends (hn : j.next = .iterate) (hover : lehrOver s j o = true) :
    exec .lehrIteration s = .next (endIteration j o s) := by
  show execLehrIteration s = _
  simp [execLehrIteration, h, hn, hover]

theorem rootComplete_runs (hn : j.next = .finish) (hidle : lehrIdle s o = true) :
    exec .rootComplete s = .next (finish (rootResult j o) [] [] s) := by
  show execRootComplete s = _
  simp [execRootComplete, rootResult, h, hn, hidle]

end

/-! ### The control (R141) -/

/-- The job `k` is `j` but for what the control decides from: the residuals met, the rises, the restarts and their ε. -/
def Controlled (j k : LehrJob) : Prop :=
  k = { j with met := k.met, best := k.best, bestStage := k.bestStage, rises := k.rises, restarts := k.restarts, eps := k.eps }

theorem Controlled.trans {j i k : LehrJob} (h : Controlled j i) (h' : Controlled i k) : Controlled j k := by
  unfold Controlled at *
  rw [h', h]

theorem restartAct_controlled (j : LehrJob) : Controlled j (restartAct j).1 := by
  unfold restartAct
  dsimp only
  repeat' split
  all_goals rfl

theorem setupAct_controlled (cap : Nat) (tol : Val) (j : LehrJob) : Controlled j (setupAct cap tol j).1 := by
  unfold setupAct
  split <;> rfl

theorem iterAct_controlled (cap : Nat) (tol prev : Val) (j : LehrJob) : Controlled j (iterAct cap tol prev j).1 := by
  have hrises : ∀ i, Controlled j i → Controlled j (if i.rises == 3 then restartAct i else (i, loopAct cap i false)).1 := by
    intro i hi
    split
    exacts [hi.trans (restartAct_controlled i), hi]
  unfold iterAct
  split
  · split <;> rfl
  · split
    · rfl
    · split
      exacts [restartAct_controlled j, hrises _ rfl]

theorem rootCap_pos (w : Inst) : 0 < rootCap w := by
  unfold rootCap
  split
  · decide
  · next h => exact Nat.pos_of_ne_zero (by simpa using h)

/-- At the start of an attempt the control goes on: no cap is 0, and an attempt that has converged polishes twice. -/
theorem loopAct_goes {cap : Nat} (hcap : 0 < cap) {j : LehrJob} (hit : j.it = 0) (hmet : j.met = none ∨ j.met = some 0) (copied : Bool) :
    ∃ cp, loopAct cap j copied = .go cp := by
  have h0 : ¬0 = cap := by omega
  rcases hmet with hmet | hmet <;> exact ⟨copied, by simp [loopAct, hmet, hit, h0]⟩

theorem setupAct_goes {cap : Nat} (hcap : 0 < cap) (tol : Val) {j : LehrJob} (hit : j.it = 0) (hmet : j.met = none) :
    ∃ cp, (setupAct cap tol j).2 = .go cp := by
  unfold setupAct
  split
  · exact loopAct_goes (j := { j with met := some 0, best := j.r, bestStage := 0 }) hcap hit (.inr rfl) true
  · exact loopAct_goes hcap hit (.inl hmet) false

/-! ### What an action makes of the job -/

/-- The job after an action of the control. -/
def actJob (o : Op) (j : LehrJob) : LehrAct → LehrJob
  | .go _ => { j with next := .iterate, begun := false }
  | .again => { j with next := .setup, begun := false, it := 0, rises := 0, met := none }
  | .stop _ _ status stage res =>
    { ctx := j.ctx, seq := j.seq, mat := j.mat + 1, n := j.n, eps := rootEps o.word,
      stats := j.stats ++ [{ status := status, iter := j.total, rst := j.restarts, stage := stage,
                             eps := BitVec.ofNat 32 (code32 j.eps), res := res }],
      next := if j.mat + 1 == rootCnt o.word then .finish else .setup, chain := j.chain, bays := j.bays }

theorem actJob_begun (o : Op) (j : LehrJob) (a : LehrAct) : (actJob o j a).begun = false := by cases a <;> rfl

/-- The job goes on with an iteration only when the control neither stops nor restarts. -/
theorem actJob_iterates {o : Op} {j : LehrJob} {a : LehrAct} (h : (actJob o j a).next = .iterate) :
    actJob o j a = { j with next := .iterate, begun := false } := by
  cases a with
  | go => rfl
  | again => cases h
  | stop =>
    simp only [actJob] at h
    split at h <;> cases h

theorem lehrWrite_lehr (o : Op) (ws : List Wr) (s : State) : (lehrWrite o ws s).lehr = s.lehr := by
  show (issueWrites _ _ _ _ ws s).1.lehr = s.lehr
  rw [issueWrites_rest]
  rfl

theorem lehrWrite_setup (o : Op) (ws : List Wr) (s : State) : SameSetup s (lehrWrite o ws s) := by
  have h := issueWrites_sound o.ctx (.op o.ctx o.seq) (opPorts s o) (outRanges o) ws s
  exact ⟨h.prot, h.build, h.pending⟩

theorem lehrCopy_job {s : State} {j : LehrJob} (h : s.lehr = some j) (ws : List Wr) (n : Nat) :
    ∃ k, (lehrCopy ws n s).lehr = some k ∧ SameJob j k :=
  lehrNext_sameJob (j := { j with todo := [.svu (rootS n) ws] }) (by rw [h]; rfl)

theorem lehrCopy_setup (ws : List Wr) (n : Nat) (s : State) : SameSetup s (lehrCopy ws n s) := by
  have h : SameSetup _ (lehrCopy ws n s) := (lehrNext_sameTime _).setup
  exact ⟨h.prot, h.build, h.pending⟩

/-- The block when the control has chosen an action: the job follows it, and the input it had read is used up. -/
def acted (o : Op) (j : LehrJob) (a : LehrAct) (s : State) : State :=
  { s.modOp o.ctx o.seq (fun p => { p with got := [] }) with lehr := some (actJob o j a) }

/-- Beside the job, an action copies X in a step of the SVU, or writes at once, or neither. -/
theorem lehrAct_cases (o : Op) (j : LehrJob) (a : LehrAct) (s : State) :
    lehrAct o j a s = acted o j a s ∨ (∃ ws, lehrAct o j a s = lehrCopy ws j.n (acted o j a s)) ∨
      ∃ ws, lehrAct o j a s = lehrWrite o ws (acted o j a s) := by
  cases a with
  | go cp =>
    cases cp with
    | false => exact .inl rfl
    | true => exact .inr (.inl ⟨_, rfl⟩)
  | again => exact .inl rfl
  | stop cp fill status stage res =>
    cases fill with
    | true => exact .inr (.inr ⟨_, rfl⟩)
    | false =>
      cases cp with
      | true => exact .inr (.inl ⟨_, rfl⟩)
      | false => exact .inr (.inr ⟨_, rfl⟩)

theorem lehrAct_job (o : Op) (j : LehrJob) (a : LehrAct) (s : State) :
    ∃ k, (lehrAct o j a s).lehr = some k ∧ SameJob (actJob o j a) k := by
  rcases lehrAct_cases o j a s with h | ⟨ws, h⟩ | ⟨ws, h⟩
  all_goals rw [h]
  · exact ⟨_, rfl, rfl⟩
  · exact lehrCopy_job rfl ..
  · exact ⟨_, lehrWrite_lehr .., rfl⟩

theorem lehrAct_setup (o : Op) (j : LehrJob) (a : LehrAct) (s : State) : SameSetup s (lehrAct o j a s) := by
  have hacted : SameSetup s (acted o j a s) := ⟨rfl, rfl, rfl⟩
  rcases lehrAct_cases o j a s with h | ⟨ws, h⟩ | ⟨ws, h⟩
  all_goals rw [h]
  · exact hacted
  · exact SameSetup.trans hacted (lehrCopy_setup ..)
  · exact SameSetup.trans hacted (lehrWrite_setup ..)

end Sys2Proof.Machine
end

section
/-! Settles the statements about the setups and iterations of the lehr and about the end of a ROOT. -/

namespace Sys2Proof.Machine

open Sys2Proof Sys2Proof.Claims

/-! ### The end of a setup -/

/-- The matrix of the job's setup as its view gives it. -/
abbrev inputOf (s : State) (j : LehrJob) (o : Op) : List Val :=
  (codesOf (opRead s o) .fp32 (batchView o.da j.mat)).flatten.map (decodeFmt .fp32)

/-- The tolerance of a ROOT (R141). -/
def tolOf (o : Op) : Val := .fin false 1 (-(rootTol o.word : Int))

/-- The job at the start of an attempt, before the control sees its residual (R139). -/
def attemptJob (j : LehrJob) (c : Int) (x m : List Val) (r : Val) : LehrJob :=
  { j with cExp := c, c0Exp := if j.restarts == 0 then c else j.c0Exp, x := x, m := m, r := r, it := 0, rises := 0, met := none, stage := 0 }

/-- What the control makes of the start of an attempt. -/
def setupControl (o : Op) (i : LehrJob) : LehrJob × LehrAct := setupAct (rootCap o.word) (tolOf o) i

section
variable {s : State} {j : LehrJob} {o : Op} (hclean : poisonedIn s (viewRanges .fp32 (batchView o.da j.mat)) = none)
include hclean

theorem endSetup_diverged {f : Val} (h : rootSetup (rootP o.word) j.n j.eps (inputOf s j o) = .inl f) :
    endSetup j o s = lehrAct o j (.stop false true 3 0 f) s := by
  simp only [endSetup, hclean, h]

theorem endSetup_attempt {c : Int} {x m : List Val} {r : Val}
    (h : rootSetup (rootP o.word) j.n j.eps (inputOf s j o) = .inr (c, x, m, r)) {i : LehrJob × LehrAct}
    (hi : setupControl o (attemptJob j c x m r) = i) :
    endSetup j o s = lehrAct o i.1 i.2 (lehrWrite o [workWrite o i.1 0 x, workWrite o i.1 1 m] s) := by
  simp only [endSetup, hclean, h, ← hi]
  rfl

end

/-! ### The end of an iteration -/

/-- What the control makes of an iteration. -/
def iterControl (o : Op) (j : LehrJob) : LehrJob × LehrAct :=
  iterAct (rootCap o.word) (tolOf o) j.r (rootIterate (rootP o.word) j).2

theorem endIteration_eq {s : State} {j : LehrJob} {o : Op} (hclean : poisonedIn s [rootWork j.n o.db] = none)
    {i : LehrJob × LehrAct} (hi : iterControl o j = i) :
    endIteration j o s = lehrAct o i.1 i.2 (lehrWrite o [workWrite o i.1 0 i.1.x, workWrite o i.1 1 i.1.m,
      workWrite o i.1 2 (rootIterate (rootP o.word) j).1, workWrite o i.1 3 i.1.m] s) := by
  simp only [endIteration, hclean, ← hi]
  rfl

/-- The products that T·y runs through are clean where no joint corrupts a value. -/
theorem rootY_of_clean {j : LehrJob} (h : ∀ i, j.patch i = []) (p k : Nat) :
    rootY p j k = (List.range k).foldl (fun y _ => prod j.pick j.n (rootT p j.n j.m) y) j.m := by
  simp [rootY, h, prodWith]

/-! ### The end of a ROOT -/

theorem finish_nothing {o : Op} (h : o.wrs = 0) (s : State) : finish o [] [] s = release o (writeStaging [] s) :=
  awaitFlushes_done (by rw [h]; rfl) _

theorem finish_nothing_keeps {o : Op} (h : o.wrs = 0) (s : State) : Keeps s (finish o [] [] s) := by
  rw [finish_nothing h]
  exact (Keeps.of_eq rfl rfl rfl rfl rfl : Keeps s (writeStaging [] s)).trans (release_keeps ..)

/-- The job of an operation ends with it. -/
theorem release_lehr {o : Op} {s : State} {j : LehrJob} (h : s.lehr = some j) (hc : j.ctx = o.ctx) (hq : j.seq = o.seq) :
    (release o s).lehr = none := by
  rw [release, complete_lehr, releaseUnits_eq]
  cases endingJob o s <;> simp [freeProducts, unitsFree, h, hc, hq]

/-- A ROOT delivers its record, whatever its CMP bit says. -/
theorem release_rootRecord {o : Op} {s : State} (hr : (s.cx o.ctx).rstBusy = false) (h0 : o.status = 0) (hopc : o.opc = 0x0B) :
    ∃ r ∈ ((release o s).cx o.ctx).recs, r.opc = 0x0B ∧ r.status = 0 ∧ r.info = o.info := by
  have hrst : ((releaseUnits o s).cx o.ctx).rstBusy = false := by rw [cx_of_ctx (releaseUnits_ctx ..), hr]
  have hsend : (o.cmp || o.opc == 0x0B) = true := by simp [hopc]
  obtain ⟨u, hu⟩ := deliver_mem o.ctx (o.toRec (timebase (retire o (releaseUnits o s)))) (retire o (releaseUnits o s))
  rw [release, complete_clear hrst h0, hsend]
  exact ⟨_, hu, hopc, h0, by simp [Op.toRec, h0]⟩

end Sys2Proof.Machine

namespace Sys2Proof.Claims

open Sys2Proof Sys2Proof.Machine

/-- Settles O21: a setup and an iteration begin with a step of the SVU (`lehrBegin_svu`); their ends hand the job to the control, which
goes on from a setup (`setupAct_goes`) and keeps the values of an iteration (`iterAct_controlled`). -/
theorem lehrSetupAndIterations : Obligations.LehrSetupAndIterations := by
  refine ⟨fun s j o hj hn hmay => ?begins, fun s j o hj hn hover hclean => ?setup, fun s j o hj hn hover hclean => ?iteration⟩
  case begins =>
    cases hs : j.next with
    | setup =>
      obtain ⟨hlehr, hset, hstaging, hctx⟩ := lehrBegin_svu_frame hj (rootS j.n) [] (setupSteps j.n).tail
      exact ⟨_, _, lehrSetup_begins hj hs hmay, hlehr, hset, rfl, hs, rfl, rfl, rfl, rfl, rfl, rfl, hstaging, hctx, lehrBegin_svu_mem hj ..⟩
    | iterate =>
      obtain ⟨hlehr, hset, hstaging, hctx⟩ := lehrBegin_svu_frame hj (rootS j.n) [] (iterSteps (rootP o.word) j.n).tail
      exact ⟨_, _, lehrIteration_begins hj hs hmay, hlehr, hset, rfl, hs, rfl, rfl, rfl, rfl, rfl, rfl, hstaging, hctx,
        lehrBegin_svu_mem hj ..⟩
    | finish => exact absurd hs hn
  case setup =>
    rw [lehrSetup_ends hj hn hover]
    cases hsetup : rootSetup (rootP o.word) j.n j.eps (inputOf s j o) with
    | inl f =>
      obtain ⟨k, hk, hsame⟩ := lehrAct_job o j (.stop false true 3 0 f) s
      rw [endSetup_diverged hclean hsetup]
      exact ⟨_, k, rfl, hk, lehrAct_setup .., by rw [hsame]; rfl, _, by rw [hsame]; rfl, rfl, rfl, by rw [hsame]; rfl⟩
    | inr v =>
      obtain ⟨c, x, m, r⟩ := v
      obtain ⟨cp, hgoes⟩ := setupAct_goes (rootCap_pos o.word) (tolOf o) (j := attemptJob j c x m r) rfl rfl
      have hctl : Controlled (attemptJob j c x m r) (setupControl o (attemptJob j c x m r)).1 := setupAct_controlled ..
      change (setupControl o (attemptJob j c x m r)).2 = .go cp at hgoes
      generalize hi : setupControl o (attemptJob j c x m r) = i at hctl hgoes
      rw [endSetup_attempt hclean hsetup hi, hgoes]
      obtain ⟨k, hk, hsame⟩ := lehrAct_job o i.1 (.go cp) (lehrWrite o _ s)
      refine ⟨_, k, rfl, hk, SameSetup.trans (lehrWrite_setup ..) (lehrAct_setup ..), ?_⟩
      rw [hsame, hctl]
      exact ⟨rfl, rfl, rfl, rfl, rfl, rfl, rfl, rfl⟩
  case iteration =>
    have hctl : Controlled (rootIterate (rootP o.word) j).2 (iterControl o j).1 := iterAct_controlled ..
    generalize hi : iterControl o j = i at hctl
    rw [lehrIteration_ends hj hn hover, endIteration_eq hclean hi]
    obtain ⟨k, hk, hsame⟩ := lehrAct_job o i.1 i.2 (lehrWrite o _ s)
    refine ⟨_, k, rfl, hk, SameSetup.trans (lehrWrite_setup ..) (lehrAct_setup ..), by rw [hsame]; exact actJob_begun .., fun hnext => ?_⟩
    have hgoes : (actJob o i.1 i.2).next = .iterate := by rw [← hnext, hsame]
    rw [hsame, actJob_iterates hgoes, hctl]
    refine ⟨rfl, rfl, rfl, rfl, fun hpatch => ⟨?_, rootY_of_clean hpatch ..⟩⟩
    show prodWith (j.patch (rootP o.word)) _ _ _ _ = _
    rw [hpatch]
    rfl

/-- Settles O22: a ROOT has nothing left to write, and its end takes the job with it. -/
theorem rootCompletes : Obligations.RootCompletes := by
  intro s j o hj hn hidle h0 hw hr
  obtain ⟨hl, ho⟩ := job?_iff.1 hj
  obtain ⟨hc, hq, -⟩ := op?_is ho
  have hk : Keeps s (finish (rootResult j o) [] [] s) := finish_nothing_keeps (o := rootResult j o) hw s
  refine ⟨_, rootComplete_runs hj hn hidle, ?_, ?_, hk.staging, sameSetup_of_keeps hk, ?_⟩
  all_goals rw [finish_nothing (o := rootResult j o) hw]
  · exact release_lehr (s := writeStaging [] s) hl hc.symm hq.symm
  · exact release_endsWith rfl rfl rfl rfl h0 hr
  · exact release_rootRecord (o := rootResult j o) (s := writeStaging [] s) hr h0 (lehrIdle_opc hidle)

end Sys2Proof.Claims
end

section
/-! SUPPORT. What an instruction leaves when it completes, and what the rows of the dispatch queues have in common. -/

namespace Sys2Proof.Machine

open Sys2Proof Sys2Proof.Claims

/-! ### An operation without a fault completes -/

/-- A context but for its records and for what its queues wait for. -/
def CtxEnded (x y : CtxState) : Prop :=
  y = { x with qm := { x.qm with fence := y.qm.fence, prev := y.qm.prev }, qp := { x.qp with fence := y.qp.fence, prev := y.qp.prev },
               recs := y.recs }

theorem CtxEnded.refl (x : CtxState) : CtxEnded x x := rfl

theorem CtxEnded.trans {x y z : CtxState} (h : CtxEnded x y) (k : CtxEnded y z) : CtxEnded x z := by
  unfold CtxEnded at *
  rw [k, h]

section
variable {x y : CtxState} (h : CtxEnded x y)
include h

theorem CtxEnded.fault : y.fault = x.fault := by rw [h]
theorem CtxEnded.mode : y.mode = x.mode := by rw [h]
theorem CtxEnded.lockWin : y.lockWin = x.lockWin := by rw [h]
theorem CtxEnded.rstBusy : y.rstBusy = x.rstBusy := by rw [h]
theorem CtxEnded.sem : y.sem = x.sem := by rw [h]
theorem CtxEnded.alt : y.alt = x.alt := by rw [h]

theorem CtxEnded.head (q : QSel) : (y.queue q).head = (x.queue q).head := by
  rw [h]
  cases q <;> rfl

theorem CtxEnded.waiting (q : QSel) : (y.queue q).waiting = (x.queue q).waiting := by
  rw [h]
  cases q <;> rfl

end

/-- Two states differ in contexts, bays, operations and their units, counters and the trace alone. -/
def Local (s t : State) : Prop :=
  t = { s with ctx := t.ctx, bay := t.bay, ops := t.ops, svu := t.svu, topk := t.topk, lehr := t.lehr, cnt := t.cnt, trace := t.trace }

theorem Local.refl (s : State) : Local s s := rfl

theorem Local.trans {s t u : State} (h : Local s t) (k : Local t u) : Local s u := by
  unfold Local at *
  rw [k, h]

theorem Local.foldl {α : Type} {f : State → α → State} (h : ∀ s x, Local s (f s x)) (l : List α) (s : State) : Local s (l.foldl f s) := by
  induction l generalizing s with
  | nil => exact Local.refl s
  | cons x l ih => exact (h s x).trans (ih _)

theorem Traced.local {s t : State} (h : Traced s t) : Local s t := by
  unfold Local
  rw [h.rest]

section
variable {s t : State} (h : Local s t)
include h

theorem Local.clk : t.clk = s.clk := by rw [h]
theorem Local.g : t.g = s.g := by rw [h]
theorem Local.damp : t.damp = s.damp := by rw [h]
theorem Local.dbg : t.dbg = s.dbg := by rw [h]
theorem Local.ras : t.ras = s.ras := by rw [h]

end

/-- Operations of a context may have gone on: its records and the holds of its queues apart nothing of a context differs, nor the time, the
memories, what the ports hold or which bays serve. -/
structure Settles (c : Ctx) (s t : State) : Prop where
  others : ∀ d, d ≠ c → t.cx d = s.cx d
  own : CtxEnded (s.cx c) (t.cx c)
  keeps : Keeps s t
  still : Still s t
  rest : Local s t
  ports : ∀ b, (t.by b).port = (s.by b).port
  oos : ∀ b, (t.by b).oos = (s.by b).oos

/-- The same, and no operation is new. -/
structure Ends (c : Ctx) (s t : State) : Prop extends Settles c s t where
  ops : ∀ o ∈ t.ops, o ∈ s.ops

theorem Settles.trans {c : Ctx} {s t u : State} (h : Settles c s t) (k : Settles c t u) : Settles c s u :=
  ⟨fun d hd => (k.others d hd).trans (h.others d hd), h.own.trans k.own, h.keeps.trans k.keeps, h.still.trans k.still,
    h.rest.trans k.rest, fun b => (k.ports b).trans (h.ports b), fun b => (k.oos b).trans (h.oos b)⟩

theorem Ends.trans {c : Ctx} {s t u : State} (h : Ends c s t) (k : Ends c t u) : Ends c s u :=
  ⟨h.toSettles.trans k.toSettles, fun o ho => h.ops o (k.ops o ho)⟩

/-- What changes no context, and of the bays neither ports nor service. -/
theorem Settles.of_ctx {c : Ctx} {s t : State} (hc : t.ctx = s.ctx) (hk : Keeps s t) (hs : Still s t) (hr : Local s t)
    (hp : ∀ b, (t.by b).port = (s.by b).port ∧ (t.by b).oos = (s.by b).oos) : Settles c s t :=
  ⟨fun d _ => cx_of_ctx hc d, by rw [cx_of_ctx hc]; exact CtxEnded.refl _, hk, hs, hr, fun b => (hp b).1, fun b => (hp b).2⟩

theorem Settles.refl (c : Ctx) (s : State) : Settles c s s := .of_ctx rfl (Keeps.refl s) (Still.refl s) rfl fun _ => ⟨rfl, rfl⟩

theorem Ends.refl (c : Ctx) (s : State) : Ends c s s := ⟨.refl c s, fun _ h => h⟩

theorem Traced.settles {s t : State} (h : Traced s t) (hk : Keeps s t) (c : Ctx) : Settles c s t :=
  .of_ctx (by rw [h.rest]) hk h.still h.local fun b => by rw [h.bays b]; exact ⟨rfl, rfl⟩

theorem Traced.ends {s t : State} (h : Traced s t) (hk : Keeps s t) (c : Ctx) : Ends c s t :=
  ⟨h.settles hk c, fun o ho => by rw [h.rest] at ho; exact ho⟩

theorem modCtx_ends (s : State) (c : Ctx) {f : CtxState → CtxState} (h : ∀ x, CtxEnded x (f x)) : Ends c s (s.modCtx c f) :=
  ⟨⟨fun d hd => modCtx_cx_ne s c f hd, by rw [modCtx_cx]; exact h _, modCtx_keeps .., modCtx_still .., rfl, fun _ => rfl, fun _ => rfl⟩,
    fun _ ho => ho⟩

theorem forget_ends (c : Ctx) (q : BitVec 8) (s : State) : Ends c s (forget c q s) := by
  unfold forget
  exact modCtx_ends s c fun _ => rfl

theorem deliver_ends (c : Ctx) (r : Rec) (s : State) : Ends c s (deliver c r s) := by
  unfold deliver
  exact modCtx_ends s c fun _ => rfl

/-- Changes of the bays that keep what `p` says of a bay. -/
theorem modBays_by_eq {α : Type} (p : BayState → α) {f : Bay → BayState → BayState} (h : ∀ b x, p (f b x) = p x) (l : List Bay) (s : State)
    (d : Bay) : p ((s.modBays l f).by d) = p (s.by d) := by
  unfold State.modBays
  refine foldl_eq (fun s : State => p (s.by d)) (fun s b => ?_) l s
  rw [modBay_by_cases]
  split
  · next e => rw [h, e]
  · rfl

/-- A retired operation is counted in one bay (R169). -/
def BayState.counted (o : Op) (x : BayState) : BayState := { x with opsRet := x.opsRet + 1, sel := x.sel.map (selOp o) }

theorem countOp_eq (o : Op) (s : State) : countOp o s = if s.cnt.frozen then s else
    State.modBays { s with cnt := { s.cnt with ops := s.cnt.ops + 1, gsel := s.cnt.gsel.map (selOp o) } } (maskBays o.recBays)
      fun _ => BayState.counted o := rfl

theorem countOp_oos (o : Op) (s : State) (b : Bay) : ((countOp o s).by b).oos = (s.by b).oos := by
  rw [countOp_eq]
  split
  · rfl
  · rw [modBays_by_eq BayState.oos (f := fun _ => BayState.counted o) fun _ _ => rfl]
    rfl

theorem modBays_local (s : State) (l : List Bay) (f : Bay → BayState → BayState) : Local s (s.modBays l f) :=
  Local.foldl (f := fun s b => s.modBay b (f b)) (fun _ _ => rfl) l s

theorem countOp_local (o : Op) (s : State) : Local s (countOp o s) := by
  rw [countOp_eq]
  split
  · exact Local.refl s
  · exact Local.trans (t := { s with cnt := _ }) rfl (modBays_local ..)

theorem countOp_ends (o : Op) (s : State) (c : Ctx) : Ends c s (countOp o s) :=
  ⟨.of_ctx (countOp_ctx o s) (countOp_keeps ..) (countOp_still ..) (countOp_local o s) fun b => ⟨((countOp_baysKept o s).bays b).port, countOp_oos o s b⟩, fun p hp => by rwa [countOp_ops] at hp⟩

theorem dropOp_ends (s : State) (c d : Ctx) (q : BitVec 8) : Ends c s (s.dropOp d q) :=
  ⟨.of_ctx rfl (dropOp_keeps ..) (dropOp_still ..) rfl fun _ => ⟨rfl, rfl⟩, fun _ h => (List.mem_filter.1 h).1⟩

theorem modOp_settles (s : State) (c d : Ctx) (q : BitVec 8) (f : Op → Op) : Settles c s (s.modOp d q f) :=
  .of_ctx rfl (modOp_keeps ..) (modOp_still ..) rfl fun _ => ⟨rfl, rfl⟩

theorem ifThen_ends {c : Ctx} {b : Bool} {f : State → State} (h : ∀ s, Ends c s (f s)) (s : State) : Ends c s (State.ifThen b f s) := by
  cases b
  exacts [Ends.refl c s, h s]

theorem emitOp_ends (a b d : Nat) (o : Op) (s : State) (c : Ctx) : Ends c s (emitOp a b d o s) :=
  (emitOp_traced ..).ends (emitOp_keeps ..) c

theorem retire_ends (o : Op) (s : State) : Ends o.ctx s (retire o s) :=
  ((((dropOp_ends s o.ctx o.ctx o.seq).trans (forget_ends ..)).trans (countOp_ends ..)).trans
    ((endStall_traced ..).ends (endStall_keeps ..) _)).trans (emitOp_ends ..)

/-- An operation without a fault completes, or leaves without a trace under a tenant reset. -/
theorem complete_ends {o : Op} (h0 : o.status = 0) (s : State) : Ends o.ctx s (complete o s) := by
  cases hr : (s.cx o.ctx).rstBusy with
  | true =>
    rw [complete, if_pos hr]
    exact dropOp_ends ..
  | false =>
    rw [complete_clear hr h0]
    exact (retire_ends o s).trans (ifThen_ends (deliver_ends _ _) _)

theorem releaseUnits_oos (o : Op) (s : State) (b : Bay) : ((releaseUnits o s).by b).oos = (s.by b).oos := by
  rw [releaseUnits_by]
  split <;> rfl

theorem releaseUnits_local (o : Op) (s : State) : Local s (releaseUnits o s) := by
  rw [releaseUnits_eq]
  unfold freeProducts
  split <;> rfl

theorem releaseUnits_ends (o : Op) (s : State) (c : Ctx) : Ends c s (releaseUnits o s) :=
  ⟨.of_ctx (releaseUnits_ctx ..) (releaseUnits_keeps ..) (releaseUnits_still ..) (releaseUnits_local o s) fun b => ⟨releaseUnits_port o s b, releaseUnits_oos o s b⟩,
    fun p hp => by rwa [releaseUnits_ops] at hp⟩

theorem release_ends {o : Op} (h0 : o.status = 0) (s : State) : Ends o.ctx s (release o s) :=
  (releaseUnits_ends o s o.ctx).trans (complete_ends h0 _)

theorem completeNow_ends {o : Op} (h0 : o.status = 0) (s : State) : Ends o.ctx s (completeNow o s) :=
  (emitOp_ends ..).trans (complete_ends h0 _)

theorem enqueue_settles (o : Op) (s : State) (c : Ctx) : Settles c s (enqueue o s) :=
  .of_ctx (enqueue_ctx ..) (enqueue_keeps ..) (Still.trans (t := { s with ops := s.ops ++ [o] }) (.of_eq rfl rfl rfl rfl rfl) (emitOp_traced ..).still)
    (Local.trans (t := { s with ops := s.ops ++ [o] }) rfl (emitOp_traced ..).local) fun b => by
      rw [enqueue, (emitOp_traced _ _ _ _ _).bays b]
      exact ⟨rfl, rfl⟩

theorem awaitFlushes_settles {o : Op} (h0 : o.status = 0) (n : Nat) (s : State) : Settles o.ctx s (awaitFlushes o n s) := by
  unfold awaitFlushes
  split
  exacts [(release_ends h0 s).toSettles, modOp_settles ..]

/-- The ports of a context's bays stay those while its set and the bays in service do. -/
theorem Settles.portBays {c : Ctx} {s t : State} (h : Settles c s t) : t.portBays c = s.portBays c :=
  portBays_congr (sameSetup_of_keeps h.keeps) h.own.alt h.oos

/-! ### The queue moves on -/

theorem loopEnd_ends (c : Ctx) (q : QSel) (l : Loop) (s : State) : Ends c s (loopEnd c q l s) := by
  have h : ∀ o : Op, o.ctx = c → o.status = 0 → Ends c s (complete o s) := fun o e h0 => e ▸ complete_ends h0 s
  exact h _ rfl rfl

/-- Moving a queue on completes at most its LOOP. -/
theorem takeHead_ends (c : Ctx) (q : QSel) (w : Inst) (s : State) : Ends c (moveQueue c q w s) (takeHead c q w s) := by
  unfold takeHead
  dsimp only
  split
  · exact loopEnd_ends ..
  · exact Ends.refl ..

theorem moveQueue_cx (c : Ctx) (q : QSel) (w : Inst) (s : State) : (moveQueue c q w s).cx c =
    { (s.cx c).modQueue q fun y => y.step w (s.cx c).seq s.clk with
      seq := (s.cx c).seq + 1
      lockWin := if inWindow s c q then (s.cx c).lockWin.map fun l => { l with left := l.left - 1 } else (s.cx c).lockWin } := modCtx_cx ..

theorem takeHead_rstBusy (c : Ctx) (q : QSel) (w : Inst) (s : State) : ((takeHead c q w s).cx c).rstBusy = (s.cx c).rstBusy := by
  rw [(takeHead_ends c q w s).own, moveQueue_cx]
  cases q <;> rfl

theorem takeHead_lockWin (c : Ctx) (q : QSel) (w : Inst) (s : State) : ((takeHead c q w s).cx c).lockWin =
    if inWindow s c q then (s.cx c).lockWin.map fun l => { l with left := l.left - 1 } else (s.cx c).lockWin := by
  rw [(takeHead_ends c q w s).own, moveQueue_cx]

theorem Queue.step_waiting (x : Queue) (w : Inst) (seq : BitVec 8) (n : Nat) : (x.step w seq n).waiting = false := by
  unfold Queue.step
  dsimp only
  split
  · split
    · rfl
    · split <;> rfl
  · rfl

theorem takeHead_waiting (c : Ctx) (q : QSel) (w : Inst) (s : State) : ((takeHead c q w s).qu c q).waiting = false := by
  rw [State.qu, (takeHead_ends c q w s).own.waiting, moveQueue_cx]
  cases q <;> exact Queue.step_waiting ..

/-! ### What lets a queue dispatch -/

section
variable {s : State} {c : Ctx} {q : QSel} (h : canDispatch s c q = true)
include h

theorem canDispatch_mode : (s.cx c).mode = .active := by
  simp only [canDispatch, Bool.and_eq_true, beq_iff_eq] at h
  exact h.1.1.1.1.1.1.2

theorem canDispatch_rstBusy : (s.cx c).rstBusy = false := by
  simp only [canDispatch, Bool.and_eq_true, Bool.not_eq_true'] at h
  exact h.1.1.1.1.1.2

theorem canDispatch_seqFree : seqInUse s c (s.cx c).seq = false := by
  simp only [canDispatch, Bool.and_eq_true, Bool.not_eq_true'] at h
  exact h.1.1.1.2

theorem canDispatch_takeHead_rstBusy (w : Inst) : ((takeHead c q w s).cx c).rstBusy = false :=
  (takeHead_rstBusy c q w s).trans (canDispatch_rstBusy h)

end

/-! ### Frames of a dispatch -/

/-- What moving a queue on leaves alone, in the words of the statements. -/
theorem Moved.frame {c : Ctx} {s t : State} (m : Moved c s t) (k : Keeps s t) :
    (t.cx c).seq = (s.cx c).seq + 1 ∧ OnlyCtx c s t ∧ SameValues (s.cx c) (t.cx c) :=
  ⟨m.seq, ⟨m.others, k.staging, k.banks, k.prot⟩, ⟨m.sem, m.sticky, m.cullet, m.masks, m.rough⟩⟩

/-- Values and memories are the same while an instruction of a queue is held or let go. -/
theorem Calm.frame {c : Ctx} {s t : State} (h : Calm c s t) (k : Keeps s t) : OnlyCtx c s t ∧ SameValues (s.cx c) (t.cx c) :=
  ⟨⟨h.others, k.staging, k.banks, k.prot⟩, ⟨h.sem, h.sticky, h.cullet, h.masks, h.rough⟩⟩

theorem completeNow_record {o : Op} {s : State} (hr : (s.cx o.ctx).rstBusy = false) (h : o.cmp = true) :
    ∃ t u, { o.toRec t with at_ := u } ∈ ((completeNow o s).cx o.ctx).recs :=
  complete_record (by rw [cx_of_ctx (emitOp_ctx ..), hr]) (.inl h)

/-- An instruction of class C that completes at its dispatch, after a change of its context `u` that keeps the context's values. -/
theorem completesNow_of_calm {s u : State} {c : Ctx} {q : QSel} {w : Inst} (hrun : canDispatch s c q = true)
    (hk : opClass (iOpc w) = some .c) (hu : Calm c (takeHead c q w s) u) (ku : Keeps (takeHead c q w s) u)
    (hr : (u.cx c).rstBusy = ((takeHead c q w s).cx c).rstBusy) {o : Op} {n : Nat} (ho : o = { newOp (memberView s c q) c q w with info := n }) :
    CompletesNow s c w n (completeNow o u) ∧ OnlyCtx c s (completeNow o u) ∧ SameValues (s.cx c) ((completeNow o u).cx c) := by
  subst ho
  have hc : ∀ o : Op, o.ctx = c → Calm c u (completeNow o u) := fun o e => e ▸ completeNow_calm o u
  have hm : Moved c s (completeNow { newOp (memberView s c q) c q w with info := n } u) :=
    ((takeHead_moved c q w s).calm hu).calm (hc _ rfl)
  obtain ⟨hseq, honly, hsame⟩ := hm.frame (((takeHead_keeps c q w s).trans ku).trans (completeNow_keeps ..))
  refine ⟨⟨hseq, hm.ops, fun hcmp => ?_⟩, honly, hsame⟩
  obtain ⟨t, v, hv⟩ := completeNow_record (o := { newOp (memberView s c q) c q w with info := n }) (s := u)
    (hr.trans (canDispatch_takeHead_rstBusy hrun w)) hcmp
  refine ⟨_, hv, rfl, rfl, rfl, ?_⟩
  show Op.recBays { newOp (memberView s c q) c q w with info := n } = 0
  unfold Op.recBays
  rw [show opClass (Op.opc _) = some .c from hk]

/-! ### A fault at the checks -/

section
variable (c : Ctx) (q : QSel) (w : Inst) (code aux : Nat) (s : State)

/-- The record of a fault at the checks (R151). -/
def checkRec : Rec :=
  { mark := BitVec.ofNat 16 (ctxCode c * 0x1000 + (s.cx c).seq.toNat * 16), opc := iOpc w, status := code, q := q,
    layer := (s.qu c q).layer.toNat, oper := (s.qu c q).oper.toNat, time := timebase s, info := (s.qu c q).head.toNat,
    qidx := (s.qu c q).head.toNat }

/-- The state in which a fault at the checks is recorded: the window of a member is gone, poison is in the log. -/
def checkFailed : State :=
  State.ifThen (code == 0x10) (reportPoison c aux) (State.ifThen (inWindow s c q) (memberFault c) s)

theorem faultAtCheck_eq : faultAtCheck c q w code aux s = deliver c (checkRec c q w code s)
    (ctxFault c code q (s.qu c q).head.toNat (if (s.qu c q).loop.isSome then loopAux (s.qu c q) else aux) (checkFailed c q code aux s)) := rfl

theorem modCtx_timebase (f : CtxState → CtxState) : timebase (s.modCtx c f) = timebase s := rfl

theorem ctxFault_fault (idx : Nat) :
    ((ctxFault c code q idx aux s).cx c).fault = ((recordFault c code tenantFatal q idx aux s).cx c).fault := by
  rw [ctxFault, modCtx_cx]
  split
  · cases q <;> rfl
  · rfl

theorem dropWindow_fault : ((dropWindow c s).cx c).fault = (s.cx c).fault ∧ ((dropWindow c s).cx c).mode = (s.cx c).mode := by
  have h : (dropWindow c s).cx c = (s.modCtx c fun x => { x with lockWin := none }).cx c := rfl
  rw [h, modCtx_cx]
  exact ⟨rfl, rfl⟩

theorem checkFailed_fault : ((checkFailed c q code aux s).cx c).fault = (s.cx c).fault ∧
    ((checkFailed c q code aux s).cx c).mode = (s.cx c).mode := by
  have hm : ((memberFault c s).cx c).fault = (s.cx c).fault ∧ ((memberFault c s).cx c).mode = (s.cx c).mode := by
    unfold memberFault State.ifThen
    split
    exacts [dropWindow_fault c s, ⟨rfl, rfl⟩]
  have hp : (checkFailed c q code aux s).ctx = (State.ifThen (inWindow s c q) (memberFault c) s).ctx :=
    ifThen_eq State.ctx (reportPoison_ctx c aux) _
  rw [cx_of_ctx hp]
  unfold State.ifThen
  split
  exacts [hm, ⟨rfl, rfl⟩]

theorem faultAtCheck_noted : FaultNoted s (faultAtCheck c q w code aux s) c code 2 q (s.qu c q).head.toNat
    (if (s.qu c q).loop.isSome then loopAux (s.qu c q) else aux) := by
  refine faultNoted_of_eq (recordFault_noted c code tenantFatal q (s.qu c q).head.toNat _ (checkFailed c q code aux s))
    (checkFailed_fault c q code aux s).1 ?_ ?_
  · rw [faultAtCheck_eq, (deliver_ends ..).own.fault, ctxFault_fault]
  · rw [faultAtCheck_eq, deliver, modCtx_timebase, ctxFault, modCtx_timebase]

theorem faultAtCheck_mode (h : (s.cx c).mode = .active) : ((faultAtCheck c q w code aux s).cx c).mode = .faulted := by
  rw [faultAtCheck_eq, (deliver_ends ..).own]
  exact ctxFault_mode c code q _ _ _ ((checkFailed_fault c q code aux s).2.trans h)

theorem faultAtCheck_record : ∃ u, { checkRec c q w code s with at_ := u } ∈ ((faultAtCheck c q w code aux s).cx c).recs := deliver_mem ..

theorem faultAtCheck_head (h : (s.cx c).mode = .active) : ((faultAtCheck c q w code aux s).qu c q).head = (s.qu c q).head := by
  obtain ⟨f, hf⟩ := recordFault_ctx c code tenantFatal q (s.qu c q).head.toNat
    (if (s.qu c q).loop.isSome then loopAux (s.qu c q) else aux) (checkFailed c q code aux s)
  have hm : ((checkFailed c q code aux s).cx c).mode = .active := (checkFailed_fault c q code aux s).2.trans h
  rw [faultAtCheck_eq, State.qu, (deliver_ends ..).own.head, ctxFault, modCtx_cx, cx_of_ctx hf, modCtx_cx, if_pos (by simp [hm])]
  cases q <;> exact (BitVec.ofNat_toNat ..).trans (BitVec.setWidth_eq _)

end

end Sys2Proof.Machine

namespace Sys2Proof.Claims

open Sys2Proof Sys2Proof.Machine

/-- Every instruction row is a dispatch of its opcode. -/
theorem exec_instRow {i : Instr} {k : Nat} {c : Ctx} {q : QSel} (h : instRow i = some (k, c, q)) :
    (opClass k).isSome ∧ ∃ f : Op → State → State, ∀ s, exec i s = .next (dispatch k f c q s) := by
  cases i <;> cases h <;> exact ⟨rfl, _, fun _ => rfl⟩

/-- Settles O3: a dispatch that fails a check is `faultAtCheck`. -/
theorem checkFaultStops : Obligations.CheckFaultStops := by
  intro i k c q s w code aux hi ⟨hnext, hopc, hruns, hturn, hfree, hchecks⟩
  obtain ⟨hclass, f, hexec⟩ := exec_instRow hi
  have hactive := canDispatch_mode hruns
  have hcalm := faultAtCheck_calm c q w code aux s
  have hkeeps := faultAtCheck_keeps c q w code aux s
  obtain ⟨u, hrec⟩ := faultAtCheck_record c q w code aux s
  have hnoted := faultAtCheck_noted c q w code aux s
  refine ⟨_, (hexec s).trans (congrArg _ (dispatch_failing hnext hopc hruns hturn hfree hchecks hclass)), hcalm.seq,
    faultAtCheck_mode c q w code aux s hactive, faultAtCheck_head c q w code aux s hactive,
    ⟨hcalm.others, hkeeps.staging, hkeeps.banks, hkeeps.prot⟩, hcalm.ops, ?_, _, hrec, rfl, hopc, rfl, rfl, rfl⟩
  cases hl : (s.qu c q).loop with
  | none => simpa [hl] using hnoted
  | some l => simpa [hl, loopAux] using hnoted

end Sys2Proof.Claims
end

section
/-! Settles the statement about instructions whose operation waits for a unit. -/

namespace Sys2Proof.Machine

open Sys2Proof Sys2Proof.Claims

/-- The operation `p` is `o` with what its own dispatch adds: geometry, RAISE record, mask, chain, banks and digests. -/
def Op.Entered (o p : Op) : Prop :=
  p = { o with geo := p.geo, rr := p.rr, mslot := p.mslot, chain := p.chain, takes := p.takes, kt := p.kt, watch := p.watch }

theorem Op.Entered.trans {o p r : Op} (h : o.Entered p) (k : p.Entered r) : o.Entered r := by
  unfold Op.Entered at *
  rw [k, h]

/-- Nothing but bookkeeping differs, and of the contexts only the queues and the chains of `c`. -/
structure Pends (c : Ctx) (s t : State) : Prop where
  keeps : Keeps s t
  others : ∀ d, d ≠ c → t.cx d = s.cx d
  own : t.cx c = { s.cx c with qm := (t.cx c).qm, qp := (t.cx c).qp, chains := (t.cx c).chains }

theorem Pends.trans {c : Ctx} {s t u : State} (h : Pends c s t) (k : Pends c t u) : Pends c s u :=
  ⟨h.keeps.trans k.keeps, fun d hd => (k.others d hd).trans (h.others d hd), k.own.trans (by rw [h.own])⟩

theorem Pends.of_ctx {c : Ctx} {s t : State} (h : t.ctx = s.ctx) (k : Keeps s t) : Pends c s t :=
  ⟨k, fun d _ => cx_of_ctx h d, by rw [cx_of_ctx h]⟩

theorem modCtx_pends (s : State) (c : Ctx) {f : CtxState → CtxState}
    (h : ∀ x, f x = { x with qm := (f x).qm, qp := (f x).qp, chains := (f x).chains }) : Pends c s (s.modCtx c f) :=
  ⟨modCtx_keeps .., fun _ hd => modCtx_cx_ne s c f hd, by rw [modCtx_cx]; exact h _⟩

theorem modQueue_pends (s : State) (c : Ctx) (q : QSel) (f : Queue → Queue) : Pends c s (s.modQueue c q f) :=
  modCtx_pends s c fun x => by cases q <;> rfl

/-- An operation enters the block, the rest of which only notes it. -/
structure Enters (o : Op) (s t : State) : Prop where
  mem : ∃ p ∈ t.ops, o.Entered p
  pends : Pends o.ctx s t

theorem enqueue_enters {o p : Op} {s u : State} (hp : o.Entered p) (h : Pends o.ctx s u) : Enters o s (enqueue p u) :=
  ⟨⟨p, by simp, hp⟩, h.trans (.of_ctx (enqueue_ctx ..) (enqueue_keeps ..))⟩

theorem enqueue_itself (o : Op) (s : State) : Enters o s (enqueue o s) := enqueue_enters rfl (.of_ctx rfl (Keeps.refl s))

theorem startRaise_enters (o : Op) (s : State) : Enters o s (startRaise o s) := by
  have h : ∀ u : State, ∀ n, Pends o.ctx u { u with nextId := n } := fun u n => .of_ctx rfl (Keeps.of_eq rfl rfl rfl rfl rfl)
  exact enqueue_enters rfl ((modQueue_pends s o.ctx o.q _).trans (h _ _))

/-- A chain operation that joins or begins its chain. -/
theorem joinChain_enters (o : Op) (kind : ChainKind) (m n k cpb : Nat) (s : State) :
    o.Entered (joinChain o kind m n k cpb s).1 ∧ Pends o.ctx s (joinChain o kind m n k cpb s).2 := by
  have h : ∀ u : State, ∀ n, Pends o.ctx u { u with nextId := n } := fun u n => .of_ctx rfl (Keeps.of_eq rfl rfl rfl rfl rfl)
  unfold joinChain
  dsimp only
  split
  · exact ⟨rfl, (modCtx_pends s o.ctx fun _ => rfl).trans (h _ _)⟩
  · split
    · refine ⟨rfl, ?_⟩
      dsimp only
      exact modCtx_pends s o.ctx fun _ => rfl
    · exact ⟨rfl, .of_ctx rfl (Keeps.refl s)⟩

theorem startPass_enters (o : Op) (s : State) : Enters o s (startPass o s) := by
  unfold startPass
  obtain ⟨hop, hst⟩ := joinChain_enters { o with geo := (s.qu o.ctx o.q).geo, rr := lastRaise (s.modQueue o.ctx o.q fun x => { x with geo := none }) o.ctx o.named }
    .pass _ o.dO.vcols _ _ (s.modQueue o.ctx o.q fun x => { x with geo := none })
  exact enqueue_enters (Op.Entered.trans (p := { o with geo := _, rr := _ }) rfl hop) ((modQueue_pends ..).trans hst)

theorem startSeed_enters (o : Op) (s : State) : Enters o s (startSeed o s) := by
  obtain ⟨hop, hst⟩ := joinChain_enters o .seed o.da.vrows o.da.vcols 0 (faceCols (fmtOf (iFB o.word))) s
  exact enqueue_enters hop hst

theorem startFold_enters (o : Op) (s : State) : Enters o s (startFold o s) := by
  unfold startFold
  obtain ⟨hop, hst⟩ := joinChain_enters { o with rr := some (foldRec o (maskBays o.named).length) } .fold _ _ o.da.vcols _ s
  exact enqueue_enters (Op.Entered.trans (p := { o with rr := _ }) rfl hop) hst

/-- A bank that a DRAIN takes keeps its contents. -/
theorem startDrainOp_enters (o : Op) (s : State) : Enters o s (startDrainOp o s) := by
  refine enqueue_enters rfl ?_
  refine (modQueue_pends s o.ctx o.q _).trans ((modCtx_pends _ o.ctx fun _ => rfl).trans (.of_ctx (modBays_ctx ..) (modBays_keeps _ _ ?_)))
  exact fun b x => modBanks_same (fun k => by split <;> rfl) x

end Sys2Proof.Machine

namespace Sys2Proof.Claims

open Sys2Proof Sys2Proof.Machine

/-- The operation of an instruction is still its operation when it has entered the block. -/
theorem OpOf.entered {s : State} {c : Ctx} {q : QSel} {w : Inst} {o p : Op} (h : OpOf s c q w o) (he : o.Entered p) : OpOf s c q w p := by
  rw [he]
  exact ⟨h.ctx, h.queue, h.seq, h.word, h.opc, h.layer, h.oper, h.da, h.db, h.dO, h.dx⟩

/-- Every row whose operation waits for a unit is a dispatch whose operation enters the block. -/
theorem exec_waitsForUnit {i : Instr} {k : Nat} {c : Ctx} {q : QSel} (hw : waitsForUnit i = true) (h : instRow i = some (k, c, q)) :
    (opClass k).isSome ∧ ∃ f : Op → State → State, (∀ o s, Enters o s (f o s)) ∧ ∀ s, exec i s = .next (dispatch k f c q s) := by
  cases i with
  | raise => cases h; exact ⟨rfl, _, startRaise_enters, fun _ => rfl⟩
  | pass => cases h; exact ⟨rfl, _, startPass_enters, fun _ => rfl⟩
  | seed => cases h; exact ⟨rfl, _, startSeed_enters, fun _ => rfl⟩
  | drain => cases h; exact ⟨rfl, _, startDrainOp_enters, fun _ => rfl⟩
  | fold => cases h; exact ⟨rfl, _, startFold_enters, fun _ => rfl⟩
  | rough | blend | reduce | topk | norm | mask | csr | copy | scale | scrub =>
    cases h; exact ⟨rfl, _, enqueue_itself, fun _ => rfl⟩
  | _ => cases hw

/-- What enters the block after its queue has moved on changes no other context and no values. -/
theorem frame_of_enters {s t : State} {c : Ctx} {q : QSel} {w : Inst} {o : Op} (hc : o.ctx = c) (h : Enters o (takeHead c q w s) t) :
    (t.cx c).seq = (s.cx c).seq + 1 ∧ OnlyCtx c s t ∧ SameValues (s.cx c) (t.cx c) := by
  subst hc
  have hm := takeHead_moved o.ctx q w s
  have hk := (takeHead_keeps o.ctx q w s).trans h.pends.keeps
  have hown := h.pends.own
  refine ⟨by rw [hown, hm.seq], ⟨fun d hd => (h.pends.others d hd).trans (hm.others d hd), hk.staging, hk.banks, hk.prot⟩, ?_⟩
  rw [hown]
  exact ⟨hm.sem, hm.sticky, hm.cullet, hm.masks, hm.rough⟩

/-- Settles O2: every such row's dispatch puts the operation that it makes among those in flight. -/
theorem unitInstructionStarts : Obligations.UnitInstructionStarts := by
  intro i k c q s w hw hi h
  obtain ⟨hclass, f, hf, hexec⟩ := exec_waitsForUnit hw hi
  have hin := hf (newOp (memberView s c q) c q w) (takeHead c q w s)
  obtain ⟨p, hp, hentered⟩ := hin.mem
  obtain ⟨hseq, honly, hsame⟩ := frame_of_enters rfl hin
  exact ⟨_, p, (hexec s).trans (congrArg _ (dispatch_ready h.next h.opcode h.runs h.turn h.free h.checks h.holds hclass)), hp,
    (newOp_opOf s c q w).entered hentered, by rw [hentered]; rfl, hseq, honly, hsame⟩

end Sys2Proof.Claims
end

section
/-! Settles the statement about WAIT. -/

namespace Sys2Proof.Claims

open Sys2Proof Sys2Proof.Machine

/-- A row that every check and hold lets through is its own effect on the block whose queue has moved on. -/
theorem Ready.dispatch {s : State} {c : Ctx} {q : QSel} {k : Nat} {w : Inst} (h : Ready s c q k w) (f : Op → State → State)
    (hk : (opClass k).isSome) : dispatch k f c q s = f (newOp (memberView s c q) c q w) (takeHead c q w s) :=
  dispatch_ready h.next h.opcode h.runs h.turn h.free h.checks h.holds hk

/-- A WAIT that is met completes. -/
theorem wait_completes {c : Ctx} {q : QSel} {s : State} {w : Inst} (h : Ready s c q 0x18 w) :
    CompletesNow s c w ((s.cx c).sem.get (semOf w)).toNat (dispatch 0x18 startWait c q s) ∧
      OnlyCtx c s (dispatch 0x18 startWait c q s) ∧ SameValues (s.cx c) ((dispatch 0x18 startWait c q s).cx c) := by
  rw [h.dispatch startWait rfl, startWait]
  refine completesNow_of_calm h.runs (by rw [h.opcode]; rfl) (.of_eq rfl rfl) (Keeps.refl _) rfl ?_
  rw [← (takeHead_moved c q w s).sem]
  rfl

/-- A held instruction stays at the head of its queue. -/
theorem dispatch_held {k : Nat} {f : Op → State → State} {c : Ctx} {q : QSel} {s : State} {w : Inst} (hnext : nextInst s c q = some w)
    (hopc : iOpc w = k) (hruns : canDispatch s c q = true) (hturn : q = .main → dispatchable s c .prio = false)
    (hfree : preHold s c q w = false) (hchecks : checkInst (memberView s c q) c q w = none)
    (hhold : lateHold s (memberView s c q) c q w = true) (hk : (opClass k).isSome) : dispatch k f c q s = noteHold c q w s := by
  subst hopc
  have hclass : (opClass (iOpc w)).isNone = false := by cases h : opClass (iOpc w) <;> simp_all
  cases q with
  | main => simp [dispatch, hnext, hruns, hturn rfl, hfree, hchecks, hhold, hclass]
  | prio =>
    have hprio : (QSel.prio == QSel.main) = false := rfl
    simp [dispatch, hnext, hruns, hfree, hchecks, hhold, hclass]

/-- A WAIT whose semaphore is below its value holds its queue (R160). -/
theorem ownHold_wait {s : State} {c : Ctx} {q : QSel} {w : Inst} (hopc : iOpc w = 0x18)
    (hneg : ((s.cx c).sem.get (semOf w) - BitVec.ofNat 32 (iImm48 w)).toInt < 0) : ownHold s c q w = true := by
  have hmet : waitMet ((s.cx c).sem.get (semOf w)) (BitVec.ofNat 32 (iImm48 w)) = false := by
    rw [waitMet, BitVec.msb_eq_toInt, decide_eq_true hneg]
    rfl
  rw [ownHold, hopc]
  simp [semOf] at hmet
  simp [hmet]

theorem noteHold_queue (c : Ctx) (q : QSel) (w : Inst) (s : State) : ((noteHold c q w s).qu c q).head = (s.qu c q).head ∧
    ((noteHold c q w s).qu c q).waiting = ((s.qu c q).waiting || iOpc w == 0x18) := by
  rw [noteHold, State.modQueue, State.qu, modCtx_cx, queue_modQueue]
  exact ⟨rfl, rfl⟩

/-- A change of a queue that keeps its head. -/
theorem modQueue_calm (s : State) (c : Ctx) (q : QSel) {f : Queue → Queue} (h : ∀ y, (f y).head = y.head) : Calm c s (s.modQueue c q f) := by
  refine modCtx_calm s c ?_ ?_ ?_ ?_ ?_ ?_ ?_ fun x p => ?_
  case refine_8 =>
    cases q <;> cases p
    exacts [h _, rfl, rfl, h _]
  all_goals exact fun x => by cases q <;> rfl

theorem OnlyCtx.trans {c : Ctx} {s t u : State} (h : OnlyCtx c s t) (k : OnlyCtx c t u) : OnlyCtx c s u :=
  ⟨fun d hd => (k.others d hd).trans (h.others d hd), k.staging.trans h.staging,
    fun b => ⟨(k.banks b).1.trans (h.banks b).1, (k.banks b).2.trans (h.banks b).2⟩, k.prot.trans h.prot⟩

theorem SameValues.trans {x y z : CtxState} (h : SameValues x y) (k : SameValues y z) : SameValues x z :=
  ⟨k.sem.trans h.sem, k.sticky.trans h.sticky, k.cullet.trans h.cullet, k.masks.trans h.masks, k.rough.trans h.rough⟩

/-- An instruction completes as well from a state in which only its queue was let go. -/
theorem CompletesNow.of_calm {c : Ctx} {s u t : State} {w : Inst} {n : Nat} (h : CompletesNow u c w n t) (k : Calm c s u) : CompletesNow s c w n t :=
  ⟨by rw [h.seq, k.seq], fun o ho => k.ops o (h.ops o ho), h.record⟩

/-- A WAIT that completes leaves its queue no longer in WAITING. -/
theorem wait_waiting {c : Ctx} {q : QSel} {s : State} {w : Inst} (h : Ready s c q 0x18 w) :
    ((dispatch 0x18 startWait c q s).qu c q).waiting = false := by
  have he : ∀ o : Op, o.ctx = c → o.status = 0 → Ends c (takeHead c q w s) (completeNow o (takeHead c q w s)) :=
    fun o e h0 => e ▸ completeNow_ends h0 _
  rw [h.dispatch startWait rfl, State.qu, startWait, (he _ rfl rfl).own.waiting]
  exact takeHead_waiting c q w s

/-- Settles O4: a WAIT dispatches when it is met, and is held while it is not. -/
theorem waitFollowsItsSemaphore : Obligations.WaitFollowsItsSemaphore := by
  refine ⟨fun c q s w h => ⟨_, rfl, wait_completes h⟩, fun c q s w hnext hopc hruns hturn hfree hchecks hneg => ?_, fun c q s w hover h => ?_⟩
  · have hheld : ownHold (memberView s c q) c q w = true := ownHold_wait hopc (by rwa [memberView_cx])
    have hrun : exec (.wait c q) s = .next (noteHold c q w s) :=
      congrArg _ (dispatch_held hnext hopc hruns hturn hfree hchecks (by rw [lateHold, hheld, Bool.true_or]) rfl)
    have hcalm : Calm c s (noteHold c q w s) := modQueue_calm s c q fun _ => rfl
    obtain ⟨honly, hsame⟩ := hcalm.frame (noteHold_keeps c q w s)
    obtain ⟨hhead, hwaiting⟩ := noteHold_queue c q w s
    exact ⟨_, hrun, by simp [hwaiting, hopc], hcalm.seq, hhead, rfl, honly, hsame⟩
  · have hcalm : Calm c s (s.modQueue c q fun x => { x with waiting := false }) := modQueue_calm s c q fun _ => rfl
    obtain ⟨honly, hsame⟩ := hcalm.frame (modQueue_keeps ..)
    obtain ⟨hdone, honly', hsame'⟩ := wait_completes h
    rw [hcalm.sem] at hdone
    exact ⟨_, if_pos hover, wait_waiting h, hdone.of_calm hcalm, honly.trans honly', hsame.trans hsame'⟩

end Sys2Proof.Claims
end

section
/-! Settles the statement about SIGNAL outside a lock window. -/

namespace Sys2Proof.Machine

open Sys2Proof Sys2Proof.Claims

/-! ### A dispatch and the ports -/

theorem takeHead_port (c : Ctx) (q : QSel) (w : Inst) (s : State) (b : Bay) : ((takeHead c q w s).by b).port = (s.by b).port :=
  (takeHead_ends c q w s).ports b

theorem takeHead_portBays (c : Ctx) (q : QSel) (w : Inst) (s : State) : (takeHead c q w s).portBays c = s.portBays c := by
  have halt : ((moveQueue c q w s).cx c).alt = (s.cx c).alt := by
    rw [moveQueue_cx]
    cases q <;> rfl
  exact (takeHead_ends c q w s).portBays.trans (portBays_congr (sameSetup_of_keeps (moveQueue_keeps ..)) halt fun _ => rfl)

theorem memberView_of_not_member {s : State} {c : Ctx} {q : QSel} (h : inWindow s c q = false) : memberView s c q = s := by
  rw [memberView, if_neg (by simp [h])]

theorem posts_nil (s : State) (c : Ctx) (w : Owner) (ports : List Bay) (spans : List Range) {ws : List Wr} (h : wrLines ws = []) (b : Bay) :
    posts s c w ports spans ws b = [] := by
  have hd : deal ports (wrLines ws) = [] := by
    rw [h]
    unfold deal
    split <;> rfl
  simp [posts, hd]

/-- What was written is read back whole. -/
theorem readN_writeN {m : Mem} (hm : m.wf) (a : Nat) (l : List Byte) : (m.writeN a l).readN a l.length = l := by
  refine List.ext_getElem (by simp [Mem.readN]) fun k hk hl => ?_
  simp only [Mem.readN, List.getElem_map, List.getElem_range]
  exact read_writeN l hm a hl

/-! ### An operation of class C whose writes go out -/

section
variable {o : Op} (h0 : o.status = 0) (ports : List Bay) (ws : List Wr) (s : State)
include h0

theorem finish_settles : Settles o.ctx (issueWrites o.ctx (.op o.ctx o.seq) ports (outRanges o) ws s).1 (finish o ports ws s) :=
  awaitFlushes_settles h0 ..

omit h0 in
theorem issueWrites_cx (d : Ctx) : (issueWrites o.ctx (.op o.ctx o.seq) ports (outRanges o) ws s).1.cx d = s.cx d :=
  cx_of_ctx (by rw [issueWrites_rest]; rfl) d

theorem finish_own : CtxEnded (s.cx o.ctx) ((finish o ports ws s).cx o.ctx) := by
  rw [← issueWrites_cx ports ws s o.ctx]
  exact (finish_settles h0 ports ws s).own

theorem finish_others {d : Ctx} (hd : d ≠ o.ctx) : (finish o ports ws s).cx d = s.cx d :=
  ((finish_settles h0 ports ws s).others d hd).trans (issueWrites_cx ports ws s d)

theorem finish_staging : (finish o ports ws s).staging = writesOf s.staging (staged ws) := by
  rw [(finish_settles h0 ports ws s).keeps.staging, issueWrites_rest]
  rfl

theorem finish_asks (b : Bay) : asks ((finish o ports ws s).by b).port =
    asks (s.by b).port ++ posts s o.ctx (.op o.ctx o.seq) ports (outRanges o) ws b := by
  rw [(finish_settles h0 ports ws s).ports b, issueWrites_asks]

end

/-! ### SIGNAL -/

/-- The value that a SIGNAL leaves in its semaphore (R160). -/
def signalValue (o : Op) (s : State) : Word :=
  (s.cx o.ctx).sem.get (semOf o.word) + (if o.member then bufferedAdds s o.ctx (semOf o.word) else 0) + BitVec.ofNat 32 (iImm48 o.word)

theorem signalValue_plain {o : Op} (hm : o.member = false) (s : State) :
    signalValue o s = (s.cx o.ctx).sem.get (semOf o.word) + BitVec.ofNat 32 (iImm48 o.word) := by
  simp [signalValue, hm]

/-- The semaphore of a SIGNAL with its value. -/
def signalled (o : Op) (s : State) : State :=
  s.modCtx o.ctx fun x => { x with sem := x.sem.set (semOf o.word).1 (signalValue o s) (semOf o.word).2 }

/-- What a SIGNAL posts. -/
def signalWrites (o : Op) (s : State) : List Wr :=
  if (iImm o.word).testBit 14 then [((byteRange 4 o.dx).win, (byteRange 4 o.dx).lo, leBytes 4 (signalValue o s).toNat)] else []

/-- What a SIGNAL of a lock window puts into the store buffer. -/
def signalItem (o : Op) : BufItem :=
  .sem (semOf o.word) (BitVec.ofNat 32 (iImm48 o.word))
    (if (iImm o.word).testBit 14 then some ((byteRange 4 o.dx).win, (byteRange 4 o.dx).lo) else none)

theorem startSignal_member {o : Op} (hm : o.member = true) (s : State) : startSignal o s =
    completeNow { o with info := (signalValue o s).toNat } (pushBuf o.ctx (signalItem o) (if (iImm o.word).testBit 14 then 8 else 4) s) :=
  if_pos hm

theorem startSignal_plain {o : Op} (hm : o.member = false) (s : State) : startSignal o s =
    if (iImm o.word).testBit 14 then
      finish { o with info := (signalValue o s).toNat, stage := .granted } ((signalled o s).portBays o.ctx) (signalWrites o s)
        (enqueue { o with info := (signalValue o s).toNat } (signalled o s))
    else completeNow { o with info := (signalValue o s).toNat } (signalled o s) := by
  refine (if_neg (by simp [hm])).trans ?_
  by_cases hpost : (iImm o.word).testBit 14 = true
  · rw [signalWrites, if_pos hpost, if_pos hpost, if_pos hpost]
    rfl
  · rw [if_neg hpost, if_neg hpost]
    rfl

/-- What a SIGNAL outside a lock window leaves: its context with the semaphore's value, and its word in staging or on the ports. -/
structure Signals (o : Op) (s t : State) : Prop where
  others : ∀ d, d ≠ o.ctx → t.cx d = s.cx d
  own : CtxEnded { s.cx o.ctx with sem := (s.cx o.ctx).sem.set (semOf o.word).1 (signalValue o s) (semOf o.word).2 } (t.cx o.ctx)
  staging : t.staging = writesOf s.staging (staged (signalWrites o s))
  asks : ∀ b, Claims.asks (t.by b).port =
    Claims.asks (s.by b).port ++ posts s o.ctx (.op o.ctx o.seq) (s.portBays o.ctx) (outRanges o) (signalWrites o s) b

theorem signalled_cx (o : Op) (s : State) : (signalled o s).cx o.ctx =
    { s.cx o.ctx with sem := (s.cx o.ctx).sem.set (semOf o.word).1 (signalValue o s) (semOf o.word).2 } := modCtx_cx ..

theorem signalled_portBays (o : Op) (s : State) : (signalled o s).portBays o.ctx = s.portBays o.ctx := by
  have halt : ((signalled o s).cx o.ctx).alt = (s.cx o.ctx).alt := by rw [signalled_cx]
  exact portBays_congr (sameSetup_of_keeps (modCtx_keeps ..)) halt fun _ => rfl

theorem startSignal_signals {o : Op} (hm : o.member = false) (h0 : o.status = 0) (s : State) : Signals o s (startSignal o s) := by
  have hown := signalled_cx o s
  have hother : ∀ d, d ≠ o.ctx → (signalled o s).cx d = s.cx d := fun d hd => modCtx_cx_ne _ _ _ hd
  rw [startSignal_plain hm]
  by_cases hpost : (iImm o.word).testBit 14 = true
  · rw [if_pos hpost, signalled_portBays]
    have hin := enqueue_settles { o with info := (signalValue o s).toNat } (signalled o s) o.ctx
    refine ⟨fun d hd => ?_, ?_, ?_, fun b => ?_⟩
    · exact (finish_others (o := { o with info := _, stage := .granted }) h0 _ _ _ hd).trans ((hin.others d hd).trans (hother d hd))
    · rw [← hown]
      exact hin.own.trans (finish_own (o := { o with info := _, stage := .granted }) h0 _ _ _)
    · exact (finish_staging (o := { o with info := _, stage := .granted }) h0 _ _ _).trans (congrArg (writesOf · _) hin.keeps.staging)
    · refine (finish_asks (o := { o with info := _, stage := .granted }) h0 _ _ _ b).trans ?_
      rw [hin.ports, posts_congr hin.keeps.prot]
      rfl
  · rw [if_neg hpost]
    have hend : Ends o.ctx (signalled o s) _ := completeNow_ends (o := { o with info := (signalValue o s).toNat }) h0 (signalled o s)
    have hnone : signalWrites o s = [] := if_neg hpost
    refine ⟨fun d hd => (hend.others d hd).trans (hother d hd), hown ▸ hend.own, ?_, fun b => ?_⟩
    · rw [hend.keeps.staging, hnone]
      rfl
    · rw [hend.ports b, hnone, posts_nil (ws := []) _ _ _ _ _ rfl, List.append_nil]
      rfl

end Sys2Proof.Machine

namespace Sys2Proof.Claims

open Sys2Proof Sys2Proof.Machine

theorem get_set_sem (v : Vector Word 16) (i j : Fin 16) (x : Word) : (v.set i.1 x i.2).get j = if j = i then x else v.get j := by
  rw [get_set]
  simp only [eq_comm]

theorem newOp_dx_signal {s : State} {c : Ctx} {q : QSel} {w : Inst} (hopc : iOpc w = 0x19) (hpost : (iImm w).testBit 14 = true) :
    (newOp s c q w).dx = descAt s c (iDX w) := by
  have huse : (useOfInst w).dx = (iImm w).testBit 14 := by
    rw [useOfInst, hopc]
    rfl
  exact if_pos (huse.trans hpost)

/-- What a SIGNAL outside a lock window posts: its new value at the start of its byte view. -/
theorem signalWrites_newOp {s : State} {c : Ctx} {q : QSel} {w : Inst} (hopc : iOpc w = 0x19) (u : State) :
    signalWrites (newOp s c q w) u = if (iImm w).testBit 14 then
      [((byteRange 4 (descAt s c (iDX w))).win, (byteRange 4 (descAt s c (iDX w))).lo, leBytes 4 (signalValue (newOp s c q w) u).toNat)]
      else [] := by
  have hword : (newOp s c q w).word = w := rfl
  rw [signalWrites, hword]
  by_cases hpost : (iImm w).testBit 14 = true
  · rw [if_pos hpost, if_pos hpost, newOp_dx_signal hopc hpost]
  · rw [if_neg hpost, if_neg hpost]

theorem outRanges_signal {s : State} {c : Ctx} {q : QSel} {w : Inst} (hopc : iOpc w = 0x19) (hpost : (iImm w).testBit 14 = true) :
    outRanges (newOp s c q w) = [byteRange 4 (newOp s c q w).dx] := by
  have h : (newOp s c q w).opc = 0x19 := hopc
  rw [outRanges, h]
  exact if_pos hpost

/-- Settles O5: what SIGNAL leaves, on the block whose queue has moved on. -/
theorem signalAdds : Obligations.SignalAdds := by
  rintro c q s w d h hwin hmem rfl
  have hop : exec (.signal c q) s = .next (startSignal (newOp s c q w) (takeHead c q w s)) := by
    refine congrArg _ ((h.dispatch startSignal rfl).trans ?_)
    rw [memberView_of_not_member hwin]
  have hsig : Signals (newOp s c q w) (takeHead c q w s) (startSignal (newOp s c q w) (takeHead c q w s)) := startSignal_signals hwin rfl _
  have hmoved := takeHead_moved c q w s
  have hvalue : signalValue (newOp s c q w) (takeHead c q w s) = (s.cx c).sem.get (semOf w) + BitVec.ofNat 32 (iImm48 w) := by
    rw [← hmoved.sem]
    exact signalValue_plain hwin _
  have hown : CtxEnded { (takeHead c q w s).cx c with sem := ((takeHead c q w s).cx c).sem.set (semOf w).1 _ (semOf w).2 }
      ((startSignal (newOp s c q w) (takeHead c q w s)).cx c) := hsig.own
  have hstaging := hsig.staging
  rw [(takeHead_keeps c q w s).staging, signalWrites_newOp h.opcode, hvalue] at hstaging
  refine ⟨_, _, hop, rfl, fun i => ?_, ?_, ?_, ?_, fun d hd => (hsig.others d hd).trans (hmoved.others d hd), fun a hpost ha => ?_,
    fun b hb => ?_, fun b => ?_⟩
  · rw [hown.sem, get_set_sem, hvalue, hmoved.sem]
  · rw [hown, hmoved.seq]
  · rw [hown, hmoved.sticky]
  · rw [hown, hmoved.masks]
  · obtain ⟨hloc, rfl⟩ : (byteRange 4 (descAt s c (iDX w))).win = false ∧ (byteRange 4 (descAt s c (iDX w))).lo = a := by
      simpa [stagingStore] using ha
    rw [hstaging, if_pos hpost, hloc, ← leBytes_length 4]
    exact readN_writeN hmem.1 _ _
  · rw [hstaging]
    refine foldl_writeN_read_ne _ hmem.1 fun x hx => ?_
    obtain ⟨y, hy, hx⟩ := List.mem_filterMap.1 hx
    by_cases hpost : (iImm w).testBit 14 = true
    · rw [if_pos hpost, List.mem_singleton] at hy
      subst hy
      cases hloc : (byteRange 4 (descAt s c (iDX w))).win with
      | true => simp [hloc] at hx
      | false =>
        obtain rfl : _ = x := by simpa [hloc] using hx
        rw [leBytes_length]
        exact hb _ hpost (by simp [stagingStore, hloc])
    · rw [if_neg hpost] at hy
      cases hy
  · rw [hsig.asks b, takeHead_port, signalWrites_newOp h.opcode, hvalue, posts_congr (takeHead_keeps c q w s).prot]
    by_cases hpost : (iImm w).testBit 14 = true
    · rw [if_pos hpost, outRanges_signal h.opcode hpost]
      have hports : (takeHead c q w s).portBays (newOp s c q w).ctx = s.portBays c := takeHead_portBays ..
      rw [hports, newOp_dx_signal h.opcode hpost]
      cases hloc : (byteRange 4 (descAt s c (iDX w))).win with
      | true =>
        rw [if_pos ⟨hpost, rfl⟩]
        rfl
      | false => rw [if_neg (by simp), posts_nil (ws := [(false, _, _)]) _ _ _ _ _ (wrLines_eq_nil (by simp))]
    · rw [if_neg hpost, if_neg fun hc => hpost hc.1, posts_nil (ws := []) _ _ _ _ _ rfl]

end Sys2Proof.Claims
end

section
/-! Settles the statement about LOCK and UNLOCK. -/

namespace Sys2Proof.Machine

open Sys2Proof Sys2Proof.Claims

theorem takeHead_local (c : Ctx) (q : QSel) (w : Inst) (s : State) : Local s (takeHead c q w s) :=
  Local.trans (t := moveQueue c q w s) rfl (takeHead_ends c q w s).rest

theorem Local.fcLen {s t : State} (h : Local s t) : fcLen t = fcLen s := by rw [Machine.fcLen, h.g, Machine.fcLen]

theorem Local.haltReq {s t : State} (h : Local s t) : haltReq t = haltReq s := by rw [Machine.haltReq, h.dbg, Machine.haltReq]

theorem Local.fcTime {s t : State} (h : Local s t) (k : Nat) : fcTime t k = fcTime s k := by
  simp only [Machine.fcTime, fcAfter, fcIndex, duty, h.clk, h.damp, h.fcLen]

theorem Local.haltLimit {s t : State} (h : Local s t) : haltLimit t = haltLimit s := by rw [Machine.haltLimit, h.dbg, h.fcLen, Machine.haltLimit]

/-- Where a context only goes on, its values stand. -/
theorem Settles.frame {c : Ctx} {s t : State} (h : Settles c s t) :
    (t.cx c).seq = (s.cx c).seq ∧ OnlyCtx c s t ∧ SameValues (s.cx c) (t.cx c) :=
  ⟨by rw [h.own], ⟨h.others, h.keeps.staging, h.keeps.banks, h.keeps.prot⟩, by rw [h.own], by rw [h.own], by rw [h.own], by rw [h.own], by rw [h.own]⟩

/-- A change of a context's lock window alone. -/
theorem modWin_calm (s : State) (c : Ctx) (f : CtxState → Option LockWin) : Calm c s (s.modCtx c fun x => { x with lockWin := f x }) := by
  refine modCtx_calm s c ?_ ?_ ?_ ?_ ?_ ?_ ?_ fun x q => by cases q <;> rfl
  all_goals exact fun _ => rfl

theorem modWin_rstBusy (s : State) (c : Ctx) (f : CtxState → Option LockWin) :
    ((s.modCtx c fun x => { x with lockWin := f x }).cx c).rstBusy = (s.cx c).rstBusy := by rw [modCtx_cx]

/-! ### A window breaks -/

section
variable (c : Ctx) (l : LockWin) (s : State)

/-- What a broken window leaves of its context: its queue starts again at the LOCK, and a fault record. -/
theorem breakWindow_cx : ∃ f : FaultRec, (breakWindow c l s).cx c =
    { s.cx c with lockWin := none, fault := f }.modQueue l.q
      fun x => { x with head := l.index, fetched := [], asked := [], prev := none, fence := none } := by
  obtain ⟨f, hf⟩ := recordFault_ctx c 0x14 1 l.q l.index.toNat 0 (dropWindow c s)
  refine ⟨f, ?_⟩
  have hd : (dropWindow c s).cx c = (s.modCtx c fun x => { x with lockWin := none }).cx c := rfl
  rw [breakWindow, State.modQueue, modCtx_cx, cx_of_ctx hf, modCtx_cx, hd, modCtx_cx]

theorem breakWindow_others {d : Ctx} (hd : d ≠ c) : (breakWindow c l s).cx d = s.cx d := by
  rw [breakWindow, State.modQueue, modCtx_cx_ne _ _ _ hd, (recordFault_calm ..).others d hd, (dropWindow_calm c s).others d hd]

theorem breakWindow_keeps : Keeps s (breakWindow c l s) :=
  ((dropWindow_keeps c s).trans (recordFault_keeps ..)).trans (modQueue_keeps ..)

theorem breakWindow_ops : (breakWindow c l s).ops = s.ops.filter fun o => !(o.ctx == c && o.member) :=
  recordFault_ops c 0x14 1 l.q l.index.toNat 0 (dropWindow c s)

theorem breakWindow_noted : FaultNoted s (breakWindow c l s) c 0x14 1 l.q l.index.toNat 0 := by
  refine faultNoted_of_eq (recordFault_noted c 0x14 1 l.q l.index.toNat 0 (dropWindow c s)) (dropWindow_fault c s).1 ?_ (modCtx_timebase ..)
  rw [breakWindow, State.modQueue, modCtx_cx]
  cases l.q <;> rfl

theorem breakWindow_clk : (breakWindow c l s).clk = s.clk :=
  ((dropWindow_still c s).trans ((recordFault_still ..).trans (modCtx_still ..))).clk

/-- What a broken window leaves, in the words of the statements. -/
theorem breakWindow_frame : ((breakWindow c l s).cx c).lockWin = none ∧ ((breakWindow c l s).qu c l.q).head = l.index ∧
    ((breakWindow c l s).cx c).seq = (s.cx c).seq ∧ ((breakWindow c l s).cx c).mode = (s.cx c).mode ∧ OnlyCtx c s (breakWindow c l s) ∧
    SameValues (s.cx c) ((breakWindow c l s).cx c) := by
  obtain ⟨f, hf⟩ := breakWindow_cx c l s
  have hk := breakWindow_keeps c l s
  have hh : ((breakWindow c l s).qu c l.q).head = l.index := by rw [State.qu, hf, queue_modQueue]
  have honly : OnlyCtx c s (breakWindow c l s) := ⟨fun d hd => breakWindow_others c l s hd, hk.staging, hk.banks, hk.prot⟩
  have hrest : ((breakWindow c l s).cx c).lockWin = none ∧ ((breakWindow c l s).cx c).seq = (s.cx c).seq ∧
      ((breakWindow c l s).cx c).mode = (s.cx c).mode ∧ SameValues (s.cx c) ((breakWindow c l s).cx c) := by
    rw [hf]
    cases l.q <;> exact ⟨rfl, rfl, rfl, rfl, rfl, rfl, rfl, rfl⟩
  obtain ⟨hwin, hseq, hmode, hvals⟩ := hrest
  exact ⟨hwin, hh, hseq, hmode, honly, hvals⟩

end

end Sys2Proof.Machine

namespace Sys2Proof.Claims

open Sys2Proof Sys2Proof.Machine

/-- The window that a LOCK opens (R162). -/
def openedWindow (o : Op) : LockWin := { q := o.q, index := BitVec.ofNat 16 o.qidx, left := lockMembers o.word }

theorem startLock_eq (o : Op) (s : State) :
    startLock o s = completeNow o (s.modCtx o.ctx fun x => { x with lockWin := some (openedWindow o) }) := rfl

theorem startLock_lockWin {o : Op} (h0 : o.status = 0) (s : State) : ((startLock o s).cx o.ctx).lockWin = some (openedWindow o) := by
  rw [startLock_eq, (completeNow_ends h0 _).own.lockWin, modCtx_cx]

/-- LOCK opens its window. -/
theorem lock_opens {c : Ctx} {q : QSel} {s : State} {w : Inst} (h : Ready s c q 0x1C w) :
    ∃ t l, exec (.lock c q) s = .next t ∧ (t.cx c).lockWin = some l ∧ l.q = q ∧ l.index = (s.qu c q).head ∧
      l.left = iImm w % 64 + 1 ∧ l.buf = [] ∧ l.commitEnd = none ∧ CompletesNow s c w 0 t ∧ OnlyCtx c s t ∧ SameValues (s.cx c) (t.cx c) := by
  have hrun : exec (.lock c q) s = .next (startLock (newOp (memberView s c q) c q w) (takeHead c q w s)) := congrArg _ (h.dispatch startLock rfl)
  have hidx : (openedWindow (newOp (memberView s c q) c q w)).index = (s.qu c q).head := by
    rw [State.qu, ← memberView_cx s c q c]
    exact (BitVec.ofNat_toNat ..).trans (BitVec.setWidth_eq _)
  rw [startLock_eq] at hrun
  refine ⟨_, _, hrun, ?_, rfl, hidx, rfl, rfl, rfl, ?_⟩
  · exact startLock_lockWin (o := newOp (memberView s c q) c q w) rfl _
  · exact completesNow_of_calm h.runs (by rw [h.opcode]; rfl) (modWin_calm ..) (modCtx_keeps ..) (modWin_rstBusy ..) rfl

theorem enqueue_mem (o : Op) (s : State) : o ∈ (enqueue o s).ops := by
  rw [enqueue_ops]
  exact List.mem_append_right _ (List.mem_singleton_self o)

/-- The window whose UNLOCK started its commit (R162). -/
def committing (o : Op) (l : LockWin) (t : Nat) : LockWin := { l with commitEnd := some t, unlock := some o.seq }

/-- The UNLOCK while its commit runs. -/
def unlocking (o : Op) (l : LockWin) (s : State) : Op := { o with stage := .granted, tFirst := s.clk, info := l.share }

theorem startUnlock_eq {o : Op} {l : LockWin} {s : State} (hl : (s.cx o.ctx).lockWin = some l) : startUnlock o s =
    if haltReq s && (haltLimit s).any (fun h => decide (h < s.clk + fcTime s ((l.share + 63) / 64))) then breakWindow o.ctx l s
    else enqueue (unlocking o l s)
      (s.modCtx o.ctx fun x => { x with lockWin := some (committing o l (s.clk + fcTime s ((l.share + 63) / 64))) }) := by
  rw [startUnlock, hl]
  rfl

/-- What a started commit leaves of its context and its operations. -/
theorem commit_started (o : Op) (l : LockWin) (e : Nat) (p : Op) (s : State) :
    (((enqueue p (s.modCtx o.ctx fun x => { x with lockWin := some (committing o l e) })).cx o.ctx).lockWin = some (committing o l e)) ∧
    ((enqueue p (s.modCtx o.ctx fun x => { x with lockWin := some (committing o l e) })).cx o.ctx).seq = (s.cx o.ctx).seq ∧
    OnlyCtx o.ctx s (enqueue p (s.modCtx o.ctx fun x => { x with lockWin := some (committing o l e) })) ∧
    SameValues (s.cx o.ctx) ((enqueue p (s.modCtx o.ctx fun x => { x with lockWin := some (committing o l e) })).cx o.ctx) := by
  have hin := enqueue_settles p (s.modCtx o.ctx fun x => { x with lockWin := some (committing o l e) }) o.ctx
  have hcalm := modWin_calm s o.ctx fun _ => some (committing o l e)
  obtain ⟨hseq, honly, hvals⟩ := hin.frame
  obtain ⟨honly', hvals'⟩ := hcalm.frame (modCtx_keeps ..)
  exact ⟨by rw [hin.own.lockWin, modCtx_cx], hseq.trans hcalm.seq, honly'.trans honly, hvals'.trans hvals⟩

/-- UNLOCK starts the commit of its window, or breaks it. -/
theorem unlock_commits {c : Ctx} {q : QSel} {s : State} {w : Inst} {l : LockWin} (h : Ready s c q 0x1D w) (hl : (s.cx c).lockWin = some l)
    (hwin : inWindow s c q = false) : ∃ t e, exec (.unlock c q) s = .next t ∧ e = s.clk + fcTime s ((l.share + 63) / 64) ∧
      (t.cx c).seq = (s.cx c).seq + 1 ∧ OnlyCtx c s t ∧ SameValues (s.cx c) (t.cx c) ∧
      (if haltReq s = true ∧ ∃ h, s.dbg.reqAt = some h ∧ h + 256 * fcLen s < e then
        (t.cx c).lockWin = none ∧ (t.qu c l.q).head = l.index
      else (t.cx c).lockWin = some { l with commitEnd := some e, unlock := some (s.cx c).seq } ∧
        ∃ o ∈ t.ops, o.ctx = c ∧ o.seq = (s.cx c).seq ∧ o.opc = 0x1D ∧ o.info = l.share) := by
  have hloc := takeHead_local c q w s
  have hmoved := takeHead_moved c q w s
  obtain ⟨hseq, honly, hvals⟩ := hmoved.frame (takeHead_keeps c q w s)
  have hl' : ((takeHead c q w s).cx c).lockWin = some l := by rw [takeHead_lockWin, hwin, ← hl]; rfl
  have hrun : exec (.unlock c q) s = .next (startUnlock (newOp s c q w) (takeHead c q w s)) := by
    refine congrArg _ ((h.dispatch startUnlock rfl).trans ?_)
    rw [memberView_of_not_member hwin]
  have hbreak : (haltReq s && (haltLimit s).any fun h => decide (h < s.clk + fcTime s ((l.share + 63) / 64))) = true ↔
      haltReq s = true ∧ ∃ h, s.dbg.reqAt = some h ∧ h + 256 * fcLen s < s.clk + fcTime s ((l.share + 63) / 64) := by
    simp [haltLimit, Option.any_eq_true]
  rw [startUnlock_eq hl', hloc.haltReq, hloc.haltLimit, hloc.clk, hloc.fcTime] at hrun
  by_cases hcut : haltReq s = true ∧ ∃ h, s.dbg.reqAt = some h ∧ h + 256 * fcLen s < s.clk + fcTime s ((l.share + 63) / 64)
  · rw [if_pos (hbreak.2 hcut)] at hrun
    refine ⟨_, _, hrun, rfl, ?_⟩
    rw [if_pos hcut]
    obtain ⟨hnone, hhead, hseq', -, honly', hvals'⟩ := breakWindow_frame c l (takeHead c q w s)
    exact ⟨hseq'.trans hseq, honly.trans honly', hvals.trans hvals', hnone, hhead⟩
  · rw [if_neg (fun hb => hcut (hbreak.1 hb))] at hrun
    refine ⟨_, _, hrun, rfl, ?_⟩
    rw [if_neg hcut]
    obtain ⟨hsome, hseq', honly', hvals'⟩ := commit_started (newOp s c q w) l (s.clk + fcTime s ((l.share + 63) / 64))
      (unlocking (newOp s c q w) l (takeHead c q w s)) (takeHead c q w s)
    exact ⟨hseq'.trans hseq, honly.trans honly', hvals.trans hvals', hsome, _, enqueue_mem .., rfl, rfl, h.opcode, rfl⟩

/-- Settles O7. -/
theorem lockOpensAndUnlockCommits : Obligations.LockOpensAndUnlockCommits :=
  ⟨fun _ _ _ _ => lock_opens, fun _ _ _ _ _ => unlock_commits⟩

end Sys2Proof.Claims
end

section
/-! Settles the statement about ATOMADD and what lock members hold back. -/

namespace Sys2Proof.Machine

open Sys2Proof Sys2Proof.Claims

/-! ### Requests that leave contexts and operations alone -/

theorem issueWrReq_ctx (b : Bay) (r : WrReq) (s : State) : (issueWrReq b r s).ctx = s.ctx := rfl

theorem issueWrReq_ops (b : Bay) (r : WrReq) (s : State) : (issueWrReq b r s).ops = s.ops := rfl

/-- A line of adds for a port: its number, lanes and addends. -/
abbrev AddLine := Bay × Nat × BitVec 16 × List Word

/-- Lines of adds go out. -/
def sendAdds (c : Ctx) (seq : BitVec 8) (spans : List Range) (ls : List AddLine) (s : State) : State :=
  ls.foldl (fun s x => issueAdd x.1 x.2.1 (tierIn s c true spans x.2.1) c x.2.2.1 x.2.2.2 (.op c seq) s) s

theorem issueAdds_eq (c : Ctx) (seq : BitVec 8) (ports : List Bay) (spans : List Range) (w : List (Nat × Word)) (s : State) :
    issueAdds c seq ports spans w s = (sendAdds c seq spans (deal ports (addLines w)) s).modOp c seq
      fun o => { o with acks := o.acks + (deal ports (addLines w)).length } := rfl

theorem sendAdds_ctx (c : Ctx) (seq : BitVec 8) (spans : List Range) (ls : List AddLine) (s : State) :
    (sendAdds c seq spans ls s).ctx = s.ctx := foldl_eq State.ctx (fun _ _ => issueWrReq_ctx ..) ls s

theorem sendAdds_ops (c : Ctx) (seq : BitVec 8) (spans : List Range) (ls : List AddLine) (s : State) :
    (sendAdds c seq spans ls s).ops = s.ops := foldl_eq State.ops (fun _ _ => issueWrReq_ops ..) ls s

/-- A line of adds as a port gets it. -/
def addReq (s : State) (c : Ctx) (seq : BitVec 8) (spans : List Range) (x : AddLine) : WrReq :=
  .afadd 0 x.2.1 (tierIn s c true spans x.2.1) c x.2.2.1 x.2.2.2 (.op c seq) 0

theorem addReq_congr {s t : State} (h : t.prot = s.prot) (c : Ctx) (seq : BitVec 8) (spans : List Range) :
    addReq t c seq spans = addReq s c seq spans := funext fun _ => by rw [addReq, tierIn_congr h, addReq]

theorem sendAdds_asks (c : Ctx) (seq : BitVec 8) (spans : List Range) (ls : List AddLine) (s : State) (b : Bay) :
    asks ((sendAdds c seq spans ls s).by b).port = asks (s.by b).port ++ (ls.filter (·.1 == b)).map (addReq s c seq spans) := by
  induction ls generalizing s with
  | nil => simp [sendAdds]
  | cons x l ih =>
    have hx := issueWrReq_asks x.1 (addReq s c seq spans x) s b
    refine (ih (issueWrReq x.1 (addReq s c seq spans x) s)).trans ?_
    rw [hx, addReq_congr (issueWrReq_keeps ..).prot]
    by_cases h : x.1 = b <;> simp [h, addReq, bare]

theorem issueAdds_ctx (c : Ctx) (seq : BitVec 8) (ports : List Bay) (spans : List Range) (w : List (Nat × Word)) (s : State) :
    (issueAdds c seq ports spans w s).ctx = s.ctx := sendAdds_ctx ..

/-- The ports get the adds in order. -/
theorem issueAdds_asks (c : Ctx) (seq : BitVec 8) (ports : List Bay) (spans : List Range) (w : List (Nat × Word)) (s : State) (b : Bay) :
    asks ((issueAdds c seq ports spans w s).by b).port = asks (s.by b).port ++ adds s c seq ports spans w b := sendAdds_asks ..

theorem issueAdds_op? {c : Ctx} {seq : BitVec 8} {o : Op} {s : State} (h : s.op? c seq = some o) (ports : List Bay) (spans : List Range)
    (w : List (Nat × Word)) : (issueAdds c seq ports spans w s).op? c seq = some { o with acks := o.acks + (deal ports (addLines w)).length } := by
  rw [issueAdds_eq]
  refine modOp_op? (fun _ => rfl) ?_
  rw [State.op?, sendAdds_ops]
  exact h

theorem adds_congr {s t : State} (h : t.prot = s.prot) (c : Ctx) (seq : BitVec 8) (ports : List Bay) (spans : List Range)
    (w : List (Nat × Word)) (b : Bay) : adds t c seq ports spans w b = adds s c seq ports spans w b :=
  congrFun (congrArg List.map (addReq_congr h c seq spans)) _

theorem issueAdds_keeps (c : Ctx) (seq : BitVec 8) (ports : List Bay) (spans : List Range) (w : List (Nat × Word)) (s : State) :
    Keeps s (issueAdds c seq ports spans w s) :=
  (Keeps.foldl (fun _ _ => issueAdd_keeps ..) _ s).trans (modOp_keeps ..)

/-! ### ATOMADD -/

/-- An ATOMADD as it enters the block. -/
def atomEntered (o : Op) (s : State) : Op := { o with stage := .granted, named := s.curSet o.ctx, tGrant := s.clk, nrep := true }

/-- The reads of an ATOMADD's addends. -/
def atomReads (o : Op) (s : State) : List (Bay × Nat) := deal (s.portBays o.ctx) (rdLines (viewRanges .fp32 o.da))

/-- An ATOMADD whose reads have gone out. -/
def atomOp (o : Op) (s : State) : Op := { atomEntered o s with rds := o.rds + (atomReads o s).length }

/-- The block then. -/
def atomAsked (o : Op) (s : State) : State :=
  issueReads (atomEntered o s) (s.portBays o.ctx) (viewRanges .fp32 o.da) 
    (emitOp 0x02 (atomEntered o s).engine 0 (atomEntered o s) (enqueue (atomEntered o s) s))

/-- A SEQ that is free finds the operation that takes it. -/
theorem op?_append {s : State} {o : Op} (hfree : s.ops.any (·.is o.ctx o.seq) = false) (hside : o.side = false) {l : List Op}
    (hl : l = s.ops ++ [o]) : l.find? (·.is o.ctx o.seq) = some o := by
  have hnone : s.ops.find? (·.is o.ctx o.seq) = none := List.find?_eq_none.2 fun p hp => by simpa using List.any_eq_false.1 hfree p hp
  rw [hl, List.find?_append, hnone]
  simp [Op.is, Op.under, hside]

theorem atomAsked_op? {o : Op} {s : State} (hfree : s.ops.any (·.is o.ctx o.seq) = false) (hside : o.side = false) :
    (atomAsked o s).op? o.ctx o.seq = some (atomOp o s) := by
  refine modOp_op? (o := atomEntered o s) (fun _ => rfl) ?_
  refine op?_append (o := atomEntered o s) hfree hside ?_
  rw [foldl_eq State.ops (fun _ _ => issueRd_ops ..), emitOp_ops, enqueue_ops]

theorem startAtomAdd_eq {o : Op} {s : State} (hfree : s.ops.any (·.is o.ctx o.seq) = false) (hside : o.side = false) :
    startAtomAdd o s = if atomMay (atomAsked o s) (atomOp o s) then atomGo (atomOp o s) (atomAsked o s) else atomAsked o s := by
  have h : (atomAsked o s).op? (atomEntered o s).ctx (atomEntered o s).seq = some (atomOp o s) := atomAsked_op? hfree hside
  unfold startAtomAdd
  dsimp only
  unfold atomAsked atomEntered at h
  rw [h]
  rfl

/-! What holds or lets go an ATOMADD is as before its reads. -/

section
variable {o : Op} {s : State}

theorem atomAsked_ctx : (atomAsked o s).ctx = s.ctx :=
  (issueLines_ctx ..).trans ((emitOp_ctx ..).trans (enqueue_ctx ..))

theorem atomAsked_keeps : Keeps s (atomAsked o s) :=
  (enqueue_keeps ..).trans ((emitOp_keeps ..).trans (issueReads_keeps ..))

theorem issueRd_local (b : Bay) (l : Nat) (far : Bool) (c : Ctx) (w : Owner) (s : State) : Local s (issueRd b l far c w s) := rfl

theorem issueReads_local (o : Op) (ports : List Bay) (rs : List Range) (s : State) : Local s (issueReads o ports rs s) :=
  (Local.foldl (fun _ _ => issueRd_local ..) _ s).trans rfl

theorem atomAsked_local : Local s (atomAsked o s) :=
  (enqueue_settles _ s 0).rest.trans ((emitOp_traced ..).local.trans (issueReads_local ..))

theorem atomAsked_ops : (atomAsked o s).ops =
    (s.ops ++ [atomEntered o s]).map fun p => if p.is o.ctx o.seq then { p with rds := p.rds + (atomReads o s).length } else p := by
  refine congrArg (List.map _) ?_
  rw [foldl_eq State.ops (fun _ _ => issueRd_ops ..), emitOp_ops, enqueue_ops]

/-- Another operation than the ATOMADD was there before it. -/
theorem atomAsked_old {p : Op} (h : p ∈ (atomAsked o s).ops) (hne : ¬(p.ctx = o.ctx ∧ p.seq = o.seq)) : p ∈ s.ops := by
  rw [atomAsked_ops] at h
  obtain ⟨r, hr, rfl⟩ := List.mem_map.1 h
  by_cases his : r.is o.ctx o.seq = true
  · rw [if_pos his] at hne
    have hboth : (r.ctx = o.ctx ∧ r.seq = o.seq) ∧ r.side = false := by simpa [Op.is, Op.under] using his
    exact absurd hboth.1 hne
  · rw [if_neg his] at hne ⊢
    rcases List.mem_append.1 hr with hr | hr
    · exact hr
    · rw [List.mem_singleton.1 hr] at hne
      exact absurd ⟨rfl, rfl⟩ hne

theorem scrubbing_map {s : State} {f : Op → Op} (hf : ∀ p, (f p).opc = p.opc ∧ (f p).stage = p.stage ∧ (f p).word = p.word) :
    scrubbing { s with ops := s.ops.map f } = scrubbing s := by
  unfold scrubbing
  rw [List.flatMap_map]
  exact List.flatMap_congr fun p _ => by rw [(hf p).1, (hf p).2.1, Op.bayField, (hf p).2.2, ← Op.bayField]

theorem atomAsked_scrubbing (hopc : o.opc = 0x13) : scrubbing (atomAsked o s) = scrubbing s := by
  have hadd : scrubbing { s with ops := s.ops ++ [atomEntered o s] } = scrubbing s := by simp [scrubbing, atomEntered, hopc]
  have h : scrubbing (atomAsked o s) = _ := congrArg (fun l => scrubbing { s with ops := l }) atomAsked_ops
  rw [h]
  refine (scrubbing_map (s := { s with ops := s.ops ++ [atomEntered o s] }) fun p => ?_).trans hadd
  split <;> exact ⟨rfl, rfl, rfl⟩

theorem atomAsked_accessWaits (hopc : o.opc = 0x13) : accessWaits (atomAsked o s) (atomOp o s) = accessWaits s o := by
  have hscrub : ∀ rs, scrubHolds (atomAsked o s) rs = scrubHolds s rs := fun rs => by rw [scrubHolds, atomAsked_scrubbing hopc, scrubHolds]
  have hcommit : ∀ rs, commitHolds (atomAsked o s) o.ctx rs = commitHolds s o.ctx rs := fun rs => by
    simp only [commitHolds, cx_of_ctx atomAsked_ctx]
  have hread : readSpans (atomOp o s) = readSpans o := rfl
  have hout : outRanges (atomOp o s) = outRanges o := rfl
  rw [accessWaits, accessWaits, hread, hout, hscrub]
  exact congrArg (fun b => _ && (_ || b)) (hcommit _)

theorem issueRd_oos (b : Bay) (l : Nat) (far : Bool) (c : Ctx) (w : Owner) (s : State) (d : Bay) :
    ((issueRd b l far c w s).by d).oos = (s.by d).oos := by
  rw [issueRd, modBay_by_cases]
  split
  · next h => rw [h]
  · rfl

theorem atomAsked_portBays (c : Ctx) : (atomAsked o s).portBays c = s.portBays c := by
  refine portBays_congr (sameSetup_of_keeps atomAsked_keeps) (by rw [cx_of_ctx atomAsked_ctx]) fun b => ?_
  calc ((atomAsked o s).by b).oos
      = ((emitOp 0x02 (atomEntered o s).engine 0 (atomEntered o s) (enqueue (atomEntered o s) s)).by b).oos :=
        foldl_eq (fun u => (u.by b).oos) (fun _ _ => issueRd_oos ..) _ _
    _ = ((enqueue (atomEntered o s) s).by b).oos := by rw [(emitOp_traced ..).bays b]
    _ = (s.by b).oos := (enqueue_settles _ s 0).oos b

/-- Without reads the ports are as before. -/
theorem atomAsked_port (hnone : atomReads o s = []) (b : Bay) : ((atomAsked o s).by b).port = (s.by b).port := by
  calc ((atomAsked o s).by b).port
      = (((atomReads o s).foldl (fun u x => issueRd x.1 x.2 (readTier _ (atomEntered o s) x.2) o.ctx (.op o.ctx o.seq) u)
          (emitOp 0x02 (atomEntered o s).engine 0 (atomEntered o s) (enqueue (atomEntered o s) s))).by b).port := rfl
    _ = ((emitOp 0x02 (atomEntered o s).engine 0 (atomEntered o s) (enqueue (atomEntered o s) s)).by b).port := by rw [hnone]; rfl
    _ = ((enqueue (atomEntered o s) s).by b).port := by rw [(emitOp_traced ..).bays b]
    _ = (s.by b).port := (enqueue_settles _ s 0).ports b

theorem opRead_congr {t : State} {p : Op} (hm : p.member = o.member) (hg : p.got = o.got) (hb : bufferedBytes t p.ctx = bufferedBytes s o.ctx)
    (hs : t.staging = s.staging) : opRead t p = opRead s o := by
  funext win a
  rw [opRead, opRead, hm, hg, hb, hs]

end

/-! ### What a lock member puts into the store buffer -/

/-- Some items joined the store buffer of a context's window, and nothing else happened. -/
structure Pushed (c : Ctx) (items : List BufItem) (s t : State) : Prop where
  calm : Calm c s t
  keeps : Keeps s t
  rstBusy : (t.cx c).rstBusy = (s.cx c).rstBusy
  window : ∀ l, (s.cx c).lockWin = some l → ∃ n, (t.cx c).lockWin = some { l with buf := l.buf ++ items, share := n }

theorem Pushed.refl (c : Ctx) (s : State) : Pushed c [] s s :=
  ⟨.of_eq rfl rfl, Keeps.refl s, rfl, fun l h => ⟨l.share, by rw [h, List.append_nil]⟩⟩

theorem Pushed.trans {c : Ctx} {a b : List BufItem} {s t u : State} (h : Pushed c a s t) (k : Pushed c b t u) : Pushed c (a ++ b) s u where
  calm := h.calm.trans k.calm
  keeps := h.keeps.trans k.keeps
  rstBusy := k.rstBusy.trans h.rstBusy
  window l hl := by
    obtain ⟨n, hn⟩ := h.window l hl
    obtain ⟨m, hm⟩ := k.window _ hn
    exact ⟨m, by rw [hm, List.append_assoc]⟩

/-- A window with one item more in its store buffer, of which `n` bytes count for the time of its commit. -/
def LockWin.push (b : BufItem) (n : Nat) (l : LockWin) : LockWin := { l with buf := l.buf ++ [b], share := l.share + n }

theorem pushBuf_pushed (c : Ctx) (b : BufItem) (n : Nat) (s : State) : Pushed c [b] s (pushBuf c b n s) where
  calm := modWin_calm s c fun x => x.lockWin.map (LockWin.push b n)
  keeps := modCtx_keeps ..
  rstBusy := modWin_rstBusy s c fun x => x.lockWin.map (LockWin.push b n)
  window l hl := ⟨l.share + n, by rw [pushBuf, modCtx_cx, hl]; rfl⟩

/-- An operation completes whose work waits in the store buffer. -/
theorem Pushed.completes {c : Ctx} {items : List BufItem} {s t : State} (h : Pushed c items s t) {o : Op} (hc : o.ctx = c) (h0 : o.status = 0) :
    ((complete o t).cx c).seq = (s.cx c).seq ∧ OnlyCtx c s (complete o t) ∧ SameValues (s.cx c) ((complete o t).cx c) ∧
      (∀ l, (s.cx c).lockWin = some l → ∃ n, ((complete o t).cx c).lockWin = some { l with buf := l.buf ++ items, share := n }) ∧
      (∀ p ∈ (complete o t).ops, p ∈ s.ops ∧ ¬(p.ctx = o.ctx ∧ p.seq = o.seq)) ∧ ∀ b, ((complete o t).by b).port = (t.by b).port := by
  subst hc
  have hend := complete_ends h0 t
  obtain ⟨hseq, honly, hvals⟩ := hend.toSettles.frame
  obtain ⟨honly', hvals'⟩ := h.calm.frame h.keeps
  refine ⟨hseq.trans h.calm.seq, honly'.trans honly, hvals'.trans hvals, fun l hl => ?_,
    fun p hp => ⟨h.calm.ops p (hend.ops p hp), complete_gone hp⟩, hend.ports⟩
  rw [hend.own.lockWin]
  exact h.window l hl

theorem exists_window {s : State} {c : Ctx} {q : QSel} (h : inWindow s c q = true) : ∃ l, (s.cx c).lockWin = some l ∧ 0 < l.left := by
  unfold inWindow at h
  cases hl : (s.cx c).lockWin with
  | none => simp [hl] at h
  | some l =>
    simp only [hl, Bool.and_eq_true, decide_eq_true_eq] at h
    exact ⟨l, rfl, h.2⟩

/-- The window of a member that is dispatched counts it. -/
theorem takeHead_window {s : State} {c : Ctx} {q : QSel} {l : LockWin} (h : inWindow s c q = true) (hl : (s.cx c).lockWin = some l) (w : Inst) :
    ((takeHead c q w s).cx c).lockWin = some { l with left := l.left - 1 } := by
  rw [takeHead_lockWin, if_pos h, hl]
  rfl

/-- What one item of a store buffer adds to a semaphore (R162). -/
def addOf (i : Fin 16) : BufItem → Word
  | .sem j x _ => if j == i then x else 0
  | _ => 0

theorem bufferedAdds_eq {s : State} {c : Ctx} {l : LockWin} (h : (s.cx c).lockWin = some l) (i : Fin 16) :
    bufferedAdds s c i = l.buf.foldl (fun a b => a + addOf i b) 0 := by
  unfold bufferedAdds
  rw [h]
  refine congrArg (fun f => l.buf.foldl f 0) (funext fun a => funext fun b => ?_)
  cases b with
  | sem j x _ =>
    show (if j == i then a + x else a) = a + if j == i then x else 0
    split
    exacts [rfl, (BitVec.add_zero a).symm]
  | bytes | atoms | clear => exact (BitVec.add_zero a).symm

end Sys2Proof.Machine

namespace Sys2Proof.Claims

open Sys2Proof Sys2Proof.Machine

/-- A lock member that completes at its dispatch leaves what it holds back in the store buffer (R162). -/
theorem member_completes {s u : State} {c : Ctx} {q : QSel} {k : Nat} {w : Inst} (h : Ready s c q k w) (hk : opClass k = some .c)
    (hwin : inWindow s c q = true) {items : List BufItem} (hp : Pushed c items (takeHead c q w s) u) {o : Op} {n : Nat}
    (ho : o = { newOp (memberView s c q) c q w with info := n }) :
    ∃ l m, (s.cx c).lockWin = some l ∧ ((completeNow o u).cx c).lockWin = some m ∧ m.left + 1 = l.left ∧ m.buf = l.buf ++ items ∧
      CompletesNow s c w n (completeNow o u) ∧ OnlyCtx c s (completeNow o u) ∧ SameValues (s.cx c) ((completeNow o u).cx c) := by
  obtain ⟨l, hl, hleft⟩ := exists_window hwin
  obtain ⟨m, hm⟩ := hp.window _ (takeHead_window hwin hl w)
  have hend : Ends c u (completeNow o u) := by
    have h0 : o.status = 0 := by rw [ho]; rfl
    have hc : o.ctx = c := by rw [ho]; rfl
    exact hc ▸ completeNow_ends h0 u
  exact ⟨l, _, hl, hend.own.lockWin.trans hm, Nat.sub_add_cancel hleft, rfl,
    completesNow_of_calm h.runs (by rw [h.opcode, hk]) hp.calm hp.keeps hp.rstBusy ho⟩

theorem newOp_member (s : State) (c : Ctx) (q : QSel) (w : Inst) : (newOp (memberView s c q) c q w).member = inWindow s c q := by
  show inWindow (memberView s c q) c q = inWindow s c q
  unfold inWindow
  rw [memberView_cx]

/-- The adds in a store buffer, with those of one SIGNAL more. -/
theorem bufferedAdds_push {s t : State} {c : Ctx} {l m : LockWin} (hl : (s.cx c).lockWin = some l) (hm : (t.cx c).lockWin = some m) {j : Fin 16}
    {v : Word} {p : Option (Bool × Nat)} (hbuf : m.buf = l.buf ++ [.sem j v p]) (i : Fin 16) :
    bufferedAdds t c i = bufferedAdds s c i + if i = j then v else 0 := by
  rw [bufferedAdds_eq hm, bufferedAdds_eq hl, hbuf, List.foldl_append]
  by_cases h : i = j
  · simp [h, addOf]
  · simp [h, Ne.symm h, addOf]

/-- A SIGNAL in a lock window. -/
theorem signal_member {c : Ctx} {q : QSel} {s : State} {w : Inst} (h : Ready s c q 0x19 w) (hwin : inWindow s c q = true) :
    ∃ t l m, exec (.signal c q) s = .next t ∧ (s.cx c).lockWin = some l ∧ (t.cx c).lockWin = some m ∧ m.left + 1 = l.left ∧
      m.buf = l.buf ++ [signalItem (newOp (memberView s c q) c q w)] ∧
      (∀ i, bufferedAdds t c i = bufferedAdds s c i + if i = semOf w then BitVec.ofNat 32 (iImm48 w) else 0) ∧
      CompletesNow s c w ((s.cx c).sem.get (semOf w) + bufferedAdds s c (semOf w) + BitVec.ofNat 32 (iImm48 w)).toNat t ∧
      OnlyCtx c s t ∧ SameValues (s.cx c) (t.cx c) := by
  have hmem : (newOp (memberView s c q) c q w).member = true := (newOp_member ..).trans hwin
  obtain ⟨l₀, hl₀, -⟩ := exists_window hwin
  have hadds : bufferedAdds (takeHead c q w s) c (semOf w) = bufferedAdds s c (semOf w) := by
    rw [bufferedAdds_eq (takeHead_window hwin hl₀ w), bufferedAdds_eq hl₀]
  have hvalue : signalValue (newOp (memberView s c q) c q w) (takeHead c q w s) =
      (s.cx c).sem.get (semOf w) + bufferedAdds s c (semOf w) + BitVec.ofNat 32 (iImm48 w) := by
    rw [signalValue, if_pos hmem, ← hadds, ← (takeHead_moved c q w s).sem]
    rfl
  have hrun := (h.dispatch startSignal rfl).trans (startSignal_member hmem _)
  rw [hvalue] at hrun
  obtain ⟨l, m, hl, hm, hleft, hbuf, hdone, honly, hvals⟩ := member_completes h rfl hwin (pushBuf_pushed ..) rfl
  exact ⟨_, l, m, (congrArg Host.Outcome.next hrun : exec (.signal c q) s = _), hl, hm, hleft, hbuf, bufferedAdds_push hl hm hbuf, hdone, honly, hvals⟩

/-- What a FLAGS of a lock window puts into the store buffer: its record, where it stores one, and its clear. -/
def flagsItems (x : CtxState) (o : Op) : List BufItem :=
  (if (iMode o.word).testBit 0 then [.bytes ((flagsRecord x).zipIdx.map fun y =>
    ((byteRange 16 o.dO).win, (byteRange 16 o.dO).lo + y.2, y.1)) [] 16 (winSpans [byteRange 16 o.dO])] else []) ++
  [.clear (Flags.ofNat (iImm o.word))]

theorem outRanges_flags {o : Op} (hopc : o.opc = 0x23) : outRanges o = if (iMode o.word).testBit 0 then [byteRange 16 o.dO] else [] := by
  rw [outRanges, hopc]
  rfl

theorem startFlags_member {o : Op} (hm : o.member = true) (hopc : o.opc = 0x23) (s : State) : ∃ u, Pushed o.ctx (flagsItems (s.cx o.ctx) o) s u ∧
    startFlags o s = completeNow { o with info := (Flags.union (s.cx o.ctx).sticky.toList).toNat } u := by
  have hout := outRanges_flags (o := { o with info := (Flags.union (s.cx o.ctx).sticky.toList).toNat }) hopc
  unfold startFlags
  dsimp only
  rw [if_pos hm, hout]
  refine ⟨_, ?_, rfl⟩
  by_cases hrec : (iMode o.word).testBit 0 = true
  · rw [flagsItems, if_pos hrec, if_pos hrec, if_pos hrec]
    exact (pushBuf_pushed ..).trans (pushBuf_pushed ..)
  · rw [flagsItems, if_neg hrec, if_neg hrec, if_neg hrec]
    exact pushBuf_pushed ..

/-- A FLAGS in a lock window. -/
theorem flags_member {c : Ctx} {q : QSel} {s : State} {w : Inst} (h : Ready s c q 0x23 w) (hwin : inWindow s c q = true) :
    ∃ t l m, exec (.flags c q) s = .next t ∧ (s.cx c).lockWin = some l ∧ (t.cx c).lockWin = some m ∧ m.left + 1 = l.left ∧
      m.buf = l.buf ++ flagsItems (s.cx c) (newOp (memberView s c q) c q w) ∧
      CompletesNow s c w (Flags.union (s.cx c).sticky.toList).toNat t ∧ OnlyCtx c s t ∧ SameValues (s.cx c) (t.cx c) := by
  have hmem : (newOp (memberView s c q) c q w).member = true := (newOp_member ..).trans hwin
  obtain ⟨u, hu, hstart⟩ := startFlags_member hmem h.opcode (takeHead c q w s)
  have hsticky : ((takeHead c q w s).cx (newOp (memberView s c q) c q w).ctx).sticky = (s.cx c).sticky := (takeHead_moved c q w s).sticky
  rw [hsticky] at hstart
  have hitems : flagsItems ((takeHead c q w s).cx c) (newOp (memberView s c q) c q w) = flagsItems (s.cx c) (newOp (memberView s c q) c q w) := by
    rw [flagsItems, flagsRecord, (takeHead_moved c q w s).sticky, ← flagsRecord, ← flagsItems]
  obtain ⟨l, m, hl, hm, hleft, hbuf, hrest⟩ := member_completes h rfl hwin hu rfl
  have hrun : exec (.flags c q) s = .next _ := congrArg Host.Outcome.next ((h.dispatch startFlags rfl).trans hstart)
  exact ⟨_, l, m, hrun, hl, hm, hleft, hbuf.trans (congrArg _ hitems), hrest⟩

/-! ### ATOMADD -/

section
variable {s : State} {c : Ctx} {q : QSel} {w : Inst}

theorem newOp_da (hopc : iOpc w = 0x13) : (newOp (memberView s c q) c q w).da = descAt (memberView s c q) c (iDA w) :=
  (newOp_opOf s c q w).da (by rw [useOfInst, hopc]; rfl)

/-- The rows of a view in staging ask for no line. -/
theorem rdLines_staging {f : Fmt} {d : Desc} (h : d.loc = false) : rdLines (viewRanges f d) = [] := by
  have hnone : (viewRanges f d).flatMap (fun r => if r.win && r.len != 0 then
      (List.range ((r.lo + r.len - 1) / 64 - r.lo / 64 + 1)).map fun i => r.lo / 64 + i else []) = [] := by
    refine List.flatMap_eq_nil_iff.2 fun r hr => ?_
    obtain ⟨i, -, rfl⟩ := List.mem_map.1 hr
    have hwin : (viewRow f d false i).win = false := h
    rw [hwin]
    rfl
  rw [rdLines, hnone]
  rfl

theorem deal_nil {α : Type} (ports : List Bay) : deal ports ([] : List α) = [] := by
  unfold deal
  split <;> rfl

variable (h : Ready s c q 0x13 w)
include h

/-- No other operation has the SEQ that an ATOMADD takes. -/
theorem atomAdd_free : (takeHead c q w s).ops.any (·.is (newOp (memberView s c q) c q w).ctx (newOp (memberView s c q) c q w).seq) = false := by
  have hseq : (newOp (memberView s c q) c q w).seq = (s.cx c).seq := (newOp_opOf s c q w).seq
  obtain ⟨⟨⟨-, hops⟩, -⟩, -⟩ : ((portOwes s (.op c (s.cx c).seq) = false ∧ s.ops.any (·.is c (s.cx c).seq) = false) ∧
      (s.cx c).qm.loop.any (·.seq == (s.cx c).seq) = false) ∧ (s.cx c).qp.loop.any (·.seq == (s.cx c).seq) = false := by
    simpa only [seqInUse, Bool.or_eq_false_iff] using canDispatch_seqFree h.runs
  rw [hseq]
  exact List.any_eq_false.2 fun p hp => List.any_eq_false.1 hops p ((takeHead_moved c q w s).ops p hp)

/-- Dispatch of ATOMADD: its reads go out, and it goes on when it has its addends and nothing holds it. -/
theorem atomAdd_runs : exec (.atomAdd c q) s = .next
    (if atomMay (atomAsked (newOp (memberView s c q) c q w) (takeHead c q w s)) (atomOp (newOp (memberView s c q) c q w) (takeHead c q w s))
      then atomGo (atomOp (newOp (memberView s c q) c q w) (takeHead c q w s)) (atomAsked (newOp (memberView s c q) c q w) (takeHead c q w s))
      else atomAsked (newOp (memberView s c q) c q w) (takeHead c q w s)) := by
  exact congrArg Host.Outcome.next ((h.dispatch startAtomAdd rfl).trans (startAtomAdd_eq (atomAdd_free h) rfl))

omit h in
theorem atomReads_takeHead (hopc : iOpc w = 0x13) : atomReads (newOp (memberView s c q) c q w) (takeHead c q w s) =
    deal (s.portBays c) (rdLines (viewRanges .fp32 (descAt (memberView s c q) c (iDA w)))) := by
  have hports : (takeHead c q w s).portBays (newOp (memberView s c q) c q w).ctx = s.portBays c := takeHead_portBays ..
  rw [atomReads, hports, newOp_da hopc]

/-- An ATOMADD is not dispatched without a port (R224). -/
theorem atomAdd_ports : (s.portBays c).isEmpty = false := by
  have hview : (memberView s c q).portBays c = s.portBays c := by
    unfold memberView
    split <;> rfl
  have hown := (Bool.or_eq_false_iff.1 h.holds).1
  rw [ownHold, noPort, h.opcode, hview] at hown
  simpa using (Bool.or_eq_false_iff.1 hown).1

/-- An ATOMADD may issue its adds when it has no reads out and no SCRUB or commit holds what it accesses. -/
theorem atomMay_iff : atomMay (atomAsked (newOp (memberView s c q) c q w) (takeHead c q w s))
      (atomOp (newOp (memberView s c q) c q w) (takeHead c q w s)) = true ↔
    (deal (s.portBays c) (rdLines (viewRanges .fp32 (descAt (memberView s c q) c (iDA w))))).length = 0 ∧
      accessWaits (takeHead c q w s) (newOp (memberView s c q) c q w) = false := by
  have hrds : (atomOp (newOp (memberView s c q) c q w) (takeHead c q w s)).rds =
      (deal (s.portBays c) (rdLines (viewRanges .fp32 (descAt (memberView s c q) c (iDA w))))).length :=
    (Nat.zero_add _).trans (congrArg List.length (atomReads_takeHead h.opcode))
  have hopc : (atomOp (newOp (memberView s c q) c q w) (takeHead c q w s)).opc = 0x13 := h.opcode
  have hstage : (atomOp (newOp (memberView s c q) c q w) (takeHead c q w s)).stage = .granted := rfl
  have hports : portless (atomAsked (newOp (memberView s c q) c q w) (takeHead c q w s)) c
      (outRanges (atomOp (newOp (memberView s c q) c q w) (takeHead c q w s))) = false := by
    rw [portless, atomAsked_portBays, takeHead_portBays, atomAdd_ports h, Bool.and_false]
  have hctx : (atomOp (newOp (memberView s c q) c q w) (takeHead c q w s)).ctx = c := rfl
  rw [atomMay, hopc, hstage, hrds, atomAsked_accessWaits h.opcode, hctx, hports]
  simp

omit h in
theorem newOp_atomOp : OpOf s c q w (atomOp (newOp (memberView s c q) c q w) (takeHead c q w s)) :=
  let h := newOp_opOf s c q w
  ⟨h.ctx, h.queue, h.seq, h.word, h.opc, h.layer, h.oper, h.da, h.db, h.dO, h.dx⟩

/-- What an ATOMADD that waits leaves. -/
theorem atomAdd_waits (hmay : ¬((deal (s.portBays c) (rdLines (viewRanges .fp32 (descAt (memberView s c q) c (iDA w))))).length = 0 ∧
      accessWaits (takeHead c q w s) (newOp (memberView s c q) c q w) = false)) :
    ∃ t o, exec (.atomAdd c q) s = .next t ∧ o ∈ t.ops ∧ OpOf s c q w o ∧ o.stage = .granted ∧
      o.rds = (deal (s.portBays c) (rdLines (viewRanges .fp32 (descAt (memberView s c q) c (iDA w))))).length ∧
      (t.cx c).seq = (s.cx c).seq + 1 ∧ OnlyCtx c s t ∧ SameValues (s.cx c) (t.cx c) := by
  have hrun := atomAdd_runs h
  rw [if_neg (fun e => hmay ((atomMay_iff h).1 e))] at hrun
  refine ⟨_, _, hrun, mem_of_op? (atomAsked_op? (atomAdd_free h) rfl), newOp_atomOp, rfl, ?_, onlyCtx_of_takeHead atomAsked_ctx atomAsked_keeps⟩
  exact (Nat.zero_add _).trans (congrArg List.length (atomReads_takeHead h.opcode))

omit h in
theorem bufferedBytes_takeHead : bufferedBytes (takeHead c q w s) c = bufferedBytes s c := by
  have hsem := (takeHead_moved c q w s).sem
  have hstaging := (takeHead_keeps c q w s).staging
  have hlock := takeHead_lockWin c q w s
  unfold bufferedBytes
  rw [hsem, hstaging, hlock]
  by_cases hwin : inWindow s c q = true
  · rw [if_pos hwin]
    cases (s.cx c).lockWin <;> rfl
  · rw [if_neg hwin]

omit h in
/-- The addends and targets of an ATOMADD are those at its dispatch. -/
theorem atomAdd_targets : atomTargets (opRead (atomAsked (newOp (memberView s c q) c q w) (takeHead c q w s))
      (atomOp (newOp (memberView s c q) c q w) (takeHead c q w s))) (atomOp (newOp (memberView s c q) c q w) (takeHead c q w s)) =
    atomTargets (opRead s (newOp (memberView s c q) c q w)) (newOp (memberView s c q) c q w) := by
  have hstaging : (atomAsked (newOp (memberView s c q) c q w) (takeHead c q w s)).staging = s.staging :=
    atomAsked_keeps.staging.trans (takeHead_keeps c q w s).staging
  have hbytes : bufferedBytes (atomAsked (newOp (memberView s c q) c q w) (takeHead c q w s)) c = bufferedBytes s c := by
    have hasked : bufferedBytes (atomAsked (newOp (memberView s c q) c q w) (takeHead c q w s)) c = bufferedBytes (takeHead c q w s) c := by
      unfold bufferedBytes
      rw [cx_of_ctx atomAsked_ctx, atomAsked_keeps.staging]
    exact hasked.trans bufferedBytes_takeHead
  exact congrArg (atomTargets · (newOp (memberView s c q) c q w)) (opRead_congr rfl rfl hbytes hstaging)

omit h in
theorem atomGo_clean {o : Op} {u : State} (hclean : poisonedIn u (viewRanges .fp32 o.da) = none) : atomGo o u =
    if o.member then complete o (pushBuf o.ctx (.atoms (atomTargets (opRead u o) o) o.seq (winSpans (outRanges o))) (4 * (atomTargets (opRead u o) o).length) u)
    else issueAdds o.ctx o.seq (opPorts u o) (outRanges o) (atomTargets (opRead u o) o) (u.modOp o.ctx o.seq fun o => { o with stage := .flushing }) := by
  rw [atomGo, hclean]

/-- Dispatch of an ATOMADD that has its addends and may issue its adds. -/
theorem atomAdd_goes (hloc : (descAt (memberView s c q) c (iDA w)).loc = false)
    (hmay : accessWaits (takeHead c q w s) (newOp (memberView s c q) c q w) = false)
    (hclean : poisonedIn s (viewRanges .fp32 (descAt (memberView s c q) c (iDA w))) = none) {adding : List (Nat × Word)}
    (hadding : adding = atomTargets (opRead s (newOp (memberView s c q) c q w)) (newOp (memberView s c q) c q w)) :
    exec (.atomAdd c q) s = .next (if inWindow s c q then
      complete (atomOp (newOp (memberView s c q) c q w) (takeHead c q w s)) (pushBuf c
        (.atoms adding (s.cx c).seq (winSpans (outRanges (newOp (memberView s c q) c q w)))) (4 * adding.length)
        (atomAsked (newOp (memberView s c q) c q w) (takeHead c q w s)))
      else issueAdds c (s.cx c).seq (s.portBays c) (outRanges (newOp (memberView s c q) c q w)) adding
        ((atomAsked (newOp (memberView s c q) c q w) (takeHead c q w s)).modOp c (s.cx c).seq fun o => { o with stage := .flushing })) := by
  have hnone : (deal (s.portBays c) (rdLines (viewRanges .fp32 (descAt (memberView s c q) c (iDA w))))).length = 0 := by
    rw [rdLines_staging hloc, deal_nil]
    rfl
  have hseq : (atomOp (newOp (memberView s c q) c q w) (takeHead c q w s)).seq = (s.cx c).seq := (newOp_opOf s c q w).seq
  have hmem : (atomOp (newOp (memberView s c q) c q w) (takeHead c q w s)).member = inWindow s c q := newOp_member s c q w
  have hclean' : poisonedIn (atomAsked (newOp (memberView s c q) c q w) (takeHead c q w s))
      (viewRanges .fp32 (atomOp (newOp (memberView s c q) c q w) (takeHead c q w s)).da) = none := by
    have hras : (atomAsked (newOp (memberView s c q) c q w) (takeHead c q w s)).ras = s.ras :=
      atomAsked_local.ras.trans (takeHead_local c q w s).ras
    have hda : (atomOp (newOp (memberView s c q) c q w) (takeHead c q w s)).da = descAt (memberView s c q) c (iDA w) := newOp_da h.opcode
    rw [poisonedIn, hras, hda, ← poisonedIn, hclean]
  have hports : opPorts (atomAsked (newOp (memberView s c q) c q w) (takeHead c q w s)) (atomOp (newOp (memberView s c q) c q w) (takeHead c q w s)) =
      s.portBays c := (atomAsked_portBays c).trans (takeHead_portBays c q w s)
  rw [atomAdd_runs h, if_pos ((atomMay_iff h).2 ⟨hnone, hmay⟩), atomGo_clean hclean', hmem, atomAdd_targets, hseq, hports, hadding]
  rfl

variable (hloc : (descAt (memberView s c q) c (iDA w)).loc = false)
  (hmay : accessWaits (takeHead c q w s) (newOp (memberView s c q) c q w) = false)
  (hclean : poisonedIn s (viewRanges .fp32 (descAt (memberView s c q) c (iDA w))) = none) {adding : List (Nat × Word)}
  (hadding : adding = atomTargets (opRead s (newOp (memberView s c q) c q w)) (newOp (memberView s c q) c q w))
include hloc hmay hclean hadding

omit hmay hclean hadding in
theorem atomAdd_asks (b : Bay) : asks ((atomAsked (newOp (memberView s c q) c q w) (takeHead c q w s)).by b).port = asks (s.by b).port := by
  have hnone : atomReads (newOp (memberView s c q) c q w) (takeHead c q w s) = [] := by
    rw [atomReads_takeHead h.opcode, rdLines_staging hloc, deal_nil]
  rw [atomAsked_port hnone, takeHead_port]

/-- An ATOMADD outside a lock window issues its adds. -/
theorem atomAdd_issues (hwin : inWindow s c q = false) :
    ∃ t, exec (.atomAdd c q) s = .next t ∧ ((t.cx c).seq = (s.cx c).seq + 1 ∧ OnlyCtx c s t ∧ SameValues (s.cx c) (t.cx c)) ∧
      (∃ o ∈ t.ops, OpOf s c q w o ∧ o.stage = .flushing ∧ o.wrs = 0 ∧ o.acks = (deal (s.portBays c) (addLines adding)).length) ∧
      ∀ b, asks (t.by b).port = asks (s.by b).port ++
        adds s c (s.cx c).seq (s.portBays c) (outRanges (newOp (memberView s c q) c q w)) adding b := by
  have hrun := atomAdd_goes h hloc hmay hclean hadding
  rw [hwin, if_neg (by simp)] at hrun
  have hfound : (atomAsked (newOp (memberView s c q) c q w) (takeHead c q w s)).op? c (s.cx c).seq =
      some (atomOp (newOp (memberView s c q) c q w) (takeHead c q w s)) := by
    rw [← (newOp_opOf s c q w).seq]
    exact atomAsked_op? (atomAdd_free h) rfl
  have hop := issueAdds_op? (modOp_op? (f := fun o => { o with stage := .flushing }) (fun _ => rfl) hfound) (s.portBays c)
    (outRanges (newOp (memberView s c q) c q w)) adding
  have hof : OpOf s c q w (atomOp (newOp (memberView s c q) c q w) (takeHead c q w s)) := newOp_atomOp
  refine ⟨_, hrun, onlyCtx_of_takeHead ((issueAdds_ctx ..).trans atomAsked_ctx) (atomAsked_keeps.trans ((modOp_keeps ..).trans (issueAdds_keeps ..))),
    ⟨_, mem_of_op? hop, ?_, rfl, rfl, Nat.zero_add _⟩, fun b => ?_⟩
  · exact ⟨hof.ctx, hof.queue, hof.seq, hof.word, hof.opc, hof.layer, hof.oper, hof.da, hof.db, hof.dO, hof.dx⟩
  · rw [issueAdds_asks, adds_congr ((takeHead_keeps c q w s).trans (atomAsked_keeps.trans (modOp_keeps ..))).prot]
    exact congrArg (· ++ _) (atomAdd_asks h hloc b)

/-- An ATOMADD in a lock window puts its adds into the store buffer. -/
theorem atomAdd_held (hwin : inWindow s c q = true) :
    ∃ t, exec (.atomAdd c q) s = .next t ∧ ((t.cx c).seq = (s.cx c).seq + 1 ∧ OnlyCtx c s t ∧ SameValues (s.cx c) (t.cx c)) ∧
      (∀ o ∈ t.ops, o ∈ s.ops) ∧ (∀ b, asks (t.by b).port = asks (s.by b).port) ∧
      ∃ l m, (s.cx c).lockWin = some l ∧ (t.cx c).lockWin = some m ∧ m.left + 1 = l.left ∧
        m.buf = l.buf ++ [.atoms adding (s.cx c).seq (winSpans (outRanges (newOp (memberView s c q) c q w)))] := by
  have hrun := atomAdd_goes h hloc hmay hclean hadding
  rw [if_pos hwin] at hrun
  have hpush := pushBuf_pushed c (.atoms adding (s.cx c).seq (winSpans (outRanges (newOp (memberView s c q) c q w)))) (4 * adding.length)
    (atomAsked (newOp (memberView s c q) c q w) (takeHead c q w s))
  obtain ⟨hseq₁, honly₁, hvals₁⟩ := onlyCtx_of_takeHead (q := q) (w := w) (s := s) atomAsked_ctx atomAsked_keeps
  obtain ⟨hseq₂, honly₂, hvals₂, hwindow, hops, hports⟩ := hpush.completes (o := atomOp (newOp (memberView s c q) c q w) (takeHead c q w s)) rfl rfl
  obtain ⟨l, hl, hleft⟩ := exists_window hwin
  obtain ⟨n, hm⟩ := hwindow { l with left := l.left - 1 } (by rw [cx_of_ctx atomAsked_ctx]; exact takeHead_window hwin hl w)
  refine ⟨_, hrun, ⟨hseq₂.trans hseq₁, honly₁.trans honly₂, hvals₁.trans hvals₂⟩,
    fun o ho => ?_, fun b => ?_, l, _, hl, hm, Nat.sub_add_cancel hleft, rfl⟩
  · exact (takeHead_moved c q w s).ops o (atomAsked_old (hops o ho).1 (hops o ho).2)
  · rw [hports b]
    exact atomAdd_asks h hloc b

end

/-- Settles O27. -/
theorem atomAddAndMembersAreHeldBack : Obligations.AtomAddAndMembersAreHeldBack := by
  rintro c q s w d o0 adding rfl rfl hadding
  refine ⟨fun h hloc hreads => atomAdd_waits h fun hc => hreads hc.1, fun h hloc hheld => ?_, fun h hloc hfree hclean => ?_,
    signal_member, fun h hwin => ?_⟩
  · obtain ⟨t, o, hrun, hmem, hof, hstage, hrds, hframe⟩ := atomAdd_waits h fun hc => by simp [hheld] at hc
    exact ⟨t, o, hrun, hmem, hof, hstage, by rw [hrds, rdLines_staging hloc, deal_nil]; rfl, hframe⟩
  · cases hwin : inWindow s c q with
    | false =>
      obtain ⟨t, hrun, ⟨hseq, honly, hvals⟩, hrest⟩ := atomAdd_issues h hloc hfree hclean hadding hwin
      exact ⟨t, hrun, hseq, honly, hvals, fun _ => hrest, fun e => by cases e⟩
    | true =>
      obtain ⟨t, hrun, ⟨hseq, honly, hvals⟩, hrest⟩ := atomAdd_held h hloc hfree hclean hadding hwin
      exact ⟨t, hrun, hseq, honly, hvals, fun e => (by cases e), fun _ => hrest⟩
  · obtain ⟨t, l, m, hrun, hl, hm, hleft, hbuf, hrest⟩ := flags_member h hwin
    exact ⟨t, l, m, hrun, hl, hm, hleft, hbuf.trans (List.append_assoc ..).symm, hrest⟩

end Sys2Proof.Claims
end

section
/-! SUPPORT. What operations that go on leave of every context. -/

namespace Sys2Proof.Machine

open Sys2Proof Sys2Proof.Claims

/-- No context opens a lock window. -/
structure Closes (s t : State) : Prop where
  closed : ∀ d, (s.cx d).lockWin = none → (t.cx d).lockWin = none

theorem Closes.refl (s : State) : Closes s s := ⟨fun _ h => h⟩

theorem Closes.trans {s t u : State} (h : Closes s t) (k : Closes t u) : Closes s u := ⟨fun d e => k.closed d (h.closed d e)⟩

theorem Closes.of_ctx {s t : State} (h : t.ctx = s.ctx) : Closes s t := ⟨fun d e => by rw [cx_of_ctx h]; exact e⟩

theorem modCtx_closes (s : State) (c : Ctx) {f : CtxState → CtxState} (h : ∀ x : CtxState, x.lockWin = none → (f x).lockWin = none) :
    Closes s (s.modCtx c f) := by
  refine ⟨fun d e => ?_⟩
  rw [modCtx_cx_cases]
  split
  · next hd => exact h _ (hd ▸ e)
  · exact e

theorem ifThen_closes {b : Bool} {f : State → State} (h : ∀ s, Closes s (f s)) (s : State) : Closes s (State.ifThen b f s) := by
  cases b
  exacts [Closes.refl s, h s]

theorem dropWindow_closes (c : Ctx) (s : State) : Closes s (dropWindow c s) := by
  have h : Closes s (s.modCtx c fun x => { x with lockWin := none }) := modCtx_closes s c fun _ _ => rfl
  exact h.trans (.of_ctx rfl)

theorem deliver_closes (c : Ctx) (r : Rec) (s : State) : Closes s (deliver c r s) := by
  unfold deliver
  exact modCtx_closes _ c fun _ h => h

theorem forget_closes (c : Ctx) (q : BitVec 8) (s : State) : Closes s (forget c q s) := by
  unfold forget
  exact modCtx_closes _ c fun _ h => h

theorem ctxFault_closes (c : Ctx) (code : Nat) (q : QSel) (idx aux : Nat) (s : State) : Closes s (ctxFault c code q idx aux s) := by
  obtain ⟨f, hf⟩ := recordFault_ctx c code tenantFatal q idx aux s
  have hrec : Closes s (s.modCtx c fun x => { x with fault := f }) := modCtx_closes s c fun _ h => h
  refine (hrec.trans (.of_ctx hf)).trans (modCtx_closes _ c fun x h => ?_)
  dsimp only
  split
  · cases q <;> exact h
  · exact h

theorem memberFault_closes (c : Ctx) (s : State) : Closes s (memberFault c s) :=
  ifThen_closes (dropWindow_closes c) s

theorem complete_closes (o : Op) (s : State) : Closes s (complete o s) := by
  unfold complete
  split
  · exact .of_ctx rfl
  · dsimp only
    refine Closes.trans ?_ (ifThen_closes (deliver_closes _ _) _)
    refine Closes.trans ?_ (.of_ctx (emitOp_ctx ..))
    refine Closes.trans ?_ (ifThen_closes (memberFault_closes _) _)
    refine Closes.trans ?_ (ifThen_closes (ctxFault_closes _ _ _ _ _) _)
    refine Closes.trans ?_ (.of_ctx (endStall_ctx ..))
    refine Closes.trans ?_ (.of_ctx (countOp_ctx ..))
    exact Closes.trans (t := s.dropOp o.ctx o.seq) (.of_ctx rfl) (forget_closes ..)

/-- Semaphores, sticky flags and mask slots of every context, the memories and the time are as before, and no window opens. -/
structure Quiet (s t : State) : Prop extends Closes s t where
  sem : ∀ d, (t.cx d).sem = (s.cx d).sem
  sticky : ∀ d, (t.cx d).sticky = (s.cx d).sticky
  masks : ∀ d, (t.cx d).masks = (s.cx d).masks
  keeps : Keeps s t
  clk : t.clk = s.clk

theorem Quiet.refl (s : State) : Quiet s s := ⟨.refl s, fun _ => rfl, fun _ => rfl, fun _ => rfl, Keeps.refl s, rfl⟩

theorem Quiet.trans {s t u : State} (h : Quiet s t) (k : Quiet t u) : Quiet s u :=
  ⟨h.toCloses.trans k.toCloses, fun d => (k.sem d).trans (h.sem d), fun d => (k.sticky d).trans (h.sticky d),
    fun d => (k.masks d).trans (h.masks d), h.keeps.trans k.keeps, k.clk.trans h.clk⟩

theorem Quiet.foldl {α : Type} {f : State → α → State} (h : ∀ s x, Quiet s (f s x)) (l : List α) (s : State) : Quiet s (l.foldl f s) := by
  induction l generalizing s with
  | nil => exact Quiet.refl s
  | cons x l ih => exact (h s x).trans (ih _)

theorem Quiet.of_calm {c : Ctx} {s t : State} (h : Calm c s t) (hc : Closes s t) (hk : Keeps s t) (hs : Still s t) : Quiet s t := by
  have hall : ∀ d, (t.cx d).sem = (s.cx d).sem ∧ (t.cx d).sticky = (s.cx d).sticky ∧ (t.cx d).masks = (s.cx d).masks := fun d => by
    by_cases hd : d = c
    · subst hd
      exact ⟨h.sem, h.sticky, h.masks⟩
    · rw [h.others d hd]
      exact ⟨rfl, rfl, rfl⟩
  exact ⟨hc, fun d => (hall d).1, fun d => (hall d).2.1, fun d => (hall d).2.2, hk, hs.clk⟩

theorem Quiet.of_ctx {s t : State} (h : t.ctx = s.ctx) (hk : Keeps s t) (hs : Still s t) : Quiet s t :=
  ⟨.of_ctx h, fun d => by rw [cx_of_ctx h], fun d => by rw [cx_of_ctx h], fun d => by rw [cx_of_ctx h], hk, hs.clk⟩

theorem complete_quiet (o : Op) (s : State) : Quiet s (complete o s) :=
  .of_calm (complete_calm o s) (complete_closes o s) (complete_keeps o s) (complete_still o s)

theorem releaseUnits_quiet (o : Op) (s : State) : Quiet s (releaseUnits o s) :=
  .of_ctx (releaseUnits_ctx ..) (releaseUnits_keeps ..) (releaseUnits_still ..)

theorem holdFailed_ctx (o : Op) (s : State) : (holdFailed o s).ctx = s.ctx := by
  unfold holdFailed
  dsimp only
  split
  · exact releaseUnits_ctx o s
  · rfl

theorem failOp_quiet (o : Op) (code : Nat) (s : State) : Quiet s (failOp o code s) := by
  unfold failOp
  dsimp only
  split
  · exact (releaseUnits_quiet ..).trans (complete_quiet ..)
  · exact .of_ctx (holdFailed_ctx ..) (holdFailed_keeps ..) (holdFailed_still ..)

theorem modOp_quiet (s : State) (c : Ctx) (q : BitVec 8) (f : Op → Op) : Quiet s (s.modOp c q f) :=
  .of_ctx rfl (modOp_keeps ..) (modOp_still ..)

theorem issueAdds_still (c : Ctx) (seq : BitVec 8) (ports : List Bay) (spans : List Range) (w : List (Nat × Word)) (s : State) :
    Still s (issueAdds c seq ports spans w s) :=
  (Still.foldl (fun _ _ => issueWrReq_still ..) _ s).trans (modOp_still ..)

theorem issueAdds_quiet (c : Ctx) (seq : BitVec 8) (ports : List Bay) (spans : List Range) (w : List (Nat × Word)) (s : State) :
    Quiet s (issueAdds c seq ports spans w s) := .of_ctx (issueAdds_ctx ..) (issueAdds_keeps ..) (issueAdds_still ..)

theorem pushBuf_quiet (c : Ctx) (b : BufItem) (n : Nat) (s : State) : Quiet s (pushBuf c b n s) :=
  .of_calm (pushBuf_pushed c b n s).calm (modCtx_closes s c fun x h => by rw [h]; rfl) (modCtx_keeps ..) (modCtx_still ..)

theorem reportPoison_still (c : Ctx) (n : Nat) (s : State) : Still s (reportPoison c n s) := by
  rw [reportPoison, report_ras_only]
  exact .of_eq rfl rfl rfl rfl rfl

theorem atomGo_quiet (o : Op) (s : State) : Quiet s (atomGo o s) := by
  unfold atomGo
  dsimp only
  split
  · exact Quiet.trans (.of_ctx (reportPoison_ctx ..) (reportPoison_keeps ..) (reportPoison_still ..)) (failOp_quiet ..)
  · split
    · exact (pushBuf_quiet ..).trans (complete_quiet ..)
    · exact (modOp_quiet ..).trans (issueAdds_quiet ..)

theorem resumeAtoms_quiet (s : State) : Quiet s (resumeAtoms s) := Quiet.foldl (fun s o => atomGo_quiet o s) _ s

end Sys2Proof.Machine
end

section
/-! Settles the statement about the end of a lock window. -/

namespace Sys2Proof.Machine

open Sys2Proof Sys2Proof.Claims

/-! ### A commit, item by item -/

theorem issueWrReq_oos (b : Bay) (r : WrReq) (s : State) (d : Bay) : ((issueWrReq b r s).by d).oos = (s.by d).oos := by
  rw [issueWrReq, modBay_by_cases]
  split
  · next h => rw [h]
  · rfl

theorem issueWrites_oos (c : Ctx) (w : Owner) (ports : List Bay) (spans : List Range) (ws : List Wr) (s : State) (b : Bay) :
    ((issueWrites c w ports spans ws s).1.by b).oos = (s.by b).oos := by
  rw [issueWrites_eq]
  have hflush := foldl_eq (fun u => (u.by b).oos) (f := fun s d => issueFlush d w s) (fun _ _ => issueWrReq_oos ..)
  have hlines := foldl_eq (fun u => (u.by b).oos)
    (f := fun s (x : PortLine) => issueWr x.1 x.2.1 (tierIn s c true spans x.2.1) c x.2.2.1 x.2.2.2 s) (fun _ _ => issueWrReq_oos ..)
  exact (hflush ..).trans (hlines ..)

theorem issueAdds_oos (c : Ctx) (seq : BitVec 8) (ports : List Bay) (spans : List Range) (w : List (Nat × Word)) (s : State) (b : Bay) :
    ((issueAdds c seq ports spans w s).by b).oos = (s.by b).oos :=
  foldl_eq (fun u => (u.by b).oos) (f := fun s (x : AddLine) => issueAdd x.1 x.2.1 (tierIn s c true spans x.2.1) c x.2.2.1 x.2.2.2 (.op c seq) s)
    (fun _ _ => issueWrReq_oos ..) _ s

/-- Writes of a commit go out, counted in the UNLOCK. -/
def commitPut (c : Ctx) (seq : BitVec 8) (ports : List Bay) (spans : List Range) (ws : List Wr) (s : State) : State :=
  (issueWrites c (.op c seq) ports spans ws s).1.modOp c seq fun o => { o with wrs := o.wrs + (issueWrites c (.op c seq) ports spans ws s).2 }

section
variable (c : Ctx) (seq : BitVec 8) (s : State)

theorem commitItem_bytes (w : List (Bool × Nat × Byte)) (keep : List (Nat × Byte)) (n : Nat) (spans : List (Nat × Nat)) :
    commitItem c seq s (.bytes w keep n spans) =
      commitPut c seq (s.portBays c) (winRanges spans) ((keepBits s.staging.read keep w).map fun x => (x.1, x.2.1, [x.2.2])) s := rfl

theorem commitItem_sem (i : Fin 16) (add : Word) : commitItem c seq s (.sem i add none) =
    s.modCtx c fun x => { x with sem := x.sem.set i.1 ((s.cx c).sem.get i + add) i.2 } := rfl

theorem commitItem_semPost (i : Fin 16) (add : Word) (win : Bool) (a : Nat) : commitItem c seq s (.sem i add (some (win, a))) =
    commitPut c seq (s.portBays c) [⟨win, a, 4⟩] [(win, a, leBytes 4 ((s.cx c).sem.get i + add).toNat)] (commitItem c seq s (.sem i add none)) := rfl

theorem commitItem_atoms (w : List (Nat × Word)) (q : BitVec 8) (spans : List (Nat × Nat)) :
    commitItem c seq s (.atoms w q spans) = issueAdds c seq (s.portBays c) (winRanges spans) w s := rfl

theorem commitItem_clear (sel : Flags) :
    commitItem c seq s (.clear sel) = s.modCtx c fun x => { x with sticky := x.sticky.map (·.clear sel) } := rfl

end

/-- The block `t` where a commit of context `c` that began at `s` has come to `v`. -/
structure Tracks (c : Ctx) (s t : State) (v : Commit) : Prop where
  others : ∀ d, d ≠ c → t.cx d = s.cx d
  sem : (t.cx c).sem = v.sem
  sticky : (t.cx c).sticky = v.sticky
  masks : (t.cx c).masks = (s.cx c).masks
  alt : (t.cx c).alt = (s.cx c).alt
  staging : t.staging = v.mem
  setup : SameSetup s t
  oos : ∀ b, (t.by b).oos = (s.by b).oos
  asks : ∀ b, Claims.asks (t.by b).port = Claims.asks (s.by b).port ++ v.out b
  ops : ∀ p ∈ t.ops, ∃ r ∈ s.ops, p.opc = r.opc ∧ p.stage = r.stage
  clk : t.clk = s.clk

theorem Tracks.portBays {c : Ctx} {s t : State} {v : Commit} (h : Tracks c s t v) : t.portBays c = s.portBays c :=
  portBays_congr h.setup h.alt h.oos

theorem writesOf_staged (m : Mem) (ws : List Wr) :
    writesOf m (staged ws) = (ws.filter fun x => !x.1).foldl (fun m x => m.writeN x.2.1 x.2.2) m := by
  induction ws generalizing m with
  | nil => rfl
  | cons x ws ih =>
    obtain ⟨win, a, l⟩ := x
    cases win with
    | true => exact ih m
    | false => exact ih (m.writeN a l)

theorem modOp_sameKind {s : State} {c : Ctx} {q : BitVec 8} {f : Op → Op} (hf : ∀ o : Op, (f o).opc = o.opc ∧ (f o).stage = o.stage) {p : Op}
    (h : p ∈ (s.modOp c q f).ops) : ∃ r ∈ s.ops, p.opc = r.opc ∧ p.stage = r.stage := by
  obtain ⟨r, hr, rfl⟩ := List.mem_map.1 h
  refine ⟨r, hr, ?_⟩
  split
  exacts [hf r, ⟨rfl, rfl⟩]

section
variable {c : Ctx} {s t : State} {v : Commit} (h : Tracks c s t v)
include h

theorem Tracks.put {ports : List Bay} (hports : ports = s.portBays c) (seq : BitVec 8) (spans : List Range) (ws : List Wr) :
    Tracks c s (commitPut c seq ports spans ws t) (v.put s c seq spans ws) := by
  subst hports
  have hcx : ∀ d, (commitPut c seq (s.portBays c) spans ws t).cx d = t.cx d := fun d => by
    show (issueWrites ..).1.cx d = _
    rw [issueWrites_rest]
    rfl
  have hsound := issueWrites_sound c (.op c seq) (s.portBays c) spans ws t
  refine ⟨fun d hd => (hcx d).trans (h.others d hd), by rw [hcx, h.sem]; rfl, by rw [hcx, h.sticky]; rfl, by rw [hcx, h.masks],
    by rw [hcx, h.alt], ?_, ?_, fun b => ?_, fun b => ?_, fun p hp => ?_, ?_⟩
  · show (issueWrites ..).1.staging = _
    rw [issueWrites_rest]
    refine (congrArg (writesOf · (staged ws)) h.staging).trans (writesOf_staged _ ws)
  · exact SameSetup.trans h.setup ⟨hsound.prot, hsound.build, hsound.pending⟩
  · exact (issueWrites_oos ..).trans (h.oos b)
  · refine (issueWrites_asks ..).trans ?_
    rw [h.asks b, posts_congr h.setup.prot, List.append_assoc]
    rfl
  · obtain ⟨r, hr, hk⟩ := modOp_sameKind (f := fun o => { o with wrs := o.wrs + _ }) (fun _ => ⟨rfl, rfl⟩) hp
    rw [issueWrites_rest] at hr
    obtain ⟨x, hx, hk'⟩ := h.ops r hr
    exact ⟨x, hx, hk.1.trans hk'.1, hk.2.trans hk'.2⟩
  · exact (issueWrites_still ..).clk.trans h.clk

/-- A semaphore or the sticky flags change. -/
theorem Tracks.modCtx {f : CtxState → CtxState} (hmasks : ∀ x, (f x).masks = x.masks) (halt : ∀ x, (f x).alt = x.alt) :
    Tracks c s (t.modCtx c f) { v with sem := (f (t.cx c)).sem, sticky := (f (t.cx c)).sticky } := by
  refine ⟨fun d hd => (modCtx_cx_ne _ _ _ hd).trans (h.others d hd), by rw [modCtx_cx], by rw [modCtx_cx], by rw [modCtx_cx, hmasks, h.masks],
    by rw [modCtx_cx, halt, h.alt], h.staging, ⟨h.setup.prot, h.setup.build, h.setup.pending⟩, h.oos, h.asks, h.ops, h.clk⟩

theorem Tracks.sem_item (seq : BitVec 8) (i : Fin 16) (add : Word) :
    Tracks c s (commitItem c seq t (.sem i add none)) (v.item s c seq (.sem i add none)) := by
  have hm := h.modCtx (f := fun x => { x with sem := x.sem.set i.1 ((t.cx c).sem.get i + add) i.2 }) (fun _ => rfl) fun _ => rfl
  rw [commitItem_sem]
  dsimp only at hm
  rw [h.sem, h.sticky] at hm
  rw [h.sem]
  exact hm

/-- One item of the store buffer does to the block what it does to the commit. -/
theorem Tracks.item (seq : BitVec 8) (b : BufItem) : Tracks c s (commitItem c seq t b) (v.item s c seq b) := by
  cases b with
  | bytes w keep n spans =>
    rw [commitItem_bytes, h.staging]
    exact h.put h.portBays seq (winRanges spans) _
  | sem i add post =>
    have hs := h.sem_item seq i add
    rcases post with _ | ⟨win, a⟩
    · exact hs
    · rw [commitItem_semPost, h.sem]
      exact hs.put h.portBays seq [⟨win, a, 4⟩] _
  | atoms w q spans =>
    rw [commitItem_atoms, h.portBays]
    have hq := issueAdds_quiet c seq (s.portBays c) (winRanges spans) w t
    have hcx := fun d => cx_of_ctx (issueAdds_ctx c seq (s.portBays c) (winRanges spans) w t) d
    refine ⟨fun d hd => (hcx d).trans (h.others d hd), by rw [hcx, h.sem]; rfl, by rw [hcx, h.sticky]; rfl, by rw [hcx, h.masks],
      by rw [hcx, h.alt], hq.keeps.staging.trans h.staging, SameSetup.trans h.setup (sameSetup_of_keeps hq.keeps),
      fun b => (issueAdds_oos ..).trans (h.oos b), fun b => ?_, fun p hp => ?_, hq.clk.trans h.clk⟩
    · rw [issueAdds_asks, h.asks b, adds_congr h.setup.prot, List.append_assoc]
      rfl
    · rw [issueAdds_eq] at hp
      obtain ⟨r, hr, hk⟩ := modOp_sameKind (f := fun o => { o with acks := o.acks + _ }) (fun _ => ⟨rfl, rfl⟩) hp
      rw [sendAdds_ops] at hr
      obtain ⟨x, hx, hk'⟩ := h.ops r hr
      exact ⟨x, hx, hk.1.trans hk'.1, hk.2.trans hk'.2⟩
  | clear sel =>
    have hm := h.modCtx (f := fun x => { x with sticky := x.sticky.map (·.clear sel) }) (fun _ => rfl) fun _ => rfl
    rw [commitItem_clear]
    dsimp only at hm
    rw [h.sem, h.sticky] at hm
    exact hm

theorem Tracks.items (seq : BitVec 8) (l : List BufItem) : Tracks c s (l.foldl (commitItem c seq) t) (l.foldl (Commit.item s c seq) v) := by
  induction l generalizing t v with
  | nil => exact h
  | cons b l ih => exact ih (h.item seq b)

end

theorem item_sem (s : State) (c : Ctx) (seq : BitVec 8) (v : Commit) (b : BufItem) (i : Fin 16) :
    (v.item s c seq b).sem.get i = v.sem.get i + addOf i b := by
  cases b with
  | sem j x post =>
    have h : (v.item s c seq (.sem j x post)).sem = v.sem.set j.1 (v.sem.get j + x) j.2 := by rcases post with _ | ⟨_, _⟩ <;> rfl
    rw [h, get_set_sem, addOf]
    by_cases e : i = j
    · simp [e]
    · simp [e, Ne.symm e]
  | bytes | atoms | clear => exact (BitVec.add_zero _).symm

theorem commit_sem (s : State) (c : Ctx) (seq : BitVec 8) (l : List BufItem) (v : Commit) (i : Fin 16) (a : Word) :
    (l.foldl (Commit.item s c seq) v).sem.get i + a = v.sem.get i + l.foldl (fun a b => a + addOf i b) a := by
  induction l generalizing v a with
  | nil => rfl
  | cons b l ih =>
    have h := ih (v.item s c seq b) (a + addOf i b)
    rw [item_sem] at h
    simp only [List.foldl_cons]
    linear_combination h

/-! ### The end of a commit -/

/-- The UNLOCK of a window whose buffer is written completes, or waits for its responses (R162, R205). -/
def unlockEnded (c : Ctx) (seq : BitVec 8) (s : State) : State :=
  match s.op? c seq with
  | some o => if o.wrs == 0 && o.acks == 0 then complete o s else s.modOp c seq fun o => { o with stage := .flushing }
  | none => s

theorem endCommit_eq (c : Ctx) (l : LockWin) (seq : BitVec 8) (s : State) : endCommit c l seq s =
    unlockEnded c seq (resumeAtoms ((l.buf.foldl (commitItem c seq) s).modCtx c fun x => { x with lockWin := none })) := rfl

/-- An operation completes or goes on: no other context changes, and no port. -/
theorem unlockEnded_cases (c : Ctx) (seq : BitVec 8) (s : State) : Quiet s (unlockEnded c seq s) ∧
    (∀ d, d ≠ c → (unlockEnded c seq s).cx d = s.cx d) ∧ ∀ b, ((unlockEnded c seq s).by b).port = (s.by b).port := by
  unfold unlockEnded
  cases ho : s.op? c seq with
  | none => exact ⟨.refl s, fun _ _ => rfl, fun _ => rfl⟩
  | some o =>
    dsimp only
    split
    · exact ⟨complete_quiet o s, (op?_is ho).1 ▸ (complete_calm o s).others, fun b => ((complete_baysKept o s).bays b).port⟩
    · exact ⟨modOp_quiet .., fun _ _ => rfl, fun _ => rfl⟩

theorem resumeAtoms_none {s : State} (h : ∀ p ∈ s.ops, p.opc = 0x13 → p.stage ≠ .granted) : resumeAtoms s = s := by
  have hnone : s.ops.filter (atomMay s) = [] := List.filter_eq_nil_iff.2 fun p hp hmay => by
    simp only [atomMay, Bool.and_eq_true, beq_iff_eq] at hmay
    obtain ⟨⟨⟨⟨hopc, hstage⟩, -⟩, -⟩, -⟩ := hmay
    exact h p hp hopc hstage
  rw [resumeAtoms, hnone]
  rfl

/-- A commit as it begins. -/
def commitBegins (s : State) (c : Ctx) : Commit := ⟨(s.cx c).sem, (s.cx c).sticky, s.staging, fun _ => []⟩

theorem tracks_begins (c : Ctx) (s : State) : Tracks c s s (commitBegins s c) :=
  ⟨fun _ _ => rfl, rfl, rfl, rfl, rfl, rfl, SameSetup.refl s, fun _ => rfl, fun _ => (List.append_nil _).symm, fun p hp => ⟨p, hp, rfl, rfl⟩, rfl⟩

theorem commitOf_eq (s : State) (c : Ctx) (seq : BitVec 8) (l : LockWin) :
    commitOf s c seq l = l.buf.foldl (Commit.item s c seq) (commitBegins s c) := rfl

/-- When its bytes go out does not change what a commit writes. -/
theorem commitOf_passed {s t : State} (h : Passed s t) (c : Ctx) (seq : BitVec 8) (l : LockWin) : commitOf t c seq l = commitOf s c seq l := by
  have hprot : t.prot = s.prot := h.lapsed.prot
  have hports : t.portBays c = s.portBays c := h.portBays c
  have hput : ∀ spans ws v, Commit.put t c seq spans ws v = Commit.put s c seq spans ws v := fun spans ws v => by
    rw [Commit.put, hports, Commit.put]
    simp only [posts_congr hprot]
  have hitem : Commit.item t c seq = Commit.item s c seq := by
    funext v b
    cases b with
    | bytes w keep n spans => exact hput ..
    | sem i add post =>
      rcases post with _ | ⟨win, a⟩
      exacts [rfl, hput ..]
    | atoms w q spans =>
      simp only [Commit.item, hports, adds_congr hprot]
    | clear sel => rfl
  have hbegin : commitBegins t c = commitBegins s c := by
    rw [commitBegins, cx_of_ctx h.ctx, h.lapsed.staging, ← commitBegins]
  rw [commitOf_eq, hitem, hbegin, commitOf_eq]

/-- What the end of a commit leaves: the window is closed, and what it held back has taken effect. -/
theorem endCommit_frame (c : Ctx) (l : LockWin) (seq : BitVec 8) (s : State) :
    ((endCommit c l seq s).cx c).lockWin = none ∧ (endCommit c l seq s).clk = s.clk ∧
      ((endCommit c l seq s).cx c).sem = (commitOf s c seq l).sem ∧ ((endCommit c l seq s).cx c).sticky = (commitOf s c seq l).sticky ∧
      (endCommit c l seq s).staging = (commitOf s c seq l).mem ∧ ((endCommit c l seq s).cx c).masks = (s.cx c).masks ∧
      (endCommit c l seq s).prot = s.prot ∧ ((∀ p ∈ s.ops, p.opc = 0x13 → p.stage ≠ .granted) →
        (∀ d, d ≠ c → (endCommit c l seq s).cx d = s.cx d) ∧
        ∀ b, asks ((endCommit c l seq s).by b).port = asks (s.by b).port ++ (commitOf s c seq l).out b) := by
  have h : Tracks c s (l.buf.foldl (commitItem c seq) s) (commitOf s c seq l) := (tracks_begins c s).items seq l.buf
  have hclosed : ∀ u : State, (((u.modCtx c fun x => { x with lockWin := none }).cx c)) = { u.cx c with lockWin := none } := fun u => modCtx_cx ..
  obtain ⟨hquiet, hothers, hports⟩ := unlockEnded_cases c seq
    (resumeAtoms ((l.buf.foldl (commitItem c seq) s).modCtx c fun x => { x with lockWin := none }))
  have hall := (resumeAtoms_quiet ((l.buf.foldl (commitItem c seq) s).modCtx c fun x => { x with lockWin := none })).trans hquiet
  rw [endCommit_eq]
  refine ⟨hall.closed c (by rw [hclosed]), hall.clk.trans h.clk, ?_, ?_, hall.keeps.staging.trans h.staging, ?_, hall.keeps.prot.trans h.setup.prot,
    fun hnone => ?_⟩
  · rw [hall.sem, hclosed, ← h.sem]
  · rw [hall.sticky, hclosed, ← h.sticky]
  · rw [hall.masks, hclosed, ← h.masks]
  · have hres : resumeAtoms ((l.buf.foldl (commitItem c seq) s).modCtx c fun x => { x with lockWin := none }) = _ :=
      resumeAtoms_none fun p hp hopc => by
        obtain ⟨r, hr, hk⟩ := h.ops p hp
        rw [hk.2]
        exact hnone r hr (hk.1 ▸ hopc)
    refine ⟨fun d hd => ?_, fun b => ?_⟩
    · rw [hothers d hd, hres, modCtx_cx_ne _ _ _ hd, h.others d hd]
    · rw [hports b, hres]
      exact h.asks b

end Sys2Proof.Machine

namespace Sys2Proof.Claims

open Sys2Proof Sys2Proof.Machine

/-- Settles O8. -/
theorem lockWindowEnds : Obligations.LockWindowEnds := by
  refine ⟨fun c s l e u o hl he hu ho hfast hhard hscrub hport => ?_, fun c s l h hl he hreq hh => ?_⟩
  · obtain ⟨-, hseq, -⟩ := op?_is ho
    have hrun : exec (.lockCommitEnd c) s = .next (endCommit c l u (at' (phaseEnd s o ((l.share + 63) / 64)) s)) := by
      have hbind : l.unlock.bind (s.op? c) = some o := by rw [hu]; exact ho
      show execLockCommitEnd c s = _
      rw [execLockCommitEnd, hl]
      dsimp only
      rw [hbind]
      dsimp only
      rw [he, hfast, hhard, hscrub, hport, hseq]
      rfl
    have hp := at'_passed (phaseEnd s o ((l.share + 63) / 64)) s
    obtain ⟨hwin, hclk, hsem, hsticky, hstaging, hmasks, hprot, hrest⟩ := endCommit_frame c l u (at' (phaseEnd s o ((l.share + 63) / 64)) s)
    rw [commitOf_passed hp] at hsem hsticky hstaging hrest
    rw [cx_of_ctx hp.ctx] at hmasks
    refine ⟨_, hrun, hwin, hclk.trans (at'_clk ..), fun i => ?_, hsem, hsticky, hstaging, hmasks, hprot.trans hp.lapsed.prot, fun hnone => ?_⟩
    · have hadd := commit_sem s c u l.buf (commitBegins s c) i 0
      rw [add_zero] at hadd
      rw [hsem, bufferedAdds_eq hl]
      exact hadd
    · obtain ⟨hothers, hasks⟩ := hrest (by rw [at'_ops]; exact hnone)
      refine ⟨fun d hd => (hothers d hd).trans (cx_of_ctx hp.ctx d), fun b => ?_⟩
      rw [hasks b, hp.bays b]
  · have hlimit : haltLimit s = some (h + 256 * fcLen s) := by rw [haltLimit, hh]; rfl
    have hrun : exec (.lockBroken c) s = .next (breakWindow c l (at' (h + 256 * fcLen s) s)) := by
      show execLockBroken c s = _
      rw [execLockBroken, hl, hlimit]
      dsimp only
      rw [hreq, he]
      rfl
    have hp := at'_passed (h + 256 * fcLen s) s
    have hk := at'_keeps (h + 256 * fcLen s) s
    have hcx := cx_of_ctx hp.ctx
    obtain ⟨hnone, hhead, hseq, hmode, honly, hvals⟩ := breakWindow_frame c l (at' (h + 256 * fcLen s) s)
    rw [hcx] at hseq hmode hvals
    refine ⟨_, hrun, hnone, hhead, (breakWindow_clk ..).trans (at'_clk ..), hseq, hmode, ?_, hvals, fun o ho => ?_, ?_⟩
    · exact OnlyCtx.trans ⟨fun d _ => hcx d, hk.staging, hk.banks, hk.prot⟩ honly
    · rw [breakWindow_ops, at'_ops] at ho
      obtain ⟨hmem, hkeep⟩ := List.mem_filter.1 ho
      exact ⟨hmem, by simpa [Classical.or_iff_not_imp_left] using hkeep⟩
    · exact faultNoted_of_eq (breakWindow_noted ..) (by rw [hcx]) rfl rfl

end Sys2Proof.Claims
end

section
/-! Settles the statement about the writing of completion records. -/

namespace Sys2Proof.Machine

open Sys2Proof Sys2Proof.Claims

/-- Where the next completion record of a context goes. -/
def recordRange (x : CtxState) : Range := ⟨x.cqBase.1, x.cqBase.2 + 32 * x.cqWrite.toNat, 32⟩

/-- The next record goes to the place behind the written one (R165). -/
def CtxState.cqMoved (slot entries : Nat) (x : CtxState) : CtxState :=
  { x with cqWrite := BitVec.ofNat 16 ((slot + 1) % entries), cqWPhase := if (slot + 1) % entries == 0 then !x.cqWPhase else x.cqWPhase }

theorem farOf_congr {s t : State} (h : t.prot = s.prot) (c : Ctx) (wr : Bool) (r : Range) : farOf t c wr r = farOf s c wr r := by
  unfold farOf windowOf
  rw [h]

theorem rangeOk_congr {s t : State} (hset : SameSetup s t) (hm : ∀ d, (t.cx d).masks = (s.cx d).masks) (c : Ctx) (wr : Bool) (r : Range) :
    rangeOk t c wr r = rangeOk s c wr r := by
  unfold rangeOk windowOf inPartition pinned
  rw [hset.prot, hset.build]
  simp only [hm]

theorem lowBay_congr {s t : State} (hb : t.build = s.build) (ho : ∀ b, (t.by b).oos = (s.by b).oos) : t.lowBay = s.lowBay := by
  have hserve : t.inService = s.inService := funext fun b => by rw [State.inService, State.present, hb, ho, State.inService, State.present]
  rw [State.lowBay, State.bays, hb, hserve, State.lowBay, State.bays]

theorem Rec.bytes_length (r : Rec) (phase : Bool) : (r.bytes phase).length = 32 := by simp [Rec.bytes, leBytes_length]

/-! ### The three places of a record -/

section
variable {c : Ctx} {r : Rec} {s : State}

theorem writeRecord_dropped (h : rangeOk s c true (recordRange (s.cx c)) = false) : writeRecord c r s = dropRecords c r s :=
  if_pos (by rw [← recordRange, h]; rfl)

/-- The block with a record in staging. -/
def stagedRecord (c : Ctx) (r : Rec) (s : State) : State :=
  (writeStaging [((recordRange (s.cx c)).lo, r.bytes (s.cx c).cqWPhase)] s).modCtx c
    fun y => (y.cqMoved (s.cx c).cqWrite.toNat (s.cx c).cqEntries).tailOne (r.status != 0)

theorem writeRecord_staged (h : rangeOk s c true (recordRange (s.cx c)) = true) (hwin : (s.cx c).cqBase.1 = false) :
    writeRecord c r s = stagedRecord c r s := by
  unfold writeRecord
  dsimp only
  rw [if_neg (by rw [← recordRange, h]; simp), if_neg (by simp [hwin])]
  rfl

/-- The lines of a record in a window, posted on one port. -/
def postRecord (b : Bay) (c : Ctx) (range : Range) (ls : List (Nat × BitVec 64 × List Byte)) (s : State) : State :=
  ls.foldl (fun s l => issueWr b l.1 (farOf s c true range) c l.2.1 l.2.2 s) s

/-- A record on its way to a window. -/
def CtxState.inFlight (slot : Nat) (bad : Bool) (x : CtxState) : CtxState := { x with cqFlight := x.cqFlight ++ [(slot, false, bad)] }

/-- The block with a record posted on a port, behind it a flush. -/
def postedRecord (b : Bay) (c : Ctx) (r : Rec) (s : State) : State :=
  issueFlush b (.record c (s.cx c).cqWrite.toNat)
    ((postRecord b c (recordRange (s.cx c)) (wrLines [(true, (recordRange (s.cx c)).lo, r.bytes (s.cx c).cqWPhase)]) s).modCtx c
      fun y => (y.cqMoved (s.cx c).cqWrite.toNat (s.cx c).cqEntries).inFlight (s.cx c).cqWrite.toNat (r.status != 0))

theorem writeRecord_posted (h : rangeOk s c true (recordRange (s.cx c)) = true) (hwin : (s.cx c).cqBase.1 = true) {b : Bay}
    (hb : s.lowBay = some b) : writeRecord c r s = postedRecord b c r s := by
  unfold writeRecord
  dsimp only
  rw [if_neg (by rw [← recordRange, h]; simp), if_pos hwin, hb]
  rfl

/-- Without a bay in service the record waits. -/
theorem writeRecord_waits (h : rangeOk s c true (recordRange (s.cx c)) = true) (hwin : (s.cx c).cqBase.1 = true) (hb : s.lowBay = none) :
    writeRecord c r s = s.modCtx c fun y => { y with recs := r :: y.recs } := by
  unfold writeRecord
  dsimp only
  rw [if_neg (by rw [← recordRange, h]; simp), if_pos hwin, hb]

end

/-! ### A record that is dropped -/

section
variable (c : Ctx) (r : Rec) (s : State)

/-- The faults of dropped records are noted. -/
def recordFaults (c : Ctx) (l : List Rec) (s : State) : State := l.foldl (fun s r => recordFault c 0x04 tenantFatal r.q r.qidx 0 s) s

theorem dropRecords_eq : dropRecords c r s =
    (recordFaults c ((ctxFault c 0x04 r.q r.qidx 0 s).cx c).recs (ctxFault c 0x04 r.q r.qidx 0 s)).modCtx c
      fun x => { x with recs := [], irqFault := true } := rfl

theorem recordFaults_keeps (l : List Rec) : Keeps s (recordFaults c l s) := Keeps.foldl (fun _ _ => recordFault_keeps ..) l s

theorem recordFaults_still (l : List Rec) : Still s (recordFaults c l s) := Still.foldl (fun _ _ => recordFault_still ..) l s

theorem recordFaults_cx (l : List Rec) : ∃ f : FaultRec, (recordFaults c l s).cx c = { s.cx c with fault := f } := by
  induction l generalizing s with
  | nil => exact ⟨_, rfl⟩
  | cons x l ih =>
    obtain ⟨f, hf⟩ := recordFault_ctx c 0x04 tenantFatal x.q x.qidx 0 s
    obtain ⟨g, hg⟩ := ih (recordFault c 0x04 tenantFatal x.q x.qidx 0 s)
    exact ⟨g, hg.trans (by rw [cx_of_ctx hf, modCtx_cx])⟩

theorem dropRecords_keeps : Keeps s (dropRecords c r s) := by
  rw [dropRecords_eq]
  exact (ctxFault_keeps ..).trans ((recordFaults_keeps ..).trans (modCtx_keeps ..))

theorem dropRecords_still : Still s (dropRecords c r s) := by
  rw [dropRecords_eq]
  exact (ctxFault_still ..).trans ((recordFaults_still ..).trans (modCtx_still ..))

theorem ctxFault_recAt (code : Nat) (q : QSel) (idx aux : Nat) : ((ctxFault c code q idx aux s).cx c).recAt = (s.cx c).recAt := by
  obtain ⟨f, hf⟩ := recordFault_ctx c code tenantFatal q idx aux s
  have hrec : ((recordFault c code tenantFatal q idx aux s).cx c).recAt = (s.cx c).recAt := by rw [cx_of_ctx hf, modCtx_cx]
  rw [ctxFault, modCtx_cx, ← hrec]
  split
  · cases q <;> rfl
  · rfl

theorem dropRecords_frame : ((dropRecords c r s).cx c).recs = [] ∧ ((dropRecords c r s).cx c).irqFault = true ∧
    ((dropRecords c r s).cx c).recAt = (s.cx c).recAt ∧ ((s.cx c).mode = .active → ((dropRecords c r s).cx c).mode = .faulted) := by
  obtain ⟨f, hf⟩ := recordFaults_cx c (ctxFault c 0x04 r.q r.qidx 0 s) ((ctxFault c 0x04 r.q r.qidx 0 s).cx c).recs
  have h : (dropRecords c r s).cx c = { (ctxFault c 0x04 r.q r.qidx 0 s).cx c with fault := f, recs := [], irqFault := true } := by
    rw [dropRecords_eq, modCtx_cx, hf]
  rw [h]
  exact ⟨rfl, rfl, ctxFault_recAt .., ctxFault_mode c 0x04 r.q r.qidx 0 s⟩

end

/-! ### A record in staging -/

section
variable (c : Ctx) (r : Rec) (s : State)

theorem writeStaging_cx (ws : List (Nat × List Byte)) (d : Ctx) : (writeStaging ws s).cx d = s.cx d := rfl

theorem writeStaging_staging (ws : List (Nat × List Byte)) : (writeStaging ws s).staging = writesOf s.staging ws := rfl

theorem writesOf_singleton (m : Mem) (a : Nat) (l : List Byte) : writesOf m [(a, l)] = m.writeN a l := rfl

theorem stagedRecord_cx : (stagedRecord c r s).cx c =
    ((s.cx c).cqMoved (s.cx c).cqWrite.toNat (s.cx c).cqEntries).tailOne (r.status != 0) := by
  rw [stagedRecord, modCtx_cx, writeStaging_cx]

theorem stagedRecord_staging : (stagedRecord c r s).staging = s.staging.writeN (recordRange (s.cx c)).lo (r.bytes (s.cx c).cqWPhase) := by
  rw [stagedRecord, modCtx_staging, writeStaging_staging, writesOf_singleton]

theorem stagedRecord_setup : SameSetup s (stagedRecord c r s) := by
  have h := writeStaging_sound [((recordRange (s.cx c)).lo, r.bytes (s.cx c).cqWPhase)] s
  unfold stagedRecord
  exact SameSetup.trans ⟨h.prot, h.build, h.pending⟩ (sameSetup_of_keeps (modCtx_keeps ..))

theorem stagedRecord_clk : (stagedRecord c r s).clk = s.clk := by
  rw [stagedRecord, modCtx_clk, (writeStaging_still ..).clk]

end

/-! ### A record in a window -/

theorem postRecord_ctx (b : Bay) (c : Ctx) (range : Range) (ls : List (Nat × BitVec 64 × List Byte)) (s : State) :
    (postRecord b c range ls s).ctx = s.ctx := foldl_eq State.ctx (fun _ _ => issueWrReq_ctx ..) ls s

theorem postRecord_keeps (b : Bay) (c : Ctx) (range : Range) (ls : List (Nat × BitVec 64 × List Byte)) (s : State) :
    Keeps s (postRecord b c range ls s) := Keeps.foldl (fun _ _ => issueWr_keeps ..) ls s

theorem postRecord_still (b : Bay) (c : Ctx) (range : Range) (ls : List (Nat × BitVec 64 × List Byte)) (s : State) :
    Still s (postRecord b c range ls s) := Still.foldl (fun _ _ => issueWrReq_still ..) ls s

theorem postRecord_asks (b : Bay) (c : Ctx) (range : Range) (ls : List (Nat × BitVec 64 × List Byte)) (s : State) :
    asks ((postRecord b c range ls s).by b).port =
      asks (s.by b).port ++ ls.map fun x => .wr x.1 (farOf s c true range) c x.2.1 x.2.2 := by
  induction ls generalizing s with
  | nil => exact (List.append_nil _).symm
  | cons x ls ih =>
    have h := ih (issueWr b x.1 (farOf s c true range) c x.2.1 x.2.2 s)
    rw [farOf_congr (issueWr_keeps ..).prot] at h
    refine h.trans ?_
    rw [issueWr, issueWrReq_asks, if_pos rfl, List.append_assoc]
    rfl

section
variable (b : Bay) (c : Ctx) (r : Rec) (s : State)

theorem postedRecord_cx : (postedRecord b c r s).cx c =
    ((s.cx c).cqMoved (s.cx c).cqWrite.toNat (s.cx c).cqEntries).inFlight (s.cx c).cqWrite.toNat (r.status != 0) :=
  by rw [postedRecord, issueFlush, cx_of_ctx (issueWrReq_ctx ..), modCtx_cx, cx_of_ctx (postRecord_ctx ..)]

theorem postedRecord_keeps : Keeps s (postedRecord b c r s) := by
  unfold postedRecord
  exact ((postRecord_keeps ..).trans (modCtx_keeps ..)).trans (issueFlush_keeps ..)

theorem postedRecord_still : Still s (postedRecord b c r s) := by
  unfold postedRecord
  exact ((postRecord_still ..).trans (modCtx_still ..)).trans (issueWrReq_still ..)

theorem postedRecord_asks : asks ((postedRecord b c r s).by b).port = asks (s.by b).port ++
    (wrLines [(true, (recordRange (s.cx c)).lo, r.bytes (s.cx c).cqWPhase)]).map
      (fun x => .wr x.1 (farOf s c true (recordRange (s.cx c))) c x.2.1 x.2.2) ++ [.flush 0 (.record c (s.cx c).cqWrite.toNat) 0] := by
  rw [postedRecord, issueFlush, issueWrReq_asks, if_pos rfl]
  rw [modCtx_by, postRecord_asks]
  rfl

end

end Sys2Proof.Machine

namespace Sys2Proof.Claims

open Sys2Proof Sys2Proof.Machine

/-- The block in which the oldest record of a context is written. -/
def recordDue (c : Ctx) (r : Rec) (l : List Rec) (s : State) : State :=
  (at' (max (r.at_ + fcLen s) (s.cx c).recAt) s).modCtx c fun x =>
    { x with recs := l, recAt := (at' (max (r.at_ + fcLen s) (s.cx c).recAt) s).clk + fcLen (at' (max (r.at_ + fcLen s) (s.cx c).recAt) s) }

theorem exec_completionRecordWrite {c : Ctx} {s : State} {r : Rec} {l : List Rec} (hrecs : (s.cx c).recs = r :: l) (hroom : cqRoom (s.cx c) = true)
    (hfast : s.fastOn = true) (hhalt : s.dbg.halted = false) (hhard : s.damp.hardNow = false) (hwait : recordWaits s c = false) :
    exec (.completionRecordWrite c) s = .next (writeRecord c r (recordDue c r l s)) := by
  show execCompletionRecordWrite c s = _
  rw [execCompletionRecordWrite, hrecs]
  dsimp only
  rw [hroom, hfast, hhalt, hhard, hwait]
  rfl

section
variable (c : Ctx) (r : Rec) (l : List Rec) (s : State)

theorem recordDue_clk : (recordDue c r l s).clk = max s.clk (max (r.at_ + fcLen s) (s.cx c).recAt) := at'_clk ..

theorem recordDue_cx : (recordDue c r l s).cx c =
    { s.cx c with recs := l, recAt := max s.clk (max (r.at_ + fcLen s) (s.cx c).recAt) + fcLen s } := by
  have hp := at'_passed (max (r.at_ + fcLen s) (s.cx c).recAt) s
  have hfc : fcLen (at' (max (r.at_ + fcLen s) (s.cx c).recAt) s) = fcLen s := by rw [fcLen, hp.rest, fcLen]
  rw [recordDue, modCtx_cx, cx_of_ctx hp.ctx, hfc, at'_clk]

theorem recordDue_keeps : Keeps s (recordDue c r l s) := (at'_keeps ..).trans (modCtx_keeps ..)

theorem recordDue_rangeOk (wr : Bool) (x : Range) : rangeOk (recordDue c r l s) c wr x = rangeOk s c wr x := by
  refine rangeOk_congr (sameSetup_of_keeps (recordDue_keeps c r l s)) (fun d => ?_) c wr x
  by_cases hd : d = c
  · rw [hd, recordDue_cx]
  · rw [recordDue, modCtx_cx_ne _ _ _ hd, cx_of_ctx (at'_ctx ..)]

theorem recordDue_by (b : Bay) : ((recordDue c r l s).by b).port = (s.by b).port ∧ ((recordDue c r l s).by b).oos = (s.by b).oos := by
  have hb : (recordDue c r l s).by b = (at' (max (r.at_ + fcLen s) (s.cx c).recAt) s).by b := rfl
  rw [hb, (at'_passed ..).bays b]
  exact ⟨rfl, rfl⟩

end

section
variable (c : Ctx) (r : Rec) (s : State)

/-- Wherever a record goes, set-up, time and the time of the next record are as before. -/
theorem writeRecord_common : SameSetup s (writeRecord c r s) ∧ (writeRecord c r s).clk = s.clk ∧
    ((writeRecord c r s).cx c).recAt = (s.cx c).recAt := by
  cases hok : rangeOk s c true (recordRange (s.cx c)) with
  | false =>
    rw [writeRecord_dropped hok]
    obtain ⟨-, -, hat, -⟩ := dropRecords_frame c r s
    exact ⟨sameSetup_of_keeps (dropRecords_keeps ..), (dropRecords_still ..).clk, hat⟩
  | true =>
    cases hwin : (s.cx c).cqBase.1 with
    | false =>
      rw [writeRecord_staged hok hwin]
      exact ⟨stagedRecord_setup c r s, stagedRecord_clk c r s, by rw [stagedRecord_cx]; rfl⟩
    | true =>
      cases hb : s.lowBay with
      | none =>
        rw [writeRecord_waits hok hwin hb, modCtx_cx]
        exact ⟨⟨rfl, rfl, rfl⟩, rfl, rfl⟩
      | some b =>
        rw [writeRecord_posted hok hwin hb, postedRecord_cx]
        exact ⟨sameSetup_of_keeps (postedRecord_keeps ..), (postedRecord_still ..).clk, rfl⟩

end

/-- Settles O33: a record goes to its place in staging or in a window, or is dropped. -/
theorem completionRecordIsWritten : Obligations.CompletionRecordIsWritten := by
  rintro c s r l a hrecs hroom hfast hhalt hhard hwait hmem rfl
  have hcx := recordDue_cx c r l s
  have hrange : ∀ x, rangeOk (recordDue c r l s) c true x = rangeOk s c true x := recordDue_rangeOk c r l s true
  have hplace : recordRange ((recordDue c r l s).cx c) = ⟨(s.cx c).cqBase.1, (s.cx c).cqBase.2 + 32 * (s.cx c).cqWrite.toNat, 32⟩ := by
    rw [hcx]
    rfl
  have hbase : ((recordDue c r l s).cx c).cqBase.1 = (s.cx c).cqBase.1 := by rw [hcx]; rfl
  have hphase : ((recordDue c r l s).cx c).cqWPhase = (s.cx c).cqWPhase := by rw [hcx]
  have hkeeps := recordDue_keeps c r l s
  obtain ⟨hset, hclk, hat⟩ := writeRecord_common c r (recordDue c r l s)
  have htime := hclk.trans (recordDue_clk c r l s)
  refine ⟨_, exec_completionRecordWrite hrecs hroom hfast hhalt hhard hwait, SameSetup.trans (sameSetup_of_keeps hkeeps) hset, htime,
    ?_, fun hbad => ?_, fun hok hwin => ?_, fun b hok hwin hb => ?_⟩
  · rw [hat, hcx, htime]
  · rw [writeRecord_dropped (by rw [hplace, hrange, hbad])]
    obtain ⟨hnone, hirq, -, hmode⟩ := dropRecords_frame c r (recordDue c r l s)
    exact ⟨hnone, hirq, (dropRecords_keeps ..).staging.trans hkeeps.staging, fun h => hmode (by rw [hcx]; exact h)⟩
  · rw [writeRecord_staged (by rw [hplace, hrange, hok]) (hbase.trans hwin), stagedRecord_cx, stagedRecord_staging, hplace, hphase, hkeeps.staging,
      hcx]
    refine ⟨rfl, rfl, ?_, fun b hb => ?_⟩
    · rw [← Rec.bytes_length r (s.cx c).cqWPhase]
      exact readN_writeN hmem.1 _ _
    · exact Mem.read_writeN_ne _ _ hmem.1 _ (by rwa [Rec.bytes_length])
  · have hlow : (recordDue c r l s).lowBay = some b := by
      rw [← hb]
      exact lowBay_congr hkeeps.build fun b => (recordDue_by c r l s b).2
    have hasks := postedRecord_asks b c r (recordDue c r l s)
    rw [hplace, hphase, farOf_congr hkeeps.prot, (recordDue_by c r l s b).1, hwin] at hasks
    rw [writeRecord_posted (by rw [hplace, hrange, hok]) (hbase.trans hwin) hlow, postedRecord_cx, hcx]
    refine ⟨rfl, rfl, (postedRecord_keeps ..).staging.trans hkeeps.staging, hasks.trans ?_⟩
    rw [hcx]

end Sys2Proof.Claims
end

section
/-! Settles the statement about queue fetches and the dispatch watchdog. -/

namespace Sys2Proof.Machine

open Sys2Proof Sys2Proof.Claims

/-! ### What a fault at the checks leaves -/

theorem CtxEnded.fetched {x y : CtxState} (h : CtxEnded x y) (q : QSel) : (y.queue q).fetched = (x.queue q).fetched := by
  rw [h]
  cases q <;> rfl

section
variable (c : Ctx) (q : QSel) (w : Inst) (code aux : Nat) (s : State)

theorem ctxFault_fetched (p : QSel) (idx : Nat) : ((ctxFault c code p idx aux s).qu c q).fetched = (s.qu c q).fetched := by
  obtain ⟨f, hf⟩ := recordFault_ctx c code tenantFatal p idx aux s
  have hrec : ((recordFault c code tenantFatal p idx aux s).qu c q).fetched = (s.qu c q).fetched := by
    rw [State.qu, cx_of_ctx hf, modCtx_cx]
    cases q <;> rfl
  rw [← hrec, ctxFault, State.qu, modCtx_cx]
  split
  · cases p <;> cases q <;> rfl
  · rfl

theorem memberFault_fetched : ((memberFault c s).qu c q).fetched = (s.qu c q).fetched := by
  have hdrop : ((dropWindow c s).qu c q).fetched = (s.qu c q).fetched := by
    have h : (dropWindow c s).cx c = (s.modCtx c fun x => { x with lockWin := none }).cx c := rfl
    rw [State.qu, h, modCtx_cx]
    cases q <;> rfl
  unfold memberFault State.ifThen
  split
  exacts [hdrop, rfl]

theorem checkFailed_fetched : ((checkFailed c q code aux s).qu c q).fetched = (s.qu c q).fetched := by
  have hp : (checkFailed c q code aux s).ctx = (State.ifThen (inWindow s c q) (memberFault c) s).ctx :=
    ifThen_eq State.ctx (reportPoison_ctx c aux) _
  rw [State.qu, cx_of_ctx hp]
  unfold State.ifThen
  split
  exacts [memberFault_fetched c q s, rfl]

theorem faultAtCheck_fetched : ((faultAtCheck c q w code aux s).qu c q).fetched = (s.qu c q).fetched := by
  rw [faultAtCheck_eq, State.qu, (deliver_ends ..).own.fetched]
  exact (ctxFault_fetched ..).trans (checkFailed_fetched ..)

theorem checkFailed_still : Still s (checkFailed c q code aux s) :=
  (ifThen_still (memberFault_still c) s).trans (ifThen_still (reportPoison_still c aux) _)

theorem faultAtCheck_still : Still s (faultAtCheck c q w code aux s) := by
  rw [faultAtCheck_eq]
  exact (checkFailed_still ..).trans ((ctxFault_still ..).trans (deliver_still ..))

theorem faultAtCheck_port (b : Bay) : ((faultAtCheck c q w code aux s).by b).port = (s.by b).port := by
  have hfailed : BaysKept s (checkFailed c q code aux s) :=
    (ifThen_baysKept (memberFault_baysKept c) s).trans (ifThen_baysKept (f := reportPoison c aux) (fun _ => report_baysKept ..) _)
  rw [faultAtCheck_eq]
  exact ((hfailed.trans ((ctxFault_baysKept ..).trans (deliver_baysKept ..))).bays b).port

end

/-! ### The rest of a QUEUE_FETCH -/

/-- The row of no opcode dispatches nothing: an entry whose opcode is not assigned faults (R153). -/
theorem dispatch_illegal (f : Op → State → State) (c : Ctx) (q : QSel) (s : State) :
    dispatch 256 f c q s = s ∨ ∃ w, dispatch 256 f c q s = faultAtCheck c q w 0x01 0 s := by
  unfold dispatch
  cases hw : nextInst s c q with
  | none => exact .inl rfl
  | some w =>
    dsimp only
    split
    · exact .inl rfl
    · split
      · exact .inr ⟨w, rfl⟩
      · next hclass =>
        have hne : (iOpc w != 256) = true := by
          rw [bne_iff_ne]
          intro h
          rw [h] at hclass
          exact hclass rfl
        rw [if_pos (by rw [hne]; rfl)]
        exact .inl rfl

/-- After its read a QUEUE_FETCH does nothing more, or its queue faults at the head. -/
theorem queueFetch_cases {c : Ctx} {q : QSel} {s : State} (hruns : blockRuns s = true) (hmode : (s.cx c).mode = .active)
    (hrst : (s.cx c).rstBusy = false) : queueFetch c q s = fetchLine c q s ∨
      ∃ w code aux, queueFetch c q s = faultAtCheck c q w code aux (fetchLine c q s) := by
  unfold queueFetch
  rw [if_neg (by simp [hruns, hmode, hrst])]
  dsimp only
  cases badHead ((fetchLine c q s).qu c q) with
  | none =>
    rcases dispatch_illegal (fun _ s => s) c q (fetchLine c q s) with h | ⟨w, h⟩
    exacts [.inl h, .inr ⟨w, _, _, h⟩]
  | some b =>
    obtain ⟨j, code, aux⟩ := b
    dsimp only
    split
    exacts [.inl rfl, .inr ⟨_, code, aux, rfl⟩]

/-! ### The read of a QUEUE_FETCH -/

/-- The 64 bytes of an entry and its neighbours. -/
def entryRange (x : Queue) (i : Nat) : Range := ⟨x.base.1, x.base.2 + i / 4 * 64, 64⟩

/-- Entries that cannot be fetched. -/
def refuseEntries (c : Ctx) (q : QSel) (l : List Nat) (code aux : Nat) (s : State) : State :=
  s.modQueue c q fun x => { x with bad := x.bad ++ l.map fun j => (j, code, aux) }

/-- Entries that a read asks a port for. -/
def askEntries (c : Ctx) (q : QSel) (l : List Nat) (s : State) : State := s.modQueue c q fun x => { x with asked := x.asked ++ l }

/-- Entries from staging. -/
def takeEntries (c : Ctx) (q : QSel) (l : List Nat) (s : State) : State :=
  s.modQueue c q fun x => { x with fetched := x.fetched ++ l.map fun j => (j, wordOf (s.staging.readN (x.base.2 + 16 * j) 16)) }

/-- The read of some entries through the lowest bay's port (R203). -/
def fetchWindow (c : Ctx) (q : QSel) (l : List Nat) (r : Range) (s : State) : State :=
  match s.lowBay with
  | some b => issueRd b (r.lo / 64) (farOf s c false r) c (.fetch c q) (askEntries c q l s)
  | none => s

/-- The read of some entries from staging. -/
def fetchStaging (c : Ctx) (q : QSel) (l : List Nat) (r : Range) (s : State) : State :=
  if scrubHolds s [r] || commitHolds s c [r] then s
  else
    match poisonedIn s [r] with
    | some row => refuseEntries c q l 0x10 row s
    | none => takeEntries c q l s

/-- The entries that come with the first one to fetch. -/
def withFirst (i : Nat) (k : List Nat) : List Nat := (i :: k).filter fun j => j / 4 == i / 4

section
variable {c : Ctx} {q : QSel} {s : State} {i : Nat} {k : List Nat} (hf : toFetch (s.qu c q) = i :: k)
include hf

theorem fetchLine_eq : fetchLine c q s =
    if !rangeOk s c false (entryRange (s.qu c q) i) then refuseEntries c q (withFirst i k) 0x04 0 s
    else if (s.qu c q).base.1 then fetchWindow c q (withFirst i k) (entryRange (s.qu c q) i) s
    else fetchStaging c q (withFirst i k) (entryRange (s.qu c q) i) s := by
  simp only [fetchLine, hf]
  rfl

/-- A fetch changes what its queue has read ahead and a read port, and nothing else. -/
theorem fetchLine_frame : Calm c s (fetchLine c q s) ∧ Keeps s (fetchLine c q s) ∧ ((fetchLine c q s).cx c).mode = (s.cx c).mode ∧
    ((fetchLine c q s).qu c q).head = (s.qu c q).head := by
  have hq : ∀ f : Queue → Queue, (∀ y, (f y).head = y.head) → Calm c s (s.modQueue c q f) ∧ Keeps s (s.modQueue c q f) ∧
      ((s.modQueue c q f).cx c).mode = (s.cx c).mode ∧ ((s.modQueue c q f).qu c q).head = (s.qu c q).head := fun f h => by
    refine ⟨modQueue_calm s c q h, modQueue_keeps .., ?_, ?_⟩
    · rw [State.modQueue, modCtx_cx]
      cases q <;> rfl
    · rw [State.modQueue, State.qu, modCtx_cx, queue_modQueue, h]
      rfl
  have hs : Calm c s s ∧ Keeps s s ∧ (s.cx c).mode = (s.cx c).mode ∧ (s.qu c q).head = (s.qu c q).head := ⟨.of_eq rfl rfl, Keeps.refl s, rfl, rfl⟩
  rw [fetchLine_eq hf]
  split
  · exact hq _ fun _ => rfl
  · split
    · unfold fetchWindow
      cases s.lowBay with
      | none => exact hs
      | some b =>
        obtain ⟨hcalm, hkeeps, hmode, hhead⟩ := hq (fun x => { x with asked := x.asked ++ withFirst i k }) fun _ => rfl
        exact ⟨hcalm.trans (.of_eq (issueRd_ctx ..) (issueRd_ops ..)), hkeeps.trans (issueRd_keeps ..), hmode, hhead⟩
    · unfold fetchStaging
      split
      · exact hs
      · split
        · exact hq _ fun _ => rfl
        · exact hq _ fun _ => rfl

end

/-! ### What a fetch brings -/

theorem fetchedAt_none_of_toFetch {x : Queue} {j : Nat} (h : j ∈ toFetch x) : fetchedAt x j = none := by
  have hj := (List.mem_filter.1 h).2
  simp only [Bool.and_eq_true] at hj
  exact Option.isNone_iff_eq_none.1 hj.1.1

theorem fetchedAt_append {x y : Queue} {l : List Nat} {f : Nat → Inst} (h : y.fetched = x.fetched ++ l.map fun j => (j, f j)) {j : Nat}
    (hnone : fetchedAt x j = none) (hj : j ∈ l) : fetchedAt y j = some (f j) := by
  have hold : x.fetched.find? (·.1 == j) = none := by simpa [fetchedAt] using hnone
  have hfind : l.find? (fun k => k == j) = some j := by
    cases hk : l.find? (fun k => k == j) with
    | none => exact absurd (beq_self_eq_true j) (List.find?_eq_none.1 hk j hj)
    | some k => rw [beq_iff_eq.1 (by simpa using List.find?_some hk : (k == j) = true)]
  rw [fetchedAt, h, List.find?_append, hold, Option.none_or, List.find?_map]
  have hcomp : ((fun x : Nat × Inst => x.1 == j) ∘ fun j => (j, f j)) = fun k => k == j := rfl
  rw [hcomp, hfind]
  rfl

theorem mem_withFirst {i j : Nat} {k : List Nat} (hj : j ∈ i :: k) (hline : j / 4 = i / 4) : j ∈ withFirst i k :=
  List.mem_filter.2 ⟨hj, by simp [hline]⟩

theorem takeEntries_fetched (c : Ctx) (q : QSel) (l : List Nat) (s : State) : ((takeEntries c q l s).qu c q).fetched =
    (s.qu c q).fetched ++ l.map fun j => (j, wordOf (s.staging.readN ((s.qu c q).base.2 + 16 * j) 16)) := by
  rw [takeEntries, State.modQueue, State.qu, modCtx_cx, queue_modQueue]
  rfl

theorem fetchStaging_takes {c : Ctx} {q : QSel} {l : List Nat} {r : Range} {s : State} (hs : scrubHolds s [r] = false)
    (hc : commitHolds s c [r] = false) (hp : poisonedIn s [r] = none) : fetchStaging c q l r s = takeEntries c q l s := by
  rw [fetchStaging, hs, hc, hp]
  rfl

/-- A read port that may send sends at once. -/
theorem issueRd_sends {b : Bay} {s : State} (hwait : (s.by b).port.rdWait = []) (hfree : (s.by b).port.rdFree = true) (l : Nat) (far : Bool)
    (c : Ctx) (w : Owner) : ∃ r, ((issueRd b l far c w s).by b).port.rd = (s.by b).port.rd ++ [r] ∧ r.line = l ∧ r.owner = w := by
  rw [issueRd, modBay_by, Port.read, hwait, hfree]
  exact ⟨_, rfl, rfl, rfl⟩

end Sys2Proof.Machine

namespace Sys2Proof.Claims

open Sys2Proof Sys2Proof.Machine

/-- What a QUEUE_FETCH leaves of its queue: its head and what it has read ahead, and of its port. -/
theorem queueFetch_leaves {c : Ctx} {q : QSel} {s : State} (hruns : blockRuns s = true) (hmode : (s.cx c).mode = .active)
    (hrst : (s.cx c).rstBusy = false) (hact : ((fetchLine c q s).cx c).mode = .active) : Calm c (fetchLine c q s) (queueFetch c q s) ∧
      Keeps (fetchLine c q s) (queueFetch c q s) ∧ ((queueFetch c q s).qu c q).head = ((fetchLine c q s).qu c q).head ∧
      ((queueFetch c q s).qu c q).fetched = ((fetchLine c q s).qu c q).fetched ∧
      ∀ b, ((queueFetch c q s).by b).port = ((fetchLine c q s).by b).port := by
  rcases queueFetch_cases (q := q) hruns hmode hrst with h | ⟨w, code, aux, h⟩
  · rw [h]
    exact ⟨.of_eq rfl rfl, Keeps.refl _, rfl, rfl, fun _ => rfl⟩
  · rw [h]
    exact ⟨faultAtCheck_calm .., faultAtCheck_keeps .., faultAtCheck_head c q w code aux _ hact, faultAtCheck_fetched .., faultAtCheck_port c q w code aux _⟩

/-- The watchdog of a queue faults it. -/
theorem watchdog_faults {c : Ctx} {q : QSel} {s : State} (hruns : queueRuns s c q = true) (hwdog : (s.cx c).wdog ≠ 0) :
    ∃ t, exec (.watchdog c q) s = .next t ∧ t.clk = max s.clk ((s.qu c q).lastAt + (s.cx c).wdog.toNat * 20000) ∧
      (t.cx c).mode = .faulted ∧ (t.cx c).seq = (s.cx c).seq ∧ OnlyCtx c s t ∧ (∃ r ∈ (t.cx c).recs, r.status = 0x20) ∧
      FaultNoted s t c 0x20 2 q (s.qu c q).head.toNat (if (s.qu c q).loop.isSome = true then loopAux (s.qu c q) else 0) := by
  have hp := at'_passed ((s.qu c q).lastAt + (s.cx c).wdog.toNat * usLen) s
  have hk := at'_keeps ((s.qu c q).lastAt + (s.cx c).wdog.toNat * usLen) s
  have hcx := cx_of_ctx hp.ctx
  have hqu : (at' ((s.qu c q).lastAt + (s.cx c).wdog.toNat * usLen) s).qu c q = s.qu c q := congrArg (CtxState.queue · q) (hcx c)
  have hmode : (s.cx c).mode = .active := by
    simp only [queueRuns, Bool.and_eq_true, beq_iff_eq] at hruns
    exact hruns.1.1
  have hrun : exec (.watchdog c q) s = .next (fetchFault c q 0x20 0 (at' ((s.qu c q).lastAt + (s.cx c).wdog.toNat * usLen) s)) :=
    if_pos (by rw [hruns, Bool.true_and, bne_iff_ne]; exact hwdog)
  obtain ⟨w, hw⟩ : ∃ w, fetchFault c q 0x20 0 (at' ((s.qu c q).lastAt + (s.cx c).wdog.toNat * usLen) s) =
      faultAtCheck c q w 0x20 0 (at' ((s.qu c q).lastAt + (s.cx c).wdog.toNat * usLen) s) := ⟨_, rfl⟩
  rw [hw] at hrun
  have hcalm := faultAtCheck_calm c q w 0x20 0 (at' ((s.qu c q).lastAt + (s.cx c).wdog.toNat * usLen) s)
  have hnoted := faultAtCheck_noted c q w 0x20 0 (at' ((s.qu c q).lastAt + (s.cx c).wdog.toNat * usLen) s)
  obtain ⟨u, hrec⟩ := faultAtCheck_record c q w 0x20 0 (at' ((s.qu c q).lastAt + (s.cx c).wdog.toNat * usLen) s)
  obtain ⟨honly, -⟩ := hcalm.frame (faultAtCheck_keeps ..)
  rw [hqu] at hnoted
  refine ⟨_, hrun, (faultAtCheck_still ..).clk.trans (at'_clk ..), faultAtCheck_mode _ _ _ _ _ _ (by rw [hcx]; exact hmode),
    hcalm.seq.trans (congrArg CtxState.seq (hcx c)), OnlyCtx.trans ⟨fun d _ => hcx d, hk.staging, hk.banks, hk.prot⟩ honly, ⟨_, hrec, rfl⟩,
    faultNoted_of_eq hnoted (by rw [hcx]) rfl rfl⟩

/-- Settles O36. -/
theorem queueFetchAndWatchdog : Obligations.QueueFetchAndWatchdog := by
  refine ⟨?_, fun c q s => watchdog_faults⟩
  rintro c q s i k a hruns hmode hrst hf rfl hok
  obtain ⟨hcalm, hkeeps, hmode', hhead⟩ := fetchLine_frame hf
  obtain ⟨hcalm', hkeeps', hhead', hfetched, hports⟩ := queueFetch_leaves (q := q) hruns hmode hrst (hmode'.trans hmode)
  obtain ⟨honly, -⟩ := (hcalm.trans hcalm').frame (hkeeps.trans hkeeps')
  have hread := fetchLine_eq hf
  have hok' : rangeOk s c false (entryRange (s.qu c q) i) = true := hok
  rw [hok'] at hread
  refine ⟨_, rfl, hhead'.trans hhead, (hcalm.trans hcalm').seq, honly, fun hloc hscrub hcommit hpoison j hj hline => ?_, fun b hwin hb hwait hfree => ?_⟩
  · have hrange : entryRange (s.qu c q) i = ⟨false, (s.qu c q).base.2 + i / 4 * 64, 64⟩ := by rw [entryRange, hloc]
    rw [hloc, hrange, fetchStaging_takes hscrub hcommit hpoison] at hread
    refine fetchedAt_append (f := fun j => wordOf (s.staging.readN ((s.qu c q).base.2 + 16 * j) 16)) (l := withFirst i k) ?_
      (fetchedAt_none_of_toFetch hj) (mem_withFirst (hf ▸ hj) hline)
    rw [hfetched, hread]
    exact takeEntries_fetched ..
  · rw [hwin, fetchWindow, hb] at hread
    obtain ⟨r, hr, hline, howner⟩ := issueRd_sends (s := askEntries c q (withFirst i k) s) hwait hfree
      ((entryRange (s.qu c q) i).lo / 64) (farOf s c false (entryRange (s.qu c q) i)) c (.fetch c q)
    exact ⟨r, (congrArg Port.rd ((hports b).trans (by rw [hread]; rfl))).trans hr, hline, howner⟩

end Sys2Proof.Claims
end

section
/-! SUPPORT. Writes of registers: what the port makes of a write that is refused, native, or of a domain that is awake or asleep. -/

namespace Sys2Proof.Machine

open Sys2Proof Sys2Proof.Claims

/-! ### The bc of an access -/

theorem atBc_rests (s : State) : Rests s (atBc s) := advanceTo_rests ..

theorem answer_rests (x : Answer) (s : State) : Rests s (answer x s) := ⟨rfl, rfl, Keeps.of_eq rfl rfl rfl rfl rfl⟩

theorem refused_atBc (s : State) : Refused s (err (atBc s)) := by
  have h : err (atBc s) = answer .err (atBc s) := rfl
  rw [h, (atBc_passed s).rest]
  exact ⟨rfl, rfl, rfl, rfl, rfl, rfl, rfl, rfl⟩

theorem tagWrites_congr {s t : State} (hp : t.prot = s.prot) (hb : t.build = s.build) (hc : t.ctx = s.ctx) (tag n : Nat) :
    tagWrites t tag n = tagWrites s tag n := by
  have hset : t.curSet = s.curSet := funext fun c => by rw [State.curSet, State.curSet, hp, cx_of_ctx hc]
  unfold tagWrites tagReads
  rw [hp, hset, blockBay_of_build hb]

theorem underReset_congr {s t : State} (hc : t.ctx = s.ctx) (hr : t.regs = s.regs) (n : Nat) : underReset t n = underReset s n := by
  have hcx : t.cx = s.cx := funext fun c => cx_of_ctx hc c
  unfold underReset postedAt
  rw [hcx, hr]

/-- Nothing that decides who may write what changes while the port waits for its bc. -/
theorem mayWrite_atBc (s : State) (a : Access) (n : Nat) : mayWrite (atBc s) a n = mayWrite s a n := by
  have hctx := (atBc_rests s).ctx
  have hprot : (atBc s).prot = s.prot := by rw [(atBc_passed s).rest]
  have hbuild : (atBc s).build = s.build := by rw [(atBc_passed s).rest]
  have hregs : (atBc s).regs = s.regs := by rw [(atBc_passed s).rest]
  have hdbg : (atBc s).dbg = s.dbg := by rw [(atBc_passed s).rest]
  rw [mayWrite, mayWrite, regKind_of_build hbuild, tagWrites_congr hprot hbuild hctx, underReset_congr hctx hregs, hdbg]

/-! ### The outcomes of a write -/

section
variable {s t : State} {a : Access} {n : Nat} {v : Word} {f : State → Option State}

theorem regWrite_refused (h : mayWrite s a n = false) : regWrite a n v f s = err s := by
  rw [regWrite, h]
  rfl

theorem regWrite_err (h : f s = none) : regWrite a n v f s = err s := by
  rw [regWrite, h]
  exact ite_self _

theorem regWrite_native (hm : mayWrite s a n = true) (hf : f s = some t) (hk : regKind s n = some .native) :
    regWrite a n v f s = answer .ack (nativeShadows n t) := by
  rw [regWrite, hm, hf]
  simp only [Bool.not_true, Bool.false_eq_true, if_false, hk]

theorem regWrite_awake {d : Domain} {wake : Bool} (hm : mayWrite s a n = true) (hf : f s = some t)
    (hk : regKind s n = some (.shadow d wake)) (ha : awake s d = true) : regWrite a n v f s = answer .ack (refresh n t) := by
  rw [regWrite, hm, hf]
  simp only [Bool.not_true, Bool.false_eq_true, if_false, hk, ha, if_true]

/-- A write of a wake source in a sleeping domain is kept, and asks for the wake. -/
theorem regWrite_asleep {d : Domain} (hm : mayWrite s a n = true) (hf : f s = some t) (hk : regKind s n = some (.shadow d true))
    (ha : awake s d = false) (hw : isW1c n = false) :
    regWrite a n v f s = answer .ack (askFast (setShadow n (shadowValue t n) (post n v s))) := by
  rw [regWrite, hm, hf]
  simp only [Bool.not_true, Bool.false_eq_true, if_false, hk, ha, hw, if_true]

end

theorem post_rests (n : Nat) (v : Word) (s : State) : Rests s (post n v s) := ⟨rfl, rfl, Keeps.of_eq rfl rfl rfl rfl rfl⟩

theorem setShadow_rests (n : Nat) (v : Word) (s : State) : Rests s (setShadow n v s) := ⟨rfl, rfl, Keeps.of_eq rfl rfl rfl rfl rfl⟩

theorem post_fastOn (n : Nat) (v : Word) (s : State) : (post n v s).fastOn = s.fastOn := rfl

theorem setShadow_fastOn (n : Nat) (v : Word) (s : State) : (setShadow n v s).fastOn = s.fastOn := rfl

theorem setShadow_posted (n : Nat) (v : Word) (s : State) : (setShadow n v s).regs.posted = s.regs.posted := rfl

theorem mem_post (n : Nat) (v : Word) (s : State) : (BitVec.ofNat 16 n, v) ∈ (post n v s).regs.posted := by simp [post]

theorem askFast_asks {s : State} (h : s.fastOn = false) : (askFast s).fastReq = true := by
  unfold askFast
  split
  · next e => simpa [h] using e
  · rfl

theorem askFast_posted (s : State) : (askFast s).regs.posted = s.regs.posted := by unfold askFast; split <;> rfl

theorem answer_fastReq (x : Answer) (s : State) : (answer x s).fastReq = s.fastReq := rfl

theorem answer_posted (x : Answer) (s : State) : (answer x s).regs.posted = s.regs.posted := rfl

theorem CommonReg.regKind_eq {n off : Nat} {c : Ctx} (h : CommonReg n c off) (s : State) : regKind s n = ctxKind off := by
  have := h.high
  unfold regKind
  rw [if_neg (by simp [h.aligned]), if_neg (by omega), if_neg (by omega), h.addr]

end Sys2Proof.Machine
end

section
/-! Settles the statement about doorbells and feature acknowledgements. -/

namespace Sys2Proof.Machine

open Sys2Proof Sys2Proof.Claims

theorem exec_doorbell {s : State} (h : s.boot.running = true) (a : Access) (c : Ctx) (q : QSel) (v : Word) :
    exec (.doorbell a c q v) s = .next (regWrite a (tailAddr c q) v (setTail c q v.toNat) (atBc s)) :=
  congrArg _ (if_pos h)

theorem exec_featAck {s : State} (h : s.boot.running = true) (a : Access) (c : Ctx) (v : Word) :
    exec (.featAck a c v) s = .next (regWrite a (ctxBase c) v (ackFeatures c v.toNat) (atBc s)) :=
  congrArg _ (if_pos h)

theorem tailAddr_kind (c : Ctx) (q : QSel) (s : State) : regKind s (tailAddr c q) = some (.shadow .common true) := by
  rw [(tailAddr_reg c q).regKind_eq]
  cases q <;> rfl

theorem tailAddr_not_w1c (c : Ctx) (q : QSel) : isW1c (tailAddr c q) = false := by cases q <;> revert c <;> decide

/-- FEAT_ACK is the first register of a context, and native. -/
theorem ctxBase_kind (c : Ctx) (s : State) : regKind s (ctxBase c) = some .native := by
  have h : ∀ c : Ctx, ctxAddr (ctxBase c) = some (c, 0) ∧ ctxBase c % 4 = 0 ∧ 0x1800 ≤ ctxBase c := by decide
  obtain ⟨haddr, halign, hhigh⟩ := h c
  unfold regKind
  rw [if_neg (by simp [halign]), if_neg (by omega), if_neg (by omega), haddr]
  rfl

/-! ### Doorbells -/

section
variable {a : Access} {c : Ctx} {q : QSel} {v : Word} {s : State}

/-- A write of a tail that its queue does not have. -/
theorem setTail_refused {v : Nat} (h : (s.qu c q).entries ≤ v % 65536) : setTail c q v s = none := if_pos h

theorem setTail_moves {v : Nat} (h : v % 65536 < (s.qu c q).entries) :
    ∃ idle t, setTail c q v s = some (s.modQueue c q (Queue.rung v idle t)) := by
  rw [setTail, if_neg (by omega)]
  exact ⟨_, _, rfl⟩

theorem qu_atBc (s : State) (c : Ctx) (q : QSel) : (atBc s).qu c q = s.qu c q :=
  congrArg (fun x => CtxState.queue x q) (cx_of_ctx (atBc_rests s).ctx c)

/-- The state after a doorbell of the awake domain. -/
def rungNow (c : Ctx) (q : QSel) (v : Nat) (idle : Bool) (time : Nat) (s : State) : State :=
  answer .ack (refresh (tailAddr c q) ((atBc s).modQueue c q (Queue.rung v idle time)))

theorem rungNow_rests (v : Nat) (idle : Bool) (time : Nat) :
    Rests ((atBc s).modQueue c q (Queue.rung v idle time)) (rungNow c q v idle time s) :=
  (refresh_shadowed ..).rests.trans (answer_rests ..)

theorem rungNow_qu (v : Nat) (idle : Bool) (time : Nat) : (rungNow c q v idle time s).qu c q = Queue.rung v idle time (s.qu c q) := by
  rw [State.qu, cx_of_ctx (rungNow_rests v idle time).ctx, State.modQueue, modCtx_cx, queue_modQueue, ← qu_atBc s c q]
  rfl

theorem rungNow_frame (v : Nat) (idle : Bool) (time : Nat) :
    SameSetup s (rungNow c q v idle time s) ∧ (rungNow c q v idle time s).staging = s.staging ∧
      (rungNow c q v idle time s).ops = s.ops ∧ ∀ d, d ≠ c → (rungNow c q v idle time s).cx d = s.cx d := by
  obtain ⟨-, hops, hcx, hmem, hset⟩ := (atBc_rests s).modCtx c fun x => x.modQueue q (Queue.rung v idle time)
  have hr : Rests _ (rungNow c q v idle time s) := rungNow_rests v idle time
  exact ⟨SameSetup.trans hset (sameSetup_of_keeps hr.keeps), hr.keeps.staging.trans hmem.1, hr.ops.trans hops,
    fun d hd => (cx_of_ctx hr.ctx d).trans (hcx d hd)⟩

/-- The state after a doorbell that waits for the wake of the common domain. -/
def rungLater (c : Ctx) (q : QSel) (v shadow : Word) (s : State) : State :=
  answer .ack (askFast (setShadow (tailAddr c q) shadow (post (tailAddr c q) v (atBc s))))

theorem rungLater_rests (v shadow : Word) : Rests s (rungLater c q v shadow s) := by
  have hkept := (atBc_rests s).trans ((post_rests (tailAddr c q) v _).trans (setShadow_rests (tailAddr c q) shadow _))
  exact (hkept.trans (askFast_rests _)).trans (answer_rests ..)

theorem rungLater_waits (hf : s.fastOn = false) (v shadow : Word) :
    (rungLater c q v shadow s).fastReq = true ∧ (BitVec.ofNat 16 (tailAddr c q), v) ∈ (rungLater c q v shadow s).regs.posted := by
  have hfast : (atBc s).fastOn = s.fastOn := by rw [(atBc_passed s).rest]
  constructor
  · rw [rungLater, answer_fastReq]
    exact askFast_asks (by rw [setShadow_fastOn, post_fastOn, hfast, hf])
  · rw [rungLater, answer_posted, askFast_posted, setShadow_posted]
    exact mem_post ..

/-- A doorbell that may be written: refused, rung, or kept until the common domain wakes. -/
theorem doorbell_outcome (h : s.boot.running = true) (hm : mayWrite s a (tailAddr c q) = true) :
    ((s.qu c q).entries ≤ v.toNat % 65536 → exec (.doorbell a c q v) s = .next (err (atBc s))) ∧
    (v.toNat % 65536 < (s.qu c q).entries → s.fastOn = true →
      ∃ idle time, exec (.doorbell a c q v) s = .next (rungNow c q v.toNat idle time s)) ∧
    (v.toNat % 65536 < (s.qu c q).entries → s.fastOn = false → ∃ x, exec (.doorbell a c q v) s = .next (rungLater c q v x s)) := by
  have hfast : awake (atBc s) .common = s.fastOn := by rw [(atBc_passed s).rest]; rfl
  have hmay : mayWrite (atBc s) a (tailAddr c q) = true := (mayWrite_atBc ..).trans hm
  have hkind := tailAddr_kind c q (atBc s)
  rw [exec_doorbell h, ← qu_atBc s c q]
  refine ⟨fun hv => ?_, fun hv hf => ?_, fun hv hf => ?_⟩
  · rw [regWrite_err (setTail_refused hv)]
  · obtain ⟨idle, time, he⟩ := setTail_moves hv
    exact ⟨idle, time, congrArg _ (regWrite_awake hmay he hkind (hfast.trans hf))⟩
  · obtain ⟨idle, time, he⟩ := setTail_moves hv
    exact ⟨_, congrArg _ (regWrite_asleep hmay he hkind (hfast.trans hf) (tailAddr_not_w1c c q))⟩

end

/-! ### Feature acknowledgement -/

/-- A context whose queues a FEAT_ACK at time `t` has started with these features. -/
def CtxState.acknowledged (feat : BitVec 16) (t : Nat) (x : CtxState) : CtxState :=
  { x with feat := feat, acked := true, mode := .active, qm := { x.qm with lastAt := t }, qp := { x.qp with lastAt := t } }

/-- The block after a FEAT_ACK that starts the queues. -/
def started (c : Ctx) (v : Word) (s : State) : State :=
  s.modCtx c (CtxState.acknowledged (BitVec.ofNat 16 v.toNat &&& Config.featCap s.build) s.clk)

theorem ackFeatures_refused {c : Ctx} {v : Nat} {s : State} (h : ¬(s.prot.lock = true ∧ s.boot.ready = true ∧ (s.cx c).acked = false)) :
    ackFeatures c v s = none := by
  rw [ackFeatures, if_pos]
  simpa [imp_iff_not_or, or_assoc] using h

theorem ackFeatures_starts {c : Ctx} {v : Word} {s : State} (h : s.prot.lock = true ∧ s.boot.ready = true ∧ (s.cx c).acked = false) :
    ackFeatures c v.toNat s = some (started c v s) := by
  obtain ⟨hlock, hready, hacked⟩ := h
  rw [ackFeatures, if_neg (by simp [hlock, hready, hacked])]
  rfl

end Sys2Proof.Machine

namespace Sys2Proof.Claims

open Sys2Proof Sys2Proof.Machine

variable {a : Access} {c : Ctx} {v : Word} {s : State}

theorem doorbell_settled (h : s.boot.running = true) (q : QSel) (hm : mayWrite s a (tailAddr c q) = true) :
    ∃ t, exec (.doorbell a c q v) s = .next t ∧ SameSetup s t ∧ t.staging = s.staging ∧ t.ops = s.ops ∧ (∀ d, d ≠ c → t.cx d = s.cx d) ∧
      if (s.qu c q).entries ≤ v.toNat % 65536 then t.regs.answer = .err ∧ t.ctx = s.ctx
      else Acked t ∧ if s.fastOn then (t.qu c q).tail = BitVec.ofNat 16 v.toNat ∧ (t.qu c q).head = (s.qu c q).head
        else t.ctx = s.ctx ∧ t.fastReq = true ∧ (BitVec.ofNat 16 (tailAddr c q), v) ∈ t.regs.posted := by
  obtain ⟨hrefused, hnow, hlater⟩ := doorbell_outcome (v := v) h hm
  by_cases hv : (s.qu c q).entries ≤ v.toNat % 65536
  · have hr := (atBc_rests s).trans (answer_rests .err _)
    refine ⟨_, hrefused hv, sameSetup_of_keeps hr.keeps, hr.keeps.staging, hr.ops, fun d _ => cx_of_ctx hr.ctx d, ?_⟩
    rw [if_pos hv]
    exact ⟨rfl, hr.ctx⟩
  · simp only [if_neg hv]
    cases hf : s.fastOn with
    | true =>
      obtain ⟨idle, time, hrun⟩ := hnow (by omega) hf
      obtain ⟨hset, hstaging, hops, hcx⟩ := rungNow_frame (s := s) (c := c) (q := q) v.toNat idle time
      refine ⟨_, hrun, hset, hstaging, hops, hcx, rfl, ?_⟩
      rw [if_pos rfl, rungNow_qu]
      exact ⟨rfl, rfl⟩
    | false =>
      obtain ⟨x, hrun⟩ := hlater (by omega) hf
      have hr : Rests s (rungLater c q v x s) := rungLater_rests v x
      refine ⟨_, hrun, sameSetup_of_keeps hr.keeps, hr.keeps.staging, hr.ops, fun d _ => cx_of_ctx hr.ctx d, rfl, ?_⟩
      rw [if_neg Bool.false_ne_true]
      exact ⟨hr.ctx, rungLater_waits hf v x⟩

theorem featAck_settled (h : s.boot.running = true) (hm : mayWrite s a (ctxBase c) = true) :
    ∃ t, exec (.featAck a c v) s = .next t ∧ SameSetup s t ∧ t.staging = s.staging ∧ t.ops = s.ops ∧ (∀ d, d ≠ c → t.cx d = s.cx d) ∧
      if s.prot.lock = true ∧ s.boot.ready = true ∧ (s.cx c).acked = false then
        Acked t ∧ (t.cx c).mode = .active ∧ (t.cx c).acked = true ∧ (t.cx c).feat = BitVec.ofNat 16 v.toNat &&& Config.featCap s.build
      else t.regs.answer = .err ∧ t.ctx = s.ctx := by
  have hmay : mayWrite (atBc s) a (ctxBase c) = true := (mayWrite_atBc ..).trans hm
  have hprot : (atBc s).prot = s.prot := by rw [(atBc_passed s).rest]
  have hboot : (atBc s).boot = s.boot := by rw [(atBc_passed s).rest]
  have hbuild : (atBc s).build = s.build := by rw [(atBc_passed s).rest]
  have hcond : ((atBc s).prot.lock = true ∧ (atBc s).boot.ready = true ∧ ((atBc s).cx c).acked = false) ↔
      (s.prot.lock = true ∧ s.boot.ready = true ∧ (s.cx c).acked = false) := by
    rw [hprot, hboot, cx_of_ctx (atBc_rests s).ctx]
  rw [exec_featAck h]
  by_cases hack : s.prot.lock = true ∧ s.boot.ready = true ∧ (s.cx c).acked = false
  · rw [regWrite_native hmay (ackFeatures_starts (hcond.mpr hack)) (ctxBase_kind ..)]
    obtain ⟨hc, hops, hcx, hmem, hset⟩ :
        (started c v (atBc s)).cx c = _ ∧ (started c v (atBc s)).ops = s.ops ∧
          (∀ d, d ≠ c → (started c v (atBc s)).cx d = s.cx d) ∧ SameMemories s (started c v (atBc s)) ∧
          SameSetup s (started c v (atBc s)) := (atBc_rests s).modCtx c _
    have hr := (nativeShadows_shadowed (ctxBase c) (started c v (atBc s))).rests.trans (answer_rests .ack _)
    refine ⟨_, rfl, SameSetup.trans hset (sameSetup_of_keeps hr.keeps), hr.keeps.staging.trans hmem.1, hr.ops.trans hops,
      fun d hd => (cx_of_ctx hr.ctx d).trans (hcx d hd), ?_⟩
    rw [if_pos hack, cx_of_ctx hr.ctx, hc, hbuild]
    exact ⟨rfl, rfl, rfl, rfl⟩
  · have hr := (atBc_rests s).trans (answer_rests .err _)
    rw [regWrite_err (ackFeatures_refused (mt hcond.mp hack))]
    refine ⟨_, rfl, sameSetup_of_keeps hr.keeps, hr.keeps.staging, hr.ops, fun d _ => cx_of_ctx hr.ctx d, ?_⟩
    rw [if_neg hack]
    exact ⟨rfl, hr.ctx⟩

end Sys2Proof.Claims

namespace Sys2Proof.Claims

open Sys2Proof Sys2Proof.Machine

/-- Settles O40, from the outcomes of a register write: refused, taken at once, or kept for a sleeping domain. -/
theorem doorbellAndFeatAck : Obligations.DoorbellAndFeatAck := by
  intro a c v s h
  exact ⟨fun q hm => doorbell_settled h q hm, featAck_settled h⟩

end Sys2Proof.Claims
end

section
/-! SUPPORT. Who may write which register, and what REGISTER_WRITE makes of a write. -/

namespace Sys2Proof.Machine

open Sys2Proof Sys2Proof.Claims

/-! ### Addresses and tags that no write has -/

section
variable {s : State} {a : Access} {n : Nat}

theorem mayWrite_no_register (h : regKind s n = none) : mayWrite s a n = false := by simp [mayWrite, h]

theorem mayWrite_no_tag (h : tagWrites s a.tag.toNat n = false) : mayWrite s a n = false := by simp [mayWrite, h]

theorem regKind_unaligned (h : n % 4 ≠ 0) : regKind s n = none := by
  unfold regKind
  rw [if_pos (by simpa using h)]

theorem ctxAddr_above (h : 0x4000 ≤ n) : ctxAddr n = none := by
  unfold ctxAddr
  rw [if_neg (by simp; omega), dif_neg (by omega)]

/-- The map ends at 0x8000 (R304). -/
theorem regKind_above (h : 0x8000 ≤ n) : regKind s n = none := by
  have hlow : ∀ k ≤ 0x8000, ¬n < k := fun k hk => by omega
  have hne : ∀ k < 0x8000, ¬(n == k) = true := fun k hk => by rw [beq_iff_eq]; omega
  have hctx : ctxAddr n = none := ctxAddr_above (by omega)
  by_cases ha : n % 4 = 0
  · unfold regKind
    rw [if_neg (by simpa using ha), if_neg (hlow _ (by decide)), if_neg (hlow _ (by decide))]
    split
    · next e => exact absurd (hctx.symm.trans e) (Option.some_ne_none _).symm
    · rw [if_neg (hlow _ (by decide)), if_neg (hlow _ (by decide)), if_neg (hlow _ (by decide)), if_neg (hlow _ (by decide)),
        if_neg (hlow _ (by decide)), if_neg (hlow _ (by decide)), if_neg (hlow _ (by decide)), if_neg (hne _ (by decide)), if_neg]
      · rw [decide_eq_false (hlow 0x713C (by decide)), decide_eq_false (hlow 0x7188 (by decide)), Bool.and_false, Bool.and_false]
        exact if_neg Bool.false_ne_true
      · simp only [Bool.or_eq_true, not_or]
        exact ⟨⟨hne _ (by decide), hne _ (by decide)⟩, hne _ (by decide)⟩
  · exact regKind_unaligned ha

/-- Only the boot code writes the protection range, and only before LOCK (R220). -/
theorem tagWrites_protection (hn : 0x1000 ≤ n ∧ n < 0x1800) (tag : Nat) : tagWrites s tag n = (tag == 9 && !s.prot.lock) := by
  unfold tagWrites
  rw [if_pos (by simp [hn.1, hn.2])]

/-- A tenant writes only its own context and its own trace ring (R216, R306). -/
theorem tagWrites_tenant {tag : Nat} (ht : tag < 8) (hc : ¬(0x2000 + 0x400 * tag ≤ n ∧ n < 0x2400 + 0x400 * tag))
    (hr : ¬(0x6000 + 0x40 * tag ≤ n ∧ n < 0x6040 + 0x40 * tag)) : tagWrites s tag n = false := by
  by_cases hp : 0x1000 ≤ n ∧ n < 0x1800
  · rw [tagWrites_protection hp]
    simp; omega
  · have h8 : (tag == 8) = false := by simp; omega
    have h9 : (tag == 9) = false := by simp; omega
    have h10 : ¬tag > 9 := by omega
    have hown : ((decide (0x2000 ≤ n) && decide (n < 0x4000)) || decide (0x6000 ≤ n)) = true → tagReads s tag n = false := by
      intro hrange
      rw [Bool.or_eq_true, Bool.and_eq_true, decide_eq_true_eq, decide_eq_true_eq, decide_eq_true_eq] at hrange
      unfold tagReads
      rw [if_neg (by simp [h8, h9]), if_neg h10, if_neg (by omega)]
      split_ifs with hctx hcount
      · simp; omega
      · simp at hcount; omega
      · simp; omega
    unfold tagWrites
    rw [if_neg (by simp; omega), if_neg (by simp [h8, h9]), Bool.and_assoc]
    simpa [ht] using hown

theorem tagWrites_unknown {tag : Nat} (ht : 9 < tag) : tagWrites s tag n = false := by
  have h8 : (tag == 8) = false := by simp; omega
  have h9 : (tag == 9) = false := by simp; omega
  simp [tagWrites, h8, h9]; omega

/-- A write that no tag, or no tag of this access, may make (R216, R220, R304, R306). -/
theorem mayWrite_excluded
    (h : (0x1000 ≤ n ∧ n < 0x1800 ∧ (a.tag ≠ 9 ∨ s.prot.lock = true)) ∨ 9 < a.tag.toNat ∨ 0x8000 ≤ n ∨ n % 4 ≠ 0 ∨
      (a.tag.toNat < 8 ∧ ¬(0x2000 + 0x400 * a.tag.toNat ≤ n ∧ n < 0x2400 + 0x400 * a.tag.toNat) ∧
        ¬(0x6000 + 0x40 * a.tag.toNat ≤ n ∧ n < 0x6040 + 0x40 * a.tag.toNat))) : mayWrite s a n = false := by
  obtain ⟨hlo, hhi, htag⟩ | htag | hn | hn | ⟨ht, hc, hr⟩ := h
  · refine mayWrite_no_tag ((tagWrites_protection ⟨hlo, hhi⟩ _).trans ?_)
    obtain htag | hlock := htag
    · have hne : a.tag.toNat ≠ 9 := fun e => htag (BitVec.eq_of_toNat_eq e)
      rw [beq_eq_false_iff_ne.mpr hne, Bool.false_and]
    · rw [hlock, Bool.not_true, Bool.and_false]
  · exact mayWrite_no_tag (tagWrites_unknown htag)
  · exact mayWrite_no_register (regKind_above hn)
  · exact mayWrite_no_register (regKind_unaligned hn)
  · exact mayWrite_no_tag (tagWrites_tenant ht hc hr)

end

/-! ### REGISTER_WRITE and BOOTLOCK -/

/-- The effect that REGISTER_WRITE has on a register, a tenant's bounds on its trace ring included. -/
def registerEffect (a : Access) (n v : Nat) : State → Option State := tenantRing a n v (anyEffect n v)

section
variable {s : State} {a : Access} {n : BitVec 16} {v : Word}

theorem exec_registerWrite (h : s.boot.running = true) (hr : readOnly n.toNat = false) :
    exec (.registerWrite a n v) s = .next (regWrite a n.toNat v (registerEffect a n.toNat v.toNat) (atBc s)) := by
  show execRegisterWrite a n v s = _
  rw [execRegisterWrite, access, if_pos h, hr, if_neg Bool.false_ne_true]
  rfl

/-- A write that its tag may not make, to a register that software writes or to one that it only reads. -/
theorem exec_registerWrite_refused (h : s.boot.running = true) (hm : mayWrite s a n.toNat = false) :
    exec (.registerWrite a n v) s = .next (err (atBc s)) := by
  have hmay : mayWrite (atBc s) a n.toNat = false := (mayWrite_atBc ..).trans hm
  show execRegisterWrite a n v s = _
  rw [execRegisterWrite, access, if_pos h, hmay, regWrite_refused hmay, if_neg Bool.false_ne_true, ite_self]

theorem exec_bootlock (h : s.boot.running = true) :
    exec (.bootlock a v) s = .next (regWrite a 0x1000 v (lockWrite v.toNat) (atBc s)) :=
  congrArg _ (if_pos h)

/-- Outside the trace rings a tenant's write has the effect that any other has. -/
theorem registerEffect_below {n v : Nat} (h : n < 0x6000) : registerEffect a n v s = anyEffect n v s := by
  rw [registerEffect, tenantRing, if_neg]
  simp; omega

end

/-! ### PORT_TMO -/

/-- PORT_TMO stands in the global registers, which firmware and boot code always write. -/
theorem mayWrite_portTmo {s : State} {a : Access} (ht : a.tag = 8 ∨ a.tag = 9) (hd : a.dbg = false) : mayWrite s a 0x0010 = true := by
  have hk : (regKind s 0x0010).isSome = true := rfl
  have hu : underReset s 0x0010 = false := rfl
  have hw : tagWrites s a.tag.toNat 0x0010 = true := by rcases ht with e | e <;> rw [e] <;> rfl
  simp [mayWrite, hk, hu, hw, hd]

/-- The block with a new time-out of its ports. -/
def withPortTmo (v : Nat) (s : State) : State := { s with g := { s.g with portTmo := BitVec.ofNat 24 v } }

theorem registerEffect_portTmo (a : Access) (v : Nat) (s : State) :
    registerEffect a 0x0010 v s = if v % 2 ^ 24 == 0 then none else some (withPortTmo v s) :=
  registerEffect_below (by decide)

theorem withPortTmo_rests (v : Nat) (s : State) : Rests s (withPortTmo v s) := ⟨rfl, rfl, Keeps.of_eq rfl rfl rfl rfl rfl⟩

/-! ### Semaphores -/

/-- The address of a semaphore (R311). -/
def semAddr (c : Ctx) (i : Fin 16) : Nat := ctxBase c + 0x080 + 4 * i.val

theorem semAddr_reg (c : Ctx) (i : Fin 16) : CommonReg (semAddr c i) c (0x080 + 4 * i.val) := by
  refine ⟨?_, ?_, ?_, ?_, ⟨false, ?_⟩, ?_, ?_, ?_⟩
  case refine_5 => revert i; decide
  all_goals revert c i; decide

theorem semAddr_kind (c : Ctx) (i : Fin 16) (s : State) : regKind s (semAddr c i) = some (.shadow .common false) := by
  rw [(semAddr_reg c i).regKind_eq]
  revert i
  decide

theorem semAddr_written (c : Ctx) (i : Fin 16) : readOnly (semAddr c i) = false := by revert c i; decide

theorem CommonReg.below {n off : Nat} {c : Ctx} (h : CommonReg n c off) : n < 0x4000 := by
  by_contra hn
  exact Option.some_ne_none _ (h.addr.symm.trans (ctxAddr_above (by omega)))

/-- The command writes of REGISTER_WRITE have their own addresses, and no register of a context is among them. -/
theorem CommonReg.anyEffect_eq {n off : Nat} {c : Ctx} (h : CommonReg n c off) (v : Nat) (s : State) :
    anyEffect n v s = ctxWrite c off v s := by
  obtain ⟨hmask, hdbg, hreset⟩ := h.plain
  have hhigh := h.high
  have hlow := h.below
  have hplain : plainEffect n v s = ctxWrite c off v s := by
    unfold plainEffect
    rw [if_neg (by omega), if_neg (by omega), h.addr]
  unfold anyEffect
  split
  · omega
  · omega
  · exact absurd h.addr (by simp [ctxAddr])
  · exact absurd h.addr (by simp [ctxAddr])
  · omega
  · omega
  · rw [if_neg (by simp [hmask]), if_neg (by simp; omega), anyEffect.effect', if_neg (by simpa using hdbg), h.addr]
    split
    · next e => cases e; exact absurd rfl hreset
    · exact hplain

/-- A context whose semaphore has taken a value. -/
def CtxState.withSem (i : Fin 16) (v : Word) (x : CtxState) : CtxState := { x with sem := x.sem.set i.1 v i.2 }

theorem ctxWrite_sem (c : Ctx) (i : Fin 16) (v : Word) (s : State) :
    ctxWrite c (0x080 + 4 * i.val) v.toNat s = some (s.modCtx c (CtxState.withSem i v)) := by
  have hi : (0x080 + 4 * i.val - 0x080) / 4 = i.val := by omega
  unfold ctxWrite
  split
  case h_12 =>
    rw [dif_pos (by omega)]
    simp only [hi, BitVec.ofNat_toNat, BitVec.setWidth_eq]
    rfl
  all_goals omega

/-- The semaphore addresses reach REGISTER_WRITE as 16 bits. -/
theorem exec_write_sem {s : State} {a : Access} {v : Word} (h : s.boot.running = true) (hf : s.fastOn = true) (c : Ctx) (i : Fin 16)
    (hm : mayWrite s a (semAddr c i) = true) :
    exec (.registerWrite a (BitVec.ofNat 16 (semAddr c i)) v) s =
      .next (answer .ack (refresh (semAddr c i) ((atBc s).modCtx c (CtxState.withSem i v)))) := by
  have hn : (BitVec.ofNat 16 (semAddr c i)).toNat = semAddr c i := by
    rw [BitVec.toNat_ofNat]
    exact Nat.mod_eq_of_lt (semAddr_reg c i).small
  have hbelow : semAddr c i < 0x6000 := (semAddr_reg c i).below.trans (by decide)
  have hawake : awake (atBc s) .common = true := by rw [(atBc_passed s).rest]; exact hf
  have heffect : registerEffect a (semAddr c i) v.toNat (atBc s) = some ((atBc s).modCtx c (CtxState.withSem i v)) := by
    rw [registerEffect_below hbelow, (semAddr_reg c i).anyEffect_eq, ctxWrite_sem]
  rw [exec_registerWrite h (by rw [hn]; exact semAddr_written c i), hn,
    regWrite_awake ((mayWrite_atBc ..).trans hm) heffect (semAddr_kind ..) hawake]

/-! ### LOCK -/

/-- The protection range is the boot code's before LOCK (R220). -/
theorem mayWrite_lock (s : State) (a : Access) : mayWrite s a 0x1000 = true ↔ s.prot.lock = false ∧ a.tag = 9 := by
  have hk : (regKind s 0x1000).isSome = true := rfl
  have hu : underReset s 0x1000 = false := rfl
  have hw : isW1c 0x1000 = false := by decide
  have ht : tagWrites s a.tag.toNat 0x1000 = (a.tag == 9 && !s.prot.lock) := by
    rw [tagWrites_protection (by decide)]
    congr 1
    rw [Bool.eq_iff_iff, beq_iff_eq, beq_iff_eq]
    exact BitVec.toNat_inj (y := 9)
  rw [mayWrite, hk, hu, hw, ht]
  simp +contextual [isFw, and_comm]

/-- The block with LOCK as written. -/
def withLock (v : Word) (s : State) : State := { s with prot := { s.prot with lock := v == 1 } }

theorem lockWrite_refused {v : Word} {s : State} (h : 1 < v.toNat) : lockWrite v.toNat s = none := if_pos h

theorem lockWrite_open {v : Word} {s : State} (h : v.toNat ≤ 1) (hl : s.prot.lock = false) : lockWrite v.toNat s = some (withLock v s) := by
  have hv : (v.toNat == 1) = (v == 1) := by
    rw [Bool.eq_iff_iff, beq_iff_eq, beq_iff_eq]
    exact BitVec.toNat_inj (y := 1)
  rw [lockWrite, if_neg (by omega), hl, Bool.false_or, hv]
  rfl

end Sys2Proof.Machine
end

section
/-! Settles the statement about register writes. -/

namespace Sys2Proof.Claims

open Sys2Proof Sys2Proof.Machine

variable {a : Access} {v : Word} {s : State}

theorem registerWrite_refused (h : s.boot.running = true) {n : BitVec 16} (hm : mayWrite s a n.toNat = false) :
    ∃ t, exec (.registerWrite a n v) s = .next t ∧ Refused s t :=
  ⟨_, exec_registerWrite_refused h hm, refused_atBc s⟩

theorem portTmo_settled (h : FwAccess s a) :
    ∃ t, exec (.registerWrite a 0x0010 v) s = .next t ∧ t.ctx = s.ctx ∧ t.ops = s.ops ∧ SameMemories s t ∧ SameSetup s t ∧
      if v.toNat % 2 ^ 24 = 0 then Refused s t else Acked t ∧ t.g.portTmo = BitVec.ofNat 24 v.toNat := by
  have hn : (0x0010 : BitVec 16).toNat = 0x0010 := rfl
  have hmay : mayWrite (atBc s) a 0x0010 = true := mayWrite_portTmo h.tag h.plain
  have hrun := exec_registerWrite (a := a) (n := 0x0010) (v := v) h.running (by decide)
  rw [hn] at hrun
  have heffect := registerEffect_portTmo a v.toNat (atBc s)
  by_cases hv : v.toNat % 2 ^ 24 = 0
  · rw [if_pos (by simpa using hv)] at heffect
    rw [regWrite_err heffect] at hrun
    obtain ⟨hctx, hops, hmem, hset⟩ := ((atBc_rests s).trans (answer_rests .err _)).same
    refine ⟨_, hrun, hctx, hops, hmem, hset, ?_⟩
    rw [if_pos hv]
    exact refused_atBc s
  · rw [if_neg (by simpa using hv)] at heffect
    rw [regWrite_native hmay heffect rfl] at hrun
    have hr := ((atBc_rests s).trans (withPortTmo_rests v.toNat _)).trans
      ((nativeShadows_shadowed 0x0010 (withPortTmo v.toNat (atBc s))).rests.trans (answer_rests .ack _))
    obtain ⟨hctx, hops, hmem, hset⟩ := hr.same
    refine ⟨_, hrun, hctx, hops, hmem, hset, ?_⟩
    rw [if_neg hv, nativeShadows_shadowed]
    exact ⟨rfl, rfl⟩

theorem semaphore_settled (h : s.boot.running = true) (c : Ctx) (i : Fin 16) (hf : s.fastOn = true)
    (hm : mayWrite s a (semAddr c i) = true) :
    ∃ t, exec (.registerWrite a (BitVec.ofNat 16 (semAddr c i)) v) s = .next t ∧ Acked t ∧
      (∀ j, (t.cx c).sem.get j = if j = i then v else (s.cx c).sem.get j) ∧ (∀ d, d ≠ c → t.cx d = s.cx d) ∧ t.ops = s.ops ∧
      SameMemories s t ∧ SameSetup s t := by
  have hr := (refresh_shadowed (semAddr c i) ((atBc s).modCtx c (CtxState.withSem i v))).rests.trans (answer_rests .ack _)
  obtain ⟨hc, hops, hcx, hmem, hset⟩ := (atBc_rests s).modCtx c (CtxState.withSem i v)
  refine ⟨_, exec_write_sem h hf c i hm, rfl, fun j => ?_, fun d hd => (cx_of_ctx hr.ctx d).trans (hcx d hd), hr.ops.trans hops,
    memories_trans hmem hr.keeps.memories, SameSetup.trans hset (sameSetup_of_keeps hr.keeps)⟩
  rw [cx_of_ctx hr.ctx, hc]
  exact get_set_sem ..

theorem bootlock_settled (h : s.boot.running = true) :
    ∃ t, exec (.bootlock a v) s = .next t ∧ t.ctx = s.ctx ∧ t.ops = s.ops ∧ SameMemories s t ∧
      if s.prot.lock = false ∧ a.tag = 9 ∧ v.toNat ≤ 1 then Acked t ∧ t.prot = { s.prot with lock := v == 1 }
      else Refused s t := by
  have hmay : mayWrite (atBc s) a 0x1000 = true ↔ s.prot.lock = false ∧ a.tag = 9 := by rw [mayWrite_atBc, mayWrite_lock]
  have hprot : (atBc s).prot = s.prot := by rw [(atBc_passed s).rest]
  rw [exec_bootlock h]
  by_cases hok : s.prot.lock = false ∧ a.tag = 9 ∧ v.toNat ≤ 1
  · obtain ⟨hlock, htag, hv⟩ := hok
    rw [regWrite_native (hmay.mpr ⟨hlock, htag⟩) (lockWrite_open hv (by rw [hprot, hlock])) rfl]
    have hr := (nativeShadows_shadowed 0x1000 (withLock v (atBc s))).rests.trans (answer_rests .ack _)
    have hmem : SameMemories (atBc s) (withLock v (atBc s)) := ⟨rfl, fun _ => ⟨rfl, rfl⟩⟩
    refine ⟨_, rfl, hr.ctx.trans (atBc_rests s).ctx, hr.ops.trans (atBc_rests s).ops,
      memories_trans (atBc_rests s).keeps.memories (memories_trans hmem hr.keeps.memories), ?_⟩
    rw [if_pos ⟨hlock, htag, hv⟩, ← hprot]
    exact ⟨rfl, hr.keeps.prot⟩
  · have hrefused : regWrite a 0x1000 v (lockWrite v.toNat) (atBc s) = err (atBc s) := by
      by_cases hm : mayWrite (atBc s) a 0x1000 = true
      · obtain ⟨hlock, htag⟩ := hmay.mp hm
        have hv : 1 < v.toNat := by
          by_contra hv
          exact hok ⟨hlock, htag, by omega⟩
        exact regWrite_err (lockWrite_refused hv)
      · exact regWrite_refused (Bool.eq_false_iff.mpr hm)
    obtain ⟨hctx, hops, hmem, -⟩ := ((atBc_rests s).trans (answer_rests .err _)).same
    rw [hrefused]
    refine ⟨_, rfl, hctx, hops, hmem, ?_⟩
    rw [if_neg hok]
    exact refused_atBc s

end Sys2Proof.Claims

namespace Sys2Proof.Claims

open Sys2Proof Sys2Proof.Machine

/-- Settles O55, by who may write a register and by what the port makes of the write. -/
theorem registerWrites : Obligations.RegisterWrites := by
  intro a v s h
  exact ⟨fun n hm => registerWrite_refused h hm, fun n hn => registerWrite_refused h (mayWrite_excluded hn), portTmo_settled,
    fun c i hf hm => semaphore_settled h c i hf hm, bootlock_settled h⟩

end Sys2Proof.Claims
end
section
/-! Refutes the statement about freeze and halt. -/

namespace Sys2Proof.Claims

open Sys2Proof Sys2Proof.Machine

/-- A MARK of LAYER 5 and OPER 9. -/
def mark5Of9 : Inst := BitVec.ofNat 128 (0x20 + 9 * 2 ^ 32 + 5 * 2 ^ 80)

/-- A LOOP of two runs over the instruction before it. -/
def loopTwice : Inst := BitVec.ofNat 128 (0x1B + 1 * 2 ^ 32 + 2 * 2 ^ 80)

/-- A running block. T0's main queue is at the last instruction of the last run of the LOOP over that MARK, which ran once
before the LOOP. -/
def markEndsLoop : State :=
  { fastOn := true
    boot := { ready := true }
    ctx := (Vector.replicate 9 {}).set 0
      { mode := .active, seq := 2
        qm := { head := 1, tail := 2, history := [mark5Of9]
                loop := some { seq := 1, inst := loopTwice, body := [mark5Of9], count := 2, step := 0, smask := 0, run := 1, pos := 0 } } } }

theorem markEndsLoop_ready : Ready markEndsLoop 0 .main 0x20 mark5Of9 where
  next := by decide +kernel
  opcode := by decide
  runs := by decide +kernel
  turn _ := by decide +kernel
  free := by decide +kernel
  checks := by decide +kernel
  holds := by decide +kernel

/-- The MARK completes, and so does the LOOP that it ends. -/
theorem markEndsLoop_counts : (dispatch 0x20 startMark 0 .main markEndsLoop).cnt.ops = 2 := by decide +kernel

/-- Refutes O52: a completion counts as an operation, and the MARK that ends the last run of a LOOP brings two, its own and the LOOP's
(R187), where the statement's last clause counts one. A LOOP may have a MARK in its body (R184), so its queue comes to this state. -/
theorem not_freezeAndHalt : ¬ Obligations.FreezeAndHalt := by
  unfold Obligations.FreezeAndHalt
  intro h
  obtain ⟨-, -, -, -, -, -, -, -, hmark⟩ := h markEndsLoop
  obtain ⟨t, ht, hops⟩ := hmark 0 .main mark5Of9 markEndsLoop_ready
  obtain rfl : dispatch 0x20 startMark 0 .main markEndsLoop = t := Host.Outcome.next.inj ht
  rw [markEndsLoop_counts] at hops
  exact absurd hops (by decide)

end Sys2Proof.Claims
end

section
/-! SUPPORT. The queue of an instruction after its dispatch, and the queue of an operation that ends. -/

namespace Sys2Proof.Machine

open Sys2Proof Sys2Proof.Claims

/-- A queue but for what it waits for. -/
theorem CtxEnded.queue {x y : CtxState} (h : CtxEnded x y) (q : QSel) : ∃ f p, y.queue q = { x.queue q with fence := f, prev := p } := by
  rw [h]
  cases q <;> exact ⟨_, _, rfl⟩

/-- What moving a queue on does with it. -/
theorem takeHead_queue (c : Ctx) (q : QSel) (w : Inst) (s : State) :
    ∃ f p, (takeHead c q w s).qu c q = { (s.qu c q).step w (s.cx c).seq s.clk with fence := f, prev := p } := by
  have hmoved : ((moveQueue c q w s).cx c).queue q = (s.qu c q).step w (s.cx c).seq s.clk := by
    rw [moveQueue_cx]
    cases q <;> rfl
  rw [← hmoved]
  exact (takeHead_ends c q w s).own.queue q

/-- What a dispatch leaves of its queue in every case (R188, R189, R193). -/
theorem Queue.step_rest (x : Queue) (w : Inst) (seq : BitVec 8) (n : Nat) : (x.step w seq n).since = x.since + 1 ∧
    (x.step w seq n).watchR = x.watchR ∧ (x.step w seq n).watchD = x.watchD := by
  unfold Queue.step
  dsimp only
  split
  · split
    · exact ⟨rfl, rfl, rfl⟩
    · split <;> exact ⟨rfl, rfl, rfl⟩
  · exact ⟨rfl, rfl, rfl⟩

theorem takeHead_since (c : Ctx) (q : QSel) (w : Inst) (s : State) : ((takeHead c q w s).qu c q).since = (s.qu c q).since + 1 := by
  obtain ⟨f, p, h⟩ := takeHead_queue c q w s
  rw [h]
  exact (Queue.step_rest ..).1

theorem takeHead_watch (c : Ctx) (q : QSel) (w : Inst) (s : State) : ((takeHead c q w s).qu c q).watchR = (s.qu c q).watchR ∧
    ((takeHead c q w s).qu c q).watchD = (s.qu c q).watchD := by
  obtain ⟨f, p, h⟩ := takeHead_queue c q w s
  rw [h]
  exact (Queue.step_rest ..).2

theorem modQueue_qu (s : State) (c : Ctx) (q : QSel) (f : Queue → Queue) : (s.modQueue c q f).qu c q = f (s.qu c q) := by
  rw [State.qu, State.modQueue, modCtx_cx, queue_modQueue]
  rfl

theorem modQueue_rstBusy (s : State) (c : Ctx) (q : QSel) (f : Queue → Queue) : ((s.modQueue c q f).cx c).rstBusy = (s.cx c).rstBusy := by
  rw [State.modQueue, modCtx_cx]
  cases q <;> rfl

/-- A changed queue of an operation that then completes. -/
theorem completeNow_modQueue {o : Op} (h0 : o.status = 0) (f : Queue → Queue) (s : State) (q : QSel) :
    ∃ u p, (completeNow o (s.modQueue o.ctx q f)).qu o.ctx q = { f (s.qu o.ctx q) with fence := u, prev := p } := by
  rw [← modQueue_qu s o.ctx q f]
  exact (completeNow_ends h0 _).own.queue q

end Sys2Proof.Machine
end

section
/-! Settles the statements about GATHER, MARK, FENCE, WATCH and END. -/

namespace Sys2Proof.Claims

open Sys2Proof Sys2Proof.Machine

/-! ### GATHER, MARK and FENCE -/

/-- An instruction of class C that changes its own queue, but not its head, and completes. -/
theorem completesNow_of_modQueue {s : State} {c : Ctx} {q : QSel} {w : Inst} (hrun : canDispatch s c q = true)
    (hk : opClass (iOpc w) = some .c) {f : Queue → Queue} (hf : ∀ y, (f y).head = y.head) :
    CompletesNow s c w 0 (completeNow (newOp (memberView s c q) c q w) ((takeHead c q w s).modQueue c q f)) ∧
      OnlyCtx c s (completeNow (newOp (memberView s c q) c q w) ((takeHead c q w s).modQueue c q f)) ∧
      SameValues (s.cx c) ((completeNow (newOp (memberView s c q) c q w) ((takeHead c q w s).modQueue c q f)).cx c) :=
  completesNow_of_calm hrun hk (modQueue_calm _ c q hf) (modQueue_keeps ..) (modQueue_rstBusy ..) rfl

theorem takeHead_descBytes (c : Ctx) (q : QSel) (w : Inst) (s : State) (i : Nat) : descBytes (takeHead c q w s) c i = descBytes s c i := by
  have hbase : ((takeHead c q w s).cx c).descBase = (s.cx c).descBase := by
    rw [(takeHead_ends c q w s).own, moveQueue_cx]
    cases q <;> rfl
  rw [descBytes, (takeHead_keeps c q w s).staging, hbase, descBytes]

/-- GATHER leaves its geometry in its queue. -/
theorem gather_completes {c : Ctx} {q : QSel} {s : State} {w : Inst} (h : Ready s c q 0x02 w) :
    ∃ t, exec (.gather c q) s = .next t ∧
      (t.qu c q).geo = some { decodeGeo (descBytes s c (iDX w)) with input := descAt (memberView s c q) c (iDA w), fa := iFA w } ∧
      CompletesNow s c w 0 t ∧ OnlyCtx c s t ∧ SameValues (s.cx c) (t.cx c) := by
  have hda : (newOp (memberView s c q) c q w).da = descAt (memberView s c q) c (iDA w) :=
    (newOp_opOf s c q w).da (by rw [useOfInst, h.opcode]; rfl)
  have hrun : exec (.gather c q) s = .next (startGather (newOp (memberView s c q) c q w) (takeHead c q w s)) :=
    congrArg _ (h.dispatch startGather rfl)
  refine ⟨_, hrun, ?_, completesNow_of_modQueue h.runs (by rw [h.opcode]; rfl) fun _ => rfl⟩
  obtain ⟨_, _, hq⟩ := completeNow_modQueue (o := newOp (memberView s c q) c q w) rfl (fun x => { x with geo := some _ }) (takeHead c q w s) q
  rw [← hda, ← takeHead_descBytes c q w s]
  exact congrArg Queue.geo hq

/-- MARK sets the marks of its queue. -/
theorem mark_completes {c : Ctx} {q : QSel} {s : State} {w : Inst} (h : Ready s c q 0x20 w) :
    ∃ t, exec (.mark c q) s = .next t ∧ (t.qu c q).layer = BitVec.ofNat 24 (iImm48 w) ∧ (t.qu c q).oper = BitVec.ofNat 16 (iImm w) ∧
      CompletesNow s c w 0 t ∧ OnlyCtx c s t ∧ SameValues (s.cx c) (t.cx c) := by
  have hrun : exec (.mark c q) s = .next (startMark (newOp (memberView s c q) c q w) (takeHead c q w s)) :=
    congrArg _ (h.dispatch startMark rfl)
  obtain ⟨_, _, hq⟩ := completeNow_modQueue (o := newOp (memberView s c q) c q w) rfl
    (fun x => { x with layer := BitVec.ofNat 24 (iImm48 w), oper := BitVec.ofNat 16 (iImm w) }) (takeHead c q w s) q
  exact ⟨_, hrun, congrArg Queue.layer hq, congrArg Queue.oper hq,
    completesNow_of_modQueue h.runs (by rw [h.opcode]; rfl) fun _ => rfl⟩

/-- FENCE only completes. -/
theorem fence_completes {c : Ctx} {q : QSel} {s : State} {w : Inst} (h : Ready s c q 0x1A w) :
    ∃ t, exec (.fence c q) s = .next t ∧ CompletesNow s c w 0 t ∧ OnlyCtx c s t ∧ SameValues (s.cx c) (t.cx c) := by
  have hrun : exec (.fence c q) s = .next (completeNow (newOp (memberView s c q) c q w) (takeHead c q w s)) :=
    congrArg _ (h.dispatch completeNow rfl)
  exact ⟨_, hrun, completesNow_of_calm h.runs (by rw [h.opcode]; rfl) (.of_eq rfl rfl) (Keeps.refl _) rfl rfl⟩

/-- Settles O9. -/
theorem gatherMarkAndFenceComplete : Obligations.GatherMarkAndFenceComplete :=
  ⟨fun _ _ _ _ => gather_completes, fun _ _ _ _ => mark_completes, fun _ _ _ _ => fence_completes⟩

/-! ### WATCH -/

/-- The digests of a queue with those that WATCH arms (R189). -/
def armed (o : Op) (x : Queue) : Queue :=
  { x with watchR := x.watchR ++ (if (iMode o.word).testBit 0 then [o.seq] else [])
           watchD := x.watchD ++ (if (iMode o.word).testBit 1 then [o.seq] else []) }

theorem startWatch_waits {o : Op} (h : (iMode o.word).testBit 2 = true) (s : State) : startWatch o s = enqueue o s := if_pos h

theorem startWatch_arms {o : Op} (h : (iMode o.word).testBit 2 = false) (s : State) :
    startWatch o s = (enqueue { o with stage := .armed } s).modQueue o.ctx o.q (armed o) := if_neg (by simp [h])

theorem enqueue_qu (o : Op) (s : State) (c : Ctx) (q : QSel) : (enqueue o s).qu c q = s.qu c q := by
  rw [State.qu, cx_of_ctx (enqueue_ctx o s), State.qu]

/-- Where an instruction's effect changes only queues and chains of its context, its dispatch changes no values (R157). -/
theorem frame_of_pends {s t : State} {c : Ctx} {q : QSel} {w : Inst} (h : Pends c (takeHead c q w s) t) :
    (t.cx c).seq = (s.cx c).seq + 1 ∧ OnlyCtx c s t ∧ SameValues (s.cx c) (t.cx c) := by
  have hm := takeHead_moved c q w s
  have hk := (takeHead_keeps c q w s).trans h.keeps
  have hown := h.own
  refine ⟨by rw [hown, hm.seq], ⟨fun d hd => (h.others d hd).trans (hm.others d hd), hk.staging, hk.banks, hk.prot⟩, ?_⟩
  rw [hown]
  exact ⟨hm.sem, hm.sticky, hm.cullet, hm.masks, hm.rough⟩

/-- Settles O10: an immediate digest enters the block; an armed one does so too, and its queue notes it. -/
theorem watchArmsOrWaits : Obligations.WatchArmsOrWaits := by
  intro c q s w h
  have hrun : exec (.watch c q) s = .next (startWatch (newOp (memberView s c q) c q w) (takeHead c q w s)) :=
    congrArg _ (h.dispatch startWatch rfl)
  have hop := newOp_opOf s c q w
  have henter : ∀ p : Op, Pends c (takeHead c q w s) (enqueue p (takeHead c q w s)) := fun p => .of_ctx (enqueue_ctx ..) (enqueue_keeps ..)
  obtain ⟨hR, hD⟩ := takeHead_watch c q w s
  cases hmode : (iMode w).testBit 2 with
  | true =>
    rw [startWatch_waits (o := newOp (memberView s c q) c q w) hmode] at hrun
    refine ⟨_, _, hrun, enqueue_mem .., hop, rfl, ?_, ?_, frame_of_pends (henter _)⟩ <;> rw [enqueue_qu]
    · simp [hR]
    · simp [hD]
  | false =>
    rw [startWatch_arms (o := newOp (memberView s c q) c q w) hmode] at hrun
    have hqu := modQueue_qu (enqueue { newOp (memberView s c q) c q w with stage := .armed } (takeHead c q w s)) c q
      (armed (newOp (memberView s c q) c q w))
    rw [enqueue_qu] at hqu
    refine ⟨_, _, hrun, enqueue_mem .., ⟨hop.ctx, hop.queue, hop.seq, hop.word, hop.opc, hop.layer, hop.oper, hop.da, hop.db, hop.dO, hop.dx⟩,
      rfl, ?_, ?_, frame_of_pends ((henter _).trans (modQueue_pends ..))⟩
    · refine (congrArg Queue.watchR hqu).trans ?_
      simp only [armed, hR, hop.word, hop.seq, true_and]
    · refine (congrArg Queue.watchD hqu).trans ?_
      simp only [armed, hD, hop.word, hop.seq, true_and]

/-! ### END -/

/-- The digests that a queue armed and END discards (R193). -/
def discards (c : Ctx) (q : QSel) (p : Op) : Bool := p.ctx == c && p.q == q && p.stage == .armed

/-- A queue behind END. -/
def queueEnded (x : Queue) : Queue := { x with geo := none, watchR := [], watchD := [], layer := 0, oper := 0, since := 0, history := [] }

/-- The block whose queue has met END. -/
def ended (c : Ctx) (q : QSel) (s : State) : State :=
  State.modQueue { s with ops := s.ops.filter fun p => !discards c q p } c q queueEnded

theorem startEnd_eq (o : Op) (s : State) :
    startEnd o s = completeNow { o with info := ((s.qu o.ctx o.q).since - 1).toNat } (ended o.ctx o.q s) := rfl

theorem ended_calm (c : Ctx) (q : QSel) (s : State) : Calm c s (ended c q s) := by
  have hops : Calm c s { s with ops := s.ops.filter fun p => !discards c q p } :=
    ⟨fun _ _ => rfl, fun _ ho => List.mem_of_mem_filter ho, rfl, rfl, rfl, rfl, rfl, rfl, .inl ⟨rfl, fun _ => rfl⟩⟩
  exact hops.trans (modQueue_calm _ c q fun _ => rfl)

theorem ended_keeps (c : Ctx) (q : QSel) (s : State) : Keeps s (ended c q s) :=
  Keeps.trans (t := { s with ops := s.ops.filter fun p => !discards c q p }) (Keeps.of_eq rfl rfl rfl rfl rfl) (modQueue_keeps ..)

/-- Settles O12: the count that END reports is the one before its own dispatch. -/
theorem endClearsQueue : Obligations.EndClearsQueue := by
  intro c q s w h
  have hsince : ((takeHead c q w s).qu c q).since - 1 = (s.qu c q).since := by rw [takeHead_since, BitVec.add_sub_cancel]
  have hrun : exec (.endProg c q) s =
      .next (completeNow { newOp (memberView s c q) c q w with info := (s.qu c q).since.toNat } (ended c q (takeHead c q w s))) := by
    rw [← hsince]
    exact congrArg _ (h.dispatch startEnd rfl)
  have hend := completeNow_ends (o := { newOp (memberView s c q) c q w with info := (s.qu c q).since.toNat }) rfl (ended c q (takeHead c q w s))
  obtain ⟨_, _, hqu⟩ := completeNow_modQueue (o := { newOp (memberView s c q) c q w with info := (s.qu c q).since.toNat }) rfl
    queueEnded { takeHead c q w s with ops := _ } q
  obtain ⟨hnow, honly, hsame⟩ := completesNow_of_calm (n := (s.qu c q).since.toNat) h.runs (by rw [h.opcode]; rfl)
    (ended_calm c q (takeHead c q w s)) (ended_keeps ..) (modQueue_rstBusy ..) rfl
  refine ⟨_, hrun, congrArg Queue.geo hqu, congrArg Queue.watchR hqu, congrArg Queue.watchD hqu, congrArg Queue.layer hqu,
    congrArg Queue.oper hqu, congrArg Queue.since hqu, hnow, fun o ho harmed => ?_, honly, hsame⟩
  have hkept := (List.mem_filter.1 (hend.ops o ho)).2
  simp [discards, harmed] at hkept

end Sys2Proof.Claims
end

section
/-! Settles the statement about LOOP. -/

namespace Sys2Proof.Machine

open Sys2Proof Sys2Proof.Claims

/-- An instruction that passes every check passes those of its opcode. -/
theorem bodyChecks_of_checkInst {s : State} {c : Ctx} {q : QSel} {w : Inst} (h : checkInst s c q w = none) :
    firstFault (bodyChecks s c q w) = none := by
  unfold checkInst at h
  split at h
  · cases h
  split at h
  · cases h
  split at h
  · cases h
  split at h
  · cases h
  split at h
  · cases h
  · next e => exact e

/-- A list of checks finds nothing where none of them fails. -/
theorem firstFault_none {l : List (Bool × Nat)} (h : firstFault l = none) {x : Bool × Nat} (hx : x ∈ l) : x.1 = false := by
  rw [firstFault, Option.map_eq_none_iff, List.find?_eq_none] at h
  exact Bool.eq_false_iff.2 (h x hx)

/-- The body of a LOOP that passes its checks is short (R186). -/
theorem loopBody_le {s : State} {c : Ctx} {q : QSel} {w : Inst} (h : checkInst s c q w = none) (hopc : iOpc w = 0x1B) : loopBody w ≤ 64 := by
  have hchk := bodyChecks_of_checkInst h
  rw [bodyChecks, hopc] at hchk
  have hlen := firstFault_none hchk (x := (loopBody w == 0 || decide (loopBody w > 64) || decide (loopCount w < 2), 3)) (List.mem_cons_self ..)
  simp at hlen
  omega

/-- The instructions before a dispatch, read from the history behind it (R184). -/
theorem lastInsts_step {x : Queue} (hl : x.loop = none) (w : Inst) (seq : BitVec 8) (t : Nat) {n : Nat} (hn : n ≤ 64) :
    lastInsts { x.step w seq t with history := (x.step w seq t).history.drop 1 } n = lastInsts x n := by
  have hh : (x.step w seq t).history = (w :: x.history).take 65 := by
    unfold Queue.step
    dsimp only
    split
    · next l e => rw [hl] at e; cases e
    · rfl
  simp only [lastInsts, hh, List.take_succ_cons, List.drop_succ_cons, List.drop_zero, List.take_take, Nat.min_eq_left hn]

/-- Outside a loop moving a queue on completes nothing. -/
theorem takeHead_of_no_loop {c : Ctx} {q : QSel} {s : State} (h : (s.qu c q).loop = none) (w : Inst) :
    takeHead c q w s = moveQueue c q w s := by
  unfold takeHead
  simp only [h]

end Sys2Proof.Machine

namespace Sys2Proof.Claims

open Sys2Proof Sys2Proof.Machine

/-- What a LOOP keeps in its queue (R184). -/
def loopOf (o : Op) (body : List Inst) : Loop :=
  { seq := o.seq, inst := o.word, body := body, count := loopCount o.word, step := loopStep o.word, smask := loopSmask o.word, run := 1,
    pos := 0, layer := o.layer, oper := o.oper }

/-- The queue of a LOOP behind its dispatch. -/
def looped (o : Op) (x : Queue) : Queue :=
  { x with head := BitVec.ofNat 16 o.qidx
           loop := some (loopOf o (lastInsts { x with history := x.history.drop 1 } (loopBody o.word))) }

theorem startLoop_eq (o : Op) (s : State) :
    startLoop o s = (emitOp 0x01 13 (o.qidx + (if o.q == .prio then 65536 else 0)) o s).modQueue o.ctx o.q (looped o) := rfl

/-- What a LOOP leaves: its queue, and the rest but for bookkeeping as it was. -/
theorem startLoop_leaves (o : Op) (s : State) : Pends o.ctx s (startLoop o s) ∧ (startLoop o s).ops = s.ops ∧
    (startLoop o s).qu o.ctx o.q = looped o (s.qu o.ctx o.q) := by
  rw [startLoop_eq]
  refine ⟨(Pends.of_ctx (emitOp_ctx ..) (emitOp_keeps ..)).trans (modQueue_pends ..), emitOp_ops .., ?_⟩
  rw [modQueue_qu, State.qu, cx_of_ctx (emitOp_ctx ..)]
  rfl

/-- Settles O6: the history behind the dispatch of a LOOP still holds its whole body. -/
theorem loopStartsSecondRun : Obligations.LoopStartsSecondRun := by
  intro c q s w h hloop
  have hrun : exec (.loop c q) s = .next (startLoop (newOp (memberView s c q) c q w) (takeHead c q w s)) :=
    congrArg _ (h.dispatch startLoop rfl)
  have hop := newOp_opOf s c q w
  obtain ⟨hpends, hops, hqu⟩ := startLoop_leaves (newOp (memberView s c q) c q w) (takeHead c q w s)
  obtain ⟨hseq, honly, hsame⟩ := frame_of_pends hpends
  have hidx : BitVec.ofNat 16 (newOp (memberView s c q) c q w).qidx = (s.qu c q).head := by
    rw [State.qu, ← memberView_cx s c q c]
    exact (BitVec.ofNat_toNat ..).trans (BitVec.setWidth_eq _)
  have hbody : lastInsts { (takeHead c q w s).qu c q with history := ((takeHead c q w s).qu c q).history.drop 1 } (loopBody w) =
      lastInsts (s.qu c q) (loopBody w) := by
    obtain ⟨f, p, hq⟩ := takeHead_queue c q w s
    rw [hq]
    exact lastInsts_step hloop w (s.cx c).seq s.clk (loopBody_le h.checks h.opcode)
  refine ⟨_, _, hrun, congrArg Queue.loop hqu, rfl, rfl, hop.word, hop.seq, rfl, rfl, rfl, hbody, (congrArg Queue.head hqu).trans hidx, hseq,
    hops.trans ?_, honly, hsame⟩
  rw [takeHead_of_no_loop hloop]
  rfl

end Sys2Proof.Claims
end

section
/-! Settles the statement about FLAGS outside a lock window. -/

namespace Sys2Proof.Machine

open Sys2Proof Sys2Proof.Claims

/-! ### An operation of class C with writes, outside a lock window -/

/-- What an operation of class C leaves of the block `u` that it changed: its writes in staging and on the ports of its set. -/
structure Posts (o : Op) (ws : List Wr) (u t : State) : Prop where
  others : ∀ d, d ≠ o.ctx → t.cx d = u.cx d
  own : CtxEnded (u.cx o.ctx) (t.cx o.ctx)
  staging : t.staging = writesOf u.staging (staged ws)
  asks : ∀ b, Claims.asks (t.by b).port =
    Claims.asks (u.by b).port ++ posts u o.ctx (.op o.ctx o.seq) (u.portBays o.ctx) (outRanges o) ws b

theorem finish_posts {o : Op} (h0 : o.status = 0) (ws : List Wr) (u : State) :
    Posts o ws u (finish { o with stage := .granted } (u.portBays o.ctx) ws (enqueue o u)) := by
  have hin := enqueue_settles o u o.ctx
  refine ⟨fun d hd => ?_, ?_, ?_, fun b => ?_⟩
  · exact (finish_others (o := { o with stage := .granted }) h0 _ _ _ hd).trans (hin.others d hd)
  · exact hin.own.trans (finish_own (o := { o with stage := .granted }) h0 _ _ _)
  · exact (finish_staging (o := { o with stage := .granted }) h0 _ _ _).trans (congrArg (writesOf · _) hin.keeps.staging)
  · refine (finish_asks (o := { o with stage := .granted }) h0 _ _ _ b).trans ?_
    rw [hin.ports, posts_congr hin.keeps.prot]
    rfl

theorem completeNow_posts {o : Op} (h0 : o.status = 0) (u : State) : Posts o [] u (completeNow o u) := by
  have hend := completeNow_ends h0 u
  refine ⟨hend.others, hend.own, hend.keeps.staging, fun b => ?_⟩
  rw [hend.ports b, posts_nil (ws := []) _ _ _ _ _ rfl, List.append_nil]

/-- An operation of class C that has no fault completes with its record; it may have been among those in flight. -/
theorem completesNow_of_complete {s u : State} {c : Ctx} {w : Inst} {o : Op} (hc : o.ctx = c) (hk : opClass (iOpc w) = some .c)
    (hopc : o.opc = iOpc w) (hw : o.word = w) (h0 : o.status = 0) (hseq : (u.cx c).seq = (s.cx c).seq + 1)
    (hr : (u.cx c).rstBusy = false) (hops : ∀ p ∈ u.ops, p ∈ s.ops ∨ p.ctx = o.ctx ∧ p.seq = o.seq) :
    CompletesNow s c w o.info (complete o u) := by
  subst hc hw
  have hcalm := complete_calm o u
  refine ⟨hcalm.seq.trans hseq, fun p hp => (hops p (hcalm.ops p hp)).resolve_right (complete_gone hp), fun hcmp => ?_⟩
  obtain ⟨t, v, hv⟩ := complete_record hr (.inl hcmp)
  have hinfo : (o.toRec t).info = o.info := if_neg (by simp [h0])
  have hbays : o.recBays = 0 := by
    unfold Op.recBays
    rw [show opClass o.opc = some .c from hopc ▸ hk]
  exact ⟨_, hv, hopc, h0, hinfo, hbays⟩

/-! ### FLAGS -/

/-- A FLAGS with what it reports (R190). -/
def flagsOp (x : CtxState) (o : Op) : Op := { o with info := (Flags.union x.sticky.toList).toNat }

/-- The sticky flags of a context without those that a FLAGS selects (R190). -/
def cleared (o : Op) (s : State) : State :=
  s.modCtx o.ctx fun x => { x with sticky := x.sticky.map (·.clear (Flags.ofNat (iImm o.word))) }

/-- What a FLAGS stores (R190). -/
def flagsWrites (x : CtxState) (o : Op) : List Wr :=
  if (iMode o.word).testBit 0 then [((byteRange 16 o.dO).win, (byteRange 16 o.dO).lo, flagsRecord x)] else []

theorem startFlags_plain {o : Op} (hm : o.member = false) (s : State) : startFlags o s =
    if (iMode o.word).testBit 0 then
      finish { flagsOp (s.cx o.ctx) o with stage := .granted } ((cleared o s).portBays o.ctx) (flagsWrites (s.cx o.ctx) o)
        (enqueue (flagsOp (s.cx o.ctx) o) (cleared o s))
    else completeNow (flagsOp (s.cx o.ctx) o) (cleared o s) := by
  refine (if_neg (by simp [hm])).trans ?_
  by_cases hrec : (iMode o.word).testBit 0 = true
  · rw [flagsWrites, if_pos hrec, if_pos hrec]
    rfl
  · rw [if_neg hrec, if_neg hrec]
    rfl

theorem cleared_cx (o : Op) (s : State) : (cleared o s).cx o.ctx =
    { s.cx o.ctx with sticky := (s.cx o.ctx).sticky.map (·.clear (Flags.ofNat (iImm o.word))) } := modCtx_cx ..

theorem startFlags_posts {o : Op} (hm : o.member = false) (h0 : o.status = 0) (s : State) :
    Posts (flagsOp (s.cx o.ctx) o) (flagsWrites (s.cx o.ctx) o) (cleared o s) (startFlags o s) := by
  rw [startFlags_plain hm]
  by_cases hrec : (iMode o.word).testBit 0 = true
  · rw [if_pos hrec]
    exact finish_posts (o := flagsOp (s.cx o.ctx) o) h0 _ _
  · rw [if_neg hrec, flagsWrites, if_neg hrec]
    exact completeNow_posts (o := flagsOp (s.cx o.ctx) o) h0 _

theorem cleared_portBays (o : Op) (s : State) : (cleared o s).portBays o.ctx = s.portBays o.ctx := by
  have halt : ((cleared o s).cx o.ctx).alt = (s.cx o.ctx).alt := by rw [cleared_cx]
  exact portBays_congr (sameSetup_of_keeps (modCtx_keeps ..)) halt fun _ => rfl

theorem startFlags_asks {o : Op} (hm : o.member = false) (h0 : o.status = 0) (s : State) (b : Bay) :
    asks ((startFlags o s).by b).port = asks (s.by b).port ++ posts s o.ctx (.op o.ctx o.seq) (s.portBays o.ctx)
      (outRanges (flagsOp (s.cx o.ctx) o)) (flagsWrites (s.cx o.ctx) o) b := by
  rw [← cleared_portBays o s]
  exact (startFlags_posts hm h0 s).asks b

theorem finish_eq (o : Op) (ports : List Bay) (ws : List Wr) (s : State) : finish o ports ws s =
    awaitFlushes o (flushes ports ws) (issueWrites o.ctx (.op o.ctx o.seq) ports (outRanges o) ws s).1 := rfl

theorem issueWrites_ops (c : Ctx) (w : Owner) (ports : List Bay) (spans : List Range) (ws : List Wr) (s : State) :
    (issueWrites c w ports spans ws s).1.ops = s.ops := by
  rw [issueWrites_rest]
  rfl

theorem flagsRecord_length (x : CtxState) : (flagsRecord x).length = 16 := rfl

section
variable {o : Op} {r s : State} (hm : o.member = false) (h0 : o.status = 0)
include hm

include h0 in
/-- Without a record, or with one in staging, FLAGS completes. -/
theorem startFlags_completes (hk : opClass (iOpc o.word) = some .c) (hopc : o.opc = iOpc o.word)
    (hseq : (s.cx o.ctx).seq = (r.cx o.ctx).seq + 1) (hr : (s.cx o.ctx).rstBusy = false) (hops : ∀ p ∈ s.ops, p ∈ r.ops) (hw : o.wrs = 0)
    (hplace : ∀ x ∈ flagsWrites (s.cx o.ctx) o, x.1 = false) :
    CompletesNow r o.ctx o.word (flagsOp (s.cx o.ctx) o).info (startFlags o s) := by
  have hcx := cleared_cx o s
  rw [startFlags_plain hm]
  by_cases hrec : (iMode o.word).testBit 0 = true
  · rw [if_pos hrec, finish_eq, flushes_of_staging hplace, awaitFlushes_done (by exact hw)]
    refine completesNow_of_complete (o := { flagsOp (s.cx o.ctx) o with stage := .granted }) rfl hk hopc rfl h0 ?_ ?_ fun p hp => ?_
    · rw [cx_of_ctx (releaseUnits_ctx ..), issueWrites_cx, cx_of_ctx (enqueue_ctx ..), hcx, hseq]
    · rw [cx_of_ctx (releaseUnits_ctx ..), issueWrites_cx, cx_of_ctx (enqueue_ctx ..), hcx, hr]
    · rw [releaseUnits_ops, issueWrites_ops, enqueue_ops, List.mem_append, List.mem_singleton] at hp
      rcases hp with hp | rfl
      · exact .inl (hops p hp)
      · exact .inr ⟨rfl, rfl⟩
  · rw [if_neg hrec]
    refine completesNow_of_complete (o := flagsOp (s.cx o.ctx) o) rfl hk hopc rfl h0 ?_ ?_ fun p hp => ?_
    · rw [cx_of_ctx (emitOp_ctx ..), hcx, hseq]
    · rw [cx_of_ctx (emitOp_ctx ..), hcx, hr]
    · exact .inl (hops p (by rwa [emitOp_ops] at hp))

/-- With a record in a window FLAGS waits for its flushes. -/
theorem startFlags_flushes (hside : o.side = false) (hports : s.portBays o.ctx ≠ []) (hrec : (iMode o.word).testBit 0 = true)
    (hloc : (byteRange 16 o.dO).win = true) : ∃ p ∈ (startFlags o s).ops, p.ctx = o.ctx ∧ p.seq = o.seq ∧ p.stage = .flushing ∧
      p.info = (flagsOp (s.cx o.ctx) o).info := by
  have hlines : wrLines (flagsWrites (s.cx o.ctx) o) ≠ [] := by
    rw [flagsWrites, if_pos hrec]
    exact wrLines_ne_nil (List.mem_singleton_self _) hloc (by simp [← List.length_eq_zero_iff, flagsRecord_length])
  have hsome : flushes (s.portBays o.ctx) (flagsWrites (s.cx o.ctx) o) ≠ 0 := fun h => hlines ((flushes_eq_zero hports).1 h)
  have hi : (flagsOp (s.cx o.ctx) o).is o.ctx o.seq = true := by simp [Op.is, Op.under, flagsOp, hside]
  rw [startFlags_plain hm, if_pos hrec, finish_eq, cleared_portBays, awaitFlushes_flushing (Nat.add_pos_right _ (Nat.pos_of_ne_zero hsome)).ne']
  refine ⟨_, List.mem_map.2 ⟨flagsOp (s.cx o.ctx) o, ?_, if_pos hi⟩, rfl, rfl, rfl, rfl⟩
  rw [issueWrites_ops]
  exact enqueue_mem ..

end

end Sys2Proof.Machine

namespace Sys2Proof.Claims

open Sys2Proof Sys2Proof.Machine

/-- The record of FLAGS holds the flags of bay b in byte 4b (R190). -/
theorem flagsRecord_bay (x : CtxState) (b : Bay) :
    ((flagsRecord x).drop (4 * b.val)).take 4 = [BitVec.ofNat 8 (x.sticky.get b).toNat, 0, 0, 0] := by
  fin_cases b <;> rfl

/-- A part of what was written is read back. -/
theorem readN_writeN_part {m : Mem} (hm : m.wf) (a k n : Nat) {l : List Byte} (h : k + n ≤ l.length) :
    (m.writeN a l).readN (a + k) n = (l.drop k).take n := by
  refine List.ext_getElem (by simp [Mem.readN]; omega) fun i hi hj => ?_
  simp only [Mem.readN, List.length_map, List.length_range] at hi
  simp only [Mem.readN, List.getElem_map, List.getElem_range, List.getElem_take, List.getElem_drop, Nat.add_assoc]
  exact read_writeN l hm a (by omega)

/-- A held instruction aside, a FLAGS that stores in a window has a port (R224). -/
theorem flags_port {c : Ctx} {q : QSel} {s : State} {w : Inst} (h : Ready s c q 0x23 w) (hwin : inWindow s c q = false)
    (hrec : (iMode w).testBit 0 = true) (hloc : (descAt s c (iDO w)).loc = true) : s.portBays c ≠ [] := by
  have hhold := h.holds
  rw [memberView_of_not_member hwin, lateHold, Bool.or_eq_false_iff] at hhold
  have hown := hhold.1
  simp only [ownHold, noPort, h.opcode, Bool.or_eq_false_iff] at hown
  intro hnone
  simp [hnone, hrec, hloc] at hown

section
variable {c : Ctx} {q : QSel} {s : State} {w : Inst}

/-- The block that a FLAGS leaves. -/
def flagsLeft (c : Ctx) (q : QSel) (w : Inst) (s : State) : State := startFlags (newOp s c q w) (takeHead c q w s)

theorem newOp_dO_flags (hopc : iOpc w = 0x23) (hrec : (iMode w).testBit 0 = true) : (newOp s c q w).dO = descAt s c (iDO w) := by
  have huse : (useOfInst w).dO = (iMode w).testBit 0 := by
    rw [useOfInst, hopc]
    rfl
  exact if_pos (huse.trans hrec)

/-- What a FLAGS outside a lock window stores. -/
theorem flagsWrites_newOp (hopc : iOpc w = 0x23) : flagsWrites ((takeHead c q w s).cx c) (newOp s c q w) =
    if (iMode w).testBit 0 then
      [((byteRange 16 (descAt s c (iDO w))).win, (byteRange 16 (descAt s c (iDO w))).lo, flagsRecord (s.cx c))] else [] := by
  have hword : (newOp s c q w).word = w := rfl
  have hrecord : flagsRecord ((takeHead c q w s).cx c) = flagsRecord (s.cx c) := by
    rw [flagsRecord, (takeHead_moved c q w s).sticky, flagsRecord]
  rw [flagsWrites, hword, hrecord]
  by_cases hrec : (iMode w).testBit 0 = true
  · rw [if_pos hrec, if_pos hrec, newOp_dO_flags hopc hrec]
  · rw [if_neg hrec, if_neg hrec]

variable (h : Ready s c q 0x23 w) (hwin : inWindow s c q = false)
include h hwin

theorem flags_runs : exec (.flags c q) s = .next (flagsLeft c q w s) := by
  refine congrArg _ ((h.dispatch startFlags rfl).trans ?_)
  rw [memberView_of_not_member hwin]
  rfl

theorem flags_posts : Posts (flagsOp ((takeHead c q w s).cx c) (newOp s c q w))
    (if (iMode w).testBit 0 then
      [((byteRange 16 (descAt s c (iDO w))).win, (byteRange 16 (descAt s c (iDO w))).lo, flagsRecord (s.cx c))] else [])
    (cleared (newOp s c q w) (takeHead c q w s)) (flagsLeft c q w s) := by
  rw [← flagsWrites_newOp h.opcode]
  exact startFlags_posts hwin rfl _

/-- Without a record, or with one in staging, FLAGS completes at its dispatch. -/
theorem flags_completes (hplace : (iMode w).testBit 0 = true → (byteRange 16 (descAt s c (iDO w))).win = false) :
    CompletesNow s c w (Flags.union (s.cx c).sticky.toList).toNat (flagsLeft c q w s) := by
  have hmoved := takeHead_moved c q w s
  rw [← hmoved.sticky]
  refine startFlags_completes (o := newOp s c q w) (r := s) hwin rfl (by rw [show (newOp s c q w).word = w from rfl, h.opcode]; rfl) rfl hmoved.seq
    (canDispatch_takeHead_rstBusy h.runs w) hmoved.ops rfl fun x hx => ?_
  replace hx : x ∈ flagsWrites ((takeHead c q w s).cx c) (newOp s c q w) := hx
  rw [flagsWrites_newOp h.opcode] at hx
  by_cases hrec : (iMode w).testBit 0 = true
  · rw [if_pos hrec, List.mem_singleton] at hx
    rw [hx, hplace hrec]
  · rw [if_neg hrec] at hx
    cases hx

/-- With a record in a window FLAGS waits for its flushes. -/
theorem flags_flushes (hrec : (iMode w).testBit 0 = true) (hloc : (byteRange 16 (descAt s c (iDO w))).win = true) :
    ∃ p ∈ (flagsLeft c q w s).ops, p.ctx = c ∧ p.seq = (s.cx c).seq ∧ p.stage = .flushing ∧
      p.info = (Flags.union (s.cx c).sticky.toList).toNat := by
  have hports : (takeHead c q w s).portBays c ≠ [] := by
    rw [takeHead_portBays]
    exact flags_port h hwin hrec hloc
  rw [← (takeHead_moved c q w s).sticky]
  exact startFlags_flushes (o := newOp s c q w) hwin rfl hports hrec (by rwa [newOp_dO_flags h.opcode hrec])

end

/-- Settles O11: what FLAGS leaves, on the block whose queue has moved on. -/
theorem flagsClear : Obligations.FlagsClear := by
  rintro c q s w r h hwin hmem rfl
  have hposts := flags_posts h hwin
  have hmoved := takeHead_moved c q w s
  have hcx : (cleared (newOp s c q w) (takeHead c q w s)).cx c =
    { (takeHead c q w s).cx c with sticky := ((takeHead c q w s).cx c).sticky.map (·.clear (Flags.ofNat (iImm w))) } :=
    cleared_cx (newOp s c q w) (takeHead c q w s)
  have hown : CtxEnded ((cleared (newOp s c q w) (takeHead c q w s)).cx c) ((flagsLeft c q w s).cx c) := hposts.own
  rw [hcx] at hown
  have hstaging : (flagsLeft c q w s).staging = writesOf s.staging (staged (if (iMode w).testBit 0 then
      [((byteRange 16 (descAt s c (iDO w))).win, (byteRange 16 (descAt s c (iDO w))).lo, flagsRecord (s.cx c))] else [])) := by
    rw [← (takeHead_keeps c q w s).staging]
    exact hposts.staging
  refine ⟨_, flags_runs h hwin, fun b => ?_, ?_, ?_, ?_, fun d hd => ?_, fun a hrec ha b => ?_, fun b hb => ?_, ?_⟩
  · rw [hown, ← hmoved.sticky]
    simp [Flags.clear, Flags.ofNat]
  · rw [hown, ← hmoved.sem]
  · rw [hown, ← hmoved.masks]
  · rw [hown, ← hmoved.seq]
  · exact (hposts.others d hd).trans ((modCtx_cx_ne _ _ _ hd).trans (hmoved.others d hd))
  · obtain ⟨hloc, rfl⟩ : (byteRange 16 (descAt s c (iDO w))).win = false ∧ (byteRange 16 (descAt s c (iDO w))).lo = a := by
      simpa [stagingStore] using ha
    rw [hstaging, if_pos hrec, hloc, ← flagsRecord_bay]
    exact readN_writeN_part hmem.1 _ _ _ (by rw [flagsRecord_length]; omega)
  · rw [hstaging]
    refine foldl_writeN_read_ne _ hmem.1 fun x hx => ?_
    obtain ⟨y, hy, hx⟩ := List.mem_filterMap.1 hx
    by_cases hrec : (iMode w).testBit 0 = true
    · rw [if_pos hrec, List.mem_singleton] at hy
      subst hy
      cases hloc : (byteRange 16 (descAt s c (iDO w))).win with
      | true => simp [hloc] at hx
      | false =>
        obtain rfl : _ = x := by simpa [hloc] using hx
        exact hb _ hrec (by simp [stagingStore, hloc])
    · rw [if_neg hrec] at hy
      cases hy
  · have hasks : ∀ b, asks ((flagsLeft c q w s).by b).port = asks (s.by b).port ++ posts s c (.op c (s.cx c).seq) (s.portBays c)
        (outRanges (flagsOp ((takeHead c q w s).cx c) (newOp s c q w))) (if (iMode w).testBit 0 then
      [((byteRange 16 (descAt s c (iDO w))).win, (byteRange 16 (descAt s c (iDO w))).lo, flagsRecord (s.cx c))] else []) b := fun b => by
      rw [← takeHead_port c q w s b, ← takeHead_portBays c q w s, ← posts_congr (takeHead_keeps c q w s).prot, ← flagsWrites_newOp h.opcode]
      exact startFlags_asks hwin rfl (takeHead c q w s) b
    by_cases hpost : (iMode w).testBit 0 = true ∧ (byteRange 16 (descAt s c (iDO w))).win = true
    · rw [if_pos hpost]
      refine ⟨flags_flushes h hwin hpost.1 hpost.2, fun b => ?_⟩
      have hout : outRanges (flagsOp ((takeHead c q w s).cx c) (newOp s c q w)) = [byteRange 16 (descAt s c (iDO w))] := by
        rw [← newOp_dO_flags (q := q) h.opcode hpost.1]
        exact (outRanges_flags h.opcode).trans (if_pos hpost.1)
      rw [hasks, if_pos hpost.1, hout, hpost.2]
    · rw [if_neg hpost]
      refine ⟨flags_completes h hwin fun hrec => by simpa [hrec] using hpost, fun b => ?_⟩
      rw [hasks, posts_nil _ _ _ _ _ (wrLines_eq_nil fun x hx => ?_), List.append_nil]
      split at hx
      · next hrec =>
        obtain rfl := List.mem_singleton.1 hx
        simpa [hrec] using hpost
      · cases hx

end Sys2Proof.Claims
end

section
/-! Settles the statement about the grants of the SVU and the top-k selector. -/

namespace Sys2Proof.Machine

open Sys2Proof Sys2Proof.Claims

theorem unitBusy_of_free {u : UnitSel} {s : State} (h : unitOf u s = none) : unitBusy u s = false := by
  cases u <;> exact congrArg Option.isSome h

theorem unitOf_congr {u : UnitSel} {s t : State} (hs : t.svu = s.svu) (hk : t.topk = s.topk) : unitOf u t = unitOf u s := by
  cases u
  exacts [hs, hk]

/-- The source of the records of a unit (R166). -/
def unitSource : UnitSel → Nat
  | .svu => 4
  | .topk => 7

/-- With a free unit and an operation that waits for it, the oldest arrival starts. -/
theorem grantUnit_starts {u : UnitSel} {s : State} (hrun : blockRuns s = true) (hhalt : haltReq s = false) (hfree : unitOf u s = none)
    (hsrc : sourceHolds s (unitSource u) = false) (hex : ∃ o ∈ s.ops, waitsFor u s o = true) :
    ∃ o ∈ s.ops, waitsFor u s o = true ∧ (∀ p ∈ s.ops, waitsFor u s p = true → o.tArr ≤ p.tArr) ∧ grantUnit u s = startUnit u o s := by
  obtain ⟨x, hx, hxw⟩ := hex
  have hne : (s.ops.filter fun o => waitsFor u s o && (!haltReq s || windowRuns s o.ctx o.q && o.member)) ≠ [] :=
    List.ne_nil_of_mem (List.mem_filter.2 ⟨hx, by simp [hxw, hhalt]⟩)
  obtain ⟨o, ho, hfirst, hold⟩ := firstArrival_spec s _ hne
  obtain ⟨hmem, hw⟩ := List.mem_filter.1 ho
  rw [Bool.and_eq_true] at hw
  refine ⟨o, hmem, hw.1, fun p hp hpw => hold p (List.mem_filter.2 ⟨hp, by simp [hpw, hhalt]⟩), ?_⟩
  unfold grantUnit
  rw [hrun, unitBusy_of_free hfree]
  cases u
  all_goals
    simp only [unitSource] at hsrc
    simp [hsrc, hfirst]

/-- An operation as its unit takes it (R319). -/
def unitTaken (o : Op) (s : State) : Op :=
  { o with stage := .granted, named := s.curSet o.ctx, tGrant := s.clk, tFirst := s.clk, ran := 0, tDue := s.clk + fcTime s (svuBase o) }

/-- The unit with the operation that it serves. -/
def seatUnit (u : UnitSel) (o : Op) (s : State) : State :=
  match u with
  | .svu => { s with svu := some (o.ctx, o.seq) }
  | .topk => { s with topk := some (o.ctx, o.seq) }

/-- The block in which a unit has taken an operation, its reads not asked for yet. -/
def unitSeated (u : UnitSel) (o : Op) (s : State) : State :=
  emitOp 0x02 o.engine 0 (unitTaken o s) (seatUnit u o (s.modOf o fun _ => unitTaken o s))

theorem startUnit_eq (u : UnitSel) (o : Op) (s : State) : startUnit u o s =
    issueReads (unitTaken o s) (s.portBays o.ctx) (svuReads (unitTaken o s)) (unitSeated u o s) := by
  cases u <;> rfl

theorem seatUnit_keeps (u : UnitSel) (o : Op) (s : State) : Keeps s (seatUnit u o s) := by
  cases u <;> exact Keeps.of_eq rfl rfl rfl rfl rfl

theorem seatUnit_rest (u : UnitSel) (o : Op) (s : State) : (seatUnit u o s).ctx = s.ctx ∧ (seatUnit u o s).ops = s.ops ∧
    unitOf u (seatUnit u o s) = some (o.ctx, o.seq) := by
  cases u <;> exact ⟨rfl, rfl, rfl⟩

theorem issueReads_unit (u : UnitSel) (o : Op) (ports : List Bay) (rs : List Range) (s : State) :
    unitOf u (issueReads o ports rs s) = unitOf u s :=
  unitOf_congr (foldl_eq State.svu (f := fun s (x : Bay × Nat) => issueRd x.1 x.2 _ o.ctx _ s) (fun _ _ => rfl) _ s)
    (foldl_eq State.topk (f := fun s (x : Bay × Nat) => issueRd x.1 x.2 _ o.ctx _ s) (fun _ _ => rfl) _ s)

theorem unitSeated_rest (u : UnitSel) (o : Op) (s : State) : (unitSeated u o s).ctx = s.ctx ∧
    unitOf u (unitSeated u o s) = some (o.ctx, o.seq) ∧ Keeps s (unitSeated u o s) := by
  obtain ⟨hctx, -, hunit⟩ := seatUnit_rest u o (s.modOf o fun _ => unitTaken o s)
  have htrace := emitOp_traced 0x02 o.engine 0 (unitTaken o s) (seatUnit u o (s.modOf o fun _ => unitTaken o s))
  refine ⟨(emitOp_ctx ..).trans hctx, ?_, ((modOf_keeps ..).trans (seatUnit_keeps ..)).trans (emitOp_keeps ..)⟩
  rw [unitSeated, htrace.rest]
  exact (unitOf_congr rfl rfl).trans hunit

theorem unitTaken_mem {o : Op} {s : State} (h : o ∈ s.ops) (u : UnitSel) : unitTaken o s ∈ (unitSeated u o s).ops := by
  have hself : (o.under o.ctx o.seq && o.side == o.side) = true := by simp [Op.under]
  rw [unitSeated, emitOp_ops, (seatUnit_rest ..).2.1]
  exact List.mem_map.2 ⟨o, h, if_pos hself⟩

/-- An operation stays where it is when another one's reads go out; at most its count of reads differs. -/
theorem issueReads_mem {o p : Op} {ports : List Bay} {rs : List Range} {s : State} (h : p ∈ s.ops) :
    ∃ n, { p with rds := n } ∈ (issueReads o ports rs s).ops := by
  have hops := foldl_eq State.ops (fun u (x : Bay × Nat) => issueRd_ops x.1 x.2 (readTier s o x.2) o.ctx (.op o.ctx o.seq) u) (deal ports (rdLines rs)) s
  cases hi : p.is o.ctx o.seq with
  | true => exact issueLines_mem h hi
  | false => exact ⟨p.rds, List.mem_map.2 ⟨p, hops.symm ▸ h, if_neg (by simp [hi])⟩⟩

end Sys2Proof.Machine

namespace Sys2Proof.Claims

open Sys2Proof Sys2Proof.Machine

/-- Settles O23. -/
theorem unitServesOldest : Obligations.UnitServesOldest := by
  intro u s hrun hhalt hfree hsrc hex
  obtain ⟨o, ho, hw, hold, hstart⟩ := grantUnit_starts hrun hhalt hfree hsrc hex
  obtain ⟨hctx, hunit, hkeeps⟩ := unitSeated_rest u o s
  have hk : Keeps s (startUnit u o s) := by
    rw [startUnit_eq]
    exact hkeeps.trans (issueReads_keeps ..)
  refine ⟨_, o, congrArg Host.Outcome.next hstart, ho, hw, hold, ?_, ?_, ?_, hk.staging, sameSetup_of_keeps hk⟩
  · rw [startUnit_eq, issueReads_unit, hunit]
  · obtain ⟨n, hn⟩ := issueReads_mem (o := unitTaken o s) (ports := s.portBays o.ctx) (rs := svuReads (unitTaken o s)) (unitTaken_mem ho u)
    rw [startUnit_eq]
    exact ⟨_, hn, rfl, rfl, rfl⟩
  · rw [startUnit_eq, issueReads, issueLines_ctx, hctx]

end Sys2Proof.Claims
end

section
/-! SUPPORT. Time passes and messages flow. -/

namespace Sys2Proof.Machine

open Sys2Proof Sys2Proof.Claims

/-- Time may have passed and messages may have moved: nothing else happened. -/
structure Flowed (s t : State) : Prop where
  rest : t = { s with clk := t.clk, cnt := t.cnt, damp := t.damp, trace := t.trace, bay := t.bay, ops := t.ops,
                      xch := { s.xch with tOut := t.xch.tOut } }
  bays : ∀ b, t.by b = { s.by b with busyCyc := (t.by b).busyCyc, sel := (t.by b).sel, tbuf := (t.by b).tbuf }
  ops : ∃ n : Op → Nat, t.ops = s.ops.map fun o => { o with left := n o }

theorem Flowed.trans {s t u : State} (h : Flowed s t) (k : Flowed t u) : Flowed s u := by
  obtain ⟨m, hm⟩ := h.ops
  obtain ⟨n, hn⟩ := k.ops
  refine ⟨k.rest.trans (by rw [h.rest]), fun b => (k.bays b).trans (by rw [h.bays b]), fun o => n { o with left := m o }, ?_⟩
  rw [hn, hm, List.map_map]
  rfl

theorem Passed.flowed {s t : State} (h : Passed s t) : Flowed s t :=
  ⟨by rw [h.rest], h.bays, (·.left), (congrArg State.ops h.rest).trans (List.map_id _).symm⟩

/-- A change of what is left of messages alone. -/
theorem map_left {g : Op → Op} (h : ∀ o, g o = { o with left := (g o).left }) (l : List Op) :
    ∃ n : Op → Nat, l.map g = l.map fun o => { o with left := n o } := ⟨fun o => (g o).left, List.map_congr_left fun o _ => h o⟩

theorem settleFlow_flowed (s : State) : Flowed s (settleFlow s) :=
  ⟨rfl, fun _ => rfl, map_left (fun o => by split <;> rfl) s.ops⟩

section
variable {s t : State} (h : Flowed s t)
include h

theorem Flowed.ctx : t.ctx = s.ctx := by rw [h.rest]
theorem Flowed.staging : t.staging = s.staging := by rw [h.rest]
theorem Flowed.ras : t.ras = s.ras := by rw [h.rest]
theorem Flowed.g : t.g = s.g := by rw [h.rest]
theorem Flowed.xch : t.xch = { s.xch with tOut := t.xch.tOut } := congrArg State.xch h.rest
theorem Flowed.setup : SameSetup s t := ⟨by rw [h.rest], by rw [h.rest], by rw [h.rest]⟩
theorem Flowed.port (b : Bay) : (t.by b).port = (s.by b).port := by rw [h.bays b]
theorem Flowed.oos (b : Bay) : (t.by b).oos = (s.by b).oos := by rw [h.bays b]

theorem Flowed.poisonedIn (rs : List Range) : poisonedIn t rs = poisonedIn s rs := by
  rw [Machine.poisonedIn, h.ras, Machine.poisonedIn]

theorem Flowed.portBays (c : Ctx) : t.portBays c = s.portBays c :=
  portBays_congr h.setup (by rw [cx_of_ctx h.ctx]) h.oos

theorem Flowed.opRead (o : Op) : opRead t o = opRead s o := by
  refine opRead_congr rfl rfl ?_ h.staging
  rw [bufferedBytes, cx_of_ctx h.ctx, h.staging, bufferedBytes]

/-- An operation is found again, with what is left of its message. -/
theorem Flowed.op? {c : Ctx} {q : BitVec 8} {o : Op} (ho : s.op? c q = some o) : ∃ n, t.op? c q = some { o with left := n } := by
  obtain ⟨n, hn⟩ := h.ops
  have hsame : s.ops.find? ((·.is c q) ∘ fun o : Op => { o with left := n o }) = some o := ho
  refine ⟨n o, ?_⟩
  rw [State.op?, hn, List.find?_map, hsame]
  rfl

end

/-- The time at which a flow is settled. -/
theorem settledAt_flowed (t : Nat) (s : State) : Flowed s (settleFlow (at' t s)) := (at'_passed t s).flowed.trans (settleFlow_flowed _)

theorem settledAt_clk (t : Nat) (s : State) : (settleFlow (at' t s)).clk = max s.clk t := (settleFlow_still _).clk.trans (at'_clk t s)

theorem Local.xch {s t : State} (h : Local s t) : t.xch = s.xch := by rw [h]

end Sys2Proof.Machine
end

section
/-! Settles the statement about the end of a SEND. -/

namespace Sys2Proof.Claims

open Sys2Proof Sys2Proof.Machine

/-- The block whose message has left on the ring (R182). -/
def sent (o : Op) (s : State) : State :=
  ringSend (.data o.dest o.hdr (messageBytes s o)) (settleFlow (at' (sendDue s o) s))

/-- A SEND with the bytes that it counts (R182). -/
def sentOp (o : Op) : Op := { o with info := o.hdr.count }

theorem messageBytes_congr {s t : State} {o : Op} (h : opRead t o = opRead s o) : messageBytes t o = messageBytes s o := by
  rw [messageBytes, h, messageBytes]

/-- A SEND whose data stands without poison is sent and completes. -/
theorem exec_sendComplete {c : Ctx} {q : BitVec 8} {s : State} {o : Op} (ho : s.op? c q = some o) (hx : o.x = .flowing)
    (hready : opReady s o = true) (hasked : dataAsked o = true) (hclean : poisonedIn s (viewRanges (fmtOf (iFA o.word)) o.da) = none) :
    exec (.sendComplete c q) s = .next (complete (sentOp o) (sent o s)) := by
  have hf := settledAt_flowed (sendDue s o) s
  have hend : endSend o (settleFlow (at' (sendDue s o) s)) = complete (sentOp o) (sent o s) := by
    rw [endSend, hf.poisonedIn, hclean, sent, ← messageBytes_congr (hf.opRead o)]
    rfl
  show execSendComplete c q s = _
  simp [execSendComplete, ho, hx, hready, hasked, hend]

/-- Settles O17: the flow is settled, the bytes of the view leave, and the SEND completes. -/
theorem sendCompletes : Obligations.SendCompletes := by
  intro c q s o ho hopc hx hready hasked h0 hr hclean
  obtain ⟨rfl, rfl, -⟩ := op?_is ho
  have hf := settledAt_flowed (sendDue s o) s
  have hcx : ∀ d, (sent o s).cx d = s.cx d := cx_of_ctx hf.ctx
  have hend : Ends o.ctx (sent o s) (complete (sentOp o) (sent o s)) := complete_ends (o := sentOp o) h0 _
  refine ⟨_, exec_sendComplete ho hx hready hasked hclean, ?_, ?_, ?_, fun hcmp => ?_, ?_, ?_⟩
  · rw [hend.still.clk]
    exact settledAt_clk ..
  · rw [hend.rest.xch]
    show (settleFlow (at' (sendDue s o) s)).xch.out ++ _ = _
    rw [hf.xch]
  · rw [← h0]
    exact complete_endsWith (p := sentOp o) rfl rfl rfl rfl (by rw [hcx, hr]) (by rw [hcx])
  · obtain ⟨t, u, hu⟩ := complete_record (o := sentOp o) (s := sent o s) ((congrArg CtxState.rstBusy (hcx o.ctx)).trans hr) (.inl hcmp)
    exact ⟨_, hu, hopc, if_neg (by simp [sentOp, h0])⟩
  · rw [hend.keeps.staging]
    exact hf.staging
  · have hk := hend.keeps
    obtain ⟨hprot, hbuild, hpending⟩ := hf.setup
    exact ⟨hk.prot.trans hprot, hk.build.trans hbuild, hk.pending.trans hpending⟩

end Sys2Proof.Claims
end

section
/-! Settles the statement about COPY. -/

namespace Sys2Proof.Machine

open Sys2Proof Sys2Proof.Claims

/-- The code of an 8-bit element is its byte. -/
theorem codeAt_byte {f : Fmt} (h : f.width = 8) (rd : Rd) (d : Desc) (i j : Nat) :
    codeAt rd f d i j = (rd d.loc (d.base + (d.vrow0 + i) * d.rstride + (d.vcol0 + j))).toNat := by
  have hlt := (rd d.loc (d.base + (d.vrow0 + i) * d.rstride + (d.vcol0 + j))).isLt
  simp [codeAt, h, rdBytes, ceilDiv', leNat, bitField, Nat.mod_eq_of_lt hlt]

/-- A COPY that neither transposes nor converts stores the codes that it reads (R180). -/
theorem svuOut_copy {o : Op} (h : o.opc = 0x10) (hsame : copyConverts o.word = false) (htrans : (iMode o.word).testBit 0 = false) (s : State) :
    (svuOut s o).fault = none ∧ (svuOut s o).wrs = viewWrites (opRead s o) (fmtOf (iFA o.word)) o.dO
      (grid o.da.vrows o.da.vcols (codeAt (opRead s o) (fmtOf (iFA o.word)) o.da)) := by
  simp only [svuOut, h, copyOut, hsame, htrans]
  exact ⟨rfl, rfl⟩

section
variable {s : State} {o : Op} (hm : o.member = false) (hclean : poisonedIn s (svuReads o) = none) (hwrs : o.wrs = 0)
  (hf : (svuOut (unitDue o s) o).fault = none) (hws : ∀ w ∈ (svuOut (unitDue o s) o).wrs, w.1 = false)
include hm hclean hwrs hf hws

/-- With every output in staging and no flush to wait for an operation of a unit completes at once. -/
theorem unitDone_releases : unitDone o s = release (unitRecord o (svuOut (unitDue o s) o)) (unitPosted o (svuOut (unitDue o s) o) (unitDue o s)) := by
  rw [unitDone_of_clean hclean, endUnit_of_writes hf hm, flushes_of_staging hws, awaitFlushes_done (by exact hwrs)]

theorem unitDone_endsWith (h0 : o.status = 0) (hr : (s.cx o.ctx).rstBusy = false) : EndsWith s o 0 (unitDone o s) := by
  obtain ⟨f, k, m, hcx⟩ := unitNoted_cx o (svuOut (unitDue o s) o) (unitDue o s)
  rw [unitDone_releases hm hclean hwrs hf hws]
  refine release_endsWith (p := unitRecord o _) rfl rfl rfl rfl h0 ?_
  rw [cx_of_ctx (unitPosted_ctx ..), hcx, cx_of_ctx (unitDue_passed o s).ctx, hr]

theorem unitDone_staging : (unitDone o s).staging = writesOf s.staging ((svuOut (unitDue o s) o).wrs.map (·.2)) := by
  rw [unitDone_releases hm hclean hwrs hf hws, (release_starts ..).staging, unitPosted_staging, staged_of_staging hws,
    (unitDue_passed o s).lapsed.staging]

end

theorem copyConverts_of_same {w : Inst} (h : iFA w = iFO w) : copyConverts w = false := by simp [copyConverts, h]

end Sys2Proof.Machine

namespace Sys2Proof.Claims

open Sys2Proof Sys2Proof.Machine

/-- Settles O25: the grid of bytes that a COPY reads is the one that it stores. -/
theorem copyMovesEveryElement : Obligations.CopyMovesEveryElement := by
  intro c q s o ho hopc hready hwrs h0 hm hr hfmt hwidth htrans hA hO hrows hcols htile hstride hclean hok
  obtain ⟨rfl, rfl, -⟩ := op?_is ho
  have hsame : copyConverts o.word = false := copyConverts_of_same hfmt
  obtain ⟨hf, hwr⟩ := svuOut_copy hopc hsame htrans (unitDue o s)
  have hws : ∀ w ∈ (svuOut (unitDue o s) o).wrs, w.1 = false := by
    rw [hwr]
    exact fun w hw => (viewWrites_loc hw).trans hO
  have hunit : unitReady .s s o = true := unitReady_iff.2 ⟨hready, by rw [hopc]; rfl, .inr (by simp [portless, outRanges, hopc, hsame, viewSpan, hO])⟩
  refine ⟨_, exec_svuOpComplete ho hunit (by omega) (ofLehr_of_lt (by omega)), unitDone_endsWith hm hclean hwrs hf hws h0 hr, fun i j hi hj => ?_⟩
  have hcode := codeIn_grid (by rw [hwidth]) hok.1 (opRead (unitDue o s) o) o.dO (codeAt (opRead (unitDue o s) o) (fmtOf (iFA o.word)) o.da)
    (.inr (by rw [hwidth]; omega)) hi hj
  rw [← hwr, ← unitDone_staging hm hclean hwrs hf hws, codeIn, codeAt_byte hwidth, codeAt_byte hwidth, hwidth, hA, opRead_unitDue,
    Nat.mod_eq_of_lt (BitVec.isLt _)] at hcode
  rw [BitVec.eq_of_toNat_eq hcode]
  simp [opRead, hm]

end Sys2Proof.Claims
end

section
/-! SUPPORT. ATOMADDs that go on: what has ended stays so, and face tags stay. -/

namespace Sys2Proof.Machine

open Sys2Proof Sys2Proof.Claims

/-- The tags of all faces are the same. -/
structure SameTags (s t : State) : Prop where
  tag : ∀ b, (t.by b).tag = (s.by b).tag

theorem SameTags.refl (s : State) : SameTags s s := ⟨fun _ => rfl⟩

theorem SameTags.trans {s t u : State} (h : SameTags s t) (k : SameTags t u) : SameTags s u := ⟨fun b => (k.tag b).trans (h.tag b)⟩

theorem SameTags.of_bay {s t : State} (h : t.bay = s.bay) : SameTags s t := ⟨fun b => by rw [by_of_bay h]⟩

theorem SameTags.foldl {α : Type} {f : State → α → State} (h : ∀ s x, SameTags s (f s x)) (l : List α) (s : State) :
    SameTags s (l.foldl f s) := by
  induction l generalizing s with
  | nil => exact SameTags.refl s
  | cons x l ih => exact (h s x).trans (ih _)

theorem BaysKept.sameTags {s t : State} (h : BaysKept s t) : SameTags s t := ⟨fun b => (h.bays b).tag⟩

theorem releaseUnits_sameTags (o : Op) (s : State) : SameTags s (releaseUnits o s) := ⟨fun b => (releaseUnits_joints o s b).1⟩

theorem release_sameTags (o : Op) (s : State) : SameTags s (release o s) := ⟨fun b => (release_joints o s b).1⟩

theorem holdFailed_sameTags (o : Op) (s : State) : SameTags s (holdFailed o s) := by
  unfold holdFailed
  dsimp only
  split
  · exact (releaseUnits_sameTags o s).trans (.of_bay rfl)
  · exact .of_bay rfl

theorem failOp_sameTags (o : Op) (code : Nat) (s : State) : SameTags s (failOp o code s) := by
  unfold failOp
  dsimp only
  split
  · exact (releaseUnits_sameTags ..).trans (complete_baysKept ..).sameTags
  · exact holdFailed_sameTags ..

theorem issueWrReq_sameTags (b : Bay) (r : WrReq) (s : State) : SameTags s (issueWrReq b r s) := by
  refine ⟨fun d => ?_⟩
  rw [issueWrReq, modBay_by_cases]
  split
  · next h => rw [h]
  · rfl

theorem issueAdds_sameTags (c : Ctx) (seq : BitVec 8) (ports : List Bay) (spans : List Range) (w : List (Nat × Word)) (s : State) :
    SameTags s (issueAdds c seq ports spans w s) :=
  (SameTags.foldl (f := fun u (x : AddLine) => issueWrReq x.1 _ u) (fun _ _ => issueWrReq_sameTags ..) _ s).trans (.of_bay rfl)

theorem atomGo_sameTags (o : Op) (s : State) : SameTags s (atomGo o s) := by
  unfold atomGo
  dsimp only
  split
  · exact (report_baysKept ..).sameTags.trans (failOp_sameTags ..)
  · split
    · refine SameTags.trans ?_ (complete_baysKept ..).sameTags
      exact .of_bay rfl
    · refine SameTags.trans ?_ (issueAdds_sameTags ..)
      exact .of_bay rfl

theorem resumeAtoms_sameTags (s : State) : SameTags s (resumeAtoms s) := SameTags.foldl (fun s o => atomGo_sameTags o s) _ s

theorem issueWrReq_outlives (b : Bay) (r : WrReq) (s : State) : Outlives s (issueWrReq b r s) := by
  unfold issueWrReq
  exact modBay_outlives s b fun _ h => h

theorem issueAdds_outlives (c : Ctx) (seq : BitVec 8) (ports : List Bay) (spans : List Range) (w : List (Nat × Word)) (s : State) :
    Outlives s (issueAdds c seq ports spans w s) :=
  (Outlives.foldl (f := fun u (x : AddLine) => issueWrReq x.1 _ u) (fun _ _ => issueWrReq_outlives ..) _ s).trans
    (modOp_outlives _ fun _ hc hq => ⟨hc, hq⟩)

theorem atomGo_outlives (o : Op) (s : State) : Outlives s (atomGo o s) := by
  unfold atomGo
  dsimp only
  split
  · exact (report_outlives ..).trans (failOp_outlives ..)
  · split
    · refine Outlives.trans ?_ (complete_outlives ..)
      unfold pushBuf
      exact modCtx_outlives s o.ctx (fun _ => rfl) fun _ h => h
    · refine Outlives.trans ?_ (issueAdds_outlives ..)
      exact modOp_outlives s fun _ hc hq => ⟨hc, hq⟩

theorem resumeAtoms_outlives (s : State) : Outlives s (resumeAtoms s) := Outlives.foldl (fun s o => atomGo_outlives o s) _ s

end Sys2Proof.Machine
end

section
/-! Settles the statement about SCRUB. -/

namespace Sys2Proof.Machine

open Sys2Proof Sys2Proof.Claims

/-! ### Slices of staging -/

/-- Staging with the slices of some bays zeroed (R192). -/
def zeroSlices (bs : List Bay) (m : Mem) : Mem := bs.foldl (fun m b => m.zero (b.val * sliceBytes) sliceBytes) m

theorem zero_bg {m : Mem} (h : m.bg = none) (a n : Nat) : (m.zero a n).bg = none := by
  unfold Mem.zero
  rw [h]

theorem zeroSlices_read {m : Mem} (hbg : m.bg = none) (hm : m.wf) (bs : List Bay) (a : Nat) :
    (zeroSlices bs m).read a = if ∃ b ∈ bs, a / sliceBytes = b.val then 0 else m.read a := by
  induction bs generalizing m with
  | nil => simp [zeroSlices]
  | cons b bs ih =>
    have hin : (b.val * sliceBytes ≤ a ∧ a < b.val * sliceBytes + sliceBytes) ↔ a / sliceBytes = b.val := by
      rw [sliceBytes]
      omega
    have hstep := ih (zero_bg hbg (b.val * sliceBytes) sliceBytes) (Mem.zero_wf (b.val * sliceBytes) sliceBytes hm)
    rw [Mem.read_zero_bg hbg hm, if_congr hin rfl rfl] at hstep
    rw [show zeroSlices (b :: bs) m = zeroSlices bs (m.zero (b.val * sliceBytes) sliceBytes) from rfl, hstep]
    by_cases hb : a / sliceBytes = b.val
    · simp [hb]
    · simp [hb]

/-! ### Bays -/

/-- A bay that is scrubbed (R192). -/
def BayState.scrubbed (x : BayState) : BayState := { x.modBanks (fun k => { k with mem := {} }) with tag := none }

theorem sameContents_scrubbed {x y : BayState} (h : SameContents x y) : SameContents x.scrubbed y.scrubbed :=
  ⟨rfl, h.face, h.recs, by simp [BayState.scrubbed, BayState.modBanks, h.bank0], by simp [BayState.scrubbed, BayState.modBanks, h.bank1], h.fill1,
    h.port⟩

theorem scrubBay_by (s : State) (b d : Bay) : (scrubBay s b).by d = if d = b then (s.by d).scrubbed else s.by d := by
  rw [scrubBay, modBay_by_cases]
  split
  · next h =>
    subst h
    rfl
  · rfl

theorem scrubBays_by (bs : List Bay) (s : State) (d : Bay) :
    (bs.foldl scrubBay s).by d = if d ∈ bs then (s.by d).scrubbed else s.by d := by
  induction bs generalizing s with
  | nil => simp
  | cons b bs ih =>
    rw [List.foldl_cons, ih, scrubBay_by]
    by_cases hb : d = b
    · subst hb
      by_cases hd : d ∈ bs <;> simp [hd, BayState.scrubbed, BayState.modBanks]
    · by_cases hd : d ∈ bs <;> simp [hd, hb]

theorem scrubBays_staging (bs : List Bay) (s : State) : (bs.foldl scrubBay s).staging = zeroSlices bs s.staging := by
  induction bs generalizing s with
  | nil => rfl
  | cons b bs ih => exact ih (scrubBay s b)

theorem mem_scrubbed {m : BitVec 4} {b : Bay} : b ∈ maskBays m ↔ m.getLsb b = true := by
  simp [maskBays, allBays]

/-! ### The end of a SCRUB -/

/-- The block whose bays a SCRUB has zeroed (R192). -/
def scrubbedBays (o : Op) (s : State) : State := (maskBays (iBays o.word)).foldl scrubBay (at' (phaseEnd s o 17500) s)

/-- The same with the bays idle from now on (R245). -/
def scrubIdle (o : Op) (s : State) : State :=
  (scrubbedBays o s).modBays (maskBays (iBays o.word)) fun _ x =>
    { x with idleAt := (scrubbedBays o s).clk, backRan := (scrubbedBays o s).damp.ran }

theorem endScrub_eq (o : Op) (s : State) : endScrub o s = resumeAtoms (release o (scrubIdle o s)) := rfl

theorem scrubBays_rest (bs : List Bay) (s : State) : SameSetup s (bs.foldl scrubBay s) ∧ (bs.foldl scrubBay s).clk = s.clk ∧
    ∀ c, ((bs.foldl scrubBay s).cx c).rstBusy = (s.cx c).rstBusy := by
  induction bs generalizing s with
  | nil => exact ⟨SameSetup.refl s, rfl, fun _ => rfl⟩
  | cons b bs ih =>
    obtain ⟨hset, hclk, hrst⟩ := ih (scrubBay s b)
    have hstep : SameSetup s (scrubBay s b) := ⟨rfl, rfl, rfl⟩
    refine ⟨SameSetup.trans hstep hset, hclk, fun c => (hrst c).trans ?_⟩
    have hcx : (scrubBay s b).cx c = _ := vget_map _ s.ctx c
    rw [hcx]
    rfl

section
variable (o : Op) (s : State)

theorem scrubIdle_kept : BaysKept (scrubbedBays o s) (scrubIdle o s) := modBays_baysKept _ _ fun _ _ => ⟨rfl, rfl, rfl, rfl, rfl, rfl, rfl⟩

theorem scrubIdle_starts : Starts (scrubbedBays o s) (scrubIdle o s) := modBays_starts _ _ fun _ _ => rfl

/-- What a SCRUB leaves of the rest of the block when it completes. -/
theorem scrubIdle_rest : SameSetup s (scrubIdle o s) ∧ (scrubIdle o s).clk = max s.clk (phaseEnd s o 17500) ∧
    ((scrubIdle o s).cx o.ctx).rstBusy = (s.cx o.ctx).rstBusy ∧ (scrubIdle o s).staging = zeroSlices (maskBays (iBays o.word)) s.staging := by
  have hp := at'_passed (phaseEnd s o 17500) s
  have hidle := scrubIdle_starts o s
  obtain ⟨hset, hclk, hrst⟩ := scrubBays_rest (maskBays (iBays o.word)) (at' (phaseEnd s o 17500) s)
  refine ⟨SameSetup.trans hp.lapsed.sameSetup (SameSetup.trans hset hidle.setup), hidle.still.clk.trans (hclk.trans (at'_clk ..)), ?_, ?_⟩
  · rw [scrubIdle, cx_of_ctx (modBays_ctx ..)]
    exact (hrst o.ctx).trans (by rw [cx_of_ctx (at'_ctx ..)])
  · rw [hidle.staging, scrubbedBays, scrubBays_staging, hp.lapsed.staging]

/-- A bay when a SCRUB completes: zeroed, or with the contents that it had. -/
theorem scrubIdle_bay (b : Bay) : SameContents (if (iBays o.word).getLsb b then (s.by b).scrubbed else s.by b) ((scrubIdle o s).by b) := by
  refine SameContents.trans ?_ ((scrubIdle_kept o s).bays b)
  have hp := (at'_passed (phaseEnd s o 17500) s).baysKept.bays b
  rw [scrubbedBays, scrubBays_by, if_congr mem_scrubbed rfl rfl]
  split
  exacts [sameContents_scrubbed hp, hp]

/-- What the end of a SCRUB leaves beside its record: the block whose bays it has zeroed. -/
theorem endScrub_leaves : Keeps (scrubIdle o s) (endScrub o s) ∧ SameTags (scrubIdle o s) (endScrub o s) ∧
    (endScrub o s).clk = (scrubIdle o s).clk := by
  have hq := (Quiet.trans ((releaseUnits_quiet o (scrubIdle o s)).trans (complete_quiet ..)) (resumeAtoms_quiet (release o (scrubIdle o s))))
  exact ⟨hq.keeps, (release_sameTags ..).trans (resumeAtoms_sameTags _), hq.clk⟩

theorem endScrub_endsWith (h0 : o.status = 0) (hr : (s.cx o.ctx).rstBusy = false) (hopc : o.opc = 0x22) : EndsWith s o 0 (endScrub o s) := by
  have hrst : ((scrubIdle o s).cx o.ctx).rstBusy = false := (scrubIdle_rest o s).2.2.1.trans hr
  refine endsWith_outlives (release_endsWith rfl rfl rfl rfl h0 hrst) (fun hk => ?_) (resumeAtoms_outlives _)
  obtain ⟨t, u, hu⟩ := complete_record (o := o) (s := releaseUnits o (scrubIdle o s)) (by rw [cx_of_ctx (releaseUnits_ctx ..), hrst])
    (.inl (hk.resolve_right fun h => h rfl))
  exact ⟨_, hu, by simp [Op.toRec, hopc, opClass], rfl, h0⟩

end

end Sys2Proof.Machine

namespace Sys2Proof.Claims

open Sys2Proof Sys2Proof.Machine

theorem exec_scrub {c : Ctx} {q : BitVec 8} {s : State} {o : Op} (ho : s.op? c q = some o) (hopc : o.opc = 0x22) (hready : opReady s o = true) :
    exec (.svuOpComplete c q) s = .next (endScrub o s) := by
  have hcls : opClass o.opc = some .s := by rw [hopc]; rfl
  have hunit : unitReady .s s o = true := unitReady_iff.2 ⟨hready, hcls, .inr (by simp [portless, outRanges, hopc])⟩
  show execSvuOpComplete c q s = _
  simp [execSvuOpComplete, opIn_of_class ho hcls, hunit, hopc]

/-- Settles O26: the slices are zeroed first; the ATOMADDs that go on then touch neither staging nor banks. -/
theorem scrubZeroesItsBays : Obligations.ScrubZeroesItsBays := by
  intro c q s o ho hopc hready h0 hr hbg hok
  obtain ⟨rfl, rfl, -⟩ := op?_is ho
  obtain ⟨hset, hclk, -, hstaging⟩ := scrubIdle_rest o s
  obtain ⟨hkeeps, htags, hclk'⟩ := endScrub_leaves o s
  have hread : ∀ a, (endScrub o s).staging.read a = if ∃ b ∈ maskBays (iBays o.word), a / 2 ^ 24 = b.val then 0 else s.staging.read a := by
    rw [hkeeps.staging, hstaging]
    exact zeroSlices_read hbg hok.1 _
  refine ⟨_, exec_scrub ho hopc hready, hclk'.trans hclk, endScrub_endsWith o s h0 hr hopc, SameSetup.trans hset (sameSetup_of_keeps hkeeps), fun b => ?_⟩
  have hbay := scrubIdle_bay o s b
  obtain ⟨hbank0, hbank1⟩ := hkeeps.banks b
  by_cases hb : (iBays o.word).getLsb b = true
  · rw [if_pos hb] at hbay ⊢
    refine ⟨fun a ha => ?_, fun a => ?_, ?_⟩
    · rw [hread, if_pos ⟨b, mem_scrubbed.2 hb, ha⟩]
    · rw [hbank0, hbank1, hbay.bank0, hbay.bank1]
      exact ⟨rfl, rfl⟩
    · rw [htags.tag, hbay.tag, BayState.scrubbed]
  · rw [if_neg hb] at hbay ⊢
    refine ⟨fun a ha => ?_, ?_, ?_, ?_⟩
    · have hout : ¬∃ d ∈ maskBays (iBays o.word), a / 2 ^ 24 = d.val := by
        rintro ⟨d, hd, hda⟩
        exact hb (Fin.ext (ha.symm.trans hda) ▸ mem_scrubbed.1 hd)
      rw [hread, if_neg hout]
    · rw [hbank0, hbay.bank0]
    · rw [hbank1, hbay.bank1]
    · rw [htags.tag, hbay.tag]

end Sys2Proof.Claims
end

section
/-! SUPPORT. The fc that are still to run are the same when time has only passed. -/

namespace Sys2Proof.Machine

open Sys2Proof Sys2Proof.Claims

/-- The fc of the window, by which phases are counted, are the same (R245). -/
structure SamePace (s t : State) : Prop where
  g : t.g = s.g
  duty : t.damp.n = s.damp.n
  base : t.damp.fcBase = s.damp.fcBase
  start : t.damp.fcFrom = s.damp.fcFrom

theorem SamePace.trans {s t u : State} (h : SamePace s t) (k : SamePace t u) : SamePace s u :=
  ⟨k.g.trans h.g, k.duty.trans h.duty, k.base.trans h.base, k.start.trans h.start⟩

theorem Traced.samePace {s t : State} (h : Traced s t) : SamePace s t := by
  rw [h.rest]
  exact ⟨rfl, rfl, rfl, rfl⟩

theorem advanceTo_samePace (t : Nat) (s : State) : SamePace s (advanceTo t s) := by
  unfold advanceTo
  split
  · exact ⟨rfl, rfl, rfl, rfl⟩
  · have hpass : SamePace (noteStalls s) (passTo t (noteStalls s)) := ⟨rfl, rfl, rfl, rfl⟩
    exact (noteStalls_traced s).samePace.trans hpass

theorem at'_samePace (t : Nat) (s : State) : SamePace s (at' t s) := (advanceTo_samePace ..).trans (advanceTo_samePace ..)

theorem SamePace.fcLen {s t : State} (h : SamePace s t) : Machine.fcLen t = Machine.fcLen s := by rw [Machine.fcLen, h.g, Machine.fcLen]

theorem SamePace.fcAfter {s t : State} (h : SamePace s t) (a k : Nat) : Machine.fcAfter t a k = Machine.fcAfter s a k := by
  simp only [Machine.fcAfter, fcIndex, Machine.duty, h.fcLen, h.duty, h.base, h.start]

theorem SamePace.phaseEnd {s t : State} (h : SamePace s t) (o : Op) (k : Nat) : Machine.phaseEnd t o k = Machine.phaseEnd s o k := by
  rw [Machine.phaseEnd, h.fcAfter, Machine.phaseEnd]

/-- More fc run later. -/
theorem fcAfter_mono (s : State) (a : Nat) {j k : Nat} (h : j ≤ k) : fcAfter s a j ≤ fcAfter s a k := by
  rcases Nat.eq_zero_or_pos j with rfl | hj
  · rw [fcAfter, if_pos (by rfl), fcAfter]
    split
    · exact Nat.le_refl a
    · exact Nat.le_add_right ..
  · have hk : 0 < k := by omega
    rw [fcAfter, if_neg (by simp; omega), fcAfter, if_neg (by simp; omega)]
    refine Nat.add_le_add_left (Nat.mul_le_mul_right _ (Nat.sub_le_sub_right (Nat.add_le_add_right ?_ 1) _)) a
    exact Nat.div_le_div_right (Nat.mul_le_mul_left 64 (by omega))

theorem phaseEnd_mono (s : State) (o : Op) {j k : Nat} (h : j ≤ k) : phaseEnd s o j ≤ phaseEnd s o k :=
  fcAfter_mono s o.tFirst (Nat.sub_le_sub_right h _)

theorem ceilDiv'_mono {a b : Nat} (h : a ≤ b) (n : Nat) : ceilDiv' a n ≤ ceilDiv' b n :=
  Nat.div_le_div_right (Nat.sub_le_sub_right (Nat.add_le_add_right h n) 1)

end Sys2Proof.Machine
end

section
/-! Settles the statement about the end of a RECV. -/

namespace Sys2Proof.Machine

open Sys2Proof Sys2Proof.Claims

/-! ### The writes of a message -/

theorem messageWrites_loc {rd : Rd} {f : Fmt} {d : Desc} {data : List Byte} {w : Wr} (h : w ∈ messageWrites rd f d data) : w.1 = d.loc := by
  obtain ⟨i, -, hi⟩ := List.mem_filterMap.1 h
  dsimp only at hi
  split at hi
  · cases hi
  · split at hi
    · obtain rfl := Option.some.inj hi
      rfl
    · obtain rfl := Option.some.inj hi
      simp only [rowWrite]
      split <;> rfl

/-- The address of row `i` of a view of bytes. -/
def byteRow (d : Desc) (i : Nat) : Nat := d.base + (d.vrow0 + i) * d.rstride + d.vcol0

/-- The part of a message that goes to row `i` of a view of bytes (R210). -/
def messageRow (d : Desc) (data : List Byte) (i : Nat) : Nat × List Byte := (byteRow d i, (data.drop (i * d.vcols)).take d.vcols)

/-- Empty writes change nothing. -/
theorem writesOf_skip_empty (g : Nat → Nat × List Byte) (l : List Nat) (m : Mem) :
    writesOf m (l.filterMap fun i => if (g i).2.isEmpty then none else some (g i)) = writesOf m (l.map g) := by
  induction l generalizing m with
  | nil => rfl
  | cons i l ih =>
    rw [List.map_cons]
    cases hempty : (g i).2 with
    | nil =>
      have hsame : m.writeN (g i).1 (g i).2 = m := by
        rw [hempty]
        rfl
      rw [List.filterMap_cons_none (by simp [hempty]), ih]
      exact congrArg (writesOf · _) hsame.symm
    | cons x xs =>
      rw [List.filterMap_cons_some (b := g i) (by simp [hempty])]
      exact ih _

/-- A message of bytes in a view in staging is written row by row (R212). -/
theorem messageWrites_bytes {f : Fmt} (h : f.width = 8) (rd : Rd) (d : Desc) (data : List Byte) (m : Mem) :
    writesOf m ((messageWrites rd f d data).map (·.2)) = writesOf m ((List.range d.vrows).map (messageRow d data)) := by
  have hrow : rowBytes f d.vcols = d.vcols := by simp [rowBytes, h]
  rw [← writesOf_skip_empty]
  refine congrArg (writesOf m) ?_
  rw [messageWrites, hrow, List.map_filterMap]
  refine List.filterMap_congr fun i _ => ?_
  simp only [h]
  by_cases hpart : ((data.drop (i * d.vcols)).take d.vcols).isEmpty = true
  · have hrow' : (messageRow d data i).2.isEmpty = true := hpart
    rw [if_pos hpart, if_pos hrow']
    rfl
  · have hrow' : ¬(messageRow d data i).2.isEmpty = true := hpart
    rw [if_neg hpart, if_neg hrow', if_pos (by rfl)]
    simp [messageRow, byteRow]

section
variable {d : Desc} {data : List Byte} {m : Mem} (hm : m.wf)
include hm

/-- Every byte of the message is read back at its place. -/
theorem read_messageRows (hfit : data.length ≤ d.vrows * d.vcols) (hstride : d.vcols ≤ d.rstride) {i j : Nat} (hj : j < d.vcols)
    (hin : i * d.vcols + j < data.length) :
    data[i * d.vcols + j]? = some ((writesOf m ((List.range d.vrows).map (messageRow d data))).read (byteRow d i + j)) := by
  have hi : i < d.vrows := by
    by_contra hge
    have := Nat.mul_le_mul_right d.vcols (Nat.le_of_not_lt hge)
    omega
  have hw := read_writesOf hm (ws := (List.range d.vrows).map (messageRow d data)) (i := i) (k := j) (by simpa using hi)
    (by simp [messageRow]; omega) fun i' hi' hlt => ?_
  · simp only [List.getElem_map, List.getElem_range, messageRow, List.getElem_take, List.getElem_drop] at hw
    rw [show (writesOf m ((List.range d.vrows).map (messageRow d data))).read (byteRow d i + j) = _ from hw]
    exact List.getElem?_eq_getElem hin
  · have hrow : (d.vrow0 + i + 1) * d.rstride ≤ (d.vrow0 + i') * d.rstride := Nat.mul_le_mul_right _ (by omega)
    have hone : (d.vrow0 + i + 1) * d.rstride = (d.vrow0 + i) * d.rstride + d.rstride := Nat.succ_mul ..
    simp only [List.getElem_map, List.getElem_range, messageRow, byteRow]
    omega

/-- Bytes outside the message are as before. -/
theorem read_messageRows_ne {a : Nat} (ha : ∀ i j, j < d.vcols → i * d.vcols + j < data.length → a ≠ byteRow d i + j) :
    (writesOf m ((List.range d.vrows).map (messageRow d data))).read a = m.read a := by
  refine foldl_writeN_read_ne _ hm fun w hw => ?_
  obtain ⟨i, -, rfl⟩ := List.mem_map.1 hw
  by_contra hin
  simp only [messageRow, List.length_take, List.length_drop] at hin
  exact ha i (a - byteRow d i) (by omega) (by omega) (by omega)

end

/-! ### The step -/

theorem firstBurst_flowed (o : Op) (h : MsgHeader) (n : Nat) (s : State) : Flowed s (firstBurst o h n s) :=
  (at'_passed ..).flowed.trans (emitUnit_traced ..).passed.flowed

theorem firstBurst_samePace (o : Op) (h : MsgHeader) (n : Nat) (s : State) : SamePace s (firstBurst o h n s) :=
  (at'_samePace ..).trans (emitUnit_traced ..).samePace

/-- The first burst of a message leaves flows as they are, and its time. -/
theorem firstBurst_rest (o : Op) (h : MsgHeader) (n : Nat) (s : State) : (firstBurst o h n s).ops = s.ops ∧
    (firstBurst o h n s).xch = s.xch ∧
    (firstBurst o h n s).clk = max s.clk (phaseEnd s o (ceilDiv' (min 4096 n) (recvRate s o))) := by
  have hp : Passed s (firstBurst o h n s) := (at'_passed ..).trans (emitUnit_traced ..).passed
  exact ⟨by rw [hp.rest], by rw [hp.rest], (emitUnit_traced ..).still.clk.trans (at'_clk ..)⟩

theorem recvRate_congr {s t : State} (h : Flowed s t) (o : Op) : recvRate t o = recvRate s o := by
  rw [recvRate, opPorts, h.portBays, recvRate, opPorts]

/-- A RECV is due when it was, after the first burst of its message. -/
theorem recvDue_firstBurst (o : Op) (h : MsgHeader) (n k : Nat) (s : State) : recvDue (firstBurst o h n s) o k = recvDue s o k := by
  obtain ⟨hops, hxch, -⟩ := firstBurst_rest o h n s
  have hpace := firstBurst_samePace o h n s
  rw [recvDue, hpace.fcAfter, hpace.phaseEnd, recvRate_congr (firstBurst_flowed o h n s), hxch, inbound, hops]
  rfl

/-- The first burst is no later than the whole message. -/
theorem burst_le_recvDue (o : Op) (n : Nat) (s : State) : phaseEnd s o (ceilDiv' (min 4096 n) (recvRate s o)) ≤ recvDue s o n :=
  (phaseEnd_mono s o (ceilDiv'_mono (Nat.min_le_right ..) _)).trans (Nat.le_max_right ..)

/-- The block when the last byte of a message has come. -/
def received (o : Op) (h : MsgHeader) (n : Nat) (s : State) : State :=
  settleFlow (at' (recvDue (firstBurst o h n s) o h.count) (firstBurst o h n s))

theorem received_flowed (o : Op) (h : MsgHeader) (n : Nat) (s : State) : Flowed s (received o h n s) :=
  (firstBurst_flowed o h n s).trans (settledAt_flowed ..)

theorem received_clk {o : Op} {h : MsgHeader} {n : Nat} (hn : n = h.count) (s : State) :
    (received o h n s).clk = max s.clk (recvDue s o h.count) := by
  have hle := burst_le_recvDue o n s
  rw [received, settledAt_clk, recvDue_firstBurst, (firstBurst_rest o h n s).2.2]
  rw [hn] at hle ⊢
  omega

/-- A RECV with the bytes that it counts (R182). -/
def recvOp (o : Op) (h : MsgHeader) : Op := { o with info := h.count }

theorem endRecv_eq (o : Op) (h : MsgHeader) (data : List Byte) (s : State) : endRecv o h data s =
    finish (recvOp o h) (s.portBays o.ctx) (messageWrites (opRead s o) (fmtOf (iFO o.word)) o.dO data) (received o h data.length s) := by
  have hf := received_flowed o h data.length s
  rw [← hf.opRead, ← hf.portBays]
  rfl

theorem flushes_of_no_lines {ws : List Wr} (h : wrLines ws = []) (ports : List Bay) : flushes ports ws = 0 := by
  simp [flushes, h, deal, usedPorts]

section
variable {o : Op} (h0 : o.status = 0) (ports : List Bay) (ws : List Wr) (s : State)
include h0

/-- Time and set-up are the same when the writes of an operation have gone out. -/
theorem finish_rest : (finish o ports ws s).clk = s.clk ∧ SameSetup s (finish o ports ws s) := by
  have hset := finish_settles h0 ports ws s
  have hposted := issueWrites_sound o.ctx (.op o.ctx o.seq) ports (outRanges o) ws s
  exact ⟨hset.still.clk.trans (issueWrites_still ..).clk,
    SameSetup.trans ⟨hposted.prot, hposted.build, hposted.pending⟩ (sameSetup_of_keeps hset.keeps)⟩

/-- An operation that has nothing to wait for ends. -/
theorem finish_ends {ports : List Bay} {ws : List Wr} {s : State} (hwrs : o.wrs = 0) (hnone : flushes ports ws = 0)
    (hr : (s.cx o.ctx).rstBusy = false) (r : State) : EndsWith r o 0 (finish o ports ws s) ∧
      (o.cmp = true → ∃ x ∈ ((finish o ports ws s).cx o.ctx).recs, x.opc = o.opc ∧ x.status = 0 ∧ x.info = o.info) := by
  have hrst : ((issueWrites o.ctx (.op o.ctx o.seq) ports (outRanges o) ws s).1.cx o.ctx).rstBusy = false := by rw [issueWrites_cx, hr]
  rw [finish_eq, hnone, awaitFlushes_done (by exact hwrs)]
  refine ⟨release_endsWith rfl rfl rfl rfl h0 hrst, fun hcmp => ?_⟩
  obtain ⟨t, u, hu⟩ := complete_record (o := o) (s := releaseUnits o _) (by rw [cx_of_ctx (releaseUnits_ctx ..), hrst]) (.inl hcmp)
  exact ⟨_, hu, rfl, h0, if_neg (by simp [h0])⟩

omit h0 in
/-- An operation whose writes need flushes waits for them. -/
theorem finish_flushing {ports : List Bay} {ws : List Wr} {s : State} {p : Op} (hp : s.op? o.ctx o.seq = some p) (hsome : flushes ports ws ≠ 0) :
    { o with stage := .flushing, wrs := o.wrs + flushes ports ws } ∈ (finish o ports ws s).ops := by
  obtain ⟨hctx, hseq, hside⟩ := op?_is hp
  rw [finish_eq, awaitFlushes_flushing (Nat.add_pos_right _ (Nat.pos_of_ne_zero hsome)).ne']
  refine List.mem_map.2 ⟨p, ?_, if_pos (by simp [Op.is, Op.under, hctx, hseq, hside])⟩
  rw [issueWrites_ops]
  exact mem_of_op? hp

end

end Sys2Proof.Machine

namespace Sys2Proof.Claims

open Sys2Proof Sys2Proof.Machine

theorem exec_recvComplete {c : Ctx} {q : BitVec 8} {s : State} {o : Op} {h : MsgHeader} {data : List Byte} (hj : s.xch.joined = true)
    (ho : s.op? c q = some o) (hx : o.x = .recvFlow h) (hready : opReady s o = true) (hport : stranded s o = false) (hlen : data.length = h.count) :
    exec (.recvComplete c q data) s = .next (endRecv o h data s) := by
  show execRecvComplete c q data s = _
  simp [execRecvComplete, hj, ho, hx, hready, hport, hlen]

/-- A RECV into a window that is not stranded has a port (R224). -/
theorem recv_ports {s : State} {o : Op} (hopc : o.opc = 0x12) (hport : stranded s o = false) (hloc : o.dO.loc = true) : s.portBays o.ctx ≠ [] := by
  intro hnone
  simp [stranded, usesPorts, hopc, hloc, hnone] at hport

/-- Settles O18: the bytes are written as those of an output of the same view, then the RECV completes or awaits its flushes. -/
theorem recvWritesMessage : Obligations.RecvWritesMessage := by
  rintro c q s o h data f ws hj ho hopc hx hready hport hwrs h0 hr hlen rfl rfl hok
  obtain ⟨rfl, rfl, -⟩ := op?_is ho
  have hflow := received_flowed o h data.length s
  have hloc : ∀ w ∈ messageWrites (opRead s o) (fmtOf (iFO o.word)) o.dO data, w.1 = o.dO.loc := fun w hw => messageWrites_loc hw
  have hrun := exec_recvComplete hj ho hx hready hport hlen
  rw [endRecv_eq] at hrun
  have hst : (recvOp o h).status = 0 := h0
  obtain ⟨hclk, hset⟩ := finish_rest hst (s.portBays o.ctx) (messageWrites (opRead s o) (fmtOf (iFO o.word)) o.dO data) (received o h data.length s)
  have hstaging := finish_staging hst (s.portBays o.ctx) (messageWrites (opRead s o) (fmtOf (iFO o.word)) o.dO data) (received o h data.length s)
  rw [hflow.staging] at hstaging
  have hinside : o.dO.loc = false → staged (messageWrites (opRead s o) (fmtOf (iFO o.word)) o.dO data) =
      (messageWrites (opRead s o) (fmtOf (iFO o.word)) o.dO data).map (·.2) := fun hO => staged_of_staging fun w hw => (hloc w hw).trans hO
  refine ⟨_, hrun, hclk.trans (received_clk hlen s), SameSetup.trans hflow.setup hset, fun hO => ?_, fun hO hwidth hfit hstride => ?_,
    fun hO => ⟨?_, fun b => ?_⟩, ?_⟩
  · rw [hstaging, hinside hO]
    rfl
  · rw [hstaging, hinside hO, messageWrites_bytes hwidth]
    rw [← hlen] at hfit ⊢
    exact ⟨fun i j hj' hin => read_messageRows hok.1 hfit hstride hj' hin, fun a ha => read_messageRows_ne hok.1 ha⟩
  · have hnone : staged (messageWrites (opRead s o) (fmtOf (iFO o.word)) o.dO data) = [] :=
      List.filterMap_eq_nil_iff.2 fun w hw => if_pos ((hloc w hw).trans hO)
    rw [hstaging, hnone]
    rfl
  · refine (finish_asks hst _ _ _ b).trans ?_
    rw [hflow.port, posts_congr hflow.setup.prot]
    rfl
  · have hrst : ((received o h data.length s).cx o.ctx).rstBusy = false := by rw [cx_of_ctx hflow.ctx, hr]
    by_cases hsome : o.dO.loc = true ∧ wrLines (messageWrites (opRead s o) (fmtOf (iFO o.word)) o.dO data) ≠ []
    · rw [if_pos hsome]
      obtain ⟨n, hn⟩ := hflow.op? ho
      have hflush : flushes (s.portBays o.ctx) (messageWrites (opRead s o) (fmtOf (iFO o.word)) o.dO data) ≠ 0 :=
        fun h0 => hsome.2 ((flushes_eq_zero (recv_ports hopc hport hsome.1)).1 h0)
      exact ⟨_, finish_flushing (o := recvOp o h) hn hflush, rfl, rfl, rfl, Nat.add_pos_right _ (Nat.pos_of_ne_zero hflush), h0, rfl⟩
    · have hnone : flushes (s.portBays o.ctx) (messageWrites (opRead s o) (fmtOf (iFO o.word)) o.dO data) = 0 := by
        by_cases hO : o.dO.loc = true
        · exact flushes_of_no_lines (by simpa [hO] using hsome) _
        · exact flushes_of_staging (fun w hw => (hloc w hw).trans (by simpa using hO)) _
      obtain ⟨⟨hgone, hrecord, hstops⟩, hinfo⟩ := finish_ends (o := recvOp o h) h0 hwrs hnone hrst s
      rw [if_neg hsome, ← hopc]
      exact ⟨⟨hgone, hrecord, hstops⟩, hinfo⟩

end Sys2Proof.Claims
end

section
/-! SUPPORT. What an operation leaves alone when it ends, with a fault or without. -/

namespace Sys2Proof.Machine

open Sys2Proof Sys2Proof.Claims

/-- Operations may have ended: nothing but contexts, operations, units, banks, counters and the trace differs, nor the set of a context, nor
what the ports hold and which bays serve. -/
structure Departs (s t : State) : Prop where
  rest : Local s t
  alt : ∀ c, (t.cx c).alt = (s.cx c).alt
  port : ∀ b, (t.by b).port = (s.by b).port
  oos : ∀ b, (t.by b).oos = (s.by b).oos

theorem Departs.refl (s : State) : Departs s s := ⟨rfl, fun _ => rfl, fun _ => rfl, fun _ => rfl⟩

theorem Departs.trans {s t u : State} (h : Departs s t) (k : Departs t u) : Departs s u :=
  ⟨h.rest.trans k.rest, fun c => (k.alt c).trans (h.alt c), fun b => (k.port b).trans (h.port b), fun b => (k.oos b).trans (h.oos b)⟩

theorem Departs.foldl {α : Type} {f : State → α → State} (h : ∀ s x, Departs s (f s x)) (l : List α) (s : State) : Departs s (l.foldl f s) := by
  induction l generalizing s with
  | nil => exact Departs.refl s
  | cons x l ih => exact (h s x).trans (ih _)

theorem ifThen_departs {b : Bool} {f : State → State} (h : ∀ s, Departs s (f s)) (s : State) : Departs s (State.ifThen b f s) := by
  cases b
  exacts [Departs.refl s, h s]

theorem Departs.of_ctx {s t : State} (hc : t.ctx = s.ctx) (hr : Local s t) (hb : ∀ b, (t.by b).port = (s.by b).port ∧ (t.by b).oos = (s.by b).oos) :
    Departs s t := ⟨hr, fun c => by rw [cx_of_ctx hc], fun b => (hb b).1, fun b => (hb b).2⟩

theorem Traced.departs {s t : State} (h : Traced s t) : Departs s t :=
  .of_ctx (by rw [h.rest]) h.local fun b => by rw [h.bays b]; exact ⟨rfl, rfl⟩

theorem modCtx_departs (s : State) (c : Ctx) {f : CtxState → CtxState} (h : ∀ x, (f x).alt = x.alt) : Departs s (s.modCtx c f) :=
  ⟨rfl, fun d => by rw [modCtx_cx_cases]; split <;> [(next e => rw [h, e]); rfl], fun _ => rfl, fun _ => rfl⟩

theorem recordFault_departs (c : Ctx) (code : Nat) (cls : BitVec 3) (q : QSel) (idx aux : Nat) (s : State) :
    Departs s (recordFault c code cls q idx aux s) := by
  unfold recordFault
  refine Departs.trans ?_ (emit_traced ..).departs
  exact modCtx_departs s c fun _ => rfl

theorem ctxFault_departs (c : Ctx) (code : Nat) (q : QSel) (idx aux : Nat) (s : State) : Departs s (ctxFault c code q idx aux s) := by
  refine (recordFault_departs c code tenantFatal q idx aux s).trans (modCtx_departs _ c fun x => ?_)
  split
  · cases q <;> rfl
  · rfl

theorem memberFault_departs (c : Ctx) (s : State) : Departs s (memberFault c s) := by
  refine ifThen_departs (fun s => ?_) s
  have h : Departs s (s.modCtx c fun x => { x with lockWin := none }) := modCtx_departs s c fun _ => rfl
  exact h.trans (.of_ctx rfl rfl fun _ => ⟨rfl, rfl⟩)

theorem countOp_departs (o : Op) (s : State) : Departs s (countOp o s) :=
  .of_ctx (countOp_ctx o s) (countOp_local o s) fun b => ⟨((countOp_baysKept o s).bays b).port, countOp_oos o s b⟩

theorem complete_departs (o : Op) (s : State) : Departs s (complete o s) := by
  have hdrop : Departs s (s.dropOp o.ctx o.seq) := .of_ctx rfl rfl fun _ => ⟨rfl, rfl⟩
  have hforget : ∀ u, Departs u (forget o.ctx o.seq u) := fun u => by
    unfold forget
    exact modCtx_departs u o.ctx fun _ => rfl
  unfold complete
  split
  · exact hdrop
  · refine Departs.trans ?_ (ifThen_departs (fun u => ?_) _)
    · refine Departs.trans ?_ (emitOp_traced ..).departs
      refine Departs.trans ?_ (ifThen_departs (memberFault_departs _) _)
      refine Departs.trans ?_ (ifThen_departs (ctxFault_departs _ _ _ _ _) _)
      exact ((hdrop.trans (hforget _)).trans (countOp_departs ..)).trans (endStall_traced ..).departs
    · unfold deliver
      exact modCtx_departs u o.ctx fun _ => rfl

theorem releaseUnits_departs (o : Op) (s : State) : Departs s (releaseUnits o s) :=
  .of_ctx (releaseUnits_ctx ..) (releaseUnits_local o s) fun b => ⟨releaseUnits_port o s b, releaseUnits_oos o s b⟩

theorem release_departs (o : Op) (s : State) : Departs s (release o s) := (releaseUnits_departs o s).trans (complete_departs ..)

theorem holdFailed_departs (o : Op) (s : State) : Departs s (holdFailed o s) := by
  unfold holdFailed
  dsimp only
  split
  · refine (releaseUnits_departs o s).trans ?_
    exact .of_ctx rfl rfl fun _ => ⟨rfl, rfl⟩
  · exact .of_ctx rfl rfl fun _ => ⟨rfl, rfl⟩

theorem failOp_departs (o : Op) (code : Nat) (s : State) : Departs s (failOp o code s) := by
  unfold failOp
  dsimp only
  split
  · exact release_departs ..
  · exact holdFailed_departs ..

theorem Departs.portBays {s t : State} (h : Departs s t) (c : Ctx) : t.portBays c = s.portBays c :=
  portBays_congr ⟨by rw [h.rest], by rw [h.rest], by rw [h.rest]⟩ (h.alt c) h.oos

end Sys2Proof.Machine
end

section
/-! Settles the statement about message headers. -/

namespace Sys2Proof.Machine

open Sys2Proof Sys2Proof.Claims

/-! ### A RECV meets a header -/

/-- The block with the answer to a header on the ring, its flows settled. -/
def answered (h : MsgHeader) (s : State) : State := ringSend (.clearToSend h) (settleFlow s)

/-- A RECV whose message may flow (R212). -/
def flowingOp (o : Op) (h : MsgHeader) (s : State) : Op :=
  { o with x := .recvFlow h, left := h.count, tFirst := s.clk, ran := 0, tDue := s.clk + fcTime s (ceilDiv' h.count (recvRate s o)) }

theorem matchRecv_small {o : Op} {h : MsgHeader} (hn : viewLen (fmtOf (iFO o.word)) o.dO < h.count) (s : State) :
    matchRecv o h s = failOp o 0x06 (ringSend (.refuse h .viewSmall) s) := if_pos hn

theorem matchRecv_fits {o : Op} {h : MsgHeader} (hn : ¬viewLen (fmtOf (iFO o.word)) o.dO < h.count) (s : State) : ∃ ports rs,
    matchRecv o h s = issueReads (flowingOp o h (settleFlow s)) ports rs
      (ringSend (.clearToSend h) ((settleFlow s).modOf (flowingOp o h (settleFlow s)) fun _ => flowingOp o h (settleFlow s))) :=
  ⟨_, _, if_neg hn⟩

/-- What a match leaves alone: set-up and staging, the kept and the refused headers, and the ports of every context. -/
structure Matched (s t : State) : Prop where
  setup : SameSetup s t
  staging : t.staging = s.staging
  headers : t.xch.headers = s.xch.headers
  refused : t.xch.refused = s.xch.refused
  portBays : ∀ c, t.portBays c = s.portBays c

theorem Matched.trans {s t u : State} (h : Matched s t) (k : Matched t u) : Matched s u :=
  ⟨SameSetup.trans h.setup k.setup, k.staging.trans h.staging, k.headers.trans h.headers, k.refused.trans h.refused,
    fun c => (k.portBays c).trans (h.portBays c)⟩

theorem Departs.matched {s t : State} (h : Departs s t) : Matched s t :=
  ⟨⟨by rw [h.rest], by rw [h.rest], by rw [h.rest]⟩, by rw [h.rest], by rw [h.rest], by rw [h.rest], h.portBays⟩

theorem Flowed.matched {s t : State} (h : Flowed s t) : Matched s t :=
  ⟨h.setup, h.staging, by rw [h.rest], by rw [h.rest], h.portBays⟩

theorem ringSend_matched (m : RingMsg) (s : State) : Matched s (ringSend m s) := ⟨⟨rfl, rfl, rfl⟩, rfl, rfl, rfl, fun _ => rfl⟩

theorem issueReads_matched (o : Op) (ports : List Bay) (rs : List Range) (s : State) : Matched s (issueReads o ports rs s) := by
  have hk := issueReads_keeps o ports rs s
  have hl := issueReads_local o ports rs s
  refine ⟨sameSetup_of_keeps hk, hk.staging, by rw [hl], by rw [hl], fun c => portBays_congr (sameSetup_of_keeps hk) ?_ fun b => ?_⟩
  · rw [issueReads, cx_of_ctx (issueLines_ctx ..)]
  · exact foldl_eq (fun u => (u.by b).oos) (fun _ _ => issueRd_oos ..) (deal ports (rdLines rs)) s

theorem matchRecv_matched (o : Op) (h : MsgHeader) (s : State) : Matched s (matchRecv o h s) := by
  by_cases hn : viewLen (fmtOf (iFO o.word)) o.dO < h.count
  · rw [matchRecv_small hn]
    exact (ringSend_matched ..).trans (failOp_departs ..).matched
  · obtain ⟨ports, rs, hm⟩ := matchRecv_fits hn s
    have hmod : ∀ (u : State) (p : Op) (f : Op → Op), Matched u (u.modOf p f) := fun _ _ _ => ⟨⟨rfl, rfl, rfl⟩, rfl, rfl, rfl, fun _ => rfl⟩
    rw [hm]
    exact (((settleFlow_flowed s).matched.trans (hmod ..)).trans (ringSend_matched ..)).trans (issueReads_matched ..)

/-! ### Headers and the RECVs that they match -/

section
variable {s t : State} (hports : ∀ c, t.portBays c = s.portBays c)
include hports

theorem matchesHeader_congr (h : MsgHeader) (o : Op) : matchesHeader t h o = matchesHeader s h o := by
  rw [matchesHeader, stranded, hports, matchesHeader, stranded]

theorem headerFor_congr (hkept : t.xch.headers = s.xch.headers) (hrefused : t.xch.refused = s.xch.refused) (o : Op) :
    headerFor t o = headerFor s o := by
  have hov : ∀ h, overtakes t h = overtakes s h := fun h => by rw [overtakes, hrefused, overtakes]
  simp only [headerFor, hkept, hov, matchesHeader_congr hports]

end

/-- No waiting RECV can take a kept header. -/
def NoneTakes (s : State) (l : List MsgHeader) (ops : List Op) : Prop :=
  ∀ g ∈ l, ∀ o ∈ ops, (matchesHeader s g o && !overtakes s g) = false

theorem noneTakes_of_taken {s : State} (h : ∀ g ∈ s.xch.headers, taken s g = false) : NoneTakes s s.xch.headers s.ops := by
  intro g hg o ho
  have ht := h g hg
  rw [taken, Bool.and_eq_false_iff] at ht
  rcases ht with ht | ht
  · rw [ht, Bool.and_false]
  · rw [Bool.eq_false_iff.2 (List.any_eq_false.1 ht o ho), Bool.false_and]

/-- A RECV takes none of the kept headers. -/
theorem headerFor_none {s : State} {ops : List Op} (h : NoneTakes s s.xch.headers ops) {o : Op} (ho : o ∈ ops) : headerFor s o = none := by
  have hnone : (s.xch.headers.filter fun g => matchesHeader s g o && !overtakes s g) = [] :=
    List.filter_eq_nil_iff.2 fun g hg => by simp [h g hg o ho]
  rw [headerFor, hnone]
  rfl

/-- Of kept headers that it cannot take and a new one a RECV can only take the new one. -/
theorem headerFor_new {s : State} {l : List MsgHeader} {h : MsgHeader} {ops : List Op} (hl : s.xch.headers = l ++ [h]) (hn : NoneTakes s l ops)
    {o : Op} (ho : o ∈ ops) : headerFor s o = if matchesHeader s h o && !overtakes s h then some h else none := by
  have hnone : (l.filter fun g => matchesHeader s g o && !overtakes s g) = [] := List.filter_eq_nil_iff.2 fun g hg => by simp [hn g hg o ho]
  rw [headerFor, hl, List.filter_append, hnone]
  cases hm : (matchesHeader s h o && !overtakes s h) <;> simp [hm]

/-- One RECV takes the kept header that it matches (R211). -/
def matchStep (s : State) (o : Op) : State :=
  match headerFor s o with
  | some h => matchRecv o h { s with xch := { s.xch with headers := s.xch.headers.erase h } }
  | none => s

theorem matchAll_eq (s : State) : matchAll s = (s.ops.filter fun o => o.x == .recvWait).foldl matchStep s := rfl

/-- RECVs that take no kept header leave the block as it is. -/
theorem foldl_matchStep_none {s : State} {l : List Op} (h : ∀ o ∈ l, headerFor s o = none) : l.foldl matchStep s = s := by
  induction l with
  | nil => rfl
  | cons o l ih =>
    have hstep : matchStep s o = s := by rw [matchStep, h o List.mem_cons_self]
    rw [List.foldl_cons, hstep]
    exact ih fun p hp => h p (List.mem_cons_of_mem _ hp)

section
variable {s u : State} {h : MsgHeader} (hs : s = { u with xch := { u.xch with headers := u.xch.headers ++ [h] } })
  (hnone : NoneTakes u u.xch.headers u.ops)
include hs hnone

/-- With one more kept header a RECV can only take that one. -/
theorem headerFor_kept {p : Op} (hp : p ∈ u.ops) : headerFor s p = if matchesHeader u h p && !overtakes u h then some h else none := by
  have hsame : ∀ c, s.portBays c = u.portBays c := fun c => by rw [hs]; rfl
  have hov : ∀ g, overtakes s g = overtakes u g := fun g => by rw [hs]; rfl
  have hnone' : NoneTakes s u.xch.headers u.ops := fun g hg o ho => by
    rw [matchesHeader_congr hsame, hov]
    exact hnone g hg o ho
  rw [headerFor_new (by rw [hs]) hnone' hp, matchesHeader_congr hsame, hov]

/-- Where no RECV can take the new header, all headers stay. -/
theorem matchAll_keeps_headers (hno : ∀ p ∈ u.ops, (matchesHeader u h p && !overtakes u h) = false) : matchAll s = s := by
  have hops : s.ops = u.ops := by rw [hs]
  rw [matchAll_eq, hops]
  refine foldl_matchStep_none fun p hp => ?_
  rw [headerFor_kept hs hnone (List.mem_of_mem_filter hp), hno p (List.mem_of_mem_filter hp)]
  rfl

/-- The first RECV that takes the new header is the only one that takes any. -/
theorem matchAll_takes {o : Op} (hnew : h ∉ u.xch.headers) (hov : overtakes u h = false) (hfind : u.ops.find? (matchesHeader u h) = some o) :
    matchAll s = matchRecv o h u := by
  have hops : s.ops = u.ops := by rw [hs]
  obtain ⟨hmatch, as, bs, hsplit, hbefore⟩ := List.find?_eq_some_iff_append.1 hfind
  have hwaits : (o.x == .recvWait) = true := by
    simp only [matchesHeader, Bool.and_eq_true] at hmatch
    exact hmatch.1.1.1.1.1.2
  have hmem : ∀ p, p ∈ as ∨ p = o ∨ p ∈ bs → p ∈ u.ops := fun p hp => by
    rw [hsplit]
    simpa using hp
  have hfirst : (as.filter fun p => p.x == .recvWait).foldl matchStep s = s := by
    refine foldl_matchStep_none fun p hp => ?_
    have hpas := List.mem_of_mem_filter hp
    rw [headerFor_kept hs hnone (hmem p (.inl hpas)), show matchesHeader u h p = false by simpa using hbefore p hpas]
    rfl
  have htake : matchStep s o = matchRecv o h u := by
    have herase : (u.xch.headers ++ [h]).erase h = u.xch.headers := by
      rw [List.erase_append_right _ hnew]
      simp
    have hback : { s with xch := { s.xch with headers := s.xch.headers.erase h } } = u := by
      rw [hs]
      show { u with xch := { u.xch with headers := (u.xch.headers ++ [h]).erase h } } = u
      rw [herase]
    have hh : headerFor s o = some h := by
      rw [headerFor_kept hs hnone (hmem o (.inr (.inl rfl))), hmatch, hov]
      rfl
    rw [matchStep, hh]
    exact congrArg (matchRecv o h) hback
  have hlast : (bs.filter fun p => p.x == .recvWait).foldl matchStep (matchRecv o h u) = matchRecv o h u := by
    have hm := matchRecv_matched o h u
    refine foldl_matchStep_none fun p hp => ?_
    rw [headerFor_congr hm.portBays hm.headers hm.refused]
    exact headerFor_none hnone (hmem p (.inr (.inr (List.mem_of_mem_filter hp))))
  rw [matchAll_eq, hops, hsplit, List.filter_append, List.filter_cons_of_pos (p := fun p : Op => p.x == .recvWait) hwaits,
    List.foldl_append, List.foldl_cons, hfirst, htake, hlast]

end

/-! ### What a match leaves -/

section
variable {o : Op} {h : MsgHeader} {s : State}

theorem matchRecv_refuses (hn : viewLen (fmtOf (iFO o.word)) o.dO < h.count) : (matchRecv o h s).xch.out = s.xch.out ++ [.refuse h .viewSmall] := by
  rw [matchRecv_small hn, (failOp_departs ..).rest.xch]
  rfl

theorem matchRecv_endsWith (hn : viewLen (fmtOf (iFO o.word)) o.dO < h.count) (hlehr : o.ofLehr = false) (hr : (s.cx o.ctx).rstBusy = false)
    (h0 : o.status = 0) (hw : o.wrs = 0) (ha : o.acks = 0) : EndsWith s o 0x06 (matchRecv o h s) := by
  rw [matchRecv_small hn, failOp_clear hlehr h0 hw ha]
  exact release_endsWith_status (p := { o with status := 0x06 }) rfl rfl rfl rfl hr rfl

theorem matchRecv_flows (hn : ¬viewLen (fmtOf (iFO o.word)) o.dO < h.count) (ho : o ∈ s.ops) :
    (matchRecv o h s).xch.out = s.xch.out ++ [.clearToSend h] ∧
      ∃ p ∈ (matchRecv o h s).ops, p.ctx = o.ctx ∧ p.seq = o.seq ∧ p.x = .recvFlow h := by
  obtain ⟨ports, rs, hm⟩ := matchRecv_fits hn s
  have hflow := settleFlow_flowed s
  obtain ⟨n, hops⟩ := hflow.ops
  have hin : { o with left := n o } ∈ (settleFlow s).ops := by
    rw [hops]
    exact List.mem_map_of_mem ho
  have hput : flowingOp o h (settleFlow s) ∈
      (ringSend (.clearToSend h) ((settleFlow s).modOf (flowingOp o h (settleFlow s)) fun _ => flowingOp o h (settleFlow s))).ops :=
    List.mem_map.2 ⟨_, hin, if_pos (by simp [Op.under, flowingOp])⟩
  rw [hm]
  refine ⟨?_, ?_⟩
  · rw [(issueReads_local ..).xch]
    show (settleFlow s).xch.out ++ _ = _
    rw [hflow.xch]
  · obtain ⟨k, hk⟩ := issueReads_mem (o := flowingOp o h (settleFlow s)) (ports := ports) (rs := rs) hput
    exact ⟨_, hk, rfl, rfl, rfl⟩

end

/-! ### The step -/

theorem messageHeaderReceive_wellFormed {h : MsgHeader} (hc : h.count < 2 ^ 32) (hq : h.seqno < 2 ^ 32) :
    (Instr.messageHeaderReceive h).wellFormed = true := by
  show (decide (h.count < 2 ^ 32) && decide (h.seqno < 2 ^ 32)) = true
  rw [decide_eq_true hc, decide_eq_true hq]
  rfl

theorem headerReceive_bypass {h : MsgHeader} {s : State} (hj : s.xch.joined = false) (hc : h.count < 2 ^ 32) (hq : h.seqno < 2 ^ 32) :
    headerReceive h s = ringSend (.passed (.header h)) s := by
  rw [headerReceive, messageHeaderReceive_wellFormed hc hq, hj]
  rfl

/-- The block that keeps one more header. -/
def keepsHeader (h : MsgHeader) (u : State) : State := { u with xch := { u.xch with headers := u.xch.headers ++ [h] } }

/-- The block that has refused a header for want of room (R211). -/
def refusesHeader (h : MsgHeader) (u : State) : State :=
  { u with xch := { u.xch with out := u.xch.out ++ [.refuse h .tableFull], refused := u.xch.refused ++ [h] } }

theorem headerReceive_joined {h : MsgHeader} {s : State} (hj : s.xch.joined = true) (hc : h.count < 2 ^ 32) (hq : h.seqno < 2 ^ 32) :
    headerReceive h s = if decide (s.xch.headers.length < 64) || taken (offeredAgain h s) h then matchAll (keepsHeader h (offeredAgain h s))
      else refusesHeader h (offeredAgain h s) := by
  rw [headerReceive, messageHeaderReceive_wellFormed hc hq, hj]
  rfl

end Sys2Proof.Machine

namespace Sys2Proof.Claims

open Sys2Proof Sys2Proof.Machine

section
variable {h : MsgHeader} {s : State} (hj : s.xch.joined = true) (hc : h.count < 2 ^ 32) (hq : h.seqno < 2 ^ 32)
  (hkept : ∀ g ∈ s.xch.headers, taken (offeredAgain h s) g = false)
include hj hc hq hkept

/-- A header that a RECV waits for meets it. -/
theorem header_meets {o : Op} (hov : overtakes (offeredAgain h s) h = false) (hfind : s.ops.find? (matchesHeader s h) = some o) :
    headerReceive h s = matchRecv o h (offeredAgain h s) := by
  have hfind' : (offeredAgain h s).ops.find? (matchesHeader (offeredAgain h s) h) = some o := hfind
  have htaken : taken (offeredAgain h s) h = true := by
    rw [taken, hov]
    exact List.any_eq_true.2 ⟨o, List.mem_of_find?_eq_some hfind', List.find?_some hfind'⟩
  have hnew : h ∉ (offeredAgain h s).xch.headers := fun hin => by
    rw [hkept h hin] at htaken
    cases htaken
  rw [headerReceive_joined hj hc hq, htaken, Bool.or_true, if_pos rfl]
  exact matchAll_takes rfl (noneTakes_of_taken hkept) hnew hov hfind'

/-- A header that no RECV can take is kept, or refused. -/
theorem header_stays (hno : overtakes (offeredAgain h s) h = true ∨ s.ops.find? (matchesHeader s h) = none) :
    headerReceive h s = if s.xch.headers.length < 64 then keepsHeader h (offeredAgain h s) else refusesHeader h (offeredAgain h s) := by
  have hcannot : ∀ p ∈ s.ops, (matchesHeader s h p && !overtakes (offeredAgain h s) h) = false := fun p hp => by
    rcases hno with hov | hfind
    · rw [hov, Bool.not_true, Bool.and_false]
    · rw [Bool.eq_false_iff.2 (List.find?_eq_none.1 hfind p hp), Bool.false_and]
  have htaken : taken (offeredAgain h s) h = false := by
    rcases hno with hov | hfind
    · rw [taken, hov, Bool.not_true, Bool.false_and]
    · rw [taken, Bool.and_eq_false_iff]
      exact .inr (List.any_eq_false.2 (List.find?_eq_none.1 hfind))
  rw [headerReceive_joined hj hc hq, htaken, Bool.or_false]
  by_cases hroom : s.xch.headers.length < 64
  · rw [if_pos (by simpa using hroom), if_pos hroom]
    exact matchAll_keeps_headers (u := offeredAgain h s) rfl (noneTakes_of_taken hkept) hcannot
  · rw [if_neg (by simpa using hroom), if_neg hroom]

end

/-- Settles O15: no waiting RECV can take a kept header, so only the new one can be met, and by one RECV. -/
theorem headerMatchesKeepsOrRefuses : Obligations.HeaderMatchesKeepsOrRefuses := by
  refine ⟨fun h s hj hc hq => congrArg Host.Outcome.next (headerReceive_bypass hj hc hq), ?_⟩
  rintro h s u hj hc hq rfl hkept
  have hsame : SameSetup s (headerReceive h s) ∧ (headerReceive h s).staging = s.staging := by
    by_cases hno : overtakes (offeredAgain h s) h = true ∨ s.ops.find? (matchesHeader s h) = none
    · rw [header_stays hj hc hq hkept hno]
      split <;> exact ⟨⟨rfl, rfl, rfl⟩, rfl⟩
    · obtain ⟨hov, hfind⟩ := not_or.1 hno
      obtain ⟨o, ho⟩ := Option.ne_none_iff_exists'.1 hfind
      rw [header_meets hj hc hq hkept (Bool.eq_false_iff.2 hov) ho]
      have hm := matchRecv_matched o h (offeredAgain h s)
      obtain ⟨build, set, rest⟩ := hm.setup
      exact ⟨⟨build, set, rest⟩, hm.staging⟩
  refine ⟨_, rfl, hsame.1, hsame.2, fun o hov hfind => ?_, fun hno => ?_⟩
  · have hm := header_meets hj hc hq hkept hov hfind
    have hmem : o ∈ s.ops := List.mem_of_find?_eq_some hfind
    have hopc : o.opc = 0x12 := by
      have hmatch := List.find?_some hfind
      simp only [matchesHeader, Bool.and_eq_true, beq_iff_eq] at hmatch
      exact hmatch.1.1.1.1.1.1
    rw [hm]
    by_cases hn : viewLen (fmtOf (iFO o.word)) o.dO < h.count
    · rw [if_pos hn]
      refine ⟨matchRecv_refuses (s := offeredAgain h s) hn, fun hr h0 hw ha => ?_⟩
      obtain ⟨gone, record, stops⟩ := matchRecv_endsWith (s := offeredAgain h s) hn (ofLehr_of_lt (by omega)) hr h0 hw ha
      exact ⟨gone, record, stops⟩
    · rw [if_neg hn]
      exact matchRecv_flows (s := offeredAgain h s) hn hmem
  · rw [header_stays hj hc hq hkept hno]
    split
    · exact ⟨rfl, rfl⟩
    · exact ⟨rfl, rfl⟩

end Sys2Proof.Claims
end

section
/-! SUPPORT. A request of a port fails: what stays as it is, and what the log and the fault record say. -/

namespace Sys2Proof.Machine

open Sys2Proof Sys2Proof.Claims

/-- Nothing is reported and no time passes; the set-up, FAIL_WIN and what every port holds stay as they are. -/
structure Silent (s t : State) : Prop where
  log : t.ras.log = s.ras.log
  time : timebase t = timebase s
  clk : t.clk = s.clk
  failWin : t.g.failWin = s.g.failWin
  port : ∀ b, (t.by b).port = (s.by b).port
  setup : SameSetup s t

theorem Silent.refl (s : State) : Silent s s := ⟨rfl, rfl, rfl, rfl, fun _ => rfl, SameSetup.refl s⟩

theorem Silent.trans {s t u : State} (h : Silent s t) (k : Silent t u) : Silent s u :=
  ⟨k.log.trans h.log, k.time.trans h.time, k.clk.trans h.clk, k.failWin.trans h.failWin, fun b => (k.port b).trans (h.port b),
    SameSetup.trans h.setup k.setup⟩

theorem Silent.foldl {α : Type} {f : State → α → State} (h : ∀ s x, Silent s (f s x)) (l : List α) (s : State) : Silent s (l.foldl f s) := by
  induction l generalizing s with
  | nil => exact Silent.refl s
  | cons x l ih => exact (h s x).trans (ih _)

theorem ifThen_silent {b : Bool} {f : State → State} (h : ∀ s, Silent s (f s)) (s : State) : Silent s (State.ifThen b f s) := by
  cases b
  exacts [Silent.refl s, h s]

theorem Departs.silent {s t : State} (h : Departs s t) : Silent s t :=
  ⟨by rw [h.rest], by rw [h.rest]; rfl, by rw [h.rest], by rw [h.rest], h.port, by rw [h.rest], by rw [h.rest], by rw [h.rest]⟩

theorem modBay_ports (s : State) (b : Bay) {f : BayState → BayState} (h : ∀ x, (f x).port = x.port) (d : Bay) :
    ((s.modBay b f).by d).port = (s.by d).port := by
  rw [modBay_by_cases]
  split
  · next e => rw [e, h]
  · rfl

theorem modBank_port (x : BayState) (second : Bool) (f : Bank → Bank) : (x.modBank second f).port = x.port := by cases second <;> rfl

/-! ### Outputs become undefined -/

/-- Staging, its poison and the bays alone may differ, and no port does (R206). -/
structure Undefined (s t : State) : Prop where
  rest : t = { s with staging := t.staging, ras := { s.ras with poison := t.ras.poison }, nfree := t.nfree, bay := t.bay }
  port : ∀ b, (t.by b).port = (s.by b).port

theorem Undefined.refl (s : State) : Undefined s s := ⟨rfl, fun _ => rfl⟩

theorem Undefined.trans {s t u : State} (h : Undefined s t) (k : Undefined t u) : Undefined s u :=
  ⟨k.rest.trans (by rw [h.rest]), fun b => (k.port b).trans (h.port b)⟩

theorem Undefined.foldl {α : Type} {f : State → α → State} (h : ∀ s x, Undefined s (f s x)) (l : List α) (s : State) :
    Undefined s (l.foldl f s) := by
  induction l generalizing s with
  | nil => exact Undefined.refl s
  | cons x l ih => exact (h s x).trans (ih _)

theorem useFree_by (n : Nat) (s : State) (b : Bay) : (useFree n s).by b = s.by b := rfl

theorem Undefined.silent {s t : State} (h : Undefined s t) : Silent s t :=
  ⟨by rw [h.rest], by rw [h.rest]; rfl, by rw [h.rest], by rw [h.rest], h.port, by rw [h.rest], by rw [h.rest], by rw [h.rest]⟩

theorem undefRange_undefined (s : State) (r : Range) : Undefined s (undefRange s r) := by
  unfold undefRange
  split
  exacts [Undefined.refl s, ⟨rfl, fun _ => rfl⟩]

theorem undefView_undefined (s : State) (x : Fmt × Desc) : Undefined s (undefView s x) := by
  unfold undefView
  dsimp only
  split
  · exact Undefined.refl s
  · split
    · exact Undefined.foldl undefRange_undefined _ s
    · exact ⟨rfl, fun _ => rfl⟩

theorem undefineOutputs_undefined (o : Op) (s : State) : Undefined s (undefineOutputs o s) := by
  have hviews := (Undefined.foldl undefView_undefined (outViews o) s).trans (Undefined.foldl undefRange_undefined (outRest o) _)
  unfold undefineOutputs
  dsimp only
  split
  · exact hviews
  · refine hviews.trans (Undefined.foldl (fun u b => ⟨rfl, fun d => ?_⟩) _ _)
    refine (congrArg BayState.port (useFree_by ..)).trans (modBay_ports u b (fun x => ?_) d)
    split
    · rfl
    · split
      exacts [modBank_port .., rfl]

/-! ### A bay leaves service -/

theorem releaseChain_silent (c : Ctx) (id : Nat) (s : State) : Silent s (releaseChain c id s) := by
  refine ⟨rfl, rfl, rfl, rfl, fun b => ?_, rfl, rfl, rfl⟩
  have h : (releaseChain c id s).by b = _ := by_map s _ b
  rw [h]
  rfl

theorem unreserve_silent (p : Op → Bool) (s : State) : Silent s (unreserve p s) := by
  refine ⟨rfl, rfl, rfl, rfl, fun b => ?_, rfl, rfl, rfl⟩
  have h : (unreserve p s).by b = _ := by_map s _ b
  rw [h]

theorem Shadowed.silent {s t : State} (h : Shadowed s t) : Silent s t := by
  refine ⟨?_, ?_, ?_, ?_, fun b => ?_, ?_, ?_, ?_⟩ <;> rw [h] <;> rfl

theorem lapse_silent (b : Bay) (s : State) : Silent s (lapse b s) := ⟨rfl, rfl, rfl, rfl, fun _ => rfl, rfl, rfl, rfl⟩

theorem replyDone_silent (s : State) : Silent s { s with g := { s.g with repBusy := false, repDone := true } } :=
  ⟨rfl, rfl, rfl, rfl, fun _ => rfl, rfl, rfl, rfl⟩

theorem modBay_silent (s : State) (b : Bay) {f : BayState → BayState} (h : ∀ x, (f x).port = x.port) : Silent s (s.modBay b f) :=
  ⟨rfl, rfl, rfl, rfl, modBay_ports s b h, rfl, rfl, rfl⟩

theorem leaveService_silent (b : Bay) (s : State) : Silent s (leaveService b s) := by
  unfold leaveService
  refine Silent.trans ?_ (modBay_silent _ b fun _ => rfl)
  refine Silent.trans ?_ (ifThen_silent replyDone_silent _)
  refine Silent.trans ?_ (lapse_silent ..)
  refine Silent.trans ?_ (stopShadows_shadowed b _).silent
  refine Silent.trans ?_ (unreserve_silent ..)
  exact Silent.foldl (fun u (k : Bank) => releaseChain_silent k.ctx k.chain u) _ s

theorem bayFatal_silent (b : Bay) (code : Nat) (s : State) : Silent s (bayFatal b code s) := by
  refine Silent.trans (Silent.foldl (fun s o => ?_) _ s) (leaveService_silent b _)
  split
  exacts [(failOp_departs ..).silent, Silent.refl s]

/-! ### The log (R276, R277) -/

/-- An entry of the log has this source. -/
structure OfSource (code typ id : Nat) (e : LogEntry) : Prop where
  code : e.code = BitVec.ofNat 8 code
  typ : e.typ = BitVec.ofNat 4 typ
  id : e.id = BitVec.ofNat 32 id

/-- The log has a free entry, or one of this source. -/
def Roomy (s : State) (code typ id : Nat) : Prop := ∃ i, ∀ e, s.ras.log.get i = some e → OfSource code typ id e

/-- The log has an entry of this source with the present time. -/
def Entered (s : State) (code typ id : Nat) : Prop :=
  ∃ i e, s.ras.log.get i = some e ∧ OfSource code typ id e ∧ e.last = BitVec.ofNat 64 (timebase s)

theorem roomy_of_free {s t : State} {code typ id : Nat} (hlog : t.ras.log = s.ras.log) (h : ∃ i, s.ras.log.get i = none) :
    Roomy t code typ id := by
  obtain ⟨i, hi⟩ := h
  refine ⟨i, fun e he => ?_⟩
  rw [hlog, hi] at he
  cases he

theorem logged_of_entered {s t : State} {code typ id : Nat} (h : (∃ i, s.ras.log.get i = none) → Entered t code typ id) :
    Logged s t code typ id := fun hfree => by
  obtain ⟨i, e, he, hs, hl⟩ := h hfree
  exact ⟨i, e, he, hs.code, hs.typ, hs.id, hl⟩

theorem Silent.entered {s t : State} {code typ id : Nat} (h : Silent s t) (k : Entered s code typ id) : Entered t code typ id := by
  obtain ⟨i, e, he, hs, hl⟩ := k
  exact ⟨i, e, by rw [h.log, he], hs, by rw [h.time, hl]⟩

theorem report_timebase (code : Nat) (cls : BitVec 3) (ctx typ id : Nat) (s : State) : timebase (report code cls ctx typ id s) = timebase s :=
  (report_works ..).timebase

theorem ofNat_of_toNat_beq {n k : Nat} {x : BitVec n} (h : (x.toNat == k) = true) : x = BitVec.ofNat n k := by
  rw [← beq_iff_eq.1 h, BitVec.ofNat_toNat, BitVec.setWidth_eq]

/-- A source that is reported has its entry when the log has room for it. -/
theorem report_entered {code typ id : Nat} {s : State} (cls : BitVec 3) (ctx : Nat) (hcode : code < 256) (htyp : typ < 16) (hid : id < 2 ^ 32)
    (h : Roomy s code typ id) : Entered (report code cls ctx typ id s) code typ id := by
  unfold Entered
  rw [report_timebase]
  unfold report
  dsimp only
  split
  · next i hi =>
    have hsame := List.find?_some hi
    split
    · next e he =>
      rw [he] at hsame
      simp only [Bool.and_eq_true] at hsame
      obtain ⟨⟨hc, ht⟩, hd⟩ := hsame
      exact ⟨i, _, (get_set ..).trans (if_pos rfl), ⟨ofNat_of_toNat_beq hc, ofNat_of_toNat_beq ht, ofNat_of_toNat_beq hd⟩, rfl⟩
    · next he =>
      rw [he] at hsame
      cases hsame
  · next hnone =>
    split
    · next i hi => exact ⟨i, _, (get_set ..).trans (if_pos rfl), ⟨rfl, rfl, rfl⟩, rfl⟩
    · next hfull =>
      obtain ⟨i, hi⟩ := h
      have hno := List.find?_eq_none.1 hnone i (List.mem_finRange i)
      have hsome := List.find?_eq_none.1 hfull i (List.mem_finRange i)
      cases he : s.ras.log.get i with
      | none => rw [he] at hsome; exact absurd rfl hsome
      | some e =>
        rw [he] at hno
        obtain ⟨hc, ht, hd⟩ := hi e he
        refine absurd ?_ hno
        simp only [hc, ht, hd, BitVec.toNat_ofNat, Nat.mod_eq_of_lt hcode, Nat.mod_eq_of_lt htyp, Nat.mod_eq_of_lt hid]
        simp

end Sys2Proof.Machine
end

section
/-! SUPPORT. An operation on a port fails with PORT_ERROR (R205, R206, R231). -/

namespace Sys2Proof.Machine

open Sys2Proof Sys2Proof.Claims

/-! ### The fault record -/

theorem counted_departs (o : Op) (s : State) : Departs s (counted o s) := by
  have hdrop : Departs s (s.dropOp o.ctx o.seq) := .of_ctx rfl rfl fun _ => ⟨rfl, rfl⟩
  have hforget : ∀ u, Departs u (forget o.ctx o.seq u) := fun u => by
    unfold forget
    exact modCtx_departs u o.ctx fun _ => rfl
  exact ((hdrop.trans (hforget _)).trans (countOp_departs ..)).trans (endStall_traced ..).departs

theorem counted_fault (o : Op) (s : State) (c : Ctx) : ((counted o s).cx c).fault = (s.cx c).fault := by
  rw [counted, cx_of_ctx (endStall_ctx ..), cx_of_ctx (countOp_ctx ..), forget, modCtx_cx_cases]
  split
  · next h => rw [h]; rfl
  · rfl

theorem memberFault_fault (c : Ctx) (s : State) : ((memberFault c s).cx c).fault = (s.cx c).fault :=
  ifThen_eq (fun u => (u.cx c).fault) (fun u => (dropWindow_fault c u).1) s

theorem deliver_fault (c : Ctx) (r : Rec) (s : State) : ((deliver c r s).cx c).fault = (s.cx c).fault := by
  unfold deliver
  rw [modCtx_cx]

/-- The fault record of the context of an operation that completes with a run-time fault (R231). -/
theorem complete_noted {o : Op} {s : State} (hr : (s.cx o.ctx).rstBusy = false) (h0 : o.status ≠ 0) (h15 : o.status ≠ 0x15) :
    FaultNoted s (complete o s) o.ctx o.status 2 o.q o.qidx o.aux := by
  have hfatal : (o.status != 0 && o.status != 0x15) = true := by simp [h0, h15]
  have hnoted := recordFault_noted o.ctx o.status tenantFatal o.q o.qidx o.aux (counted o s)
  refine faultNoted_of_eq hnoted (counted_fault ..) ?_ ?_
  · rw [complete_eq hr, ifThen_eq (fun u => (u.cx o.ctx).fault) fun u => deliver_fault .., faultTaken, hfatal, cx_of_ctx (emitOp_ctx ..),
      ifThen_eq (fun u => (u.cx o.ctx).fault) fun u => memberFault_fault ..]
    exact ctxFault_fault ..
  · exact (complete_departs o s).silent.time.trans
      ((counted_departs o s).trans (recordFault_departs o.ctx o.status tenantFatal o.q o.qidx o.aux _)).silent.time.symm

/-! ### The operation that fails -/

/-- An operation of the same name, opcode and word: its record and its queues are the same. -/
structure SameName (o p : Op) : Prop where
  ctx : p.ctx = o.ctx
  seq : p.seq = o.seq
  opc : p.opc = o.opc
  word : p.word = o.word

theorem SameName.endsWith {r s t : State} {o p : Op} {k : Nat} (h : SameName o p) (hm : ∀ c, (s.cx c).mode = (r.cx c).mode)
    (hends : EndsWith r p k t) : EndsWith s o k t := by
  obtain ⟨gone, record, stops⟩ := hends
  have hcmp : p.cmp = o.cmp := by rw [Op.cmp, h.word, Op.cmp]
  rw [h.ctx, h.seq] at gone
  rw [hcmp, h.ctx, h.opc] at record
  rw [h.ctx] at stops
  exact ⟨gone, record, fun h0 h15 ha => stops h0 h15 ((hm o.ctx).symm.trans ha)⟩

/-- The operation that ends with `o`: itself, or the ROOT that it belongs to, which stands in the same place. -/
structure WholeOf (o w : Op) : Prop where
  ctx : w.ctx = o.ctx
  seq : w.seq = o.seq
  word : w.word = o.word
  opc : w.opc = if o.ofLehr then 0x0B else o.opc
  status : w.status = o.status
  wrs : w.wrs = o.wrs
  acks : w.acks = o.acks
  q : w.q = o.q
  qidx : w.qidx = o.qidx
  aux : w.aux = o.aux

/-- An operation stands in the block, but for what is left of its message. -/
def Stands (s : State) (o : Op) : Prop := ∃ n, s.op? o.ctx o.seq = some { o with left := n }

theorem whole_wholeOf {s : State} {o : Op} (h : Stands s o) : WholeOf o (o.whole s) := by
  obtain ⟨n, hn⟩ := h
  unfold Op.whole
  rw [hn]
  split
  · next hl => exact ⟨rfl, rfl, rfl, by rw [if_pos hl], rfl, rfl, rfl, rfl, rfl, rfl⟩
  · next hl => exact ⟨rfl, rfl, rfl, by rw [if_neg hl], rfl, rfl, rfl, rfl, rfl, rfl⟩

theorem WholeOf.sameName {o p v w : Op} (hv : WholeOf o v) (hw : WholeOf p w) (h : SameName o p) : SameName v w := by
  have hl : p.ofLehr = o.ofLehr := by rw [Op.ofLehr, h.opc, Op.ofLehr]
  exact ⟨by rw [hw.ctx, hv.ctx, h.ctx], by rw [hw.seq, hv.seq, h.seq], by rw [hw.opc, hv.opc, hl, h.opc], by rw [hw.word, hv.word, h.word]⟩

/-- An operation with PORT_ERROR as its STATUS. -/
def Op.portError (o : Op) : Op := { o with status := 0x12 }

theorem failOp_portError {o : Op} {v : State} (h : Stands v o) (h0 : o.status = 0) : failOp o 0x12 v =
    if o.wrs = 0 ∧ o.acks = 0 then release (o.whole v).portError v else holdFailed (o.whole v).portError v := by
  have hw := whole_wholeOf h
  have hcode : { o.whole v with status := if (o.whole v).status == 0 then 0x12 else (o.whole v).status } = (o.whole v).portError := by
    rw [hw.status, h0]
    rfl
  have hfail : failOp o 0x12 v = if (o.whole v).wrs == 0 && (o.whole v).acks == 0 then release (o.whole v).portError v
      else holdFailed (o.whole v).portError v := by
    rw [← hcode]
    rfl
  rw [hfail, hw.wrs, hw.acks]
  exact if_congr (by simp) rfl rfl

/-- An operation that fails stands until the other responses of its writes have come. -/
theorem holdFailed_mem {w p : Op} {v : State} (hp : p ∈ v.ops) (his : p.is w.ctx w.seq = true) :
    { w with stage := .flushing } ∈ (holdFailed w v).ops := by
  have hside : p.side = false := by
    simp only [Op.is, Bool.and_eq_true, Bool.not_eq_true'] at his
    exact his.2
  unfold holdFailed
  dsimp only
  split
  · refine List.mem_map.2 ⟨p, List.mem_filter.2 ⟨hp, ?_⟩, if_pos his⟩
    rw [hside, Bool.and_false]
    rfl
  · exact List.mem_map.2 ⟨p, hp, if_pos his⟩

/-! ### The failure of a request -/

/-- The block when the failure of a request of an operation is in the log and what the operation writes is undefined (R206, R276). -/
def portBroken (b : Bay) (wr : Bool) (o : Op) (s : State) : State :=
  undefineOutputs o (settleFlow (report 0x12 2 (ctxCode o.ctx) 5 (b.val * 2 ^ 28 + wr.toNat) s))

theorem portFail_eq (b : Bay) (wr : Bool) (o : Op) (s : State) : portFail b wr o s = failOp o 0x12 (portBroken b wr o s) := rfl

theorem settleFlow_silent (s : State) : Silent s (settleFlow s) := ⟨rfl, rfl, rfl, rfl, fun _ => rfl, rfl, rfl, rfl⟩

theorem portId_lt (b : Bay) (wr : Bool) : b.val * 2 ^ 28 + wr.toNat < 2 ^ 32 := by
  have := b.isLt
  cases wr <;> simp <;> omega

section
variable (b : Bay) (wr : Bool) {o : Op} {s : State}

theorem portBroken_ctx : (portBroken b wr o s).ctx = s.ctx := by
  rw [portBroken, (undefineOutputs_undefined ..).rest]
  exact report_ctx ..

theorem portBroken_stands (h : s.op? o.ctx o.seq = some o) : Stands (portBroken b wr o s) o := by
  have hr : (report 0x12 2 (ctxCode o.ctx) 5 (b.val * 2 ^ 28 + wr.toNat) s).op? o.ctx o.seq = some o := by
    rw [State.op?, report_ops]
    exact h
  obtain ⟨n, hn⟩ := (settleFlow_flowed _).op? hr
  refine ⟨n, ?_⟩
  rw [portBroken, State.op?, (undefineOutputs_undefined ..).rest]
  exact hn

/-- After the report nothing else enters the log, and no time passes. -/
theorem portFail_silent : Silent (report 0x12 2 (ctxCode o.ctx) 5 (b.val * 2 ^ 28 + wr.toNat) s) (portFail b wr o s) := by
  rw [portFail_eq]
  exact ((settleFlow_silent _).trans (undefineOutputs_undefined ..).silent).trans (failOp_departs ..).silent

theorem report_port (code : Nat) (cls : BitVec 3) (ctx typ id : Nat) (d : Bay) : ((report code cls ctx typ id s).by d).port = (s.by d).port := by
  rw [report_ras_only]
  rfl

theorem portFail_port (d : Bay) : ((portFail b wr o s).by d).port = (s.by d).port := ((portFail_silent b wr).port d).trans (report_port ..)

theorem portFail_clk : (portFail b wr o s).clk = s.clk := (portFail_silent b wr).clk.trans (by rw [report_ras_only])

theorem portFail_failWin : (portFail b wr o s).g.failWin = s.g.failWin := (portFail_silent b wr).failWin.trans (by rw [report_ras_only])

theorem portFail_setup : SameSetup s (portFail b wr o s) := SameSetup.trans (report_works ..).toLapsed.sameSetup (portFail_silent b wr).setup

theorem portFail_entered (h : Roomy s 0x12 5 (b.val * 2 ^ 28 + wr.toNat)) : Entered (portFail b wr o s) 0x12 5 (b.val * 2 ^ 28 + wr.toNat) :=
  (portFail_silent b wr).entered (report_entered 2 (ctxCode o.ctx) (by omega) (by omega) (portId_lt b wr) h)

/-- A failed request makes its operation fail (R205, R206, R231). -/
theorem portFail_fails (h : s.op? o.ctx o.seq = some o) (hr : (s.cx o.ctx).rstBusy = false) (h0 : o.status = 0) :
    PortFails s o (o.wrs = 0 ∧ o.acks = 0) (portFail b wr o s) := by
  have hstands := portBroken_stands b wr h
  have hw := whole_wholeOf hstands
  have hcx := cx_of_ctx (portBroken_ctx b wr (o := o) (s := s))
  have hctx : (o.whole (portBroken b wr o s)).portError.ctx = o.ctx := hw.ctx
  rw [PortFails, portFail_eq, failOp_portError hstands h0]
  by_cases hlast : o.wrs = 0 ∧ o.acks = 0
  · rw [if_pos hlast, if_pos hlast]
    have hself : WholeOf o (o.whole s) := whole_wholeOf ⟨o.left, h⟩
    have hname := hself.sameName hw ⟨rfl, rfl, rfl, rfl⟩
    have hbusy : ((releaseUnits (o.whole (portBroken b wr o s)).portError (portBroken b wr o s)).cx
        (o.whole (portBroken b wr o s)).portError.ctx).rstBusy = false := by
      rw [cx_of_ctx (releaseUnits_ctx ..), hctx, hcx, hr]
    refine ⟨hname.endsWith (p := (o.whole (portBroken b wr o s))) (r := portBroken b wr o s) (fun c => by rw [hcx]) ?_, ?_⟩
    · exact release_endsWith_status (p := (o.whole (portBroken b wr o s)).portError) rfl rfl rfl rfl (by rw [hw.ctx, hcx, hr]) rfl
    · have hnoted := complete_noted hbusy (show (0x12 : Nat) ≠ 0 by decide) (show (0x12 : Nat) ≠ 0x15 by decide)
      have hq : (o.whole (portBroken b wr o s)).portError.q = o.q := hw.q
      have hqidx : (o.whole (portBroken b wr o s)).portError.qidx = o.qidx := hw.qidx
      have haux : (o.whole (portBroken b wr o s)).portError.aux = o.aux := hw.aux
      rw [hctx, hq, hqidx, haux] at hnoted
      exact faultNoted_of_eq hnoted (by rw [cx_of_ctx (releaseUnits_ctx ..), hcx]) rfl rfl
  · rw [if_neg hlast, if_neg hlast]
    obtain ⟨n, hn⟩ := hstands
    have hname : (o.whole (portBroken b wr o s)).portError.seq = o.seq := hw.seq
    have hmem := holdFailed_mem (w := (o.whole (portBroken b wr o s)).portError) (mem_of_op? hn)
      (by rw [hctx, hname]; simpa using List.find?_some hn)
    exact ⟨_, hmem, hw.ctx, hw.seq, rfl, rfl⟩

end

/-- A failure noted for an operation whose responses have been counted since. -/
theorem PortFails.counted {s u t : State} {o p : Op} {last last' : Prop} [Decidable last] [Decidable last'] (h : PortFails u p last t)
    (hiff : last ↔ last') (hcx : u.ctx = s.ctx) (hname : SameName o p) (hq : p.q = o.q) (hidx : p.qidx = o.qidx) (haux : p.aux = o.aux)
    (ho : s.op? o.ctx o.seq = some o) (hp : u.op? p.ctx p.seq = some p) : PortFails s o last' t := by
  unfold PortFails at *
  split at h
  · next hl =>
    obtain ⟨hends, hnoted⟩ := h
    rw [if_pos (hiff.1 hl)]
    have hwhole := (whole_wholeOf ⟨o.left, ho⟩).sameName (whole_wholeOf ⟨p.left, hp⟩) hname
    rw [hname.ctx, hq, hidx, haux] at hnoted
    exact ⟨hwhole.endsWith (fun c => by rw [cx_of_ctx hcx]) hends, faultNoted_of_eq hnoted (by rw [cx_of_ctx hcx]) rfl rfl⟩
  · next hl =>
    rw [if_neg (fun h' => hl (hiff.2 h'))]
    rw [hname.ctx, hname.seq] at h
    exact h

end Sys2Proof.Machine
end

section
/-! SUPPORT. The requests that a port holds, and the responses that it gives in order (R202, R204). -/

namespace Sys2Proof.Machine

open Sys2Proof Sys2Proof.Claims

/-- Nothing but the bays differs. -/
structure BaysOnly (s t : State) : Prop where
  rest : t = { s with bay := t.bay }

section
variable {s t : State} (h : BaysOnly s t)
include h

theorem BaysOnly.trans {u : State} (k : BaysOnly t u) : BaysOnly s u := ⟨k.rest.trans (by rw [h.rest])⟩
theorem BaysOnly.ctx : t.ctx = s.ctx := by rw [h.rest]
theorem BaysOnly.ops : t.ops = s.ops := by rw [h.rest]
theorem BaysOnly.staging : t.staging = s.staging := by rw [h.rest]
theorem BaysOnly.clk : t.clk = s.clk := by rw [h.rest]
theorem BaysOnly.failWin : t.g.failWin = s.g.failWin := by rw [h.rest]
theorem BaysOnly.timebase : timebase t = timebase s := by rw [h.rest]; rfl
theorem BaysOnly.setup : SameSetup s t := ⟨by rw [h.rest], by rw [h.rest], by rw [h.rest]⟩

theorem BaysOnly.entered {code typ id : Nat} (k : Entered s code typ id) : Entered t code typ id := by
  obtain ⟨i, e, he, hs, hl⟩ := k
  exact ⟨i, e, by rw [h.rest]; exact he, hs, by rw [h.timebase, hl]⟩

theorem BaysOnly.endsWith {r : State} {o : Op} {k : Nat} (he : EndsWith r o k s) : EndsWith r o k t := by
  obtain ⟨gone, record, stops⟩ := he
  refine ⟨h.ops ▸ gone, ?_, ?_⟩
  · rw [cx_of_ctx h.ctx]
    exact record
  · rw [cx_of_ctx h.ctx]
    exact stops

theorem BaysOnly.portFails {r : State} {o : Op} {last : Prop} [Decidable last] (hf : PortFails r o last s) : PortFails r o last t := by
  unfold PortFails at *
  split at hf
  · next hl =>
    rw [if_pos hl]
    exact ⟨h.endsWith hf.1, faultNoted_of_eq hf.2 rfl (by rw [cx_of_ctx h.ctx]) h.timebase⟩
  · next hl =>
    rw [if_neg hl, h.ops]
    exact hf

end

/-! ### Requests that wait go out -/

theorem pumpRd_writes (t : Nat) (l : List RdReq) (p : Port) :
    (p.pumpRd t l).wr = p.wr ∧ (p.pumpRd t l).wrWait = p.wrWait ∧ (p.pumpRd t l).rdGone = p.rdGone := by
  induction l generalizing p with
  | nil => exact ⟨rfl, rfl, rfl⟩
  | cons r l ih =>
    unfold Port.pumpRd
    split
    exacts [ih _, ⟨rfl, rfl, rfl⟩]

theorem pumpRd_idle (t : Nat) (p : Port) (h : p.rdWait = []) : p.pumpRd t p.rdWait = p := by
  rw [h]
  show { p with rdWait := [] } = p
  rw [← h]

theorem pumpWr_idle (t : Nat) (p : Port) (h : p.wrWait = []) : p.pumpWr t p.wrWait = p := by
  rw [h]
  show { p with wrWait := [] } = p
  rw [← h]

theorem sendWr_reads (p : Port) (r : WrReq) (t : Nat) : (p.sendWr r t).rd = p.rd ∧ (p.sendWr r t).rdGone = p.rdGone := by
  cases r <;> exact ⟨rfl, rfl⟩

theorem sendWr_bare (p : Port) (r : WrReq) (t : Nat) : (p.sendWr r t).wr.map bare = p.wr.map bare ++ [bare r] := by
  cases r <;> simp [Port.sendWr, bare]

theorem pumpWr_reads (t : Nat) (l : List WrReq) (p : Port) : (p.pumpWr t l).rd = p.rd ∧ (p.pumpWr t l).rdGone = p.rdGone := by
  induction l generalizing p with
  | nil => exact ⟨rfl, rfl⟩
  | cons r l ih =>
    unfold Port.pumpWr
    split
    · obtain ⟨hrd, hgone⟩ := sendWr_reads p r t
      exact ⟨(ih _).1.trans hrd, (ih _).2.trans hgone⟩
    · exact ⟨rfl, rfl⟩

/-- What a write port has been asked to send is the same when a part of it goes out. -/
theorem pumpWr_asks (t : Nat) (l : List WrReq) (p : Port) : asks (p.pumpWr t l) = p.wr.map bare ++ l.map bare := by
  induction l generalizing p with
  | nil => simp [Port.pumpWr, asks]
  | cons r l ih =>
    unfold Port.pumpWr
    split
    · rw [ih, sendWr_bare, List.append_assoc]
      rfl
    · exact List.map_append

theorem pumpPorts_baysOnly (b : Bay) (s : State) : BaysOnly s (pumpPorts b s) := ⟨rfl⟩

theorem pumpPorts_port (b : Bay) (s : State) : ((pumpPorts b s).by b).port =
    ((s.by b).port.pumpRd s.clk (s.by b).port.rdWait).pumpWr s.clk (s.by b).port.wrWait := by
  rw [pumpPorts, modBay_by]

theorem pumpPorts_rd {b : Bay} {s : State} (h : (s.by b).port.rdWait = []) :
    ((pumpPorts b s).by b).port.rd = (s.by b).port.rd ∧ ((pumpPorts b s).by b).port.rdGone = (s.by b).port.rdGone := by
  rw [pumpPorts_port, pumpRd_idle _ _ h]
  exact pumpWr_reads ..

theorem pumpPorts_wr {b : Bay} {s : State} (h : (s.by b).port.wrWait = []) : ((pumpPorts b s).by b).port.wr = (s.by b).port.wr := by
  obtain ⟨hwr, hwait, -⟩ := pumpRd_writes s.clk (s.by b).port.rdWait (s.by b).port
  have hidle := hwait.trans h
  rw [pumpPorts_port, h, ← hidle, pumpWr_idle _ _ hidle, hwr]

theorem pumpPorts_asks (b : Bay) (s : State) (d : Bay) : asks ((pumpPorts b s).by d).port = asks (s.by d).port := by
  by_cases hd : d = b
  · subst hd
    rw [pumpPorts_port, pumpWr_asks, (pumpRd_writes ..).1, asks, List.map_append]
  · rw [pumpPorts, modBay_by_ne _ _ _ hd]

/-! ### Responses of a read port -/

/-- The block whose read port holds these requests. -/
def setRd (b : Bay) (l : List RdReq) (s : State) : State := s.modBay b fun x => { x with port := { x.port with rd := l } }

theorem setRd_baysOnly (b : Bay) (l : List RdReq) (s : State) : BaysOnly s (setRd b l s) := ⟨rfl⟩

theorem setRd_port (b : Bay) (l : List RdReq) (s : State) : ((setRd b l s).by b).port = { (s.by b).port with rd := l } := by
  rw [setRd, modBay_by]

theorem setRd_asks (b : Bay) (l : List RdReq) (s : State) (d : Bay) : asks ((setRd b l s).by d).port = asks (s.by d).port := by
  by_cases hd : d = b
  · subst hd
    rw [setRd_port]
    rfl
  · rw [setRd, modBay_by_ne _ _ _ hd]

/-- A port whose oldest request is unanswered gives no response. -/
theorem popReads_waits (b : Bay) {l : List RdReq} (h : ∀ x, l.head? = some x → x.reply = none) (s : State) : popReads b l s = setRd b l s := by
  cases l with
  | nil => rfl
  | cons x l =>
    unfold popReads
    rw [h x rfl]
    rfl

/-- A response to the oldest request alone is given, and the others wait. -/
theorem popReads_one (b : Bay) (r : RdReq) (p : Reply) {l : List RdReq} (h : ∀ x, l.head? = some x → x.reply = none) (s : State) :
    popReads b ({ r with reply := some p } :: l) s = setRd b l (answerRead b { r with reply := some p } p s) := popReads_waits b h _

theorem putReply_head {r : RdReq} (h : r.reply = none) (p : Reply) (l : List RdReq) : putReply r.tag p (r :: l) = { r with reply := some p } :: l := by
  rw [putReply, h]
  simp

theorem putReply_behind {r : RdReq} {tag : BitVec 14} (h : tag ≠ r.tag) (p : Reply) (l : List RdReq) :
    putReply tag p (r :: l) = r :: putReply tag p l := by
  rw [putReply]
  simp [h.symm]

/-! ### RDATA -/

section
variable {b : Bay} {s : State} {tag : BitVec 14} {st : PortStatus} {data : List Byte} (hb : s.present b = true)
include hb

theorem exec_rdata_gone (hgone : (s.by b).port.rdGone.contains tag = true) : exec (.rdata b tag st data) s =
    .next (pumpPorts b (s.modBay b fun x => { x with port := { x.port with rdGone := x.port.rdGone.erase tag } })) := by
  show execRdata b tag st data s = _
  rw [execRdata, hb, hgone]
  rfl

theorem exec_rdata_answers (hgone : (s.by b).port.rdGone.contains tag = false) (hlen : data.length = 64) : exec (.rdata b tag st data) s =
    .next (pumpPorts b (popReads b (putReply tag (st, data) (s.by b).port.rd) s)) := by
  have hwf : (Instr.rdata b tag st data).wellFormed = true := by simp [Instr.wellFormed, hlen]
  show execRdata b tag st data s = _
  rw [execRdata, hb, hgone, hwf]
  rfl

end

end Sys2Proof.Machine
end

section
/-! Settles the statement about the responses of a read port. -/

namespace Sys2Proof.Machine

open Sys2Proof Sys2Proof.Claims

/-! ### A line reaches its operation -/

/-- An operation that a line has reached (R204). -/
def lineTaken (s : State) (r : RdReq) (data : List Byte) (o : Op) : Op :=
  let p := firstLine s (s.clk - r.time) o
  { p with rds := p.rds - 1, got := p.got ++ [(r.line, data)], tProg := s.clk }

/-- A line changes the times of its operation, what it has got, and what it waits for. -/
theorem lineTaken_eq (s : State) (r : RdReq) (data : List Byte) (o : Op) : ∃ lat first ran due, lineTaken s r data o =
    { o with lat := lat, tFirst := first, ran := ran, tDue := due, rds := o.rds - 1, got := o.got ++ [(r.line, data)], tProg := s.clk } := by
  unfold lineTaken firstLine
  split
  · exact ⟨_, _, _, _, rfl⟩
  · split <;> exact ⟨_, _, _, _, rfl⟩

theorem lineTaken_is (s : State) (r : RdReq) (data : List Byte) (c : Ctx) (q : BitVec 8) (o : Op) : (lineTaken s r data o).is c q = o.is c q := by
  obtain ⟨_, _, _, _, h⟩ := lineTaken_eq s r data o
  rw [h]
  rfl

section
variable {s : State} {o : Op} (ho : s.op? o.ctx o.seq = some o) (r : RdReq) (data : List Byte)
include ho

theorem deliverLine_eq : deliverLine o.ctx o.seq r data s =
    if atomMay (s.modOp o.ctx o.seq (lineTaken s r data)) (lineTaken s r data o)
    then atomGo (lineTaken s r data o) (s.modOp o.ctx o.seq (lineTaken s r data)) else s.modOp o.ctx o.seq (lineTaken s r data) := by
  have hop := modOp_op? (f := lineTaken s r data) (fun p => lineTaken_is s r data o.ctx o.seq p) ho
  show (match (s.modOp o.ctx o.seq (lineTaken s r data)).op? o.ctx o.seq with
    | some o => if atomMay (s.modOp _ _ (lineTaken s r data)) o then atomGo o (s.modOp _ _ (lineTaken s r data)) else s.modOp _ _ (lineTaken s r data)
    | none => s.modOp _ _ (lineTaken s r data)) = _
  rw [hop]

theorem deliverLine_stays (hopc : o.opc ≠ 0x13) : deliverLine o.ctx o.seq r data s = s.modOp o.ctx o.seq (lineTaken s r data) := by
  obtain ⟨_, _, _, _, hline⟩ := lineTaken_eq s r data o
  rw [deliverLine_eq ho, if_neg]
  rw [hline]
  simp [atomMay, hopc]

end

/-- The operation that a line has reached stands in its place. -/
theorem lineTaken_op? {s : State} {o : Op} (ho : s.op? o.ctx o.seq = some o) (r : RdReq) (data : List Byte) :
    ∃ p, (s.modOp o.ctx o.seq (lineTaken s r data)).op? o.ctx o.seq = some p ∧ p.rds = o.rds - 1 ∧ p.got = o.got ++ [(r.line, data)] := by
  have hop := modOp_op? (f := lineTaken s r data) (fun p => lineTaken_is s r data o.ctx o.seq p) ho
  obtain ⟨_, _, _, _, hline⟩ := lineTaken_eq s r data o
  exact ⟨_, hop, by rw [hline], by rw [hline]⟩

theorem answerRead_ok {r : RdReq} {c : Ctx} {q : BitVec 8} (howner : r.owner = .op c q) (b : Bay) (data : List Byte) (s : State) :
    answerRead b r (.ok, data) s = deliverLine c q r data s := by
  unfold answerRead
  rw [howner]

theorem answerRead_err (b : Bay) (r : RdReq) (data : List Byte) (s : State) : answerRead b r (.err, data) s = readFailed b r s := rfl

theorem readFailed_op {r : RdReq} {o : Op} {s : State} (howner : r.owner = .op o.ctx o.seq) (ho : s.op? o.ctx o.seq = some o) (b : Bay) :
    readFailed b r s = portFail b false o s := by
  unfold readFailed
  rw [howner]
  show (match s.op? o.ctx o.seq with | some o => portFail b false o s | none => s) = _
  rw [ho]

/-! ### The last addends of an ATOMADD -/

/-- Lines that reach operations hold none back, nor let any go on (R162, R192). -/
theorem lineTaken_accessWaits (s : State) (r : RdReq) (data : List Byte) (o : Op) :
    accessWaits (s.modOp o.ctx o.seq (lineTaken s r data)) (lineTaken s r data o) = accessWaits s o := by
  have hscrub : scrubbing (s.modOp o.ctx o.seq (lineTaken s r data)) = scrubbing s := scrubbing_map fun p => by
    split
    · obtain ⟨_, _, _, _, hp⟩ := lineTaken_eq s r data p
      rw [hp]
      exact ⟨rfl, rfl, rfl⟩
    · exact ⟨rfl, rfl, rfl⟩
  have hholds : ∀ rs, scrubHolds (s.modOp o.ctx o.seq (lineTaken s r data)) rs = scrubHolds s rs := fun rs => by
    rw [scrubHolds, hscrub, scrubHolds]
  obtain ⟨_, _, _, _, hline⟩ := lineTaken_eq s r data o
  rw [accessWaits, hline, hholds]
  rfl

/-- The block when the last addends of an ATOMADD have come and its adds go out (R183). -/
def atomAnswered (s : State) (r : RdReq) (data : List Byte) (o : Op) (w : List (Nat × Word)) : State :=
  issueAdds o.ctx o.seq (opPorts s o) (outRanges o) w
    ((s.modOp o.ctx o.seq (lineTaken s r data)).modOp o.ctx o.seq fun o => { o with stage := .flushing })

section
variable {s : State} {o : Op} (ho : s.op? o.ctx o.seq = some o) (r : RdReq) (data : List Byte)
include ho

theorem deliverLine_adds (hopc : o.opc = 0x13) (hstage : o.stage = .granted) (hrds : o.rds = 1) (hmem : o.member = false)
    (hfree : accessWaits s o = false) (hports : portless s o.ctx (outRanges o) = false) (hclean : poisonedIn s (viewRanges .fp32 o.da) = none) :
    deliverLine o.ctx o.seq r data s =
      atomAnswered s r data o (atomTargets (opRead s { o with got := o.got ++ [(r.line, data)] }) o) := by
  have hwaits := lineTaken_accessWaits s r data o
  obtain ⟨lat, first, ran, due, hline⟩ := lineTaken_eq s r data o
  have hmay : atomMay (s.modOp o.ctx o.seq (lineTaken s r data)) (lineTaken s r data o) = true := by
    rw [atomMay, hwaits, hfree, hline]
    show (o.opc == 0x13 && o.stage == .granted && o.rds - 1 == 0 && !false && (o.member || !portless s o.ctx (outRanges o))) = true
    rw [hopc, hstage, hrds, hports, Bool.not_false, Bool.or_true]
    rfl
  have hda : (lineTaken s r data o).da = o.da := by rw [hline]
  have hmem' : (lineTaken s r data o).member = false := by rw [hline, hmem]
  have hclean' : poisonedIn (s.modOp o.ctx o.seq (lineTaken s r data)) (viewRanges .fp32 (lineTaken s r data o).da) = none := by
    rw [hda]
    exact hclean
  rw [deliverLine_eq ho, if_pos hmay, atomGo_clean hclean', hmem', if_neg Bool.false_ne_true, hline]
  rfl

theorem atomAnswered_op? (w : List (Nat × Word)) : ∃ p, (atomAnswered s r data o w).op? o.ctx o.seq = some p ∧ p.rds = o.rds - 1 ∧
    p.stage = .flushing ∧ p.acks = o.acks + (deal (opPorts s o) (addLines w)).length := by
  have hop := modOp_op? (f := lineTaken s r data) (fun p => lineTaken_is s r data o.ctx o.seq p) ho
  obtain ⟨_, _, _, _, hline⟩ := lineTaken_eq s r data o
  rw [hline] at hop
  have hflush := modOp_op? (f := fun o : Op => { o with stage := .flushing }) (fun _ => rfl) hop
  exact ⟨_, issueAdds_op? hflush (opPorts s o) (outRanges o) w, rfl, rfl, rfl⟩

end

theorem atomAnswered_asks (s : State) (r : RdReq) (data : List Byte) (o : Op) (w : List (Nat × Word)) (k : Bay) :
    asks ((atomAnswered s r data o w).by k).port = asks (s.by k).port ++ adds s o.ctx o.seq (opPorts s o) (outRanges o) w k := issueAdds_asks ..

end Sys2Proof.Machine

namespace Sys2Proof.Claims

open Sys2Proof Sys2Proof.Machine

section
variable {b : Bay} {s : State} {r : RdReq} {l : List RdReq} {data : List Byte} (hb : s.present b = true) (hrd : (s.by b).port.rd = r :: l)
  (hgone : (s.by b).port.rdGone.contains r.tag = false) (hnone : r.reply = none) (hlen : data.length = 64)
include hb hrd

include hgone hnone hlen in
/-- A response to the oldest request is given at once. -/
theorem exec_rdata_oldest (hnext : ∀ x, l.head? = some x → x.reply = none) (st : PortStatus) : exec (.rdata b r.tag st data) s =
    .next (pumpPorts b (setRd b l (answerRead b { r with reply := some (st, data) } (st, data) s))) := by
  rw [exec_rdata_answers hb hgone hlen, hrd, putReply_head hnone, popReads_one b r (st, data) hnext]

include hnone hlen in
/-- A response to a later request waits behind the oldest one. -/
theorem exec_rdata_behind {tag : BitVec 14} (htag : tag ≠ r.tag) (hlate : (s.by b).port.rdGone.contains tag = false) (st : PortStatus) :
    exec (.rdata b tag st data) s = .next (pumpPorts b (setRd b (r :: putReply tag (st, data) l) s)) := by
  rw [exec_rdata_answers hb hlate hlen, hrd, putReply_behind htag, popReads_waits]
  intro x hx
  cases hx
  exact hnone

end

/-- Settles O34: only the response to the oldest request is given, and nothing behind it follows. -/
theorem readPortAnswersInOrder : Obligations.ReadPortAnswersInOrder := by
  intro b s r l c q o data hb hrd hwait hgone hnone hlen howner ho hnext
  obtain ⟨rfl, rfl, -⟩ := op?_is ho
  have hanswer : ∀ st : PortStatus, exec (.rdata b r.tag st data) s = _ := exec_rdata_oldest hb hrd hgone hnone hlen hnext
  have hend : ∀ u, BaysOnly u (pumpPorts b (setRd b l u)) := fun u => (setRd_baysOnly b l u).trans (pumpPorts_baysOnly ..)
  have hline := answerRead_ok (r := { r with reply := some (.ok, data) }) howner b data s
  refine ⟨fun hopc => ?_, fun hr h0 => ?_, fun hopc hstage hrds hmem hfree hports hclean w hw => ?_, fun tag htag => ?_⟩
  · rw [hanswer, hline, deliverLine_stays ho _ _ hopc]
    obtain ⟨p, hp, hprds, hpgot⟩ := lineTaken_op? ho { r with reply := some (.ok, data) } data
    obtain ⟨hpc, hpq, -⟩ := op?_is hp
    refine ⟨_, rfl, ?_, (hend _).ctx, (hend _).staging, SameSetup.trans (sameSetup_of_keeps (modOp_keeps ..)) (hend _).setup, p, ?_, hpc, hpq, hprds, hpgot⟩
    · rw [(pumpPorts_rd _).1, setRd_port]
      rw [setRd_port]
      exact hwait
    · rw [(hend _).ops]
      exact mem_of_op? hp
  · rw [hanswer, answerRead_err, readFailed_op (r := { r with reply := some (.err, data) }) howner ho]
    refine ⟨_, rfl, SameSetup.trans (portFail_setup b false) (hend _).setup, logged_of_entered fun hfree => ?_, ?_⟩
    · have hentered := portFail_entered b false (o := o) (roomy_of_free (s := s) rfl hfree)
      rw [Bool.toNat_false, Nat.add_zero] at hentered
      exact (hend _).entered hentered
    · exact (hend _).portFails (portFail_fails b false ho hr h0)
  · rw [hanswer, hline, deliverLine_adds ho _ _ hopc hstage hrds hmem hfree hports hclean, ← hw]
    obtain ⟨p, hp, hprds, hpstage, hpacks⟩ := atomAnswered_op? ho { r with reply := some (.ok, data) } data w
    obtain ⟨hpc, hpq, -⟩ := op?_is hp
    have hkeeps : Keeps s (atomAnswered s { r with reply := some (.ok, data) } data o w) :=
      ((modOp_keeps ..).trans (modOp_keeps ..)).trans (issueAdds_keeps ..)
    refine ⟨_, rfl, (hend _).staging.trans hkeeps.staging, SameSetup.trans (sameSetup_of_keeps hkeeps) (hend _).setup,
      ⟨p, by rw [(hend _).ops]; exact mem_of_op? hp, hpc, hpq, by omega, hpstage, hpacks⟩, fun k => ?_⟩
    rw [pumpPorts_asks, setRd_asks, atomAnswered_asks]
  · cases hlate : (s.by b).port.rdGone.contains tag with
    | false =>
      rw [exec_rdata_behind hb hrd hnone hlen htag hlate]
      have hkept := (setRd_baysOnly b (r :: putReply tag (.ok, data) l) s).trans (pumpPorts_baysOnly b _)
      refine ⟨_, rfl, ?_, hkept.ops, hkept.ctx, hkept.staging, fun h => by cases h⟩
      rw [(pumpPorts_rd _).1, setRd_port]
      · rfl
      · rw [setRd_port]
        exact hwait
    | true =>
      rw [exec_rdata_gone hb hlate]
      obtain ⟨hrds, hgones⟩ := pumpPorts_rd (b := b) (s := s.modBay b fun x => { x with port := { x.port with rdGone := x.port.rdGone.erase tag } })
        (by rw [modBay_by]; exact hwait)
      rw [modBay_by] at hrds hgones
      have hrds' := hrds.trans hrd
      exact ⟨_, rfl, by rw [hrds']; rfl, rfl, rfl, rfl, fun _ => ⟨hrds', hgones⟩⟩

end Sys2Proof.Claims
end

section
/-! Settles the statement about the acknowledgements, errors and time-outs of the ports. -/

namespace Sys2Proof.Machine

open Sys2Proof Sys2Proof.Claims

/-! ### The response of an add or a flush -/

/-- An operation whose add or flush is answered. -/
def Op.responded (add : Bool) (o : Op) : Op := if add then { o with acks := o.acks - 1 } else { o with wrs := o.wrs - 1 }

/-- A response changes what an operation waits for, and nothing else of it. -/
theorem responded_eq (add : Bool) (o : Op) : ∃ m n, o.responded add = { o with acks := m, wrs := n } := by
  cases add
  exacts [⟨_, _, rfl⟩, ⟨_, _, rfl⟩]

/-- Whether an acknowledgement is the last response of an operation. -/
theorem responded_add_last (o : Op) : (o.responded true).wrs = 0 ∧ (o.responded true).acks = 0 ↔ o.acks ≤ 1 ∧ o.wrs = 0 := by
  show o.wrs = 0 ∧ o.acks - 1 = 0 ↔ _
  omega

/-- Whether the answer to a flush is. -/
theorem responded_flush_last (o : Op) : (o.responded false).wrs = 0 ∧ (o.responded false).acks = 0 ↔ o.wrs ≤ 1 ∧ o.acks = 0 := by
  show o.wrs - 1 = 0 ∧ o.acks = 0 ↔ _
  omega

theorem responded_is (add : Bool) (o : Op) (c : Ctx) (q : BitVec 8) : (o.responded add).is c q = o.is c q := by
  obtain ⟨_, _, h⟩ := responded_eq add o
  rw [h]
  rfl

theorem responded_sameName (add : Bool) (o : Op) : SameName o (o.responded add) := by
  obtain ⟨_, _, h⟩ := responded_eq add o
  rw [h]
  exact ⟨rfl, rfl, rfl, rfl⟩

section
variable {s v : State} {o : Op} (hctx : v.ctx = s.ctx) (hops : v.ops = s.ops) (ho : s.op? o.ctx o.seq = some o)
  (hr : (s.cx o.ctx).rstBusy = false) (h0 : o.status = 0) (add : Bool)
include hops ho

theorem responded_op? : (v.modOp o.ctx o.seq (Op.responded add)).op? o.ctx o.seq = some (o.responded add) := by
  refine modOp_op? (fun p => responded_is add p _ _) ?_
  rw [State.op?, hops]
  exact ho

theorem ownerDone_eq (hstage : o.stage = .flushing) : ownerDone (.op o.ctx o.seq) add v =
    if (o.responded add).wrs = 0 ∧ (o.responded add).acks = 0 then release (o.responded add) (v.modOp o.ctx o.seq (Op.responded add))
    else v.modOp o.ctx o.seq (Op.responded add) := by
  have hstage' : (o.responded add).stage = .flushing := by
    obtain ⟨_, _, h⟩ := responded_eq add o
    rw [h, hstage]
  have hdone : ownerDone (.op o.ctx o.seq) add v = checkAnswered o.ctx o.seq (v.modOp o.ctx o.seq (Op.responded add)) := rfl
  rw [hdone, checkAnswered, responded_op? hops ho]
  show (if _ then _ else _) = _
  rw [hstage']
  exact if_congr (by simp) rfl rfl

theorem ownerDone_departs (hstage : o.stage = .flushing) : Departs v (ownerDone (.op o.ctx o.seq) add v) := by
  have hmod : Departs v (v.modOp o.ctx o.seq (Op.responded add)) := .of_ctx rfl rfl fun _ => ⟨rfl, rfl⟩
  rw [ownerDone_eq hops ho add hstage]
  split
  exacts [hmod.trans (release_departs ..), hmod]

include hctx hr h0 in
/-- The last response of an operation completes it; before it the operation waits for one response less (R183, R205). -/
theorem ownerDone_outcome (hstage : o.stage = .flushing) :
    if (o.responded add).wrs = 0 ∧ (o.responded add).acks = 0 then EndsWith s o 0 (ownerDone (.op o.ctx o.seq) add v)
    else ∃ p ∈ (ownerDone (.op o.ctx o.seq) add v).ops, p.ctx = o.ctx ∧ p.seq = o.seq ∧
      if add then p.acks = o.acks - 1 else p.wrs = o.wrs - 1 := by
  rw [ownerDone_eq hops ho add hstage]
  have hname := responded_sameName add o
  have hstatus : (o.responded add).status = 0 := by
    obtain ⟨_, _, h⟩ := responded_eq add o
    rw [h, h0]
  split
  · exact release_endsWith hname.ctx hname.seq hname.opc hname.word hstatus ((congrArg CtxState.rstBusy (cx_of_ctx hctx o.ctx)).trans hr)
  · exact ⟨_, mem_of_op? (responded_op? hops ho add), hname.ctx, hname.seq, by cases add <;> rfl⟩

theorem ownerFailed_eq (b : Bay) : ownerFailed b add true (.op o.ctx o.seq) v =
    portFail b true (o.responded add) (v.modOp o.ctx o.seq (Op.responded add)) := by
  have h : ownerFailed b add true (.op o.ctx o.seq) v = match (v.modOp o.ctx o.seq (Op.responded add)).op? o.ctx o.seq with
    | some p => portFail b true p (v.modOp o.ctx o.seq (Op.responded add))
    | none => v.modOp o.ctx o.seq (Op.responded add) := rfl
  rw [h, responded_op? hops ho]

include hctx hr h0 in
/-- An error response makes its operation fail (R206, R231). -/
theorem ownerFailed_fails (b : Bay) :
    PortFails s o ((o.responded add).wrs = 0 ∧ (o.responded add).acks = 0) (ownerFailed b add true (.op o.ctx o.seq) v) := by
  obtain ⟨m, n, heq⟩ := responded_eq add o
  have hname := responded_sameName add o
  have hop : (v.modOp o.ctx o.seq (Op.responded add)).op? (o.responded add).ctx (o.responded add).seq = some (o.responded add) := by
    rw [hname.ctx, hname.seq]
    exact responded_op? hops ho add
  rw [ownerFailed_eq hops ho]
  refine PortFails.counted (portFail_fails b true hop ?_ ?_) Iff.rfl hctx hname ?_ ?_ ?_ ho hop
  · rw [hname.ctx]
    exact (congrArg CtxState.rstBusy (cx_of_ctx hctx o.ctx)).trans hr
  · rw [heq, h0]
  · rw [heq]
  · rw [heq]
  · rw [heq]

end

/-! ### The requests of a write port -/

theorem setWr_baysOnly (b : Bay) (l : List WrReq) (s : State) : BaysOnly s (setWr b l s) := ⟨rfl⟩

theorem setWr_port (b : Bay) (l : List WrReq) (s : State) : ((setWr b l s).by b).port = { (s.by b).port with wr := l } := by
  rw [setWr, modBay_by]

theorem takeAdd_head (tag : BitVec 12) (line : Nat) (far : Bool) (c : Ctx) (lanes : BitVec 16) (adds : List Word) (w : Owner) (time : Nat)
    (l : List WrReq) : takeAdd tag (.afadd tag line far c lanes adds w time :: l) = (some (w, time), l) := by
  rw [takeAdd]
  simp

theorem takeFlush_head (tag : BitVec 12) (w : Owner) (time : Nat) (l : List WrReq) :
    takeFlush tag [] (.flush tag w time :: l) = (some (w, time, []), l) := by
  rw [takeFlush]
  simp

/-! ### Expiries (R206, R275) -/

/-- The expiries that count against a port. -/
def Port.expiries (p : Port) (wr : Bool) : List Nat := if wr then p.wrExp else p.rdExp

/-- The block with these expiries of a port. -/
def setExpiries (b : Bay) (wr : Bool) (l : List Nat) (s : State) : State :=
  s.modBay b fun x => { x with port := if wr then { x.port with wrExp := l } else { x.port with rdExp := l } }

/-- The expiries of a port with the one of this moment. -/
def expiriesNow (b : Bay) (wr : Bool) (s : State) : List Nat :=
  (((s.by b).port.expiries wr).filter fun x => decide (timebase s < x + s.g.failWin.toNat * 1000000)) ++ [timebase s]

/-- The block whose bay is out of service for its port (R272). -/
def portFatal (b : Bay) (wr : Bool) (s : State) : State :=
  bayFatal b 0x12 (setExpiries b wr [] (report 0x12 3 0xF 5 (b.val * 2 ^ 28 + wr.toNat) s))

theorem setExpiries_baysOnly (b : Bay) (wr : Bool) (l : List Nat) (s : State) : BaysOnly s (setExpiries b wr l s) := ⟨rfl⟩

theorem expiriesNow_length (b : Bay) (wr : Bool) (s : State) : (expiriesNow b wr s).length = expired s s ((s.by b).port.expiries wr) + 1 := by
  rw [expiriesNow, List.length_append, ← List.countP_eq_length_filter]
  rfl

section
variable (b : Bay) (wr : Bool) {s : State}

theorem countExpiry_few (h : expired s s ((s.by b).port.expiries wr) < 3) : countExpiry b wr s = setExpiries b wr (expiriesNow b wr s) s := by
  have hlen := expiriesNow_length b wr s
  exact if_neg (show ¬(expiriesNow b wr s).length ≥ 4 by omega)

theorem countExpiry_fourth (h : 3 ≤ expired s s ((s.by b).port.expiries wr)) :
    countExpiry b wr s = portFatal b wr (setExpiries b wr (expiriesNow b wr s) s) := by
  have hlen := expiriesNow_length b wr s
  exact if_pos (show (expiriesNow b wr s).length ≥ 4 by omega)

end

/-- An expiry has been counted at bay b: no time has passed, the set-up and what the bay's read port holds are the same, and what has entered
the log as PORT_ERROR of this port still stands there. -/
structure ExpiryKept (b : Bay) (wr : Bool) (s t : State) : Prop where
  setup : SameSetup s t
  clk : t.clk = s.clk
  time : timebase t = timebase s
  rd : (t.by b).port.rd = (s.by b).port.rd
  rdWait : (t.by b).port.rdWait = (s.by b).port.rdWait
  rdGone : (t.by b).port.rdGone = (s.by b).port.rdGone
  entered : Entered s 0x12 5 (b.val * 2 ^ 28 + wr.toNat) → Entered t 0x12 5 (b.val * 2 ^ 28 + wr.toNat)

theorem ExpiryKept.trans {b : Bay} {wr : Bool} {s t u : State} (h : ExpiryKept b wr s t) (k : ExpiryKept b wr t u) : ExpiryKept b wr s u :=
  ⟨SameSetup.trans h.setup k.setup, k.clk.trans h.clk, k.time.trans h.time, k.rd.trans h.rd, k.rdWait.trans h.rdWait, k.rdGone.trans h.rdGone,
    k.entered ∘ h.entered⟩

theorem Silent.expiryKept {s t : State} (h : Silent s t) (b : Bay) (wr : Bool) : ExpiryKept b wr s t :=
  ⟨h.setup, h.clk, h.time, by rw [h.port], by rw [h.port], by rw [h.port], h.entered⟩

theorem setExpiries_kept (b : Bay) (wr : Bool) (l : List Nat) (s : State) : ExpiryKept b wr s (setExpiries b wr l s) := by
  have h := setExpiries_baysOnly b wr l s
  refine ⟨h.setup, h.clk, h.timebase, ?_, ?_, ?_, h.entered⟩ <;> rw [setExpiries, modBay_by] <;> cases wr <;> rfl

theorem roomy_of_entered {s : State} {code typ id : Nat} (h : Entered s code typ id) : Roomy s code typ id := by
  obtain ⟨i, e, he, hs, -⟩ := h
  refine ⟨i, fun x hx => ?_⟩
  rw [he] at hx
  cases hx
  exact hs

/-- A second report of the same source finds its entry. -/
theorem report_kept (b : Bay) (wr : Bool) (cls : BitVec 3) (ctx : Nat) (s : State) :
    ExpiryKept b wr s (report 0x12 cls ctx 5 (b.val * 2 ^ 28 + wr.toNat) s) :=
  ⟨(report_works ..).toLapsed.sameSetup, by rw [report_ras_only], report_timebase .., by rw [report_port], by rw [report_port], by rw [report_port],
    fun h => report_entered cls ctx (by omega) (by omega) (portId_lt b wr) (roomy_of_entered h)⟩

theorem portFatal_kept (b : Bay) (wr : Bool) (s : State) : ExpiryKept b wr s (portFatal b wr s) :=
  ((report_kept ..).trans (setExpiries_kept ..)).trans ((bayFatal_silent ..).expiryKept b wr)

theorem countExpiry_kept (b : Bay) (wr : Bool) (s : State) : ExpiryKept b wr s (countExpiry b wr s) := by
  by_cases h : expired s s ((s.by b).port.expiries wr) < 3
  · rw [countExpiry_few b wr h]
    exact setExpiries_kept ..
  · rw [countExpiry_fourth b wr (Nat.le_of_not_lt h)]
    exact (setExpiries_kept ..).trans (portFatal_kept ..)

theorem pumpPorts_oos (b : Bay) (s : State) (d : Bay) : ((pumpPorts b s).by d).oos = (s.by d).oos := by
  rw [pumpPorts, modBay_by_cases]
  split
  · next h => rw [h]
  · rfl

section
variable {s v : State} {b : Bay} {wr : Bool} (hwin : v.g.failWin = s.g.failWin)
  (hexp : (v.by b).port.expiries wr = (s.by b).port.expiries wr)
include hwin hexp

theorem expired_now : expired v v ((v.by b).port.expiries wr) = expired s (pumpPorts b (countExpiry b wr v)) ((s.by b).port.expiries wr) := by
  have htime : timebase (pumpPorts b (countExpiry b wr v)) = timebase v := (pumpPorts_baysOnly ..).timebase.trans (countExpiry_kept ..).time
  rw [expired, expired, htime, hwin, hexp]

/-- Fewer than four expiries leave the failure of the operation as it is. -/
theorem expiry_few {o : Op} {last : Prop} [Decidable last] (hfails : PortFails s o last v)
    (h : expired s (pumpPorts b (countExpiry b wr v)) ((s.by b).port.expiries wr) < 3) :
    PortFails s o last (pumpPorts b (countExpiry b wr v)) := by
  have hfew := countExpiry_few b wr (s := v) (by rw [expired_now hwin hexp]; exact h)
  rw [hfew]
  exact ((setExpiries_baysOnly ..).trans (pumpPorts_baysOnly ..)).portFails hfails

/-- The fourth expiry takes the bay out of service (R272, R275). -/
theorem expiry_fourth (h : 3 ≤ expired s (pumpPorts b (countExpiry b wr v)) ((s.by b).port.expiries wr)) :
    (pumpPorts b (countExpiry b wr v)).inService b = false := by
  have hoos : ((pumpPorts b (countExpiry b wr v)).by b).oos = true := by
    rw [pumpPorts_oos, countExpiry_fourth b wr (by rw [expired_now hwin hexp]; exact h)]
    exact bayFatal_oos ..
  rw [State.inService, hoos, Bool.not_true, Bool.and_false]

end

end Sys2Proof.Machine

namespace Sys2Proof.Claims

open Sys2Proof Sys2Proof.Machine

theorem PortFails.congr {s t : State} {o : Op} {last last' : Prop} [Decidable last] [Decidable last'] (h : PortFails s o last t)
    (hiff : last ↔ last') : PortFails s o last' t := by
  rw [PortFails, if_congr hiff rfl rfl] at h
  exact h

/-! ### A write port -/

section
variable {b : Bay} {s : State} {o : Op} {l : List WrReq} (hb : s.present b = true) (ho : s.op? o.ctx o.seq = some o)
  (hr : (s.cx o.ctx).rstBusy = false) (h0 : o.status = 0) (add : Bool)
include ho hr h0

/-- What a good response leaves: with the last one the operation completes, before it the operation waits for one response less. -/
theorem response_ok (hstage : o.stage = .flushing) (hwait : (s.by b).port.wrWait = []) {last : Prop} [Decidable last]
    (hlast : (o.responded add).wrs = 0 ∧ (o.responded add).acks = 0 ↔ last) {t : State}
    (ht : t = pumpPorts b (ownerDone (.op o.ctx o.seq) add (setWr b l s))) :
    (t.by b).port.wr = l ∧ t.staging = s.staging ∧ SameSetup s t ∧
      if last then EndsWith s o 0 t
      else ∃ p ∈ t.ops, p.ctx = o.ctx ∧ p.seq = o.seq ∧ if add then p.acks = o.acks - 1 else p.wrs = o.wrs - 1 := by
  have hv := setWr_baysOnly b l s
  have hdep := ownerDone_departs hv.ops ho add hstage
  have hpump := pumpPorts_baysOnly b (ownerDone (.op o.ctx o.seq) add (setWr b l s))
  have hout := ownerDone_outcome hv.ctx hv.ops ho hr h0 add hstage
  have hport := hdep.port b
  rw [setWr_port] at hport
  rw [if_congr hlast rfl rfl] at hout
  subst ht
  refine ⟨?_, ?_, SameSetup.trans hv.setup (SameSetup.trans hdep.silent.setup hpump.setup), ?_⟩
  · rw [pumpPorts_wr (by rw [hport]; exact hwait), hport]
  · rw [hpump.staging, hdep.rest]
    rfl
  · split at hout
    · next h =>
      rw [if_pos h]
      exact hpump.endsWith hout
    · next h =>
      rw [if_neg h]
      exact hout

/-- What an error response leaves. -/
theorem response_err {last : Prop} [Decidable last] (hlast : (o.responded add).wrs = 0 ∧ (o.responded add).acks = 0 ↔ last) {t : State}
    (ht : t = pumpPorts b (ownerFailed b add true (.op o.ctx o.seq) (setWr b l s))) :
    SameSetup s t ∧ Logged s t 0x12 5 (b.val * 2 ^ 28 + 1) ∧ PortFails s o last t := by
  have hv := setWr_baysOnly b l s
  have hpump := pumpPorts_baysOnly b (ownerFailed b add true (.op o.ctx o.seq) (setWr b l s))
  have hfails := ownerFailed_fails hv.ctx hv.ops ho hr h0 add b
  subst ht
  refine ⟨SameSetup.trans ?_ hpump.setup, logged_of_entered fun hfree => hpump.entered ?_, hpump.portFails (hfails.congr hlast)⟩
  · rw [ownerFailed_eq hv.ops ho]
    exact SameSetup.trans hv.setup (SameSetup.trans (sameSetup_of_keeps (modOp_keeps ..)) (portFail_setup b true))
  · rw [ownerFailed_eq hv.ops ho]
    exact portFail_entered b true (roomy_of_free (s := s) rfl hfree)

end

/-! ### PORT_TMO -/

/-- The block when a request of the write port expired (R206). -/
def writeExpired (b : Bay) (tag : BitVec 12) (time : Nat) (s : State) : State :=
  goneWr b tag (setWr b [] (at' (tmoAt s time) s))

/-- The block when the only request of the read port expired. -/
def readExpired (b : Bay) (tag : BitVec 14) (time : Nat) (s : State) : State :=
  (at' (tmoAt s time) s).modBay b fun x => { x with port := { x.port with rd := [], rdGone := x.port.rdGone ++ [tag] } }

/-- A request has expired: time has passed, and its port no longer holds it. -/
structure Expired (s v : State) : Prop where
  setup : SameSetup s v
  ctx : v.ctx = s.ctx
  ops : v.ops = s.ops
  log : v.ras.log = s.ras.log
  failWin : v.g.failWin = s.g.failWin

theorem expired_of_passed {s u v : State} (h : Passed s u) (k : BaysOnly u v) : Expired s v :=
  ⟨SameSetup.trans h.flowed.setup k.setup, k.ctx.trans h.flowed.ctx, k.ops.trans (by rw [h.rest]),
    by rw [k.rest]; exact congrArg Ras.log h.flowed.ras, k.failWin.trans (by rw [h.flowed.g])⟩

theorem writeExpired_expired (b : Bay) (tag : BitVec 12) (time : Nat) (s : State) : Expired s (writeExpired b tag time s) :=
  expired_of_passed (at'_passed ..) ⟨rfl⟩

theorem readExpired_expired (b : Bay) (tag : BitVec 14) (time : Nat) (s : State) : Expired s (readExpired b tag time s) :=
  expired_of_passed (at'_passed ..) ⟨rfl⟩

theorem writeExpired_expiries (b : Bay) (tag : BitVec 12) (time : Nat) (s : State) :
    ((writeExpired b tag time s).by b).port.expiries true = (s.by b).port.expiries true := by
  rw [writeExpired, goneWr, modBay_by, setWr_port, (at'_passed ..).flowed.port]
  rfl

theorem readExpired_port (b : Bay) (tag : BitVec 14) (time : Nat) (s : State) : ((readExpired b tag time s).by b).port =
    { (s.by b).port with rd := [], rdGone := (s.by b).port.rdGone ++ [tag] } := by
  rw [readExpired, modBay_by, (at'_passed ..).flowed.port]

/-- What stands after the failure of an operation by an expiry. -/
structure ExpiryFails (s : State) (o : Op) (b : Bay) (wr : Bool) (last : Prop) [Decidable last] (clk : Nat) (t : State) : Prop where
  clk : t.clk = clk
  setup : SameSetup s t
  logged : Logged s t 0x12 5 (b.val * 2 ^ 28 + wr.toNat)
  few : expired s t ((s.by b).port.expiries wr) < 3 → PortFails s o last t
  fourth : 3 ≤ expired s t ((s.by b).port.expiries wr) → t.inService b = false

/-- An expiry that has made an operation fail is counted. -/
theorem expiry_counted {s v : State} {o : Op} {b : Bay} {wr : Bool} {last : Prop} [Decidable last] (hset : SameSetup s v)
    (hwin : v.g.failWin = s.g.failWin) (hexp : (v.by b).port.expiries wr = (s.by b).port.expiries wr)
    (hent : (∃ i, s.ras.log.get i = none) → Entered v 0x12 5 (b.val * 2 ^ 28 + wr.toNat)) (hfails : PortFails s o last v) :
    ExpiryFails s o b wr last v.clk (pumpPorts b (countExpiry b wr v)) := by
  have hk := countExpiry_kept b wr v
  have hpump := pumpPorts_baysOnly b (countExpiry b wr v)
  exact ⟨hpump.clk.trans hk.clk, SameSetup.trans hset (SameSetup.trans hk.setup hpump.setup),
    logged_of_entered fun hfree => hpump.entered (hk.entered (hent hfree)), expiry_few hwin hexp hfails, expiry_fourth hwin hexp⟩

section
variable {b : Bay} {s : State} {o : Op} (ho : s.op? o.ctx o.seq = some o) (hr : (s.cx o.ctx).rstBusy = false) (h0 : o.status = 0)
include ho hr h0

/-- What the expiry of a flush leaves. -/
theorem writeExpiry_fails (tag : BitVec 12) (time : Nat) : ExpiryFails s o b true ((o.responded false).wrs = 0 ∧ (o.responded false).acks = 0)
    (max s.clk (tmoAt s time)) (pumpPorts b (countExpiry b true (ownerFailed b false true (.op o.ctx o.seq) (writeExpired b tag time s)))) := by
  have hv := writeExpired_expired b tag time s
  have hfails := ownerFailed_fails hv.ctx hv.ops ho hr h0 false b
  have hclk : (writeExpired b tag time s).clk = max s.clk (tmoAt s time) := at'_clk ..
  rw [ownerFailed_eq hv.ops ho] at hfails ⊢
  rw [← hclk, show (writeExpired b tag time s).clk = _ from (portFail_clk b true (o := o.responded false)
    (s := (writeExpired b tag time s).modOp o.ctx o.seq (Op.responded false))).symm]
  refine expiry_counted ?_ ?_ ?_ (fun hfree => portFail_entered b true (roomy_of_free hv.log hfree)) hfails
  · exact SameSetup.trans hv.setup (SameSetup.trans (sameSetup_of_keeps (modOp_keeps ..)) (portFail_setup b true))
  · exact (portFail_failWin b true).trans hv.failWin
  · rw [portFail_port]
    exact writeExpired_expiries ..

/-- What the expiry of the only read leaves. -/
theorem readExpiry_fails (tag : BitVec 14) (time : Nat) : ExpiryFails s o b false (o.wrs = 0 ∧ o.acks = 0) (max s.clk (tmoAt s time))
    (pumpPorts b (countExpiry b false (setRd b [] (portFail b false o (readExpired b tag time s))))) := by
  have hv := readExpired_expired b tag time s
  have hop : (readExpired b tag time s).op? o.ctx o.seq = some o := by
    rw [State.op?, hv.ops]
    exact ho
  have hbusy : ((readExpired b tag time s).cx o.ctx).rstBusy = false := by rw [cx_of_ctx hv.ctx, hr]
  have hset := setRd_baysOnly b [] (portFail b false o (readExpired b tag time s))
  have hclk : (setRd b [] (portFail b false o (readExpired b tag time s))).clk = max s.clk (tmoAt s time) :=
    (hset.clk.trans (portFail_clk b false)).trans (at'_clk ..)
  rw [← hclk]
  refine expiry_counted ?_ ?_ ?_ (fun hfree => hset.entered (portFail_entered b false (roomy_of_free hv.log hfree))) ?_
  · exact SameSetup.trans hv.setup (SameSetup.trans (portFail_setup b false) hset.setup)
  · exact hset.failWin.trans ((portFail_failWin b false).trans hv.failWin)
  · rw [setRd_port, portFail_port, readExpired_port]
    rfl
  · exact hset.portFails (PortFails.counted (portFail_fails b false hop hbusy h0) Iff.rfl hv.ctx ⟨rfl, rfl, rfl, rfl⟩ rfl rfl rfl ho hop)

end

theorem readExpiry_port (b : Bay) (tag : BitVec 14) (time : Nat) (o : Op) (s : State) (hwait : (s.by b).port.rdWait = []) :
    ((pumpPorts b (countExpiry b false (setRd b [] (portFail b false o (readExpired b tag time s))))).by b).port.rd = [] ∧
    ((pumpPorts b (countExpiry b false (setRd b [] (portFail b false o (readExpired b tag time s))))).by b).port.rdGone =
      (s.by b).port.rdGone ++ [tag] := by
  have hk := countExpiry_kept b false (setRd b [] (portFail b false o (readExpired b tag time s)))
  have hport : ((setRd b [] (portFail b false o (readExpired b tag time s))).by b).port =
      { (s.by b).port with rd := [], rdGone := (s.by b).port.rdGone ++ [tag] } := by rw [setRd_port, portFail_port, readExpired_port]
  obtain ⟨hrd, hgone⟩ := pumpPorts_rd (hk.rdWait.trans (by rw [hport]; exact hwait))
  exact ⟨(hrd.trans hk.rd).trans (by rw [hport]), (hgone.trans hk.rdGone).trans (by rw [hport])⟩

/-! ### The commands -/

section
variable {b : Bay} {s : State} {w : Owner} {time : Nat} (hb : s.present b = true)
include hb

theorem exec_aack {tag : BitVec 12} {line : Nat} {far : Bool} {k : Ctx} {lanes : BitVec 16} {adds : List Word} {l : List WrReq}
    (hwr : (s.by b).port.wr = .afadd tag line far k lanes adds w time :: l) (st : PortStatus) : exec (.aack b tag st) s =
    .next (pumpPorts b (if st == .ok then ownerDone w true (setWr b l s) else ownerFailed b true true w (setWr b l s))) := by
  show execAack b tag st s = _
  rw [execAack, hb, hwr, takeAdd_head]
  rfl

theorem exec_fack {tag : BitVec 12} {l : List WrReq} (hwr : (s.by b).port.wr = .flush tag w time :: l) (st : PortStatus) :
    exec (.fack b tag st) s =
      .next (pumpPorts b (if st == .ok then ownerDone w false (setWr b l s) else ownerFailed b false true w (setWr b l s))) := by
  show execFack b tag st s = _
  rw [execFack, hb, hwr, takeFlush_head]
  rfl

theorem exec_writeExpiry {tag : BitVec 14} (hwr : (s.by b).port.wr = [.flush (tag.truncate 12) w time]) : exec (.portTmoExpiry b true tag) s =
    .next (pumpPorts b (countExpiry b true (ownerFailed b false true w (writeExpired b (tag.truncate 12) time s)))) := by
  have hexpiry : writeExpiry b (tag.truncate 12) s =
      countExpiry b true (ownerFailed b false true w (writeExpired b (tag.truncate 12) time s)) := by
    rw [writeExpiry, hwr, takeFlush_head]
    rfl
  show execPortTmoExpiry b true tag s = _
  rw [execPortTmoExpiry, hb, hexpiry]
  rfl

theorem exec_readExpiry {r : RdReq} {o : Op} (hrd : (s.by b).port.rd = [r]) (hnone : r.reply = none) (howner : r.owner = .op o.ctx o.seq)
    (ho : s.op? o.ctx o.seq = some o) : exec (.portTmoExpiry b false r.tag) s =
    .next (pumpPorts b (countExpiry b false (setRd b [] (portFail b false o (readExpired b r.tag r.time s))))) := by
  have hdrop : dropRead r.tag [r] = (some r, []) := by
    rw [dropRead, hnone]
    simp
  have hop : (readExpired b r.tag r.time s).op? o.ctx o.seq = some o := by
    rw [State.op?, (readExpired_expired ..).ops]
    exact ho
  have hexpiry : readExpiry b r.tag s = countExpiry b false (setRd b [] (portFail b false o (readExpired b r.tag r.time s))) := by
    rw [← readFailed_op howner hop, readExpiry, hrd, hdrop]
    rfl
  show execPortTmoExpiry b false r.tag s = _
  rw [execPortTmoExpiry, hb, hexpiry]
  rfl

end

/-- Settles O35: a response and an expiry fail their operation in one way; an expiry is counted as well. -/
theorem writePortAnswers : Obligations.WritePortAnswers := by
  intro b s c q o time hb ho hr h0
  obtain ⟨rfl, rfl, -⟩ := op?_is ho
  refine ⟨fun hstage hwait => ⟨fun tag line far k lanes adds l hwr => ⟨?_, ?_⟩, fun tag l hwr => ⟨?_, ?_⟩, fun tag hwr => ?_⟩,
    fun r hstage hrd hwait hnone howner => ?_⟩
  · exact ⟨_, exec_aack hb hwr .ok, response_ok ho hr h0 true hstage hwait (responded_add_last o) rfl⟩
  · exact ⟨_, exec_aack hb hwr .err, response_err ho hr h0 true (responded_add_last o) rfl⟩
  · exact ⟨_, exec_fack hb hwr .ok, response_ok ho hr h0 false hstage hwait (responded_flush_last o) rfl⟩
  · exact ⟨_, exec_fack hb hwr .err, response_err ho hr h0 false (responded_flush_last o) rfl⟩
  · have h := writeExpiry_fails (b := b) ho hr h0 (tag.truncate 12) time
    exact ⟨_, exec_writeExpiry hb hwr, h.clk, h.setup, h.logged, fun hfew => (h.few hfew).congr (responded_flush_last o), h.fourth⟩
  · have h := readExpiry_fails (b := b) ho hr h0 r.tag r.time
    have hlogged := h.logged
    rw [Bool.toNat_false, Nat.add_zero] at hlogged
    obtain ⟨hrds, hgone⟩ := readExpiry_port b r.tag r.time o s hwait
    exact ⟨_, exec_readExpiry hb hrd hnone howner ho, h.clk, h.setup, hrds, hgone, hlogged, h.few, h.fourth⟩

end Sys2Proof.Claims
end
